-- ==== Sys2Proof/Word.lean ====
section
/-!
DEFINITION. The word types of the Kelium 9 (R229, R243): lane registers are 32 bits, uniform registers 64.
-/

namespace Sys2Proof

abbrev Byte := BitVec 8
abbrev Half := BitVec 16
abbrev Word := BitVec 32
abbrev DWord := BitVec 64

end Sys2Proof
end

