-- ==== Sys2Proof/Config.lean ====
section
/-!
DEFINITION. What the spec leaves to the part or leaves open. Every constant here is opaque: nothing in Lean can
evaluate it, so a claim holds whatever its value is. The assumption log names each one.
-/

namespace Sys2Proof.Config

/-- Bits [63:16] of IDENT: stepping and serial number (R358). -/
opaque identHigh : BitVec 48

/-- The identity certificates: the register at an offset of 0x2_0000 to 0x2_FFFF (R367). -/
opaque idCert : Nat → DWord

/-- Whether Ralori port `port` reaches the node `node` (R363, R393): the wiring of the fabric. -/
opaque portReaches (port node : Nat) : Bool

/-- A free value: whatever the hardware gives where the spec states no value. Applied to the State's counter. -/
opaque freeByte : Nat → Byte

/-- A free word. -/
opaque freeWord : Nat → Word

/-- The part's special-function unit: form (1 FRSQ, 2 FEX2, 3 FLG2, 4 FSIN, 5 FCOS, 7 FTANH) and input bits (R270). -/
opaque sfu (form : Nat) (x : Word) : Word

/-- The set of L1 that a line of memory lies in (R104): how L1 is divided into sets the spec does not say. -/
opaque l1Set (line : Nat) : Nat

/-- A free choice between two outcomes that the spec allows. -/
opaque freeBool : Nat → Bool

/-- What the quotient of an FP32 value by a zero scale is taken for, as an FP32 pattern (R341, R342). -/
opaque zeroScale : Word → Word

/-- The Crumb code of the event that a context's numeric counts are dropped (R410). -/
opaque numLostEvent : BitVec 16

/-- The firmware image that the part's flash holds as delivered, the security version an image bears, the version fused into
the part, and whether an image's ECDSA P-384 and LMS signatures verify (R14, R368): the keys are the part's. -/
opaque factoryImage : List Byte
opaque imageVersion : List Byte → Word
opaque fusedVersion : Word
opaque ecdsaVerifies : List Byte → Bool
opaque lmsVerifies : List Byte → Bool
/-- How many HSS signatures the part could still make when the machine began (R367). -/
opaque hssStock : Nat

/-- The signatures of an attestation report: ECDSA P-384 and HSS over its first 176 bytes (R367). -/
opaque signEcdsa : List Byte → Nat → List Byte
opaque signHss : List Byte → Nat → List Byte

/-- What the header of an AV1 temporal unit and its decode come to (R181, R454, R455): 0 a shown frame, 1 none shown,
2 corrupt with a known size, 3 corrupt without one, 4 outside the supported subset. -/
structure Av1 where
  kind : Nat
  width : Nat
  height : Nat
  mono : Bool
  /-- A key frame, which restores clean decoding. -/
  key : Bool
  /-- The earlier units, counted from NEWSEQ, whose frames it references. -/
  refs : List Nat
  /-- Of its film grain: apply_grain, grain_seed, and the bits of film_grain_params() (R182). -/
  applyGrain : Bool
  grainSeed : BitVec 16
  grainParams : List Bool
  /-- The decoder's state after it. -/
  state : List Byte
deriving DecidableEq, Repr, Inhabited

/-- The AV1 decoder: low-overhead stream or Annex B, the decoder's state, the temporal unit. The AV1 specification is no
part of the spec. -/
opaque av1 (low : Bool) (state unit : List Byte) : Av1

/-- The sample that the decoder gives plane, x and y of a unit's shown frame. -/
opaque av1Sample (low : Bool) (state unit : List Byte) (plane x y : Nat) : Nat

end Sys2Proof.Config
end

