-- ==== Sys2Proof/Machine/Table.lean ====
section
/-!
DEFINITION. Lists used as tables: pairs with keys strictly rising, tables with a default value that is never listed,
and register files that extend themselves with their default.
-/

namespace Sys2Proof.Machine

variable {α : Type}

/-- The value listed at a key. -/
def tget : List (Nat × α) → Nat → Option α
  | [], _ => none
  | (a, v) :: r, k => if a = k then some v else tget r k

/-- Lists a value at a key, keeping the keys rising. -/
def tset : List (Nat × α) → Nat → α → List (Nat × α)
  | [], k, v => [(k, v)]
  | (a, w) :: r, k, v =>
    if k < a then (k, v) :: (a, w) :: r
    else if k = a then (k, v) :: r
    else (a, w) :: tset r k v

/-- Removes a key. -/
def tdel : List (Nat × α) → Nat → List (Nat × α)
  | [], _ => []
  | (a, w) :: r, k => if a = k then r else (a, w) :: tdel r k

/-- Reads a table whose unlisted keys read `d`. -/
def cget (d : α) (l : List (Nat × α)) (k : Nat) : α :=
  match tget l k with
  | some v => v
  | none => d

/-- Writes such a table; the default itself is not listed. -/
def cset [DecidableEq α] (d : α) (l : List (Nat × α)) (k : Nat) (v : α) : List (Nat × α) :=
  if v = d then tdel l k else tset l k v

/-- The keys strictly rise from `lo` on. -/
def risingFrom : Nat → List (Nat × α) → Bool
  | _, [] => true
  | lo, (a, _) :: r => decide (lo ≤ a) && risingFrom (a + 1) r

/-- Adds a number to a rising list of numbers. -/
def nadd : List Nat → Nat → List Nat
  | [], k => [k]
  | a :: r, k => if k < a then k :: a :: r else if k = a then a :: r else a :: nadd r k

/-- Replaces entry `i` of a list, extending it with `d` where it is shorter. -/
def padSet (d : α) : List α → Nat → α → List α
  | [], 0, x => [x]
  | [], n + 1, x => d :: padSet d [] n x
  | _ :: r, 0, x => x :: r
  | a :: r, n + 1, x => a :: padSet d r n x

/-- The numbers below `n`, ascending. -/
def upto (n : Nat) : List Nat := List.range n

/-- Puts an element before the first one of a sorted list that it comes before. -/
def sortIn (before : α → α → Bool) (x : α) : List α → List α
  | [] => [x]
  | y :: r => if before x y then x :: y :: r else y :: sortIn before x r

/-- A list in an order. -/
def sortBy (before : α → α → Bool) (l : List α) : List α := l.foldr (sortIn before) []

/-- The first index from `i` on, within `n`, that satisfies `f`. -/
def firstFrom (f : Nat → Bool) (i : Nat) : Nat → Option Nat
  | 0 => none
  | n + 1 => if f i then some i else firstFrom f (i + 1) n

end Sys2Proof.Machine
end

