-- ==== Sys2Proof/Machine/Bits.lean ====
section
/-!
DEFINITION. Bits and bytes (R2, R3, R8): little-endian bytes of a value, single bits, and the counting operations.
-/

namespace Sys2Proof.Machine

/-- The low `n` bytes of a value, least significant first (R3). -/
def bytesOf : Nat → Nat → List Byte
  | 0, _ => []
  | n + 1, x => BitVec.ofNat 8 x :: bytesOf n (x / 256)

/-- The value whose bytes these are, least significant first (R3). -/
def ofBytes : List Byte → Nat
  | [] => 0
  | b :: r => b.toNat + 256 * ofBytes r

/-- Bytes `[lo, lo + n)` of a list as a value; missing bytes read 0. -/
def bytesAt (l : List Byte) (lo n : Nat) : Nat := ofBytes ((l.drop lo).take n)

/-- Bits `[lo, lo + n)` of a number. -/
def bitsAt (x lo n : Nat) : Nat := x / 2 ^ lo % 2 ^ n

/-- Bit `i` set to `b`. -/
def setBit {w : Nat} (x : BitVec w) (i : Nat) (b : Bool) : BitVec w :=
  if b then x ||| BitVec.ofNat w (2 ^ i) else x &&& ~~~(BitVec.ofNat w (2 ^ i))

/-- 1 for true, 0 for false. -/
def bit (w : Nat) (b : Bool) : BitVec w := if b then 1 else 0

/-- The mask whose bits are the listed numbers. -/
def maskOf (w : Nat) (l : List Nat) : BitVec w := l.foldl (fun m i => m ||| BitVec.ofNat w (2 ^ i)) 0

/-- The number of bits set among the low `n`. -/
def popCount : Nat → Nat → Nat
  | 0, _ => 0
  | n + 1, x => x % 2 + popCount n (x / 2)

/-- The zeros above the highest set bit of an `n`-bit number. -/
def leadingZeros (n x : Nat) : Nat := if x = 0 then n else n - 1 - Nat.log2 x

/-- The place of the lowest set bit among the low `n`. -/
def lowestSet : Nat → Nat → Option Nat
  | 0, _ => none
  | n + 1, x => if x % 2 = 1 then some 0 else (lowestSet n (x / 2)).map (· + 1)

/-- The low `n` bits in the opposite order. -/
def reverseBits : Nat → Nat → Nat
  | 0, _ => 0
  | n + 1, x => (x % 2) * 2 ^ n + reverseBits n (x / 2)

/-- rotl64 (R8). -/
def rotl64 (x : DWord) (n : Nat) : DWord := x.rotateLeft (n % 64)

/-- A power of two from `lo` to `hi`. -/
def powerBetween (n lo hi : Nat) : Bool := decide (lo ≤ n) && decide (n ≤ hi) && decide (2 ^ Nat.log2 n = n)

/-- The two's complement value `x` clamped into `[lo, hi]` (R8 sat). -/
def clamp (x lo hi : Int) : Int := if x < lo then lo else if hi < x then hi else x

end Sys2Proof.Machine
end

