-- ==== Sys2Proof/Machine/Flags.lean ====
section
/-!
DEFINITION. Every computation of a predicate or flag that a compare makes (R234).
-/

namespace Sys2Proof.Machine

/-- The integer condition CC of ICMPP and SSETC on operands of any width. -/
def intCond {n : Nat} (cc : BitVec 3) (a b : BitVec n) : Bool :=
  match cc.toNat with
  | 0 => a == b
  | 1 => a != b
  | 2 => decide (a.toInt < b.toInt)
  | 3 => decide (a.toInt ≤ b.toInt)
  | 4 => decide (b.toInt < a.toInt)
  | 5 => decide (b.toInt ≤ a.toInt)
  | 6 => decide (a.toNat < b.toNat)
  | _ => decide (b.toNat ≤ a.toNat)

/-- How two FP32 operands stand to each other. -/
inductive Cmp where
  | less | equal | greater | unordered
deriving DecidableEq, Repr

/-- The floating condition CC of FCMPP. -/
def floatCond (cc : BitVec 3) (c : Cmp) : Bool :=
  match cc.toNat with
  | 0 => c == .equal
  | 1 => c != .equal
  | 2 => c == .less
  | 3 => c == .less || c == .equal
  | 4 => c == .greater
  | 5 => c == .greater || c == .equal
  | 6 => c != .unordered
  | _ => c == .unordered

/-- How F combines the condition with the old predicate or flag. -/
def combine (f : BitVec 2) (old cond : Bool) : Bool :=
  match f.toNat with
  | 0 => cond
  | 1 => old && cond
  | 2 => old || cond
  | _ => Bool.xor old cond

end Sys2Proof.Machine
end

