-- ==== Sys2Proof/Machine/Real.lean ====
section
/-!
DEFINITION. Exact values and their rounding (R8, R42 to R46): a value is a NaN, an infinity or a signed fraction, an
operation is computed exactly, and one rounding to nearest even gives the bits.
-/

namespace Sys2Proof.Machine

/-- A value before rounding: `fin neg n d` is ±n/d, and n = 0 is a zero of that sign. -/
inductive FVal where
  | nan
  | inf (neg : Bool)
  | fin (neg : Bool) (n d : Nat)
deriving DecidableEq, Repr

/-- A fixed format (R42): exponent and mantissa widths, and whether subnormals are flushed (R45). -/
structure Fmt where
  eb : Nat
  mb : Nat
  flush : Bool
deriving DecidableEq, Repr

def fp32 : Fmt := { eb := 8, mb := 23, flush := false }
def fp16 : Fmt := { eb := 5, mb := 10, flush := false }
def bf16 : Fmt := { eb := 8, mb := 7, flush := true }

def Fmt.bias (f : Fmt) : Nat := 2 ^ (f.eb - 1) - 1

/-- The magnitude bits of infinity. -/
def Fmt.infBits (f : Fmt) : Nat := (2 ^ f.eb - 1) * 2 ^ f.mb

/-- The canonical NaN (R42). -/
def Fmt.nanBits (f : Fmt) : Nat := f.infBits + 2 ^ (f.mb - 1)

def Fmt.signBit (f : Fmt) : Nat := 2 ^ (f.eb + f.mb)

/-- n/d times 2^e as a fraction. -/
def scale2 (n d : Nat) (e : Int) : Nat × Nat :=
  match e with
  | .ofNat k => (n * 2 ^ k, d)
  | .negSucc k => (n, d * 2 ^ (k + 1))

/-- The value of a pattern. A subnormal of a flushing format enters as zero (R45). -/
def Fmt.decode (f : Fmt) (x : Nat) : FVal :=
  let m := x % 2 ^ f.mb
  let e := x / 2 ^ f.mb % 2 ^ f.eb
  let neg := x / f.signBit % 2 = 1
  if e = 2 ^ f.eb - 1 then (if m = 0 then .inf neg else .nan)
  else if e = 0 then
    if f.flush then .fin neg 0 1 else .fin neg m (2 ^ (f.bias + f.mb - 1))
  else
    let r := scale2 (2 ^ f.mb + m) 1 ((e : Int) - f.bias - f.mb)
    .fin neg r.1 r.2

/-- The exponent of the leading 1 bit of n/d, for n and d not 0. -/
def leadExp (n d : Nat) : Int :=
  let e : Int := (Nat.log2 n : Int) - Nat.log2 d
  let r := scale2 d 1 e
  if n * r.2 < r.1 then e - 1 else e

/-- n/d rounded to an integer, a tie going to the even one. -/
def divRne (n d : Nat) : Nat :=
  let q := n / d
  let r := n % d
  if d < 2 * r ∨ (2 * r = d ∧ q % 2 = 1) then q + 1 else q

/-- The place of n/d in the sequence of the magnitudes of a format with mantissa width `mb` and exponent bias `bias`,
continued above without end: rounded to nearest, a tie going to the even place (R43, R54). Place 2^mb is the smallest
normal. -/
def roundPlace (mb : Nat) (bias : Int) (n d : Nat) : Nat :=
  if n = 0 then 0
  else
    let emin : Int := 1 - bias
    let e := max (leadExp n d) emin
    let r := scale2 n d ((mb : Int) - e)
    let k := r.1 / r.2
    let place : Int := (e + bias) * 2 ^ mb + (k : Int) - 2 ^ mb
    let rest := r.1 % r.2
    let up := decide (r.2 < 2 * rest) || (decide (2 * rest = r.2) && decide (place % 2 = 1))
    (place + (if up then 1 else 0)).toNat

/-- Rounds a value into a fixed format (R8 rne32, rne16, rneb; R43 to R45). -/
def Fmt.round (f : Fmt) (v : FVal) : Nat :=
  match v with
  | .nan => f.nanBits
  | .inf neg => f.infBits + (if neg then f.signBit else 0)
  | .fin neg n d =>
    let p := min (roundPlace f.mb f.bias n d) f.infBits
    let p := if f.flush ∧ p < 2 ^ f.mb then 0 else p
    p + (if neg then f.signBit else 0)

/-! ### Exact arithmetic -/

/-- The signed numerator. -/
def signed (neg : Bool) (n : Nat) : Int := if neg then -(n : Int) else n

/-- An exact sum. An exact zero is −0 only when both parts are negative zeros (R267). -/
def FVal.add : FVal → FVal → FVal
  | .nan, _ => .nan
  | _, .nan => .nan
  | .inf a, .inf b => if a == b then .inf a else .nan
  | .inf a, .fin _ _ _ => .inf a
  | .fin _ _ _, .inf b => .inf b
  | .fin a n d, .fin b m e =>
    let z := signed a (n * e) + signed b (m * d)
    .fin (if z = 0 then a && b else decide (z < 0)) z.natAbs (d * e)

def FVal.neg : FVal → FVal
  | .nan => .nan
  | .inf a => .inf (!a)
  | .fin a n d => .fin (!a) n d

def FVal.sub (x y : FVal) : FVal := x.add y.neg

/-- An exact product; 0 × ∞ is invalid. -/
def FVal.mul : FVal → FVal → FVal
  | .nan, _ => .nan
  | _, .nan => .nan
  | .inf a, .inf b => .inf (Bool.xor a b)
  | .inf a, .fin b m _ => if m = 0 then .nan else .inf (Bool.xor a b)
  | .fin a n _, .inf b => if n = 0 then .nan else .inf (Bool.xor a b)
  | .fin a n d, .fin b m e => .fin (Bool.xor a b) (n * m) (d * e)

/-- An exact quotient of finite values by a nonzero one; by zero it is an infinity, and 0/0 and ∞/∞ are invalid. -/
def FVal.div : FVal → FVal → FVal
  | .nan, _ => .nan
  | _, .nan => .nan
  | .inf _, .inf _ => .nan
  | .inf a, .fin b _ _ => .inf (Bool.xor a b)
  | .fin a _ _, .inf b => .fin (Bool.xor a b) 0 1
  | .fin a n d, .fin b m e =>
    if m = 0 then (if n = 0 then .nan else .inf (Bool.xor a b)) else .fin (Bool.xor a b) (n * e) (d * m)

def FVal.isNan (x : FVal) : Bool := x == .nan

/-- An integer as a value. -/
def FVal.ofInt (x : Int) : FVal := .fin (decide (x < 0)) x.natAbs 1

/-- The order of two values; −0 equals +0. -/
def FVal.cmp : FVal → FVal → Cmp
  | .nan, _ => .unordered
  | _, .nan => .unordered
  | .inf a, .inf b => if a == b then .equal else if a then .less else .greater
  | .inf a, .fin _ _ _ => if a then .less else .greater
  | .fin _ _ _, .inf b => if b then .greater else .less
  | .fin a n d, .fin b m e =>
    let x := signed a (n * e)
    let y := signed b (m * d)
    if x < y then .less else if x = y then .equal else .greater

/-- The sign of a value that is no NaN. -/
def FVal.isNeg : FVal → Bool
  | .nan => false
  | .inf a => a
  | .fin a _ _ => a

/-- The order of minimumNumber and maximumNumber, in which −0 stands below +0 (R46). -/
def below (x y : FVal) : Bool :=
  match x.cmp y with
  | .less => true
  | .equal => x.isNeg && !y.isNeg
  | _ => false

/-- minimumNumber on patterns; equal values give the first (R46). Beside a NaN the other operand is the result, as a value:
a flushed subnormal gives its zero (R45, R275). -/
def Fmt.minNum (f : Fmt) (a b : Nat) : Nat :=
  match f.decode a, f.decode b with
  | .nan, .nan => f.nanBits
  | .nan, y => f.round y
  | x, .nan => f.round x
  | x, y => if below y x then b else a

/-- maximumNumber on patterns. -/
def Fmt.maxNum (f : Fmt) (a b : Nat) : Nat :=
  match f.decode a, f.decode b with
  | .nan, .nan => f.nanBits
  | .nan, y => f.round y
  | x, .nan => f.round x
  | x, y => if below x y then b else a

/-- A finite value rounded to an integer, ties to even (R272 rnei). -/
def rnei (neg : Bool) (n d : Nat) : Int := signed neg (divRne n d)

/-- How a value is rounded to an integral one (R273). -/
inductive Direction where
  | nearest | down | up | zero
deriving DecidableEq, Repr

def roundInt (dir : Direction) (neg : Bool) (n d : Nat) : Nat :=
  let up := (n + d - 1) / d
  let down := n / d
  match dir with
  | .nearest => divRne n d
  | .down => if neg then up else down
  | .up => if neg then down else up
  | .zero => down

/-- The integral value in a direction, a zero keeping the sign of the input (R273). -/
def FVal.integral (dir : Direction) : FVal → FVal
  | .fin a n d => .fin a (roundInt dir a n d) 1
  | v => v

/-! ### FP32 on words -/

def f32 (x : Word) : FVal := fp32.decode x.toNat

def to32 (v : FVal) : Word := BitVec.ofNat 32 (fp32.round v)

def fadd32 (a b : Word) : Word := to32 ((f32 a).add (f32 b))
def fsub32 (a b : Word) : Word := to32 ((f32 a).sub (f32 b))
def fmul32 (a b : Word) : Word := to32 ((f32 a).mul (f32 b))
/-- One rounding of the addend plus the exact product (R267). -/
def ffma32 (c a b : Word) : Word := to32 ((f32 c).add ((f32 a).mul (f32 b)))
def fmin32 (a b : Word) : Word := BitVec.ofNat 32 (fp32.minNum a.toNat b.toNat)
def fmax32 (a b : Word) : Word := BitVec.ofNat 32 (fp32.maxNum a.toNat b.toNat)

/-- A 16-bit operation on each half of packed words (R274, R275). -/
def halves (f : Nat → Nat → Nat → Nat) (c a b : Word) : Word :=
  BitVec.ofNat 32 (f (c.toNat % 65536) (a.toNat % 65536) (b.toNat % 65536) % 65536 +
    65536 * (f (c.toNat / 65536) (a.toNat / 65536) (b.toNat / 65536) % 65536))

end Sys2Proof.Machine
end

