-- ==== Sys2Proof/Machine/Formats.lean ====
section
/-!
DEFINITION. Narrow formats and their format word (R47 to R51), scales (R52, R53), conversion into a format with and
without stochastic rounding (R54 to R57), and class entries (R81, R430).
-/

namespace Sys2Proof.Machine

/-! ### The format word -/

/-- A narrow format as its word describes it (R47). -/
structure NFmt where
  ew : Nat
  mw : Nat
  sg : Bool
  bias : Nat
  spec : Nat
  sub : Bool
  scale : Nat
  blk : Nat
deriving DecidableEq, Repr

def nfmtOf (x : Word) : NFmt :=
  let w := x.toNat
  { ew := bitsAt w 0 3, mw := bitsAt w 3 3, sg := w.testBit 6, bias := bitsAt w 8 8, spec := bitsAt w 16 2,
    sub := w.testBit 18, scale := bitsAt w 19 2, blk := bitsAt w 21 3 }

/-- The width w of a code (R49). -/
def NFmt.width (f : NFmt) : Nat := f.ew + f.mw + (if f.sg then 1 else 0)

/-- A valid format word (R48). -/
def nfmtValid (x : Word) : Bool :=
  let f := nfmtOf x
  decide (1 ≤ f.width) && decide (f.width ≤ 8) && decide (f.spec ≠ 3) && decide (f.blk ≤ 3) &&
    (decide (f.ew ≠ 0) || (f.spec == 0 && !f.sub)) &&
    (decide (f.spec ≠ 1) || (decide (1 ≤ f.ew) && decide (2 ≤ f.ew + f.mw))) &&
    (decide (f.spec ≠ 2) || (decide (2 ≤ f.ew) && decide (1 ≤ f.mw))) &&
    (decide (f.scale ≠ 2) || f.blk == 1) && ((f.scale == 1 || f.scale == 2) || f.blk == 0) &&
    bitsAt x.toNat 24 8 == 0 && !x.getLsbD 7

/-- The container of a code of width `w` (R51). -/
def containerOf (w : Nat) : Nat := if w ≤ 1 then 1 else if w ≤ 2 then 2 else if w ≤ 4 then 4 else 8

/-- The 1-bit format of +1 and −1 (R50). -/
def NFmt.binary (f : NFmt) : Bool := f.ew == 0 && f.sg && f.mw == 0

/-- The integer a code of an integer format stands for (R50). -/
def NFmt.intValue (f : NFmt) (code : Nat) : Int :=
  let c := code % 2 ^ f.width
  if f.binary then (if c = 0 then 1 else -1)
  else if f.sg ∧ 2 ^ (f.width - 1) ≤ c then (c : Int) - 2 ^ f.width
  else c

/-- The value of place `p` of the magnitudes of a format: 2^mb is the smallest normal's place. -/
def placeValue (mb : Nat) (bias : Int) (p : Nat) : Nat × Nat :=
  if p < 2 ^ mb then scale2 p 1 (1 - bias - mb)
  else scale2 (2 ^ mb + p % 2 ^ mb) 1 ((p / 2 ^ mb : Nat) - bias - mb)

/-- The place of the largest finite magnitude (R49). -/
def NFmt.maxPlace (f : NFmt) : Nat :=
  match f.spec with
  | 1 => if f.mw = 0 then 2 ^ f.ew - 2 else (2 ^ f.ew - 1) * 2 ^ f.mw + 2 ^ f.mw - 2
  | 2 => (2 ^ f.ew - 2) * 2 ^ f.mw + 2 ^ f.mw - 1
  | _ => (2 ^ f.ew - 1) * 2 ^ f.mw + 2 ^ f.mw - 1

/-- The value of a code, bits above it ignored (R49, R50, R51). -/
def NFmt.decode (f : NFmt) (code : Nat) : FVal :=
  let c := code % 2 ^ f.width
  if f.ew = 0 then
    let i := f.intValue c
    .fin (decide (i < 0)) i.natAbs (2 ^ f.bias)
  else
    let p := c % 2 ^ (f.ew + f.mw)
    let neg := f.sg && c.testBit (f.ew + f.mw)
    if f.spec = 1 ∧ p = 2 ^ (f.ew + f.mw) - 1 then .nan
    else if f.spec = 2 ∧ p / 2 ^ f.mw = 2 ^ f.ew - 1 then (if p % 2 ^ f.mw = 0 then .inf neg else .nan)
    else if p < 2 ^ f.mw ∧ !f.sub then .fin neg 0 1
    else
      let v := placeValue f.mw f.bias p
      .fin neg v.1 v.2

/-- The largest finite magnitude M (R49, R54). -/
def NFmt.largest (f : NFmt) : Nat × Nat :=
  if f.ew = 0 then
    ((if f.binary then 1 else if f.sg then 2 ^ (f.width - 1) - 1 else 2 ^ f.width - 1), 2 ^ f.bias)
  else placeValue f.mw f.bias f.maxPlace

/-! ### Conversion (R54) -/

/-- A conversion's code, and whether it is an event of R409: a NaN, a saturation. -/
structure Conv where
  code : Nat
  nan : Bool
  sat : Bool
deriving DecidableEq, Repr

/-- The canonical NaN's code, or +0 in a format without one (R49, R54). -/
def NFmt.nanCode (f : NFmt) : Nat :=
  if f.ew = 0 then 0
  else match f.spec with
    | 1 => 2 ^ (f.ew + f.mw) - 1
    | 2 => (2 ^ f.ew - 1) * 2 ^ f.mw + 2 ^ (f.mw - 1)
    | _ => 0

/-- A magnitude's place with a sign. -/
def NFmt.signed (f : NFmt) (neg : Bool) (p : Nat) : Nat := p + (if neg && f.sg then 2 ^ (f.ew + f.mw) else 0)

/-- The code of an integer of the format. -/
def NFmt.intCode (f : NFmt) (i : Int) : Nat := (i % 2 ^ f.width).toNat

/-- A place that exceeds M, or an infinity: ±M, the infinity, or 0 below an unsigned format (R54 step 3). -/
def NFmt.saturated (f : NFmt) (neg inf : Bool) : Conv :=
  if f.ew = 0 then
    if f.binary then { code := if neg then 1 else 0, nan := false, sat := true }
    else if f.sg then
      let m : Int := 2 ^ (f.width - 1) - 1
      { code := f.intCode (if neg then -m else m), nan := false, sat := true }
    else { code := if neg then 0 else 2 ^ f.width - 1, nan := false, sat := true }
  else if neg && !f.sg then { code := 0, nan := false, sat := true }
  else if f.spec = 2 then { code := f.signed neg ((2 ^ f.ew - 1) * 2 ^ f.mw), nan := false, sat := !inf }
  else { code := f.signed neg f.maxPlace, nan := false, sat := true }

/-- Conversion of a value into a narrow format (R54). -/
def NFmt.encode (f : NFmt) (v : FVal) : Conv :=
  match v with
  | .nan => { code := f.nanCode, nan := true, sat := false }
  | .inf neg => f.saturated neg true
  | .fin neg n d =>
    if f.ew = 0 then
      if f.binary then { code := if neg && n != 0 then 1 else 0, nan := false, sat := false }
      else
        let i := divRne (n * 2 ^ f.bias) d
        let top := if f.sg then 2 ^ (f.width - 1) - 1 else 2 ^ f.width - 1
        if i = 0 then { code := 0, nan := false, sat := false }
        else if top < i ∨ (neg && !f.sg) then f.saturated neg false
        else { code := f.intCode (Machine.signed neg i), nan := false, sat := false }
    else
      let p := roundPlace f.mw f.bias n d
      if p = 0 then { code := f.signed neg 0, nan := false, sat := false }
      else if f.maxPlace < p ∨ (neg && !f.sg) then f.saturated neg false
      else if p < 2 ^ f.mw ∧ !f.sub then { code := f.signed neg 0, nan := false, sat := false }
      else { code := f.signed neg p, nan := false, sat := false }

/-! ### Stochastic rounding (R56) -/

/-- The random bits z of an element. -/
def stochBits (seed index : Word) : Word :=
  let z := seed ^^^ (index * 0x6C8E9CF5)
  let z := (z ^^^ (z >>> 15)) * 0xB5A31E27
  z ^^^ (z >>> 13)

/-- Chooses between the magnitudes `lo` and `hi` around a/d: `r` is z[31:8]. The lower value is `hi` for a negative
number. The answer says whether the larger magnitude is taken. -/
def stochUp (neg : Bool) (a lo hi : Nat × Nat) (r : Nat) : Bool :=
  -- distance from the lower value, over the distance of the two
  let num := if neg then hi.1 * a.2 - a.1 * hi.2 else a.1 * lo.2 - lo.1 * a.2
  let den := if neg then hi.2 * a.2 else a.2 * lo.2
  let gapN := hi.1 * lo.2 - lo.1 * hi.2
  let gapD := hi.2 * lo.2
  let frac := 2 ^ 24 * num * gapD / (den * gapN)
  if neg then !decide (r < frac) else decide (r < frac)

/-- The place at or below n/d and whether n/d is exactly there. -/
def floorPlace (mb : Nat) (bias : Int) (n d : Nat) : Nat × Bool :=
  if n = 0 then (0, true)
  else
    let e := max (leadExp n d) (1 - bias)
    let r := scale2 n d ((mb : Int) - e)
    (((e + bias) * 2 ^ mb + ((r.1 / r.2 : Nat) : Int) - 2 ^ mb).toNat, decide (r.1 % r.2 = 0))

/-- The place a magnitude is rounded to by R56; `coarse` when nothing lies below the smallest normal but zero. -/
def stochPlace (mb : Nat) (bias : Int) (coarse neg : Bool) (n d r : Nat) : Nat :=
  let fl := floorPlace mb bias n d
  let lo := if coarse ∧ fl.1 < 2 ^ mb then 0 else fl.1
  let hi := if coarse ∧ fl.1 < 2 ^ mb then 2 ^ mb else fl.1 + 1
  if fl.2 ∧ (lo = fl.1) then lo
  else if stochUp neg (n, d) (placeValue mb bias lo) (placeValue mb bias hi) r then hi else lo

/-- |n/d| exceeds the magnitude `m`. -/
def beyond (n d : Nat) (m : Nat × Nat) : Bool := decide (m.1 * d < n * m.2)

/-- The R56 result in a narrow format. -/
def NFmt.stochastic (f : NFmt) (v : FVal) (seed index : Word) : Conv :=
  match v with
  | .fin neg n d =>
    let r := (stochBits seed index).toNat / 256
    if beyond n d f.largest ∨ (neg && !f.sg && n != 0) then f.encode v
    else if f.ew = 0 then
      if f.binary then
        -- the grid is −M and +M: x − lo over 2M
        let b := 2 ^ f.bias
        let num := if neg then d - min d (n * b) else n * b + d
        if n * b = d then f.encode v
        else { code := if r < 2 ^ 24 * num / (2 * d) then 0 else 1, nan := false, sat := false }
      else
        let q := n * 2 ^ f.bias / d
        let m := if n * 2 ^ f.bias % d = 0 then q
          else if stochUp neg (n, d) (q, 2 ^ f.bias) (q + 1, 2 ^ f.bias) r then q + 1 else q
        { code := f.intCode (Machine.signed neg m), nan := false, sat := false }
    else { code := f.signed neg (stochPlace f.mw f.bias (!f.sub) neg n d r), nan := false, sat := false }
  | _ => f.encode v

/-- The R56 result in FP16 or BF16. -/
def Fmt.stochastic (f : Fmt) (v : FVal) (seed index : Word) : Nat :=
  match v with
  | .fin neg n d =>
    if beyond n d (placeValue f.mb f.bias (f.infBits - 1)) then f.round v
    else stochPlace f.mb f.bias f.flush neg n d ((stochBits seed index).toNat / 256) + (if neg then f.signBit else 0)
  | _ => f.round v

/-! ### Element formats of a class (R81, R339) -/

/-- The format of a class's elements. -/
inductive Elem where
  | narrow (f : NFmt)
  | fixed (f : Fmt)
deriving DecidableEq, Repr

/-- The container of an element: 16 for FP16 and BF16, 32 for FP32. -/
def Elem.container : Elem → Nat
  | .narrow f => containerOf f.width
  | .fixed f => 1 + f.eb + f.mb

def Elem.decode (e : Elem) (code : Nat) : FVal :=
  match e with
  | .narrow f => f.decode code
  | .fixed f => f.decode (code % 2 ^ (1 + f.eb + f.mb))

def Elem.encode (e : Elem) (v : FVal) : Conv :=
  match e with
  | .narrow f => f.encode v
  | .fixed f => { code := f.round v, nan := v.isNan, sat := false }

def Elem.stochastic (e : Elem) (v : FVal) (seed index : Word) : Conv :=
  match e with
  | .narrow f => f.stochastic v seed index
  | .fixed f => { code := f.stochastic v seed index, nan := v.isNan, sat := false }

/-- SCALE of the format: 0 none, 1 BF16 block scale, 2 E-delta4, 3 per tensor. -/
def Elem.scale : Elem → Nat
  | .narrow f => f.scale
  | .fixed _ => 0

/-- Fields of a class entry (R81). -/
abbrev Entry := BitVec 128

def Entry.fmt (x : Entry) : Word := x.extractLsb' 0 32
def Entry.kind (x : Entry) : Nat := (x.extractLsb' 32 8).toNat
def Entry.acc (x : Entry) : Nat := (x.extractLsb' 40 8).toNat
/-- B of R339: the block size, 16 where BLKSZ is 0. -/
def Entry.block (x : Entry) : Nat :=
  let n := (x.extractLsb' 48 8).toNat
  if n = 0 then 16 else n
def Entry.outl (x : Entry) : Nat := (x.extractLsb' 56 8).toNat
def Entry.seed (x : Entry) : Word := x.extractLsb' 64 32
def Entry.used (x : Entry) : Bool := x.getLsbD 106

/-- KIND, ACC and FMT are in range (R430). -/
def Entry.valid (x : Entry) : Bool :=
  decide (x.kind ≤ 3) && decide (x.acc ≤ 2) && (decide (x.kind ≠ 0) || nfmtValid x.fmt)

def Entry.elem (x : Entry) : Elem :=
  match x.kind with
  | 0 => .narrow (nfmtOf x.fmt)
  | 1 => .fixed fp32
  | 2 => .fixed fp16
  | _ => .fixed bf16

/-- The REASON that a class entry gives against every form that reads it (R430). -/
def Entry.fault (x : Entry) : Option Nat := if !x.used then some 11 else if !x.valid then some 12 else none

/-! ### Scales (R52, R53) -/

/-- 2^k as a value. -/
def pow2 (k : Int) : FVal :=
  let r := scale2 1 1 k
  .fin false r.1 r.2

/-- A signed 8-bit number. -/
def sext8 (x : Nat) : Int := (BitVec.ofNat 8 x).toInt

/-- The scale that a stored scale or delta means for a format; `ts` and `eb` are the tensor's TSCALE and E_b. -/
def scaleValue (e : Elem) (raw : Nat) (ts : Word) (eb : Nat) : FVal :=
  match e.scale with
  | 1 => bf16.decode (raw % 65536)
  | 2 => pow2 (sext8 eb - (raw % 16 : Nat))
  | 3 => f32 ts
  | _ => .fin false 1 1

/-- a ≤ M × 2^k. -/
def fitsAt (n d : Nat) (m : Nat × Nat) (k : Int) : Bool :=
  let s := scale2 m.1 m.2 k
  decide (n * s.2 ≤ s.1 * d)

/-- The scale chosen for a block from its largest magnitude: what is stored (R53). -/
def chooseScale (f : NFmt) (a : FVal) (eb : Nat) : Nat :=
  let m := f.largest
  if f.scale = 1 then
    match a with
    | .fin _ n d =>
      if n = 0 then 0x3F80
      else
        let e := leadExp (n * m.2) (d * m.1)
        let k := if fitsAt n d m e then e else e + 1
        ((clamp k (-126) 127) + 127).toNat * 128
    | _ => 254 * 128
  else if f.scale = 2 then
    match a with
    | .fin _ n d =>
      if n = 0 then 15
      else ((upto 16).filter (fun x => fitsAt n d m (sext8 eb - (x : Nat)))).foldl max 0
    | _ => 0
  else 0

/-- The exact quotient of an FP32 value by a scale. By a zero scale the spec states none: an open value. -/
def quotient (x : Word) (s : FVal) : FVal :=
  match s with
  | .fin _ 0 _ => f32 (Config.zeroScale x)
  | _ => (f32 x).div s

end Sys2Proof.Machine
end

