-- ==== Sys2Proof/Syntax.lean ====
section
/-!
DEFINITION. The instructions and the device steps, as syntax. Every row of spec/opcode_table.json is a
constructor of `Instr`: the 258 instruction words of the lane set and the uniform set (R229 to R245), and the
89 steps the table lists beside them, which are taken by an engine, the dispatcher, the host, a link or the
management core. A constructor of a word carries the word's own operands; the fields that stand at the same
place in every word, STALL, the guard G and the scope SC of a fence or a range operation, are its `Header`. Prefix words (R235) are no rows of the table: a LIT
group is the `Imm` of the instruction it widens, an MQ word is its `Mq`. What a step that is no word acts on (which
team, which launch queue, which address) stands with the step in the state, as `Machine.Arg`; the names after
'reads' are the parts of it that the step reads.
-/

namespace Sys2Proof

/-- An immediate with the LIT words in front of it (R236). -/
inductive Imm where
  | lone (v : BitVec 10)
  | one (lit : BitVec 25) (v : BitVec 10)
  | two (litA litB : BitVec 25) (v : BitVec 10)
deriving DecidableEq, Repr

/-- The fields of an MQ prefix word (R237). -/
structure Mq where
  order : BitVec 2
  scope : BitVec 2
  use : BitVec 3
  cache : BitVec 2
  quantum : BitVec 10
deriving DecidableEq, Repr

/-- The fields the words have at one place: STALL [24:22], the guard G [3:2] and, in a fence or a range
operation, the scope SC [17:16] (R321, R322). -/
structure Header where
  stall : BitVec 3
  guard : BitVec 2
  scope : BitVec 2
deriving DecidableEq, Repr

/-- One instruction word with its prefixes, or one step of the device that is no word. The words without an
operand stand behind the others. In a word `sb` is a uniform register and `hb`, `hd`, `ha` a handle number. -/
inductive Instr where
  | iadd (vd va vb : BitVec 6)  -- R258
  | isub (vd va vb : BitVec 6)  -- R258
  | imin (vd va vb : BitVec 6)  -- R258
  | imax (vd va vb : BitVec 6)  -- R258
  | nmin (vd va vb : BitVec 6)  -- R259
  | nmax (vd va vb : BitVec 6)  -- R259
  | iabsd (vd va vb : BitVec 6)  -- R259
  | navg (vd va vb : BitVec 6)  -- R259
  | imul (vd va vb : BitVec 6)  -- R260
  | imulh (vd va vb : BitVec 6)  -- R260
  | nmulh (vd va vb : BitVec 6)  -- R260
  | imad (vd va vb : BitVec 6)  -- R260
  | and (vd va vb : BitVec 6)  -- R261
  | or (vd va vb : BitVec 6)  -- R261
  | xor (vd va vb : BitVec 6)  -- R261
  | andn (vd va vb : BitVec 6)  -- R261
  | shl (vd va vb : BitVec 6)  -- R262
  | shr (vd va vb : BitVec 6)  -- R262
  | sar (vd va vb : BitVec 6)  -- R262
  | rol (vd va vb : BitVec 6)  -- R262
  | bfx (vd va vb : BitVec 6)  -- R264
  | bfxn (vd va vb : BitVec 6)  -- R264
  | bfi (vd va vb : BitVec 6)  -- R264
  | prmt (vd va vb : BitVec 6)  -- R264
  | fadd (vd va vb : BitVec 6)  -- R267
  | fsub (vd va vb : BitVec 6)  -- R267
  | fmul (vd va vb : BitVec 6)  -- R267
  | ffma (vd va vb : BitVec 6)  -- R267
  | fmin (vd va vb : BitVec 6)  -- R268
  | fmax (vd va vb : BitVec 6)  -- R268
  | fabsd (vd va vb : BitVec 6)  -- R268
  | fcpys (vd va vb : BitVec 6)  -- R268
  | phadd (vd va vb : BitVec 6)  -- R274
  | phmul (vd va vb : BitVec 6)  -- R274
  | phfma (vd va vb : BitVec 6)  -- R274
  | phmax (vd va vb : BitVec 6)  -- R274
  | pbadd (vd va vb : BitVec 6)  -- R275
  | pbmul (vd va vb : BitVec 6)  -- R275
  | pbfma (vd va vb : BitVec 6)  -- R275
  | pbmax (vd va vb : BitVec 6)  -- R275
  | shfl (vd va vb : BitVec 6)  -- R278
  | shflu (vd va vb : BitVec 6)  -- R278
  | shfld (vd va vb : BitVec 6)  -- R278
  | shflx (vd va vb : BitVec 6)  -- R278
  | popc (vd va : BitVec 6)  -- R263
  | clz (vd va : BitVec 6)  -- R263
  | brev (vd va : BitVec 6)  -- R263
  | ffs (vd va : BitVec 6)  -- R263
  | frcp (vd va : BitVec 6)  -- R270
  | frsq (vd va : BitVec 6)  -- R270
  | fex2 (vd va : BitVec 6)  -- R270
  | flg2 (vd va : BitVec 6)  -- R270
  | fsin (vd va : BitVec 6)  -- R270
  | fcos (vd va : BitVec 6)  -- R270
  | fsqrt (vd va : BitVec 6)  -- R270
  | ftanh (vd va : BitVec 6)  -- R270
  | i2f (vd va : BitVec 6)  -- R272
  | n2f (vd va : BitVec 6)  -- R272
  | f2i (vd va : BitVec 6)  -- R272
  | f2n (vd va : BitVec 6)  -- R272
  | frne (vd va : BitVec 6)  -- R273
  | fflr (vd va : BitVec 6)  -- R273
  | fceil (vd va : BitVec 6)  -- R273
  | ftrnc (vd va : BitVec 6)  -- R273
  | wradd (vd va : BitVec 6)  -- R281
  | wrmax (vd va : BitVec 6)  -- R281
  | wrfadd (vd va : BitVec 6)  -- R281
  | wrfmax (vd va : BitVec 6)  -- R281
  | icmpp (pd cc : BitVec 3) (va vb : BitVec 6) (f : BitVec 2)  -- R265
  | sel (vd va vb : BitVec 6) (k : BitVec 2)  -- R266
  | fcmpp (pd cc : BitVec 3) (va vb : BitVec 6) (f : BitVec 2)  -- R269
  | f2h2 (vd va vb : BitVec 6)  -- R276
  | h2f (vd va : BitVec 6) (hi : BitVec 1)  -- R276
  | f2b2 (vd va vb : BitVec 6)  -- R276
  | b2f (vd va : BitVec 6) (hi : BitVec 1)  -- R276
  | cvtn (vd va : BitVec 6) (hb : BitVec 4)  -- R341
  | cvtsr (vd va : BitVec 6) (hb : BitVec 4)  -- R341
  | cvtw (vd va : BitVec 6) (hb : BitVec 4)  -- R341
  | packn (vd va : BitVec 6) (hb : BitVec 4)  -- R342
  | qxh (vd va : BitVec 6)  -- R277
  | qxv (vd va : BitVec 6)  -- R277
  | qxd (vd va : BitVec 6)  -- R277
  | qbc (vd va vb : BitVec 6)  -- R277
  | ballot (sd va : BitVec 6)  -- R279
  | vany (vd va : BitVec 6)  -- R280
  | vall (vd va : BitVec 6)  -- R280
  | vmatch (vd va : BitVec 6)  -- R280
  | vmov (vd va : BitVec 6)  -- R282
  | vmovs (vd sa : BitVec 6) (hi : BitVec 1)  -- R282
  | vspec (vd ix : BitVec 6)  -- R282
  | iaddi (vd va : BitVec 6) (imm : Imm)  -- R283
  | shli (vd va : BitVec 6) (imm : Imm)  -- R283
  | shri (vd va : BitVec 6) (imm : Imm)  -- R283
  | andi (vd va : BitVec 6) (imm : Imm)  -- R283
  | movi (vd : BitVec 6) (imm : Imm)  -- R283
  | ori (vd va : BitVec 6) (imm : Imm)  -- R283
  | xori (vd va : BitVec 6) (imm : Imm)  -- R283
  | ld (w : BitVec 2) (vd va sb : BitVec 6) (mq : Option Mq)  -- R289
  | ldb (w : BitVec 2) (vd va sb : BitVec 6) (mq : Option Mq)  -- R290
  | st (w : BitVec 2) (vd va sb : BitVec 6) (mq : Option Mq)  -- R291
  | stb (vd va sb : BitVec 6) (mq : Option Mq)  -- R292
  | ldx (w : BitVec 2) (vd va sb : BitVec 6) (mq : Option Mq)  -- R293
  | stx (w : BitVec 2) (vd va sb : BitVec 6) (mq : Option Mq)  -- R293
  | ldt (w : BitVec 2) (vd va sb : BitVec 6) (mq : Option Mq)  -- R294
  | cld (w : BitVec 2) (vd va : BitVec 6) (hb : BitVec 4) (mq : Option Mq)  -- R343
  | cstElem (vd va : BitVec 6) (hb : BitVec 4) (mq : Option Mq)  -- R343
  | cstBlk (vd va : BitVec 6) (hb : BitVec 4) (mq : Option Mq)  -- R343
  | atomAdd (vd va sb : BitVec 6) (mq : Option Mq)  -- R296
  | atomFadd (vd va sb : BitVec 6) (mq : Option Mq)  -- R296
  | atomExch (vd va sb : BitVec 6) (mq : Option Mq)  -- R296
  | atomCas (vd va sb : BitVec 6) (mq : Option Mq)  -- R296
  | atomNmin (vd va sb : BitVec 6) (mq : Option Mq)  -- R296
  | atomNmax (vd va sb : BitVec 6) (mq : Option Mq)  -- R296
  | atomAnd (vd va sb : BitVec 6) (mq : Option Mq)  -- R296
  | atomOr (vd va sb : BitVec 6) (mq : Option Mq)  -- R296
  | atomxAdd (vd va sb : BitVec 6) (mq : Option Mq)  -- R297
  | atomxExch (vd va sb : BitVec 6) (mq : Option Mq)  -- R297
  | atomxCas (vd va sb : BitVec 6) (mq : Option Mq)  -- R297
  | atomxNmax (vd va sb : BitVec 6) (mq : Option Mq)  -- R297
  | kvldK (vd va sb : BitVec 6)  -- R348
  | kvldVt (vd va sb : BitVec 6)  -- R348
  | kvappK (vd va sb : BitVec 6)  -- R349
  | kvappV (vd va sb : BitVec 6)  -- R349
  | kvappCommit (va sb : BitVec 6)  -- R197
  | ssld (vd va sb : BitVec 6)  -- R351
  | ssst (vd va sb : BitVec 6)  -- R351
  | ropeInter (vd va sb : BitVec 6)  -- R350
  | ropeSplit (vd va sb : BitVec 6)  -- R350
  | bra (off : BitVec 18)  -- R300
  | call (off : BitVec 18)  -- R301
  | rcvset (off : BitVec 18)  -- R304
  | reform (off : BitVec 18)  -- R305
  | rejoin (off : BitVec 18)  -- R305
  | spawn (off : BitVec 18)  -- R305
  | callr (va : BitVec 6)  -- R302
  | brx (va : BitVec 6)  -- R302
  | waitc (w : BitVec 2) (vd va sb : BitVec 6)  -- R306
  | sadd (sd sa sb : BitVec 6)  -- R311
  | ssub (sd sa sb : BitVec 6)  -- R311
  | smin (sd sa sb : BitVec 6)  -- R311
  | smax (sd sa sb : BitVec 6)  -- R311
  | smul (sd sa sb : BitVec 6)  -- R311
  | smulh (sd sa sb : BitVec 6)  -- R311
  | sdivn (sd sa sb : BitVec 6)  -- R311
  | sremn (sd sa sb : BitVec 6)  -- R311
  | sand (sd sa sb : BitVec 6)  -- R311
  | sor (sd sa sb : BitVec 6)  -- R311
  | sxor (sd sa sb : BitVec 6)  -- R311
  | sandn (sd sa sb : BitVec 6)  -- R311
  | sshl (sd sa sb : BitVec 6)  -- R311
  | sshr (sd sa sb : BitVec 6)  -- R311
  | ssar (sd sa sb : BitVec 6)  -- R311
  | srol (sd sa sb : BitVec 6)  -- R311
  | sfadd (sd sa sb : BitVec 6)  -- R318
  | sfsub (sd sa sb : BitVec 6)  -- R318
  | sfmul (sd sa sb : BitVec 6)  -- R318
  | sffma (sd sa sb : BitVec 6)  -- R318
  | spopc (sd sa : BitVec 6)  -- R311
  | sclz (sd sa : BitVec 6)  -- R311
  | sbrev (sd sa : BitVec 6)  -- R311
  | sffs (sd sa : BitVec 6)  -- R311
  | si2f (sd sa : BitVec 6)  -- R318
  | sf2i (sd sa : BitVec 6)  -- R318
  | sfrcp (sd sa : BitVec 6)  -- R318
  | sfsqrt (sd sa : BitVec 6)  -- R318
  | ssetc (cd cc : BitVec 3) (sa sb : BitVec 6) (f : BitVec 2)  -- R312
  | ssel (sd sa sb : BitVec 6) (k : BitVec 2)  -- R313
  | smov (sd sa : BitVec 6)  -- R314
  | srd (sd ix : BitVec 6)  -- R314
  | swr (ixd sa : BitVec 6)  -- R314
  | saddi (sd sa : BitVec 6) (imm : Imm)  -- R315
  | smovi (sd : BitVec 6) (imm : Imm)  -- R315
  | sshli (sd sa : BitVec 6) (imm : Imm)  -- R315
  | sandi (sd sa : BitVec 6) (imm : Imm)  -- R315
  | sori (sd sa : BitVec 6) (imm : Imm)  -- R315
  | sld (w : BitVec 2) (sd sa sb : BitVec 6) (mq : Option Mq)  -- R319
  | sst (w : BitVec 2) (sd sa sb : BitVec 6) (mq : Option Mq)  -- R319
  | satomAdd (sd sa sb : BitVec 6) (mq : Option Mq)  -- R320
  | satomExch (sd sa sb : BitVec 6) (mq : Option Mq)  -- R320
  | satomCas (sd sa sb : BitVec 6) (mq : Option Mq)  -- R320
  | satomNmax (sd sa sb : BitVec 6) (mq : Option Mq)  -- R320
  | discard (sa sb : BitVec 6)  -- R322
  | flush (sa sb : BitVec 6)  -- R322
  | inval (sa sb : BitVec 6)  -- R322
  | pfetch (sa sb : BitVec 6)  -- R322
  | respri (sa sb : BitVec 6)  -- R323
  | resdem (sa sb : BitVec 6)  -- R323
  | respro (sa : BitVec 6)  -- R323
  | resqry (sd sa : BitVec 6)  -- R323
  | hset (hd : BitVec 4) (sa : BitVec 6)  -- R340
  | hget (sd : BitVec 6) (ha : BitVec 4)  -- R340
  | hcls (hd : BitVec 4) (sa : BitVec 6)  -- R340
  | hseed (hd : BitVec 4) (sa : BitVec 6)  -- R340
  | jmp (off : BitVec 18)  -- R324
  | jcall (off : BitVec 18)  -- R324
  | jmpr (sa : BitVec 6)  -- R325
  | trap (n : BitVec 6)  -- R326
  | rte (sa : BitVec 6)  -- R327
  | bar (sd id : BitVec 6)  -- R328
  | cbar (sd id : BitVec 6)  -- R328
  | bara (sd id : BitVec 6)  -- R328
  | barw (sd id : BitVec 6)  -- R328
  | wcondAddr (wn : BitVec 2) (sa sb : BitVec 6)  -- R329
  | wcondBcb (wn : BitVec 2) (sa : BitVec 6)  -- R329
  | wcondQueue (wn : BitVec 2) (sa sb : BitVec 6)  -- R329
  | wcondCompl (wn : BitVec 2) (sa sb : BitVec 6)  -- R329
  | waitany (sd sa : BitVec 6) (mask : BitVec 4)  -- R330
  | waitall (sd sa : BitVec 6) (mask : BitVec 4)  -- R330
  | push (fd : BitVec 3) (sa id : BitVec 6)  -- R331
  | pushw (sa id : BitVec 6)  -- R331
  | kick (sa sb : BitVec 6)  -- R174
  | launch (sd sa sb : BitVec 6)  -- R332
  | qbind (q : BitVec 3) (sa : BitVec 6)  -- R333
  | qunb (q : BitVec 3)  -- R333
  | qstat (sd : BitVec 6) (q : BitVec 3)  -- R333
  | qreset (q : BitVec 3)  -- R333
  | regxTry (fd : BitVec 3)  -- R334
  | prioPair (sa : BitVec 6)  -- R335
  | seqfork (sa sb : BitVec 6)  -- R199
  | seqfree (sa : BitVec 6)  -- R201
  | seqtrunc (sa sb : BitVec 6)  -- R200
  | seqinfo (sd sa : BitVec 6)  -- R353
  | ssnap (sd : BitVec 6)  -- R206
  | ssroll (sd sa : BitVec 6)  -- R208
  | sscommit (sa : BitVec 6)  -- R206
  | ssbind (sa : BitVec 6)  -- R352
  | mset (md : BitVec 2) (sa : BitVec 6)  -- R344
  | mget (sd : BitVec 6) (ma : BitVec 2)  -- R344
  | mma (vd va vb : BitVec 6) (m : BitVec 2)  -- R345
  | mmaSpad (vd va vb : BitVec 6) (m : BitVec 2)  -- R345
  | mmaQueue (vd va vb : BitVec 6) (m : BitVec 2)  -- R345
  | mmag (vd va vb : BitVec 6) (m : BitVec 2)  -- R220
  | mmagSpad (vd va vb : BitVec 6) (m : BitVec 2)  -- R220
  | mmagQueue (vd va vb : BitVec 6) (m : BitVec 2)  -- R220
  | drain (sa sb : BitVec 6)  -- R225
  | drainSkip (sb : BitVec 6)  -- R225
  | gclr (sa sb : BitVec 6)  -- R346
  | grd (sd sa sb : BitVec 6)  -- R346
  | nchk (fd : BitVec 3) (sa sb : BitVec 6)  -- R88
  | nrd (sd : BitVec 6)  -- R347
  | mark (sa : BitVec 6)  -- R380
  | hashrd (sd : BitVec 6)  -- R336
  | rcvwait  -- R304
  | exit  -- R302
  | ret  -- R302
  | yield  -- R307
  | fenceRel  -- R321
  | fenceAcq  -- R321
  | fenceFull  -- R321
  | sret  -- R325
  | regxAcq  -- R334
  | regxRel  -- R334
  | prioPass  -- R335
  | prioTake  -- R335
  | nrst  -- R347
  | brk  -- R336
  | sample  -- R336
  | nop  -- R337
  | launchPublish  -- R332; reads team gid
  | cpyLoad  -- R178; reads op
  | cpyStore  -- R178; reads op
  | cpyQstore  -- R178; reads op
  | cpyQload  -- R178; reads op
  | gatGather  -- R179; reads op
  | gatGatherq  -- R179; reads op
  | gatScatter  -- R179; reads op
  | kvsStreamk  -- R180; reads op
  | kvsStreamvt  -- R180; reads op
  | decDecode  -- R181; reads op
  | colAllreduce  -- R183; reads op
  | colReducescatter  -- R183; reads op
  | colAllgather  -- R183; reads op
  | ssuCopy  -- R185; reads op
  | ckpCheckpoint  -- R186; reads op
  | engineCommandTake  -- R170; reads eng inst
  | pushwAccept  -- R170; reads team gid
  | engineUnitDone  -- R177; reads op
  | engineQueueResume  -- R152; reads op
  | colPeerTimeout  -- R453; reads op
  | launchRecordHead  -- R157; reads lq
  | launchWaitConditionHolds  -- R158; reads lq wc
  | teamPlace  -- R160; reads lq
  | teamRetire  -- R303; reads team
  | formationDraw  -- R28; reads team slice
  | binTimerExpiry  -- R28; reads team slice key
  | spawnBinTimerExpiry  -- R33; reads team key
  | quantumEnd  -- R40
  | loadAllowanceUpdate  -- R163; reads core
  | pageWalkComplete  -- R94; reads core ctx va
  | loadDataReturn  -- R169; reads core req
  | raceVerdictReturn  -- R138; reads team gid
  | trapEntry  -- R387; reads team gid
  | matrixResult  -- R213; reads core
  | monitorPoll  -- R405; reads team gid
  | waitTimeout  -- R147; reads team gid
  | queuePortResume  -- R151; reads team gid
  | regxAcqGrant  -- R35; reads team gid
  | l1Eviction  -- R103; reads core line
  | replayGateTimeout  -- R379; reads slice
  | breakpointSwapOut  -- R374; reads team
  | flitCrcError  -- R457; reads port
  | flitRetransmit  -- R457; reads port n
  | cxlError  -- R458; reads port poison
  | cxlReadTimeout  -- R458; reads port pa
  | cxlLinkDown  -- R458; reads port
  | cxlLinkUp  -- R458; reads port
  | throttleOnset  -- R369; reads die
  | throttleRelease  -- R369; reads die
  | thermalTrip  -- R459; reads die
  | powerGood  -- R360
  | functionReady  -- R360; reads bit
  | bootctlGo  -- R360; reads v
  | resetFull  -- R362
  | resetCores  -- R362
  | lqscan  -- R364; reads v
  | tlbinvAddress  -- R365; reads v
  | tlbinvAll  -- R365; reads v
  | tlbinvComplete  -- R365
  | attestRequest  -- R367; reads v
  | attestDone  -- R367
  | pstateWrite  -- R369; reads v
  | pstateChange  -- R369
  | gamrelStart  -- R221; reads v
  | gamrelComplete  -- R221
  | prectlSave  -- R440; reads v
  | contextSaveComplete  -- R440
  | prectlRestore  -- R447; reads v
  | contextRestoreComplete  -- R447
  | dbgresResume  -- R375; reads ticket
  | dbgresSkip  -- R375; reads ticket
  | dbgresKill  -- R375; reads ticket
  | tickStop  -- R373
  | stopResume  -- R373
  | scandataRead  -- R370
  | repctlReplay  -- R379; reads v
  | rlfillWrite  -- R379; reads slice v
  | crumbMirror  -- R381
  | hostRead  -- R363; reads pa n
  | hostWrite  -- R363; reads pa data
  | fabricPeerAccess  -- R92; reads pa n data
  | binderRun  -- R74; reads image lseed pinned dst
  | registerWrite  -- R358; reads ro v
  | illegalInstruction  -- R418; reads reason value word len
  | writeAcknowledgement  -- R287; reads core req
  | colSegmentArrival  -- R453; reads op peer data
  | flitNotReady  -- R457; reads port
  | powerLoss  -- R381
deriving DecidableEq, Repr

end Sys2Proof
end

