-- ==== Sys2Proof/WellFormed.lean ====
section
/-!
DEFINITION. The limits an instruction word puts on its own fields (R421, R425, R237, R242).
-/

namespace Sys2Proof

/-- R421: a register field that must be a multiple of `n`. -/
def multipleOf (r : BitVec 6) (n : Nat) : Bool := r.toNat % n == 0

/-- R421: the first register of a uniform pair: even, 2 to 62. -/
def uniformPair (r : BitVec 6) : Bool := r.toNat % 2 == 0 && decide (2 ≤ r.toNat)

/-- R421: the first of eight uniform registers: 1 to 56. -/
def uniformOctet (r : BitVec 6) : Bool := decide (1 ≤ r.toNat) && decide (r.toNat ≤ 56)

/-- A field limit of R421: REASON 5 with the field as VALUE when the limit is broken. -/
def limit (ok : Bool) (r : BitVec 6) : Option (BitVec 8 × BitVec 8) :=
  if ok then none else some (5, r.setWidth 8)

/-- The first broken limit of two. -/
def firstLimit (a b : Option (BitVec 8 × BitVec 8)) : Option (BitVec 8 × BitVec 8) :=
  match a with
  | some x => some x
  | none => b

/-- R286: the tuple a load or store of width code `w` (b32, b64, b128, b16) names. -/
def widthLimit (w : BitVec 2) (vd : BitVec 6) : Option (BitVec 8 × BitVec 8) :=
  match w.toNat with
  | 1 => limit (multipleOf vd 2) vd
  | 2 => limit (multipleOf vd 4) vd
  | _ => none

/-- KVLD, KVAPP and ROPE: VD a multiple of 4 and VA even. -/
def quadPair (vd va : BitVec 6) : Option (BitVec 8 × BitVec 8) :=
  firstLimit (limit (multipleOf vd 4) vd) (limit (multipleOf va 2) va)

/-- R425: a special-register index outside what the form may name. -/
def indexLimit (ok : Bool) (ix : BitVec 6) : Option (BitVec 8 × BitVec 8) :=
  if ok then none else some (9, ix.setWidth 8)

/-- R245: the uniform special registers SWR may write. -/
def swrIndex (ix : BitVec 6) : Bool := decide (15 ≤ ix.toNat) && decide (ix.toNat ≤ 22)

/-- R421, R425: the first limit the word breaks, as REASON and VALUE; none when it keeps them all. -/
def Instr.limitFault : Instr → Option (BitVec 8 × BitVec 8)
  | .ld w vd _ _ _ => widthLimit w vd
  | .st w vd _ _ _ => widthLimit w vd
  | .ldx w vd _ _ _ => widthLimit w vd
  | .stx w vd _ _ _ => widthLimit w vd
  | .kvldK vd va _ => quadPair vd va
  | .kvldVt vd va _ => quadPair vd va
  | .kvappK vd va _ => quadPair vd va
  | .kvappV vd va _ => quadPair vd va
  | .kvappCommit va _ => limit (multipleOf va 2) va
  | .ropeInter vd va _ => quadPair vd va
  | .ropeSplit vd va _ => quadPair vd va
  | .ssld vd _ _ => limit (multipleOf vd 4) vd
  | .ssst vd _ _ => limit (multipleOf vd 4) vd
  | .packn vd va _ => firstLimit (limit (multipleOf va 4) va) (limit (multipleOf vd 2) vd)
  | .cstBlk vd _ _ _ => limit (multipleOf vd 4) vd
  | .atomCas vd _ _ _ => limit (multipleOf vd 2) vd
  | .atomxCas vd _ _ _ => limit (multipleOf vd 2) vd
  | .cld w vd _ _ _ => limit (multipleOf vd (2 ^ w.toNat)) vd
  | .sld w sd _ _ _ => if w = 3 then limit (uniformPair sd) sd else none
  | .sst w sd _ _ _ => if w = 3 then limit (uniformPair sd) sd else none
  | .satomCas sd _ _ _ => limit (uniformPair sd) sd
  | .push _ sa _ => limit (uniformOctet sa) sa
  | .pushw sa _ => limit (uniformOctet sa) sa
  | .hset _ sa => limit (uniformOctet sa) sa
  | .hget sd _ => limit (uniformOctet sd) sd
  | .mma vd va vb _ =>
    firstLimit (limit (decide (vd.toNat ≤ 48)) vd)
      (firstLimit (limit (decide (va.toNat ≤ 60)) va) (limit (decide (vb.toNat ≤ 62)) vb))
  | .mmaSpad vd _ vb _ => firstLimit (limit (decide (vd.toNat ≤ 48)) vd) (limit (decide (vb.toNat ≤ 62)) vb)
  | .mmaQueue vd va vb _ =>
    firstLimit (limit (decide (vd.toNat ≤ 48)) vd)
      (firstLimit (limit (decide (56 ≤ va.toNat)) va) (limit (decide (vb.toNat ≤ 62)) vb))
  | .mmag _ va vb _ => firstLimit (limit (decide (va.toNat ≤ 60)) va) (limit (decide (vb.toNat ≤ 62)) vb)
  | .mmagSpad _ _ vb _ => limit (decide (vb.toNat ≤ 62)) vb
  | .mmagQueue _ va vb _ => firstLimit (limit (decide (56 ≤ va.toNat)) va) (limit (decide (vb.toNat ≤ 62)) vb)
  | .vspec _ ix => indexLimit (decide (ix.toNat < 8)) ix
  | .srd _ ix => indexLimit (decide (ix.toNat < 24)) ix
  | .swr ix _ => indexLimit (swrIndex ix) ix
  | _ => none

/-- R242: the F values and MQ uses that are reserved and so no instruction has. -/
def Instr.reservedField : Instr → Bool
  | .ldb w _ _ _ _ => w == 3
  | .ldt w _ _ _ _ => w == 3
  | .sst w _ _ _ _ => w == 2
  | _ => false

/-- The MQ prefix an instruction carries. -/
def Instr.mq? : Instr → Option Mq
  | .ld _ _ _ _ q => q
  | .ldb _ _ _ _ q => q
  | .st _ _ _ _ q => q
  | .stb _ _ _ q => q
  | .ldx _ _ _ _ q => q
  | .stx _ _ _ _ q => q
  | .ldt _ _ _ _ q => q
  | .cld _ _ _ _ q => q
  | .cstElem _ _ _ q => q
  | .cstBlk _ _ _ q => q
  | .atomAdd _ _ _ q => q
  | .atomFadd _ _ _ q => q
  | .atomExch _ _ _ q => q
  | .atomCas _ _ _ q => q
  | .atomNmin _ _ _ q => q
  | .atomNmax _ _ _ q => q
  | .atomAnd _ _ _ q => q
  | .atomOr _ _ _ q => q
  | .atomxAdd _ _ _ q => q
  | .atomxExch _ _ _ q => q
  | .atomxCas _ _ _ q => q
  | .atomxNmax _ _ _ q => q
  | .sld _ _ _ _ q => q
  | .sst _ _ _ _ q => q
  | .satomAdd _ _ _ q => q
  | .satomExch _ _ _ q => q
  | .satomCas _ _ _ q => q
  | .satomNmax _ _ _ q => q
  | _ => none

/-- R237, R242: an MQ word's use is none of the reserved values. -/
def Mq.wellFormed (q : Mq) : Bool := decide (q.use.toNat < 6)

/-- A header a word can have: a guard and a scope only where its format has the field. -/
def Header.wellFormed (h : Header) (hasGuard hasScope : Bool) : Bool :=
  (hasGuard || h.guard == 0) && (hasScope || h.scope == 0)

/-- An instruction the decoder can give: its fields keep the limits of R421 and R425 and name no reserved value. -/
def Instr.wellFormed (i : Instr) : Bool :=
  i.limitFault.isNone && !i.reservedField &&
    (match i.mq? with
     | some q => q.wellFormed
     | none => true)

end Sys2Proof
end

