-- ==== Sys2Proof/Decode.lean ====
section
/-!
DEFINITION. Reading a group of instruction words (R229 to R242, R418 to R421), and after it the encoder,
written from the same encoding tables.
-/

namespace Sys2Proof

/-- The field of `width` bits that starts at bit `lo` of an instruction word. -/
def fld (w : Word) (lo width : Nat) : BitVec width := w.extractLsb' lo width

/-- Why a group is refused at decode, as R416 and R417 report it: the REASON, the VALUE byte, the word at
fault and the number of words the group takes. -/
structure Reject where
  reason : BitVec 8
  value : BitVec 8
  word : Word
  len : Nat
deriving DecidableEq, Repr

/-- The seven bits [31:25]: the set and OP. -/
def opOf (w : Word) : Nat := (fld w 25 7).toNat

/-- The F field [1:0]. -/
def formOf (w : Word) : Nat := (fld w 0 2).toNat

/-- R418: a reserved opcode; VALUE holds OP. -/
def badOp (w : Word) : Reject := { reason := 2, value := (fld w 25 6).setWidth 8, word := w, len := 1 }

/-- R418: a reserved F value or A source 11; VALUE holds it. -/
def badForm (w : Word) : Reject := { reason := 3, value := (fld w 0 2).setWidth 8, word := w, len := 1 }

/-- LIT is the UL word of OP 0x0C (R316). -/
def isLit (w : Word) : Bool := opOf w == 0x4C

/-- MQ is the word of OP 0x13 of the uniform set (R317). -/
def isMq (w : Word) : Bool := opOf w == 0x53

def litOf (w : Word) : BitVec 25 := fld w 0 25

def mqOf (w : Word) : Mq :=
  { order := fld w 20 2, scope := fld w 18 2, use := fld w 15 3, cache := fld w 13 2, quantum := fld w 3 10 }

/-- R418: use values 110 and 111, and nonzero bits [2:0], are reserved. -/
def mqReserved (w : Word) : Bool := decide (6 ≤ (fld w 15 3).toNat) || (fld w 0 3 != 0)

/-- The lone immediate of an LI or UI word. -/
def loneImm (w : Word) : Imm := .lone (fld w 0 10)


/-- One instruction word by itself, without prefixes (R240, R241). Reserved opcodes and F values are refused. -/
def decodeWord (w : Word) : Except Reject Instr :=
  match opOf w with
  | 0x00 =>
    match formOf w with
    | 0 => .ok (.iadd (fld w 16 6) (fld w 10 6) (fld w 4 6))
    | 1 => .ok (.isub (fld w 16 6) (fld w 10 6) (fld w 4 6))
    | 2 => .ok (.imin (fld w 16 6) (fld w 10 6) (fld w 4 6))
    | _ => .ok (.imax (fld w 16 6) (fld w 10 6) (fld w 4 6))
  | 0x01 =>
    match formOf w with
    | 0 => .ok (.nmin (fld w 16 6) (fld w 10 6) (fld w 4 6))
    | 1 => .ok (.nmax (fld w 16 6) (fld w 10 6) (fld w 4 6))
    | 2 => .ok (.iabsd (fld w 16 6) (fld w 10 6) (fld w 4 6))
    | _ => .ok (.navg (fld w 16 6) (fld w 10 6) (fld w 4 6))
  | 0x02 =>
    match formOf w with
    | 0 => .ok (.imul (fld w 16 6) (fld w 10 6) (fld w 4 6))
    | 1 => .ok (.imulh (fld w 16 6) (fld w 10 6) (fld w 4 6))
    | 2 => .ok (.nmulh (fld w 16 6) (fld w 10 6) (fld w 4 6))
    | _ => .ok (.imad (fld w 16 6) (fld w 10 6) (fld w 4 6))
  | 0x03 =>
    match formOf w with
    | 0 => .ok (.and (fld w 16 6) (fld w 10 6) (fld w 4 6))
    | 1 => .ok (.or (fld w 16 6) (fld w 10 6) (fld w 4 6))
    | 2 => .ok (.xor (fld w 16 6) (fld w 10 6) (fld w 4 6))
    | _ => .ok (.andn (fld w 16 6) (fld w 10 6) (fld w 4 6))
  | 0x04 =>
    match formOf w with
    | 0 => .ok (.shl (fld w 16 6) (fld w 10 6) (fld w 4 6))
    | 1 => .ok (.shr (fld w 16 6) (fld w 10 6) (fld w 4 6))
    | 2 => .ok (.sar (fld w 16 6) (fld w 10 6) (fld w 4 6))
    | _ => .ok (.rol (fld w 16 6) (fld w 10 6) (fld w 4 6))
  | 0x05 =>
    match formOf w with
    | 0 => .ok (.popc (fld w 16 6) (fld w 10 6))
    | 1 => .ok (.clz (fld w 16 6) (fld w 10 6))
    | 2 => .ok (.brev (fld w 16 6) (fld w 10 6))
    | _ => .ok (.ffs (fld w 16 6) (fld w 10 6))
  | 0x06 =>
    match formOf w with
    | 0 => .ok (.bfx (fld w 16 6) (fld w 10 6) (fld w 4 6))
    | 1 => .ok (.bfxn (fld w 16 6) (fld w 10 6) (fld w 4 6))
    | 2 => .ok (.bfi (fld w 16 6) (fld w 10 6) (fld w 4 6))
    | _ => .ok (.prmt (fld w 16 6) (fld w 10 6) (fld w 4 6))
  | 0x07 => .ok (.icmpp (fld w 19 3) (fld w 16 3) (fld w 10 6) (fld w 4 6) (fld w 0 2))
  | 0x08 => .ok (.sel (fld w 16 6) (fld w 10 6) (fld w 4 6) (fld w 0 2))
  | 0x09 =>
    match formOf w with
    | 0 => .ok (.fadd (fld w 16 6) (fld w 10 6) (fld w 4 6))
    | 1 => .ok (.fsub (fld w 16 6) (fld w 10 6) (fld w 4 6))
    | 2 => .ok (.fmul (fld w 16 6) (fld w 10 6) (fld w 4 6))
    | _ => .ok (.ffma (fld w 16 6) (fld w 10 6) (fld w 4 6))
  | 0x0A =>
    match formOf w with
    | 0 => .ok (.fmin (fld w 16 6) (fld w 10 6) (fld w 4 6))
    | 1 => .ok (.fmax (fld w 16 6) (fld w 10 6) (fld w 4 6))
    | 2 => .ok (.fabsd (fld w 16 6) (fld w 10 6) (fld w 4 6))
    | _ => .ok (.fcpys (fld w 16 6) (fld w 10 6) (fld w 4 6))
  | 0x0B => .ok (.fcmpp (fld w 19 3) (fld w 16 3) (fld w 10 6) (fld w 4 6) (fld w 0 2))
  | 0x0C =>
    match formOf w with
    | 0 => .ok (.frcp (fld w 16 6) (fld w 10 6))
    | 1 => .ok (.frsq (fld w 16 6) (fld w 10 6))
    | 2 => .ok (.fex2 (fld w 16 6) (fld w 10 6))
    | _ => .ok (.flg2 (fld w 16 6) (fld w 10 6))
  | 0x0D =>
    match formOf w with
    | 0 => .ok (.fsin (fld w 16 6) (fld w 10 6))
    | 1 => .ok (.fcos (fld w 16 6) (fld w 10 6))
    | 2 => .ok (.fsqrt (fld w 16 6) (fld w 10 6))
    | _ => .ok (.ftanh (fld w 16 6) (fld w 10 6))
  | 0x0E =>
    match formOf w with
    | 0 => .ok (.i2f (fld w 16 6) (fld w 10 6))
    | 1 => .ok (.n2f (fld w 16 6) (fld w 10 6))
    | 2 => .ok (.f2i (fld w 16 6) (fld w 10 6))
    | _ => .ok (.f2n (fld w 16 6) (fld w 10 6))
  | 0x0F =>
    match formOf w with
    | 0 => .ok (.frne (fld w 16 6) (fld w 10 6))
    | 1 => .ok (.fflr (fld w 16 6) (fld w 10 6))
    | 2 => .ok (.fceil (fld w 16 6) (fld w 10 6))
    | _ => .ok (.ftrnc (fld w 16 6) (fld w 10 6))
  | 0x10 =>
    match formOf w with
    | 0 => .ok (.phadd (fld w 16 6) (fld w 10 6) (fld w 4 6))
    | 1 => .ok (.phmul (fld w 16 6) (fld w 10 6) (fld w 4 6))
    | 2 => .ok (.phfma (fld w 16 6) (fld w 10 6) (fld w 4 6))
    | _ => .ok (.phmax (fld w 16 6) (fld w 10 6) (fld w 4 6))
  | 0x11 =>
    match formOf w with
    | 0 => .ok (.pbadd (fld w 16 6) (fld w 10 6) (fld w 4 6))
    | 1 => .ok (.pbmul (fld w 16 6) (fld w 10 6) (fld w 4 6))
    | 2 => .ok (.pbfma (fld w 16 6) (fld w 10 6) (fld w 4 6))
    | _ => .ok (.pbmax (fld w 16 6) (fld w 10 6) (fld w 4 6))
  | 0x12 =>
    match formOf w with
    | 0 => .ok (.f2h2 (fld w 16 6) (fld w 10 6) (fld w 4 6))
    | 1 => .ok (.h2f (fld w 16 6) (fld w 10 6) (fld w 4 1))
    | 2 => .ok (.f2b2 (fld w 16 6) (fld w 10 6) (fld w 4 6))
    | _ => .ok (.b2f (fld w 16 6) (fld w 10 6) (fld w 4 1))
  | 0x13 =>
    match formOf w with
    | 0 => .ok (.cvtn (fld w 16 6) (fld w 10 6) (fld w 4 4))
    | 1 => .ok (.cvtsr (fld w 16 6) (fld w 10 6) (fld w 4 4))
    | 2 => .ok (.cvtw (fld w 16 6) (fld w 10 6) (fld w 4 4))
    | _ => .ok (.packn (fld w 16 6) (fld w 10 6) (fld w 4 4))
  | 0x14 =>
    match formOf w with
    | 0 => .ok (.qxh (fld w 16 6) (fld w 10 6))
    | 1 => .ok (.qxv (fld w 16 6) (fld w 10 6))
    | 2 => .ok (.qxd (fld w 16 6) (fld w 10 6))
    | _ => .ok (.qbc (fld w 16 6) (fld w 10 6) (fld w 4 6))
  | 0x15 =>
    match formOf w with
    | 0 => .ok (.shfl (fld w 16 6) (fld w 10 6) (fld w 4 6))
    | 1 => .ok (.shflu (fld w 16 6) (fld w 10 6) (fld w 4 6))
    | 2 => .ok (.shfld (fld w 16 6) (fld w 10 6) (fld w 4 6))
    | _ => .ok (.shflx (fld w 16 6) (fld w 10 6) (fld w 4 6))
  | 0x16 =>
    match formOf w with
    | 0 => .ok (.ballot (fld w 16 6) (fld w 10 6))
    | 1 => .ok (.vany (fld w 16 6) (fld w 10 6))
    | 2 => .ok (.vall (fld w 16 6) (fld w 10 6))
    | _ => .ok (.vmatch (fld w 16 6) (fld w 10 6))
  | 0x17 =>
    match formOf w with
    | 0 => .ok (.wradd (fld w 16 6) (fld w 10 6))
    | 1 => .ok (.wrmax (fld w 16 6) (fld w 10 6))
    | 2 => .ok (.wrfadd (fld w 16 6) (fld w 10 6))
    | _ => .ok (.wrfmax (fld w 16 6) (fld w 10 6))
  | 0x18 =>
    match formOf w with
    | 0 => .ok (.vmov (fld w 16 6) (fld w 10 6))
    | 1 => .ok (.vmovs (fld w 16 6) (fld w 10 6) (fld w 4 1))
    | 2 => .ok (.vspec (fld w 16 6) (fld w 10 6))
    | _ => .error (badForm w)
  | 0x19 => .ok (.iaddi (fld w 16 6) (fld w 10 6) (loneImm w))
  | 0x1A => .ok (.shli (fld w 16 6) (fld w 10 6) (loneImm w))
  | 0x1B => .ok (.shri (fld w 16 6) (fld w 10 6) (loneImm w))
  | 0x1C => .ok (.andi (fld w 16 6) (fld w 10 6) (loneImm w))
  | 0x1D => .ok (.movi (fld w 16 6) (loneImm w))
  | 0x1E => .ok (.ori (fld w 16 6) (fld w 10 6) (loneImm w))
  | 0x1F => .ok (.xori (fld w 16 6) (fld w 10 6) (loneImm w))
  | 0x20 => .ok (.ld (fld w 0 2) (fld w 16 6) (fld w 10 6) (fld w 4 6) none)
  | 0x21 => if formOf w = 3 then .error (badForm w) else .ok (.ldb (fld w 0 2) (fld w 16 6) (fld w 10 6) (fld w 4 6) none)
  | 0x22 => .ok (.st (fld w 0 2) (fld w 16 6) (fld w 10 6) (fld w 4 6) none)
  | 0x23 =>
    match formOf w with
    | 0 => .ok (.stb (fld w 16 6) (fld w 10 6) (fld w 4 6) none)
    | 1 => .error (badForm w)
    | 2 => .error (badForm w)
    | _ => .error (badForm w)
  | 0x24 => .ok (.ldx (fld w 0 2) (fld w 16 6) (fld w 10 6) (fld w 4 6) none)
  | 0x25 => .ok (.stx (fld w 0 2) (fld w 16 6) (fld w 10 6) (fld w 4 6) none)
  | 0x26 => if formOf w = 3 then .error (badForm w) else .ok (.ldt (fld w 0 2) (fld w 16 6) (fld w 10 6) (fld w 4 6) none)
  | 0x27 => .ok (.cld (fld w 0 2) (fld w 16 6) (fld w 10 6) (fld w 4 4) none)
  | 0x28 =>
    match formOf w with
    | 0 => .ok (.cstElem (fld w 16 6) (fld w 10 6) (fld w 4 4) none)
    | 1 => .ok (.cstBlk (fld w 16 6) (fld w 10 6) (fld w 4 4) none)
    | 2 => .error (badForm w)
    | _ => .error (badForm w)
  | 0x29 =>
    match formOf w with
    | 0 => .ok (.atomAdd (fld w 16 6) (fld w 10 6) (fld w 4 6) none)
    | 1 => .ok (.atomFadd (fld w 16 6) (fld w 10 6) (fld w 4 6) none)
    | 2 => .ok (.atomExch (fld w 16 6) (fld w 10 6) (fld w 4 6) none)
    | _ => .ok (.atomCas (fld w 16 6) (fld w 10 6) (fld w 4 6) none)
  | 0x2A =>
    match formOf w with
    | 0 => .ok (.atomNmin (fld w 16 6) (fld w 10 6) (fld w 4 6) none)
    | 1 => .ok (.atomNmax (fld w 16 6) (fld w 10 6) (fld w 4 6) none)
    | 2 => .ok (.atomAnd (fld w 16 6) (fld w 10 6) (fld w 4 6) none)
    | _ => .ok (.atomOr (fld w 16 6) (fld w 10 6) (fld w 4 6) none)
  | 0x2B =>
    match formOf w with
    | 0 => .ok (.atomxAdd (fld w 16 6) (fld w 10 6) (fld w 4 6) none)
    | 1 => .ok (.atomxExch (fld w 16 6) (fld w 10 6) (fld w 4 6) none)
    | 2 => .ok (.atomxCas (fld w 16 6) (fld w 10 6) (fld w 4 6) none)
    | _ => .ok (.atomxNmax (fld w 16 6) (fld w 10 6) (fld w 4 6) none)
  | 0x2C =>
    match formOf w with
    | 0 => .ok (.kvldK (fld w 16 6) (fld w 10 6) (fld w 4 6))
    | 1 => .ok (.kvldVt (fld w 16 6) (fld w 10 6) (fld w 4 6))
    | 2 => .error (badForm w)
    | _ => .error (badForm w)
  | 0x2D =>
    match formOf w with
    | 0 => .ok (.kvappK (fld w 16 6) (fld w 10 6) (fld w 4 6))
    | 1 => .ok (.kvappV (fld w 16 6) (fld w 10 6) (fld w 4 6))
    | 2 => .ok (.kvappCommit (fld w 10 6) (fld w 4 6))
    | _ => .error (badForm w)
  | 0x2E =>
    match formOf w with
    | 0 => .ok (.ssld (fld w 16 6) (fld w 10 6) (fld w 4 6))
    | 1 => .ok (.ssst (fld w 16 6) (fld w 10 6) (fld w 4 6))
    | 2 => .error (badForm w)
    | _ => .error (badForm w)
  | 0x2F =>
    match formOf w with
    | 0 => .ok (.ropeInter (fld w 16 6) (fld w 10 6) (fld w 4 6))
    | 1 => .ok (.ropeSplit (fld w 16 6) (fld w 10 6) (fld w 4 6))
    | 2 => .error (badForm w)
    | _ => .error (badForm w)
  | 0x30 =>
    match formOf w with
    | 0 => .ok (.bra (fld w 4 18))
    | 1 => .error (badForm w)
    | 2 => .error (badForm w)
    | _ => .error (badForm w)
  | 0x31 =>
    match formOf w with
    | 0 => .ok (.call (fld w 4 18))
    | 1 => .error (badForm w)
    | 2 => .error (badForm w)
    | _ => .error (badForm w)
  | 0x32 =>
    match formOf w with
    | 0 => .ok (.rcvset (fld w 4 18))
    | 1 => .ok (.rcvwait)
    | 2 => .error (badForm w)
    | _ => .error (badForm w)
  | 0x33 =>
    match formOf w with
    | 0 => .ok (.reform (fld w 4 18))
    | 1 => .ok (.rejoin (fld w 4 18))
    | 2 => .ok (.spawn (fld w 4 18))
    | _ => .error (badForm w)
  | 0x34 =>
    match formOf w with
    | 0 => .ok (.exit)
    | 1 => .ok (.ret)
    | 2 => .ok (.callr (fld w 10 6))
    | _ => .ok (.brx (fld w 10 6))
  | 0x35 => .ok (.waitc (fld w 0 2) (fld w 16 6) (fld w 10 6) (fld w 4 6))
  | 0x36 =>
    match formOf w with
    | 0 => .ok (.yield)
    | 1 => .error (badForm w)
    | 2 => .error (badForm w)
    | _ => .error (badForm w)
  | 0x40 =>
    match formOf w with
    | 0 => .ok (.sadd (fld w 16 6) (fld w 10 6) (fld w 4 6))
    | 1 => .ok (.ssub (fld w 16 6) (fld w 10 6) (fld w 4 6))
    | 2 => .ok (.smin (fld w 16 6) (fld w 10 6) (fld w 4 6))
    | _ => .ok (.smax (fld w 16 6) (fld w 10 6) (fld w 4 6))
  | 0x41 =>
    match formOf w with
    | 0 => .ok (.smul (fld w 16 6) (fld w 10 6) (fld w 4 6))
    | 1 => .ok (.smulh (fld w 16 6) (fld w 10 6) (fld w 4 6))
    | 2 => .ok (.sdivn (fld w 16 6) (fld w 10 6) (fld w 4 6))
    | _ => .ok (.sremn (fld w 16 6) (fld w 10 6) (fld w 4 6))
  | 0x42 =>
    match formOf w with
    | 0 => .ok (.sand (fld w 16 6) (fld w 10 6) (fld w 4 6))
    | 1 => .ok (.sor (fld w 16 6) (fld w 10 6) (fld w 4 6))
    | 2 => .ok (.sxor (fld w 16 6) (fld w 10 6) (fld w 4 6))
    | _ => .ok (.sandn (fld w 16 6) (fld w 10 6) (fld w 4 6))
  | 0x43 =>
    match formOf w with
    | 0 => .ok (.sshl (fld w 16 6) (fld w 10 6) (fld w 4 6))
    | 1 => .ok (.sshr (fld w 16 6) (fld w 10 6) (fld w 4 6))
    | 2 => .ok (.ssar (fld w 16 6) (fld w 10 6) (fld w 4 6))
    | _ => .ok (.srol (fld w 16 6) (fld w 10 6) (fld w 4 6))
  | 0x44 =>
    match formOf w with
    | 0 => .ok (.spopc (fld w 16 6) (fld w 10 6))
    | 1 => .ok (.sclz (fld w 16 6) (fld w 10 6))
    | 2 => .ok (.sbrev (fld w 16 6) (fld w 10 6))
    | _ => .ok (.sffs (fld w 16 6) (fld w 10 6))
  | 0x45 => .ok (.ssetc (fld w 19 3) (fld w 16 3) (fld w 10 6) (fld w 4 6) (fld w 0 2))
  | 0x46 => .ok (.ssel (fld w 16 6) (fld w 10 6) (fld w 4 6) (fld w 0 2))
  | 0x47 =>
    match formOf w with
    | 0 => .ok (.smov (fld w 16 6) (fld w 10 6))
    | 1 => .ok (.srd (fld w 16 6) (fld w 10 6))
    | 2 => .ok (.swr (fld w 16 6) (fld w 10 6))
    | _ => .error (badForm w)
  | 0x48 => .ok (.saddi (fld w 16 6) (fld w 10 6) (loneImm w))
  | 0x49 => .ok (.smovi (fld w 16 6) (loneImm w))
  | 0x4A => .ok (.sshli (fld w 16 6) (fld w 10 6) (loneImm w))
  | 0x4B => .ok (.sandi (fld w 16 6) (fld w 10 6) (loneImm w))
  | 0x4D => .ok (.sori (fld w 16 6) (fld w 10 6) (loneImm w))
  | 0x4E =>
    match formOf w with
    | 0 => .ok (.sfadd (fld w 16 6) (fld w 10 6) (fld w 4 6))
    | 1 => .ok (.sfsub (fld w 16 6) (fld w 10 6) (fld w 4 6))
    | 2 => .ok (.sfmul (fld w 16 6) (fld w 10 6) (fld w 4 6))
    | _ => .ok (.sffma (fld w 16 6) (fld w 10 6) (fld w 4 6))
  | 0x4F =>
    match formOf w with
    | 0 => .ok (.si2f (fld w 16 6) (fld w 10 6))
    | 1 => .ok (.sf2i (fld w 16 6) (fld w 10 6))
    | 2 => .ok (.sfrcp (fld w 16 6) (fld w 10 6))
    | _ => .ok (.sfsqrt (fld w 16 6) (fld w 10 6))
  | 0x50 => .ok (.sld (fld w 0 2) (fld w 16 6) (fld w 10 6) (fld w 4 6) none)
  | 0x51 => if formOf w = 2 then .error (badForm w) else .ok (.sst (fld w 0 2) (fld w 16 6) (fld w 10 6) (fld w 4 6) none)
  | 0x52 =>
    match formOf w with
    | 0 => .ok (.satomAdd (fld w 16 6) (fld w 10 6) (fld w 4 6) none)
    | 1 => .ok (.satomExch (fld w 16 6) (fld w 10 6) (fld w 4 6) none)
    | 2 => .ok (.satomCas (fld w 16 6) (fld w 10 6) (fld w 4 6) none)
    | _ => .ok (.satomNmax (fld w 16 6) (fld w 10 6) (fld w 4 6) none)
  | 0x54 =>
    match formOf w with
    | 0 => .ok (.fenceRel)
    | 1 => .ok (.fenceAcq)
    | 2 => .ok (.fenceFull)
    | _ => .error (badForm w)
  | 0x55 =>
    match formOf w with
    | 0 => .ok (.discard (fld w 10 6) (fld w 4 6))
    | 1 => .ok (.flush (fld w 10 6) (fld w 4 6))
    | 2 => .ok (.inval (fld w 10 6) (fld w 4 6))
    | _ => .ok (.pfetch (fld w 10 6) (fld w 4 6))
  | 0x56 =>
    match formOf w with
    | 0 => .ok (.respri (fld w 10 6) (fld w 4 6))
    | 1 => .ok (.resdem (fld w 10 6) (fld w 4 6))
    | 2 => .ok (.respro (fld w 10 6))
    | _ => .ok (.resqry (fld w 16 6) (fld w 10 6))
  | 0x57 =>
    match formOf w with
    | 0 => .ok (.hset (fld w 16 4) (fld w 10 6))
    | 1 => .ok (.hget (fld w 16 6) (fld w 10 4))
    | 2 => .ok (.hcls (fld w 16 4) (fld w 10 6))
    | _ => .ok (.hseed (fld w 16 4) (fld w 10 6))
  | 0x58 =>
    match formOf w with
    | 0 => .ok (.jmp (fld w 4 18))
    | 1 => .ok (.jcall (fld w 4 18))
    | 2 => .error (badForm w)
    | _ => .error (badForm w)
  | 0x59 =>
    match formOf w with
    | 0 => .ok (.sret)
    | 1 => .ok (.jmpr (fld w 10 6))
    | 2 => .ok (.trap (fld w 4 6))
    | _ => .ok (.rte (fld w 10 6))
  | 0x5A =>
    match formOf w with
    | 0 => .ok (.bar (fld w 16 6) (fld w 4 6))
    | 1 => .ok (.cbar (fld w 16 6) (fld w 4 6))
    | 2 => .ok (.bara (fld w 16 6) (fld w 4 6))
    | _ => .ok (.barw (fld w 16 6) (fld w 4 6))
  | 0x5B =>
    match formOf w with
    | 0 => .ok (.wcondAddr (fld w 16 2) (fld w 10 6) (fld w 4 6))
    | 1 => .ok (.wcondBcb (fld w 16 2) (fld w 10 6))
    | 2 => .ok (.wcondQueue (fld w 16 2) (fld w 10 6) (fld w 4 6))
    | _ => .ok (.wcondCompl (fld w 16 2) (fld w 10 6) (fld w 4 6))
  | 0x5C =>
    match formOf w with
    | 0 => .ok (.waitany (fld w 16 6) (fld w 10 6) (fld w 4 4))
    | 1 => .ok (.waitall (fld w 16 6) (fld w 10 6) (fld w 4 4))
    | 2 => .error (badForm w)
    | _ => .error (badForm w)
  | 0x5D =>
    match formOf w with
    | 0 => .ok (.push (fld w 16 3) (fld w 10 6) (fld w 4 6))
    | 1 => .ok (.pushw (fld w 10 6) (fld w 4 6))
    | 2 => .ok (.kick (fld w 10 6) (fld w 4 6))
    | _ => .error (badForm w)
  | 0x5E =>
    match formOf w with
    | 0 => .ok (.launch (fld w 16 6) (fld w 10 6) (fld w 4 6))
    | 1 => .error (badForm w)
    | 2 => .error (badForm w)
    | _ => .error (badForm w)
  | 0x5F =>
    match formOf w with
    | 0 => .ok (.qbind (fld w 4 3) (fld w 10 6))
    | 1 => .ok (.qunb (fld w 4 3))
    | 2 => .ok (.qstat (fld w 16 6) (fld w 4 3))
    | _ => .ok (.qreset (fld w 4 3))
  | 0x60 =>
    match formOf w with
    | 0 => .ok (.regxAcq)
    | 1 => .ok (.regxRel)
    | 2 => .ok (.regxTry (fld w 16 3))
    | _ => .error (badForm w)
  | 0x61 =>
    match formOf w with
    | 0 => .ok (.prioPass)
    | 1 => .ok (.prioTake)
    | 2 => .ok (.prioPair (fld w 10 6))
    | _ => .error (badForm w)
  | 0x62 =>
    match formOf w with
    | 0 => .ok (.seqfork (fld w 10 6) (fld w 4 6))
    | 1 => .ok (.seqfree (fld w 10 6))
    | 2 => .ok (.seqtrunc (fld w 10 6) (fld w 4 6))
    | _ => .ok (.seqinfo (fld w 16 6) (fld w 10 6))
  | 0x63 =>
    match formOf w with
    | 0 => .ok (.ssnap (fld w 16 6))
    | 1 => .ok (.ssroll (fld w 16 6) (fld w 10 6))
    | 2 => .ok (.sscommit (fld w 10 6))
    | _ => .ok (.ssbind (fld w 10 6))
  | 0x64 =>
    match formOf w with
    | 0 => .ok (.mset (fld w 16 2) (fld w 10 6))
    | 1 => .ok (.mget (fld w 16 6) (fld w 10 2))
    | 2 => .error (badForm w)
    | _ => .error (badForm w)
  | 0x65 =>
    match formOf w with
    | 0 => .ok (.mma (fld w 16 6) (fld w 10 6) (fld w 4 6) (fld w 2 2))
    | 1 => .ok (.mmaSpad (fld w 16 6) (fld w 10 6) (fld w 4 6) (fld w 2 2))
    | 2 => .ok (.mmaQueue (fld w 16 6) (fld w 10 6) (fld w 4 6) (fld w 2 2))
    | _ => .error (badForm w)
  | 0x66 =>
    match formOf w with
    | 0 => .ok (.mmag (fld w 16 6) (fld w 10 6) (fld w 4 6) (fld w 2 2))
    | 1 => .ok (.mmagSpad (fld w 16 6) (fld w 10 6) (fld w 4 6) (fld w 2 2))
    | 2 => .ok (.mmagQueue (fld w 16 6) (fld w 10 6) (fld w 4 6) (fld w 2 2))
    | _ => .error (badForm w)
  | 0x67 =>
    match formOf w with
    | 0 => .ok (.drain (fld w 10 6) (fld w 4 6))
    | 1 => .ok (.drainSkip (fld w 4 6))
    | 2 => .ok (.gclr (fld w 10 6) (fld w 4 6))
    | _ => .ok (.grd (fld w 16 6) (fld w 10 6) (fld w 4 6))
  | 0x68 =>
    match formOf w with
    | 0 => .ok (.nrst)
    | 1 => .ok (.nchk (fld w 16 3) (fld w 10 6) (fld w 4 6))
    | 2 => .ok (.nrd (fld w 16 6))
    | _ => .error (badForm w)
  | 0x69 =>
    match formOf w with
    | 0 => .ok (.brk)
    | 1 => .ok (.mark (fld w 10 6))
    | 2 => .ok (.sample)
    | _ => .ok (.hashrd (fld w 16 6))
  | 0x6A =>
    match formOf w with
    | 0 => .ok (.nop)
    | 1 => .error (badForm w)
    | 2 => .error (badForm w)
    | _ => .error (badForm w)
  | _ => .error (badOp w)

/-- Whether the format of the word has the guard field G (R230): LI and UI words and UM words have none. -/
def Instr.hasGuard (i : Instr) : Bool :=
  match i with
  | .iaddi _ _ _ => false
  | .shli _ _ _ => false
  | .shri _ _ _ => false
  | .andi _ _ _ => false
  | .movi _ _ => false
  | .ori _ _ _ => false
  | .xori _ _ _ => false
  | .saddi _ _ _ => false
  | .smovi _ _ => false
  | .sshli _ _ _ => false
  | .sandi _ _ _ => false
  | .sori _ _ _ => false
  | .mma _ _ _ _ => false
  | .mmaSpad _ _ _ _ => false
  | .mmaQueue _ _ _ _ => false
  | .mmag _ _ _ _ => false
  | .mmagSpad _ _ _ _ => false
  | .mmagQueue _ _ _ _ => false
  | _ => true

/-- Whether the word has the scope field SC (R321, R322). -/
def Instr.hasScope (i : Instr) : Bool :=
  match i with
  | .discard _ _ => true
  | .flush _ _ => true
  | .inval _ _ => true
  | .pfetch _ _ => true
  | .fenceRel => true
  | .fenceAcq => true
  | .fenceFull => true
  | _ => false

/-- STALL, G and SC of a word that holds `i`; a word without the field G has the guard 00, which always holds (R234),
and a word without SC has scope 0. -/
def headerOf (w : Word) (i : Instr) : Header :=
  { stall := fld w 22 3, guard := if i.hasGuard then fld w 2 2 else 0,
    scope := if i.hasScope then fld w 16 2 else 0 }

/-- What the decoder gives for a group: the instruction, the header of its word and the number of words. -/
structure Group where
  instr : Instr
  hdr : Header
  len : Nat
deriving DecidableEq, Repr

/-- R236: an LI or UI instruction takes its immediate from its LIT words; nothing else may follow a LIT. -/
def Instr.withImm (i : Instr) (f : BitVec 10 → Imm) : Option Instr :=
  match i with
  | .iaddi vd va (.lone v) => some (.iaddi vd va (f v))
  | .shli vd va (.lone v) => some (.shli vd va (f v))
  | .shri vd va (.lone v) => some (.shri vd va (f v))
  | .andi vd va (.lone v) => some (.andi vd va (f v))
  | .movi vd (.lone v) => some (.movi vd (f v))
  | .ori vd va (.lone v) => some (.ori vd va (f v))
  | .xori vd va (.lone v) => some (.xori vd va (f v))
  | .saddi sd sa (.lone v) => some (.saddi sd sa (f v))
  | .smovi sd (.lone v) => some (.smovi sd (f v))
  | .sshli sd sa (.lone v) => some (.sshli sd sa (f v))
  | .sandi sd sa (.lone v) => some (.sandi sd sa (f v))
  | .sori sd sa (.lone v) => some (.sori sd sa (f v))
  | _ => none

/-- R237: an MQ word may stand before the memory instructions of R237 and CLD, CST (R343) and nothing else. -/
def Instr.withMq (i : Instr) (q : Mq) : Option Instr :=
  match i with
  | .ld w vd va sb _ => some (.ld w vd va sb (some q))
  | .ldb w vd va sb _ => some (.ldb w vd va sb (some q))
  | .st w vd va sb _ => some (.st w vd va sb (some q))
  | .stb vd va sb _ => some (.stb vd va sb (some q))
  | .ldx w vd va sb _ => some (.ldx w vd va sb (some q))
  | .stx w vd va sb _ => some (.stx w vd va sb (some q))
  | .ldt w vd va sb _ => some (.ldt w vd va sb (some q))
  | .cld w vd va hb _ => some (.cld w vd va hb (some q))
  | .cstElem vd va hb _ => some (.cstElem vd va hb (some q))
  | .cstBlk vd va hb _ => some (.cstBlk vd va hb (some q))
  | .atomAdd vd va sb _ => some (.atomAdd vd va sb (some q))
  | .atomFadd vd va sb _ => some (.atomFadd vd va sb (some q))
  | .atomExch vd va sb _ => some (.atomExch vd va sb (some q))
  | .atomCas vd va sb _ => some (.atomCas vd va sb (some q))
  | .atomNmin vd va sb _ => some (.atomNmin vd va sb (some q))
  | .atomNmax vd va sb _ => some (.atomNmax vd va sb (some q))
  | .atomAnd vd va sb _ => some (.atomAnd vd va sb (some q))
  | .atomOr vd va sb _ => some (.atomOr vd va sb (some q))
  | .atomxAdd vd va sb _ => some (.atomxAdd vd va sb (some q))
  | .atomxExch vd va sb _ => some (.atomxExch vd va sb (some q))
  | .atomxCas vd va sb _ => some (.atomxCas vd va sb (some q))
  | .atomxNmax vd va sb _ => some (.atomxNmax vd va sb (some q))
  | .sld w sd sa sb _ => some (.sld w sd sa sb (some q))
  | .sst w sd sa sb _ => some (.sst w sd sa sb (some q))
  | .satomAdd sd sa sb _ => some (.satomAdd sd sa sb (some q))
  | .satomExch sd sa sb _ => some (.satomExch sd sa sb (some q))
  | .satomCas sd sa sb _ => some (.satomCas sd sa sb (some q))
  | .satomNmax sd sa sb _ => some (.satomNmax sd sa sb (some q))
  | _ => none

/-- R421, R425: the register limits and special-register indices fixed by the word. -/
def checkLimits (w : Word) (len : Nat) (i : Instr) : Except Reject Group :=
  match i.limitFault with
  | some (r, v) => .error { reason := r, value := v, word := w, len := len }
  | none => .ok { instr := i, hdr := headerOf w i, len := len }

/-- R419: the word at fault of a malformed group and its place in the group. -/
def malformed (w : Word) (pos : Nat) : Reject :=
  { reason := 4, value := BitVec.ofNat 8 pos, word := w, len := pos + 1 }

/-- The instruction word at place `pos` behind prefixes that `attach` gives it. The lowest REASON is reported
(R415): a reserved opcode or F value before a malformed group, and that before a register field. -/
def decodeBehind (w : Word) (pos : Nat) (attach : Instr → Option Instr) : Except Reject Group :=
  match decodeWord w with
  | .error e => .error { e with len := pos + 1 }
  | .ok i =>
    match attach i with
    | none => .error (malformed w pos)
    | some j => checkLimits w (pos + 1) j

/-- R235, R419: whether the words read so far ask for one more. -/
def wantsMore : List Word → Bool
  | [] => true
  | [a] => isLit a || isMq a
  | [a, b] => isLit a && isLit b
  | _ => false

/-- A group from its first word (R235): at most one MQ word, or one or two LIT words, and one instruction word. -/
def decodeGroup : List Word → Except Reject Group
  | [] => .error { reason := 4, value := 0, word := 0, len := 1 }
  | a :: rest =>
    if isMq a then
      match rest with
      | [] => .error { malformed a 0 with len := 1 }
      | b :: _ =>
        if isMq b || isLit b then .error (malformed b 1)
        else if mqReserved a then
          match decodeWord b with
          | .error e => .error { e with len := 2 }
          | .ok _ => .error { reason := 4, value := 0, word := a, len := 2 }
        else decodeBehind b 1 (fun i => i.withMq (mqOf a))
    else if isLit a then
      match rest with
      | [] => .error { malformed a 0 with len := 1 }
      | b :: rest2 =>
        if isMq b then .error (malformed b 1)
        else if isLit b then
          match rest2 with
          | [] => .error { malformed b 1 with len := 2 }
          | c :: _ =>
            if isMq c || isLit c then .error (malformed c 2)
            else decodeBehind c 2 (fun i => i.withImm (.two (litOf a) (litOf b)))
        else decodeBehind b 1 (fun i => i.withImm (.one (litOf a)))
    else decodeBehind a 0 some

/-- The instruction the decoder reads from an instruction whose bits are `w` (bit 0 the lowest bit of the first
word); bits above `nbits` are zero. -/
def decodeTableWord (nbits w : Nat) : Option Instr :=
  let v := w % 2 ^ nbits
  match decodeGroup [BitVec.ofNat 32 v, BitVec.ofNat 32 (v / 2 ^ 32), BitVec.ofNat 32 (v / 2 ^ 64)] with
  | .ok g => some g.instr
  | .error _ => none

/-! ### The encoder -/

/-- LA, LM, UA and UM words (R230, R231). -/
def wordA (op : BitVec 7) (st : BitVec 3) (d a b : BitVec 6) (g f : BitVec 2) : Word :=
  (op ++ st ++ d ++ a ++ b ++ g ++ f : BitVec 32)

/-- LC and UC words. -/
def wordC (op : BitVec 7) (st pd cc : BitVec 3) (a b : BitVec 6) (g f : BitVec 2) : Word :=
  (op ++ st ++ pd ++ cc ++ a ++ b ++ g ++ f : BitVec 32)

/-- LI and UI words. -/
def wordI (op : BitVec 7) (st : BitVec 3) (d a : BitVec 6) (imm : BitVec 10) : Word :=
  (op ++ st ++ d ++ a ++ imm : BitVec 32)

/-- LB and UJ words. -/
def wordB (op : BitVec 7) (st : BitVec 3) (off : BitVec 18) (g f : BitVec 2) : Word :=
  (op ++ st ++ off ++ g ++ f : BitVec 32)

/-- A UL word (R316). -/
def litWord (l : BitVec 25) : Word := (0x4C#7 ++ l : BitVec 32)

/-- An MQ word (R317). -/
def mqWord (q : Mq) : Word :=
  (0x53#7 ++ 0#3 ++ q.order ++ q.scope ++ q.use ++ q.cache ++ q.quantum ++ 0#3 : BitVec 32)

/-- The LIT words in front of an LI or UI word (R236). -/
def litWords : Imm → List Word
  | .lone _ => []
  | .one l _ => [litWord l]
  | .two a b _ => [litWord a, litWord b]

def Imm.low : Imm → BitVec 10
  | .lone v => v
  | .one _ v => v
  | .two _ _ v => v

/-- The MQ word in front of a memory instruction, where it has one (R237). -/
def mqWords : Option Mq → List Word
  | none => []
  | some q => [mqWord q]

/-- The words of an instruction, written from the encoding tables. A step of the device that is no word has none. -/
def encode (h : Header) (i : Instr) : List Word :=
  match i with
  | .iadd vd va vb => [wordA 0x00 h.stall vd va vb h.guard 0]
  | .isub vd va vb => [wordA 0x00 h.stall vd va vb h.guard 1]
  | .imin vd va vb => [wordA 0x00 h.stall vd va vb h.guard 2]
  | .imax vd va vb => [wordA 0x00 h.stall vd va vb h.guard 3]
  | .nmin vd va vb => [wordA 0x01 h.stall vd va vb h.guard 0]
  | .nmax vd va vb => [wordA 0x01 h.stall vd va vb h.guard 1]
  | .iabsd vd va vb => [wordA 0x01 h.stall vd va vb h.guard 2]
  | .navg vd va vb => [wordA 0x01 h.stall vd va vb h.guard 3]
  | .imul vd va vb => [wordA 0x02 h.stall vd va vb h.guard 0]
  | .imulh vd va vb => [wordA 0x02 h.stall vd va vb h.guard 1]
  | .nmulh vd va vb => [wordA 0x02 h.stall vd va vb h.guard 2]
  | .imad vd va vb => [wordA 0x02 h.stall vd va vb h.guard 3]
  | .and vd va vb => [wordA 0x03 h.stall vd va vb h.guard 0]
  | .or vd va vb => [wordA 0x03 h.stall vd va vb h.guard 1]
  | .xor vd va vb => [wordA 0x03 h.stall vd va vb h.guard 2]
  | .andn vd va vb => [wordA 0x03 h.stall vd va vb h.guard 3]
  | .shl vd va vb => [wordA 0x04 h.stall vd va vb h.guard 0]
  | .shr vd va vb => [wordA 0x04 h.stall vd va vb h.guard 1]
  | .sar vd va vb => [wordA 0x04 h.stall vd va vb h.guard 2]
  | .rol vd va vb => [wordA 0x04 h.stall vd va vb h.guard 3]
  | .bfx vd va vb => [wordA 0x06 h.stall vd va vb h.guard 0]
  | .bfxn vd va vb => [wordA 0x06 h.stall vd va vb h.guard 1]
  | .bfi vd va vb => [wordA 0x06 h.stall vd va vb h.guard 2]
  | .prmt vd va vb => [wordA 0x06 h.stall vd va vb h.guard 3]
  | .fadd vd va vb => [wordA 0x09 h.stall vd va vb h.guard 0]
  | .fsub vd va vb => [wordA 0x09 h.stall vd va vb h.guard 1]
  | .fmul vd va vb => [wordA 0x09 h.stall vd va vb h.guard 2]
  | .ffma vd va vb => [wordA 0x09 h.stall vd va vb h.guard 3]
  | .fmin vd va vb => [wordA 0x0A h.stall vd va vb h.guard 0]
  | .fmax vd va vb => [wordA 0x0A h.stall vd va vb h.guard 1]
  | .fabsd vd va vb => [wordA 0x0A h.stall vd va vb h.guard 2]
  | .fcpys vd va vb => [wordA 0x0A h.stall vd va vb h.guard 3]
  | .phadd vd va vb => [wordA 0x10 h.stall vd va vb h.guard 0]
  | .phmul vd va vb => [wordA 0x10 h.stall vd va vb h.guard 1]
  | .phfma vd va vb => [wordA 0x10 h.stall vd va vb h.guard 2]
  | .phmax vd va vb => [wordA 0x10 h.stall vd va vb h.guard 3]
  | .pbadd vd va vb => [wordA 0x11 h.stall vd va vb h.guard 0]
  | .pbmul vd va vb => [wordA 0x11 h.stall vd va vb h.guard 1]
  | .pbfma vd va vb => [wordA 0x11 h.stall vd va vb h.guard 2]
  | .pbmax vd va vb => [wordA 0x11 h.stall vd va vb h.guard 3]
  | .shfl vd va vb => [wordA 0x15 h.stall vd va vb h.guard 0]
  | .shflu vd va vb => [wordA 0x15 h.stall vd va vb h.guard 1]
  | .shfld vd va vb => [wordA 0x15 h.stall vd va vb h.guard 2]
  | .shflx vd va vb => [wordA 0x15 h.stall vd va vb h.guard 3]
  | .popc vd va => [wordA 0x05 h.stall vd va 0 h.guard 0]
  | .clz vd va => [wordA 0x05 h.stall vd va 0 h.guard 1]
  | .brev vd va => [wordA 0x05 h.stall vd va 0 h.guard 2]
  | .ffs vd va => [wordA 0x05 h.stall vd va 0 h.guard 3]
  | .frcp vd va => [wordA 0x0C h.stall vd va 0 h.guard 0]
  | .frsq vd va => [wordA 0x0C h.stall vd va 0 h.guard 1]
  | .fex2 vd va => [wordA 0x0C h.stall vd va 0 h.guard 2]
  | .flg2 vd va => [wordA 0x0C h.stall vd va 0 h.guard 3]
  | .fsin vd va => [wordA 0x0D h.stall vd va 0 h.guard 0]
  | .fcos vd va => [wordA 0x0D h.stall vd va 0 h.guard 1]
  | .fsqrt vd va => [wordA 0x0D h.stall vd va 0 h.guard 2]
  | .ftanh vd va => [wordA 0x0D h.stall vd va 0 h.guard 3]
  | .i2f vd va => [wordA 0x0E h.stall vd va 0 h.guard 0]
  | .n2f vd va => [wordA 0x0E h.stall vd va 0 h.guard 1]
  | .f2i vd va => [wordA 0x0E h.stall vd va 0 h.guard 2]
  | .f2n vd va => [wordA 0x0E h.stall vd va 0 h.guard 3]
  | .frne vd va => [wordA 0x0F h.stall vd va 0 h.guard 0]
  | .fflr vd va => [wordA 0x0F h.stall vd va 0 h.guard 1]
  | .fceil vd va => [wordA 0x0F h.stall vd va 0 h.guard 2]
  | .ftrnc vd va => [wordA 0x0F h.stall vd va 0 h.guard 3]
  | .wradd vd va => [wordA 0x17 h.stall vd va 0 h.guard 0]
  | .wrmax vd va => [wordA 0x17 h.stall vd va 0 h.guard 1]
  | .wrfadd vd va => [wordA 0x17 h.stall vd va 0 h.guard 2]
  | .wrfmax vd va => [wordA 0x17 h.stall vd va 0 h.guard 3]
  | .icmpp pd cc va vb f => [wordC 0x07 h.stall pd cc va vb h.guard f]
  | .sel vd va vb k => [wordA 0x08 h.stall vd va vb h.guard k]
  | .fcmpp pd cc va vb f => [wordC 0x0B h.stall pd cc va vb h.guard f]
  | .f2h2 vd va vb => [wordA 0x12 h.stall vd va vb h.guard 0]
  | .h2f vd va hi => [wordA 0x12 h.stall vd va (hi.setWidth 6) h.guard 1]
  | .f2b2 vd va vb => [wordA 0x12 h.stall vd va vb h.guard 2]
  | .b2f vd va hi => [wordA 0x12 h.stall vd va (hi.setWidth 6) h.guard 3]
  | .cvtn vd va hb => [wordA 0x13 h.stall vd va (hb.setWidth 6) h.guard 0]
  | .cvtsr vd va hb => [wordA 0x13 h.stall vd va (hb.setWidth 6) h.guard 1]
  | .cvtw vd va hb => [wordA 0x13 h.stall vd va (hb.setWidth 6) h.guard 2]
  | .packn vd va hb => [wordA 0x13 h.stall vd va (hb.setWidth 6) h.guard 3]
  | .qxh vd va => [wordA 0x14 h.stall vd va 0 h.guard 0]
  | .qxv vd va => [wordA 0x14 h.stall vd va 0 h.guard 1]
  | .qxd vd va => [wordA 0x14 h.stall vd va 0 h.guard 2]
  | .qbc vd va vb => [wordA 0x14 h.stall vd va vb h.guard 3]
  | .ballot sd va => [wordA 0x16 h.stall sd va 0 h.guard 0]
  | .vany vd va => [wordA 0x16 h.stall vd va 0 h.guard 1]
  | .vall vd va => [wordA 0x16 h.stall vd va 0 h.guard 2]
  | .vmatch vd va => [wordA 0x16 h.stall vd va 0 h.guard 3]
  | .vmov vd va => [wordA 0x18 h.stall vd va 0 h.guard 0]
  | .vmovs vd sa hi => [wordA 0x18 h.stall vd sa (hi.setWidth 6) h.guard 1]
  | .vspec vd ix => [wordA 0x18 h.stall vd ix 0 h.guard 2]
  | .iaddi vd va imm => litWords imm ++ [wordI 0x19 h.stall vd va imm.low]
  | .shli vd va imm => litWords imm ++ [wordI 0x1A h.stall vd va imm.low]
  | .shri vd va imm => litWords imm ++ [wordI 0x1B h.stall vd va imm.low]
  | .andi vd va imm => litWords imm ++ [wordI 0x1C h.stall vd va imm.low]
  | .movi vd imm => litWords imm ++ [wordI 0x1D h.stall vd 0 imm.low]
  | .ori vd va imm => litWords imm ++ [wordI 0x1E h.stall vd va imm.low]
  | .xori vd va imm => litWords imm ++ [wordI 0x1F h.stall vd va imm.low]
  | .ld w vd va sb mq => mqWords mq ++ [wordA 0x20 h.stall vd va sb h.guard w]
  | .ldb w vd va sb mq => mqWords mq ++ [wordA 0x21 h.stall vd va sb h.guard w]
  | .st w vd va sb mq => mqWords mq ++ [wordA 0x22 h.stall vd va sb h.guard w]
  | .stb vd va sb mq => mqWords mq ++ [wordA 0x23 h.stall vd va sb h.guard 0]
  | .ldx w vd va sb mq => mqWords mq ++ [wordA 0x24 h.stall vd va sb h.guard w]
  | .stx w vd va sb mq => mqWords mq ++ [wordA 0x25 h.stall vd va sb h.guard w]
  | .ldt w vd va sb mq => mqWords mq ++ [wordA 0x26 h.stall vd va sb h.guard w]
  | .cld w vd va hb mq => mqWords mq ++ [wordA 0x27 h.stall vd va (hb.setWidth 6) h.guard w]
  | .cstElem vd va hb mq => mqWords mq ++ [wordA 0x28 h.stall vd va (hb.setWidth 6) h.guard 0]
  | .cstBlk vd va hb mq => mqWords mq ++ [wordA 0x28 h.stall vd va (hb.setWidth 6) h.guard 1]
  | .atomAdd vd va sb mq => mqWords mq ++ [wordA 0x29 h.stall vd va sb h.guard 0]
  | .atomFadd vd va sb mq => mqWords mq ++ [wordA 0x29 h.stall vd va sb h.guard 1]
  | .atomExch vd va sb mq => mqWords mq ++ [wordA 0x29 h.stall vd va sb h.guard 2]
  | .atomCas vd va sb mq => mqWords mq ++ [wordA 0x29 h.stall vd va sb h.guard 3]
  | .atomNmin vd va sb mq => mqWords mq ++ [wordA 0x2A h.stall vd va sb h.guard 0]
  | .atomNmax vd va sb mq => mqWords mq ++ [wordA 0x2A h.stall vd va sb h.guard 1]
  | .atomAnd vd va sb mq => mqWords mq ++ [wordA 0x2A h.stall vd va sb h.guard 2]
  | .atomOr vd va sb mq => mqWords mq ++ [wordA 0x2A h.stall vd va sb h.guard 3]
  | .atomxAdd vd va sb mq => mqWords mq ++ [wordA 0x2B h.stall vd va sb h.guard 0]
  | .atomxExch vd va sb mq => mqWords mq ++ [wordA 0x2B h.stall vd va sb h.guard 1]
  | .atomxCas vd va sb mq => mqWords mq ++ [wordA 0x2B h.stall vd va sb h.guard 2]
  | .atomxNmax vd va sb mq => mqWords mq ++ [wordA 0x2B h.stall vd va sb h.guard 3]
  | .kvldK vd va sb => [wordA 0x2C h.stall vd va sb h.guard 0]
  | .kvldVt vd va sb => [wordA 0x2C h.stall vd va sb h.guard 1]
  | .kvappK vd va sb => [wordA 0x2D h.stall vd va sb h.guard 0]
  | .kvappV vd va sb => [wordA 0x2D h.stall vd va sb h.guard 1]
  | .kvappCommit va sb => [wordA 0x2D h.stall 0 va sb h.guard 2]
  | .ssld vd va sb => [wordA 0x2E h.stall vd va sb h.guard 0]
  | .ssst vd va sb => [wordA 0x2E h.stall vd va sb h.guard 1]
  | .ropeInter vd va sb => [wordA 0x2F h.stall vd va sb h.guard 0]
  | .ropeSplit vd va sb => [wordA 0x2F h.stall vd va sb h.guard 1]
  | .bra off => [wordB 0x30 h.stall off h.guard 0]
  | .call off => [wordB 0x31 h.stall off h.guard 0]
  | .rcvset off => [wordB 0x32 h.stall off h.guard 0]
  | .reform off => [wordB 0x33 h.stall off h.guard 0]
  | .rejoin off => [wordB 0x33 h.stall off h.guard 1]
  | .spawn off => [wordB 0x33 h.stall off h.guard 2]
  | .callr va => [wordA 0x34 h.stall 0 va 0 h.guard 2]
  | .brx va => [wordA 0x34 h.stall 0 va 0 h.guard 3]
  | .waitc w vd va sb => [wordA 0x35 h.stall vd va sb h.guard w]
  | .sadd sd sa sb => [wordA 0x40 h.stall sd sa sb h.guard 0]
  | .ssub sd sa sb => [wordA 0x40 h.stall sd sa sb h.guard 1]
  | .smin sd sa sb => [wordA 0x40 h.stall sd sa sb h.guard 2]
  | .smax sd sa sb => [wordA 0x40 h.stall sd sa sb h.guard 3]
  | .smul sd sa sb => [wordA 0x41 h.stall sd sa sb h.guard 0]
  | .smulh sd sa sb => [wordA 0x41 h.stall sd sa sb h.guard 1]
  | .sdivn sd sa sb => [wordA 0x41 h.stall sd sa sb h.guard 2]
  | .sremn sd sa sb => [wordA 0x41 h.stall sd sa sb h.guard 3]
  | .sand sd sa sb => [wordA 0x42 h.stall sd sa sb h.guard 0]
  | .sor sd sa sb => [wordA 0x42 h.stall sd sa sb h.guard 1]
  | .sxor sd sa sb => [wordA 0x42 h.stall sd sa sb h.guard 2]
  | .sandn sd sa sb => [wordA 0x42 h.stall sd sa sb h.guard 3]
  | .sshl sd sa sb => [wordA 0x43 h.stall sd sa sb h.guard 0]
  | .sshr sd sa sb => [wordA 0x43 h.stall sd sa sb h.guard 1]
  | .ssar sd sa sb => [wordA 0x43 h.stall sd sa sb h.guard 2]
  | .srol sd sa sb => [wordA 0x43 h.stall sd sa sb h.guard 3]
  | .sfadd sd sa sb => [wordA 0x4E h.stall sd sa sb h.guard 0]
  | .sfsub sd sa sb => [wordA 0x4E h.stall sd sa sb h.guard 1]
  | .sfmul sd sa sb => [wordA 0x4E h.stall sd sa sb h.guard 2]
  | .sffma sd sa sb => [wordA 0x4E h.stall sd sa sb h.guard 3]
  | .spopc sd sa => [wordA 0x44 h.stall sd sa 0 h.guard 0]
  | .sclz sd sa => [wordA 0x44 h.stall sd sa 0 h.guard 1]
  | .sbrev sd sa => [wordA 0x44 h.stall sd sa 0 h.guard 2]
  | .sffs sd sa => [wordA 0x44 h.stall sd sa 0 h.guard 3]
  | .si2f sd sa => [wordA 0x4F h.stall sd sa 0 h.guard 0]
  | .sf2i sd sa => [wordA 0x4F h.stall sd sa 0 h.guard 1]
  | .sfrcp sd sa => [wordA 0x4F h.stall sd sa 0 h.guard 2]
  | .sfsqrt sd sa => [wordA 0x4F h.stall sd sa 0 h.guard 3]
  | .ssetc cd cc sa sb f => [wordC 0x45 h.stall cd cc sa sb h.guard f]
  | .ssel sd sa sb k => [wordA 0x46 h.stall sd sa sb h.guard k]
  | .smov sd sa => [wordA 0x47 h.stall sd sa 0 h.guard 0]
  | .srd sd ix => [wordA 0x47 h.stall sd ix 0 h.guard 1]
  | .swr ixd sa => [wordA 0x47 h.stall ixd sa 0 h.guard 2]
  | .saddi sd sa imm => litWords imm ++ [wordI 0x48 h.stall sd sa imm.low]
  | .smovi sd imm => litWords imm ++ [wordI 0x49 h.stall sd 0 imm.low]
  | .sshli sd sa imm => litWords imm ++ [wordI 0x4A h.stall sd sa imm.low]
  | .sandi sd sa imm => litWords imm ++ [wordI 0x4B h.stall sd sa imm.low]
  | .sori sd sa imm => litWords imm ++ [wordI 0x4D h.stall sd sa imm.low]
  | .sld w sd sa sb mq => mqWords mq ++ [wordA 0x50 h.stall sd sa sb h.guard w]
  | .sst w sd sa sb mq => mqWords mq ++ [wordA 0x51 h.stall sd sa sb h.guard w]
  | .satomAdd sd sa sb mq => mqWords mq ++ [wordA 0x52 h.stall sd sa sb h.guard 0]
  | .satomExch sd sa sb mq => mqWords mq ++ [wordA 0x52 h.stall sd sa sb h.guard 1]
  | .satomCas sd sa sb mq => mqWords mq ++ [wordA 0x52 h.stall sd sa sb h.guard 2]
  | .satomNmax sd sa sb mq => mqWords mq ++ [wordA 0x52 h.stall sd sa sb h.guard 3]
  | .discard sa sb => [wordA 0x55 h.stall (h.scope.setWidth 6) sa sb h.guard 0]
  | .flush sa sb => [wordA 0x55 h.stall (h.scope.setWidth 6) sa sb h.guard 1]
  | .inval sa sb => [wordA 0x55 h.stall (h.scope.setWidth 6) sa sb h.guard 2]
  | .pfetch sa sb => [wordA 0x55 h.stall (h.scope.setWidth 6) sa sb h.guard 3]
  | .respri sa sb => [wordA 0x56 h.stall 0 sa sb h.guard 0]
  | .resdem sa sb => [wordA 0x56 h.stall 0 sa sb h.guard 1]
  | .respro sa => [wordA 0x56 h.stall 0 sa 0 h.guard 2]
  | .resqry sd sa => [wordA 0x56 h.stall sd sa 0 h.guard 3]
  | .hset hd sa => [wordA 0x57 h.stall (hd.setWidth 6) sa 0 h.guard 0]
  | .hget sd ha => [wordA 0x57 h.stall sd (ha.setWidth 6) 0 h.guard 1]
  | .hcls hd sa => [wordA 0x57 h.stall (hd.setWidth 6) sa 0 h.guard 2]
  | .hseed hd sa => [wordA 0x57 h.stall (hd.setWidth 6) sa 0 h.guard 3]
  | .jmp off => [wordB 0x58 h.stall off h.guard 0]
  | .jcall off => [wordB 0x58 h.stall off h.guard 1]
  | .jmpr sa => [wordA 0x59 h.stall 0 sa 0 h.guard 1]
  | .trap n => [wordA 0x59 h.stall 0 0 n h.guard 2]
  | .rte sa => [wordA 0x59 h.stall 0 sa 0 h.guard 3]
  | .bar sd id => [wordA 0x5A h.stall sd 0 id h.guard 0]
  | .cbar sd id => [wordA 0x5A h.stall sd 0 id h.guard 1]
  | .bara sd id => [wordA 0x5A h.stall sd 0 id h.guard 2]
  | .barw sd id => [wordA 0x5A h.stall sd 0 id h.guard 3]
  | .wcondAddr wn sa sb => [wordA 0x5B h.stall (wn.setWidth 6) sa sb h.guard 0]
  | .wcondBcb wn sa => [wordA 0x5B h.stall (wn.setWidth 6) sa 0 h.guard 1]
  | .wcondQueue wn sa sb => [wordA 0x5B h.stall (wn.setWidth 6) sa sb h.guard 2]
  | .wcondCompl wn sa sb => [wordA 0x5B h.stall (wn.setWidth 6) sa sb h.guard 3]
  | .waitany sd sa mask => [wordA 0x5C h.stall sd sa (mask.setWidth 6) h.guard 0]
  | .waitall sd sa mask => [wordA 0x5C h.stall sd sa (mask.setWidth 6) h.guard 1]
  | .push fd sa id => [wordA 0x5D h.stall (fd.setWidth 6) sa id h.guard 0]
  | .pushw sa id => [wordA 0x5D h.stall 0 sa id h.guard 1]
  | .kick sa sb => [wordA 0x5D h.stall 0 sa sb h.guard 2]
  | .launch sd sa sb => [wordA 0x5E h.stall sd sa sb h.guard 0]
  | .qbind q sa => [wordA 0x5F h.stall 0 sa (q.setWidth 6) h.guard 0]
  | .qunb q => [wordA 0x5F h.stall 0 0 (q.setWidth 6) h.guard 1]
  | .qstat sd q => [wordA 0x5F h.stall sd 0 (q.setWidth 6) h.guard 2]
  | .qreset q => [wordA 0x5F h.stall 0 0 (q.setWidth 6) h.guard 3]
  | .regxTry fd => [wordA 0x60 h.stall (fd.setWidth 6) 0 0 h.guard 2]
  | .prioPair sa => [wordA 0x61 h.stall 0 sa 0 h.guard 2]
  | .seqfork sa sb => [wordA 0x62 h.stall 0 sa sb h.guard 0]
  | .seqfree sa => [wordA 0x62 h.stall 0 sa 0 h.guard 1]
  | .seqtrunc sa sb => [wordA 0x62 h.stall 0 sa sb h.guard 2]
  | .seqinfo sd sa => [wordA 0x62 h.stall sd sa 0 h.guard 3]
  | .ssnap sd => [wordA 0x63 h.stall sd 0 0 h.guard 0]
  | .ssroll sd sa => [wordA 0x63 h.stall sd sa 0 h.guard 1]
  | .sscommit sa => [wordA 0x63 h.stall 0 sa 0 h.guard 2]
  | .ssbind sa => [wordA 0x63 h.stall 0 sa 0 h.guard 3]
  | .mset md sa => [wordA 0x64 h.stall (md.setWidth 6) sa 0 h.guard 0]
  | .mget sd ma => [wordA 0x64 h.stall sd (ma.setWidth 6) 0 h.guard 1]
  | .mma vd va vb m => [wordA 0x65 h.stall vd va vb m 0]
  | .mmaSpad vd va vb m => [wordA 0x65 h.stall vd va vb m 1]
  | .mmaQueue vd va vb m => [wordA 0x65 h.stall vd va vb m 2]
  | .mmag vd va vb m => [wordA 0x66 h.stall vd va vb m 0]
  | .mmagSpad vd va vb m => [wordA 0x66 h.stall vd va vb m 1]
  | .mmagQueue vd va vb m => [wordA 0x66 h.stall vd va vb m 2]
  | .drain sa sb => [wordA 0x67 h.stall 0 sa sb h.guard 0]
  | .drainSkip sb => [wordA 0x67 h.stall 0 0 sb h.guard 1]
  | .gclr sa sb => [wordA 0x67 h.stall 0 sa sb h.guard 2]
  | .grd sd sa sb => [wordA 0x67 h.stall sd sa sb h.guard 3]
  | .nchk fd sa sb => [wordA 0x68 h.stall (fd.setWidth 6) sa sb h.guard 1]
  | .nrd sd => [wordA 0x68 h.stall sd 0 0 h.guard 2]
  | .mark sa => [wordA 0x69 h.stall 0 sa 0 h.guard 1]
  | .hashrd sd => [wordA 0x69 h.stall sd 0 0 h.guard 3]
  | .rcvwait => [wordA 0x32 h.stall 0 0 0 h.guard 1]
  | .exit => [wordA 0x34 h.stall 0 0 0 h.guard 0]
  | .ret => [wordA 0x34 h.stall 0 0 0 h.guard 1]
  | .yield => [wordA 0x36 h.stall 0 0 0 h.guard 0]
  | .fenceRel => [wordA 0x54 h.stall (h.scope.setWidth 6) 0 0 h.guard 0]
  | .fenceAcq => [wordA 0x54 h.stall (h.scope.setWidth 6) 0 0 h.guard 1]
  | .fenceFull => [wordA 0x54 h.stall (h.scope.setWidth 6) 0 0 h.guard 2]
  | .sret => [wordA 0x59 h.stall 0 0 0 h.guard 0]
  | .regxAcq => [wordA 0x60 h.stall 0 0 0 h.guard 0]
  | .regxRel => [wordA 0x60 h.stall 0 0 0 h.guard 1]
  | .prioPass => [wordA 0x61 h.stall 0 0 0 h.guard 0]
  | .prioTake => [wordA 0x61 h.stall 0 0 0 h.guard 1]
  | .nrst => [wordA 0x68 h.stall 0 0 0 h.guard 0]
  | .brk => [wordA 0x69 h.stall 0 0 0 h.guard 0]
  | .sample => [wordA 0x69 h.stall 0 0 0 h.guard 2]
  | .nop => [wordA 0x6A h.stall 0 0 0 h.guard 0]
  | .launchPublish => []
  | .cpyLoad => []
  | .cpyStore => []
  | .cpyQstore => []
  | .cpyQload => []
  | .gatGather => []
  | .gatGatherq => []
  | .gatScatter => []
  | .kvsStreamk => []
  | .kvsStreamvt => []
  | .decDecode => []
  | .colAllreduce => []
  | .colReducescatter => []
  | .colAllgather => []
  | .ssuCopy => []
  | .ckpCheckpoint => []
  | .engineCommandTake => []
  | .pushwAccept => []
  | .engineUnitDone => []
  | .engineQueueResume => []
  | .colPeerTimeout => []
  | .launchRecordHead => []
  | .launchWaitConditionHolds => []
  | .teamPlace => []
  | .teamRetire => []
  | .formationDraw => []
  | .binTimerExpiry => []
  | .spawnBinTimerExpiry => []
  | .quantumEnd => []
  | .loadAllowanceUpdate => []
  | .pageWalkComplete => []
  | .loadDataReturn => []
  | .raceVerdictReturn => []
  | .trapEntry => []
  | .matrixResult => []
  | .monitorPoll => []
  | .waitTimeout => []
  | .queuePortResume => []
  | .regxAcqGrant => []
  | .l1Eviction => []
  | .replayGateTimeout => []
  | .breakpointSwapOut => []
  | .flitCrcError => []
  | .flitRetransmit => []
  | .cxlError => []
  | .cxlReadTimeout => []
  | .cxlLinkDown => []
  | .cxlLinkUp => []
  | .throttleOnset => []
  | .throttleRelease => []
  | .thermalTrip => []
  | .powerGood => []
  | .functionReady => []
  | .bootctlGo => []
  | .resetFull => []
  | .resetCores => []
  | .lqscan => []
  | .tlbinvAddress => []
  | .tlbinvAll => []
  | .tlbinvComplete => []
  | .attestRequest => []
  | .attestDone => []
  | .pstateWrite => []
  | .pstateChange => []
  | .gamrelStart => []
  | .gamrelComplete => []
  | .prectlSave => []
  | .contextSaveComplete => []
  | .prectlRestore => []
  | .contextRestoreComplete => []
  | .dbgresResume => []
  | .dbgresSkip => []
  | .dbgresKill => []
  | .tickStop => []
  | .stopResume => []
  | .scandataRead => []
  | .repctlReplay => []
  | .rlfillWrite => []
  | .crumbMirror => []
  | .hostRead => []
  | .hostWrite => []
  | .fabricPeerAccess => []
  | .binderRun => []
  | .registerWrite => []
  | .illegalInstruction => []
  | .writeAcknowledgement => []
  | .colSegmentArrival => []
  | .flitNotReady => []
  | .powerLoss => []

/-- The number of words an instruction takes with its prefixes (R235). -/
def Instr.words (i : Instr) : Nat := (encode { stall := 0, guard := 0, scope := 0 } i).length

end Sys2Proof
end

