-- ==== Sys2Proof/Machine/State.lean ====
section
/-!
DEFINITION. The state of one Kelium 9 package: every thread, home warp, team, core, engine, launch queue, context,
link and register of the device, as plain data. Register files are lists that start full; what is sparse (memory,
resident teams, cores in use) is a list of pairs with the keys strictly rising.
-/

namespace Sys2Proof.Machine

/-! ### Threads, home warps and their groups (R16 to R37, R243) -/

/-- A release stamp (R133, R134): clock, scope and the instance the scope names. -/
structure Stamp where
  clock : Word
  scope : BitVec 2
  inst : BitVec 22
deriving DecidableEq, Repr

/-- One lane's thread (R17). Its PC stands with the group it is in. -/
structure Thread where
  /-- Formed and not exited. -/
  live : Bool
  /-- A helper lane (R19), and one that has executed EXIT: it keeps its registers for its quad and has no other effect until
  it retires (R303). -/
  helper : Bool
  quit : Bool
  /-- Its slot is in use: from the formation of its home warp until the thread has exited (R303). -/
  seated : Bool
  /-- SLOT, 0 to 4,095 (R20). -/
  slot : Nat
  /-- v0 to v31 (R34). -/
  v : List Word
  /-- p0 to p7; bit 0 is not read (R232). -/
  p : BitVec 8
  /-- The race clock (R133) and whether it is saturated (R401). -/
  clk : Word
  sat : Bool
  /-- A saturation that no access has reported yet (R401). -/
  satDue : Bool
  lstat : Word
  /-- PEND0 and PEND1: popped operands, or a result that waits for its push (R443, R471). -/
  pend : List Word
  /-- In a handler: what PEND held when the lane parked, for a retry (R471). -/
  aside : List Word
  /-- M of R133: the largest stamp clock the thread's relaxed reads have met since its last acquire. -/
  seen : Word
  /-- The stamp later writes carry after a FENCE.REL (R133). -/
  stamp : Option Stamp
  /-- For each barrier id (16 + id for a cluster barrier) the phase the thread last arrived at (R141). -/
  arrived : List (Nat × Word)
  /-- The clock a completed phase gives the thread when it departs by BARW, by barrier id (R133, R141). -/
  barClk : List (Nat × Word)
  /-- The access that RTE retries with ACK is made without the check (R400). -/
  unchecked : Bool
  /-- Of the bytes the thread has read or written, those that have been written over: which value it has met last, as the
  number of the write that replaced it (R125, R129). -/
  floors : List (Nat × Nat)
  /-- By scope, how many writes had been made when the thread last acquired (R129). -/
  acq : List Nat
  /-- The next access is not tested against watches (R375). -/
  unwatched : Bool
deriving DecidableEq, Repr

/-- What a wait-condition slot holds (R146). -/
inductive Cond where
  | empty
  | addr (va : BitVec 64) (test : BitVec 2) (value : Word)
  | bcb (off : Word)
  | queue (off : Word) (room : Bool) (n : Nat)
  | counter (va : BitVec 64) (target : Word) (scope : BitVec 2)
  | phase (cluster : Bool) (id : Nat) (target : Word)
deriving DecidableEq, Repr

/-- A record of the reconvergence stack (R24). -/
structure Rcv where
  target : BitVec 56
  mask : Word
deriving DecidableEq, Repr

/-- A home warp's uniform state (R16, R243, R245). -/
structure Warp where
  /-- The warp has been formed and still has a thread. -/
  formed : Bool
  /-- s0 to s63; entry 0 is not read (R232). -/
  s : List DWord
  /-- c0 to c7; bit 0 is not read. -/
  c : BitVec 8
  /-- h0 to h15 (R338). -/
  h : List (BitVec 512)
  /-- md0 to md3 (R217). -/
  md : List DWord
  /-- wc0 to wc3 (R146). -/
  wc : List Cond
  /-- The reconvergence stack, top first (R24). -/
  stack : List Rcv
  gbase : DWord
  nmon : Word
  nema : Word
  storehash : DWord
  /-- The SSBIND binding (R352). -/
  ssbind : Option DWord
  /-- The home warp PRIO.PAIR has named, and whether this warp holds the token (R153). -/
  partner : Option Nat
  token : Bool
  /-- The class CC of the last MMA or MMAG with the monitor enabled (R386). -/
  lastClass : Option Nat
  /-- The tick at which the warp became resident (R40), and whether it is swapped out (R446). -/
  since : Nat
  swapped : Bool
deriving DecidableEq, Repr

/-- Why a group waits and asks again when it issues next (R444 'nothing performed', R26, R436, R379). -/
inductive Why where
  | presence | kin | pushw | regx | qunb | prio | spawn | launch | copying | gate | drain | array | mark | entries
deriving DecidableEq, Repr

/-- What a WAITC lane has met so far (R144): its thread, the word's place and compare value, the word as it was when the
condition held, whether it was poisoned then (R384), the granule's tag then (R133), and, while a replay gate keeps it from
being registered, the agent as which it has to pass (R379). -/
structure LaneWait where
  tid : Nat
  pa : Nat
  value : Word
  got : Option Word
  bad : Bool := false
  tag : BitVec 128 := 0
  checked : Bool := false
  gate : Option Nat := none
deriving DecidableEq, Repr

/-- A slot of a WAITANY or WAITALL in progress: the physical word of an ADDR or counter slot, and the tag of its granule when
the condition held (R133, R146). -/
structure SlotWatch where
  slot : Nat
  pa : Option Nat
  tag : BitVec 128 := 0
deriving DecidableEq, Repr

/-- What holds a group at its instruction. -/
inductive Wait where
  | none
  /-- Arrived at a RCVWAIT (R24). -/
  | rcv
  /-- Executed the REJOIN whose word this is (R30). -/
  | rejoin (target : BitVec 56) (word : Word)
  /-- Held by a barrier (16 + id for a cluster barrier) until `phase` completes; `again` arrives afterwards (R141). -/
  | bar (id : Nat) (phase : Word) (again : Bool)
  /-- WAITANY or WAITALL (R147). -/
  | slots (all : Bool) (mask sat : BitVec 4) (watch : List SlotWatch) (deadline : Option Nat) (expired : Bool)
  /-- WAITC (R144). -/
  | lanes (test : BitVec 2) (l : List LaneWait)
  /-- On queue port `q`, to pop operand `pstep` or to push (3); the group of words is `len` words long. -/
  | port (pstep q len : Nat)
  /-- At this matrix word, until the quartet is complete (R212, R427). -/
  | quartet (word : Word)
  /-- A race verdict (R138). -/
  | verdict
  /-- A LAUNCH that has reserved record `n` of launch queue `q` and waits for its turn to publish (R332), with the page that
  its record lies on. -/
  | publish (q : Nat) (n : Word) (page size : Nat) (flags : BitVec 12)
  /-- Back at the scheduler until a lane register that a request writes is released (R167). -/
  | score (reg : Nat)
  | retry (why : Why)
deriving DecidableEq, Repr

/-- A lane that an instruction has parked: the trap code and what its record says (R387, R388). -/
structure Park where
  code : BitVec 16
  addr : BitVec 64
  info : BitVec 64
  /-- FLAGS: from a formation; a uniform instruction. -/
  flags : BitVec 8
  /-- The order of parking, for the entry order of R387. -/
  order : Nat
  /-- The tick of the fault (R371, R388), set when the lane parks. -/
  tick : Nat := 0
deriving DecidableEq, Repr

/-- The group of a copy-on-write that a parked lane's handler ends (R435): the entry's address, the new page and the
old page. -/
structure Copying where
  entry : Nat
  fresh : Nat
  old : Nat
  seq : Nat
deriving DecidableEq, Repr

/-- An access of the instruction under way that has been made (R379): the `ix`-th of its thread, its address, its answer
and whether that met poison, and the bytes it stored. -/
structure Made where
  tid : Nat
  ix : Nat
  addr : Nat
  data : List Byte
  bad : Bool
  stored : List Byte
deriving DecidableEq, Repr

/-- An issue candidate, or a parked or held part of a home warp (R23, R26, R28, R30): the threads that share a PC. -/
structure Grp where
  gid : Nat
  /-- A formation (R28). -/
  formation : Bool
  /-- The home warp; of a formation, the home warp of its first lane. -/
  warp : Nat
  slice : Nat
  /-- The lane each thread issues in (R28), ascending, and the thread. -/
  lanes : List (Nat × Nat)
  pc : BitVec 56
  /-- The tick of its formation, which is its age (R162). -/
  formed : Nat
  /-- The first tick at which its STALL lets it issue; `owed`: not before the results of its last instruction are written
  (R166). -/
  next : Nat
  owed : Bool
  /-- The tick since which it has been ready without issuing (R38), and of its last try. -/
  ready : Nat
  wait : Wait
  /-- PSTEP: the source operands whose port is popped, or 3 when a result is held (R443, R444). -/
  pstep : Nat
  /-- In a handler: PSTEP of the instruction that parked, for a retry (R471). -/
  kept : Nat
  park : Option Park
  /-- Inside a handler, which is privileged (R387). -/
  handler : Bool
  /-- In a handler: the code, and the address of the trap record. -/
  code : BitVec 16
  record : BitVec 64
  copying : Option Copying
  /-- The parkings it has been split by and that are not merged again (R26). -/
  split : List Nat
  /-- Kept out of its home warp by R27: no free bin. -/
  masked : Bool
  /-- The accesses of the instruction under way that have been made while replay gates hold the others (R379), and whether
  all of them have been checked for races (R135). -/
  done : List Made
  judged : Bool
  /-- SAMPLE has marked the group's next memory instruction (R336). -/
  mark : Bool
  /-- After a YIELD (R307): the candidates that issue first, and the tick that ends it. -/
  after : List (Nat × Nat)
  yieldEnd : Nat
deriving DecidableEq, Repr

/-! ### Teams (R18 to R22, R95 to R102, R140, R150) -/

/-- A window of a scratchpad (R97). -/
structure Window where
  base : Nat
  size : Nat
  swz : BitVec 2
  chk : Bool
deriving DecidableEq, Repr

/-- A barrier (R140): the open phase, the threads that have arrived at it (of a cluster barrier, 8,192 times the team's
key plus the thread), and how many more arrived and have exited since (R142). -/
structure Bar where
  phase : Word
  arrived : List Nat
  gone : Nat
  /-- The largest CLK at arrival (R133). -/
  clk : Word
deriving DecidableEq, Repr

/-- A queue in use (R115, R116, R151, R423): the fields of its descriptor, kept by the device while a port or an engine holds
it. -/
structure Queue where
  base : Word
  cap : Nat
  pkind : Bool
  ckind : Bool
  head : Word
  tail : Word
  /-- The producer's CLK of each entry present, oldest first (R133). -/
  clks : List Word
  /-- The requests that wait to pop and to push, in order (R151): team and group, or 2^32 and an engine operation. -/
  poppers : List (Nat × Nat)
  pushers : List (Nat × Nat)
deriving DecidableEq, Repr

/-- What a group inside a handler is in (R387, R390): the code, the address of the trap record, the copy-on-write that it
ends, and PSTEP of the instruction that parked. -/
structure Inside where
  code : BitVec 16
  record : BitVec 64
  copying : Option Copying
  kept : Nat
deriving DecidableEq, Repr

/-- A regrouping bin (R27, R28): slice and key, the handler that its threads are in, if any (R390), and the filed threads
with their ticks, oldest first. -/
structure Bin where
  slice : Nat
  key : BitVec 56
  inside : Option Inside
  filed : List (Nat × Nat)
deriving DecidableEq, Repr

/-- A spawn bin (R32, R33): key, reserved slice and slots, when it opened, and the v0 of each thread in it. -/
structure SpawnBin where
  key : BitVec 56
  slice : Nat
  slots : List Nat
  opened : Nat
  v0s : List Word
deriving DecidableEq, Repr

/-- The team-level context of a launch (R156, R160, R245). -/
structure TeamInfo where
  ctx : Nat
  lq : Nat
  recNo : Word
  launch : Nat
  index : Nat
  rank : Nat
  /-- The number of teams in its cluster (R22). -/
  mates : Nat
  cluster : Nat
  tx : Word
  ty : Word
  tz : Word
  ntx : Word
  nty : Word
  ntz : Word
  argp : BitVec 64
  cbtp : BitVec 64
  entry : BitVec 56
  bint : Nat
  pcls : BitVec 2
  l1min : Nat
  scrBase : Nat
  scrBytes : Nat
  tagBase : Nat
  tagBytes : Nat
deriving DecidableEq, Repr

structure Team where
  core : Nat
  no : Nat
  info : TeamInfo
  windows : List Window
  /-- The class binding table as loaded (R82): 64 entries. -/
  cbt : List (BitVec 128)
  /-- The scratchpad by team-relative position; an unlisted byte reads 0 (R95). -/
  scratch : List Host.Cell
  /-- Praline tags of checked windows by granule (R137); unlisted is all zero. -/
  tags : List (Nat × BitVec 128)
  /-- The 128-byte lines whose presence bit is clear (R101). -/
  absent : List Nat
  /-- The poisoned 32-byte granules (R384), and those whose first read is counted. -/
  poison : List Nat
  poisonSeen : List Nat
  /-- Threads by index: thread `32 w + l` is lane `l` of home warp `w`. -/
  threads : List Thread
  warps : List Warp
  groups : List Grp
  nextGid : Nat
  nextSplit : Nat
  bins : List Bin
  spawnBins : List SpawnBin
  bars : List Bar
  /-- Port bindings q0 to q7 (R37): the key of the queue in `State.queues`, and the offset that named its descriptor. -/
  ports : List (Option Nat)
  portOffs : List Word
  /-- Extended blocks by quad (thread index div 4): 128 words each (R35). -/
  ext : List (Nat × List Word)
  /-- A breakpoint has stopped the team (R374): lanes, watch address and number, and the tick of the hit. -/
  brk : Option (Nat × BitVec 64 × BitVec 16 × Nat)
deriving DecidableEq, Repr

/-- A cluster of teams (R22, R140). -/
structure Cluster where
  teams : List Nat
  bars : List Bar
deriving DecidableEq, Repr

/-! ### Cores (R12, R93, R103, R163, R212, R220) -/

/-- A byte of L1 (R103); of a clean one, how many writes there had been when its value was memory's (R125). -/
structure L1Byte where
  val : Byte
  dirty : Bool
  seq : Nat := 0
deriving DecidableEq, Repr

/-- A line of L1 (R103, R104): whether its page goes through the memory-side cache (R91 FAR), the residency id and the cache
field of its last access, when that was, of a recorded page the agent that stored to it last (R378), and of a checked page
its square's shadow (R137). -/
structure L1Line where
  cached : Bool
  rid : Nat
  policy : BitVec 2
  used : Nat
  agent : Option Nat
  shadow : Option Nat
deriving DecidableEq, Repr

/-- A translation held by a TLB (R91, R93). -/
structure TlbEntry where
  ctx : Nat
  /-- The first virtual address and the size of the page. -/
  va : Nat
  size : Nat
  pa : Nat
  flags : BitVec 12
deriving DecidableEq, Repr

/-- A tile slot of GAM (R220): its elements that are not +0, the NF bit, the owner and poisoned granules. -/
structure GamSlot where
  elems : List (Nat × Word)
  /-- The elements are INT32 values: an MMAG with an INT32 class has written them (R225). -/
  int : Bool
  nf : Bool
  owner : Option Nat
  poison : List Nat
  poisonSeen : List Nat
deriving DecidableEq, Repr

/-- A step-group header (R223). -/
structure GamHeader where
  p1 : Word
  p2 : Word
  t : Word
  owner : Option Nat
deriving DecidableEq, Repr

/-- A memory instruction that has not been answered in full (R169, R287, R377): when it issued, what its SAMPLE record says,
the lines of global memory it waits for, one entry each, and the registers that its answer writes (R167). -/
structure Req where
  id : Nat
  team : Nat
  gid : Nat
  store : Bool
  issued : Nat
  sampled : Bool
  lanes : Word
  sectors : Nat
  slot : Nat
  hwarp : Nat
  pc : BitVec 56
  ctx : Nat
  lines : List Nat
  tids : List Nat
  regs : List Nat
deriving DecidableEq, Repr

/-- An issue of a slice (R162): its tick, whether on the uniform pipe, and the group. -/
structure Issued where
  slice : Nat
  tick : Nat
  uniform : Bool
  team : Nat
  gid : Nat
deriving DecidableEq, Repr

structure Core where
  l1 : List (Nat × L1Byte)
  lines : List (Nat × L1Line)
  /-- How many writes there had been when the core last wrote a byte back: its threads have met that value (R125). -/
  wrote : List (Nat × Nat)
  tlb : List TlbEntry
  /-- Instruction words the core has fetched, by physical address (R239). -/
  icache : List (Nat × Word)
  gam : List (Nat × GamSlot)
  headers : List (Nat × GamHeader)
  /-- The quartet whose result the matrix array still owes (R213): team and quartet. -/
  array : Option (Nat × Nat)
  victims : List Nat
  hits : Nat
  allowance : List Nat
  /-- The windows of 4,096 cycles that have been counted for the allowance (R163). -/
  window : Nat
  /-- The issues of the last cycle in which there was one (R162). -/
  issued : List Issued
  reqs : List Req
  /-- Memory instructions issued since the last periodic sample (R377). -/
  memCount : Nat
  /-- Groups waiting for extended blocks, in order (R35). -/
  regxWait : List (Nat × Nat)
deriving DecidableEq, Repr

/-! ### Engines (R170 to R186) -/

inductive OpPhase where
  /-- In the core's request engine, which waits for a free entry (R170, R174). -/
  | kicked
  /-- In its queue, not taken. -/
  | queued
  /-- Taken and checked; its units move. -/
  | running
  /-- A unit has been moved and its completion is to come (R177). -/
  | unitDone
  /-- Stalled at its unit: on a queue, an absent line, a replay gate or a peer. -/
  | stalled
deriving DecidableEq, Repr

/-- An engine operation (R130, R170). -/
structure EngOp where
  id : Nat
  eng : Nat
  inst : Nat
  core : Nat
  team : Nat
  ctx : Nat
  slot : Nat
  /-- The issuer was in a handler. -/
  priv : Bool
  cmd : List Byte
  /-- The clock its accesses carry (R133). -/
  clk : Word
  sat : Bool
  phase : OpPhase
  /-- The next unit, and the bytes the unit in flight counts down (R177). -/
  unit : Nat
  bytes : Nat
  /-- Presence lines it has cleared and not set yet: owning team, line, and its bytes still to arrive (R101). -/
  lines : List (Nat × Nat × Nat)
  /-- Bytes of the unit in flight that have been moved. -/
  done : Nat
  /-- What the class keeps: of KVS, L, HB and the pinned page plus 1; of COL, the ranks heard. -/
  aux : List Nat
  data : List Byte
  /-- Bytes of global memory that it has read while gates hold the rest back, and how many bytes of its results it has
  written so far (R379). -/
  buf : List Byte
  put : Nat
  /-- Only the increment of its counter is left, which a gate holds back. -/
  ending : Bool
  /-- The tick since which it has been ready for its unit (R453). -/
  since : Nat
deriving DecidableEq, Repr

/-- State a decode pool keeps for a context between commands (R181, R454): the pool's die and context number, the decoder's
state, the shown-frame count, the unit count, the units whose frames are corrupt or degraded, the decoder's state
after every command accepted so far, and the engine that the context's commands run on. -/
structure DecStream where
  die : Nat
  ctx : Nat
  state : List Byte
  shown : Nat
  units : Nat
  corrupt : List Nat
  ahead : List Byte
  engine : Option Nat
deriving DecidableEq, Repr

/-! ### Memory beyond the cores (R105 to R114, R137, R144) -/

/-- The tag of an L2 square (R106, R109, R110): the residency id, the priority it was allocated at instead of its id's
(R104, R109), the time of its last use, O with E, and where its Praline tags spill (R137). -/
structure Square where
  rid : Nat
  pri : Option Nat
  used : Nat
  orient : BitVec 3
  shadow : Option Nat
  /-- A bit per row that is valid, and per byte that was written since it was last written back (R106). -/
  valid : BitVec 32
  dirty : BitVec 1024
  /-- Demoted by RESDEM (R111): at priority 0 until RESPRO. -/
  demoted : Bool
deriving DecidableEq, Repr

/-- A line of the memory-side cache (R113): the far line it holds (far offset div 4,096), and which of its 32 parts of 128
bytes are dirty. -/
structure MscLine where
  line : Nat
  dirty : BitVec 32
  /-- The residency id of the access that fetched it (R111). -/
  rid : Nat
deriving DecidableEq, Repr

/-- A condition monitor (R144), or a wait that polls for want of one (R405). -/
structure Monitor where
  pa : Nat
  test : BitVec 2
  value : Word
  team : Nat
  gid : Nat
  /-- The WAITC thread, or the wait slot. -/
  tid : Option Nat
  slot : Option Nat
  /-- The tick of the next poll (R405). -/
  poll : Nat
  /-- A counter slot: holds when the word has reached the value (R146). -/
  counter : Bool
  polled : Bool
deriving DecidableEq, Repr

/-- The arbitration log run that a slice has open (R378), and where its replay gate stands (R379). -/
structure SliceLog where
  agent : Nat
  run : Nat
  full : Bool
  gateChunk : Nat
  gateRun : Nat
  gateSince : Option Nat
deriving DecidableEq, Repr

/-! ### Launch queues, contexts, links (R154 to R161, R358 to R369, R438 to R447, R457, R458) -/

/-- A launch record as read (R156). -/
structure LaunchRec where
  raw : BitVec 512
deriving DecidableEq, Repr

/-- A record at the head of its queue (R157 to R159): the record, the words its conditions watch and which have held,
and how many of its teams are placed. -/
structure HeadRec where
  record : LaunchRec
  conds : List (Nat × BitVec 8 × Bool)
  windows : List Window
  placed : Nat
  launch : Nat
deriving DecidableEq, Repr

/-- A launch queue as the dispatcher serves it (R154, R159). -/
structure LQueue where
  served : Bool
  head : Word
  /-- The next slot a LAUNCH reserves (R332). -/
  resv : Word
  headRec : Option HeadRec
deriving DecidableEq, Repr

/-- A launch with teams to place or resident (R161), and the cores on which its teams have run (R356). -/
structure Launch where
  lq : Nat
  recNo : Word
  ctx : Nat
  compl : BitVec 64
  rsys : Bool
  left : Nat
  cores : List Nat
deriving DecidableEq, Repr

/-- A context (R245 registers 19 to 22, R439). -/
structure Ctx where
  sbchk : DWord
  racemode : BitVec 2
  trapvec : DWord
  traprec : DWord
  /-- CTXSTAT: 0 running, 1 saving, 2 saved, 3 restoring. -/
  stat : BitVec 2
  records : Nat
  /-- Bytes of the save area in use, and its freed ranges' records (R446). -/
  used : Nat
  /-- The event that numeric counts are dropped has been written (R410). -/
  numLost : Bool
deriving DecidableEq, Repr

/-- A saved team (R442, R446): its context, STATUS (0 saved; 2 exited, engines pending; 3 held at a breakpoint), the
index of its record in the save area and where that lies, the key under which its cluster and queues name it meanwhile,
and the team with its engine operations. `action` is a DBGRES that waits for room (R375): 0 resume, 1 skip, 2 kill. -/
structure Saved where
  ctx : Nat
  status : Nat
  ticket : Nat
  offset : Nat
  key : Nat
  team : Team
  ops : List EngOp
  action : Option Nat
deriving DecidableEq, Repr

/-- The GAM slots and headers of a saved context that were owned on a core (R445). -/
structure GamSaved where
  ctx : Nat
  core : Nat
  gam : List (Nat × GamSlot)
  headers : List (Nat × GamHeader)
deriving DecidableEq, Repr

/-- A home warp swapped out at the quantum (R446). -/
structure SwapOut where
  team : Nat
  warp : Nat
  since : Nat
deriving DecidableEq, Repr

/-- A Crumb event (R381). -/
structure Crumb where
  tick : Nat
  code : BitVec 16
  unit : BitVec 16
  data : List Byte
deriving DecidableEq, Repr

/-- A Ralori port, or a CXL port under 32 plus its number (R457, R458): the retries in a row of the flit in flight, the
backoff of its sender and when that began. -/
structure Port where
  retries : Nat
  backoff : Nat
  since : Nat
  failed : Bool
  down : Bool
deriving DecidableEq, Repr

/-- A copy-on-write mark on a page-list entry (R435, R436): the new and the old page, and the sequence. -/
structure Mark where
  entry : Nat
  fresh : Nat
  old : Nat
  seq : Nat
deriving DecidableEq, Repr

/-- An access of the host or of a fabric peer that a replay gate holds (R379): its slot as an agent (R378), the bytes still to
be read or written, and those read so far. -/
structure FabricReq where
  slot : Nat
  pa : Nat
  n : Nat
  data : List Byte
  write : Bool
  got : List Byte
deriving DecidableEq, Repr

/-! ### What drives the machine -/

/-- What a step that is no instruction word acts on. Each step of `Instr` names in its comment the parts it reads. -/
structure Arg where
  team : Nat := 0
  gid : Nat := 0
  core : Nat := 0
  slice : Nat := 0
  op : Nat := 0
  eng : Nat := 0
  inst : Nat := 0
  lq : Nat := 0
  wc : Nat := 0
  key : Nat := 0
  ctx : Nat := 0
  va : Nat := 0
  req : Nat := 0
  line : Nat := 0
  port : Nat := 0
  die : Nat := 0
  bit : Nat := 0
  peer : Nat := 0
  node : Nat := 0xFFF
  pa : Nat := 0
  n : Nat := 0
  ro : Nat := 0
  dst : Nat := 0
  v : BitVec 64 := 0
  ticket : BitVec 32 := 0
  lseed : BitVec 32 := 0
  poison : Option Nat := none
  data : List Byte := []
  image : List Byte := []
  pinned : List Byte := []
deriving DecidableEq, Repr

/-- Where an uncorrectable error of an SRAM array lies (R384): a granule of a team's scratchpad, a granule of a GAM slot,
a granule of memory as L1 or L2 holds it, a lane register, a uniform register, or an array without architectural value. -/
inductive SramPlace where
  | scratch (team granule : Nat)
  | gam (core slot granule : Nat)
  | l1 (core pa : Nat)
  | l2 (pa : Nat)
  | lane (team tid reg : Nat)
  | uniform (team warp reg : Nat)
  | other
deriving DecidableEq, Repr

/-- One thing that happens next: a slice issues (with the groups that timing still holds back, and what the
scoreboard finds pending), a step of the table that is no word, or an error of the memory devices. -/
inductive Act where
  | issue (core slice : Nat) (held : List (Nat × Nat)) (pending : Option (Nat × Nat))
  | event (i : Instr) (a : Arg)
  /-- An ECC error met in HBM at a physical address: corrected, or not (R383, R384, R456). -/
  | hbmError (pa : Nat) (corrected : Bool)
  /-- An ECC error in a core's or an L2 slice's arrays (R383): the unit of the Crumb event. -/
  | sramError (unit : BitVec 16) (corrected : Bool) (place : SramPlace)
deriving DecidableEq, Repr

/-- The ticks that pass before it, and what happens. -/
structure Move where
  dt : Nat
  act : Act
deriving DecidableEq, Repr

/-- What the instruction being executed belongs to: the issuing team and group, the header, the word itself and the
number of words of its group of words; or the argument of a step that is no word. -/
structure Cur where
  team : Nat
  gid : Nat
  hdr : Header
  word : Word
  len : Nat
  /-- What the scoreboard finds pending (R428): kind and register. -/
  pending : Option (Nat × Nat)
  arg : Arg
  reject : Option Reject
  /-- Only what the instruction's checks find is asked for: lanes park, and no trap is taken. -/
  dry : Bool
deriving DecidableEq, Repr

/-- What stops the machine. -/
inductive Fault where
  /-- An instruction word is executed while no resident group issues it. Raised by `exec` on a state that `step` never
  hands to it. Safe: hardware has no such case. -/
  | noIssuer
deriving DecidableEq, Repr

inductive Refusal where
  /-- The named instruction has no meaning in the model yet. Raised by `exec` alone. Safe: the run ends. -/
  | notModelled (mnemonic : String)
deriving DecidableEq, Repr

structure State where
  /-- GTICK (R5, R371). -/
  gtick : Nat
  /-- The core clocks are gated by a tick-stop (R373). -/
  stopped : Bool
  /-- Near, far and peer memory as its home slices serve it; an unlisted byte reads 0. -/
  mem : List Host.Cell
  /-- The values that bytes of memory have had (R129), the latest first, each with the number of the write that replaced it,
  and how many writes there have been. -/
  past : List (Nat × List (Nat × Byte))
  writes : Nat
  /-- Poisoned granules of memory, by address div 32 (R384), and those whose first read is counted. -/
  poison : List Nat
  poisonSeen : List Nat
  /-- Praline tags beside the squares, by address div 32 (R134, R137). -/
  tags : List (Nat × BitVec 128)
  squares : List (Nat × Square)
  /-- Memory-side cache tags by line index (R113). -/
  msc : List (Nat × MscLine)
  /-- The residency table (R109): entries that differ from PRI 8, TIER 0. -/
  residency : List (Nat × BitVec 8)
  monitors : List Monitor
  marks : List Mark
  cores : List (Nat × Core)
  teams : List (Nat × Team)
  clusters : List (Nat × Cluster)
  /-- The queues in use, by the place of their descriptor: 2^32 times the owning team's key plus its position. -/
  queues : List (Nat × Queue)
  launches : List (Nat × Launch)
  nextLaunch : Nat
  lqs : List LQueue
  ctxs : List Ctx
  ops : List EngOp
  nextOp : Nat
  /-- The core whose command a shared engine took last, by 4,096 times the engine id plus the engine's number (R170). -/
  rotation : List (Nat × Nat)
  dec : List DecStream
  saved : List Saved
  swaps : List SwapOut
  gamSaved : List GamSaved
  /-- A save that waits for launches of class 10 or 11 (R438). -/
  preSave : Option Nat
  /-- Stage 0 has accepted the firmware in flash (R368); the image that the host has put there in place of the delivered
  one. -/
  firmware : Bool
  flash : Option (List Byte)
  /-- Management registers that hold what was written (R358): those that differ from their reset value. -/
  regs : List (Nat × DWord)
  /-- Writes to the management window that are to take place, in order: offset and value. -/
  posted : List (Nat × DWord)
  crumbs : List Crumb
  crHead : Nat
  mirrored : Nat
  logs : List (Nat × SliceLog)
  gatesOpen : Bool
  marksUsed : List Nat
  /-- Retired frames in order, and the corrected errors of each frame since power-on (R456). -/
  retired : List Nat
  frameErrors : List (Nat × Nat)
  /-- The data of the last answer to the host or a fabric peer (R363). -/
  answer : List Byte
  /-- Accesses of the host and of fabric peers that wait at replay gates, in order (R379). -/
  fabric : List FabricReq
  ports : List (Nat × Port)
  /-- TLBINV, ATTCTL with the nonce of its request, GAMREL and a power state in progress. -/
  tlbinv : Option DWord
  attest : Option (List DWord)
  /-- HSS signatures made so far (R367). -/
  signed : Nat
  gamrel : Option DWord
  pstate : BitVec 2
  /-- The dies that the device holds at a lower clock (R369), and those whose clock is below the requested state, with the
  tick since which that is so. -/
  throttled : List Nat
  below : List (Nat × Nat)
  /-- The model's own counter of free values. -/
  free : Nat
  /-- The model's own script: what happens next. -/
  agenda : List Move
  cur : Cur
deriving DecidableEq, Repr

/-- No instruction is under way. -/
def Cur.none : Cur :=
  { team := 0, gid := 0, hdr := { stall := 0, guard := 0, scope := 0 }, word := 0, len := 1, pending := .none,
    arg := {}, reject := .none, dry := false }

def LQueue.reset : LQueue := { served := false, head := 0, resv := 0, headRec := none }

def Ctx.reset : Ctx :=
  { sbchk := 0, racemode := 0, trapvec := 0, traprec := 0, stat := 0, records := 0, used := 64, numLost := false }

/-- The machine right after power on (R358, R360, R362): no team, no engine operation, every register at its reset
value, memory with nothing listed. -/
def State.reset : State :=
  { gtick := 0, stopped := false, mem := [], past := [], writes := 0, poison := [], poisonSeen := [], tags := [], squares := [], msc := [],
    residency := [], monitors := [], marks := [], cores := [], teams := [], clusters := [], queues := [], launches := [],
    nextLaunch := 0, lqs := List.replicate 64 LQueue.reset, ctxs := List.replicate 16 Ctx.reset, ops := [],
    nextOp := 0, rotation := [], dec := [], saved := [], swaps := [], gamSaved := [], preSave := none, firmware := false, flash := none,
    regs := [], posted := [], crumbs := [], crHead := 0, mirrored := 0,
    logs := [], gatesOpen := false, marksUsed := [], retired := [], frameErrors := [], answer := [], fabric := [], ports := [], tlbinv := none, attest := none, signed := 0,
    gamrel := none, pstate := 0, throttled := [], below := [], free := 0, agenda := [], cur := Cur.none }

end Sys2Proof.Machine
end

