-- ==== Sys2Proof/Machine/Store.lean ====
section
/-!
DEFINITION. The device's registers, counters and event records (R358, R372, R381, R383), and memory as its home
slices serve it (R92, R105 to R114, R384): the windows of the physical space, squares, the memory-side cache, poison,
and the condition monitors a write fires (R144).
-/

namespace Sys2Proof.Machine

/-! ### Management registers -/

/-- What a management register reads before it is written (R358, R460). -/
def regReset (off : Nat) : DWord := if off = 0x18 then 0xFFF else 0

def regGet (s : State) (off : Nat) : DWord :=
  match tget s.regs off with
  | some v => v
  | none => regReset off

/-- Stores a register; one at its reset value is not listed. -/
def regSet (s : State) (off : Nat) (v : DWord) : State :=
  { s with regs := if v = regReset off then tdel s.regs off else tset s.regs off v }

/-! ### Events and counters -/

/-- Writes a Crumb event (R381); the record keeps the last 4,096. -/
def crumb (s : State) (code unit : BitVec 16) (data : List Byte) : State :=
  { s with crumbs := ({ tick := s.gtick, code := code, unit := unit, data := data } :: s.crumbs).take 4096,
           crHead := s.crHead + 1 }

/-- The unit of a Crumb event (R381): kind and number. -/
def unitOf (kind number : Nat) : BitVec 16 := BitVec.ofNat 16 (kind * 4096 + number % 4096)

/-- Adds to a counter, which saturates at 2^64 − 1 (R383). -/
def countReg (s : State) (off n : Nat) : State :=
  regSet s off (BitVec.ofNat 64 (min ((regGet s off).toNat + n) (2 ^ 64 - 1)))

/-- One increment of a counter that writes event 0x0600 (R383, R461, R470). -/
def countEvent (s : State) (off : Nat) (unit : BitVec 16) : State :=
  crumb (countReg s off 1) 0x0600 unit (bytesOf 4 off)

/-! ### The physical windows (R92, R112, R366) -/

/-- The size C of the memory-side cache in bytes (R112). -/
def mscBytes (s : State) : Nat :=
  match (regGet s 0x20).extractLsb' 0 2 with
  | 0 => 0
  | 1 => 128 * 2 ^ 30
  | 2 => 256 * 2 ^ 30
  | _ => 384 * 2 ^ 30

/-- The end of the near window, 768 GiB − C (R112). -/
def nearEnd (s : State) : Nat :=
  match (regGet s 0x20).extractLsb' 0 2 with
  | 0 => 768 * 2 ^ 30
  | 1 => 640 * 2 ^ 30
  | 2 => 512 * 2 ^ 30
  | _ => 384 * 2 ^ 30

/-- The device's Ralori node id. -/
def nodeId (s : State) : Nat := (regGet s 0x18).toNat % 4096

/-- FRDY bit `n` (R359). -/
def readyBit (s : State) (n : Nat) : Bool := (regGet s (0x100 + 8 * (n / 64))).toNat.testBit (n % 64)

def portOf (s : State) (p : Nat) : Port :=
  cget { retries := 0, backoff := 0, since := 0, failed := false, down := false } s.ports p

/-- A node is reached when a ready port that has not failed reaches it (R363, R393). -/
def reaches (s : State) (node : Nat) : Bool :=
  node == nodeId s ||
    (upto 18).any (fun p => readyBit s (if p = 0 then 0 else p) && !(portOf s p).failed && Config.portReaches p node)

/-- The CXL port a far offset goes to (R366). -/
def farPort (s : State) (off : Nat) : Option Nat :=
  (upto 16).findSome? (fun i =>
    let e := (regGet s (0x300 + 8 * i)).toNat
    let base := bitsAt e 0 20 * 2 ^ 30
    let size := bitsAt e 20 20 * 2 ^ 30
    let ports := (upto 12).filter (fun p => e.testBit (40 + p))
    if base ≤ off ∧ off < base + size then ports[((off - base) / 4096) % ports.length]? else none)

/-- Where a physical address lies. -/
inductive Place where
  | near
  | management (off : Nat)
  | far (off port : Nat)
  | peer (node off : Nat)
  | nowhere
deriving DecidableEq, Repr

def farBase : Nat := 0x400000000000
def peerBase : Nat := 0x10000000000000
def mgmtBase : Nat := 0x10000000000

def placeOf (s : State) (pa : Nat) : Place :=
  if pa < nearEnd s then .near
  else if mgmtBase ≤ pa ∧ pa < mgmtBase + 2 ^ 32 then .management (pa - mgmtBase)
  else if farBase ≤ pa ∧ pa < 2 * farBase then
    match farPort s (pa - farBase) with
    | some p => .far (pa - farBase) p
    | none => .nowhere
  else if peerBase ≤ pa ∧ pa < peerBase + 4096 * 2 ^ 40 then
    .peer ((pa - peerBase) / 2 ^ 40) ((pa - peerBase) % 2 ^ 40)
  else .nowhere

/-- Where the bytes of a physical address are: the peer window of the device's own node is its near window (R92). -/
def homePa (s : State) (pa : Nat) : Nat :=
  match placeOf s pa with
  | .peer node off => if node = nodeId s then off else pa
  | _ => pa

/-- A CXL port cannot be used: its link is down (R458), or its FRDY bit is not set yet (R360). -/
def cxlDown (s : State) (port : Nat) : Bool := (portOf s (32 + port)).down || !readyBit s (32 + port)

/-- A far byte whose port is down reads as poison (R458). -/
def farLost (s : State) (pa : Nat) : Bool :=
  match placeOf s pa with
  | .far _ port => cxlDown s port
  | _ => false

/-- The home slice of a physical address (R105). -/
def homeSlice (pa : Nat) : Nat := ((pa >>> 10) ^^^ (pa >>> 17)) &&& 0x7F

/-! ### Bytes of memory and poison -/

/-- A byte of memory at its home slice; an unlisted byte reads 0. -/
def memByte (s : State) (pa : Nat) : Byte := cget 0 s.mem pa

/-- Stores bytes from `pa` up in the list of cells, keeping its form. -/
def cellsSet : List Host.Cell → Nat → List Byte → List Host.Cell
  | l, _, [] => l
  | l, pa, b :: r => cellsSet (cset 0 l pa b) (pa + 1) r

def cellsRead (l : List Host.Cell) (pa : Nat) : Nat → List Byte
  | 0 => []
  | n + 1 => cget 0 l pa :: cellsRead l (pa + 1) n

/-- The canonical form of a list of cells: addresses strictly rising, no listed zero. -/
abbrev Memory.wf (l : List Host.Cell) : Bool := risingFrom 0 l && l.all (fun c => c.2 != 0)

/-- The granules of 32 bytes that `n` bytes from `pa` touch. -/
def granulesOf (pa n : Nat) : List Nat :=
  if n = 0 then [] else (upto ((pa + n - 1) / 32 - pa / 32 + 1)).map (· + pa / 32)

def poisoned (s : State) (pa n : Nat) : Bool := (granulesOf pa n).any (fun g => s.poison.contains g)

/-- One consumption of poison (R384): POISONRD counts it, and its first read of a granule writes an event. -/
def consume (s : State) (pa n : Nat) (unit : BitVec 16) : State :=
  let s := countReg s 0x800D0 1
  match (granulesOf pa n).find? (fun g => s.poison.contains g && !s.poisonSeen.contains g) with
  | some g => { crumb s 0x0600 unit (bytesOf 4 0x800D0) with poisonSeen := nadd s.poisonSeen g }
  | none => s

/-- A write to poisoned granules clears the poison; what the write does not cover becomes 0 (R384). -/
def unpoison (s : State) (pa n : Nat) : State :=
  (granulesOf pa n).foldl (fun s g =>
    if s.poison.contains g then
      { s with poison := s.poison.filter (· != g), poisonSeen := s.poisonSeen.filter (· != g),
               mem := cellsSet s.mem (32 * g) (List.replicate 32 0) }
    else s) s

/-! ### Condition monitors (R144, R146) -/

/-- The test of a condition: eq, ne, geN, ge (R144, R306). -/
def testHolds (test : BitVec 2) (word value : Word) : Bool :=
  match test.toNat with
  | 0 => word == value
  | 1 => word != value
  | 2 => decide (value.toNat ≤ word.toNat)
  | _ => decide (value.toInt ≤ word.toInt)

/-- A counter or phase has reached its target (R146). -/
def reached (x target : Word) : Bool := decide ((x - target).toNat < 2 ^ 31)

def memWord (s : State) (pa : Nat) : Word := BitVec.ofNat 32 (ofBytes (cellsRead s.mem pa 4))

/-- A WAITC lane has met its condition: the word as it is now, and its granule's tag on a checked page. -/
def metLane (word : Word) (bad : Bool) (tag : BitVec 128) (x : LaneWait) : LaneWait :=
  { x with got := some word, bad := bad, tag := if x.checked then tag else 0 }

/-- Notes in a waiting group that a condition has held: the lane's word, or the slot's satisfied bit. A slot that is met
after the wait's time has run out does not count (R147). -/
def noteWait (m : Monitor) (word : Word) (bad : Bool) (tag : BitVec 128) (w : Wait) : Wait :=
  match w with
  | .lanes t l =>
    .lanes t (l.map (fun x =>
      if x.got.isNone && x.pa == m.pa && m.tid == some x.tid then metLane word bad tag x else x))
  | .slots _ _ _ _ _ true => w
  | .slots a mask sat ws d e =>
    match m.slot with
    | some k => .slots a mask (sat ||| BitVec.ofNat 4 (2 ^ k))
        (ws.map (fun x => if x.slot == k && !sat.getLsbD k then { x with tag := tag } else x)) d e
    | none => w
  | _ => w

def modGroup (t : Team) (gid : Nat) (f : Grp → Grp) : Team :=
  { t with groups := t.groups.map (fun g => if g.gid == gid then f g else g) }

def modTeam (s : State) (k : Nat) (f : Team → Team) : State :=
  match tget s.teams k with
  | some t => { s with teams := tset s.teams k (f t) }
  | none => s

/-- A monitor's own test on the word it watches: a wait slot of a counter tests as R146. -/
def monitorHolds (m : Monitor) (word : Word) : Bool :=
  if m.counter then reached word m.value else testHolds m.test word m.value

/-- What lanes that share a monitor have in common (R144). -/
def monitorKey (m : Monitor) : Nat × BitVec 2 × Word × Bool := (m.pa, m.test, m.value, m.counter)

/-- Whether a slice can take a monitor: it shares one, or fewer than 4,096 are in use (R144). -/
def monitorFree (s : State) (m : Monitor) : Bool :=
  let used := (s.monitors.filter (fun x => !x.polled && homeSlice x.pa == homeSlice m.pa)).map monitorKey
  used.contains (monitorKey m) || decide (used.eraseDups.length < 4096)

/-- A wait takes a monitor, or falls back to polling (R405). -/
def takeMonitor (s : State) (m : Monitor) : State :=
  if monitorFree s m then { s with monitors := s.monitors ++ [m] }
  else { countEvent s 0x800F0 (unitOf 1 (homeSlice m.pa)) with
    monitors := s.monitors ++ [{ m with polled := true, poll := s.gtick + 3600 }] }

/-- R158: a counter's low byte has reached a target. -/
def condReached (word : Word) (target : BitVec 8) : Bool := decide (((word.setWidth 8) - target).toNat < 128)

/-- The dispatcher's reserved monitors see a write to a word: a condition of a head record that holds now stays held (R158). -/
def noteConds (s : State) (pa : Nat) : State :=
  let word := memWord s pa
  { s with lqs := s.lqs.map (fun q => { q with headRec := q.headRec.map (fun h =>
      { h with conds := h.conds.map (fun c => if c.1 = pa then (c.1, c.2.1, c.2.2 || condReached word c.2.1) else c) }) }) }

/-- The words that head records watch. -/
def condPlaces (s : State) : List Nat :=
  s.lqs.flatMap (fun q => match q.headRec with
    | some h => h.conds.map (·.1)
    | none => [])

/-- Whether some monitor watches memory. -/
def watched (s : State) : Bool := !s.monitors.isEmpty || s.lqs.any (fun q => q.headRec.isSome)

/-- A write the slice performs to the word at `pa` (R144): its monitors whose condition holds fire and are freed. -/
def fireWord (s : State) (pa : Nat) : State :=
  let word := memWord s pa
  let fires := fun (m : Monitor) => m.pa == pa && !m.polled && monitorHolds m word
  let s := noteConds s pa
  (s.monitors.filter fires).foldl
    (fun s m => modTeam s m.team (fun t => modGroup t m.gid (fun g =>
      { g with wait := noteWait m word false (cget 0 s.tags (pa / 32)) g.wait })))
    { s with monitors := s.monitors.filter (fun m => !fires m) }

/-- The words that `n` bytes from `pa` touch. -/
def wordsOf (pa n : Nat) : List Nat :=
  if n = 0 then [] else (upto ((pa + n - 1) / 4 - pa / 4 + 1)).map (fun i => 4 * (pa / 4 + i))

def fireWords (s : State) (pa n : Nat) : State :=
  if watched s then (wordsOf pa n).foldl fireWord s else s

/-- The values that one write replaces are kept (R129), under the write's number. -/
def remember (s : State) (pas : List Nat) : State :=
  { s with writes := s.writes + 1,
           past := pas.foldl (fun m a => tset m a ((s.writes, memByte s a) :: cget [] m a)) s.past }

/-- A write performed at the home slice: poison cleared, bytes written, monitors fired. -/
def memWrite (s : State) (pa : Nat) (l : List Byte) : State :=
  let s := unpoison (remember s ((upto l.length).map (· + pa))) pa l.length
  fireWords { s with mem := cellsSet s.mem pa l } pa l.length

def memRead (s : State) (pa n : Nat) : List Byte := cellsRead s.mem pa n

/-! ### The memory-side cache and far memory (R113, R458) -/

/-- What an access to a far line meets. -/
inductive FarWay where
  | served
  /-- Its port is down: a read is poison, a write is dropped and counted. -/
  | lost
deriving DecidableEq, Repr

/-- The parts of 128 bytes of a line of the memory-side cache that bytes touch. -/
def farParts (off n : Nat) : BitVec 32 :=
  if n = 0 then 0
  else maskOf 32 (((upto ((off + n - 1) / 128 - off / 128 + 1)).map (· + off / 128)).filterMap (fun p =>
    if p / 32 = off / 4096 then some (p % 32) else none))

/-- A far access of `n` bytes (R113, R458). With FAR = 1 and a cache it takes its index: a hit is served, a miss evicts the
line there unless that is dirty and its port is down; without a cache, or with FAR = 0, it goes to its own port. A write
that is dropped counts in CXLERR. -/
def farAccess (s : State) (off n port rid : Nat) (cached write : Bool) : FarWay × State :=
  let down := cxlDown s port
  let direct : FarWay × State :=
    if down then
      (.lost, if write then crumb (countReg s (0x80300 + 8 * port) 1) 0x0302 (unitOf 4 (32 + port)) [] else s)
    else (.served, s)
  if !cached || mscBytes s == 0 then direct
  else
    let line := off / 4096
    let ix := line % (mscBytes s / 4096)
    let mine := if write then farParts off n else 0
    let fill := fun (d : BitVec 32) => { s with msc := tset s.msc ix { line := line, dirty := d, rid := rid } }
    match tget s.msc ix with
    | some e =>
      if e.line == line then (.served, fill (e.dirty ||| mine))
      else
        let kept := e.dirty != 0 && (match farPort s (e.line * 4096) with
          | some p => cxlDown s p
          | none => false)
        if kept || down then direct else (.served, fill mine)
    | none => if down then direct else (.served, fill mine)

/-! ### Squares (R106 to R111, R137, R402) -/

def residencyOf (s : State) (rid : Nat) : BitVec 8 := cget 0x08 s.residency rid

/-- The priority at which a square stands when a victim is sought (R110, R111). -/
def squarePri (s : State) (q : Square) : Nat :=
  match (if q.demoted then some 0 else q.pri) with
  | some p => p
  | none => ((residencyOf s q.rid).extractLsb' 0 4).toNat

/-- The priority a square is allocated at where it is not its id's: the cache field's, or 0 with TIER 01 (R104, R109). -/
def allocPri (s : State) (rid : Nat) (pri : Option Nat) : Option Nat :=
  match pri with
  | some p => some p
  | none => if (residencyOf s rid).extractLsb' 4 2 == 1 then some 0 else none

/-- The rows that bytes of a square touch (R106). -/
def rowsOf (pa n : Nat) : BitVec 32 :=
  maskOf 32 ((granulesOf pa n).filterMap (fun g => if g / 32 = pa / 1024 then some (g % 32) else none))

/-- Bytes of a square, as its dirty mask has them. -/
def bytesMask (pa n : Nat) : BitVec 1024 := BitVec.ofNat 1024 ((2 ^ min n (1024 - pa % 1024) - 1) * 2 ^ (pa % 1024))

/-- Half-squares a square takes: a checked one 1.5 times (R108). -/
def squareWeight (q : Square) : Nat := if q.shadow.isSome then 3 else 2

/-- Whether a shadow address can hold a tag (R402): inside the near window or a far decoder, on no retired frame. -/
def shadowUsable (s : State) (pa : Nat) : Bool :=
  (match placeOf s pa with
   | .near => true
   | .far _ _ => true
   | _ => false) && !s.retired.contains (pa / 4096)

/-- UNK alone (R134). -/
def unkTag : BitVec 128 := BitVec.ofNat 128 (2 ^ 116)

def tagOf (s : State) (granule : Nat) : BitVec 128 := cget 0 s.tags granule

def setTag (s : State) (granule : Nat) (t : BitVec 128) : State := { s with tags := cset 0 s.tags granule t }

/-- A tag becomes unknown (R402). -/
def loseTag (s : State) (granule slice : Nat) : State :=
  countEvent (setTag s granule unkTag) 0x800E8 (unitOf 1 slice)

/-- Spills one tag of a square to the square's shadow (R137). One that the shadow cannot take becomes unknown, and the model
keeps it until it is read back (R402). -/
def spillTag (sq sh : Nat) (s : State) (i : Nat) : State :=
  let g := 32 * sq + i
  let a := sh + 16 * i
  let t := tagOf s g
  if shadowUsable s a then
    let s := unpoison (setTag s g 0) a 16
    { s with mem := cellsSet s.mem a (bytesOf 16 t.toNat) }
  else if t = unkTag then s
  else loseTag s g (homeSlice (1024 * sq))

/-- Evicts a square: the tags of a checked one spill to its shadow (R137, R402); its data is memory already. -/
def evictSquare (s : State) (sq : Nat) (q : Square) : State :=
  let s := { s with squares := tdel s.squares sq }
  match q.shadow with
  | none => s
  | some sh => (upto 32).foldl (spillTag sq sh) s

/-- The square of a slice that is evicted first (R110): the lowest priority, then the least recently used. -/
def victimSquare (s : State) (slice keep : Nat) : Option (Nat × Square) :=
  (s.squares.filter (fun e => homeSlice (1024 * e.1) == slice && e.1 != keep)).foldl (fun best e =>
    match best with
    | none => some e
    | some b =>
      if squarePri s e.2 < squarePri s b.2 ∨ (squarePri s e.2 = squarePri s b.2 ∧ e.2.used < b.2.used) then some e
      else best) none

/-- A slice holds 4 MiB, 4,096 unchecked squares (R12): evicts while it holds more. -/
def makeRoom (slice keep : Nat) : Nat → State → State
  | 0, s => s
  | n + 1, s =>
    let held := (s.squares.filter (fun e => homeSlice (1024 * e.1) == slice)).foldl
      (fun a e => a + squareWeight e.2) 0
    if held ≤ 8192 then s
    else match victimSquare s slice keep with
      | some (sq, q) => makeRoom slice keep n (evictSquare s sq q)
      | none => s

/-- Reads one tag of a checked square back from the square's shadow (R137, R402). -/
def loadTag (sq sh : Nat) (s : State) (i : Nat) : State :=
  let a := sh + 16 * i
  let g := 32 * sq + i
  if tagOf s g = unkTag then s
  else if poisoned s a 16 then loseTag s g (homeSlice (1024 * sq))
  else setTag s g (BitVec.ofNat 128 (ofBytes (memRead s a 16)))

/-- Reads the tags of a checked square back from its shadow (R137, R402). -/
def loadTags (s : State) (sq sh : Nat) : State := (upto 32).foldl (loadTag sq sh) s

/-- A square after an access of `n` bytes: a row access has its rows valid, a column access every row (R106), and the
orientation follows the last column access (R108). -/
def usedSquare (now pa n : Nat) (write : Bool) (col : Option (BitVec 2)) (q : Square) : Square :=
  { q with used := now, valid := (if col.isSome then BitVec.allOnes 32 else q.valid ||| rowsOf pa n),
           dirty := if write then q.dirty ||| bytesMask pa n else q.dirty,
           orient := match col with
             | some e => (e ++ 1#1 : BitVec 3)
             | none => q.orient }

/-- An access of `n` bytes reaches the square of `pa` at its home slice (R106, R109, R110): `rid` is its residency id, `pri`
the priority a cache field gives it (R104), `shadow` the shadow of the square's tags on a checked page, `col` the element
width of a column access. -/
def touchSquare (s : State) (pa n rid : Nat) (pri : Option Nat) (shadow : Option Nat) (write : Bool)
    (col : Option (BitVec 2) := none) : State :=
  let sq := pa / 1024
  let old := tget s.squares sq
  let q := usedSquare s.gtick pa n write col (old.getD
    { rid := rid, pri := allocPri s rid pri, used := 0, orient := 0, shadow := none, valid := 0, dirty := 0, demoted := false })
  match (if q.shadow.isNone then shadow else none) with
  | some sh => makeRoom (homeSlice pa) sq 4 (loadTags { s with squares := tset s.squares sq { q with shadow := some sh } } sq sh)
  | none =>
    let s := { s with squares := tset s.squares sq q }
    if old.isSome then s else makeRoom (homeSlice pa) sq 4 s

/-! ### Trace records (R372) -/

/-- Writes a trace record of 64 bytes, or drops it (R372). The trace unit works once its FRDY bit is set (R360). -/
def traceRecord (s : State) (body : List Byte) : State :=
  let cfg := (regGet s 0x30008).toNat
  if !readyBit s 44 then s
  else
  let cap := bitsAt cfg 0 32
  let head := (regGet s 0x30010).toNat
  let tail := (regGet s 0x30018).toNat
  if !powerBetween cap 64 (2 ^ 24) then countReg s 0x30020 1
  else if !cfg.testBit 32 then s
  else if (head + 2 ^ 64 - tail) % 2 ^ 64 = cap then countReg s 0x30020 1
  else
    let s := memWrite s ((regGet s 0x30000).toNat + 64 * (head % cap)) ((body ++ List.replicate 64 0).take 64)
    regSet s 0x30010 (BitVec.ofNat 64 (head + 1))

/-- The header of a trace record (R372). -/
def traceHeader (s : State) (kind ctx core slot hwarp : Nat) (pc : BitVec 56) : List Byte :=
  bytesOf 8 s.gtick ++ bytesOf 1 kind ++ bytesOf 1 ctx ++ bytesOf 2 core ++ bytesOf 2 slot ++ bytesOf 2 hwarp ++
    bytesOf 8 pc.toNat

/-! ### Errors of the memory devices (R456) -/

/-- Appends a frame to the retirement list, or writes event 0x0204 once when it is full. -/
def retireFrame (s : State) (frame stack : Nat) : State :=
  if s.retired.contains frame then s
  else if s.retired.length < 65536 then
    crumb { s with retired := s.retired ++ [frame] } 0x0202 (unitOf 3 stack) (bytesOf 8 (4096 * frame))
  else if s.crumbs.any (fun c => c.code == 0x0204) then s
  else crumb s 0x0204 (unitOf 3 stack) []

/-- The HBM stack of a near address. The spec does not say how addresses lie on the stacks: DESIGN CHOICE, 64 GiB
each in turn. -/
def stackOf (pa : Nat) : Nat := pa / 2 ^ 36 % 12

/-- An ECC error in HBM (R383, R384, R456). -/
def hbmError (s : State) (pa : Nat) (corrected : Bool) : State :=
  let k := stackOf pa
  let frame := pa / 4096
  if corrected then
    let n := cget 0 s.frameErrors frame + 1
    let s := crumb (countReg { s with frameErrors := tset s.frameErrors frame n } (0x80000 + 8 * k) 1) 0x0200 (unitOf 3 k) (bytesOf 8 pa)
    if n = 8 then retireFrame s frame k else s
  else
    let s := crumb (countReg s (0x80060 + 8 * k) 1) 0x0201 (unitOf 3 k) (bytesOf 8 pa)
    let s := { s with poison := nadd s.poison (pa / 32), poisonSeen := s.poisonSeen.filter (· != pa / 32) }
    retireFrame s frame k

/-- An ECC error of a core's or an L2 slice's arrays (R383). -/
def sramError (s : State) (unit : BitVec 16) (corrected : Bool) : State :=
  crumb (countReg s (if corrected then 0x800C0 else 0x800C8) 1) 0x0203 unit []

end Sys2Proof.Machine
end

