-- ==== Sys2Proof/Machine/KvBase.lean ====
section
/-!
DEFINITION. The structures of the sequence area as memory holds them (R187 to R192): the area descriptor, sequence
entries, KV pages, page-table entries, page lists and the free stack, and the end of a copy-on-write (R435). Every
address here is physical and outside translation.
-/

namespace Sys2Proof.Machine

/-! ### Numbers in memory -/

/-- Bytes of memory as the device's own units read them; a poisoned granule reads 0 (R384). -/
def cleanBytes (s : State) (pa n : Nat) : List Byte :=
  if s.poison.isEmpty then memRead s pa n
  else (upto n).map (fun i => if s.poison.contains ((pa + i) / 32) then 0 else memByte s (pa + i))

/-- A read of bytes by a unit of the device that counts where it meets poison (R383, R384). -/
def consumeAt (unit : BitVec 16) (s : State) (pa n : Nat) : State := if poisoned s pa n then consume s pa n unit else s

def memNat (s : State) (pa n : Nat) : Nat := ofBytes (cleanBytes s pa n)

def memPut (s : State) (pa n v : Nat) : State := memWrite s pa (bytesOf n v)

/-- Makes `n` bytes from `pa` zero. -/
def memZero (s : State) (pa n : Nat) : State :=
  let hit := fun (a : Nat) => decide (pa ≤ a) && decide (a < pa + n)
  let whole := fun (g : Nat) => decide (pa ≤ 32 * g) && decide (32 * g + 32 ≤ pa + n)
  let s := remember s ((s.mem.map (·.1)).filter hit)
  let s := { s with mem := s.mem.filter (fun c => !hit c.1), poison := s.poison.filter (fun g => !whole g),
                    poisonSeen := s.poisonSeen.filter (fun g => !whole g) }
  ((s.monitors.map (·.pa) ++ condPlaces s).filter hit).foldl fireWord s

/-- Replaces bits `[lo, lo + n)` of a number. -/
def putBits (x lo n v : Nat) : Nat := x - bitsAt x lo n * 2 ^ lo + v % 2 ^ n * 2 ^ lo

/-! ### The area descriptor (R187) -/

def seqArea (s : State) : Nat := (regGet s 0x30).toNat

def seqBase (s : State) : Nat := memNat s (seqArea s + 16) 8
def seqCap (s : State) : Nat := memNat s (seqArea s + 24) 4
def ptCap (s : State) : Nat := memNat s (seqArea s + 28) 4
def ptBase (s : State) : Nat := memNat s (seqArea s + 32) 8
def fsBase (s : State) : Nat := memNat s (seqArea s + 40) 8
def fsCap (s : State) : Nat := memNat s (seqArea s + 48) 4
def fsTop (s : State) : Nat := memNat s (seqArea s + 52) 4
/-- Bytes of a KV page. -/
def pageBytes (s : State) : Nat := memNat s (seqArea s + 56) 4 * 4096

/-! ### Sequence entries (R188) -/

def seqAddr (s : State) (q : Nat) : Nat := seqBase s + 64 * q

/-- The 512 bits of an entry. -/
def seqEntry (s : State) (q : Nat) : Nat := memNat s (seqAddr s q) 64

def seqValid (e : Nat) : Bool := e.testBit 0
def seqLen (e : Nat) : Nat := bitsAt e 128 28
def seqHb (e : Nat) : Nat := bitsAt e 176 16
def seqCbits (e : Nat) : Nat := bitsAt e 192 8
def seqHeads (e : Nat) : Nat := bitsAt e 200 8 + 1
def seqLayers (e : Nat) : Nat := bitsAt e 208 16
def seqSnapk (e : Nat) : Nat := bitsAt e 224 8
def seqRslots (e : Nat) : Nat := bitsAt e 232 8
def seqSsz (e : Nat) : Nat := bitsAt e 240 16
def seqPlcap (e : Nat) : Nat := bitsAt e 288 32
def seqPlbase (e : Nat) : Nat := bitsAt e 320 64
def seqSrbase (e : Nat) : Nat := bitsAt e 384 64

/-- The entry's fields are outside the limits of R188, or break the page-size rule of R189. -/
def seqBadFields (s : State) (e : Nat) : Bool :=
  !([1, 2, 4, 8, 16, 32].contains (seqCbits e)) ||
    !(seqHb e % 4 == 0 && decide (4 ≤ seqHb e) && decide (seqHb e ≤ 1024)) ||
    !(decide (1 ≤ seqLayers e) && decide (seqLayers e ≤ 4096)) || !(decide (seqSnapk e ≤ 27)) ||
    !(decide (4 ≤ seqRslots e) && decide (seqRslots e ≤ 64)) ||
    !(decide (1 ≤ seqSsz e) && decide (seqSsz e ≤ 4096)) ||
    !(decide (1 ≤ seqPlcap e) && decide (seqPlcap e ≤ 2 ^ 24)) || seqPlbase e % 64 != 0 || seqSrbase e % 4096 != 0 ||
    decide (pageBytes s < 32 * seqHeads e * seqHb e)

def seqMalformed (s : State) (e : Nat) : Bool := seqValid e && seqBadFields s e

/-- A form reads a sequence entry at its home slice: poison in it counts (R384). -/
def meetEntry (s : State) (q : Nat) : State :=
  if seqCap s ≤ q then s else consumeAt (unitOf 1 (homeSlice (seqAddr s q))) s (seqAddr s q) 64

/-- Changes a sequence entry. -/
def seqPut (s : State) (q lo n v : Nat) : State := memPut s (seqAddr s q) 64 (putBits (seqEntry s q) lo n v)

def setSeqLen (s : State) (q n : Nat) : State := seqPut s q 128 28 n

/-! ### Page lists (R191) -/

/-- The address of the entry for a layer and page slot. -/
def pageListAddr (e layer slot : Nat) : Nat := seqPlbase e + 4 * (layer * seqPlcap e + slot)

/-- The page that an entry names, where it is valid. -/
def pageListGet (s : State) (a : Nat) : Option Nat :=
  let w := memNat s a 4
  if w.testBit 31 then some (w % 2 ^ 22) else none

def pageListSet (s : State) (a page : Nat) : State := memPut s a 4 (2 ^ 31 + page)
def pageListClear (s : State) (a : Nat) : State := memPut s a 4 0

/-- A form reads the page-list entry of a layer and page slot, and the page-table entry it names (R384). -/
def meetPageList (s : State) (q layer slot : Nat) : State :=
  let e := seqEntry s q
  if seqCap s ≤ q || !seqValid e || decide (seqPlcap e ≤ slot) then s
  else
    let a := pageListAddr e layer slot
    let s := consumeAt (unitOf 1 (homeSlice a)) s a 4
    match pageListGet s a with
    | some n => consumeAt (unitOf 1 (homeSlice (ptBase s + 16 * n))) s (ptBase s + 16 * n) 16
    | none => s

/-! ### Page-table entries and the free stack (R190, R192) -/

def pageAddr (s : State) (n : Nat) : Nat := ptBase s + 16 * n
def pageGet (s : State) (n lo w : Nat) : Nat := bitsAt (memNat s (pageAddr s n) 16) lo w
def pagePut (s : State) (n lo w v : Nat) : State :=
  memPut s (pageAddr s n) 16 (putBits (memNat s (pageAddr s n) 16) lo w v)

def pagePa (s : State) (n : Nat) : Nat := pageGet s n 0 64
def pageRef (s : State) (n : Nat) : Nat := pageGet s n 80 16
def pagePin (s : State) (n : Nat) : Nat := pageGet s n 96 16
def pageFill (s : State) (n : Nat) : Nat := pageGet s n 112 5

def setPageRef (s : State) (n v : Nat) : State := pagePut s n 80 16 v
def setPagePin (s : State) (n v : Nat) : State := pagePut s n 96 16 v
/-- FILL and STATE: sealed at 16 slots, open below. -/
def setPageFill (s : State) (n v : Nat) : State := pagePut (pagePut s n 112 5 v) n 117 2 (if v = 16 then 2 else 1)

/-- A page goes back to the free stack; where that is full the push is lost (R192). -/
def pushPage (s : State) (n : Nat) : State :=
  let s := pagePut s n 117 2 0
  let top := fsTop s
  if top = fsCap s then crumb s 0x0104 (unitOf 1 (homeSlice (seqArea s + 52))) []
  else memPut (memPut s (fsBase s + 4 * top) 4 n) (seqArea s + 52) 4 (top + 1)

/-- Takes the page on top of the free stack. -/
def popPage (s : State) : Option (Nat × State) :=
  let top := fsTop s
  if top = 0 then none
  else some (memNat s (fsBase s + 4 * (top - 1)) 4 % 2 ^ 22, memPut s (seqArea s + 52) 4 (top - 1))

/-- A page whose REF and PIN are both 0 goes back to the stack. -/
def releasePage (s : State) (n : Nat) : State := if pageRef s n = 0 ∧ pagePin s n = 0 then pushPage s n else s

def dropRef (s : State) (n : Nat) : State :=
  if pageRef s n = 0 then s else releasePage (setPageRef s n (pageRef s n - 1)) n

def dropPin (s : State) (n : Nat) : State :=
  if pagePin s n = 0 then s else releasePage (setPagePin s n (pagePin s n - 1)) n

def addPin (s : State) (n : Nat) : State := setPagePin s n (pagePin s n + 1)

/-- A new page, zeroed, with REF 1 and `fill` slots counted, open (R195, R435). -/
def openPage (s : State) (n fill : Nat) : State :=
  setPageFill (setPagePin (setPageRef (memZero s (pagePa s n) (pageBytes s)) n 1) n 0) n fill

/-! ### The end of a copy-on-write (R435) -/

/-- The entry names the new page and the mark clears; the old page's PIN and REF fall, and where both reach zero it
goes back to the stack. -/
def swapEntry (s : State) (c : Copying) : State :=
  let s := pageListSet { s with marks := s.marks.filter (fun m => m.entry != c.entry) } c.entry c.fresh
  let s := setPagePin s c.old (pagePin s c.old - 1)
  if pageRef s c.old = 0 then releasePage s c.old else dropRef s c.old

/-- Whether some group still holds the copy of an entry: parked, or in its handler, or saved with its team. -/
def copyHeld (s : State) (entry : Nat) : Bool :=
  let holds := fun (t : Team) => t.groups.any (fun g => match g.copying with
    | some c => c.entry == entry
    | none => false)
  s.teams.any (fun t => holds t.2) || s.saved.any (fun x => holds x.team)

/-- Copies whose lanes have left their handler or are gone end (R435). -/
def settleCopies (s : State) : State :=
  if s.marks.isEmpty then s
  else (s.marks.filter (fun m => !copyHeld s m.entry)).foldl
    (fun s m => swapEntry s { entry := m.entry, fresh := m.fresh, old := m.old, seq := m.seq }) s

end Sys2Proof.Machine
end

