-- ==== Sys2Proof/Machine/Translate.lean ====
section
/-!
DEFINITION. Page tables, TLBs and the translation part of the probe stage (R89 to R94, R392 to R394).
-/

namespace Sys2Proof.Machine

/-- A core's state before anything has used it (R163: the load allowance starts at 32). -/
def Core.fresh : Core :=
  { l1 := [], lines := [], wrote := [], tlb := [], icache := [], gam := [], headers := [], array := none, victims := [], hits := 0,
    allowance := [32, 32, 32, 32], window := 0, issued := [], reqs := [], memCount := 0, regxWait := [] }

def coreOf (s : State) (c : Nat) : Core := cget Core.fresh s.cores c

def setCore (s : State) (c : Nat) (x : Core) : State := { s with cores := tset s.cores c x }

def modCore (s : State) (c : Nat) (f : Core → Core) : State := setCore s c (f (coreOf s c))

/-- What an access does (R394 KIND). -/
inductive Kind where
  | read | write | rmw | fetch
deriving DecidableEq, Repr

def Kind.num : Kind → Nat
  | .read => 0
  | .write => 1
  | .rmw => 2
  | .fetch => 3

/-- A translation fault: the code, the reason and the level at which the walk stopped (R393, R394). -/
structure XFault where
  code : Nat
  reason : Nat
  level : Nat
deriving DecidableEq, Repr

/-- A leaf: the physical address of the page, its size and the low bits of the entry (R91). -/
structure Leaf where
  pa : Nat
  size : Nat
  flags : BitVec 12
deriving DecidableEq, Repr

def Leaf.writable (l : Leaf) : Bool := l.flags.getLsbD 1
def Leaf.executable (l : Leaf) : Bool := l.flags.getLsbD 2
def Leaf.user (l : Leaf) : Bool := l.flags.getLsbD 3
def Leaf.checked (l : Leaf) : Bool := l.flags.getLsbD 4
def Leaf.recorded (l : Leaf) : Bool := l.flags.getLsbD 5
def Leaf.farCached (l : Leaf) : Bool := l.flags.getLsbD 6
/-- Cache policy 00: held in L1 (R91, R103). -/
def Leaf.inL1 (l : Leaf) : Bool := l.flags.extractLsb' 7 2 == 0

/-- The size of a page that an entry of a level maps (R90). -/
def levelSize (level : Nat) : Nat := 2 ^ (46 - 10 * level)

/-- Code 0x11 REASON 5 (R393): a frame that names nothing the device can reach. -/
def frameReachable (s : State) (pa : Nat) : Bool :=
  match placeOf s pa with
  | .near => true
  | .management _ => true
  | .far _ _ => true
  | .peer node _ => reaches s node
  | .nowhere => false

/-- A walk from the table page at `table`, `n` levels above the leaves' end (R90, R393). -/
def walkFrom (s : State) (va : Nat) (table : Nat) : Nat → Except XFault Leaf
  | 0 => .error { code := 0x11, reason := 4, level := 3 }
  | n + 1 =>
    let level := 3 - n
    let a := homePa s (table + 8 * (va / levelSize level % 1024))
    if poisoned s a 8 || farLost s a then .error { code := 0x10, reason := 3, level := level }
    else
      let e := ofBytes (memRead s a 8)
      let frame := e / 4096 * 4096
      if !e.testBit 0 then .error { code := 0x10, reason := 1, level := level }
      else if e.testBit 9 then
        if level = 0 ∨ bitsAt e 7 2 = 3 ∨ frame % levelSize level ≠ 0 then
          .error { code := 0x11, reason := 4, level := level }
        else if frameReachable s frame then
          .ok { pa := frame, size := levelSize level, flags := BitVec.ofNat 12 e }
        else .error { code := 0x11, reason := 5, level := level }
      else if level = 3 ∨ frame % 8192 ≠ 0 then .error { code := 0x11, reason := 4, level := level }
      else walkFrom s va frame n

/-- The entry of a TLB that maps an address. -/
def tlbHit (l : List TlbEntry) (ctx va : Nat) : Option TlbEntry :=
  l.find? (fun e => e.ctx == ctx && decide (e.va ≤ va) && decide (va < e.va + e.size))

/-- The leaf of an address and whether a TLB held it: by the TLB of the core, else by a walk from CTXROOT (R90, R93). -/
def leafOf (s : State) (core ctx va : Nat) : Except XFault (Leaf × Bool) :=
  match tlbHit (coreOf s core).tlb ctx va with
  | some e => .ok ({ pa := e.pa, size := e.size, flags := e.flags }, true)
  | none =>
    let root := (regGet s (0x400 + 8 * ctx)).toNat
    if !root.testBit 0 then .error { code := 0x10, reason := 4, level := 0 }
    else
      match walkFrom s va (root / 8192 * 8192) 4 with
      | .ok l => .ok (l, false)
      | .error e => .error e

/-- What a leaf forbids an access (R393): user access, writing, fetching. -/
def leafForbids (l : Leaf) (k : Kind) (priv : Bool) : Option Nat :=
  if !priv && !l.user then some 3
  else match k with
    | .read => none
    | .write => if l.writable then none else some 1
    | .rmw => if l.writable then none else some 1
    | .fetch => if l.executable then none else some 2

/-- What an access to an address of a page is forbidden: by its leaf, and user code the management window, which is
privileged (R92, R358): DEDUCED, as a page with U = 0 forbids it. -/
def pageForbids (s : State) (l : Leaf) (va : Nat) (k : Kind) (priv : Bool) : Option Nat :=
  match leafForbids l k priv with
  | some r => some r
  | none => match placeOf s (l.pa + va % l.size) with
    | .management _ => if priv then none else some 3
    | _ => none

/-- The level at which the leaf of a page stands. -/
def leafLevel (l : Leaf) : Nat := if l.size = 2 ^ 36 then 1 else if l.size = 2 ^ 26 then 2 else 3

/-- The translation of a 64-bit address for an access (R89, R94, R393). -/
def translate (s : State) (core ctx : Nat) (va : BitVec 64) (k : Kind) (priv : Bool) : Except XFault Leaf :=
  if va.toNat / 2 ^ 56 ≠ 0 then .error { code := 0x10, reason := 2, level := 0 }
  else match leafOf s core ctx va.toNat with
    | .error e => .error e
    | .ok (l, held) =>
      match pageForbids s l va.toNat k priv with
      | some r => .error { code := 0x11, reason := r, level := if held then 3 else leafLevel l }
      | none => .ok l

/-- The physical address that a leaf gives a virtual address. -/
def Leaf.phys (l : Leaf) (va : Nat) : Nat := l.pa + va % l.size

/-- INFO of a translation fault (R394). -/
def XFault.info (f : XFault) (k : Kind) : BitVec 64 := BitVec.ofNat 64 (k.num + 8 * f.level + 256 * f.reason)

/-- A walk that completes fills the TLB (R93), which keeps the 4,096 newest entries. -/
def tlbFill (s : State) (core ctx va : Nat) : State :=
  match leafOf s core ctx va with
  | .ok (l, false) =>
    modCore s core (fun c =>
      { c with tlb := ({ ctx := ctx, va := va / l.size * l.size, size := l.size, pa := l.pa, flags := l.flags } ::
          c.tlb).take 4096 })
  | _ => s

/-- The shadow address of the tags of a square on a checked page (R137). -/
def shadowOf (l : Leaf) (pa : Nat) : Option Nat :=
  if l.checked then some (l.pa + l.size + (pa / 1024 * 1024 - l.pa) / 32 * 16) else none

end Sys2Proof.Machine
end

