-- ==== Sys2Proof/Machine/L1.lean ====
section
/-!
DEFINITION. A core's L1 (R103, R104) and the way from it to the home slices: the windows and caches an access passes
(R92, R106, R113, R458), what a release and an acquire move (R126), and the arbitration log with its gate (R378, R379).
-/

namespace Sys2Proof.Machine

/-! ### The page that holds a physical address -/

/-- The leaf below a table that maps a physical address, among those that `f` accepts. -/
def leafUnder (s : State) (f : Leaf → Bool) (pa table : Nat) : Nat → Option Leaf
  | 0 => none
  | n + 1 =>
    let level := 3 - n
    (upto 1024).findSome? (fun i =>
      let e := ofBytes (memRead s (homePa s (table + 8 * i)) 8)
      let frame := e / 4096 * 4096
      if !e.testBit 0 then none
      else if e.testBit 9 then
        let l : Leaf := { pa := frame, size := levelSize level, flags := BitVec.ofNat 12 e }
        if level ≠ 0 ∧ frame ≤ pa ∧ pa < frame + l.size ∧ f l then some l else none
      else leafUnder s f pa frame n)

/-- A page of some context that maps a physical address and that `f` accepts: checked pages and recorded pages are pages
of a context's tables. -/
def pageOver (s : State) (f : Leaf → Bool) (pa : Nat) : Option Leaf :=
  (upto 16).findSome? (fun i =>
    let root := (regGet s (0x400 + 8 * i)).toNat
    if root.testBit 0 then leafUnder s f pa (root / 8192 * 8192) 4 else none)

/-! ### The arbitration log and its gate (R378, R379) -/

def freshLog : SliceLog := { agent := 0, run := 0, full := false, gateChunk := 0, gateRun := 0, gateSince := none }

def logOf (s : State) (slice : Nat) : SliceLog := cget freshLog s.logs slice

def setLog (s : State) (slice : Nat) (l : SliceLog) : State := { s with logs := tset s.logs slice l }

def replaying (s : State) : Bool := (regGet s 0x30080).getLsbD 0

/-- The agent bits of a chunk: core and slot; 0x3FF for the host (slot 0) and a peer (slot 1) (R378). -/
def logAgent (core slot : Nat) : Nat := core % 1024 * 4096 + slot % 4096

/-- The address of a chunk of a slice's region. -/
def chunkAddr (s : State) (slice i : Nat) : Nat :=
  (regGet s 0x30088).toNat + slice * (regGet s 0x30090).toNat + 4 * i

/-- The slice serves one access of an agent to a recorded page (R378): the open run grows or a chunk opens. -/
def logAccess (s : State) (slice agent : Nat) : State :=
  if replaying s then s
  else
    let l := logOf s slice
    let fill := (regGet s (0x30400 + 8 * slice)).toNat
    if l.full then s
    else if l.run ≠ 0 ∧ l.agent = agent ∧ l.run < 1024 ∧ fill ≠ 0 then
      setLog (memWrite s (chunkAddr s slice (fill - 1)) (bytesOf 4 (agent * 1024 + l.run))) slice { l with run := l.run + 1 }
    else if (regGet s 0x30090).toNat < 4 * (fill + 1) then
      crumb (setLog s slice { l with full := true }) 0x0601 (unitOf 1 slice) []
    else
      let s := memWrite s (chunkAddr s slice fill) (bytesOf 4 (agent * 1024))
      setLog (regSet s (0x30400 + 8 * slice) (BitVec.ofNat 64 (fill + 1))) slice { l with agent := agent, run := 1 }

/-- The agent and the run of the chunk at a gate's head. -/
def headChunk (s : State) (slice : Nat) : Nat := ofBytes (memRead s (chunkAddr s slice (logOf s slice).gateChunk) 4)

/-- A gate that orders accesses now: in a replay, not opened by a divergence, with a chunk at its head (R379). -/
def gateShut (s : State) (slice : Nat) : Bool :=
  replaying s && !s.gatesOpen && decide ((logOf s slice).gateChunk < (regGet s (0x30400 + 8 * slice)).toNat)

/-- Whether the gate of a slice admits an agent now (R379). -/
def gateAdmits (s : State) (slice agent : Nat) : Bool := !gateShut s slice || decide (headChunk s slice / 1024 = agent)

/-- One access passes the gate: after RUN + 1 of them the gate moves to the next chunk. -/
def gatePass (s : State) (slice : Nat) : State :=
  if !gateShut s slice then s
  else
    let l := logOf s slice
    setLog s slice
      (if l.gateRun = headChunk s slice % 1024 then { l with gateChunk := l.gateChunk + 1, gateRun := 0, gateSince := some s.gtick }
       else { l with gateRun := l.gateRun + 1, gateSince := some s.gtick })

/-- An access arrives at a gate that does not admit it: the time out of chunk 0 runs from the first arrival. -/
def gateArrive (s : State) (slice : Nat) : State :=
  let l := logOf s slice
  if l.gateSince.isSome then s else setLog s slice { l with gateSince := some s.gtick }

/-- A slice serves an access of an agent to a recorded page: it is logged, or in a replay passes the gate. -/
def servedAt (s : State) (slice agent : Nat) : State := logAccess (gatePass s slice) slice agent

/-! ### Where an access goes -/

/-- An access's way: the physical address it is served at, whether L1 may hold it, whether it comes back through the
fabric as a peer's (R92), and the far line it uses. -/
structure Way where
  pa : Nat
  inL1 : Bool
  peer : Bool
  far : Option (Nat × Nat)
  management : Option Nat
  cached : Bool
deriving DecidableEq, Repr

def wayOf (s : State) (leaf : Leaf) (pa : Nat) : Way :=
  match placeOf s pa with
  | .management off => { pa := pa, inL1 := false, peer := false, far := none, management := some off, cached := false }
  | .peer node off =>
    if node = nodeId s then { pa := off, inL1 := false, peer := true, far := none, management := none, cached := false }
    else { pa := pa, inL1 := leaf.inL1, peer := false, far := none, management := none, cached := false }
  | .far off port =>
    { pa := pa, inL1 := leaf.inL1, peer := false, far := some (off, port), management := none, cached := leaf.farCached }
  | _ => { pa := pa, inL1 := leaf.inL1, peer := false, far := none, management := none, cached := false }

/-- The residency priority an access allocates with (R104, R109). -/
def cachePri (cache : BitVec 2) : Option Nat :=
  match cache.toNat with
  | 1 => some 0
  | 3 => some 15
  | _ => none

/-- Whether an access uses the memory-side cache: its page says so and its residency id is not kept out of it (R91, R109,
R113). -/
def farCaches (s : State) (rid : Nat) (cached : Bool) : Bool := cached && (residencyOf s rid).extractLsb' 4 2 != 2

/-- An access of `n` bytes reaches its home slice: the far line, then the square. The answer says whether the far line is
lost. -/
def atSlice (s : State) (w : Way) (leaf : Leaf) (n rid : Nat) (cache : BitVec 2) (write : Bool)
    (col : Option (BitVec 2) := none) : Bool × State :=
  let (lost, s) := match w.far with
    | some (off, port) =>
      let r := farAccess s off n port rid (farCaches s rid w.cached) write
      (r.1 == .lost, r.2)
    | none => (false, s)
  if lost || leaf.flags.extractLsb' 7 2 = 2 then (lost, s)
  else (false, touchSquare s w.pa n rid (cachePri cache) (if w.peer then none else shadowOf leaf w.pa) write col)

/-! ### The bytes of L1 -/

/-- A byte as a core sees it: its L1's, else memory's. -/
def coreByte (s : State) (core pa : Nat) : Byte :=
  match tget (coreOf s core).l1 pa with
  | some b => b.val
  | none => memByte s pa

/-- Puts dirty bytes into a core's L1. -/
def l1Put (c : Core) (pa : Nat) : List Byte → Core
  | [] => c
  | b :: r => l1Put { c with l1 := tset c.l1 pa { val := b, dirty := true } } (pa + 1) r

/-- The bytes of a poisoned granule that a store does not write become 0 with it (R384); those that are dirty already are
earlier stores. -/
def l1Clean (s : State) (c : Core) (g : Nat) : Core :=
  if s.poison.contains g then
    (upto 32).foldl (fun c i =>
      match tget c.l1 (32 * g + i) with
      | some b => if b.dirty then c else l1Put c (32 * g + i) [0]
      | none => l1Put c (32 * g + i) [0]) c
  else c

/-- Notes how a line was used last; what stored to it stays. -/
def noteLine (a : L1Line) (line : Nat) (c : Core) : Core :=
  let who := match a.agent with
    | some _ => a.agent
    | none => (tget c.lines line).bind (·.agent)
  { c with lines := tset c.lines line { a with agent := who } }

/-- A store into L1 (R103). -/
def l1Store (s : State) (core pa : Nat) (l : List Byte) (a : L1Line) : State :=
  modCore s core (fun c =>
    l1Put ((granulesOf pa l.length).foldl (l1Clean s)
      (((wordsOf pa l.length).map (· / 128)).eraseDups.foldl (fun c i => noteLine a i c) c)) pa l)

/-- A load that misses fetches its line and merges it, keeping the dirty bytes (R103). A poisoned granule is not held. A
line among the victim tags counts a victim hit (R163). -/
def fillLine (s : State) (core line : Nat) : State :=
  let c := coreOf s core
  let fetched := fun (l : List (Nat × L1Byte)) (a : Nat) =>
    if s.poison.contains (a / 32) then tdel l a else tset l a { val := memByte s a, dirty := false, seq := s.writes }
  let l1 := (upto 128).foldl (fun l i =>
    match tget l (128 * line + i) with
    | some b => if b.dirty then l else fetched l (128 * line + i)
    | none => fetched l (128 * line + i)) c.l1
  setCore s core { c with l1 := l1, hits := c.hits + (if c.victims.contains line then 1 else 0) }

/-! ### Write-backs -/

/-- A write of several bytes at once at the home slices: each word's monitors see it whole. -/
def memWriteCells (s : State) (l : List (Nat × Byte)) : State :=
  let s := remember s (l.map (·.1))
  let s := l.foldl (fun s c => if s.poison.contains (c.1 / 32) then unpoison s c.1 1 else s) s
  let s := { s with mem := l.foldl (fun (m : List Host.Cell) (c : Nat × Byte) => cset 0 m c.1 c.2) s.mem }
  if watched s then ((l.map (fun (c : Nat × Byte) => 4 * (c.1 / 4))).eraseDups).foldl fireWord s
  else s

/-- The dirty bytes of a core that satisfy a test. -/
def dirtyBytes (c : Core) (f : Nat → Bool) : List (Nat × Byte) :=
  c.l1.filterMap (fun e => if e.2.dirty && f e.1 then some (e.1, e.2.val) else none)

def plainLine : L1Line := { cached := false, rid := 0, policy := 0, used := 0, agent := none, shadow := none }

/-- A line's write-back to a recorded page is logged as an access of the last agent that stored to the line (R378). In a
replay it does not wait at the gate (DESIGN CHOICE, log 81). -/
def logLine (s : State) (a : L1Line) (line : Nat) : State :=
  match a.agent with
  | some agent => if gateAdmits s (homeSlice (128 * line)) agent then servedAt s (homeSlice (128 * line)) agent else s
  | none => s

/-- The bytes of a line that is written back arrive at their squares (R106). -/
def landLine (s : State) (a : L1Line) (bytes : List (Nat × Byte)) : State :=
  memWriteCells (bytes.foldl (fun s c => touchSquare s c.1 1 a.rid (cachePri a.policy) a.shadow true) s) bytes

/-- Dirty bytes of one line arrive at their home slice (R103, R113, R378), those of far memory where their port is up
(R458). -/
def writeLine (core : Nat) (bytes : List (Nat × Byte)) (s : State) (line : Nat) : State :=
  let a := cget plainLine (coreOf s core).lines line
  let mine := bytes.filter (fun c => c.1 / 128 == line)
  let s := logLine s a line
  match placeOf s (128 * line) with
  | .far off port =>
    let r := farAccess s off 128 port a.rid (farCaches s a.rid a.cached) true
    if r.1 == .lost then r.2 else landLine r.2 a mine
  | _ => landLine s a mine

/-- Writes a core's dirty bytes back and keeps them as clean ones (R103). -/
def writeBackL1 (s : State) (core : Nat) (f : Nat → Bool) : State :=
  let l := dirtyBytes (coreOf s core) f
  if l.isEmpty then s
  else
    let s := ((l.map (·.1 / 128)).eraseDups).foldl (writeLine core l) s
    modCore s core (fun c => { c with
      l1 := c.l1.map (fun e => if e.2.dirty && f e.1 then (e.1, { e.2 with dirty := false, seq := s.writes }) else e),
      wrote := l.foldl (fun m e => tset m e.1 s.writes) c.wrote })

/-- Drops bytes of a core's L1. -/
def dropL1 (s : State) (core : Nat) (f : Nat → L1Byte → Bool) : State :=
  let c := coreOf s core
  if c.l1.isEmpty then s else setCore s core { c with l1 := c.l1.filter (fun e => !f e.1 e.2) }

/-- A core's dirty bytes go to their home slices and leave its L1. -/
def flushL1 (s : State) (core : Nat) (f : Nat → Bool) : State := dropL1 (writeBackL1 s core f) core (fun a _ => f a)

/-- What a release moves before it takes effect (R126). At system scope L2 is written back as well. -/
def releaseCore (s : State) (core : Nat) (scope : BitVec 2) : State :=
  if scope = 0 then s
  else
    let s := writeBackL1 s core (fun _ => true)
    if scope = 3 then { s with squares := s.squares.map (fun e => (e.1, { e.2 with dirty := 0 })) } else s

/-- Whether a square holds far-window data. -/
def farSquare (sq : Nat) : Bool := decide (farBase ≤ 1024 * sq) && decide (1024 * sq < 2 * farBase)

/-- A clean square leaves L2. -/
def dropSquare (s : State) (sq : Nat) : State :=
  match tget s.squares sq with
  | some q => if q.dirty = 0 then evictSquare s sq q else s
  | none => s

/-- What an acquire drops after it reads (R126): the core's clean L1 bytes, at system scope also the clean L2 squares of
far data. -/
def acquireCore (s : State) (core : Nat) (scope : BitVec 2) : State :=
  if scope = 0 then s
  else
    let s := dropL1 s core (fun _ b => !b.dirty)
    if scope = 3 then ((s.squares.map (·.1)).filter farSquare).foldl dropSquare s else s

/-! ### Stores (R92, R103) -/

/-- How an access leaves its line. -/
def lineInfo (s : State) (leaf : Leaf) (pa rid : Nat) (cache : BitVec 2) (agent : Option Nat) : L1Line :=
  { cached := leaf.farCached, rid := rid, policy := cache, used := s.gtick, agent := if leaf.recorded then agent else none,
    shadow := shadowOf leaf pa }

/-- A granule of a checked page that a peer has written has its tag unknown (R92, R135). -/
def peerMark (s : State) (g : Nat) : State :=
  match pageOver s Leaf.checked (32 * g) with
  | none => s
  | some l => setTag (touchSquare s (32 * g) 0 0 none (shadowOf l (32 * g)) true) g unkTag

/-- A write served at the home slice, past L1: the core's own bytes there are dropped. A write to the own node's peer window
is a peer's. -/
def sliceWrite (s : State) (core : Nat) (w : Way) (leaf : Leaf) (l : List Byte) (rid : Nat) (cache : BitVec 2) : State :=
  let s := if w.peer then s else dropL1 s core (fun a _ => decide (w.pa ≤ a) && decide (a < w.pa + l.length))
  let (lost, s) := atSlice s w leaf l.length rid cache true
  if lost then s
  else
    let s := memWrite s w.pa l
    if w.peer then (granulesOf w.pa l.length).foldl peerMark s else s

/-- A store of a core to memory: into its L1 where the page allows and it need not go `through`, else at the home slice
(R103, R126). The management window takes no store this way. -/
def coreStore (s : State) (core : Nat) (leaf : Leaf) (pa : Nat) (l : List Byte) (rid : Nat) (cache : BitVec 2)
    (through : Bool) (agent : Nat) : State :=
  let w := wayOf s leaf pa
  if w.management.isSome then s
  else if w.inL1 && !through then l1Store s core w.pa l (lineInfo s leaf w.pa rid cache (some agent))
  else sliceWrite s core w leaf l rid cache

/-! ### Which line leaves (R103, R104) -/

/-- The order in which the lines of a set leave L1 (R104): streamed ones first, persisting ones last, among the others the
least recently used. -/
def leavesBefore (a b : L1Line) : Bool :=
  let rank := fun (x : L1Line) => if x.policy = 1 then 0 else if x.policy = 3 then 2 else 1
  decide (rank a < rank b) || (rank a == rank b && decide (a.used < b.used))

/-- The line that leaves the set of a line first. -/
def l1Victim (c : Core) (line : Nat) : Nat :=
  let held := ((c.l1.map (·.1 / 128)).eraseDups).filter (fun l => Config.l1Set l == Config.l1Set line)
  held.foldl (fun b l => if leavesBefore (cget plainLine c.lines l) (cget plainLine c.lines b) then l else b) line

end Sys2Proof.Machine
end

