-- ==== Sys2Proof/Machine/Ops.lean ====
section
/-!
DEFINITION. The named operations over threads, home warps, groups and the scratchpad, the race clock's changes
(R133), barriers (R140 to R142), scratchpad offsets (R96 to R100, R395), reconvergence (R24, R30), the end of a thread (R303), parking (R26, R387), TAKING A
TRAP (R387, R388) and returning from one (R391).
-/

namespace Sys2Proof.Machine

abbrev Out := Host.Outcome State Fault Refusal

/-! ### Teams, warps, threads -/

def teamKey (core no : Nat) : Nat := 128 * core + no

def setTeam (s : State) (k : Nat) (t : Team) : State := { s with teams := tset s.teams k t }

def groupOf (t : Team) (gid : Nat) : Option Grp := t.groups.find? (fun g => g.gid == gid)

/-- The team and the group that issue the instruction under way. -/
def issuer (s : State) : Option (Team × Grp) :=
  match tget s.teams s.cur.team with
  | none => none
  | some t => match groupOf t s.cur.gid with
    | none => none
    | some g => some (t, g)

/-- Runs a meaning for the issuing team and group. -/
def withIssuer (s : State) (f : Team → Grp → Out) : Out :=
  match issuer s with
  | none => .fault .noIssuer
  | some (t, g) => f t g

/-- The initial state of a thread (R20), but for v0 and its place. -/
def Thread.fresh (slot : Nat) (live helper : Bool) (v0 : Word) : Thread :=
  { live := live, helper := helper, quit := false, seated := true, slot := slot, v := v0 :: List.replicate 31 0, p := 1, clk := 0, sat := false,
    satDue := false, lstat := 0, pend := [], aside := [], seen := 0, stamp := none, arrived := [], barClk := [],
    unchecked := false, floors := [], acq := List.replicate 4 0, unwatched := false }

/-- A lane that is not formed. -/
def Thread.absent : Thread := { Thread.fresh 0 false false 0 with seated := false }

def threadOf (t : Team) (tid : Nat) : Thread := t.threads.getD tid Thread.absent

def modThread (t : Team) (tid : Nat) (f : Thread → Thread) : Team :=
  { t with threads := padSet Thread.absent t.threads tid (f (threadOf t tid)) }

def modThreads (t : Team) (tids : List Nat) (f : Thread → Thread) : Team :=
  tids.foldl (fun t i => modThread t i f) t

/-- The initial state of a home warp (R20): `s1` the argument pointer. -/
def Warp.fresh (formed : Bool) (argp : DWord) (since : Nat) : Warp :=
  { formed := formed, s := 0 :: argp :: List.replicate 62 0, c := 1, h := List.replicate 16 0,
    md := List.replicate 4 0, wc := List.replicate 4 .empty, stack := [], gbase := 0, nmon := 0, nema := 0,
    storehash := 0, ssbind := none, partner := none, token := false, lastClass := none,
    since := since, swapped := false }

def warpOf (t : Team) (w : Nat) : Warp := t.warps.getD w (Warp.fresh false 0 0)

def setWarp (t : Team) (w : Nat) (x : Warp) : Team := { t with warps := padSet (Warp.fresh false 0 0) t.warps w x }

def modWarp (t : Team) (w : Nat) (f : Warp → Warp) : Team := setWarp t w (f (warpOf t w))

/-! ### Registers (R34, R35, R232, R243) -/

/-- Whether the thread's quad holds an extended block (R35). -/
def hasExt (t : Team) (tid : Nat) : Bool := (tget t.ext (tid / 4)).isSome

/-- The place of v`n` of a thread in its quad's block: register by register, lane by lane. -/
def extIndex (tid n : Nat) : Nat := (n - 32) * 4 + tid % 4

/-- Lane register v`n` of a thread. -/
def laneReg (t : Team) (tid n : Nat) : Word :=
  if n < 32 then (threadOf t tid).v.getD n 0
  else match tget t.ext (tid / 4) with
    | some b => b.getD (extIndex tid n) 0
    | none => 0

def setLaneReg (t : Team) (tid n : Nat) (x : Word) : Team :=
  if n < 32 then modThread t tid (fun th => { th with v := padSet 0 th.v n x })
  else match tget t.ext (tid / 4) with
    | some b => { t with ext := tset t.ext (tid / 4) (padSet 0 b (extIndex tid n) x) }
    | none => t

/-- Lane predicate p`n`; p0 is always true (R232). -/
def lanePred (th : Thread) (n : Nat) : Bool := n == 0 || th.p.getLsbD n

/-- A write of p0 is discarded. -/
def setLanePred (th : Thread) (n : Nat) (b : Bool) : Thread :=
  if n = 0 then th else { th with p := setBit th.p n b }

/-- Uniform register s`n`; s0 reads 0 (R232). -/
def uReg (w : Warp) (n : Nat) : DWord := if n = 0 then 0 else w.s.getD n 0

/-- A write of s0 is discarded. -/
def setU (w : Warp) (n : Nat) (x : DWord) : Warp := if n = 0 then w else { w with s := padSet 0 w.s n x }

/-- Uniform flag c`n`; c0 is always true. -/
def uFlag (w : Warp) (n : Nat) : Bool := n == 0 || w.c.getLsbD n

/-- A write of c0 is discarded. -/
def setFlag (w : Warp) (n : Nat) (b : Bool) : Warp := if n = 0 then w else { w with c := setBit w.c n b }

/-! ### The lanes of a group -/

def liveHelper (t : Team) (tid : Nat) : Bool := (threadOf t tid).helper

/-- The lanes that take part in a lane-set instruction (R228): in the group's mask, with a guard that is true. -/
def takesPart (t : Team) (g : Grp) (guard : BitVec 2) : List (Nat × Nat) :=
  g.lanes.filter (fun l => lanePred (threadOf t l.2) guard.toNat)

/-- Those of them that are no helper lanes (R19). -/
def notHelper (t : Team) (l : List (Nat × Nat)) : List (Nat × Nat) := l.filter (fun x => !liveHelper t x.2)

/-- The representative of a uniform access (R309): the lowest lane that takes part and is no helper. -/
def representative (t : Team) (g : Grp) : Option (Nat × Nat) :=
  g.lanes.find? (fun x => !liveHelper t x.2)

/-- LANE bits of a list of lanes. -/
def laneMask (l : List (Nat × Nat)) : Word := maskOf 32 (l.map (·.1))

/-- Keeps lanes in ascending order. -/
def insertLane (x : Nat × Nat) : List (Nat × Nat) → List (Nat × Nat)
  | [] => [x]
  | y :: r => if x.1 ≤ y.1 then x :: y :: r else y :: insertLane x r

def mergeLanes (a b : List (Nat × Nat)) : List (Nat × Nat) := a.foldr insertLane b

/-- Threads as lanes of their home warp. -/
def homeLanes (tids : List Nat) : List (Nat × Nat) := mergeLanes (tids.map (fun i => (i % 32, i))) []

/-- In a formation, or treated so: a masked sub-warp (R27, R29). -/
def inFormation (g : Grp) : Bool := g.formation || g.masked

/-- A new group of a home warp. -/
def Grp.fresh (gid warp now : Nat) (lanes : List (Nat × Nat)) (pc : BitVec 56) : Grp :=
  { gid := gid, formation := false, warp := warp, slice := warp % 4, lanes := lanes, pc := pc, formed := now,
    next := now, ready := now, wait := .none, pstep := 0, kept := 0, park := none, handler := false, code := 0, record := 0,
    copying := none, split := [], masked := false, done := [], judged := false, mark := false, owed := false, after := [],
    yieldEnd := 0 }

/-- Adds a group under the team's next number. -/
def addGroup (t : Team) (g : Nat → Grp) : Team :=
  { t with groups := t.groups ++ [g t.nextGid], nextGid := t.nextGid + 1 }

def dropGroup (t : Team) (gid : Nat) : Team := { t with groups := t.groups.filter (fun g => g.gid != gid) }

/-- A group without some of its threads; an empty group is no group. -/
def withoutThreads (t : Team) (tids : List Nat) : Team :=
  let gs := t.groups.map (fun g => { g with lanes := g.lanes.filter (fun l => !tids.contains l.2) })
  { t with groups := gs.filter (fun g => !g.lanes.isEmpty) }

/-- A group goes on `len` words further (R229) and may issue again when its STALL has elapsed (R166). -/
def stepPc (now : Nat) (hdr : Header) (len : Nat) (g : Grp) : Grp :=
  { g with pc := g.pc + BitVec.ofNat 56 (4 * len), wait := .none, pstep := 0, done := [], judged := false,
           owed := hdr.stall == 7,
           next := now + (if hdr.stall.toNat < 7 then max 1 hdr.stall.toNat else 1),
           ready := now + (if hdr.stall.toNat < 7 then max 1 hdr.stall.toNat else 1) }

/-- The issuing group has completed its instruction. -/
def advance (s : State) (t : Team) : Team := modGroup t s.cur.gid (stepPc s.gtick s.cur.hdr s.cur.len)

/-- The issuing group stays at its instruction and waits. -/
def hold (s : State) (t : Team) (w : Wait) : Team := modGroup t s.cur.gid (fun g => { g with wait := w })

/-- The instruction under way changes its own team only, and completes. -/
def finish (s : State) (t : Team) : Out := .next (setTeam s s.cur.team (advance s t))

/-- The instruction under way waits. -/
def waitFor (s : State) (t : Team) (w : Wait) : Out := .next (setTeam s s.cur.team (hold s t w))

/-- A thread is regrouped while it is filed, in a formation, masked by R27 or held at REJOIN (R30, R426). -/
def regrouped (t : Team) (w : Nat) : Bool :=
  t.groups.any (fun g => (g.formation || g.masked || (match g.wait with
      | .rejoin _ _ => true
      | _ => false)) && g.lanes.any (fun l => l.2 / 32 == w)) ||
    t.bins.any (fun b => b.filed.any (fun x => x.1 / 32 == w))

/-! ### The context's registers (R245) -/

def ctxOf (s : State) (i : Nat) : Ctx := s.ctxs.getD i Ctx.reset

def modCtx (s : State) (i : Nat) (f : Ctx → Ctx) : State :=
  { s with ctxs := padSet Ctx.reset s.ctxs i (f (ctxOf s i)) }

/-- LAUNCH (R245): the queue and the record's number in it. -/
def launchWord (i : TeamInfo) : DWord := BitVec.ofNat 64 (i.lq * 2 ^ 32 + i.recNo.toNat)

/-! ### Race clocks (R133, R401) -/

/-- CLK raised to at least `e` and then by 1; the first step past 2^32 − 1 saturates the thread (R401). -/
def raiseClk (th : Thread) (e : Word) : Thread :=
  let m := max th.clk.toNat e.toNat + 1
  if th.sat then th
  else if m < 2 ^ 32 then { th with clk := BitVec.ofNat 32 m }
  else { th with clk := BitVec.ofNat 32 (2 ^ 32 - 1), sat := true, satDue := true }

/-- CLK ← CLK + 1. -/
def bumpClk (th : Thread) : Thread := raiseClk th 0

/-- The instance of a scope for a thread of a team (R118). -/
def instanceOf (t : Team) (scope : BitVec 2) : BitVec 22 :=
  match scope.toNat with
  | 0 => BitVec.ofNat 22 (teamKey t.core t.no)
  | 1 => BitVec.ofNat 22 (t.core / 8)
  | _ => 0

/-- Whether a thread of a team lies inside a stamp's instance (R118). -/
def insideStamp (t : Team) (scope : BitVec 2) (inst : BitVec 22) : Bool :=
  match scope.toNat with
  | 0 => inst == BitVec.ofNat 22 (teamKey t.core t.no)
  | 1 => inst == BitVec.ofNat 22 (t.core / 8)
  | _ => true

/-- The clock changes of FENCE.REL (R133). -/
def clkRelease (t : Team) (scope : BitVec 2) (th : Thread) : Thread :=
  let th := bumpClk th
  { th with stamp := some { clock := th.clk, scope := scope, inst := instanceOf t scope } }

/-- The clock changes of FENCE.ACQ (R133). -/
def clkAcquire (th : Thread) : Thread := { raiseClk th th.seen with seen := 0 }

/-- An acquire at a scope, when `n` writes have been made: the scope includes the narrower ones (R118, R129). -/
def acquireAt (n : Nat) (scope : BitVec 2) (th : Thread) : Thread :=
  { th with acq := (upto 4).map (fun i => if i ≤ scope.toNat then n else th.acq.getD i 0) }

/-! ### Barriers (R140 to R142) -/

/-- The key under which a thread arrives at a barrier. -/
def arrivalKey (k id tid : Nat) : Nat := if id < 16 then tid else 8192 * k + tid

def freshBar : Bar := { phase := 0, arrived := [], gone := 0, clk := 0 }

def clusterOf (s : State) (t : Team) : Cluster := cget { teams := [], bars := [] } s.clusters t.info.cluster

def barOf (s : State) (t : Team) (id : Nat) : Bar :=
  if id < 16 then t.bars.getD id freshBar else (clusterOf s t).bars.getD (id - 16) freshBar

def setBar (s : State) (k id : Nat) (b : Bar) : State :=
  match tget s.teams k with
  | none => s
  | some t =>
    if id < 16 then setTeam s k { t with bars := padSet freshBar t.bars id b }
    else
      let c := clusterOf s t
      { s with clusters := tset s.clusters t.info.cluster { c with bars := padSet freshBar c.bars (id - 16) b } }

/-- The live threads of a team that are no helper lanes. -/
def liveCount (t : Team) : Nat := (t.threads.filter (fun th => th.live && !th.helper)).length

/-- The teams that share a barrier. -/
def barTeams (s : State) (k id : Nat) : List Nat :=
  if id < 16 then [k]
  else match tget s.teams k with
    | some t => (clusterOf s t).teams
    | none => []

/-- The team of a key, resident or saved (R446). -/
def teamAt (s : State) (j : Nat) : Option Team :=
  match tget s.teams j with
  | some t => some t
  | none => (s.saved.find? (fun x => x.key == j)).map (·.team)

/-- The threads expected at an open phase, those that arrived and exited since apart (R140, R142). -/
def expected (s : State) (k id : Nat) : Nat :=
  (barTeams s k id).foldl (fun n j => n + match teamAt s j with
    | some t => liveCount t
    | none => 0) 0

/-- Changes a team, resident or saved. -/
def modTeamAt (s : State) (j : Nat) (f : Team → Team) : State :=
  { modTeam s j f with saved := s.saved.map (fun x => if x.key == j then { x with team := f x.team } else x) }

/-- A thread departs, when `n` writes have been made: its clock takes up that of the completed phase it arrived at (R133,
R141), which is an acquire (R124). -/
def depart (n id : Nat) (th : Thread) : Thread :=
  match tget th.barClk id with
  | some c => acquireAt n (if id < 16 then 0 else 1) { raiseClk th c with barClk := tdel th.barClk id }
  | none => th

/-- A group departs from a phase, or is free to arrive at the next one (R141). -/
def departGroup (now n id : Nat) (phase : Word) (t : Team) (g : Grp) : Team :=
  match g.wait with
  | .bar i ph again =>
    if i = id ∧ ph = phase then
      if again then modGroup t g.gid (fun g => { g with wait := .none, next := now, ready := now })
      else
        modGroup (modThreads t (g.lanes.map (·.2)) (depart n id)) g.gid (stepPc now { stall := 0, guard := 0, scope := 0 } 1)
    else t
  | _ => t

/-- The core of a resident team. -/
def teamCore (s : State) (k : Nat) : Nat :=
  match tget s.teams k with
  | some t => t.core
  | none => k / 128

/-- The departure from a cluster barrier is an acquire: the cores of its teams drop their clean L1 bytes (R126, R328). -/
def acquireCluster (s : State) (k id : Nat) : State :=
  if id < 16 then s
  else (barTeams s k id).foldl (fun s j =>
    modCore s (teamCore s j) (fun c => { c with l1 := c.l1.filter (fun e => e.2.dirty) })) s

/-- A phase completes when its arrivals equal the expected count (R141): the phase number advances, each thread that
arrived keeps the phase's clock for its departure, and the held groups depart. -/
def tryBar (s : State) (k id : Nat) : State :=
  match tget s.teams k with
  | none => s
  | some t =>
    let b := barOf s t id
    if b.arrived.length + b.gone = 0 ∨ b.arrived.length ≠ expected s k id then s
    else
      let s := setBar s k id { phase := b.phase + 1, arrived := [], gone := 0, clk := 0 }
      (barTeams s k id).foldl (fun s j => modTeamAt s j (fun t =>
        let mine := b.arrived.filterMap (fun a =>
          if id < 16 then some a else if a / 8192 = j then some (a % 8192) else none)
        let t := modThreads t mine (fun th => { th with barClk := tset th.barClk id b.clk })
        t.groups.foldl (departGroup s.gtick s.writes id b.phase) t)) (acquireCluster s k id)

/-- Threads arrive at the open phase of a barrier (R141). -/
def arrive (s : State) (k id : Nat) (tids : List Nat) : State :=
  match tget s.teams k with
  | none => s
  | some t =>
    let b := barOf s t id
    let m := tids.foldl (fun m i => max m (threadOf t i).clk.toNat) b.clk.toNat
    let s := setTeam s k (modThreads t tids (fun th =>
      { th with arrived := tset th.arrived id b.phase, barClk := tdel th.barClk id }))
    setBar s k id { b with arrived := b.arrived ++ tids.map (arrivalKey k id), clk := BitVec.ofNat 32 m }

/-- A thread that exits leaves the phases it has not arrived at; of the others its arrival stays (R142). -/
def leaveBar (s : State) (k id tid : Nat) : State :=
  match tget s.teams k with
  | none => s
  | some t =>
    let b := barOf s t id
    let a := arrivalKey k id tid
    if b.arrived.contains a then setBar s k id { b with arrived := b.arrived.filter (· != a), gone := b.gone + 1 }
    else s

/-! ### Scratchpad offsets (R96 to R100, R395) -/

def offCluster (o : Word) : Bool := o.getLsbD 31
def offRank (o : Word) : Nat := (o.extractLsb' 28 3).toNat
def offWin (o : Word) : Nat := (o.extractLsb' 24 4).toNat
def offByte (o : Word) : Nat := (o.extractLsb' 0 24).toNat

/-- The swizzle of a window (R98). -/
def swizzle (mode : BitVec 2) (o : Nat) : Nat :=
  match mode.toNat with
  | 0 => o
  | 1 => o ^^^ (((o >>> 7) &&& 7) <<< 4)
  | 2 => o ^^^ (((o >>> 8) &&& 7) <<< 5)
  | _ => o ^^^ (((o >>> 9) &&& 7) <<< 6)

def noWindow : Window := { base := 0, size := 0, swz := 0, chk := false }

/-- A place in scratchpad: the owning team, the team-relative position, and whether the window is checked. -/
structure Spot where
  team : Nat
  pos : Nat
  chk : Bool
deriving DecidableEq, Repr

/-- The key that stands for a team of a cluster that has retired. -/
def goneTeam : Nat := 2 ^ 20

/-- The team an offset names: the issuing team, or the one of its cluster with that rank (R100), resident or saved. One that
has retired has no scratchpad any more, and the spec does not say what such an offset reaches: it is taken to be as the
issuing team's, its bytes are open and stores to it are lost (DESIGN CHOICE, log 82). -/
def offTeam (s : State) (k : Nat) (t : Team) (o : Word) : Option (Nat × Team) :=
  if !offCluster o then some (k, t)
  else if t.info.mates ≤ offRank o then none
  else some (((clusterOf s t).teams.findSome? (fun j =>
    match teamAt s j with
    | some u => if u.info.rank = offRank o then some (j, u) else none
    | none => none)).getD (goneTeam, t))

/-- Where `w` bytes at an offset lie, or the REASON of R395 why they lie nowhere. -/
def resolve (s : State) (k : Nat) (o : Word) (w : Nat) : Except Nat Spot :=
  match tget s.teams k with
  | none => .error 2
  | some t =>
    if !offCluster o && offRank o != 0 then .error 1
    else match offTeam s k t o with
      | none => .error 2
      | some (j, u) =>
        let win := u.windows.getD (offWin o) noWindow
        if win.size = 0 then .error 3
        else if win.size < offByte o + w then .error 4
        else .ok { team := j, pos := win.base + swizzle win.swz (offByte o), chk := win.chk }

/-- INFO of code 0x13 (R394). -/
def boundInfo (o : Word) (reason : Nat) : BitVec 64 :=
  BitVec.ofNat 64 (reason + 256 * offWin o + 4096 * offRank o)

/-- Bytes of a team's scratchpad; those of a team that is gone are open. -/
def scratchBytes (s : State) (k pos n : Nat) : List Byte :=
  match tget s.teams k with
  | some t => cellsRead t.scratch pos n
  | none => (upto n).map (fun i => Config.freeByte (s.free + pos + i))

/-- Stores bytes in a team's scratchpad. Poison of a granule goes, and what is not covered becomes 0 (R384). -/
def scratchPut (t : Team) (pos : Nat) (l : List Byte) : Team :=
  let gs := (granulesOf pos l.length).filter (fun g => t.poison.contains g)
  let t := { t with poison := t.poison.filter (fun g => !gs.contains g),
                    poisonSeen := t.poisonSeen.filter (fun g => !gs.contains g),
                    scratch := gs.foldl (fun m g => cellsSet m (32 * g) (List.replicate 32 0)) t.scratch }
  { t with scratch := cellsSet t.scratch pos l }

def scratchStore (s : State) (k pos : Nat) (l : List Byte) : State := modTeam s k (fun t => scratchPut t pos l)

/-- The place of an object in scratchpad, as one number. -/
def spotKey (p : Spot) : Nat := 2 ^ 32 * p.team + p.pos

/-- The 32-bit word at an offset, where it lies anywhere. -/
def offWord (s : State) (k : Nat) (o : Word) : Option Word :=
  match resolve s k o 4 with
  | .ok p => some (BitVec.ofNat 32 (ofBytes (scratchBytes s p.team p.pos 4)))
  | .error _ => none

def setOffWord (s : State) (k : Nat) (o v : Word) : State :=
  match resolve s k o 4 with
  | .ok p => scratchStore s p.team p.pos (bytesOf 4 v.toNat)
  | .error _ => s

/-! ### Who waits on a byte-count barrier (R143) -/

/-- The slots that a group waits on. -/
def waitedSlots (g : Grp) : List SlotWatch :=
  match g.wait with
  | .slots _ _ _ ws _ _ => ws
  | _ => []

/-- The byte-count barriers that a group of team `k` waits on: their offsets. -/
def waitedBcbs (t : Team) (g : Grp) : List Word :=
  (waitedSlots g).filterMap (fun x => match (warpOf t g.warp).wc.getD x.slot .empty with
    | .bcb o => some o
    | _ => none)

/-- The place of a byte-count barrier, whatever offset names it. -/
def bcbPlace (s : State) (k : Nat) (o : Word) : Option Nat :=
  match resolve s k o 16 with
  | .ok p => some (spotKey p)
  | .error _ => none

/-- Another wait of a home warp of the same group of four, in whatever team, selects the barrier at a place. -/
def othersWait (s : State) (k : Nat) (g : Grp) (place : Option Nat) : Bool :=
  s.teams.any (fun x => x.2.groups.any (fun h =>
    !(x.1 == k && h.gid == g.gid) && h.warp / 4 == g.warp / 4 &&
      (waitedBcbs x.2 h).any (fun o => bcbPlace s x.1 o == place)))

/-- Sets or clears the bit of a home warp's group in the WAITERS words of byte-count barriers. -/
def markWaiters (s : State) (k warp : Nat) (on : Bool) (l : List Word) : State :=
  l.foldl (fun s o =>
    match offWord s k (o + 12) with
    | some v => setOffWord s k (o + 12) (setBit v (warp / 4) on)
    | none => s) s

/-- A group's wait is over: its bit goes where no other wait of its group of home warps selects the barrier. -/
def unmarkWaiters (s : State) (k : Nat) (t : Team) (g : Grp) : State :=
  markWaiters s k g.warp false ((waitedBcbs t g).filter (fun o => !othersWait s k g (bcbPlace s k o)))

/-- The groups of a team whose lanes all end leave their waits. -/
def leaveWaits (s : State) (k : Nat) (tids : List Nat) : State :=
  match tget s.teams k with
  | none => s
  | some t => (t.groups.filter (fun g => g.lanes.all (fun l => tids.contains l.2))).foldl (fun s g =>
      modTeam (unmarkWaiters s k t g) k (fun t => modGroup t g.gid (fun x => { x with wait := .none }))) s

/-! ### Reconvergence (R24, R30) -/

/-- A group of a home warp that is held at the RCVWAIT at `target`. -/
def waitsAtRcv (g : Grp) (w : Nat) (target : BitVec 56) : Bool :=
  !g.formation && g.warp == w && g.pc == target && (match g.wait with
    | .rcv => true
    | _ => false)

/-- One group of several at a PC. It is inside the handler that they were inside (R390). -/
def mergeGroups (t : Team) (gs : List Grp) (w now : Nat) (lanes : List (Nat × Nat)) (pc : BitVec 56) : Team :=
  let t := { t with groups := t.groups.filter (fun g => !gs.any (fun x => x.gid == g.gid)) }
  match gs with
  | [] => t
  | g0 :: _ =>
    if lanes.isEmpty then t
    else addGroup t (fun gid =>
      { Grp.fresh gid w now lanes pc with
        handler := g0.handler, code := g0.code, record := g0.record, copying := g0.copying, kept := g0.kept,
        split := (gs.flatMap (·.split)).eraseDups })

/-- The lanes of a mask that have not exited (R24). -/
def stillIn (t : Team) (w : Nat) (mask : Word) : List Nat :=
  (upto 32).filter (fun i => mask.getLsbD i && (threadOf t (32 * w + i)).live && !(threadOf t (32 * w + i)).quit)

/-- The top record is met when every live lane of its mask has arrived at its target (R24): the arrived lanes merge at the
next word and the record is popped; then the record below may be met. -/
def meetRcv (now : Nat) (w : Nat) : Nat → Team → Team
  | 0, t => t
  | n + 1, t =>
    match (warpOf t w).stack with
    | [] => t
    | r :: rest =>
      let here := t.groups.filter (fun g => waitsAtRcv g w r.target)
      let lanes := here.foldl (fun l g => mergeLanes g.lanes l) []
      if (stillIn t w r.mask).all (fun i => lanes.any (fun l => l.1 == i)) then
        meetRcv now w n (mergeGroups (modWarp t w (fun x => { x with stack := rest })) here w now lanes (r.target + 4))
      else t

/-- The records of a home warp's reconvergence stack that are met, at most its 16. -/
def tryRcv (now : Nat) (t : Team) (w : Nat) : Team := meetRcv now w 16 t

/-- The groups of a home warp held at REJOIN, the targets they named, and their words. -/
def rejoined (t : Team) (w : Nat) : List (Grp × BitVec 56 × Word) :=
  t.groups.filterMap (fun g => match g.wait with
    | .rejoin l word => if g.warp == w && !g.formation then some (g, l, word) else none
    | _ => none)

/-! ### Parking (R26, R387) -/

/-- INFO of codes 0x01 to 0x04 (R416). -/
def infoOf (word : Word) (value reason : Nat) : BitVec 64 :=
  BitVec.ofNat 64 (word.toNat * 2 ^ 32 + value % 256 * 256 + reason)

/-- A park for one of those codes, with the word under way. -/
def parkOf (s : State) (code value reason : Nat) : Park :=
  { code := BitVec.ofNat 16 code, addr := 0, info := infoOf s.cur.word value reason, flags := 0, order := 0 }

/-- The distinct (home warp, code) pairs of the lanes that park. -/
def parkKeys (l : List (Nat × Park)) : List (Nat × Nat) :=
  l.foldl (fun ks x => if ks.contains (x.1 / 32, x.2.code.toNat) then ks else ks ++ [(x.1 / 32, x.2.code.toNat)]) []

/-- Adds the parked sub-warp of one home warp and code. The record takes its details from the lowest lane. -/
def addParked (now : Nat) (g : Grp) (flags : BitVec 8) (l : List (Nat × Park)) (t : Team) (key : Nat × Nat) : Team :=
  let mine := l.filter (fun x => x.1 / 32 == key.1 && x.2.code.toNat == key.2)
  let lanes := homeLanes (mine.map (·.1))
  let low := (lanes.head?.map (·.2)).getD 0
  match mine.find? (fun x => x.1 == low) with
  | none => t
  | some (_, p) =>
    let kin := if g.formation then [] else t.nextSplit :: g.split
    let fl := flags ||| (if g.formation then 1 else 0)
    addGroup t (fun gid =>
      { Grp.fresh gid key.1 now lanes g.pc with
        pstep := g.pstep, split := kin, copying := g.copying, handler := g.handler, code := g.code,
        record := g.record, kept := g.kept, park := some { p with flags := fl, order := gid, tick := now } })

/-- Parks lanes of a group at its instruction, one sub-warp per code and home warp (R387). The lanes that stay are
split from them until they merge again (R26). -/
def parkLanes (now : Nat) (t : Team) (g : Grp) (flags : BitVec 8) (l : List (Nat × Park)) : Team :=
  match l with
  | [] => t
  | _ =>
    let tids := l.map (·.1)
    let t' := withoutThreads t tids
    let t' := if g.formation then t' else modGroup t' g.gid (fun x => { x with split := t.nextSplit :: x.split })
    let t' := (parkKeys l).foldl (addParked now g flags l) t'
    { t' with nextSplit := t.nextSplit + 1 }

/-! ### The end of a thread (R303) -/

/-- A helper lane retires when every other lane of its quad has exited (R19). -/
def retireHelpers (t : Team) (quads : List Nat) : Team :=
  quads.foldl (fun t q =>
    let ids := (upto 4).map (· + 4 * q)
    if ids.all (fun i => (threadOf t i).helper || !(threadOf t i).live) then
      withoutThreads (modThreads t (ids.filter (fun i => (threadOf t i).helper))
        (fun th => { th with live := false, quit := false, seated := false })) ids
    else t) t

/-- When the last thread of a home warp has exited its blocks go back, its pair dissolves, and its wait slots,
descriptors and handles cease to exist. -/
def endWarp (t : Team) (w : Nat) : Team :=
  if (upto 32).any (fun i => (threadOf t (32 * w + i)).live) || !(warpOf t w).formed then t
  else
    let t := { t with ext := t.ext.filter (fun e => e.1 / 8 != w) }
    let t := match (warpOf t w).partner with
      | some p => if (warpOf t p).partner == some w then modWarp t p (fun x => { x with token := false }) else t
      | none => t
    let t := modThreads t ((upto 32).map (· + 32 * w)) (fun th => { th with seated := false })
    setWarp t w { Warp.fresh false 0 0 with storehash := (warpOf t w).storehash }

/-- The matrix word a group holds at. -/
def heldWord (g : Grp) : Option Word :=
  match g.wait with
  | .quartet word => some word
  | _ => none

/-- The groups of a quartet that hold at a matrix word. -/
def quartetHolders (t : Team) (q : Nat) : List Grp :=
  t.groups.filter (fun g => g.warp / 4 == q && !g.formation && (heldWord g).isSome)

/-- A whole group parks with code 0x02 at the word it has been held at. One inside a handler faults there (R391). -/
def parkHeld (now : Nat) (flags : BitVec 8) (word : Word) (reason : Nat) (t : Team) (g : Grp) : Team :=
  parkLanes now (modGroup t g.gid (fun g => { g with wait := .none })) g flags
    (g.lanes.map (fun l => (l.2, { code := 2, addr := 0, info := infoOf word 0 reason, flags := 0, order := 0 })))

/-- The holding warps of a quartet that can no longer be completed park with code 0x02, REASON 1 (R427). -/
def failQuartet (now : Nat) (t : Team) (q reason : Nat) : Team :=
  (quartetHolders t q).foldl (fun t g => parkHeld now 2 ((heldWord g).getD 0) reason t g) t

/-- Every thread has rejoined: the home warp resumes as one group at the target, or, where the targets differ, every
thread parks with code 0x02, REASON 8 (R30, R426). -/
def tryRejoin (now : Nat) (t : Team) (w : Nat) : Team :=
  let here := rejoined t w
  let need := stillIn t w (BitVec.allOnes 32)
  let lanes := here.foldl (fun l g => mergeLanes g.1.lanes l) []
  match here with
  | [] => t
  | (_, target, _) :: _ =>
    if need.all (fun i => lanes.any (fun l => l.2 == 32 * w + i)) then
      if here.all (fun x => x.2.1 == target) then mergeGroups t (here.map (·.1)) w now lanes target
      else here.foldl (fun t x => parkHeld now 0 x.2.2 8 t x.1) t
    else t

/-- A thread that ends: its slot is free (R303). A helper lane keeps its registers until its quad has exited. -/
def endThread (th : Thread) : Thread :=
  if th.helper then { th with quit := true } else { th with live := false, seated := false }

/-- What the end of threads does inside their team: they leave their groups, bins and masks. -/
def endThreads (s : State) (t : Team) (tids : List Nat) : Team :=
  let t := modThreads t tids endThread
  let t := withoutThreads t tids
  let t := { t with bins := (t.bins.map (fun b =>
    { b with filed := b.filed.filter (fun x => !tids.contains x.1) })).filter (fun b => !b.filed.isEmpty) }
  let t := retireHelpers t (tids.map (· / 4)).eraseDups
  let ws := (tids.map (· / 32)).eraseDups
  let t := ws.foldl endWarp t
  let t := ws.foldl (fun t w => if (warpOf t w).formed then t else failQuartet s.gtick t (w / 4) 1) t
  let t := ws.foldl (tryRcv s.gtick) t
  ws.foldl (tryRejoin s.gtick) t

/-- Whether a team still has a group. -/
def hasGroup (s : State) (k gid : Nat) : Bool :=
  match tget s.teams k with
  | some t => t.groups.any (fun g => g.gid == gid)
  | none => false

/-- Requests of a team's groups that are gone leave their queues (R151). -/
def pruneQueues (s : State) (k : Nat) : State :=
  let keep := fun (x : Nat × Nat) => x.1 != k || hasGroup s k x.2
  { s with queues := s.queues.map (fun q =>
      (q.1, { q.2 with poppers := q.2.poppers.filter keep, pushers := q.2.pushers.filter keep })) }

/-- Threads of a team end (R303, R142, R24). -/
def exitThreads (s : State) (k : Nat) (tids : List Nat) : State :=
  let s := tids.foldl (fun s i => (upto 24).foldl (fun s id => leaveBar s k id i) s) (leaveWaits s k tids)
  let s := pruneQueues (modTeam s k (fun t => endThreads s t tids)) k
  let s := { s with monitors := s.monitors.filter (fun m => m.team != k || hasGroup s k m.gid) }
  settleCopies ((upto 24).foldl (fun s id => tryBar s k id) s)

/-- Every thread of a team, helper lanes among them. -/
def allThreads (t : Team) : List Nat := (upto t.threads.length).filter (fun i => (threadOf t i).live)

def killTeam (s : State) (k : Nat) : State :=
  match tget s.teams k with
  | some t => exitThreads s k (allThreads t)
  | none => s

/-! ### Taking a trap (R387, R388, R391) -/

/-- The address of a sub-warp's trap record (R387). -/
def recordAddr (traprec : DWord) (core slot : Nat) : DWord := traprec + BitVec.ofNat 64 (128 * (core * 4096 + slot))

/-- The bytes of a trap record (R388). -/
def recordBytes (t : Team) (g : Grp) (p : Park) : List Byte :=
  let low := (g.lanes.head?.map (·.2)).getD 0
  let w := warpOf t g.warp
  bytesOf 8 p.tick ++ bytesOf 8 g.pc.toNat ++ bytesOf 4 (laneMask g.lanes).toNat ++ bytesOf 2 p.code.toNat ++
    bytesOf 1 p.flags.toNat ++ bytesOf 1 0 ++ bytesOf 8 p.addr.toNat ++ bytesOf 8 p.info.toNat ++
    bytesOf 2 (threadOf t low).slot ++ bytesOf 2 g.warp ++ bytesOf 2 t.core ++ bytesOf 2 0 ++
    bytesOf 8 (launchWord t.info).toNat ++ bytesOf 1 (w.c &&& 0xFE).toNat ++ bytesOf 7 0 ++
    (upto 8).flatMap (fun i => bytesOf 8 (uReg w (56 + i)).toNat)

/-- Kills parked lanes that cannot enter a handler and records their code (R387, R391). -/
def killParked (s : State) (k : Nat) (t : Team) (g : Grp) (p : Park) : State :=
  exitThreads (crumb s 0x0500 (unitOf 0 t.core) (bytesOf 2 p.code.toNat)) k (g.lanes.map (·.2))

/-- A parked sub-warp takes its trap (R387): the record is written, s56 names it, the sub-warp becomes privileged and
goes on at TRAPVEC. Without a vector, or a record that can be written, its lanes are killed. -/
def takeTrap (s : State) (k : Nat) (t : Team) (g : Grp) (p : Park) : State :=
  let c := ctxOf s t.info.ctx
  let low := (g.lanes.head?.map (·.2)).getD 0
  let a := recordAddr c.traprec t.core (threadOf t low).slot
  if c.trapvec = 0 ∨ c.traprec = 0 then killParked s k t g p
  else match translate s t.core t.info.ctx a .write true with
    | .error _ => killParked s k t g p
    | .ok l =>
      let s := coreStore (tlbFill s t.core t.info.ctx a.toNat) t.core l (l.phys a.toNat) (recordBytes t g p) 0 0 false
        (logAgent t.core (threadOf t low).slot)
      let s := countEvent s 0x800F8 (unitOf 0 t.core)
      modTeam s k (fun t => modGroup (modThreads (modWarp t g.warp (fun w => setU w 56 a)) (g.lanes.map (·.2))
          (fun th => { th with aside := th.pend, pend := [], unchecked := false })) g.gid (fun x =>
        { x with park := none, handler := true, code := p.code, record := a, pc := c.trapvec.setWidth 56 &&& ~~~3#56,
                 wait := .none, kept := x.pstep, pstep := 0, next := s.gtick, ready := s.gtick }))

/-- A thread of a home warp is inside a handler. -/
def insideHandler (t : Team) (w : Nat) : Bool :=
  t.groups.any (fun x => x.handler && x.lanes.any (fun l => l.2 / 32 == w)) ||
    t.bins.any (fun b => b.inside.isSome && b.filed.any (fun x => x.1 / 32 == w))

/-- The next parked sub-warp that may enter a handler: no other sub-warp of its home warp is inside one, and waiting
ones enter in ascending code order, then in order of parking (R387). Breakpoints never enter (R389). -/
def nextTrap (t : Team) : Option (Grp × Park) :=
  t.groups.foldl (fun best g =>
    match g.park with
    | none => best
    | some p =>
      if p.code = 0x41 ∨ insideHandler t g.warp then best
      else match best with
        | none => some (g, p)
        | some (_, q) =>
          if p.code.toNat < q.code.toNat ∨ (p.code = q.code ∧ p.order < q.order) then some (g, p) else best) none

/-- A fault of a lane inside a handler kills every thread of its team and counts in DBLFLT (R391). -/
def doubleFault (s : State) (k : Nat) : State :=
  killTeam (crumb (countReg s 0x80100 1) 0x0501 (unitOf 0 (k / 128)) []) k

/-- A sub-warp of a team has parked inside a handler; a breakpoint is no fault (R389). -/
def faultedInside (t : Team) : Bool :=
  t.groups.any (fun g => g.handler && (match g.park with
    | some p => p.code != 0x41
    | none => false))

/-- Every parked sub-warp of a team that can take its trap takes it. -/
def takeTraps (k : Nat) : Nat → State → State
  | 0, s => s
  | n + 1, s =>
    match tget s.teams k with
    | none => s
    | some t =>
      if s.cur.dry then s
      else if faultedInside t then doubleFault s k
      else match nextTrap t with
        | none => s
        | some (g, p) => takeTraps k n (takeTrap s k t g p)

/-- Parks lanes of the issuing group. A fault of a lane inside a handler kills its team (R391). -/
def raise (s : State) (k : Nat) (g : Grp) (flags : BitVec 8) (l : List (Nat × Park)) : State :=
  if l.isEmpty then s
  else if g.handler && l.any (fun x => x.2.code != 0x41) && !s.cur.dry then doubleFault s k
  else modTeam s k (fun t => parkLanes s.gtick t g flags l)

/-- How many traps a team can take in one step: every thread at most once. -/
def trapFuel : Nat := 4096

/-- The issuing instruction parks lanes and the team's traps are taken. -/
def trapLanes (s : State) (k : Nat) (g : Grp) (flags : BitVec 8) (l : List (Nat × Park)) : State :=
  takeTraps k trapFuel (raise s k g flags l)

/-- A uniform-set instruction parks every lane of its group (R387, R415). -/
def trapUniform (s : State) (g : Grp) (p : Park) : Out :=
  .next (trapLanes s s.cur.team g 2 (g.lanes.map (fun l => (l.2, p))))

end Sys2Proof.Machine
end

