-- ==== Sys2Proof/Machine/Scratch.lean ====
section
/-!
DEFINITION. What a read of scratchpad meets (R101, R384), and the queues that live in scratchpad (R115, R116, R150, R151,
R423).
-/

namespace Sys2Proof.Machine

/-! ### Poison and presence -/

def scratchPoisoned (s : State) (k pos n : Nat) : Bool :=
  match tget s.teams k with
  | some t => (granulesOf pos n).any (fun g => t.poison.contains g)
  | none => false

/-- One consumption of a team's poisoned scratchpad (R383, R384, R470): POISONRD counts it, and its first read of a granule
writes an event. -/
def consumeScratch (s : State) (k pos n : Nat) (unit : BitVec 16) : State :=
  let s := countReg s 0x800D0 1
  match tget s.teams k with
  | none => s
  | some t =>
    match (granulesOf pos n).find? (fun g => t.poison.contains g && !t.poisonSeen.contains g) with
    | some g =>
      modTeam (crumb s 0x0600 unit (bytesOf 4 0x800D0)) k (fun t => { t with poisonSeen := nadd t.poisonSeen g })
    | none => s

/-- A read of scratchpad: the bytes, zeros where it meets poison, and whether it does (R384). -/
def scratchRead (s : State) (k pos n : Nat) (unit : BitVec 16) : (List Byte × Bool) × State :=
  if scratchPoisoned s k pos n then ((List.replicate n 0, true), consumeScratch s k pos n unit)
  else ((scratchBytes s k pos n, false), s)

/-- Whether a spot's lines are all present (R101). A team that is saved has its lines absent until it is back. -/
def present (s : State) (p : Spot) (n : Nat) : Bool :=
  match tget s.teams p.team with
  | some t => !(t.absent.contains (p.pos / 128)) && !(t.absent.contains ((p.pos + n - 1) / 128))
  | none => p.team == goneTeam

/-! ### Queues -/

/-- Reads a descriptor (R115). -/
def readDescriptor (s : State) (k : Nat) (o : Word) : Option (Queue × Nat) :=
  match offWord s k o, offWord s k (o + 4), offWord s k (o + 8), offWord s k (o + 12), offWord s k (o + 16) with
  | some base, some cap, some head, some tail, some kinds =>
    some ({ base := base, cap := cap.toNat, pkind := kinds.extractLsb' 8 8 == 1,
            ckind := kinds.extractLsb' 16 8 == 1, head := head, tail := tail, clks := [], poppers := [],
            pushers := [] }, kinds.toNat)
  | _, _, _, _, _ => none

/-- The team that a queue's key names: the one whose scratchpad holds its descriptor. BASE is an offset of that team, so
that every team that names the queue reaches one ring (DEDUCED, log 83). -/
def queueTeam (key : Nat) : Nat := key / 2 ^ 32

/-- A descriptor QBIND accepts (R422): CAP, ESIZE, BASE, occupancy, the ring inside one window, PKIND and CKIND. -/
def descriptorUsable (s : State) (key : Nat) (q : Queue) (kinds : Nat) : Bool :=
  powerBetween q.cap 32 65536 && bitsAt kinds 0 8 == 2 && q.base.toNat % 4 == 0 &&
    decide ((q.tail - q.head).toNat ≤ q.cap) && decide (bitsAt kinds 8 8 ≤ 1) && decide (bitsAt kinds 16 8 ≤ 1) &&
    (match resolve s (queueTeam key) q.base (4 * q.cap) with
     | .ok _ => true
     | .error _ => false)

def occupancy (q : Queue) : Nat := (q.tail - q.head).toNat

/-- The queue bound to port `i` of a team (R37). -/
def boundKey (t : Team) (i : Nat) : Option Nat := t.ports.getD i none

/-- The port that a lane-register field names (R232). A new binding counts at once for every warp of the team; whether an
instruction of another warp that has not synchronised with the QBIND or QUNB sees it R333 leaves open (DESIGN CHOICE, log
84). -/
def portNamed (t : Team) (r : Nat) : Option Nat :=
  if 56 ≤ r then match boundKey t (r - 56) with
    | some _ => some (r - 56)
    | none => none
  else none

def queueOf (s : State) (key : Nat) : Option Queue := tget s.queues key

def setQueue (s : State) (key : Nat) (q : Queue) : State := { s with queues := tset s.queues key q }

/-- Whether a port of any team names a queue, so that the device keeps its HEAD and TAIL (R423). -/
def isBound (s : State) (key : Nat) : Bool := s.teams.any (fun t => t.2.ports.contains (some key))

/-- The clocks of the entries of a queue whose descriptor has just been read: those known from an earlier use. -/
def entryClks (s : State) (key : Nat) (q : Queue) : List Word :=
  match queueOf s key with
  | some o => if o.head == q.head && o.tail == q.tail then o.clks else List.replicate (occupancy q) 0
  | none => List.replicate (occupancy q) 0

/-- The queue a descriptor's offset names now: the device's copy while it is bound, else the descriptor as it stands. -/
def currentQueue (s : State) (k : Nat) (o : Word) : Option (Nat × Queue) :=
  match resolve s k o 4 with
  | .error _ => none
  | .ok p =>
    let key := spotKey p
    if isBound s key then (queueOf s key).map (fun q => (key, q))
    else match readDescriptor s k o with
      | none => none
      | some (q, _) =>
        let waiting := match queueOf s key with
          | some w => (w.poppers, w.pushers)
          | none => ([], [])
        some (key, { q with clks := entryClks s key q, poppers := waiting.1, pushers := waiting.2 })

/-- The offset of entry number `n` (R116). -/
def entryOff (q : Queue) (n : Nat) : Word := q.base + BitVec.ofNat 32 (4 * (n % q.cap))

/-- Writes HEAD and TAIL through to the descriptor (R423), which lies where the queue's key says. -/
def writeBack (s : State) (key : Nat) (q : Queue) : State :=
  scratchStore s (queueTeam key) (key % 2 ^ 32 + 8) (bytesOf 4 q.head.toNat ++ bytesOf 4 q.tail.toNat)

/-- The first request of a waiting list is `me`, or the list is empty (R151). -/
def myTurn (l : List (Nat × Nat)) (me : Nat × Nat) : Bool :=
  match l with
  | [] => true
  | x :: _ => x == me

def waitLast (l : List (Nat × Nat)) (me : Nat × Nat) : List (Nat × Nat) := if l.contains me then l else l ++ [me]

/-- The value of entry number `n`; a poisoned one reads 0 and counts (R384). -/
def readEntry (key : Nat) (q : Queue) (unit : BitVec 16) (s : State) (n : Nat) : Word × State :=
  match resolve s (queueTeam key) (entryOff q n) 4 with
  | .ok p =>
    let r := scratchRead s p.team p.pos 4 unit
    (BitVec.ofNat 32 (ofBytes r.1.1), r.2)
  | .error _ => (0, s)

def readEntries (key : Nat) (q : Queue) (unit : BitVec 16) : State → List Nat → List Word × State
  | s, [] => ([], s)
  | s, n :: r =>
    let (x, s) := readEntry key q unit s n
    let (xs, s) := readEntries key q unit s r
    (x :: xs, s)

/-- Pops `n` entries: the entries with their producers' clocks. HEAD advances (R150). -/
def popEntries (s : State) (key : Nat) (q : Queue) (me : Nat × Nat) (unit : BitVec 16) (n : Nat) :
    List (Word × Word) × State :=
  let (got, s) := readEntries key q unit s ((upto n).map (· + q.head.toNat))
  let q' := { q with head := q.head + BitVec.ofNat 32 n, clks := q.clks.drop n, poppers := q.poppers.filter (· != me) }
  ((upto n).map (fun i => (got.getD i 0, q.clks.getD i 0)), writeBack (setQueue s key q') key q')

/-- Pushes entries with their producer's clocks. TAIL advances (R150). The words of a ring are no lane's accesses: where
they lie in a checked window they are neither checked nor tagged, as the queue itself orders them (R124, R133; DESIGN
CHOICE, log 85). -/
def pushEntries (s : State) (key : Nat) (q : Queue) (me : Nat × Nat) (l : List (Word × Word)) : State :=
  let s := (upto l.length).foldl (fun s i =>
    setOffWord s (queueTeam key) (entryOff q (q.tail.toNat + i)) (l.getD i (0, 0)).1) s
  let q := { q with tail := q.tail + BitVec.ofNat 32 l.length, clks := q.clks ++ l.map (·.2),
                    pushers := q.pushers.filter (· != me) }
  writeBack (setQueue s key q) key q

/-- Whether every ring line that `n` entries from number `i` touch is present (R101). -/
def ringPresent (s : State) (key : Nat) (q : Queue) (i n : Nat) : Bool :=
  (upto n).all (fun j =>
    match resolve s (queueTeam key) (entryOff q (i + j)) 4 with
    | .ok p => present s p 4
    | .error _ => true)

/-- Whether a pop of `n` by `me` can be served now (R150, R151). -/
def canPop (q : Queue) (me : Nat × Nat) (n : Nat) : Bool := myTurn q.poppers me && decide (n ≤ occupancy q)

def canPush (q : Queue) (me : Nat × Nat) (n : Nat) : Bool := myTurn q.pushers me && decide (occupancy q + n ≤ q.cap)

end Sys2Proof.Machine
end

