-- ==== Sys2Proof/Machine/Race.lean ====
section
/-!
DEFINITION. Ordering qualifiers (R120 to R123), Praline tags and the race check (R117, R118, R132 to R138), and what a
race does (R397 to R401).
-/

namespace Sys2Proof.Machine

/-! ### Qualifiers -/

/-- What an access is after R122 and R123: its order, scope, use and quantum as they take effect. -/
structure Qual where
  order : BitVec 2
  scope : BitVec 2
  use : BitVec 3
  cache : BitVec 2
  quantum : Nat
deriving DecidableEq, Repr

def Qual.acquires (q : Qual) : Bool := q.order.getLsbD 0
def Qual.releases (q : Qual) : Bool := q.order.getLsbD 1

/-- The qualifiers of an access of a kind (R121 to R123): without MQ relaxed, plain (an atomic unpaired) and at device
scope. A store with order acquire and a use of its own is relaxed by the first row of R123 and keeps its use, though the
fifth row ignores the use of an access with an order (DESIGN CHOICE, log 87); likewise a load with order release. -/
def qualOf (q : Option Mq) (k : Kind) : Qual :=
  match q with
  | none => { order := 0, scope := 2, use := if k = .rmw then 1 else 0, cache := 0, quantum := 0 }
  | some m =>
    let order : BitVec 2 := match k with
      | .rmw => m.order
      | .write => m.order &&& 2
      | _ => m.order &&& 1
    let use : BitVec 3 :=
      if order ≠ 0 then 0
      else match k with
        | .rmw => if m.use = 2 ∨ m.use = 3 then m.use else 1
        | .write => if m.use = 4 ∨ m.use = 5 then 1 else m.use
        | _ => m.use
    { order := order, scope := m.scope, use := use, cache := m.cache, quantum := m.quantum.toNat }

/-- Whether an access counts as atomic for races (R120). -/
def Qual.atomic (q : Qual) (k : Kind) : Bool := k == .rmw || q.order != 0 || q.use != 0

/-- A speculative read is not checked (R129). -/
def Qual.speculative (q : Qual) (k : Kind) : Bool := k == .read && q.order == 0 && q.use == 5

/-- A read that may return an older value: quantum or speculative (R129). -/
def Qual.mayLag (q : Qual) (k : Kind) : Bool := k == .read && q.order == 0 && (q.use == 4 || q.use == 5)

/-! ### Tags (R134) -/

structure Tag where
  wclk : Word
  wagent : BitVec 24
  /-- RCLK or SCLK, and RAGENT or SSCOPE with SINST. -/
  rclk : Word
  ragent : BitVec 24
  sync : Bool
  wv : Bool
  rv : Bool
  watom : Bool
  unk : Bool
  ratom : Bool
deriving DecidableEq, Repr

def tagRead (x : BitVec 128) : Tag :=
  { wclk := x.extractLsb' 0 32, wagent := x.extractLsb' 32 24, rclk := x.extractLsb' 56 32,
    ragent := x.extractLsb' 88 24, sync := x.getLsbD 112, wv := x.getLsbD 113, rv := x.getLsbD 114,
    watom := x.getLsbD 115, unk := x.getLsbD 116, ratom := x.getLsbD 117 }

def tagBits (t : Tag) : BitVec 128 :=
  (0#10 ++ bit 1 t.ratom ++ bit 1 t.unk ++ bit 1 t.watom ++ bit 1 t.rv ++ bit 1 t.wv ++ bit 1 t.sync ++ t.ragent ++
    t.rclk ++ t.wagent ++ t.wclk : BitVec 128)

/-- The stamp a tag holds. -/
def Tag.stamp (t : Tag) : Option Stamp :=
  if t.sync then some { clock := t.rclk, scope := t.ragent.extractLsb' 22 2, inst := t.ragent.extractLsb' 0 22 } else none

/-- The agent number of a thread, an engine operation, the host and a fabric peer (R117). -/
def agentOf (kind core slot : Nat) : BitVec 24 := BitVec.ofNat 24 (kind * 2 ^ 22 + core * 4096 + slot)

/-- An access as the race machinery sees it: its agent, the clock it carries, what it does, the stamp its write leaves,
and whether its thread is saturated. -/
structure RAcc where
  agent : BitVec 24
  clk : Word
  kind : Kind
  atomic : Bool
  stamp : Option Stamp
  sat : Bool
deriving DecidableEq, Repr

def RAcc.writes (a : RAcc) : Bool := a.kind == .write || a.kind == .rmw

/-- The check of R135: none, or whether the conflict is with the recorded writer. -/
def raceOf (t : Tag) (a : RAcc) : Option Bool :=
  if t.unk || a.sat then none
  else if t.wv && t.wagent != a.agent && decide (a.clk.toNat ≤ t.wclk.toNat) && !(a.atomic && t.watom) then some true
  else if a.writes && t.rv && !t.sync && t.ragent != a.agent && decide (a.clk.toNat ≤ t.rclk.toNat) &&
      !(a.atomic && t.ratom) then some false
  else none

/-- The update of R135; a saturated thread's write makes the tag unknown and its read leaves it (R401). -/
def tagUpdate (t : Tag) (a : RAcc) : Tag :=
  if a.sat then (if a.writes then tagRead unkTag else t)
  else if a.writes then
    let t := { t with wagent := a.agent, wclk := a.clk, watom := a.atomic, wv := true, unk := false }
    match a.stamp with
    | some s => { t with sync := true, rclk := s.clock, ragent := (s.scope ++ s.inst : BitVec 24) }
    | none => if a.kind = .write then { t with sync := false, rv := false } else t
  else if !t.sync && (!t.rv || decide (t.rclk.toNat < a.clk.toNat)) then
    { t with ragent := a.agent, rclk := a.clk, ratom := a.atomic, rv := true }
  else t

/-! ### Where a tag is -/

/-- A checked granule: of global memory, with its shadow, or of a team's scratchpad. -/
inductive Granule where
  | global (g : Nat)
  | scratch (team g : Nat)
deriving DecidableEq, Repr

def granuleTag (s : State) : Granule → Tag
  | .global g => tagRead (tagOf s g)
  | .scratch k g =>
    match tget s.teams k with
    | some t => tagRead (cget 0 t.tags g)
    | none => tagRead 0

def setGranuleTag (s : State) (x : Granule) (t : Tag) : State :=
  match x with
  | .global g => setTag s g (tagBits t)
  | .scratch k g => modTeam s k (fun u => { u with tags := cset 0 u.tags g (tagBits t) })

/-- The unit that judges a granule's races, for Crumb events (R470). -/
def judge (core : Nat) : Granule → BitVec 16
  | .global g => unitOf 1 (homeSlice (32 * g))
  | .scratch _ _ => unitOf 0 core

/-- A write by the host, a fabric peer or a saturated thread leaves UNK alone (R135, R401). -/
def markUnknown (s : State) (x : Granule) : State := setGranuleTag s x (tagRead unkTag)

/-! ### Race records (R398, R399) -/

/-- What a race record says beside the tag. -/
structure Report where
  pc : BitVec 56
  mask : Word
  kindBits : Nat
  prior : Nat
  mode : Nat
  addr : BitVec 64
  agent : BitVec 24
  clk : Word
  oagent : BitVec 24
  oclk : Word
  qual : Nat
  tag : Tag
  launch : DWord
deriving DecidableEq, Repr

def reportBytes (now : Nat) (r : Report) : List Byte :=
  bytesOf 8 now ++ bytesOf 8 r.pc.toNat ++ bytesOf 4 r.mask.toNat ++ bytesOf 1 r.kindBits ++ bytesOf 1 r.prior ++
    bytesOf 1 r.mode ++ bytesOf 1 0 ++ bytesOf 8 r.addr.toNat ++ bytesOf 4 r.agent.toNat ++ bytesOf 4 r.clk.toNat ++
    bytesOf 4 r.oagent.toNat ++ bytesOf 4 r.oclk.toNat ++ bytesOf 1 r.qual ++
    bytesOf 1 ((r.tag.ragent.toNat / 2 ^ 22) * (if r.tag.sync then 1 else 0) + (if r.tag.sync then 128 else 0)) ++
    bytesOf 2 0 ++ bytesOf 4 (if r.tag.sync then r.tag.ragent.toNat % 2 ^ 22 else 0) ++ bytesOf 8 r.launch.toNat

/-- Writes a race record into the context's ring where it is enabled and has room, and counts the race (R398). The
answer is the race's number and whether its record was not written. -/
def reportRace (s : State) (ctx : Nat) (unit : BitVec 16) (r : Report) : (Nat × Bool) × State :=
  let base := (regGet s (0x80A00 + 32 * ctx)).toNat / 64 * 64 % 2 ^ 56
  let cfg := (regGet s (0x80A08 + 32 * ctx)).toNat
  let head := (regGet s (0x80A10 + 32 * ctx)).toNat
  let tail := (regGet s (0x80A18 + 32 * ctx)).toNat
  let cap := cfg % 2 ^ 24
  let enabled := decide (base ≠ 0) && powerBetween cap 64 (2 ^ 20)
  let room := decide ((head + 2 ^ 64 - tail) % 2 ^ 64 < cap)
  let s := if enabled && room then memWrite s (base + 64 * (head % cap)) (reportBytes s.gtick r) else s
  let s := if enabled && !room then
      regSet s (0x80A08 + 32 * ctx) (BitVec.ofNat 64 (cfg % 2 ^ 32 + min (cfg / 2 ^ 32 + 1) (2 ^ 32 - 1) * 2 ^ 32))
    else s
  let s := regSet s (0x80A10 + 32 * ctx) (BitVec.ofNat 64 (head + 1))
  ((head, !(enabled && room)), countEvent s 0x800D8 unit)

/-- INFO of code 0x14: n and whether the record was not written (R399). -/
def raceInfo (x : Nat × Bool) : BitVec 64 := BitVec.ofNat 64 (x.1 % 2 ^ 32 + (if x.2 then 2 ^ 32 else 0))

/-! ### The clocks of an access (R133) -/

/-- Before an access is checked: a release write takes its thread's clock up by 1 and carries the new clock and stamp. -/
def clkBefore (q : Qual) (k : Kind) (th : Thread) : Thread :=
  if q.releases && (k == .write || k == .rmw) then { bumpClk th with stamp := none } else th

/-- An acquire at the slot of a stamp the thread lies inside (R133). -/
def clkJoin (t : Team) (s : Option Stamp) (acq : Bool) (th : Thread) : Thread :=
  match s with
  | none => if acq then { th with seen := 0 } else th
  | some st =>
    if insideStamp t st.scope st.inst then
      if acq then { raiseClk th st.clock with seen := 0 }
      else { th with seen := if th.seen.toNat < st.clock.toNat then st.clock else th.seen }
    else if acq then { th with seen := 0 } else th

/-- An acquire read whose join would take the clock past 2^32 − 1 (R401). -/
def joinSaturates (t : Team) (s : Option Stamp) (acq : Bool) (th : Thread) : Bool :=
  match s with
  | some st => acq && !th.sat && insideStamp t st.scope st.inst && decide (2 ^ 32 ≤ max th.clk.toNat st.clock.toNat + 1)
  | none => false

/-- A saturated thread. -/
def saturate (due : Bool) (th : Thread) : Thread :=
  { th with clk := BitVec.ofNat 32 (2 ^ 32 - 1), sat := true, satDue := due }

/-- A thread as its access is checked: with the clock of a release, saturated where the acquire would saturate it. -/
def meetClk (t : Team) (q : Qual) (k : Kind) (s : Option Stamp) (th : Thread) : Thread :=
  let th := clkBefore q k th
  if joinSaturates t s (q.acquires && k != .write) th then saturate true th else th

/-- The stamp a thread's write leaves: its release's own, or that of its last FENCE.REL (R133). -/
def stampOf (t : Team) (q : Qual) (th : Thread) : Option Stamp :=
  if q.releases then some { clock := th.clk, scope := q.scope, inst := instanceOf t q.scope } else th.stamp

end Sys2Proof.Machine
end

