-- ==== Sys2Proof/Machine/Global.lean ====
section
/-!
DEFINITION. The management registers as accesses meet them (R358), what a core's loads, stores and atomics do to global
memory (R92, R103, R104, R125, R129, R384), and the check of an instruction's accesses to checked memory (R135, R397 to
R401).
-/

namespace Sys2Proof.Machine

/-! ### The management window (R358) -/

/-- PRECTL BUSY (R439). -/
def busySwitching (s : State) : Bool := s.preSave.isSome || s.ctxs.any (fun c => c.stat == 1 || c.stat == 3)

/-- What a management register reads (R358): the value in force, with the read-only parts the device keeps. -/
def mgmtRead (s : State) (off : Nat) : DWord :=
  if off = 0 then (Config.identHigh ++ 0x0009#16 : BitVec 64)
  else if off = 0x38 then (regGet s off &&& 3) ||| ((s.pstate.setWidth 64) <<< 8)
  else if off = 0x80600 then
    (regGet s off &&& 0xF) ||| (if busySwitching s then 0x10000 else 0)
  else if off = 0x600 then (regGet s off &&& 0x7FFFFFFFFFFFFFFF) ||| (if s.tlbinv.isSome then 0x8000000000000000 else 0)
  else if off = 0x700 then (regGet s off &&& 2)
  else if off = 0x80740 then regGet s off ||| (if s.gamrel.isSome then 0x200 else 0)
  else if off = 0x10 ∨ off = 0x48 ∨ off = 0x30900 then 0
  else if off = 0x30048 then
    (regGet s off &&& 1) ||| (if s.stopped then 2 else 0)
  else if off = 0x31000 then BitVec.ofNat 64 s.crHead
  else if 0x200 ≤ off ∧ off < 0x240 then
    regGet s off + (match tget s.below ((off - 0x200) / 8) with
      | some since => BitVec.ofNat 64 (s.gtick - since)
      | none => 0)
  else if off = 0x80368 then BitVec.ofNat 64 s.retired.length
  else if 0x20000 ≤ off ∧ off < 0x30000 then Config.idCert off
  else if 0x40000 ≤ off ∧ off < 0x80000 then
    -- event n lies at 64 × (n mod 4,096); the newest is at the head of the list
    let slot := (off - 0x40000) / 64
    let age := (s.crHead + 4095 - slot) % 4096
    match (if s.crHead = 0 then none else s.crumbs[age]?) with
    | none => 0
    | some c =>
      let n := s.crHead - 1 - age
      let b := bytesOf 8 c.tick ++ bytesOf 2 c.code.toNat ++ bytesOf 2 c.unit.toNat ++ bytesOf 4 n ++ c.data
      BitVec.ofNat 64 (bytesAt b ((off - 0x40000) % 64) 8)
  else if 0x81000 ≤ off ∧ off < 0x82000 then
    BitVec.ofNat 64 (4096 * s.retired.getD ((regGet s 0x80380).toNat % 128 * 512 + (off - 0x81000) / 8) 0)
  else if 0x806C0 ≤ off ∧ off < 0x80740 then
    let c := ctxOf s ((off - 0x806C0) / 8)
    BitVec.ofNat 64 (c.stat.toNat + c.records * 2 ^ 32)
  else if 0x80800 ≤ off ∧ off < 0x80A00 then
    let c := ctxOf s ((off - 0x80800) / 32)
    match (off - 0x80800) % 32 / 8 with
    | 0 => c.sbchk
    | 1 => c.racemode.setWidth 64
    | 2 => c.trapvec
    | _ => c.traprec
  else regGet s off

/-- The step that a write to a management register is (R358): the registers that act have steps of their own. -/
def mgmtStep (off : Nat) (v : DWord) : Instr :=
  if off = 0x8 ∧ v.getLsbD 0 then .bootctlGo
  else if off = 0x10 ∧ v.getLsbD 0 then .resetFull
  else if off = 0x10 ∧ v.getLsbD 1 then .resetCores
  else if off = 0x38 then .pstateWrite
  else if off = 0x48 then .lqscan
  else if off = 0x600 ∧ v.getLsbD 63 then (if v.getLsbD 62 then .tlbinvAll else .tlbinvAddress)
  else if off = 0x700 ∧ v.getLsbD 0 then .attestRequest
  else if off = 0x30048 ∧ v.getLsbD 2 then .stopResume
  else if off = 0x30080 ∧ v.getLsbD 0 then .repctlReplay
  else if 0x30400 ≤ off ∧ off < 0x30800 then .rlfillWrite
  else if off = 0x30900 then
    (match (v.extractLsb' 32 2).toNat with
     | 0 => .dbgresResume
     | 1 => .dbgresSkip
     | 2 => .dbgresKill
     | _ => .registerWrite)
  else if off = 0x80600 ∧ v.getLsbD 8 then .prectlSave
  else if off = 0x80600 ∧ v.getLsbD 9 then .prectlRestore
  else if off = 0x80740 ∧ v.getLsbD 8 then .gamrelStart
  else .registerWrite

/-- What that step acts on. -/
def mgmtArg (off : Nat) (v : DWord) : Arg :=
  { ro := off, v := v, ticket := v.setWidth 32, slice := (off - 0x30400) / 8 }

/-- A write to the management window takes place as a step of the device, after those made before it (R358). -/
def mgmtQueue (s : State) (off : Nat) (v : DWord) : State := { s with posted := s.posted ++ [(off, v)] }

/-! ### Reads, writes and atomics of a core -/

/-- Before an access past L1: the core's own dirty bytes go to memory, and its clean copies are dropped, so that no later
load of the core returns an older value (R125). -/
def settleL1 (s : State) (core pa n : Nat) : State :=
  flushL1 s core (fun a => decide (pa ≤ a) && decide (a < pa + n))

/-- A read that the home slice serves, past L1. After a last-use read a clean square is invalidated (R104). -/
def sliceRead (s : State) (core : Nat) (w : Way) (leaf : Leaf) (n rid : Nat) (cache : BitVec 2)
    (col : Option (BitVec 2)) : (List Byte × Bool) × State :=
  let s := if w.peer then s else settleL1 s core w.pa n
  let (lost, s) := atSlice s w leaf n rid cache false col
  if lost || poisoned s w.pa n then ((List.replicate n 0, true), consume s w.pa n (unitOf 0 core))
  else ((memRead s w.pa n, false), if cache = 2 then dropSquare s (w.pa / 1024) else s)

/-- After a last-use read the line's clean bytes leave L1 (R104). -/
def lastUse (s : State) (core pa : Nat) (cache : BitVec 2) : State :=
  if cache = 2 then dropL1 s core (fun a b => a / 128 == pa / 128 && !b.dirty) else s

/-- Whether L1 holds every byte of an access. -/
def l1Holds (s : State) (core pa n : Nat) : Bool := (upto n).all (fun i => (tget (coreOf s core).l1 (pa + i)).isSome)

/-- The bytes as a core sees them. -/
def coreBytes (s : State) (core pa n : Nat) : List Byte := (upto n).map (fun i => coreByte s core (pa + i))

/-- A read that L1 may serve (R103): on a miss its line is fetched through the home slice. -/
def l1Read (s : State) (core : Nat) (w : Way) (leaf : Leaf) (n rid : Nat) (cache : BitVec 2) : (List Byte × Bool) × State :=
  let line := w.pa / 128
  let s := modCore s core (noteLine (lineInfo s leaf w.pa rid cache none) line)
  if l1Holds s core w.pa n then ((coreBytes s core w.pa n, false), lastUse s core w.pa cache)
  else
    let (lost, s) := atSlice s { w with pa := 128 * line, far := w.far.map (fun x => (x.1 / 128 * 128, x.2)) } leaf 128 rid cache false
    if lost then ((List.replicate n 0, true), consume s w.pa n (unitOf 0 core))
    else
      let s := fillLine s core line
      let s := if cache = 2 then dropSquare s (w.pa / 1024) else s
      if l1Holds s core w.pa n then ((coreBytes s core w.pa n, false), lastUse s core w.pa cache)
      else ((List.replicate n 0, true), consume s w.pa n (unitOf 0 core))

/-- Reads bytes for a core (R103, R104, R384): the data, whether it met poison, and the machine afterwards. A read past the
clean bytes of L1, as an acquire of cluster scope or wider is, is `fresh` (R126, R128); one past L1 is `direct` (R226,
R294), along a column of `col`. -/
def coreRead (s : State) (core : Nat) (leaf : Leaf) (pa n rid : Nat) (cache : BitVec 2) (fresh direct : Bool)
    (col : Option (BitVec 2) := none) : (List Byte × Bool) × State :=
  let w := wayOf s leaf pa
  match w.management with
  | some off => (((bytesOf 8 (mgmtRead s (off / 8 * 8)).toNat).drop (off % 8) |>.take n, false), s)
  | none =>
    if w.inL1 && !direct then
      let s := if fresh then dropL1 s core (fun a b => a / 128 == w.pa / 128 && !b.dirty) else s
      l1Read s core w leaf n rid cache
    else sliceRead s core w leaf n rid cache col

/-- Writes bytes for a core: into L1, or through it to the home slice (R103, R126, R128). -/
def coreWrite (s : State) (core : Nat) (leaf : Leaf) (pa : Nat) (l : List Byte) (rid : Nat) (cache : BitVec 2)
    (through : Bool) (agent : Nat) : State :=
  match (wayOf s leaf pa).management with
  | some off => if off % 8 = 0 ∧ l.length = 8 then mgmtQueue s off (BitVec.ofNat 64 (ofBytes l)) else s
  | none => coreStore s core leaf pa l rid cache through agent

/-- Before an atomic or a merge at the home slice: the core's dirty bytes of the line go first and its copy is dropped
(R103). -/
def leaveL1 (s : State) (core : Nat) (w : Way) : State :=
  if w.peer then s else flushL1 s core (fun a => a / 128 == w.pa / 128)

/-- An atomic's update of one word at the home slice (R103, R148). The answer is the old word; poison reads 0, is consumed
at the slice (R470) and is replaced (R384). -/
def coreAtomic (s : State) (core : Nat) (leaf : Leaf) (pa n rid : Nat) (cache : BitVec 2) (f : Nat → Option Nat) :
    (Nat × State) :=
  let w := wayOf s leaf pa
  match w.management with
  | some off => ((mgmtRead s (off / 8 * 8)).toNat, s)
  | none =>
    let (lost, s) := atSlice (leaveL1 s core w) w leaf n rid cache true
    let unit := unitOf 1 (homeSlice w.pa)
    if lost then (0, consume s w.pa n unit)
    else
      let bad := poisoned s w.pa n
      let s := if bad then consume s w.pa n unit else s
      let old := if bad then 0 else ofBytes (memRead s w.pa n)
      match f old with
      | none => (old, s)
      | some v =>
        let s := memWrite s w.pa (bytesOf n v)
        (old, if w.peer then peerMark s (w.pa / 32) else s)

/-- A write of some bits of some bytes at the home slice, past L1 (R343). -/
def coreMerge (s : State) (core : Nat) (leaf : Leaf) (pa : Nat) (data mask : List Byte) (rid : Nat) (cache : BitVec 2) :
    State :=
  let w := wayOf s leaf pa
  match w.management with
  | some _ => s
  | none =>
    let (lost, s) := atSlice (leaveL1 s core w) w leaf data.length rid cache true
    if lost then s
    else
      let old := if poisoned s w.pa data.length then List.replicate data.length 0 else memRead s w.pa data.length
      let s := memWrite s w.pa ((upto data.length).map (fun i =>
        (old.getD i 0 &&& ~~~(mask.getD i 0)) ||| (data.getD i 0 &&& mask.getD i 0)))
      if w.peer then (granulesOf w.pa data.length).foldl peerMark s else s

/-! ### Which value a read returns (R125, R129) -/

/-- The value that a byte had when `c` writes had been made. -/
def byteAt (s : State) (c a : Nat) : Byte :=
  match ((cget [] s.past a).filter (fun x => decide (c ≤ x.1))).getLast? with
  | some x => x.2
  | none => memByte s a

/-- Which values of the bytes a thread may still read: not older than one it has met, or that its core has written back. -/
def floorOf (s : State) (core : Nat) (th : Thread) (pa n : Nat) : Nat :=
  ((upto n).map (fun i => max (cget 0 th.floors (pa + i)) (cget 0 (coreOf s core).wrote (pa + i)))).foldl max 0

/-- The values that a quantum or speculative read may return, each named by a number of writes at which it was memory's,
the newest first (R129): of a quantum read the last Q + 1, of a speculative read those held since the thread's last acquire
at the access's scope. Coherence and happens-before shut out those older than one the thread has met (R125); what
happens-before shuts out beyond that is taken to be all that was overwritten before the thread's last acquire of any scope
(DEDUCED, log 88). -/
def lagging (s : State) (core : Nat) (q : Qual) (th : Thread) (pa n : Nat) : List Nat :=
  let ns := ((upto n).flatMap (fun i => (cget [] s.past (pa + i)).map (·.1))).eraseDups
  let ns := sortBy (fun a b => decide (b ≤ a)) ns
  let since := if q.use = 4 then th.acq.getD 0 0 else th.acq.getD q.scope.toNat 0
  let ns := if q.use = 4 then ns.take q.quantum else ns
  s.writes :: ns.filter (fun c => decide (max since (floorOf s core th pa n) ≤ c))

/-- A quantum or speculative read (R129): a free choice among the values allowed, and the number that names it. -/
def lagRead (s : State) (core : Nat) (q : Qual) (th : Thread) (pa n : Nat) : (List Byte × Nat) × State :=
  let l := lagging s core q th pa n
  let c := l.getD ((Config.freeWord s.free).toNat % l.length) s.writes
  (((upto n).map (fun i => byteAt s c (pa + i)), c), { s with free := s.free + 1 })

/-- A thread has met the values of bytes: of those that have been written over, which (R125). -/
def meetValues (s : State) (pa n : Nat) (f : Nat → Nat) (th : Thread) : Thread :=
  { th with floors := (upto n).foldl (fun m i =>
      if (tget s.past (pa + i)).isSome then tset m (pa + i) (max (cget 0 m (pa + i)) (f (pa + i))) else m) th.floors }

/-- The number that names the value a byte has for a core: a clean byte's of L1, else memory's. -/
def valueSeq (s : State) (core a : Nat) : Nat :=
  match tget (coreOf s core).l1 a with
  | some b => if b.dirty then 0 else b.seq
  | none => s.writes

/-! ### The accesses of one instruction to checked memory -/

/-- One access as the race check sees it: its lane, its address for reports, its granules when they are checked, its
qualifiers and kind. -/
structure Probe where
  lane : Nat × Nat
  addr : BitVec 64
  granules : List Granule
  q : Qual
  kind : Kind
  scratch : Bool
deriving DecidableEq, Repr

/-- R399 KIND. -/
def kindBits (k : Kind) (q : Qual) (scratch : Bool) : Nat :=
  k.num + (if q.atomic k then 4 else 0) + (if scratch then 8 else 0) +
    (if q.releases && k != .read then 16 else 0) + (if q.acquires && k != .write then 32 else 0)

/-- R399 QUAL: order, scope and use. -/
def qualBits (q : Qual) : Nat := q.order.toNat + 4 * q.scope.toNat + 16 * q.use.toNat

/-- The access of a thread as the check sees it. -/
def raccOf (t : Team) (q : Qual) (k : Kind) (tid : Nat) : RAcc :=
  let th := threadOf t tid
  { agent := agentOf 0 t.core th.slot, clk := th.clk, kind := k, atomic := q.atomic k, stamp := stampOf t q th, sat := th.sat }

/-- The stamp of an access's granules. -/
def stampAt (s : State) (p : Probe) : Option Stamp := p.granules.findSome? (fun g => (granuleTag s g).stamp)

/-- A thread as its accesses `l` are checked (R133, R401): with the clock of a release, saturated where an acquire would
saturate it. -/
def meetLane (s : State) (t : Team) (l : List Probe) (th : Thread) : Thread :=
  let th := (l.find? (fun p => p.q.releases && p.kind != .read)).elim th (fun p => clkBefore p.q p.kind th)
  if l.any (fun p => joinSaturates t (stampAt s p) (p.q.acquires && p.kind != .write) th) then saturate true th else th

/-- The outcome of the check of one instruction: the lanes that park, and the machine with its records made. -/
structure Verdict where
  parks : List (Nat × Park)
  waits : Bool
  state : State
deriving DecidableEq, Repr

/-- A racing access: its granule, and whether the conflict is with the recorded writer. -/
abbrev Raced := Probe × Granule × Bool

/-- The race record of an access (R399). -/
def raceReport (s : State) (t : Team) (pc : BitVec 56) (mask : Word) (mode : Nat) (x : Raced) : Report :=
  let (p, g, prior) := x
  let tag := granuleTag s g
  { pc := pc, mask := mask, kindBits := kindBits p.kind p.q p.scratch,
    prior := (if prior then 1 else 0) + (if (if prior then tag.watom else tag.ratom) then 2 else 0), mode := mode,
    addr := p.addr, agent := agentOf 0 t.core (threadOf t p.lane.2).slot, clk := (threadOf t p.lane.2).clk,
    oagent := if prior then tag.wagent else tag.ragent, oclk := if prior then tag.wclk else tag.rclk,
    qual := qualBits p.q, tag := tag, launch := launchWord t.info }

/-- The race record of a saturation in report-only mode (R401). -/
def satReport (t : Team) (pc : BitVec 56) (p : Probe) : Report :=
  { pc := pc, mask := laneMask [p.lane], kindBits := kindBits p.kind p.q p.scratch, prior := 0, mode := 2, addr := p.addr,
    agent := agentOf 0 t.core (threadOf t p.lane.2).slot, clk := (threadOf t p.lane.2).clk, oagent := 0, oclk := 0,
    qual := qualBits p.q, tag := tagRead 0, launch := launchWord t.info }

/-- One race record per verdict source: its lowest racing lane, its mask (R399); in trap mode the lanes park. -/
def reportSource (t : Team) (pc : BitVec 56) (mode : Nat) (races : List Raced) (v : Verdict) (unit : BitVec 16) : Verdict :=
  let mine := races.filter (fun x => judge t.core x.2.1 == unit)
  match mine with
  | [] => v
  | x :: rest =>
    let low := rest.foldl (fun a b => if b.1.lane.1 < a.1.lane.1 then b else a) x
    let (n, s) := reportRace v.state t.info.ctx unit
      (raceReport v.state t pc (laneMask (mine.map (fun x => x.1.lane))) mode low)
    { v with state := s, parks := v.parks ++ (if mode = 1 then
        mine.map (fun x => (x.1.lane.2, { code := 0x14, addr := x.1.addr, info := raceInfo n, flags := 0, order := 0 }))
      else []) }

/-- A thread whose saturation no access has met yet meets it at its first checked access (R401): it counts, and in
report-only mode makes a record. -/
def meetSat (t : Team) (pc : BitVec 56) (mode : Nat) (s : State) (p : Probe) : State :=
  let s := countEvent s 0x800E0 (unitOf 0 t.core)
  if mode = 2 then (reportRace s t.info.ctx (unitOf 0 t.core) (satReport t pc p)).2 else s

/-- The accesses of an instruction that are checked (R117, R309, R129). -/
def checkedProbes (t : Team) (l : List Probe) : List Probe :=
  l.filter (fun p => !p.granules.isEmpty && !liveHelper t p.lane.2 && !p.q.speculative p.kind)

/-- Whether a group waits for the verdicts on its accesses (R138); those of saturated threads have none (R401). -/
def verdictDue (s : State) (t : Team) (l : List Probe) : Bool :=
  let mode := (ctxOf s t.info.ctx).racemode.toNat
  (mode = 1 ∨ mode = 2) && !((checkedProbes t l).all (fun p => (threadOf t p.lane.2).sat))

/-- Checks all the accesses of one instruction (R135, R397, R401): every lane against the tags as they stand. The team is as
`meetLane` leaves its threads. -/
def judgeAccesses (s : State) (t : Team) (pc : BitVec 56) (l : List Probe) : Verdict :=
  let mode := (ctxOf s t.info.ctx).racemode.toNat
  let waits := verdictDue s t l
  let l := checkedProbes t l
  let due := ((l.map (·.lane)).eraseDups.filterMap (fun x => l.find? (fun p => p.lane == x))).filter
    (fun p => (threadOf t p.lane.2).satDue)
  let s := due.foldl (meetSat t pc mode) s
  let satParks := if mode = 1 then
      due.map (fun p => (p.lane.2, { code := 0x15, addr := p.addr, info := 0, flags := 0, order := 0 : Park }))
    else []
  let open' := l.filter (fun p => !satParks.any (fun x => x.1 == p.lane.2) && !(threadOf t p.lane.2).unchecked)
  let races := if mode = 1 ∨ mode = 2 then
      open'.filterMap (fun p => p.granules.findSome? (fun g =>
        (raceOf (granuleTag s g) (raccOf t p.q p.kind p.lane.2)).map (fun w => (p, g, w))))
    else []
  ((races.map (fun x => judge t.core x.2.1)).eraseDups).foldl (reportSource t pc mode races)
    { parks := satParks, waits := waits, state := s }

/-- The tag of a granule after an access of a thread (R135). -/
def tagAccess (t : Team) (p : Probe) (s : State) (g : Granule) : State :=
  setGranuleTag s g (tagUpdate (granuleTag s g) (raccOf t p.q p.kind p.lane.2))

/-- The tags after one access (R135); a helper lane's and a speculative read leave them. -/
def updateTags (s : State) (t : Team) (p : Probe) : State :=
  if liveHelper t p.lane.2 || p.q.speculative p.kind then s else p.granules.foldl (tagAccess t p) s

/-- Threads whose accesses are checked now have met their saturation, and RTE's ACK and the leave from watches are used up
(R375, R400, R401). -/
def checkDone (checked : Bool) (th : Thread) : Thread :=
  { th with satDue := th.satDue && !checked, unchecked := false, unwatched := false }

end Sys2Proof.Machine
end

