-- ==== Sys2Proof/Machine/Operands.lean ====
section
/-!
DEFINITION. How instructions get their operands and give their results: the issue checks on registers (R422, R424),
pops and pushes of bound ports (R150, R256, R471), the frame of a lane-set form and of a uniform-set form (R26, R228,
R233, R308, R426).
-/

namespace Sys2Proof.Machine

/-! ### Checks at issue -/

/-- A lane register that is not there: v32 to v63 without an extended block, where no port stands (R424). -/
def missingReg (t : Team) (tid : Nat) (regs : List Nat) : Option Nat :=
  regs.find? (fun r => decide (32 ≤ r) && (portNamed t r).isNone && !hasExt t tid)

/-- The lanes that park for want of a register: code 0x01, REASON 8. -/
def extFaults (s : State) (t : Team) (part : List (Nat × Nat)) (regs : List Nat) : List (Nat × Park) :=
  part.filterMap (fun l => (missingReg t l.2 regs).map (fun r => (l.2, parkOf s 1 r 8)))

/-- The registers of the list that name a bound port where the form allows none: code 0x01, REASON 6 in every lane
(R422). -/
def portFaults (s : State) (t : Team) (part : List (Nat × Nat)) (regs : List Nat) : List (Nat × Park) :=
  match regs.find? (fun r => (portNamed t r).isSome) with
  | none => []
  | some r => part.map (fun l => (l.2, parkOf s 1 r 6))

/-- The place of a fault's REASON in the order of its code: R393 for translation and protection, else ascending (R415). -/
def reasonRank (p : Park) : Nat :=
  let r := (p.info.extractLsb' 8 8).toNat
  if p.code = 0x10 then [4, 3, 0, 2, 1].getD r 5
  else if p.code = 0x11 then [5, 3, 4, 2, 0, 1].getD r 5
  else if p.code.toNat ≤ 4 ∨ p.code = 0x13 then (p.info.extractLsb' 0 8).toNat
  else 0

/-- A lane reports the fault that stands first (R389, R393, R415): the lower code, then the earlier REASON. -/
def worseFault (a b : Park) : Bool :=
  decide (b.code.toNat < a.code.toNat) || (a.code == b.code && decide (reasonRank b < reasonRank a))

/-- The fault of several that stands first. -/
def firstPark (l : List Park) : Option Park :=
  l.foldl (fun a p => match a with
    | none => some p
    | some b => if worseFault b p then some p else some b) none

/-- One fault per lane. -/
def mergeFaults (l : List (Nat × Park)) : List (Nat × Park) :=
  l.foldl (fun acc x =>
    match acc.find? (fun y => y.1 == x.1) with
    | none => acc ++ [x]
    | some y => if worseFault y.2 x.2 then acc.map (fun z => if z.1 == x.1 then x else z) else acc) []

/-- Runs a lane-set form: the lanes with a fault park, the others carry it out, and traps are taken (R26, R392). -/
def laneForm (s : State) (faults : Team → Grp → List (Nat × Nat) → List (Nat × Park))
    (run : State → Team → Grp → List (Nat × Nat) → Out) : Out :=
  withIssuer s (fun t g =>
    let part := takesPart t g s.cur.hdr.guard
    let bad := mergeFaults (faults t g part)
    if bad.isEmpty then run s t g part
    else
      let k := s.cur.team
      let s1 := raise s k g 0 bad
      match issuer s1 with
      | none => .next (takeTraps k trapFuel s1)
      | some (t1, g1) =>
        match run s1 t1 g1 (part.filter (fun l => !bad.any (fun x => x.1 == l.2))) with
        | .next s2 => .next (takeTraps k trapFuel s2)
        | o => o)

/-! ### Ports -/

/-- The lanes of a pop or push: those that take part and are no helpers. -/
def setPend (t : Team) (i : Nat) (l : List (Nat × Word)) : Team :=
  l.foldl (fun t x => modThread t x.1 (fun th => { th with pend := padSet 0 th.pend i x.2 })) t

/-- Gets operand `i` when register `r` names a port: pops it, or joins the queue's waiting requests (R150, R151). The
answer says whether the group may go on. -/
def popOperand (s : State) (k gid : Nat) (part : List (Nat × Nat)) (i r : Nat) : Bool × State :=
  match tget s.teams k with
  | none => (true, s)
  | some t =>
    match portNamed t r, groupOf t gid with
    | some p, some g =>
      let ids := (notHelper t part).map (·.2)
      if i < g.pstep ∨ ids = [] then (true, s)
      else match boundKey t p with
        | none => (true, s)
        | some key =>
          match queueOf s key with
          | none => (true, s)
          | some q =>
            let me := (k, gid)
            if canPop q me ids.length then
              let (got, s) := popEntries s key q me (unitOf 0 t.core) ids.length
              (true, modTeam s k (fun t =>
                let t := setPend t i (ids.zip (got.map (·.1)))
                let t := (ids.zip (got.map (·.2))).foldl (fun t x => modThread t x.1 (fun th => acquireAt s.writes 0 (raiseClk th x.2))) t
                modGroup t gid (fun g => { g with pstep := i + 1 })))
            else
              (false, modTeam (setQueue s key { q with poppers := waitLast q.poppers me }) k (fun t =>
                modGroup t gid (fun g => { g with wait := .port i p s.cur.len })))
    | _, _ => (true, s)

/-- Gets the operands one after another, VA first (R150). -/
def popOperands (s : State) (k gid : Nat) (part : List (Nat × Nat)) : Nat → List Nat → Bool × State
  | _, [] => (true, s)
  | i, r :: rest =>
    match popOperand s k gid part i r with
    | (true, s) => popOperands s k gid part (i + 1) rest
    | (false, s) => (false, s)

/-- Operand `i` of a thread, register `r`: a popped entry, of which a helper lane gets 0, or the register. -/
def operand (t : Team) (i r tid : Nat) : Word :=
  if (portNamed t r).isSome then (if liveHelper t tid then 0 else (threadOf t tid).pend.getD i 0)
  else laneReg t tid r

/-- The group holds its results and waits to push them (R150, R444). -/
def holdPush (s : State) (k gid p len : Nat) (key : Nat) (q : Queue) (res : List (Nat × Word)) : State :=
  let s := setQueue s key { q with pushers := waitLast q.pushers (k, gid) }
  modTeam s k (fun t => modGroup (setPend t 0 res) gid (fun g => { g with pstep := 3, wait := .port 3 p len }))

/-- Gives results to register `vd` of the lanes, or pushes them when it names a port; then the group goes on. -/
def deliver (s : State) (k : Nat) (vd : Nat) (res : List (Nat × Word)) : State :=
  match tget s.teams k with
  | none => s
  | some t =>
    match portNamed t vd with
    | none => setTeam s k (advance s (res.foldl (fun t x => setLaneReg t x.1 vd x.2) t))
    | some p =>
      let mine := res.filter (fun x => !liveHelper t x.1)
      match boundKey t p with
      | none => setTeam s k (advance s t)
      | some key =>
        match queueOf s key with
        | none => setTeam s k (advance s t)
        | some q =>
          if mine.isEmpty then setTeam s k (advance s t)
          else if canPush q (k, s.cur.gid) mine.length then
            let s := pushEntries s key q (k, s.cur.gid) (mine.map (fun x => (x.2, (threadOf t x.1).clk)))
            modTeam s k (advance s)
          else holdPush s k s.cur.gid p s.cur.len key q mine

/-- The results a group has held since its push had to wait. -/
def heldResults (t : Team) (part : List (Nat × Nat)) : List (Nat × Word) :=
  (notHelper t part).map (fun l => (l.2, (threadOf t l.2).pend.getD 0 0))

/-- What a lane-set form does that computes one register from others: `rs` are its sources in the order of their pops, `f`
gives the result of lane `l` from the operands of every lane. -/
def resultBody (rs : List (BitVec 6)) (vd : BitVec 6)
    (f : Team → Grp → List (Nat × Nat) → (Nat → Nat → Word) → Nat × Nat → Word) (s : State) (t : Team) (g : Grp)
    (part : List (Nat × Nat)) : Out :=
  let k := s.cur.team
  let regs := rs.map (·.toNat)
  if g.pstep = 3 then .next (deliver s k vd.toNat (heldResults t part))
  else match popOperands s k g.gid part 0 regs with
    | (false, s) => .next s
    | (true, s) =>
      match tget s.teams k with
      | none => .next s
      | some t =>
        let ops := fun i tid => operand t i (regs.getD i 0) tid
        .next (deliver s k vd.toNat (part.map (fun l => (l.2, f t g part ops l))))

/-- A lane-set form that computes one register from others. -/
def laneResult (rs : List (BitVec 6)) (vd : BitVec 6)
    (f : Team → Grp → List (Nat × Nat) → (Nat → Nat → Word) → Nat × Nat → Word) (s : State) : Out :=
  laneForm s (fun t _ part => extFaults s t part (vd.toNat :: rs.map (·.toNat))) (resultBody rs vd f)

/-- The old value of VD for the forms that read it; a port in VD reads 0 there (R256). -/
def oldVd (t : Team) (vd : BitVec 6) (tid : Nat) : Word :=
  if (portNamed t vd.toNat).isSome then 0 else laneReg t tid vd.toNat

/-- One source register. -/
def laneUn (vd va : BitVec 6) (f : Word → Word) (s : State) : Out :=
  laneResult [va] vd (fun _ _ _ o l => f (o 0 l.2)) s

/-- Two source registers. -/
def laneBin (vd va vb : BitVec 6) (f : Word → Word → Word) (s : State) : Out :=
  laneResult [va, vb] vd (fun _ _ _ o l => f (o 0 l.2) (o 1 l.2)) s

/-- Two source registers and the old value of VD, which comes first. -/
def laneTern (vd va vb : BitVec 6) (f : Word → Word → Word → Word) (s : State) : Out :=
  laneResult [va, vb] vd (fun t _ _ o l => f (oldVd t vd l.2) (o 0 l.2) (o 1 l.2)) s

/-- A lane-set form that writes a predicate of each lane that takes part from two sources (R234). -/
def lanePredOp (pd : BitVec 3) (va vb : BitVec 6) (f : Bool → Word → Word → Bool) (s : State) : Out :=
  let regs := [va.toNat, vb.toNat]
  laneForm s (fun t _ part => extFaults s t part regs) (fun s _ g part =>
    let k := s.cur.team
    match popOperands s k g.gid part 0 regs with
    | (false, s) => .next s
    | (true, s) =>
      .next (modTeam s k (fun t =>
        let res := part.map (fun l => (l.2,
          f (lanePred (threadOf t l.2) pd.toNat) (operand t 0 va.toNat l.2) (operand t 1 vb.toNat l.2)))
        advance s (res.foldl (fun t x => modThread t x.1 (fun th => setLanePred th pd.toNat x.2)) t))))

/-! ### The frame of a uniform-set form -/

/-- A group that can still come to the place where lanes split from it wait (R26): it is not at a reconvergence point. -/
def stillComes (g : Grp) : Bool :=
  g.park.isSome || g.handler || (match g.wait with
    | .rcv => false
    | .rejoin _ _ => false
    | _ => true)

def waitsForKin (g : Grp) : Bool :=
  g.park.isNone && !g.handler && (match g.wait with
    | .retry .kin => true
    | _ => false)

/-- The other groups that a group has been split from by parking and that can still come. -/
def kinOf (t : Team) (g : Grp) : List Grp :=
  t.groups.filter (fun x => x.gid != g.gid && x.warp == g.warp && stillComes x && x.split.any (fun i => g.split.contains i))

/-- Before a uniform write the lanes split by a parking come together (R26): the group merged with its kin at the same
PC, or nothing while some kin is on its way. A handler does not wait. -/
def joinKin (t : Team) (g : Grp) : Option (Team × Grp) :=
  if g.handler || g.split.isEmpty then some (t, g)
  else
    let kin := kinOf t g
    if kin.all waitsForKin then
      let here := kin.filter (fun x => x.pc == g.pc)
      let g' := { g with lanes := here.foldl (fun l x => mergeLanes x.lanes l) g.lanes, split := [], wait := .none }
      let gs := t.groups.filter (fun x => !here.any (fun y => y.gid == x.gid))
      some ({ t with groups := gs.map (fun x => if x.gid == g.gid then g' else x) }, g')
    else none

/-- What an instruction finds wrong with code 0x01, which is reported before 0x02 (R389, R415). -/
abbrev Check := State → Team → Grp → Option Park

def noCheck : Check := fun _ _ _ => none

/-- A uniform-set form in the wrong place (R426): each lane reports what its home warp finds wrong with code 0x01, else
code 0x02 and the reason. -/
def misplaced (chk : Check) (s : State) (t : Team) (g : Grp) (reason : Nat) : Out :=
  .next (trapLanes s s.cur.team g 2 (g.lanes.map (fun l =>
    (l.2, (chk s t { g with warp := l.2 / 32 }).getD (parkOf s 2 0 reason)))))

/-- Runs a uniform-set form (R29, R233, R308, R426): not in a formation; with a false guard it only takes its slot; not
for a warp with regrouped threads, whose lanes issue lane-set instructions only (R30; that REASON 5 stands for every
uniform-set word then is DEDUCED, log 86); a form that writes uniform state waits for parked kin. A handler is the home
warp's own and runs while its other threads are regrouped (R390). -/
def uniformForm (writes : Bool) (s : State) (run : State → Team → Grp → Out) (chk : Check := noCheck) : Out :=
  withIssuer s (fun t g =>
    if g.formation || (g.masked && !g.handler && !writes) then misplaced chk s t g 3
    else if !uFlag (warpOf t g.warp) s.cur.hdr.guard.toNat then finish s t
    else if regrouped t g.warp && !g.handler then misplaced chk s t g 5
    else if writes then
      match joinKin t g with
      | none => waitFor s t (.retry .kin)
      | some (t', g') => run (setTeam s s.cur.team t') t' g'
    else run s t g)

/-- A uniform-set form that writes one uniform register from the warp's state. -/
def uniformResult (sd : BitVec 6) (f : Warp → DWord) (s : State) : Out :=
  uniformForm true s (fun s t g => finish s (modWarp t g.warp (fun w => setU w sd.toNat (f w))))

/-- One uniform source. -/
def uniUn (sd sa : BitVec 6) (f : DWord → DWord) (s : State) : Out :=
  uniformResult sd (fun w => f (uReg w sa.toNat)) s

/-- Two uniform sources. -/
def uniBin (sd sa sb : BitVec 6) (f : DWord → DWord → DWord) (s : State) : Out :=
  uniformResult sd (fun w => f (uReg w sa.toNat) (uReg w sb.toNat)) s

end Sys2Proof.Machine
end

