-- ==== Sys2Proof/Machine/Access.lean ====
section
/-!
DEFINITION. The accesses of one memory instruction: the probe stage (R392 to R396), watches (R374, R376), the entries of
outstanding requests (R287), the race check and its clocks (R133, R135, R138, R397, R401), the gates of a replay (R379),
STOREHASH (R380), and the accesses themselves in lane order (R126, R148).
-/

namespace Sys2Proof.Machine

/-- Which storage a form reaches. -/
inductive Space where
  | global | scratch
deriving DecidableEq, Repr

/-! ### Watches and breakpoints (R374, R376) -/

/-- One word of a watch (R376). -/
def watchWord (s : State) (i j : Nat) : Nat := (regGet s (0x30800 + 32 * i + 8 * j)).toNat

/-- The first watch of the context and kind (0 exec, 1 load, 2 store, 3 data) whose range `n` bytes at `va` touch; a
data watch also compares the aligned words `words` stored. -/
def watchHit (s : State) (ctx kind va n : Nat) (words : List (Nat × Nat)) : Option Nat :=
  (upto 8).find? (fun i =>
    let a := watchWord s i 0 % 2 ^ 56
    let len := watchWord s i 1 % 2 ^ 32
    let c := watchWord s i 3
    let touches := fun (x m : Nat) => decide (x < a + len) && decide (a < x + m)
    c.testBit 0 && bitsAt c 1 2 == kind && bitsAt c 4 4 == ctx &&
      (if kind = 3 then
        words.any (fun w => touches w.1 4 &&
          decide ((w.2 ^^^ bitsAt (watchWord s i 2) 0 32) &&& bitsAt (watchWord s i 2) 32 32 = 0))
      else touches va n))

/-- The park of a lane at a breakpoint. -/
def breakPark (va : BitVec 64) : Park := { code := 0x41, addr := va, info := 0, flags := 0, order := 0 }

/-- The team stops for a breakpoint (R374): the first hit is kept for its record, with its tick (R371). -/
def stopTeam (now : Nat) (t : Team) (mask : Word) (va : BitVec 64) (watch : BitVec 16) : Team :=
  match t.brk with
  | some _ => t
  | none => { t with brk := some (mask.toNat, va, watch, now) }

/-! ### Plans -/

/-- One access that a lane asks for: the `ix`-th of its instruction, `w` bytes at an address aligned to `align`, under a
residency id. -/
structure Want where
  lane : Nat × Nat
  ix : Nat
  addr : BitVec 64
  w : Nat
  align : Nat
  rid : Nat := 0
deriving DecidableEq, Repr

/-- An access after the probe stage: where its bytes are. -/
structure Plan where
  lane : Nat × Nat
  ix : Nat
  addr : BitVec 64
  w : Nat
  rid : Nat
  leaf : Leaf
  pa : Nat
  spot : Spot
deriving DecidableEq, Repr

def noLeaf : Leaf := { pa := 0, size := 1, flags := 0 }
def noSpot : Spot := { team := 0, pos := 0, chk := false }

/-- An access as it is asked for, before anything is known of its place. -/
def Want.plan (x : Want) (leaf : Leaf) (pa : Nat) (spot : Spot) : Plan :=
  { lane := x.lane, ix := x.ix, addr := x.addr, w := x.w, rid := x.rid, leaf := leaf, pa := pa, spot := spot }

/-- Probes a global access (R393): the plan, or the park. -/
def probeGlobal (s : State) (t : Team) (priv : Bool) (k : Kind) (x : Want) : Except Park Plan :=
  match translate s t.core t.info.ctx x.addr k priv with
  | .error e => .error { code := BitVec.ofNat 16 e.code, addr := x.addr, info := e.info k, flags := 0, order := 0 }
  | .ok leaf =>
    if x.addr.toNat % x.align ≠ 0 then
      .error { code := 0x12, addr := x.addr, info := BitVec.ofNat 64 x.align, flags := 0, order := 0 }
    else .ok (x.plan leaf (leaf.phys x.addr.toNat) noSpot)

/-- Probes a scratchpad access (R395). -/
def probeScratch (s : State) (x : Want) : Except Park Plan :=
  if x.addr.toNat % x.align ≠ 0 then
    .error { code := 0x12, addr := x.addr, info := BitVec.ofNat 64 x.align, flags := 0, order := 0 }
  else match resolve s s.cur.team (x.addr.setWidth 32) x.w with
    | .error r => .error { code := 0x13, addr := x.addr, info := boundInfo (x.addr.setWidth 32) r, flags := 0, order := 0 }
    | .ok p => .ok (x.plan noLeaf 0 p)

/-- The address a lane forms from s[SB] and its offset (R284, R285). -/
def laneAddr (sp : Space) (base : DWord) (x : Word) : BitVec 64 :=
  match sp with
  | .global => base + x.setWidth 64
  | .scratch => (base.setWidth 32 + x).setWidth 64

def probeOne (s : State) (t : Team) (priv : Bool) (sp : Space) (k : Kind) (x : Want) : Except Park Plan :=
  match sp with
  | .global => probeGlobal s t priv k x
  | .scratch => probeScratch s x

/-- The granules a plan's bytes touch, where they are checked. An access through the own node's peer window is a peer's,
which is not checked (R92, R117). -/
def planGranules (s : State) (sp : Space) (p : Plan) : List Granule :=
  match sp with
  | .global => if p.leaf.checked && !(wayOf s p.leaf p.pa).peer then (granulesOf p.pa p.w).map .global else []
  | .scratch => if p.spot.chk then (granulesOf p.spot.pos p.w).map (.scratch p.spot.team) else []

def probeOf (s : State) (sp : Space) (q : Qual) (k : Kind) (p : Plan) : Probe :=
  { lane := p.lane, addr := p.addr, granules := planGranules s sp p, q := q, kind := k, scratch := sp == .scratch }

/-- A walk that the probe stage had to make fills the TLB, and a checked square's tags are read from their shadow. -/
def planTouch (t : Team) (sp : Space) (s : State) (p : Plan) : State :=
  match sp with
  | .scratch => s
  | .global =>
    let s := tlbFill s t.core t.info.ctx p.addr.toNat
    if (planGranules s sp p).isEmpty then s
    else match shadowOf p.leaf p.pa with
      | some sh => touchSquare s p.pa 0 p.rid none (some sh) false
      | none => s

/-! ### STOREHASH (R380) -/

/-- The aligned words that bytes at an address touch, the other bytes zero. -/
def storeWords (addr : Nat) (l : List Byte) : List (Nat × Nat) :=
  (wordsOf addr l.length).map (fun a =>
    (a, ofBytes ((upto 4).map (fun i =>
      if addr ≤ a + i ∧ a + i < addr + l.length then l.getD (a + i - addr) 0 else 0))))

def hashWord (h : DWord) (w : Nat × Nat) : DWord :=
  rotl64 h 7 ^^^ BitVec.ofNat 64 (w.1 % 2 ^ 32 * 2 ^ 32 + w.2)

def hashStore (t : Team) (warp : Nat) (addr : Nat) (l : List Byte) : Team :=
  modWarp t warp (fun w => { w with storehash := (storeWords addr l).foldl hashWord w.storehash })

/-- Insertion by address. -/
def insertMade (x : Made) : List Made → List Made
  | [] => [x]
  | y :: r => if x.addr < y.addr then x :: y :: r else y :: insertMade x r

/-- STOREHASH takes the writes of an instruction: by lane, within a lane by address (R380). A thread's writes go to its home
warp's hash; those of a uniform access to the group's, which is the home warp of its lane. -/
def hashMade (lanes : List (Nat × Nat)) (l : List Made) (t : Team) : Team :=
  lanes.foldl (fun t x =>
    ((l.filter (fun m => m.tid == x.2 && !m.stored.isEmpty)).foldl (fun acc m => insertMade m acc) []).foldl
      (fun t m => hashStore t (x.2 / 32) m.addr m.stored) t) t

/-! ### What a memory form does -/

/-- What a memory form does with the bytes of an access, named by thread and index: reads them, `direct` past L1, along a
column of width `col`; writes data; writes data under a bit mask; or updates a word. -/
inductive Act1 where
  | load (direct : Bool) (col : Option (BitVec 2))
  | store (data : Nat → Nat → List Byte)
  | storeL2 (data : Nat → Nat → List Byte)
  | merge (data : Nat → Nat → List Byte × List Byte)
  | atomic (f : Nat → Nat → Option Nat)

def Act1.kind : Act1 → Kind
  | .load _ _ => .read
  | .store _ => .write
  | .storeL2 _ => .write
  | .merge _ => .write
  | .atomic _ => .rmw

/-- The bytes a plan stores and the mask of the bits that it writes. -/
def Act1.stored (a : Act1) (p : Plan) : List Byte × List Byte :=
  match a with
  | .store d => (d p.lane.2 p.ix, List.replicate p.w 0xFF)
  | .storeL2 d => (d p.lane.2 p.ix, List.replicate p.w 0xFF)
  | .merge d => d p.lane.2 p.ix
  | _ => ([], [])

/-- The bits that a plan writes, the others zero. -/
def Act1.written (a : Act1) (p : Plan) : List Byte :=
  let x := a.stored p
  (upto x.1.length).map (fun i => x.1.getD i 0 &&& x.2.getD i 0)

/-- One kind of access of an instruction; `act` gets what the earlier ones have read. -/
structure Job where
  q : Qual
  act : List (Plan × List Byte × Bool) → Act1
  wants : List Want

/-- The accesses of one instruction: the storage they reach; whether they are the group's, made once by its representative
(R309); whether it is one of the memory instructions that take entries and are sampled (R287, R377), and the lane and
uniform registers (64 and up) that its answer writes (R167). -/
structure Form where
  sp : Space
  uni : Bool
  note : Bool
  dest : List Nat
  jobs : List Job

abbrev Answer := Plan × List Byte × Bool

/-! ### The probe stage -/

/-- The value that a word of global memory has after a plan's write, as a data watch compares it (R376). -/
def wordAfter (s : State) (core : Nat) (a : Act1) (p : Plan) (va : Nat) : Nat :=
  let x := a.stored p
  ofBytes ((upto 4).map (fun i =>
    let at' := p.pa + (va + i) - p.addr.toNat
    let old := coreByte s core (homePa s at')
    if p.addr.toNat ≤ va + i ∧ va + i < p.addr.toNat + x.1.length then
      let j := va + i - p.addr.toNat
      (old &&& ~~~(x.2.getD j 0)) ||| (x.1.getD j 0 &&& x.2.getD j 0)
    else old))

/-- What a plan hits among the watches. -/
def planHit (s : State) (t : Team) (sp : Space) (a : Act1) (p : Plan) : Option Nat :=
  if sp == .scratch || (threadOf t p.lane.2).unwatched then none
  else
    match (if a.kind == .write then none else watchHit s t.info.ctx 1 p.addr.toNat p.w []) with
    | some i => some i
    | none =>
      match (if a.kind == .read then none else watchHit s t.info.ctx 2 p.addr.toNat p.w []) with
      | some i => some i
      | none =>
        if (a.stored p).1.isEmpty then none
        else watchHit s t.info.ctx 3 p.addr.toNat p.w
          ((wordsOf p.addr.toNat p.w).map (fun va => (va, wordAfter s t.core a p va)))

/-- Whether an access of the instruction under way has been made. -/
def Grp.hasMade (g : Grp) (x : Want) : Bool := g.done.any (fun m => m.tid == x.lane.2 && m.ix == x.ix)

/-- A job after the probe stage. -/
structure Probed where
  job : Job
  kind : Kind
  plans : List Plan
  faults : List (Nat × Park)
  hits : List (Plan × Nat)

/-- The probe stage of one job: an access made already passes. `read` are the values that a data watch takes the job's
writes to depend on. -/
def probeJob (s : State) (t : Team) (g : Grp) (sp : Space) (read : List Answer) (j : Job) : Probed :=
  let a := j.act read
  let probes := j.wants.map (fun x => (x, probeOne s t g.handler sp a.kind x))
  let open' := probes.filter (fun x => !g.hasMade x.1)
  let faults := open'.filterMap (fun x => match x.2 with
    | .error p => some (x.1.lane.2, p)
    | .ok _ => none)
  { job := j, kind := a.kind,
    plans := probes.map (fun x => match x.2 with
      | .ok p => p
      | .error _ => x.1.plan noLeaf 0 noSpot),
    faults := faults,
    hits := open'.filterMap (fun x => match x.2 with
      | .ok p => if faults.any (fun f => f.1 == x.1.lane.2) then none else (planHit s t sp a p).map (fun i => (p, i))
      | .error _ => none) }

/-- What a global read would get, for the data watches (R376). -/
def peekPlan (s : State) (core : Nat) (p : Plan) : Answer :=
  let pa := homePa s p.pa
  (p, if poisoned s pa p.w then List.replicate p.w 0 else coreBytes s core pa p.w, false)

/-- The probe stage of an instruction's jobs, in order. -/
def probeJobs (s : State) (t : Team) (g : Grp) (sp : Space) : List Answer → List Job → List Probed
  | _, [] => []
  | read, j :: rest =>
    let x := probeJob s t g sp read j
    x :: probeJobs s t g sp (read ++ (if x.kind == .read && sp == .global then x.plans.map (peekPlan s t.core) else [])) rest

/-- The jobs without the lanes that the probe stage or the verdicts park: a lane with one bad access makes none. -/
def withoutLanes (bad : Nat → Bool) (l : List Probed) : List Probed :=
  l.map (fun x => { x with plans := x.plans.filter (fun p => !bad p.lane.2) })

/-- Parks what the probe stage and the verdicts found; a watch hit stops the team. Where the accesses are the group's, all
its lanes park. -/
def parkFound (uni : Bool) (s : State) (k : Nat) (g : Grp) (faults : List (Nat × Park)) (hits : List (Plan × Nat)) : State :=
  let found := mergeFaults (faults ++ hits.map (fun h => (h.1.lane.2, breakPark h.1.addr)))
  let s := if uni then
      (match found with
        | [] => s
        | (_, p) :: _ => raise s k g 2 (g.lanes.map (fun l => (l.2, p))))
    else raise s k g 0 found
  match hits with
  | [] => s
  | (p, i) :: _ =>
    if faults.isEmpty || !uni then
      modTeam s k (fun t => stopTeam s.gtick t (laneMask (if uni then g.lanes else hits.map (fun h => h.1.lane))) p.addr (BitVec.ofNat 16 i))
    else s

/-! ### Entries and samples (R287, R377) -/

/-- The lines of global memory that plans touch, one entry each (R287). -/
def planLines (sp : Space) (l : List Plan) : List Nat :=
  match sp with
  | .scratch => []
  | .global => (l.flatMap (fun p => (upto ((p.pa % 128 + p.w + 127) / 128)).map (· + p.pa / 128))).eraseDups

/-- A core's entries of outstanding requests that are taken. -/
def entriesUsed (c : Core) : Nat := (c.reqs.map (fun r => r.lines.length)).foldl (· + ·) 0

/-- The entries an instruction needs are free; one that needs more than there are waits for all of them (R287). -/
def entriesFree (s : State) (core : Nat) (lines : List Nat) : Bool :=
  decide (entriesUsed (coreOf s core) + min lines.length 1024 ≤ 1024)

/-- The sectors of 32 bytes that the plans touch. -/
def planSectors (sp : Space) (l : List Plan) : Nat :=
  ((l.flatMap (fun p => match sp with
    | .global => granulesOf p.pa p.w
    | .scratch => granulesOf p.spot.pos p.w)).eraseDups).length

/-- A memory instruction has issued: it is counted for periodic sampling, takes the group's SAMPLE mark, and its requests
stand until they are answered. -/
def noteRequest (s : State) (t : Team) (g : Grp) (f : Form) (k : Kind) (part : List (Nat × Nat)) (l : List Plan) : State :=
  let per := (regGet s 0x300C0).toNat % 2 ^ 24
  let c := coreOf s t.core
  let n := c.memCount + 1
  let periodic := decide (per ≠ 0) && decide (per ≤ n)
  let low := ((part.head?.map (·.2)).getD 0)
  let r : Req :=
    { id := s.gtick, team := s.cur.team, gid := g.gid, store := k == .write, issued := s.gtick,
      sampled := periodic || g.mark, lanes := laneMask part, sectors := planSectors f.sp l, slot := (threadOf t low).slot,
      hwarp := low / 32, pc := g.pc, ctx := t.info.ctx, lines := (planLines f.sp l).take 1024, tids := part.map (·.2),
      regs := f.dest }
  modTeam (setCore s t.core { c with memCount := if periodic then 0 else n, reqs := r :: c.reqs }) s.cur.team
    (fun t => modGroup t g.gid (fun x => { x with mark := false }))

/-! ### Performing one access -/

/-- Whether a store goes past L1 to its home slice: a release of cluster scope or wider, or one stamped by such a fence
(R126, R127). -/
def storesThrough (q : Qual) (th : Thread) : Bool :=
  (q.releases && q.scope != 0) || (match th.stamp with
    | some st => st.scope != 0
    | none => false)

/-- A read past the clean bytes of L1 (R126, R128). -/
def Qual.fresh (q : Qual) : Bool := q.acquires && q.scope != 0

/-- A quantum or speculative read of bytes that are memory's own: none is poisoned or dirty in the core's L1. -/
def lags (s : State) (core : Nat) (q : Qual) (a : Act1) (w : Way) (n : Nat) : Bool :=
  q.mayLag a.kind && w.management.isNone && !poisoned s w.pa n && !farLost s w.pa &&
    (upto n).all (fun i => match tget (coreOf s core).l1 (w.pa + i) with
      | some b => !b.dirty
      | none => true)

/-- The bytes that a global load of a thread gets. -/
def loadGlobal (s : State) (t : Team) (q : Qual) (direct : Bool) (col : Option (BitVec 2)) (p : Plan) :
    (List Byte × Bool) × State :=
  let w := wayOf s p.leaf p.pa
  let k := s.cur.team
  if lags s t.core q (.load direct col) w p.w then
    let (_, s) := coreRead s t.core p.leaf p.pa p.w p.rid q.cache false true
    let (r, s) := lagRead s t.core q (threadOf t p.lane.2) w.pa p.w
    ((r.1, false), modTeam s k (fun t => modThread t p.lane.2 (meetValues s w.pa p.w (fun _ => r.2))))
  else
    -- LDT: the core's dirty bytes of the square go first (R294)
    let s := if direct && !w.peer && w.management.isNone then writeBackL1 s t.core (fun a => a / 1024 == w.pa / 1024) else s
    let (r, s) := coreRead s t.core p.leaf p.pa p.w p.rid q.cache q.fresh direct col
    (r, if w.peer || w.management.isSome then s
      else modTeam s k (fun t => modThread t p.lane.2 (meetValues s w.pa p.w (valueSeq s t.core))))

/-- Performs one access: the bytes read or the old word, whether it met poison, and the bytes it stored. -/
def performPlan (s : State) (t : Team) (sp : Space) (q : Qual) (a : Act1) (p : Plan) : ((List Byte × Bool) × List Byte) × State :=
  let k := s.cur.team
  let agent := logAgent t.core (threadOf t p.lane.2).slot
  let met := fun (s : State) => modTeam s k (fun t => modThread t p.lane.2 (meetValues s p.pa p.w (fun _ => s.writes)))
  let word := fun (f : Nat → Option Nat) (old : Nat) => match f old with
    | some v => bytesOf p.w v
    | none => []
  match sp, a with
  | .global, .load direct col =>
    let r := loadGlobal s t q direct col p
    ((r.1, []), r.2)
  | .global, .store _ =>
    let through := storesThrough q (threadOf t p.lane.2)
    let s := coreWrite s t.core p.leaf p.pa (a.written p) p.rid q.cache through agent
    ((([], false), a.written p), if through || !(wayOf s p.leaf p.pa).inL1 then met s else s)
  | .global, .storeL2 _ => ((([], false), a.written p), met (coreWrite s t.core p.leaf p.pa (a.written p) p.rid q.cache true agent))
  | .global, .merge data =>
    let d := data p.lane.2 p.ix
    ((([], false), a.written p), met (coreMerge s t.core p.leaf p.pa d.1 d.2 p.rid q.cache))
  | .global, .atomic f =>
    let r := coreAtomic s t.core p.leaf p.pa p.w p.rid q.cache (f p.lane.2)
    (((bytesOf p.w r.1, false), word (f p.lane.2) r.1), met r.2)
  | .scratch, .load _ _ =>
    let r := scratchRead s p.spot.team p.spot.pos p.w (unitOf 0 t.core)
    ((r.1, []), r.2)
  | .scratch, .atomic f =>
    let r := scratchRead s p.spot.team p.spot.pos p.w (unitOf 0 t.core)
    let old := ofBytes r.1.1
    (((bytesOf p.w old, false), word (f p.lane.2) old), match f p.lane.2 old with
      | some v => scratchStore r.2 p.spot.team p.spot.pos (bytesOf p.w v)
      | none => r.2)
  | .scratch, _ => ((([], false), a.written p), scratchStore s p.spot.team p.spot.pos (a.written p))

/-- The clocks and acquires that a read gives the threads `who` (R129, R133). -/
def joinThreads (q : Qual) (st : Option Stamp) (who : List Nat) (s : State) : State :=
  modTeam s s.cur.team (fun t => modThreads t who (fun th =>
    let th := clkJoin t st q.acquires th
    if q.acquires then acquireAt s.writes q.scope th else th))

/-- Makes one access: its clocks, its tag and its bytes (R133, R135, R136). An atomic takes up what it acquires before it
leaves its own clock; a load carries the clock it has. `who` are the threads that it acts for. -/
def makeAccess (sp : Space) (q : Qual) (a : Act1) (who : List Nat) (p : Plan) (s : State) : Made × State :=
  let k := s.cur.team
  let x := probeOf s sp q a.kind p
  let st := stampAt s x
  let joins := a.kind != .write && !q.speculative a.kind
  let s := if a.kind == .rmw && joins then joinThreads q st who s else s
  match tget s.teams k with
  | none => ({ tid := p.lane.2, ix := p.ix, addr := p.addr.toNat, data := [], bad := false, stored := [] }, s)
  | some t =>
    let (r, s) := performPlan (updateTags s t x) t sp q a p
    ({ tid := p.lane.2, ix := p.ix, addr := p.addr.toNat, data := r.1.1, bad := r.1.2, stored := r.2 },
     if a.kind == .read && joins then joinThreads q st who s else s)

/-! ### The gates over the accesses (R378, R379) -/

/-- An access that L1 serves, or a store that it keeps: no slice sees it. -/
def staysInL1 (s : State) (t : Team) (q : Qual) (a : Act1) (p : Plan) : Bool :=
  let w := wayOf s p.leaf p.pa
  w.inL1 && (match a with
    | .load direct _ => !direct && !q.fresh && !lags s t.core q a w p.w && l1Holds s t.core w.pa p.w
    | .store _ => !storesThrough q (threadOf t p.lane.2)
    | _ => false)

/-- The agent as which a slice logs an access, when it serves it on a recorded page: the thread, or for the own node's peer
window a peer (R92, R378). -/
def loggedAs (s : State) (t : Team) (sp : Space) (q : Qual) (a : Act1) (p : Plan) : Option (Nat × Nat) :=
  let w := wayOf s p.leaf p.pa
  if sp == .scratch || w.management.isSome then none
  else if w.peer then (pageOver s Leaf.recorded w.pa).map (fun _ => (w.pa, logAgent 0x3FF 1))
  else if p.leaf.recorded && !staysInL1 s t q a p then some (w.pa, logAgent t.core (threadOf t p.lane.2).slot)
  else none

/-- The accesses of an instruction as they are made: the machine, those made, the lines asked for at gates and whether they
were admitted, and whether a gate holds one back. -/
structure Run where
  state : State
  made : List Made
  lines : List (Nat × Bool)
  held : Bool
deriving DecidableEq, Repr

/-- One more access is made. -/
def Run.make (r : Run) (sp : Space) (q : Qual) (a : Act1) (who : List Nat) (p : Plan) (s : State) (lines : List (Nat × Bool)) : Run :=
  let (m, s) := makeAccess sp q a who p s
  { r with state := s, made := r.made ++ [m], lines := lines }

/-- One access in its turn (R379): a line that an earlier lane of a load or store has asked for is no new access (R378); a
gate that does not admit its agent holds it back. -/
def runPlan (sp : Space) (q : Qual) (a : Act1) (who : Nat → List Nat) (r : Run) (p : Plan) : Run :=
  if r.made.any (fun m => m.tid == p.lane.2 && m.ix == p.ix) then r
  else match tget r.state.teams r.state.cur.team with
    | none => r
    | some t =>
      match loggedAs r.state t sp q a p with
      | none => r.make sp q a (who p.lane.2) p r.state r.lines
      | some (pa, agent) =>
        match (if a.kind == .rmw then none else r.lines.find? (fun x => x.1 == pa / 128)) with
        | some (_, true) => r.make sp q a (who p.lane.2) p r.state r.lines
        | some (_, false) => { r with held := true }
        | none =>
          if gateAdmits r.state (homeSlice pa) agent then
            r.make sp q a (who p.lane.2) p (servedAt r.state (homeSlice pa) agent) ((pa / 128, true) :: r.lines)
          else { r with state := gateArrive r.state (homeSlice pa), lines := (pa / 128, false) :: r.lines, held := true }

/-- What the accesses of plans have answered. -/
def answersOf (made : List Made) (l : List Plan) : List Answer :=
  l.filterMap (fun p => (made.find? (fun m => m.tid == p.lane.2 && m.ix == p.ix)).map (fun m => (p, m.data, m.bad)))

/-- The lines that accesses made at an earlier step have asked for. -/
def linesMade (made : List Made) (l : List Plan) : List (Nat × Bool) :=
  (answersOf made l).map (fun x => (x.1.pa / 128, true))

/-- The jobs one after another: a job waits for every access of the earlier ones. -/
def runJobs (sp : Space) (who : Nat → List Nat) : List Probed → List Plan → Run → Run
  | [], _, r => r
  | x :: rest, before, r =>
    let a := x.job.act (answersOf r.made before)
    let r := x.plans.foldl (runPlan sp x.job.q a who) { r with lines := linesMade r.made x.plans }
    if r.held then r else runJobs sp who rest (before ++ x.plans) r

/-! ### The race check of the instruction -/

/-- The probes of an instruction's accesses. -/
def formProbes (s : State) (sp : Space) (l : List Probed) : List Probe :=
  l.flatMap (fun x => x.plans.map (probeOf s sp x.job.q x.kind))

/-- The threads with the clocks under which their accesses are checked. -/
def meetClocks (s : State) (t : Team) (who : Nat → List Nat) (l : List Probe) : Team :=
  ((l.map (·.lane.2)).eraseDups).foldl (fun t i =>
    if liveHelper t i then t else modThreads t (who i) (meetLane s t (l.filter (fun p => p.lane.2 == i)))) t

/-- Whether the instruction's accesses carry a release of some lane that is no helper. -/
def formReleases (t : Team) (l : List Probe) : Option (BitVec 2) :=
  (l.find? (fun p => p.q.releases && p.kind != .read && !liveHelper t p.lane.2)).map (·.q.scope)

/-- Whether they carry an acquire of such a lane. -/
def formAcquires (t : Team) (l : List Probe) : Option (BitVec 2) :=
  (l.find? (fun p => p.q.acquires && p.kind != .write && !liveHelper t p.lane.2)).map (·.q.scope)

/-- Before the first access: the race check of all of them, the parks, the clocks of a release and the write-back that comes
before it (R126, R133, R138, R397, R401). The answer is the machine, the threads that park, and whether the group waits for
verdicts. -/
def judgeForm (f : Form) (who : Nat → List Nat) (s : State) (t : Team) (g : Grp) (l : List Probed) (faults : List (Nat × Park))
    (hits : List (Plan × Nat)) : State × List Nat × Bool :=
  let k := s.cur.team
  let s := (l.flatMap (·.plans)).foldl (planTouch t f.sp) s
  let probes := formProbes s f.sp l
  let v := judgeAccesses s (meetClocks s t who probes) g.pc probes
  let sated := (v.parks.filter (fun x => x.2.code == 0x15)).map (·.1)
  let s := modTeam v.state k (fun t => modThreads t sated (saturate false))
  let s := parkFound f.uni s k g (faults ++ v.parks) hits
  let gone := v.parks.map (·.1)
  let left := probes.filter (fun p => !gone.contains p.lane.2)
  let s := modTeam s k (fun t => modGroup (meetClocks s t who left) g.gid (fun x => { x with judged := true }))
  let s := modTeam s k (fun t => ((left.map (·.lane.2)).eraseDups).foldl (fun t i =>
    modThread t i (checkDone (left.any (fun p => p.lane.2 == i && !p.granules.isEmpty)))) t)
  let s := if f.uni then modTeam s k (fun t => modThreads t (g.lanes.map (·.2))
      (fun th => { th with unchecked := false, unwatched := false })) else s
  let s := match formReleases t left with
    | some scope => releaseCore s t.core scope
    | none => s
  (s, gone, v.waits)

/-! ### The instruction -/

/-- The issuing group has made its accesses: nothing is kept of them. -/
def clearMade (k gid : Nat) (s : State) : State :=
  modTeam s k (fun t => modGroup t gid (fun x => { x with done := [], judged := false }))

/-- Every access has been made: STOREHASH, the acquire's invalidations, the requests, the answers, and the wait for
verdicts. -/
def endForm (f : Form) (g : Grp) (l : List Probed) (waits : Bool) (r : Run) (give : State → List Answer → State) : State :=
  let k := r.state.cur.team
  let plans := l.flatMap (·.plans)
  match tget r.state.teams k with
  | none => r.state
  | some t =>
    let s := modTeam r.state k (hashMade g.lanes r.made)
    let s := match formAcquires t (formProbes s f.sp l) with
      | some scope => acquireCore s t.core scope
      | none => s
    let s := if f.note && !plans.isEmpty then
        noteRequest s t g f ((l.getLast?.map (·.kind)).getD .read)
          (g.lanes.filter (fun x => f.uni || plans.any (fun p => p.lane == x))) plans
      else s
    let s := give (clearMade k g.gid s) (answersOf r.made plans)
    if waits then
      modTeam s k (fun t => modGroup t g.gid (fun x => if x.wait = .none then { x with wait := .verdict } else x))
    else s

/-- Carries out the accesses of one instruction. `give` puts the answers into the machine and lets the group go on; while
gates hold some accesses back the group waits, with those that have been made kept (R298, R379). -/
def memForm (f : Form) (s : State) (t : Team) (g : Grp) (give : State → List Answer → State) : Out :=
  let k := s.cur.team
  let who := fun (i : Nat) => if f.uni then (notHelper t g.lanes).map (·.2) else if liveHelper t i then [] else [i]
  let probed := probeJobs s t g f.sp [] f.jobs
  let faults := probed.flatMap (·.faults)
  let hits := probed.flatMap (·.hits)
  let bad := fun (i : Nat) => faults.any (fun x => x.1 == i) || hits.any (fun h => h.1.lane.2 == i)
  let l := withoutLanes bad probed
  let hits := hits.filter (fun h => !faults.any (fun x => x.1 == h.1.lane.2))
  let plans := l.flatMap (·.plans)
  if f.sp == .scratch && plans.any (fun p => !present s p.spot p.w) then waitFor s t (.retry .presence)
  else if f.note && !g.judged && !entriesFree s t.core (planLines f.sp plans) then waitFor s t (.retry .entries)
  else
    let (s, gone, waits) :=
      if g.judged then (parkFound f.uni s k g faults hits, [], verdictDue s t (formProbes s f.sp l)) else judgeForm f who s t g l faults hits
    if !hasGroup s k s.cur.gid then .next (takeTraps k trapFuel s)
    else
      let l := withoutLanes (gone.contains ·) l
      let r := runJobs f.sp who l [] { state := s, made := g.done, lines := [], held := false }
      if r.held then
        .next (takeTraps k trapFuel (modTeam r.state k (fun t => modGroup t g.gid (fun x =>
          { x with done := r.made, wait := .retry .gate }))))
      else .next (takeTraps k trapFuel (endForm f g l waits r give))

/-- The accesses of one kind of a lane-set instruction. -/
def memAccess (s : State) (t : Team) (g : Grp) (sp : Space) (dest : List Nat) (q : Qual) (a : Act1) (wants : List Want)
    (give : State → List Answer → State) : Out :=
  memForm { sp := sp, uni := false, note := true, dest := dest, jobs := [{ q := q, act := fun _ => a, wants := wants }] } s t g give

end Sys2Proof.Machine
end

