-- ==== Sys2Proof/Machine/LaneInt.lean ====
section
/-!
DEFINITION. Lane integer instructions: R258 to R266, R282, R283.
-/

namespace Sys2Proof.Machine

/-! ### The computations -/

def smin32 (a b : Word) : Word := if a.toInt ≤ b.toInt then a else b
def smax32 (a b : Word) : Word := if b.toInt ≤ a.toInt then a else b
def nmin32 (a b : Word) : Word := if a.toNat ≤ b.toNat then a else b
def nmax32 (a b : Word) : Word := if b.toNat ≤ a.toNat then a else b
/-- |a − b| of signed words, exact (R259). -/
def iabsd32 (a b : Word) : Word := BitVec.ofNat 32 (a.toInt - b.toInt).natAbs
/-- The unsigned mean rounded half up (R259). -/
def navg32 (a b : Word) : Word := BitVec.ofNat 32 ((a.toNat + b.toNat + 1) / 2)
def imulh32 (a b : Word) : Word := BitVec.ofInt 32 (a.toInt * b.toInt / 2 ^ 32)
def nmulh32 (a b : Word) : Word := BitVec.ofNat 32 (a.toNat * b.toNat / 2 ^ 32)
/-- A shift takes its whole count: 32 or more leaves nothing (R262). -/
def shl32 (a n : Word) : Word := if 32 ≤ n.toNat then 0 else a <<< n.toNat
def shr32 (a n : Word) : Word := if 32 ≤ n.toNat then 0 else a >>> n.toNat
def sar32 (a n : Word) : Word := if 32 ≤ n.toNat then (if a.msb then 0xFFFFFFFF else 0) else a.sshiftRight n.toNat
def rol32 (a n : Word) : Word := a.rotateLeft (n.toNat % 32)

def popc32 (a : Word) : Word := BitVec.ofNat 32 (popCount 32 a.toNat)
def clz32 (a : Word) : Word := BitVec.ofNat 32 (leadingZeros 32 a.toNat)
def brev32 (a : Word) : Word := BitVec.ofNat 32 (reverseBits 32 a.toNat)
def ffs32 (a : Word) : Word :=
  match lowestSet 32 a.toNat with
  | some i => BitVec.ofNat 32 i
  | none => 0xFFFFFFFF

/-- Position and length of a bit field, clamped into the word (R264). -/
def fieldPos (b : Word) : Nat := min (b.toNat % 256) 32
def fieldLen (b : Word) : Nat := min (b.toNat / 256 % 256) (32 - fieldPos b)

def bfxn32 (a b : Word) : Word := BitVec.ofNat 32 (bitsAt a.toNat (fieldPos b) (fieldLen b))
def bfx32 (a b : Word) : Word :=
  let n := fieldLen b
  let f := bitsAt a.toNat (fieldPos b) n
  if n = 0 then 0 else BitVec.ofInt 32 (if 2 ^ (n - 1) ≤ f then (f : Int) - 2 ^ n else f)
def bfi32 (d a b : Word) : Word :=
  let m : Word := BitVec.ofNat 32 ((2 ^ fieldLen b - 1) * 2 ^ fieldPos b)
  (d &&& ~~~m) ||| (BitVec.ofNat 32 (a.toNat % 2 ^ fieldLen b * 2 ^ fieldPos b) &&& m)

/-- One byte that PRMT selects from the eight of `x` (R264). -/
def prmtByte (x : Nat) (sel : Nat) : Nat :=
  let b := bitsAt x (8 * (sel % 8)) 8
  if sel.testBit 3 then (if b.testBit 7 then 0xFF else 0) else b
def prmt32 (d a b : Word) : Word :=
  let x := a.toNat + 2 ^ 32 * b.toNat
  BitVec.ofNat 32 (ofBytes ((upto 4).map (fun i => BitVec.ofNat 8 (prmtByte x (bitsAt d.toNat (4 * i) 4)))))

/-- The value of an immediate, sign-extended by its LIT words (R236). -/
def immValue : Imm → Int
  | .lone v => v.toInt
  | .one l v => (l ++ v : BitVec 35).toInt
  | .two a b v => (a ++ b ++ v : BitVec 60).toInt

def immLane (i : Imm) : Word := BitVec.ofInt 32 (immValue i)
def immUniform (i : Imm) : DWord := BitVec.ofInt 64 (immValue i)

/-! ### R258 to R264 -/

def execIadd (vd va vb : BitVec 6) (s : State) : Out := laneBin vd va vb (fun a b => a + b) s
def execIsub (vd va vb : BitVec 6) (s : State) : Out := laneBin vd va vb (fun a b => a - b) s
def execImin (vd va vb : BitVec 6) (s : State) : Out := laneBin vd va vb smin32 s
def execImax (vd va vb : BitVec 6) (s : State) : Out := laneBin vd va vb smax32 s
def execNmin (vd va vb : BitVec 6) (s : State) : Out := laneBin vd va vb nmin32 s
def execNmax (vd va vb : BitVec 6) (s : State) : Out := laneBin vd va vb nmax32 s
def execIabsd (vd va vb : BitVec 6) (s : State) : Out := laneBin vd va vb iabsd32 s
def execNavg (vd va vb : BitVec 6) (s : State) : Out := laneBin vd va vb navg32 s
def execImul (vd va vb : BitVec 6) (s : State) : Out := laneBin vd va vb (fun a b => a * b) s
def execImulh (vd va vb : BitVec 6) (s : State) : Out := laneBin vd va vb imulh32 s
def execNmulh (vd va vb : BitVec 6) (s : State) : Out := laneBin vd va vb nmulh32 s
def execImad (vd va vb : BitVec 6) (s : State) : Out := laneTern vd va vb (fun d a b => d + a * b) s
def execAnd (vd va vb : BitVec 6) (s : State) : Out := laneBin vd va vb (fun a b => a &&& b) s
def execOr (vd va vb : BitVec 6) (s : State) : Out := laneBin vd va vb (fun a b => a ||| b) s
def execXor (vd va vb : BitVec 6) (s : State) : Out := laneBin vd va vb (fun a b => a ^^^ b) s
def execAndn (vd va vb : BitVec 6) (s : State) : Out := laneBin vd va vb (fun a b => a &&& ~~~b) s
def execShl (vd va vb : BitVec 6) (s : State) : Out := laneBin vd va vb shl32 s
def execShr (vd va vb : BitVec 6) (s : State) : Out := laneBin vd va vb shr32 s
def execSar (vd va vb : BitVec 6) (s : State) : Out := laneBin vd va vb sar32 s
def execRol (vd va vb : BitVec 6) (s : State) : Out := laneBin vd va vb rol32 s
def execPopc (vd va : BitVec 6) (s : State) : Out := laneUn vd va popc32 s
def execClz (vd va : BitVec 6) (s : State) : Out := laneUn vd va clz32 s
def execBrev (vd va : BitVec 6) (s : State) : Out := laneUn vd va brev32 s
def execFfs (vd va : BitVec 6) (s : State) : Out := laneUn vd va ffs32 s
def execBfx (vd va vb : BitVec 6) (s : State) : Out := laneBin vd va vb bfx32 s
def execBfxn (vd va vb : BitVec 6) (s : State) : Out := laneBin vd va vb bfxn32 s
def execBfi (vd va vb : BitVec 6) (s : State) : Out := laneTern vd va vb bfi32 s
def execPrmt (vd va vb : BitVec 6) (s : State) : Out := laneTern vd va vb prmt32 s

/-! ### Compare and select (R265, R266) -/

def execIcmpp (pd cc : BitVec 3) (va vb : BitVec 6) (f : BitVec 2) (s : State) : Out :=
  lanePredOp pd va vb (fun old a b => combine f old (intCond cc a b)) s

def execSel (vd va vb : BitVec 6) (k : BitVec 2) (s : State) : Out :=
  laneResult [va, vb] vd (fun t _ _ o l =>
    if lanePred (threadOf t l.2) (4 + k.toNat) then o 0 l.2 else o 1 l.2) s

/-! ### Moves and special registers (R282, R244) -/

def execVmov (vd va : BitVec 6) (s : State) : Out := laneUn vd va id s

def execVmovs (vd sa : BitVec 6) (hi : BitVec 1) (s : State) : Out :=
  laneResult [] vd (fun t _ _ _ l =>
    let x := uReg (warpOf t (l.2 / 32)) sa.toNat
    if hi = 1 then x.extractLsb' 32 32 else x.extractLsb' 0 32) s

/-- The lane special registers (R244); LANE is the formation's lane in a formation (R28). -/
def laneSpecial (t : Team) (ix : Nat) (l : Nat × Nat) : Word :=
  let th := threadOf t l.2
  match ix with
  | 0 => BitVec.ofNat 32 l.1
  | 1 => BitVec.ofNat 32 l.2
  | 2 => BitVec.ofNat 32 (l.2 / 32)
  | 3 => BitVec.ofNat 32 th.slot
  | 4 => th.clk
  | 5 => th.lstat
  | 6 => BitVec.ofNat 32 (l.2 % 32 / 4)
  | _ => bit 32 th.helper

def execVspec (vd ix : BitVec 6) (s : State) : Out :=
  laneResult [] vd (fun t _ _ _ l => laneSpecial t ix.toNat l) s

/-! ### Immediate forms (R283) -/

def execIaddi (vd va : BitVec 6) (imm : Imm) (s : State) : Out := laneUn vd va (fun a => a + immLane imm) s
def execShli (vd va : BitVec 6) (imm : Imm) (s : State) : Out := laneUn vd va (fun a => shl32 a (immLane imm)) s
def execShri (vd va : BitVec 6) (imm : Imm) (s : State) : Out := laneUn vd va (fun a => shr32 a (immLane imm)) s
def execAndi (vd va : BitVec 6) (imm : Imm) (s : State) : Out := laneUn vd va (fun a => a &&& immLane imm) s
def execMovi (vd : BitVec 6) (imm : Imm) (s : State) : Out := laneResult [] vd (fun _ _ _ _ _ => immLane imm) s
def execOri (vd va : BitVec 6) (imm : Imm) (s : State) : Out := laneUn vd va (fun a => a ||| immLane imm) s
def execXori (vd va : BitVec 6) (imm : Imm) (s : State) : Out := laneUn vd va (fun a => a ^^^ immLane imm) s

end Sys2Proof.Machine
end

