-- ==== Sys2Proof/Machine/Special.lean ====
section
/-!
DEFINITION. The special functions (R270, R271). FRCP and FSQRT are correctly rounded. Of the others the spec fixes the
special inputs, the exact cases and a bound: the result is the part's own function of the input bits
(`Config.sfu`, open) where that lies within the bound, which is tested against an approximation good to far more
places; outside it the model takes the approximation itself.
-/

namespace Sys2Proof.Machine

/-- One in the fixed point of the approximations: 2^128. -/
def fixOne : Nat := 2 ^ 128

/-- The natural logarithm of 2, times 2^128. -/
def fixLn2 : Nat := 235865763225513294137944142764154484399

/-- π, times 2^128. -/
def fixPi : Nat := 1069028584064966747859680373161870783300

/-- The integer square root, bit by bit from bit `k` down. -/
def isqrtFrom (x : Nat) : Nat → Nat → Nat
  | 0, r => r
  | k + 1, r => isqrtFrom x k (if (r + 2 ^ k) * (r + 2 ^ k) ≤ x then r + 2 ^ k else r)

def isqrt (x : Nat) : Nat := isqrtFrom x (Nat.log2 x / 2 + 1) 0

/-- The square root of n/d to 2^−200: a root and whether it is exact, over 2^200. -/
def sqrtFix (n d : Nat) : Nat × Bool :=
  let x := n * 2 ^ 400 / d
  let r := isqrt x
  (r, decide (r * r * d = n * 2 ^ 400))

/-- The sum of y^k/k! from term `t` = y^k/k! on, for `m` terms. -/
def expTerms (y : Nat) : Nat → Nat → Nat → Nat
  | 0, _, _ => 0
  | m + 1, k, t => t + expTerms y m (k + 1) (t * y / fixOne / (k + 1))

/-- 2^(n/d) for a fraction below 1, times 2^128. -/
def exp2Fix (n d : Nat) : Nat := expTerms (n * fixLn2 / d) 40 0 fixOne

/-- 2^x as a fraction, for an exact x of moderate size. -/
def exp2Frac (neg : Bool) (n d : Nat) : Nat × Nat :=
  let i : Int := (signed neg n) / (d : Int)
  let f := (signed neg n - i * d).toNat
  scale2 (exp2Fix f d) fixOne i

/-- z + z^3/3 + z^5/5 + … for `m` terms, in fixed point; `p` is the power to come. -/
def atanhTerms (z : Int) : Nat → Nat → Int → Int
  | 0, _, _ => 0
  | m + 1, k, p => p / (2 * k + 1) + atanhTerms z m (k + 1) (p * z / fixOne * z / fixOne)

/-- log2 of a positive n/d, times 2^128. -/
def log2Fix (n d : Nat) : Int :=
  let e := leadExp n d
  let r := scale2 n d (-e)
  let (e, r) := if 3 * r.2 ≤ 2 * r.1 then (e + 1, (r.1, 2 * r.2)) else (e, r)
  let z : Int := ((r.1 : Int) - r.2) * fixOne / ((r.1 : Int) + r.2)
  e * fixOne + 2 * atanhTerms z 60 0 z * fixOne / fixLn2

/-- The alternating series a − a·a²/((k+1)(k+2)) + …: sine from k = 1, cosine from k = 0. -/
def trigTerms (a : Int) : Nat → Nat → Int → Int
  | 0, _, _ => 0
  | m + 1, k, t => t - trigTerms a m (k + 2) (t * a / fixOne * a / fixOne / ((k + 1) * (k + 2) : Nat))

def sinFix (a : Int) : Int := trigTerms a 30 1 a
def cosFix (a : Int) : Int := trigTerms a 30 0 fixOne

/-- sin(2πx) of an exact x in turns, times 2^128; exact at the multiples of 1/4. -/
def sinTurns (neg : Bool) (n d : Nat) : Int :=
  let u := 4 * signed neg n
  let k : Int := (2 * u + d) / (2 * d)
  let a : Int := (u - k * d) * fixPi / (2 * d)
  match (k % 4).toNat with
  | 0 => sinFix a
  | 1 => cosFix a
  | 2 => -sinFix a
  | _ => -cosFix a

/-- cos(2πx) = sin(2π(|x| + 1/4)). -/
def cosTurns (n d : Nat) : Int := sinTurns false (4 * n + d) (4 * d)

/-- A fixed-point number as a value. -/
def ofFix (x : Int) : FVal := .fin (decide (x < 0)) x.natAbs fixOne

/-- One unit in the last place of FP32 at n/d, as a fraction. -/
def ulp32 (n d : Nat) : Nat × Nat := scale2 1 1 (if n = 0 then -149 else max (leadExp n d - 23) (-149))

/-- |c − v| ≤ tol, for finite values. -/
def near (c v : FVal) (tol : Nat × Nat) : Bool :=
  match c.sub v with
  | .fin _ n d => decide (n * tol.2 ≤ tol.1 * d)
  | _ => false

/-- The part's own result where it lies within the tolerance of the approximation. -/
def within (cand : Word) (v : FVal) (tol : Nat × Nat) : Word := if near (f32 cand) v tol then cand else to32 v

/-- `k` units in the last place at the magnitude of a value. -/
def ulps (k : Nat) (v : FVal) : Nat × Nat :=
  match v with
  | .fin _ n d => let u := ulp32 n d; (k * u.1, u.2)
  | _ => (0, 1)

/-- Whether a value is an FP32 number as it stands. -/
def exact32 (v : FVal) : Bool := (f32 (to32 v)).cmp v == .equal

def frcp32 (x : Word) : Word := to32 ((FVal.fin false 1 1).div (f32 x))

def fsqrt32 (x : Word) : Word :=
  match f32 x with
  | .nan => to32 .nan
  | .inf neg => to32 (if neg then .nan else .inf false)
  | .fin neg n d =>
    if n = 0 then x else if neg then to32 .nan
    else
      let r := sqrtFix n d
      to32 (if r.2 then .fin false r.1 (2 ^ 200) else .fin false (2 * r.1 + 1) (2 ^ 201))

def frsq32 (x : Word) : Word :=
  match f32 x with
  | .nan => to32 .nan
  | .inf neg => to32 (if neg then .nan else .fin false 0 1)
  | .fin neg n d =>
    if n = 0 then to32 (.inf neg) else if neg then to32 .nan
    else
      let r := sqrtFix d n
      let v := FVal.fin false r.1 (2 ^ 200)
      if r.2 && exact32 v then to32 v else within (Config.sfu 1 x) v (ulps 1 v)

def fex232 (x : Word) : Word :=
  match f32 x with
  | .nan => to32 .nan
  | .inf neg => to32 (if neg then .fin false 0 1 else .inf false)
  | .fin neg n d =>
    if !neg && decide (128 * d ≤ n) then to32 (.inf false)
    else if neg && decide (200 * d ≤ n) then within (Config.sfu 2 x) (.fin false 0 1) (2, 2 ^ 149)
    else
      let r := exp2Frac neg n d
      let v := FVal.fin false r.1 r.2
      if n % d = 0 ∧ exact32 v then to32 v else within (Config.sfu 2 x) v (ulps 2 v)

def flg232 (x : Word) : Word :=
  match f32 x with
  | .nan => to32 .nan
  | .inf neg => to32 (if neg then .nan else .inf false)
  | .fin neg n d =>
    if n = 0 then to32 (.inf true) else if neg then to32 .nan
    else
      let e := leadExp n d
      let p := scale2 1 1 e
      if n * p.2 = p.1 * d then to32 (FVal.ofInt e)
      else
        let v := ofFix (log2Fix n d)
        within (Config.sfu 3 x) v (if d ≤ 2 * n ∧ n ≤ 2 * d then (1, 2 ^ 22) else ulps 2 v)

/-- The value at a multiple of a quarter turn: 0, ±1 or none. -/
def quarterTurn (neg : Bool) (n d : Nat) : Option Int :=
  if 4 * n % d = 0 then
    match ((signed neg (4 * n / d)) % 4).toNat with
    | 0 => some 0
    | 1 => some 1
    | 2 => some 0
    | _ => some (-1)
  else none

def fsin32 (x : Word) : Word :=
  match f32 x with
  | .nan => to32 .nan
  | .inf _ => to32 .nan
  | .fin neg n d =>
    if n = 0 then x
    else match quarterTurn neg n d with
      | some k => to32 (FVal.ofInt k)
      | none => within (Config.sfu 4 x) (ofFix (sinTurns neg n d)) (1, 2 ^ 23)

def fcos32 (x : Word) : Word :=
  match f32 x with
  | .nan => to32 .nan
  | .inf _ => to32 .nan
  | .fin _ n d =>
    match quarterTurn false (4 * n + d) (4 * d) with
    | some k => to32 (FVal.ofInt k)
    | none => within (Config.sfu 5 x) (ofFix (cosTurns n d)) (1, 2 ^ 23)

/-- tanh of a positive n/d: from the series for a small argument, else from 2^(2x / ln 2). -/
def tanhFrac (n d : Nat) : FVal :=
  if 1024 * n < d then .fin false (3 * n * d * d - n * n * n) (3 * d * d * d)
  else if 60 * d ≤ n then .fin false 1 1
  else
    let r := exp2Frac false (2 * n * fixOne) (d * fixLn2)
    .fin false (r.1 - r.2) (r.1 + r.2)

/-- The magnitude of FTANH of a positive finite pattern; the form is odd. -/
def ftanhPos (x : Word) (n d : Nat) : Word :=
  let v := tanhFrac n d
  within (Config.sfu 7 x) v (ulps 2 v)

def ftanh32 (x : Word) : Word :=
  match f32 x with
  | .nan => to32 .nan
  | .inf neg => to32 (.fin neg 1 1)
  | .fin neg n d =>
    if n = 0 then x
    else (ftanhPos (x &&& 0x7FFFFFFF) n d &&& 0x7FFFFFFF) ||| (if neg then 0x80000000 else 0)

end Sys2Proof.Machine
end

