-- ==== Sys2Proof/Machine/UniInt.lean ====
section
/-!
DEFINITION. Uniform integer and logic instructions, compares, special registers, immediates and scalar floating point:
R311 to R315, R318, R245.
-/

namespace Sys2Proof.Machine

/-! ### Integer and logic (R311) -/

def smin64 (a b : DWord) : DWord := if a.toInt ≤ b.toInt then a else b
def smax64 (a b : DWord) : DWord := if a.toInt ≤ b.toInt then b else a
def smulh64 (a b : DWord) : DWord := BitVec.ofInt 64 (a.toInt * b.toInt / 2 ^ 64)
def sdivn64 (a b : DWord) : DWord := if b = 0 then BitVec.allOnes 64 else a / b
def sremn64 (a b : DWord) : DWord := if b = 0 then BitVec.allOnes 64 else a % b
def shl64 (a n : DWord) : DWord := if 64 ≤ n.toNat then 0 else a <<< n.toNat
def shr64 (a n : DWord) : DWord := if 64 ≤ n.toNat then 0 else a >>> n.toNat
def sar64 (a n : DWord) : DWord :=
  if 64 ≤ n.toNat then (if a.msb then BitVec.allOnes 64 else 0) else a.sshiftRight n.toNat
def ffs64 (a : DWord) : DWord :=
  match lowestSet 64 a.toNat with
  | some i => BitVec.ofNat 64 i
  | none => BitVec.allOnes 64

def execSadd (sd sa sb : BitVec 6) (s : State) : Out := uniBin sd sa sb (fun a b => a + b) s
def execSsub (sd sa sb : BitVec 6) (s : State) : Out := uniBin sd sa sb (fun a b => a - b) s
def execSmin (sd sa sb : BitVec 6) (s : State) : Out := uniBin sd sa sb smin64 s
def execSmax (sd sa sb : BitVec 6) (s : State) : Out := uniBin sd sa sb smax64 s
def execSmul (sd sa sb : BitVec 6) (s : State) : Out := uniBin sd sa sb (fun a b => a * b) s
def execSmulh (sd sa sb : BitVec 6) (s : State) : Out := uniBin sd sa sb smulh64 s
def execSdivn (sd sa sb : BitVec 6) (s : State) : Out := uniBin sd sa sb sdivn64 s
def execSremn (sd sa sb : BitVec 6) (s : State) : Out := uniBin sd sa sb sremn64 s
def execSand (sd sa sb : BitVec 6) (s : State) : Out := uniBin sd sa sb (fun a b => a &&& b) s
def execSor (sd sa sb : BitVec 6) (s : State) : Out := uniBin sd sa sb (fun a b => a ||| b) s
def execSxor (sd sa sb : BitVec 6) (s : State) : Out := uniBin sd sa sb (fun a b => a ^^^ b) s
def execSandn (sd sa sb : BitVec 6) (s : State) : Out := uniBin sd sa sb (fun a b => a &&& ~~~b) s
def execSshl (sd sa sb : BitVec 6) (s : State) : Out := uniBin sd sa sb shl64 s
def execSshr (sd sa sb : BitVec 6) (s : State) : Out := uniBin sd sa sb shr64 s
def execSsar (sd sa sb : BitVec 6) (s : State) : Out := uniBin sd sa sb sar64 s
def execSrol (sd sa sb : BitVec 6) (s : State) : Out := uniBin sd sa sb (fun a n => rotl64 a n.toNat) s
def execSpopc (sd sa : BitVec 6) (s : State) : Out := uniUn sd sa (fun a => BitVec.ofNat 64 (popCount 64 a.toNat)) s
def execSclz (sd sa : BitVec 6) (s : State) : Out := uniUn sd sa (fun a => BitVec.ofNat 64 (leadingZeros 64 a.toNat)) s
def execSbrev (sd sa : BitVec 6) (s : State) : Out := uniUn sd sa (fun a => BitVec.ofNat 64 (reverseBits 64 a.toNat)) s
def execSffs (sd sa : BitVec 6) (s : State) : Out := uniUn sd sa ffs64 s

/-! ### Compare and select (R312, R313) -/

def execSsetc (cd cc : BitVec 3) (sa sb : BitVec 6) (f : BitVec 2) (s : State) : Out :=
  uniformForm true s (fun s t g => finish s (modWarp t g.warp (fun w =>
    setFlag w cd.toNat (combine f (uFlag w cd.toNat) (intCond cc (uReg w sa.toNat) (uReg w sb.toNat))))))

def execSsel (sd sa sb : BitVec 6) (k : BitVec 2) (s : State) : Out :=
  uniformResult sd (fun w => if uFlag w (4 + k.toNat) then uReg w sa.toNat else uReg w sb.toNat) s

/-! ### Moves and special registers (R314, R245, R425) -/

def execSmov (sd sa : BitVec 6) (s : State) : Out := uniUn sd sa id s

/-- The uniform special registers as SRD reads them. -/
def uniSpecial (s : State) (t : Team) (w : Nat) (ix : Nat) : DWord :=
  let i := t.info
  let x := warpOf t w
  let c := ctxOf s i.ctx
  match ix with
  | 0 => BitVec.ofNat 64 s.gtick
  | 1 => BitVec.ofNat 64 t.core
  | 2 => BitVec.ofNat 64 (w % 4)
  | 3 => BitVec.ofNat 64 (t.core / 8)
  | 4 => i.tx.setWidth 64
  | 5 => i.ty.setWidth 64
  | 6 => i.tz.setWidth 64
  | 7 => i.ntx.setWidth 64
  | 8 => i.nty.setWidth 64
  | 9 => i.ntz.setWidth 64
  | 10 => BitVec.ofNat 64 (liveCount t)
  | 11 => launchWord i
  | 12 => i.argp
  | 13 => i.cbtp
  | 14 => BitVec.ofNat 64 i.scrBase
  | 15 => x.gbase
  | 16 => x.nmon.setWidth 64
  | 17 => x.nema.setWidth 64
  | 18 => x.storehash
  | 19 => c.sbchk
  | 20 => c.racemode.setWidth 64
  | 21 => c.trapvec
  | 22 => c.traprec
  | _ => BitVec.ofNat 64 (65536 - s.gtick % 65536)

/-- Indices 19 to 22 are for privileged mode. -/
def privileged (ix : Nat) : Bool := decide (19 ≤ ix) && decide (ix ≤ 22)

def execSrd (sd ix : BitVec 6) (s : State) : Out :=
  uniformForm true s (fun s t g =>
    if privileged ix.toNat && !g.handler then trapUniform s g (parkOf s 4 ix.toNat 1)
    else finish s (modWarp t g.warp (fun w => setU w sd.toNat (uniSpecial s t g.warp ix.toNat))))

/-- A context register is written, by SWR or through the management window (R245, R464): only the bits it defines. -/
def setCtxReg (s : State) (ctx ix : Nat) (v : DWord) : State :=
  modCtx s ctx (fun c =>
    match ix with
    | 19 => { c with sbchk := v &&& 1 }
    | 20 => if v.extractLsb' 0 2 = 3 then c else { c with racemode := v.extractLsb' 0 2 }
    | 21 => { c with trapvec := v &&& 0x00FFFFFFFFFFFFFF }
    | 22 => { c with traprec := v &&& 0x00FFFFFFFFFFFFFF }
    | _ => c)

/-- A home-warp register is written: only the bits it defines. -/
def setWarpReg (w : Warp) (ix : Nat) (v : DWord) : Warp :=
  match ix with
  | 15 => { w with gbase := v &&& 0xFF }
  | 16 => { w with nmon := v.setWidth 32 }
  | 17 => { w with nema := v.setWidth 32 }
  | 18 => { w with storehash := v }
  | _ => w

def execSwr (ixd sa : BitVec 6) (s : State) : Out :=
  uniformForm true s (fun s t g =>
    let v := uReg (warpOf t g.warp) sa.toNat
    if privileged ixd.toNat then
      if !g.handler then trapUniform s g (parkOf s 4 ixd.toNat 1)
      else finish (setCtxReg s t.info.ctx ixd.toNat v) t
    else finish s (modWarp t g.warp (fun w => setWarpReg w ixd.toNat v)))

/-! ### Immediate forms (R315) -/

def execSaddi (sd sa : BitVec 6) (imm : Imm) (s : State) : Out := uniUn sd sa (fun a => a + immUniform imm) s
def execSmovi (sd : BitVec 6) (imm : Imm) (s : State) : Out := uniformResult sd (fun _ => immUniform imm) s
def execSshli (sd sa : BitVec 6) (imm : Imm) (s : State) : Out := uniUn sd sa (fun a => shl64 a (immUniform imm)) s
def execSandi (sd sa : BitVec 6) (imm : Imm) (s : State) : Out := uniUn sd sa (fun a => a &&& immUniform imm) s
def execSori (sd sa : BitVec 6) (imm : Imm) (s : State) : Out := uniUn sd sa (fun a => a ||| immUniform imm) s

/-! ### Scalar floating point (R318) -/

/-- The FP32 operand of a uniform register; bits [63:32] are ignored. -/
def low32 (x : DWord) : Word := x.setWidth 32

/-- An FP32 result: bits [63:32] are zero. -/
def zext32 (x : Word) : DWord := x.setWidth 64

def execSfadd (sd sa sb : BitVec 6) (s : State) : Out :=
  uniBin sd sa sb (fun a b => zext32 (fadd32 (low32 a) (low32 b))) s
def execSfsub (sd sa sb : BitVec 6) (s : State) : Out :=
  uniBin sd sa sb (fun a b => zext32 (fsub32 (low32 a) (low32 b))) s
def execSfmul (sd sa sb : BitVec 6) (s : State) : Out :=
  uniBin sd sa sb (fun a b => zext32 (fmul32 (low32 a) (low32 b))) s
def execSffma (sd sa sb : BitVec 6) (s : State) : Out :=
  uniformResult sd (fun w =>
    zext32 (ffma32 (low32 (uReg w sd.toNat)) (low32 (uReg w sa.toNat)) (low32 (uReg w sb.toNat)))) s
def execSi2f (sd sa : BitVec 6) (s : State) : Out := uniUn sd sa (fun a => zext32 (to32 (FVal.ofInt a.toInt))) s

/-- SF2I: 0 for NaN, else the nearest integer, saturated to 64 bits. -/
def sf2i64 (x : Word) : DWord :=
  match f32 x with
  | .nan => 0
  | .inf neg => if neg then 0x8000000000000000 else 0x7FFFFFFFFFFFFFFF
  | .fin neg n d => BitVec.ofInt 64 (clamp (rnei neg n d) (-2 ^ 63) (2 ^ 63 - 1))

def execSf2i (sd sa : BitVec 6) (s : State) : Out := uniUn sd sa (fun a => sf2i64 (low32 a)) s
def execSfrcp (sd sa : BitVec 6) (s : State) : Out := uniUn sd sa (fun a => zext32 (frcp32 (low32 a))) s
def execSfsqrt (sd sa : BitVec 6) (s : State) : Out := uniUn sd sa (fun a => zext32 (fsqrt32 (low32 a))) s

end Sys2Proof.Machine
end

