-- ==== Sys2Proof/Machine/UniMem.lean ====
section
/-!
DEFINITION. Uniform memory access, fences, range operations and the residency forms: R309, R319 to R323, R403, R111.
-/

namespace Sys2Proof.Machine

/-! ### One access for the group (R309, R319, R320) -/

/-- The threads of a group that are no helper lanes. -/
def realThreads (t : Team) (g : Grp) : List Nat := (notHelper t g.lanes).map (·.2)

/-- Makes one access for the group (R309): `give` gets the bytes read or the old word, nothing when the access is suppressed
for want of a representative, and lets the group go on. A load without one is made by the group's lowest lane, a helper
lane, and belongs to no agent. `note`: it is a memory instruction for SAMPLE and the entries (R287, R377); `dest` are the
uniform registers it writes. -/
def uniAccess (note : Bool) (dest : List Nat) (s : State) (t : Team) (g : Grp) (w : Nat) (q : Qual) (a : Act1)
    (addr : BitVec 64) (give : State → Option (List Byte) → State) : Out :=
  let lane := match representative t g with
    | some x => some x
    | none => if a.kind = Kind.read then g.lanes.head? else none
  memForm
    { sp := .global, uni := true, note := note, dest := dest.map (· + 64),
      jobs := [{ q := q, act := fun _ => a,
                 wants := lane.toList.map (fun x => { lane := x, ix := 0, addr := addr, w := w, align := w }) }] }
    s t g (fun s res => give s (res.head?.map (·.2.1)))

/-- The address of a uniform access. -/
def uniAddr (t : Team) (g : Grp) (sa sb : BitVec 6) : BitVec 64 :=
  uReg (warpOf t g.warp) sa.toNat + uReg (warpOf t g.warp) sb.toNat

/-- What SLD puts into s[SD] and s[SD+1] (R319). -/
def sldPut (w : BitVec 2) (sd : BitVec 6) (d : List Byte) (x : Warp) : Warp :=
  match w.toNat with
  | 0 => setU x sd.toNat (BitVec.ofNat 64 (bytesAt d 0 8))
  | 1 => setU x sd.toNat (BitVec.ofNat 64 (bytesAt d 0 4))
  | 2 => setU x sd.toNat ((BitVec.ofNat 32 (bytesAt d 0 4)).signExtend 64)
  | _ => setU (setU x sd.toNat (BitVec.ofNat 64 (bytesAt d 0 8))) (sd.toNat + 1) (BitVec.ofNat 64 (bytesAt d 8 8))

def execSld (w : BitVec 2) (sd sa sb : BitVec 6) (mq : Option Mq) (s : State) : Out :=
  uniformForm true s (fun s t g =>
    uniAccess true (if w = 3 then [sd.toNat, sd.toNat + 1] else [sd.toNat]) s t g ([8, 4, 4, 16].getD w.toNat 8) (qualOf mq .read)
      (.load false none) (uniAddr t g sa sb)
      (fun s d => modTeam s s.cur.team (fun t =>
        advance s (modWarp t g.warp (sldPut w sd (d.getD []))))))

def execSst (w : BitVec 2) (sd sa sb : BitVec 6) (mq : Option Mq) (s : State) : Out :=
  uniformForm false s (fun s t g =>
    let x := warpOf t g.warp
    let n := [8, 4, 8, 16].getD w.toNat 8
    let data := (bytesOf 8 (uReg x sd.toNat).toNat ++ bytesOf 8 (uReg x (sd.toNat + 1)).toNat).take n
    uniAccess true [] s t g n (qualOf mq .write) (.store (fun _ _ => data)) (uniAddr t g sa sb)
      (fun s _ => modTeam s s.cur.team (advance s)))

/-- A uniform atomic: the word becomes `f operand next old`; without a representative s[SD] receives 0. -/
def uniAtomic (sd sa sb : BitVec 6) (mq : Option Mq) (f : DWord → DWord → DWord → DWord) (s : State) : Out :=
  uniformForm true s (fun s t g =>
    let x := warpOf t g.warp
    let upd := fun (_ old : Nat) =>
      some (f (uReg x sd.toNat) (uReg x (sd.toNat + 1)) (BitVec.ofNat 64 old)).toNat
    uniAccess true [sd.toNat] s t g 8 (qualOf mq .rmw) (.atomic upd) (uniAddr t g sa sb)
      (fun s d => modTeam s s.cur.team (fun t =>
        advance s (modWarp t g.warp (fun w => setU w sd.toNat (BitVec.ofNat 64 (ofBytes (d.getD []))))))))

def execSatomAdd (sd sa sb : BitVec 6) (mq : Option Mq) (s : State) : Out := uniAtomic sd sa sb mq (fun v _ x => x + v) s
def execSatomExch (sd sa sb : BitVec 6) (mq : Option Mq) (s : State) : Out := uniAtomic sd sa sb mq (fun v _ _ => v) s
def execSatomCas (sd sa sb : BitVec 6) (mq : Option Mq) (s : State) : Out :=
  uniAtomic sd sa sb mq (fun v n x => if x = v then n else x) s
def execSatomNmax (sd sa sb : BitVec 6) (mq : Option Mq) (s : State) : Out :=
  uniAtomic sd sa sb mq (fun v _ x => if x.toNat ≤ v.toNat then v else x) s

/-! ### Fences (R127, R321) -/

/-- The issuing group's threads change their clocks, and the machine moves what the fence moves. -/
def fence (acq rel : Bool) (s : State) : Out :=
  uniformForm false s (fun s t g =>
    let scope := s.cur.hdr.scope
    let real := realThreads t g
    let t := if acq then modThreads t real (fun th => acquireAt s.writes scope (clkAcquire th)) else t
    let t := if rel then modThreads t real (clkRelease t scope) else t
    let s := setTeam s s.cur.team t
    let s := if rel then releaseCore s t.core scope else s
    let s := if acq then acquireCore s t.core scope else s
    .next (modTeam s s.cur.team (advance s)))

def execFenceRel (s : State) : Out := fence false true s
def execFenceAcq (s : State) : Out := fence true false s
def execFenceFull (s : State) : Out := fence true true s

/-! ### Range operations (R322, R403) -/

/-- A run of a range on one page. -/
structure Segment where
  va : Nat
  n : Nat
  pa : Nat
  leaf : Leaf
  checked : Bool
deriving DecidableEq, Repr

/-- The pages of a range, in order, and what stands against those that have none. A page that has none is passed over to
the next 64 KiB, the smallest page. -/
def segments (s : State) (t : Team) (priv : Bool) (k : Kind) (va n : Nat) : Nat → List Park × List Segment
  | 0 => ([], [])
  | fuel + 1 =>
    if n = 0 then ([], [])
    else match translate s t.core t.info.ctx (BitVec.ofNat 64 va) k priv with
      | .error e =>
        let m := min n (65536 - va % 65536)
        let r := segments s t priv k (va + m) (n - m) fuel
        ({ code := BitVec.ofNat 16 e.code, addr := BitVec.ofNat 64 va, info := e.info k, flags := 0, order := 0 } :: r.1, r.2)
      | .ok leaf =>
        let m := min n (leaf.size - va % leaf.size)
        let r := segments s t priv k (va + m) (n - m) fuel
        let w := wayOf s leaf (leaf.phys va)
        (r.1, { va := va, n := m, pa := w.pa, leaf := leaf, checked := leaf.checked && !w.peer } :: r.2)

def inSegment (g : Segment) (a : Nat) : Bool := decide (g.pa ≤ a) && decide (a < g.pa + g.n)

/-- The bytes of a segment that lie in the square, as its dirty mask has them. -/
def squarePart (g : Segment) (sq : Nat) : BitVec 1024 :=
  let lo := max g.pa (1024 * sq)
  if 1024 * sq + 1024 ≤ lo then 0 else bytesMask lo (g.pa + g.n - lo)

/-- The rows of a square that lie in a segment. -/
def squareRows (g : Segment) (sq : Nat) : BitVec 32 :=
  let lo := max g.pa (1024 * sq)
  rowsOf lo (min (1024 * sq + 1024) (g.pa + g.n) - lo)

/-- The 128-byte parts of a line of the memory-side cache that lie in a segment. -/
def farPart (g : Segment) (l : MscLine) : BitVec 32 :=
  maskOf 32 ((upto 32).filter (fun i => inSegment g (farBase + 4096 * l.line + 128 * i)))

/-- A line of the memory-side cache without the dirty parts that lie in a segment. -/
def cleanFar (g : Segment) (l : MscLine) : MscLine := { l with dirty := l.dirty &&& ~~~(farPart g l) }

/-- A square without the dirty bytes that lie in a segment. -/
def cleanPart (g : Segment) (sq : Nat) (q : Square) : Square := { q with dirty := q.dirty &&& ~~~(squarePart g sq) }

/-- The squares of a segment without its lines; one that has no valid row left is evicted. -/
def dropRows (g : Segment) (s : State) (sq : Nat) : State :=
  match tget s.squares sq with
  | none => s
  | some q =>
    let q := { cleanPart g sq q with valid := q.valid &&& ~~~(squareRows g sq) }
    if q.valid = 0 then evictSquare s sq q else { s with squares := tset s.squares sq q }

/-- The squares that a segment touches. -/
def squaresIn (s : State) (g : Segment) : List Nat := (s.squares.map (·.1)).filter (fun sq => squareRows g sq != 0)

/-- Drops memory's bytes of a segment: each reads as it did or 0, a free choice (R322). -/
def dropBytes (s : State) (g : Segment) : State :=
  let hit := s.mem.filter (fun c => inSegment g c.1)
  let gone := (((upto hit.length).zip hit).filter (fun c => Config.freeBool (s.free + c.1))).map (fun c => c.2.1)
  let s := remember s gone
  let s := { s with mem := s.mem.filter (fun c => !gone.contains c.1), free := s.free + hit.length,
                    poison := s.poison.filter (fun x => !inSegment g (32 * x)),
                    poisonSeen := s.poisonSeen.filter (fun x => !inSegment g (32 * x)) }
  ((s.monitors.map (·.pa) ++ condPlaces s).eraseDups.filter (inSegment g)).foldl fireWord s

/-- DISCARD on one segment: this core's L1 bytes, from cluster scope on L2's, at system scope the memory-side cache's. -/
def discardSegment (s : State) (core : Nat) (scope : BitVec 2) (g : Segment) : State :=
  let s := dropL1 s core (fun a _ => inSegment g a)
  if scope = 0 then s
  else
    let s := dropBytes s g
    let s := (squaresIn s g).foldl (dropRows g) s
    if scope = 3 then
      let kept := s.msc.filter (fun e => farPart g e.2 != BitVec.allOnes 32)
      { s with msc := kept.map (fun (e : Nat × MscLine) => (e.1, cleanFar g e.2)) }
    else s

/-- The checked granules of a range in ascending address order. -/
def segmentGranules (l : List Segment) : List (Nat × Granule) :=
  l.flatMap (fun g => if g.checked then
    (upto (g.n / 32)).map (fun i => (g.va + 32 * i, Granule.global ((g.pa + 32 * i) / 32))) else [])

/-- The part of a segment in each square that it touches: an address and a length. -/
def squareRuns (g : Segment) : List (Nat × Nat) :=
  (upto ((g.pa + g.n - 1) / 1024 - g.pa / 1024 + 1)).map (fun i =>
    let a := max g.pa (1024 * (g.pa / 1024 + i))
    (a, min (1024 * (g.pa / 1024 + i) + 1024) (g.pa + g.n) - a))

/-- What is left of the segments below an address. -/
def segmentsBelow (l : List Segment) (va : Nat) : List Segment :=
  l.filterMap (fun g => if g.va < va then some { g with n := min g.n (va - g.va) } else none)

/-- DISCARD (R322, R403): a write by the representative, granule by granule. -/
def discardRange (s : State) (t : Team) (g : Grp) (l : List Segment) : Out :=
  let k := s.cur.team
  let scope := s.cur.hdr.scope
  match representative t g with
  | none => finish s t
  | some rep =>
    let q := qualOf none .write
    let probe := fun (x : Nat × Granule) =>
      ({ lane := rep, addr := BitVec.ofNat 64 x.1, granules := [x.2], q := q, kind := .write, scratch := false } : Probe)
    let gs := segmentGranules l
    -- the tags of the checked squares are read from their shadow
    let s := (l.filter (·.checked)).foldl (fun s x => (squareRuns x).foldl (fun s r =>
      touchSquare s r.1 0 0 none (shadowOf x.leaf r.1) false) s) s
    let mode := (ctxOf s t.info.ctx).racemode
    let acc := raccOf t q .write rep.2
    let racing := if (threadOf t rep.2).unchecked then none
      else gs.find? (fun x => (raceOf (granuleTag s x.2) acc).isSome)
    -- in trap mode the granules up to the first racing one count
    let stopAt := if mode = 1 then racing.map (·.1) else none
    let upTo : List (Nat × Granule) := match stopAt with
      | some a => gs.filter (fun x => decide (x.1 ≤ a))
      | none => gs
    let v := judgeAccesses s t g.pc (upTo.map probe)
    let done := match v.parks, stopAt with
      | [], _ => l
      | (_, p) :: _, some a => if p.code = 0x15 then [] else segmentsBelow l a
      | _, none => []
    let s := if v.parks.any (fun x => x.2.code == 0x15) then
        modTeam v.state k (fun t => modThread t rep.2 (saturate false)) else v.state
    let s := done.foldl (fun s x => discardSegment s t.core scope x) s
    let s := (segmentGranules done).foldl (fun s x => updateTags s t (probe x)) s
    let s := modTeam s k (fun t => modThread t rep.2 (checkDone (!gs.isEmpty)))
    match v.parks with
    | (_, p) :: _ => trapUniform s g p
    | [] =>
      let s := modTeam s k (advance s)
      .next (if v.waits && !gs.isEmpty then
        modTeam s k (fun t => modGroup t g.gid (fun x => { x with wait := .verdict })) else s)

/-- What FLUSH, INVAL and PFETCH do to one segment. -/
def flushSegment (core : Nat) (scope : BitVec 2) (s : State) (g : Segment) : State :=
  let s := writeBackL1 s core (inSegment g)
  if scope = 3 then
    { s with squares := s.squares.map (fun (e : Nat × Square) => (e.1, cleanPart g e.1 e.2)),
             msc := s.msc.map (fun (e : Nat × MscLine) => (e.1, cleanFar g e.2)) }
  else s

def invalSegment (core : Nat) (scope : BitVec 2) (s : State) (g : Segment) : State :=
  let s := flushL1 s core (inSegment g)
  let s := modCore s core (fun c => { c with icache := c.icache.filter (fun x => !inSegment g x.1) })
  if scope = 3 then
    ((squaresIn s g).filter (fun sq => ((tget s.squares sq).elim false (fun q => q.dirty == 0)))).foldl (dropRows g) s
  else s

def pfetchSegment (s : State) (g : Segment) : State :=
  (squareRuns g).foldl (fun s r => (atSlice s (wayOf s g.leaf r.1) g.leaf r.2 0 0 false).2) s

/-- A length above 2^36 (R429). -/
def rangeCheck (sb : BitVec 6) : Check := fun s t g =>
  let len := (uReg (warpOf t g.warp) sb.toNat).toNat
  if 2 ^ 36 < len then some (parkOf s 1 (len % 256) 10) else none

/-- A range operation: its checks (R322, R429, R393), then its effect on the range's pages. -/
def rangeForm (k : Kind) (sa sb : BitVec 6) (run : State → Team → Grp → List Segment → Out) (s : State) : Out :=
  uniformForm false s (fun s t g =>
    let base := uReg (warpOf t g.warp) sa.toNat
    let len := (uReg (warpOf t g.warp) sb.toNat).toNat
    if len = 0 then finish s t
    else if 2 ^ 36 < len then trapUniform s g (parkOf s 1 (len % 256) 10)
    else
      let (faults, l) := segments s t g.handler k base.toNat len (len / 65536 + 2)
      match firstPark faults with
      | some p => trapUniform s g p
      | none =>
        if base.toNat % 128 ≠ 0 ∨ len % 128 ≠ 0 then
          trapUniform s g { code := 0x12, addr := base, info := 128, flags := 0, order := 0 }
        else run (l.foldl (fun s x => tlbFill s t.core t.info.ctx x.va) s) t g l) (rangeCheck sb)

/-- A range operation that makes no write. -/
def rangeEach (f : State → Team → Segment → State) (s : State) (t : Team) (_ : Grp) (l : List Segment) : Out :=
  let s := l.foldl (fun s x => f s t x) s
  .next (modTeam s s.cur.team (advance s))

def execDiscard (sa sb : BitVec 6) (s : State) : Out := rangeForm .write sa sb discardRange s
def execFlush (sa sb : BitVec 6) (s : State) : Out :=
  rangeForm .read sa sb (rangeEach (fun s t x => flushSegment t.core s.cur.hdr.scope s x)) s
def execInval (sa sb : BitVec 6) (s : State) : Out :=
  rangeForm .read sa sb (rangeEach (fun s t x => invalSegment t.core s.cur.hdr.scope s x)) s
def execPfetch (sa sb : BitVec 6) (s : State) : Out :=
  rangeForm .read sa sb (rangeEach (fun s _ x => pfetchSegment s x)) s

/-! ### The residency table (R109, R111, R323) -/

def setResidency (s : State) (id : Nat) (x : BitVec 8) : State := { s with residency := cset 0x08 s.residency id x }

/-- A residency form acts on the entry s[SA][9:0]. -/
def residencyForm (sa : BitVec 6) (f : State → Team → Grp → Nat → State) (s : State) : Out :=
  uniformForm false s (fun s t g =>
    let s := f s t g ((uReg (warpOf t g.warp) sa.toNat).toNat % 1024)
    .next (modTeam s s.cur.team (advance s)))

/-- RESPRI: TIER 11 leaves TIER as it is. -/
def execRespri (sa sb : BitVec 6) (s : State) : Out :=
  residencyForm sa (fun s t g id =>
    let v := (uReg (warpOf t g.warp) sb.toNat).setWidth 8
    let old := residencyOf s id
    setResidency s id (if v.extractLsb' 4 2 = 3 then (old &&& 0xF0) ||| (v &&& 0x0F) else (old &&& 0xC0) ||| (v &&& 0x3F))) s

/-- RESDEM: every square of the id is demoted, or evicted with its bytes written back (R111). -/
def execResdem (sa sb : BitVec 6) (s : State) : Out :=
  residencyForm sa (fun s t g id =>
    if (uReg (warpOf t g.warp) sb.toNat).getLsbD 0 then
      let s := (s.squares.filter (fun e => e.2.rid == id)).foldl (fun s e => evictSquare s e.1 e.2) s
      { s with msc := s.msc.filter (fun e => e.2.rid != id) }
    else { s with squares := s.squares.map (fun e => if e.2.rid == id then (e.1, { e.2 with demoted := true }) else e) }) s

/-- RESPRO: PRI 15, and squares that RESDEM demoted take the entry's priority again. -/
def execRespro (sa : BitVec 6) (s : State) : Out :=
  residencyForm sa (fun s _ _ id =>
    let s := setResidency s id ((residencyOf s id &&& 0xF0) ||| 0x0F)
    { s with squares := s.squares.map (fun e =>
        if e.2.rid == id then (e.1, { e.2 with demoted := false }) else e) }) s

/-- RESQRY: the entry and the number of squares that carry the id. -/
def execResqry (sd sa : BitVec 6) (s : State) : Out :=
  uniformForm true s (fun s t g =>
    let id := (uReg (warpOf t g.warp) sa.toNat).toNat % 1024
    let n := (s.squares.filter (fun e => e.2.rid == id)).length
    finish s (modWarp t g.warp (fun w =>
      setU w sd.toNat (BitVec.ofNat 64 ((residencyOf s id).toNat + n % 2 ^ 20 * 65536)))))

end Sys2Proof.Machine
end

