-- ==== Sys2Proof/Machine/Debug.lean ====
section
/-!
DEFINITION. The debug forms and NOP of the uniform set, and the stops and divergences of the Dytum hub: R336, R337,
R373, R374, R379, R380, R468.
-/

namespace Sys2Proof.Machine

/-! ### Stops and divergences -/

/-- Every clock domain gates: STOPPED reads 1, ARM clears, a STOP record is written (R373). -/
def stopClocks (s : State) : State :=
  let s := regSet { s with stopped := true } 0x30048 (regGet s 0x30048 &&& ~~~(1 : DWord))
  traceRecord s (traceHeader s 6 0 0xFFFF 0 0 0)

/-- A divergence (R379, R468): its record is written, every gate opens, and with STOPD the clocks stop. -/
def diverge (s : State) (header body : List Byte) : State :=
  let s := { traceRecord s (header ++ body) with gatesOpen := true }
  if (regGet s 0x30080).getLsbD 1 then stopClocks s else s

/-! ### MARK and HASHRD -/

/-- An earlier store of the home warp has not retired. -/
def storesOpen (s : State) (t : Team) (g : Grp) : Bool :=
  (coreOf s t.core).reqs.any (fun r => r.store && r.team == s.cur.team && r.hwarp == g.warp)

/-- The SLOT of a record made for a group (R372). -/
def recordSlot (t : Team) (g : Grp) : Nat :=
  match representative t g with
  | some x => (threadOf t x.2).slot
  | none => (threadOf t ((g.lanes.headD (0, 0)).2)).slot

/-- What a MARK record says behind its header (R380). -/
def markBody (t : Team) (g : Grp) (label : DWord) : List Byte :=
  bytesOf 8 (warpOf t g.warp).storehash.toNat ++ bytesOf 8 label.toNat ++ bytesOf 8 (launchWord t.info).toNat ++
    bytesOf 4 t.info.index

/-- The first unconsumed entry of the replay mark table for this mark. -/
def findMark (s : State) (t : Team) (g : Grp) (label : DWord) : Option Nat :=
  let a := fun (i : Nat) => (regGet s 0x30098).toNat + 64 * i
  firstFrom (fun i =>
    !s.marksUsed.contains i && memNat s (a i + 14) 2 == g.warp && memNat s (a i + 32) 8 == label.toNat &&
      memNat s (a i + 40) 8 == (launchWord t.info).toNat && memNat s (a i + 48) 4 == t.info.index)
    0 (regGet s 0x300A0).toNat

/-- Compares a mark with the recorded one (R380). -/
def compareMark (s : State) (t : Team) (g : Grp) (label : DWord) (header : BitVec 8 → List Byte) : State :=
  match findMark s t g label with
  | none => diverge s (header 5) (bytesOf 8 0 ++ [2])
  | some i =>
    let h := memNat s ((regGet s 0x30098).toNat + 64 * i + 24) 8
    let s := { s with marksUsed := nadd s.marksUsed i }
    if h = (warpOf t g.warp).storehash.toNat then s else diverge s (header 5) (bytesOf 8 h ++ [1])

def execMark (sa : BitVec 6) (s : State) : Out :=
  uniformForm false s (fun s t g =>
    if storesOpen s t g then waitFor s t (.retry .mark)
    else
      let label := uReg (warpOf t g.warp) sa.toNat
      let header := fun (kind : BitVec 8) => traceHeader s kind.toNat t.info.ctx t.core (recordSlot t g) g.warp g.pc
      let s := traceRecord s (header 1 ++ markBody t g label)
      let s := if replaying s then compareMark s t g label header else s
      .next (modTeam s s.cur.team (advance s)))

def execHashrd (sd : BitVec 6) (s : State) : Out :=
  uniformForm true s (fun s t g =>
    if storesOpen s t g then waitFor s t (.retry .mark)
    else finish s (modWarp t g.warp (fun w => setU w sd.toNat w.storehash)))

/-! ### BRK, SAMPLE, NOP -/

/-- BRK (R336, R374): every lane parks and the team stops for the debugger. -/
def execBrk (s : State) : Out :=
  uniformForm false s (fun s _ g =>
    trapUniform (modTeam s s.cur.team (fun t => stopTeam s.gtick t (laneMask g.lanes) 0 0xFFFF)) g (breakPark 0))

def execSample (s : State) : Out :=
  uniformForm false s (fun s t g => finish s (modGroup t g.gid (fun x => { x with mark := true })))

def execNop (s : State) : Out := uniformForm false s (fun s t _ => finish s t)

end Sys2Proof.Machine
end

