-- ==== Sys2Proof/Machine/UniSync.lean ====
section
/-!
DEFINITION. Barriers, wait-condition slots and the waits on them, queue ports, extended registers and the issue token of
the uniform set: R140 to R147, R153, R328 to R330, R333 to R335, R422.
-/

namespace Sys2Proof.Machine

/-! ### Barriers (R141, R328, R431) -/

/-- The number under which a barrier is kept: a cluster barrier's stands 16 higher. -/
def barNumber (cluster : Bool) (id : BitVec 6) : Nat := if cluster then 16 + id.toNat else id.toNat

/-- The barrier id is outside its limit (R429). -/
def barBad (cluster : Bool) (id : BitVec 6) : Bool := decide ((if cluster then 8 else 16) ≤ id.toNat)

def barCheck (cluster : Bool) (id : BitVec 6) : Check := fun s _ _ =>
  if barBad cluster id then some (parkOf s 1 id.toNat 10) else none

/-- Arrives for the group's threads; `holds` keeps the group until the phase completes. Threads that have arrived already
wait for that phase first (R141). -/
def arriveForm (cluster holds : Bool) (sd id : BitVec 6) (s : State) : Out :=
  uniformForm true s (fun s t g =>
    if barBad cluster id then trapUniform s g (parkOf s 1 id.toNat 10)
    else
      let k := s.cur.team
      let n := barNumber cluster id
      let b := barOf s t n
      let real := realThreads t g
      if real.any (fun i => b.arrived.contains (arrivalKey k n i)) then
        .next (setTeam s k (hold s t (.bar n b.phase true)))
      else
        let s := if cluster then releaseCore s t.core 1 else s
        let s := modTeam s k (fun t => modWarp t g.warp (fun w => setU w sd.toNat (b.phase.setWidth 64)))
        let s := arrive s k n real
        .next (tryBar (modTeam s k (fun t =>
          if holds then hold s t (.bar n b.phase false) else advance s t)) k n)) (barCheck cluster id)

def execBar (sd id : BitVec 6) (s : State) : Out := arriveForm false true sd id s
def execCbar (sd id : BitVec 6) (s : State) : Out := arriveForm true true sd id s
def execBara (sd id : BitVec 6) (s : State) : Out := arriveForm false false sd id s

/-- The latest phase that threads have arrived at: the one least far behind the open phase. -/
def latestPhase (openPhase : Word) (l : List Word) : Option Word :=
  l.foldl (fun best p => match best with
    | none => some p
    | some q => if (openPhase - p).toNat < (openPhase - q).toNat then some p else some q) none

/-- BARW (R141): waits for the latest phase the group's threads have arrived at. -/
def execBarw (sd id : BitVec 6) (s : State) : Out :=
  uniformForm true s (fun s t g =>
    if barBad false id then trapUniform s g (parkOf s 1 id.toNat 10)
    else
      let k := s.cur.team
      let n := id.toNat
      let b := barOf s t n
      let real := realThreads t g
      let put := fun (p : Word) (t : Team) => modWarp t g.warp (fun w => setU w sd.toNat (p.setWidth 64))
      if real.any (fun i => b.arrived.contains (arrivalKey k n i)) then
        .next (setTeam s k (hold s (put b.phase t) (.bar n b.phase false)))
      else
        let p := (latestPhase b.phase (real.filterMap (fun i => tget (threadOf t i).arrived n))).getD b.phase
        finish s (modThreads (put p t) real (depart s.writes n))) (barCheck false id)

/-! ### Arming a slot (R146, R329) -/

/-- An operand of the wrong alignment: code 0x12. -/
def alignPark (addr : BitVec 64) (w : Nat) : Park :=
  { code := 0x12, addr := addr, info := BitVec.ofNat 64 w, flags := 0, order := 0 }

/-- What is wrong with a scratchpad offset of an object of `n` bytes aligned to `n`. -/
def offsetFault (s : State) (o : Word) (n : Nat) : Option Park :=
  if o.toNat % n ≠ 0 then some (alignPark (o.setWidth 64) n)
  else match resolve s s.cur.team o n with
    | .error r => some { code := 0x13, addr := o.setWidth 64, info := boundInfo o r, flags := 0, order := 0 }
    | .ok _ => none

/-- Arms slot `wn`, or parks the group and leaves the slot as it is. -/
def armForm (wn : BitVec 2) (f : State → Warp → Except Park Cond) (s : State) : Out :=
  uniformForm true s (fun s t g =>
    match f s (warpOf t g.warp) with
    | .error p => trapUniform s g p
    | .ok c => finish s (modWarp t g.warp (fun w => { w with wc := padSet .empty w.wc wn.toNat c })))
    (fun s t g => match f s (warpOf t g.warp) with
      | .error p => if p.code = 1 then some p else none
      | .ok _ => none)

def execWcondAddr (wn : BitVec 2) (sa sb : BitVec 6) (s : State) : Out :=
  armForm wn (fun _ w =>
    let a := uReg w sa.toNat
    let b := uReg w sb.toNat
    if a.toNat % 4 ≠ 0 then .error (alignPark a 4) else .ok (.addr a (b.extractLsb' 32 2) (b.setWidth 32))) s

def execWcondBcb (wn : BitVec 2) (sa : BitVec 6) (s : State) : Out :=
  armForm wn (fun s w =>
    let o := low32 (uReg w sa.toNat)
    match offsetFault s o 16 with
    | some p => .error p
    | none => .ok (.bcb o)) s

def execWcondQueue (wn : BitVec 2) (sa sb : BitVec 6) (s : State) : Out :=
  armForm wn (fun s w =>
    let o := low32 (uReg w sa.toNat)
    let b := uReg w sb.toNat
    let n := b.toNat % 64
    if n = 0 ∨ 32 < n then .error (parkOf s 1 n 10)
    else match offsetFault s o 32 with
      | some p => .error p
      | none => .ok (.queue o (b.getLsbD 8) n)) s

def execWcondCompl (wn : BitVec 2) (sa sb : BitVec 6) (s : State) : Out :=
  armForm wn (fun s w =>
    let a := uReg w sa.toNat
    let b := uReg w sb.toNat
    if b.getLsbD 32 then
      let id := a.toNat % 16
      if a.getLsbD 4 && decide (8 ≤ id) then .error (parkOf s 1 id 10)
      else .ok (.phase (a.getLsbD 4) id (b.setWidth 32))
    else if a.toNat % 4 ≠ 0 then .error (alignPark a 4)
    else .ok (.counter a (b.setWidth 32) (b.extractLsb' 34 2))) s

/-! ### Waiting on slots (R147, R330) -/

/-- The slots a wait selects and what they hold. -/
def selected (w : Warp) (mask : BitVec 4) : List (Nat × Cond) :=
  ((upto 4).filter (fun i => mask.getLsbD i)).map (fun i => (i, w.wc.getD i .empty))

/-- A word of memory as a wait's test reads it; a poisoned one reads 0 (R384). -/
def testWord (s : State) (pa : Nat) : Word := if poisoned s pa 4 then 0 else memWord s pa

/-- Whether a slot's condition holds now; `pa` is where the word of an address or counter lies. -/
def condHolds (s : State) (k : Nat) (t : Team) (c : Cond) (pa : Option Nat) : Bool :=
  match c, pa with
  | .addr _ test v, some a => testHolds test (testWord s a) v
  | .counter _ target _, some a => reached (testWord s a) target
  | .bcb o, _ => offWord s k (o + 4) == some 0
  | .queue o room n, _ =>
    (match currentQueue s k o with
     | none => false
     | some (_, q) => if room then decide (n ≤ q.cap - occupancy q) else decide (n ≤ occupancy q))
  | .phase cl id target, _ => reached (barOf s t (if cl then 16 + id else id)).phase target
  | _, _ => false

/-- The address of a slot's word of memory. -/
def slotAddr (c : Cond) : Option (BitVec 64) :=
  match c with
  | .addr a _ _ => some a
  | .counter a _ _ => some a
  | _ => none

/-- What stands against the selected slots' addresses, and where their words lie (R329, R92). -/
def watchSlots (s : State) (t : Team) (priv : Bool) (l : List (Nat × Cond)) : List Park × List SlotWatch :=
  let found := l.map (fun x => (x.1, (slotAddr x.2).map (fun a => (a, translate s t.core t.info.ctx a .read priv))))
  (found.filterMap (fun x => match x.2 with
      | some (a, .error e) => some { code := BitVec.ofNat 16 e.code, addr := a, info := e.info .read, flags := 0, order := 0 }
      | _ => none),
   found.map (fun x => { slot := x.1, pa := match x.2 with
      | some (a, .ok leaf) => some (wayOf s leaf (leaf.phys a.toNat)).pa
      | _ => none }))

/-- The scope at which a satisfied slot acquires (R146). -/
def slotScope (c : Cond) : Option (BitVec 2) :=
  match c with
  | .bcb _ => some 0
  | .counter _ _ sc => some sc
  | _ => none

/-- The tag that a slot's observation meets: of the counter's granule, or of REMAIN's. -/
def slotTag (s : State) (k : Nat) (c : Cond) (x : SlotWatch) : BitVec 128 :=
  match c, x.pa with
  | .bcb o, _ =>
    (match resolve s k (o + 4) 4 with
     | .ok p => tagBits (granuleTag s (.scratch p.team (p.pos / 32)))
     | .error _ => 0)
  | .counter _ _ _, some a => tagOf s (a / 32)
  | _, _ => 0

/-- The slots among `watch` that `f` selects and whose condition holds now are satisfied, and stay so (R147). -/
def lookSlots (s : State) (k : Nat) (t : Team) (w : Warp) (f : SlotWatch → Bool) (sat : BitVec 4) (watch : List SlotWatch) :
    BitVec 4 × List SlotWatch :=
  let cond := fun (x : SlotWatch) => w.wc.getD x.slot .empty
  let met := watch.filter (fun x => f x && !sat.getLsbD x.slot && condHolds s k t (cond x) x.pa)
  (sat ||| maskOf 4 (met.map (·.slot)),
   watch.map (fun x => if met.contains x then { x with tag := slotTag s k (cond x) x } else x))

/-- A wait ends when any, or every, selected slot is satisfied. -/
def waitEnds (all : Bool) (mask sat : BitVec 4) : Bool := if all then sat == mask else sat != 0

/-- The satisfied slots acquire for the group's threads (R131, R146). -/
def acquireSlots (s : State) (k : Nat) (g : Grp) (w : Warp) (sat : BitVec 4) (watch : List SlotWatch) : State :=
  (watch.filter (fun x => sat.getLsbD x.slot)).foldl (fun s x =>
    match slotScope (w.wc.getD x.slot .empty) with
    | none => s
    | some sc =>
      let s := modTeam s k (fun t => modThreads t (realThreads t g)
        (fun th => acquireAt s.writes sc (clkJoin t (tagRead x.tag).stamp true th)))
      acquireCore s (teamCore s k) sc) s

/-- The core's clean copies of words that a wait has seen are dropped, so that no later load returns an older value
(R125). -/
def dropSeen (s : State) (core : Nat) (sat : BitVec 4) (watch : List SlotWatch) : State :=
  dropL1 s core (fun a b => !b.dirty && watch.any (fun x => sat.getLsbD x.slot && (match x.pa with
    | some pa => decide (pa ≤ a) && decide (a < pa + 4)
    | none => false)))

/-- A wait ends: its monitors are freed, the satisfied slots acquire, s[SD] receives the result. -/
def endWait (s : State) (k : Nat) (g : Grp) (sd : BitVec 6) (sat : BitVec 4) (expired : Bool) (watch : List SlotWatch) :
    State :=
  match tget s.teams k with
  | none => s
  | some t =>
    let s := { s with monitors := s.monitors.filter (fun m => !(m.team == k && m.gid == g.gid && m.slot.isSome)) }
    let s := unmarkWaiters s k t g
    let s := dropSeen (acquireSlots s k g (warpOf t g.warp) sat watch) t.core sat watch
    let res : DWord := sat.setWidth 64 ||| (if expired then 0x100 else 0)
    modTeam s k (fun t => advance s (modWarp t g.warp (fun w => setU w sd.toNat res)))

/-- The monitors of the slots that are not satisfied at registration (R144, R405). -/
def slotMonitors (s : State) (k gid : Nat) (w : Warp) (sat : BitVec 4) (watch : List SlotWatch) : State :=
  (watch.filter (fun x => !sat.getLsbD x.slot)).foldl (fun s x =>
    let m := fun (a : Nat) (test : BitVec 2) (v : Word) (counter : Bool) =>
      takeMonitor s { pa := a, test := test, value := v, team := k, gid := gid, tid := none, slot := some x.slot,
                      counter := counter, poll := 0, polled := false }
    match w.wc.getD x.slot .empty, x.pa with
    | .addr _ test v, some a => m a test v false
    | .counter _ v _, some a => m a 0 v true
    | _, _ => s) s

/-- WAITANY and WAITALL (R147, R330). -/
def waitSlots (all : Bool) (sd sa : BitVec 6) (mask : BitVec 4) (s : State) : Out :=
  uniformForm true s (fun s t g =>
    let k := s.cur.team
    let w := warpOf t g.warp
    match g.wait with
    | .slots _ _ sat watch _ expired =>
      let r := if expired then (sat, watch) else lookSlots s k t w (·.pa.isNone) sat watch
      if expired || waitEnds all mask r.1 then .next (endWait s k g sd r.1 expired r.2) else .next s
    | _ =>
      if mask = 0 then finish s (modWarp t g.warp (fun w => setU w sd.toNat 0))
      else
        let (faults, watch) := watchSlots s t g.handler (selected w mask)
        match firstPark faults with
        | some p => trapUniform s g p
        | none =>
          let s := (selected w mask).foldl (fun s x =>
            (slotAddr x.2).elim s (fun a => tlbFill s t.core t.info.ctx a.toNat)) s
          -- the core's own dirty bytes of the words go to memory first (R125)
          let s := (watch.filterMap (·.pa)).foldl (fun s a => settleL1 s t.core a 4) s
          let (sat, watch) := lookSlots s k t w (fun _ => true) 0 watch
          let timeout := (uReg w sa.toNat).toNat
          if waitEnds all mask sat then .next (endWait s k g sd sat false watch)
          else if timeout = 0 then .next (endWait s k g sd sat true watch)
          else
            let s := slotMonitors s k g.gid w sat watch
            let deadline := if timeout = 2 ^ 64 - 1 then none else some (s.gtick + timeout)
            let s := modTeam s k (fun t => hold s t (.slots all mask sat watch deadline false))
            let mine := watch.filterMap (fun x => match w.wc.getD x.slot .empty with
              | .bcb o => some o
              | _ => none)
            .next (markWaiters s k g.warp true mine))

def execWaitany (sd sa : BitVec 6) (mask : BitVec 4) (s : State) : Out := waitSlots false sd sa mask s
def execWaitall (sd sa : BitVec 6) (mask : BitVec 4) (s : State) : Out := waitSlots true sd sa mask s

/-- After every step, the waits on barriers, byte counts and queues note what holds now (R147). -/
def settleWaits (s : State) : State :=
  let look := fun (k : Nat) (t : Team) (g : Grp) =>
    match g.wait with
    | .slots a m sat ws d false =>
      let r := lookSlots s k t (warpOf t g.warp) (·.pa.isNone) sat ws
      { g with wait := .slots a m r.1 r.2 d false }
    | _ => g
  { s with teams := s.teams.map (fun x => (x.1, { x.2 with groups := x.2.groups.map (look x.1 x.2) })) }

/-- A monitor that sees its condition hold now. -/
def monitorSees (s : State) (m : Monitor) : Bool := !m.polled && !poisoned s m.pa 4 && monitorHolds m (memWord s m.pa)

/-- After every step no monitor is left that sees its condition hold (R144): its wait has noted it. -/
def settleMonitors (s : State) : State :=
  (s.monitors.filter (monitorSees s)).foldl
    (fun x m => modTeam x m.team (fun t => modGroup t m.gid (fun g => { g with wait := noteWait m (memWord s m.pa) false (tagOf s (m.pa / 32)) g.wait })))
    { s with monitors := s.monitors.filter (fun m => !monitorSees s m) }

/-! ### Queue ports (R333, R422) -/

/-- Some request of the team waits on port `q`. -/
def portWaits (t : Team) (q : Nat) : Bool :=
  t.groups.any (fun g => match g.wait with
    | .port _ p _ => p == q
    | _ => false)

/-- A port's binding, and the offset that named its descriptor. -/
def setPort (t : Team) (q : Nat) (x : Option Nat) (o : Word) : Team :=
  { t with ports := padSet none t.ports q x, portOffs := padSet 0 t.portOffs q o }

/-- A descriptor that QBIND cannot use (R422). -/
def bindCheck (sa : BitVec 6) : Check := fun s t g =>
  let o := low32 (uReg (warpOf t g.warp) sa.toNat)
  if (offsetFault s o 32).isSome then none
  else match readDescriptor s s.cur.team o, currentQueue s s.cur.team o with
    | some (d, kinds), some (key, now) =>
      if descriptorUsable s key (if isBound s key then now else d) kinds then none else some (parkOf s 1 0 15)
    | _, _ => some (parkOf s 1 0 15)

/-- QBIND: a team-scope release, the descriptor's checks, the binding. -/
def execQbind (q : BitVec 3) (sa : BitVec 6) (s : State) : Out :=
  uniformForm true s (fun s t g =>
    let k := s.cur.team
    let o := low32 (uReg (warpOf t g.warp) sa.toNat)
    if (boundKey t q.toNat).isSome && portWaits t q.toNat then waitFor s t (.retry .qunb)
    else match offsetFault s o 32 with
      | some p => trapUniform s g p
      | none =>
        match resolve s k o 32 with
        | .error _ => .next s
        | .ok p =>
          if !present s p 32 then waitFor s t (.retry .presence)
          else match readDescriptor s k o, currentQueue s k o with
            | some (d, kinds), some (key, now) =>
              if !descriptorUsable s key (if isBound s key then now else d) kinds then trapUniform s g (parkOf s 1 0 15)
              else finish (setQueue (releaseCore s t.core 0) key now) (setPort t q.toNat (some key) o)
            | _, _ => trapUniform s g (parkOf s 1 0 15)) (bindCheck sa)

def execQunb (q : BitVec 3) (s : State) : Out :=
  uniformForm true s (fun s t _ =>
    if (boundKey t q.toNat).isSome && portWaits t q.toNat then waitFor s t (.retry .qunb)
    else finish s (setPort t q.toNat none 0))

def execQstat (sd : BitVec 6) (q : BitVec 3) (s : State) : Out :=
  uniformForm true s (fun s t g =>
    let v : DWord := match boundKey t q.toNat with
      | none => 0
      | some key => match queueOf s key with
        | none => 0
        | some d => (d.tail ++ d.head : BitVec 64)
    finish s (modWarp t g.warp (fun w => setU w sd.toNat v)))

/-- QRESET: the queue is empty; its HEAD is where its TAIL is. -/
def execQreset (q : BitVec 3) (s : State) : Out :=
  uniformForm true s (fun s t _ =>
    let k := s.cur.team
    match boundKey t q.toNat with
    | none => finish s t
    | some key => match queueOf s key with
      | none => finish s t
      | some d =>
        let d := { d with head := d.tail, clks := [] }
        let s := writeBack (setQueue s key d) key d
        .next (modTeam s k (advance s)))

/-! ### Extended registers (R35, R334) -/

/-- The quads of a home warp that need a block and hold none. -/
def quadsNeeding (t : Team) (w : Nat) : List Nat :=
  ((upto 8).map (· + 8 * w)).filter (fun q =>
    (upto 4).any (fun i => (threadOf t (4 * q + i)).live) && (tget t.ext q).isNone)

/-- The blocks of a slice's pool of 128 that resident home warps hold. -/
def blocksHeld (s : State) (core slice : Nat) : Nat :=
  (s.teams.filter (fun x => x.2.core == core)).foldl (fun n x =>
    n + (x.2.ext.filter (fun e => e.1 / 8 % 4 == slice && !(warpOf x.2 (e.1 / 8)).swapped)).length) 0

/-- The groups that wait for blocks on a slice, in order. -/
def regxQueue (s : State) (core slice : Nat) : List (Nat × Nat) :=
  (coreOf s core).regxWait.filter (fun x => match tget s.teams x.1 with
    | some t => (match groupOf t x.2 with
        | some g => g.warp % 4 == slice
        | none => false)
    | none => false)

/-- The quads receive blocks of zeros. -/
def giveBlocks (t : Team) (qs : List Nat) : Team :=
  qs.foldl (fun t q => { t with ext := tset t.ext q (List.replicate 128 0) }) t

def dropRegxWait (s : State) (core k gid : Nat) : State :=
  if (coreOf s core).regxWait.contains (k, gid) then
    modCore s core (fun c => { c with regxWait := c.regxWait.filter (· != (k, gid)) })
  else s

/-- REGX.ACQ: all blocks at once, in the order of asking. -/
def execRegxAcq (s : State) : Out :=
  uniformForm false s (fun s t g =>
    let k := s.cur.team
    let need := quadsNeeding t g.warp
    let sl := g.warp % 4
    if need.isEmpty then finish (dropRegxWait s t.core k g.gid) t
    else if myTurn (regxQueue s t.core sl) (k, g.gid) && decide (blocksHeld s t.core sl + need.length ≤ 128) then
      finish (dropRegxWait s t.core k g.gid) (giveBlocks t need)
    else
      .next (setTeam (modCore s t.core (fun c => { c with regxWait := waitLast c.regxWait (k, g.gid) })) k
        (hold s t (.retry .regx))))

def execRegxRel (s : State) : Out :=
  uniformForm false s (fun s t g => finish s { t with ext := t.ext.filter (fun e => e.1 / 8 != g.warp) })

def execRegxTry (fd : BitVec 3) (s : State) : Out :=
  uniformForm true s (fun s t g =>
    let need := quadsNeeding t g.warp
    let sl := g.warp % 4
    let ok := (regxQueue s t.core sl).isEmpty &&
      (need.isEmpty || decide (blocksHeld s t.core sl + need.length ≤ 128))
    let t := if ok then giveBlocks t need else t
    finish s (modWarp t g.warp (fun w => setFlag w fd.toNat ok)))

/-! ### The issue-priority token (R153, R335) -/

/-- The partner of a home warp in a pair that has formed. -/
def pairedWith (t : Team) (w : Nat) : Option Nat :=
  match (warpOf t w).partner with
  | some p => if (warpOf t p).partner == some w then some p else none
  | none => none

def setToken (t : Team) (w : Nat) (b : Bool) : Team := modWarp t w (fun x => { x with token := b })

def execPrioPass (s : State) : Out :=
  uniformForm false s (fun s t g =>
    match pairedWith t g.warp with
    | some p => if (warpOf t g.warp).token then finish s (setToken (setToken t g.warp false) p true) else finish s t
    | none => finish s t)

/-- PRIO.TAKE. One that waits when its pair dissolves completes: the spec says so only where no pair has formed (R431;
DESIGN CHOICE, log 89). -/
def execPrioTake (s : State) : Out :=
  uniformForm false s (fun s t g =>
    match pairedWith t g.warp with
    | some _ => if (warpOf t g.warp).token then finish s t else waitFor s t (.retry .prio)
    | none => finish s t)

/-- A home warp names a partner: another pair of it dissolves; the pair forms when both have named each other. What the
other warp of a dissolved pair has named stays in force, so that the pair forms again as soon as the first warp names it
again (DESIGN CHOICE, log 89). -/
def namePartner (t : Team) (w p : Nat) : Team :=
  if (warpOf t w).partner = some p then t
  else
    let t := match pairedWith t w with
      | some o => setToken t o false
      | none => t
    let t := modWarp t w (fun x => { x with partner := some p, token := false })
    if (warpOf t p).partner = some w then setToken (setToken t (min w p) true) (max w p) false else t

/-- A partner that is not permitted: the warp itself, or one of another slice. -/
def pairCheck (sa : BitVec 6) : Check := fun s t g =>
  let p := (uReg (warpOf t g.warp) sa.toNat).toNat % 128
  if p = g.warp ∨ p % 4 ≠ g.warp % 4 then some (parkOf s 1 p 16) else none

def execPrioPair (sa : BitVec 6) (s : State) : Out :=
  uniformForm false s (fun s t g =>
    match pairCheck sa s t g with
    | some p => trapUniform s g p
    | none => finish s (namePartner t g.warp ((uReg (warpOf t g.warp) sa.toNat).toNat % 128))) (pairCheck sa)

end Sys2Proof.Machine
end

