-- ==== Sys2Proof/Machine/EngBase.lean ====
section
/-!
DEFINITION. What every engine shares (R130, R131, R170 to R177, R451): the fields of a command, the engines' accesses to
global memory at L2, to scratchpad and to queues, the count-down of a completion object, the end of an operation and its
end in error.
-/

namespace Sys2Proof.Machine

/-! ### Commands (R171, R172) -/

def cmdOp (c : List Byte) : Nat := bytesAt c 0 1
def cmdCk (c : List Byte) : Bool := (bytesAt c 1 1).testBit 0
def cmdFr (c : List Byte) : Bool := (bytesAt c 1 1).testBit 1
def cmdQid (c : List Byte) : Nat := bytesAt c 1 1 / 4
def cmdTag (c : List Byte) : Nat := bytesAt c 2 2
def cmdCompl (c : List Byte) : Nat := bytesAt c 4 8

/-- The 32-bit field at a byte of the command. -/
def cmdWord (o : EngOp) (lo : Nat) : Nat := bytesAt o.cmd lo 4
def cmdLong (o : EngOp) (lo : Nat) : Nat := bytesAt o.cmd lo 8
def cmdOff (o : EngOp) (lo : Nat) : Word := BitVec.ofNat 32 (cmdWord o lo)

/-- Whether engine `inst` of an id serves a core (R10, R171): of DEC, each of the four engines of the core's die. -/
def feeds (eng inst core : Nat) : Bool :=
  match eng with
  | 0 => inst == core
  | 1 => inst == core
  | 2 => inst == core / 8
  | 3 => inst / 4 == core / 96
  | 4 => inst == core / 96
  | 5 => inst == core
  | _ => inst == 0

/-- The unit that an engine's command errors name (R470). -/
def errorUnit (o : EngOp) : BitVec 16 :=
  match o.eng with
  | 2 => unitOf 2 o.inst
  | 3 => unitOf 2 o.inst
  | 4 => unitOf 2 o.inst
  | 6 => unitOf 2 0
  | _ => unitOf 0 o.core

def opOf (s : State) (id : Nat) : Option EngOp := s.ops.find? (fun o => o.id == id)

def setOp (s : State) (o : EngOp) : State := { s with ops := s.ops.map (fun x => if x.id == o.id then o else x) }

def modOp (s : State) (id : Nat) (f : EngOp → EngOp) : State :=
  { s with ops := s.ops.map (fun x => if x.id == id then f x else x) }

/-- Counts a command error and writes its event (R451). -/
def engError (s : State) (o : EngOp) (code addr : Nat) : State :=
  crumb (countReg s (0x80110 + 8 * o.eng) 1) 0x0100 (errorUnit o)
    (bytesOf 2 (cmdTag o.cmd) ++ bytesOf 1 code ++ bytesOf 1 o.eng ++ bytesOf 4 0 ++ bytesOf 8 addr)

/-! ### Presence (R101, R102, R396) -/

/-- A place inside a block of scratchpad: the offset `d` bytes on, unless BYTE would pass its 24 bits. -/
def offPlus (o : Word) (d : Nat) : Option Word :=
  if offByte o + d < 2 ^ 24 then some (o + BitVec.ofNat 32 d) else none

/-- The REASON of R395 why `n` bytes at byte `d` of a block lie nowhere. -/
def blockFault (s : State) (k : Nat) (o : Word) (d n : Nat) : Bool :=
  match offPlus o d with
  | none => true
  | some x => match resolve s k x n with
    | .ok _ => false
    | .error _ => true

/-- A run of scratchpad bytes that no swizzle divides: where it lies, its bytes, and the offset that names it. -/
structure SpotRun where
  spot : Spot
  n : Nat
  off : Word
deriving DecidableEq, Repr

/-- The runs of at most 16 bytes of a block's bytes from `d` on. -/
def blockSpots (s : State) (k : Nat) (o : Word) : Nat → Nat → Nat → List SpotRun
  | 0, _, _ => []
  | fuel + 1, d, n =>
    if n = 0 then []
    else
      let m := min n (16 - (offByte o + d) % 16)
      let rest := blockSpots s k o fuel (d + m) (n - m)
      match offPlus o d with
      | none => rest
      | some x => match resolve s k x m with
        | .ok p => { spot := p, n := m, off := x } :: rest
        | .error _ => rest

def spotsFor (s : State) (k : Nat) (o : Word) (d n : Nat) : List SpotRun := blockSpots s k o (n / 16 + 2) d n

/-- Adds a run to the lines an operation will write. -/
def addLine (l : List (Nat × Nat × Nat)) (x : SpotRun) : List (Nat × Nat × Nat) :=
  let line := x.spot.pos / 128
  if l.any (fun y => y.1 == x.spot.team && y.2.1 == line) then
    l.map (fun y => if y.1 == x.spot.team && y.2.1 == line then (y.1, y.2.1, y.2.2 + x.n) else y)
  else l ++ [(x.spot.team, line, x.n)]

def clearLines (s : State) (l : List (Nat × Nat × Nat)) : State :=
  l.foldl (fun s x => modTeam s x.1 (fun t => { t with absent := nadd t.absent x.2.1 })) s

def setLines (s : State) (l : List (Nat × Nat × Nat)) : State :=
  l.foldl (fun s x => modTeam s x.1 (fun t => { t with absent := t.absent.filter (· != x.2.1) })) s

/-- A run's bytes have arrived. -/
def arriveRun (l : List (Nat × Nat × Nat)) (x : SpotRun) : List (Nat × Nat × Nat) :=
  l.map (fun y => if y.1 == x.spot.team && y.2.1 == x.spot.pos / 128 then (y.1, y.2.1, y.2.2 - x.n) else y)

/-- The lines whose bytes have all arrived become present. -/
def settleLines (s : State) (o : EngOp) : State × EngOp :=
  (setLines s (o.lines.filter (fun y => y.2.2 == 0)), { o with lines := o.lines.filter (fun y => y.2.2 != 0) })

/-! ### The race check of an operation (R117, R130, R133) -/

/-- One access of an operation to checked memory, always performed: a race writes its record where records are made. `addr`
is its virtual address, or its scratchpad offset (R399). -/
def opRace (s : State) (o : EngOp) (k : Kind) (stamp : Option Stamp) (scratch : Bool) (addr : Nat) (gs : List Granule) :
    State :=
  if gs.isEmpty then s
  else
    let a : RAcc :=
      { agent := agentOf 1 o.core o.slot, clk := o.clk, kind := k, atomic := k == .rmw, stamp := stamp, sat := o.sat }
    let mode := (ctxOf s o.ctx).racemode.toNat
    let race := if mode = 1 ∨ mode = 2 then
        gs.findSome? (fun g => (raceOf (granuleTag s g) a).map (fun w => (g, w)))
      else none
    let s := match race with
      | none => s
      | some (g, prior) =>
        let tag := granuleTag s g
        let launch := match tget s.teams o.team with
          | some t => launchWord t.info
          | none => 0
        let rel := if stamp.isSome then 16 else 0
        let r : Report :=
          { pc := 0, mask := 0, kindBits := k.num + (if k == .rmw then 4 else 0) + (if scratch then 8 else 0) + rel,
            prior := (if prior then 1 else 0) + (if (if prior then tag.watom else tag.ratom) then 2 else 0), mode := mode,
            addr := BitVec.ofNat 64 addr, agent := a.agent, clk := o.clk,
            oagent := if prior then tag.wagent else tag.ragent, oclk := if prior then tag.wclk else tag.rclk,
            qual := (match stamp with
              | some e => 2 + 4 * e.scope.toNat
              | none => 0), tag := tag, launch := launch }
        (reportRace s o.ctx (judge o.core g) r).2
    gs.foldl (fun s g => setGranuleTag s g (tagUpdate (granuleTag s g) a)) s

/-! ### Global memory (R175) -/

/-- A piece of an operation's global bytes inside one 128-byte line. -/
structure Piece where
  va : Nat
  n : Nat
  leaf : Leaf
  pa : Nat
deriving DecidableEq, Repr

/-- The pieces of `n` bytes from an address, or the error code and the address that fails (R451 code 1). -/
def opPieces (s : State) (o : EngOp) (k : Kind) : Nat → Nat → Nat → Except (Nat × Nat) (List Piece)
  | 0, _, _ => .ok []
  | fuel + 1, va, n =>
    if n = 0 then .ok []
    else
      let va := va % 2 ^ 64
      let m := min n (128 - va % 128)
      match translate s o.core o.ctx (BitVec.ofNat 64 va) k o.priv with
      | .error _ => .error (1, va)
      | .ok leaf =>
        match opPieces s o k fuel (va + m) (n - m) with
        | .error e => .error e
        | .ok l => .ok ({ va := va, n := m, leaf := leaf, pa := leaf.phys va } :: l)

def piecesFor (s : State) (o : EngOp) (k : Kind) (va n : Nat) : Except (Nat × Nat) (List Piece) :=
  opPieces s o k (n / 128 + 2) va n

/-- The agent as which a slice logs an operation's access: its issuing thread, or for the own node's peer window a peer
(R92, R378). -/
def pieceLog (s : State) (o : EngOp) (p : Piece) : Option (Nat × Nat) :=
  let w := wayOf s p.leaf p.pa
  if w.management.isSome then none
  else if w.peer then (pageOver s Leaf.recorded w.pa).map (fun _ => (w.pa, logAgent 0x3FF 1))
  else if p.leaf.recorded then some (w.pa, logAgent o.core o.slot) else none

/-- The replay gate over one piece (R378, R379): the slice serves it, or it has arrived at a gate that holds it back. -/
def pieceGate (s : State) (o : EngOp) (p : Piece) : Bool × State :=
  match pieceLog s o p with
  | none => (true, s)
  | some (pa, agent) =>
    if gateAdmits s (homeSlice pa) agent then (true, servedAt s (homeSlice pa) agent)
    else (false, gateArrive s (homeSlice pa))

/-- The gates over several pieces, one after another: the slice of the first that is held back, or the machine once all have
been served. -/
def passGates (o : EngOp) : List Piece → State → Except Nat State
  | [], s => .ok s
  | p :: rest, s =>
    match pieceGate s o p with
    | (true, s) => passGates o rest s
    | (false, _) => .error (homeSlice (wayOf s p.leaf p.pa).pa)

/-- The gates over the pieces of one move: none is served before all can be. -/
def opGate (s : State) (o : EngOp) (l : List Piece) : Bool × State :=
  match passGates o l s with
  | .ok s => (true, s)
  | .error slice => (false, gateArrive s slice)

/-- The checked granules of a piece; an access through the own node's peer window is a peer's (R92). -/
def pieceGranules (s : State) (p : Piece) : List Granule :=
  if p.leaf.checked && !(wayOf s p.leaf p.pa).peer then (granulesOf p.pa p.n).map .global else []

/-- Reads a piece at L2: poison and a lost far line give zeros (R384, R458). -/
def readPiece (s : State) (o : EngOp) (rid : Nat) (cache : BitVec 2) (p : Piece) : List Byte × State :=
  let w := { wayOf s p.leaf p.pa with inL1 := false }
  match w.management with
  | some off =>
    ((upto p.n).map (fun i => (bytesOf 8 (mgmtRead s ((off + i) / 8 * 8)).toNat).getD ((off + i) % 8) 0), s)
  | none =>
    let (lost, s) := atSlice (tlbFill s o.core o.ctx p.va) w p.leaf p.n rid cache false
    let s := opRace s o .read none false p.va (pieceGranules s p)
    if lost then (List.replicate p.n 0, consume s w.pa p.n (errorUnit o))
    else if poisoned s w.pa p.n then (cleanBytes s w.pa p.n, consume s w.pa p.n (errorUnit o))
    else (memRead s w.pa p.n, if cache = 2 then dropSquare s (w.pa / 1024) else s)

/-- Writes a piece at L2. A write through the own node's peer window is a peer's (R92). -/
def writePiece (s : State) (o : EngOp) (rid : Nat) (cache : BitVec 2) (p : Piece) (d : List Byte) : State :=
  let w := { wayOf s p.leaf p.pa with inL1 := false }
  match w.management with
  | some off =>
    if off % 8 = 0 then
      (upto (p.n / 8)).foldl (fun s i => mgmtQueue s (off + 8 * i) (BitVec.ofNat 64 (bytesAt d (8 * i) 8))) s
    else s
  | none =>
    let (lost, s) := atSlice (tlbFill s o.core o.ctx p.va) w p.leaf p.n rid cache true
    let s := opRace s o .write none false p.va (pieceGranules s p)
    if lost then s
    else
      let s := memWrite s w.pa d
      if w.peer then (granulesOf w.pa p.n).foldl peerMark s else s

def readPieces (o : EngOp) (rid : Nat) (cache : BitVec 2) : List Piece → State → List Byte × State
  | [], s => ([], s)
  | p :: rest, s =>
    let (d, s) := readPiece s o rid cache p
    let (ds, s) := readPieces o rid cache rest s
    (d ++ ds, s)

def writePieces (o : EngOp) (rid : Nat) (cache : BitVec 2) : List Piece → List Byte → State → State
  | [], _, s => s
  | p :: rest, d, s => writePieces o rid cache rest (d.drop p.n) (writePiece s o rid cache p (d.take p.n))

/-- What a run of accesses that gates order comes to. -/
inductive Got where
  | all (s : State)
  | held (s : State)
  | failed (s : State) (code addr : Nat)
deriving DecidableEq, Repr

/-- Reads on until `total` bytes from an address are at hand, line by line; what has been read stays while a gate holds the
rest back (R379). -/
def readUpTo (id va total rid : Nat) (cache : BitVec 2) : Nat → State → Got
  | 0, s => .held s
  | fuel + 1, s =>
    match opOf s id with
    | none => .held s
    | some o =>
      let d := o.buf.length
      if total ≤ d then .all s
      else match piecesFor s o .read (va + d) (min (total - d) (128 - (va + d) % 128)) with
        | .error e => .failed s e.1 e.2
        | .ok l => match opGate s o l with
          | (false, s) => .held s
          | (true, s) =>
            let (b, s) := readPieces o rid cache l s
            readUpTo id va total rid cache fuel (modOp s id (fun y => { y with buf := y.buf ++ b }))

/-- Writes on until all of `b` is written from an address, of which `skip` bytes of other writes came before. -/
def writeUpTo (id va : Nat) (b : List Byte) (skip : Nat) : Nat → State → Got
  | 0, s => .held s
  | fuel + 1, s =>
    match opOf s id with
    | none => .held s
    | some o =>
      let d := o.put - skip
      if b.length ≤ d then .all s
      else
        let m := min (b.length - d) (128 - (va + d) % 128)
        match piecesFor s o .write (va + d) m with
        | .error e => .failed s e.1 e.2
        | .ok l => match opGate s o l with
          | (false, s) => .held s
          | (true, s) =>
            let s := writePieces o 0 0 l ((b.drop d).take m) s
            writeUpTo id va b skip fuel (modOp s id (fun y => { y with put := skip + d + m }))

/-! ### Moving a unit -/

/-- Where a unit's bytes come from or go to: global memory, a block of scratchpad, a queue, or bytes at hand. -/
inductive Side where
  | glob (va : Nat)
  | spad (off : Word)
  | queue (off : Word)
  | held (l : List Byte)
deriving DecidableEq, Repr

/-- A unit's transfer. -/
structure Xfer where
  src : Side
  dst : Side
  n : Nat
  rid : Nat
  cache : BitVec 2
deriving DecidableEq, Repr

/-- What a try to move the next piece comes to. -/
inductive Moved where
  | some (m : Nat) (s : State)
  | stuck (s : State)
  | failed (s : State) (code addr : Nat)
deriving DecidableEq, Repr

/-- The name under which an operation waits on a queue. -/
def opWaiter (o : EngOp) : Nat × Nat := (2 ^ 32, o.id)

/-- How many bytes the next piece may take at a side: within one line of memory (R287), or a run of at most 32 entries
(R152). -/
def sideRoom (s : State) (o : EngOp) (x : Side) (out : Bool) : Nat :=
  match x with
  | .glob va => 128 - (va + o.done) % 128
  | .spad _ => 128
  | .held _ => 2 ^ 20
  | .queue off =>
    match resolve s o.team off 32 with
    | .error _ => 0
    | .ok p =>
      if !present s p 32 then 0
      else match currentQueue s o.team off with
        | none => 0
        | some (_, q) =>
          let free := if out then (if myTurn q.pushers (opWaiter o) then q.cap - occupancy q else 0)
            else (if myTurn q.poppers (opWaiter o) then occupancy q else 0)
          4 * min 32 free

/-- The operation takes its place among a queue's waiting requests (R151). -/
def joinQueue (s : State) (o : EngOp) (x : Side) (out : Bool) : State :=
  match x with
  | .queue off =>
    match currentQueue s o.team off with
    | none => s
    | some (key, q) =>
      setQueue s key (if out then { q with pushers := waitLast q.pushers (opWaiter o) }
        else { q with poppers := waitLast q.poppers (opWaiter o) })
  | _ => s

/-- Whether the lines a piece reads from scratchpad are present (R175). -/
def spadReady (s : State) (l : List SpotRun) : Bool := l.all (fun x => present s x.spot x.n)

/-- The granules of a run in a checked window. -/
def runGranules (x : SpotRun) : List Granule :=
  if x.spot.chk then (granulesOf x.spot.pos x.n).map (.scratch x.spot.team) else []

/-- Reads scratchpad runs: a poisoned one gives zeros (R384). -/
def readSpots (o : EngOp) : List SpotRun → State → List Byte × State
  | [], s => ([], s)
  | x :: rest, s =>
    let s := opRace s o .read none true x.off.toNat (runGranules x)
    let (d, s) := scratchRead s x.spot.team x.spot.pos x.n (errorUnit o)
    let (ds, s) := readSpots o rest s
    (d.1 ++ ds, s)

def writeSpots (o : EngOp) : List SpotRun → List Byte → State → State
  | [], _, s => s
  | x :: rest, d, s =>
    let s := opRace s o .write none true x.off.toNat (runGranules x)
    writeSpots o rest (d.drop x.n) (scratchStore s x.spot.team x.spot.pos (d.take x.n))

/-- Takes `m` bytes at byte `d` of a source. A pop joins the producers' clocks (R133). -/
def takeBytes (s : State) (o : EngOp) (x : Xfer) (d m : Nat) (l : List Piece) : List Byte × State :=
  match x.src with
  | .glob _ => readPieces o x.rid x.cache l s
  | .held b => ((b.drop d).take m, s)
  | .spad off => readSpots o (spotsFor s o.team off d m) s
  | .queue off =>
    match currentQueue s o.team off with
    | none => ([], s)
    | some (key, q) =>
      let (got, s) := popEntries s key q (opWaiter o) (errorUnit o) (m / 4)
      let top := got.foldl (fun c e => max c e.2.toNat) 0
      let clk := max o.clk.toNat top + 1
      (got.flatMap (fun e => bytesOf 4 e.1.toNat), modOp s o.id (fun y =>
        if clk < 2 ^ 32 then { y with clk := BitVec.ofNat 32 clk } else { y with sat := true }))

/-- Gives `m` bytes at byte `d` of a destination; scratchpad bytes arrive at their lines. -/
def giveBytes (s : State) (o : EngOp) (x : Xfer) (d : Nat) (b : List Byte) (l : List Piece) : State :=
  match x.dst with
  | .glob _ => writePieces o x.rid x.cache l b s
  | .held _ => s
  | .spad off =>
    let ps := spotsFor s o.team off d b.length
    modOp (writeSpots o ps b s) o.id (fun y => { y with lines := ps.foldl arriveRun y.lines })
  | .queue off =>
    match currentQueue s o.team off with
    | none => s
    | some (key, q) =>
      pushEntries s key q (opWaiter o)
        ((upto (b.length / 4)).map (fun i => (BitVec.ofNat 32 (bytesAt b (4 * i) 4), o.clk)))

def sidePieces (s : State) (o : EngOp) (x : Side) (k : Kind) (d m : Nat) : Except (Nat × Nat) (List Piece) :=
  match x with
  | .glob va => piecesFor s o k (va + d) m
  | _ => .ok []

def Side.isQueue : Side → Bool
  | .queue _ => true
  | _ => false

/-- How many bytes the next piece moves: whole entries where a side is a queue, and of an entry that two lines of memory
share all four. -/
def pieceSize (s : State) (o : EngOp) (x : Xfer) : Nat :=
  let m := min (x.n - o.done) (min (sideRoom s o x.src false) (sideRoom s o x.dst true))
  if (x.src.isQueue || x.dst.isQueue) && m % 4 != 0 then (if m < 4 then 4 else m / 4 * 4) else m

/-- Tries to move the next piece of a unit. -/
def moveOne (s : State) (o : EngOp) (x : Xfer) : Moved :=
  let d := o.done
  let m := pieceSize s o x
  if m = 0 then .stuck (joinQueue (joinQueue s o x.src false) o x.dst true)
  else
    match sidePieces s o x.src .read d m, sidePieces s o x.dst .write d m with
    | .error (c, a), _ => .failed s c a
    | _, .error (c, a) => .failed s c a
    | .ok ls, .ok ld =>
      let ready := match x.src with
        | .spad off => spadReady s (spotsFor s o.team off d m)
        | .queue off => (currentQueue s o.team off).elim true (fun y => ringPresent s y.1 y.2 y.2.head.toNat (m / 4))
        | _ => true
      if !ready then .stuck s
      else match opGate s o (ls ++ ld) with
        | (false, s) => .stuck s
        | (true, s) =>
          let (b, s) := takeBytes s o x d m ls
          match opOf s o.id with
          | none => .stuck s
          | some o' => .some m (modOp (giveBytes s o' x d b ld) o.id (fun y => { y with done := d + m }))

/-- Moves pieces of a unit until it is whole or stuck. -/
def moveUnit (id : Nat) (x : Xfer) : Nat → State → Moved
  | 0, s => .stuck s
  | fuel + 1, s =>
    match opOf s id with
    | none => .stuck s
    | some o =>
      if x.n ≤ o.done then .some 0 s
      else match moveOne s o x with
        | .some _ s => moveUnit id x fuel s
        | r => r

/-! ### Completion (R131, R143, R177) -/

/-- The stamp E of an operation's completion (R133): none past the largest clock (R401). -/
def endStamp (o : EngOp) (scope : BitVec 2) (inst : BitVec 22) : Option Stamp :=
  if o.sat || o.clk == BitVec.allOnes 32 then none else some { clock := o.clk + 1, scope := scope, inst := inst }

/-- Counts a byte-count barrier down, or to zero, and adds to CORRUPT (R143, R451). -/
def countDown (s : State) (o : EngOp) (bytes : Option Nat) (corrupt : Nat) : State :=
  match resolve s o.team (cmdOff o 4) 16 with
  | .error _ => s
  | .ok p =>
    if bytes = some 0 ∧ corrupt = 0 then s
    else
      let remain := ofBytes (scratchBytes s p.team (p.pos + 4) 4)
      let bad := ofBytes (scratchBytes s p.team (p.pos + 8) 4)
      let left := match bytes with
        | some n => remain - min n remain
        | none => 0
      let s := opRace s o .rmw (endStamp o 0 (BitVec.ofNat 22 p.team)) true (cmdOff o 4 + 4).toNat
        (if p.chk then [.scratch p.team (p.pos / 32)] else [])
      scratchStore s p.team (p.pos + 4) (bytesOf 4 left ++ bytesOf 4 (bad + corrupt))

/-- The scope of an operation's counter release. -/
def counterScope (o : EngOp) : BitVec 2 := if o.eng = 4 ∨ o.eng = 6 then 3 else 2

/-- Where the counter lies, when it can be incremented (R131). -/
def counterPiece (s : State) (o : EngOp) : Option Piece :=
  let va := cmdCompl o.cmd
  if va % 4 ≠ 0 then none
  else match translate s o.core o.ctx (BitVec.ofNat 64 va) .rmw o.priv with
    | .error _ => none
    | .ok leaf => some { va := va, n := 4, leaf := leaf, pa := leaf.phys va }

/-- Increments the counter once, with its release. One that can no longer be reached is counted with code 2. -/
def bumpCounter (s : State) (o : EngOp) : State :=
  match counterPiece s o with
  | none => engError s o 2 (cmdCompl o.cmd)
  | some p =>
    let w := { wayOf s p.leaf p.pa with inL1 := false }
    let (lost, s) := atSlice (tlbFill s o.core o.ctx p.va) w p.leaf 4 0 0 true
    let s := opRace s o .rmw (endStamp o (counterScope o) 0) false p.va (pieceGranules s p)
    if lost || w.management.isSome then s
    else
      let s := consumeAt (unitOf 1 (homeSlice w.pa)) s w.pa 4
      let old := if poisoned s w.pa 4 then 0 else ofBytes (memRead s w.pa 4)
      let s := memWrite s w.pa (bytesOf 4 (old + 1))
      if w.peer then peerMark s (w.pa / 32) else s

/-- The gate over the increment of an operation's counter. -/
def counterGate (s : State) (o : EngOp) : Bool × State :=
  match (if cmdCk o.cmd then counterPiece s o else none) with
  | none => (true, s)
  | some p => pieceGate s o p

/-- R451: the completion object itself fails the checks. -/
def completionBad (s : State) (o : EngOp) : Bool :=
  if cmdCk o.cmd then (counterPiece s o).isNone
  else cmdCompl o.cmd / 2 ^ 32 != 0 || cmdCompl o.cmd % 16 != 0 ||
    (match resolve s o.team (cmdOff o 4) 16 with
     | .ok _ => false
     | .error _ => true)

/-! ### The shape of an operation: its units and its bytes -/

/-- The pages that a KVS operation streams (R180): from FIRST to the end of what the sequence holds. -/
def kvsPages (o : EngOp) : Nat :=
  let first := cmdWord o 20
  let last := min (first + cmdWord o 24) (o.aux.getD 0 0)
  if first < last then (last - 1) / 16 - first / 16 + 1 else 0

def kvsTile (o : EngOp) : Nat := 16 * o.aux.getD 1 0

/-- CPY's chunks in a row (R178). -/
def cpyChunks (o : EngOp) : Nat := (cmdWord o 12 + 4095) / 4096

/-- Bytes of an element of a collective (R183). -/
def colSize (o : EngOp) : Nat := if cmdWord o 12 % 256 = 1 then 2 else 4

/-- Elements per member of the result that a collective's segments cut (R183): of a REDUCESCATTER, COUNT / N. -/
def colPer (o : EngOp) : Nat := if cmdOp o.cmd = 2 then cmdWord o 40 / max 1 (o.aux.getD 0 1) else cmdWord o 40

/-- How many units an operation has, and how many bytes in all. -/
def opShape (o : EngOp) : Nat × Nat :=
  match o.eng with
  | 0 => (cmdWord o 40 * cpyChunks o, cmdWord o 40 * cmdWord o 12)
  | 1 => (cmdWord o 36, cmdWord o 36 * cmdWord o 12)
  | 2 => (kvsPages o, kvsPages o * kvsTile o)
  | 3 => (o.aux.getD 0 0, o.aux.getD 0 0 * o.aux.getD 1 0)
  | 4 => ((colPer o * colSize o + 65535) / 65536, 0)
  | 5 => (1, cmdWord o 28)
  | _ => (1, 0)

/-- Bytes of the first `u` units. -/
def bytesBefore (o : EngOp) (u : Nat) : Nat :=
  match o.eng with
  | 0 => if cpyChunks o = 0 then 0 else u / cpyChunks o * cmdWord o 12 + u % cpyChunks o * 4096
  | 1 => u * cmdWord o 12
  | 2 => u * kvsTile o
  | 3 => u * o.aux.getD 1 0
  | _ => 0

/-! ### The end of an operation -/

/-- The operation leaves the machine and the queues it waits on. -/
def removeOp (s : State) (o : EngOp) : State :=
  let s := { s with ops := s.ops.filter (fun x => x.id != o.id) }
  { s with queues := s.queues.map (fun q =>
      (q.1, { q.2 with poppers := q.2.poppers.filter (· != opWaiter o), pushers := q.2.pushers.filter (· != opWaiter o) })) }

/-- What is left of an operation is the increment of its counter: it is over, or waits at the gate. -/
def endCounter (s : State) (o : EngOp) : State :=
  match counterGate s o with
  | (true, s) => removeOp (if cmdCk o.cmd then bumpCounter s o else s) o
  | (false, s) => setOp s { o with lines := [], ending := true, phase := .stalled }

/-- An operation has performed all its writes. -/
def completeOp (s : State) (o : EngOp) : State := endCounter (setLines s o.lines) o

/-- A KVS operation lets go of the page it has pinned (R180, R466). -/
def unpinHeld (s : State) (o : EngOp) : State :=
  if o.eng = 2 ∧ o.aux.getD 2 0 ≠ 0 then dropPin s (o.aux.getD 2 0 - 1) else s

/-- An operation ends in error (R451): nothing more is written, the bytes not yet counted are counted down, the units
not delivered are added to CORRUPT, the presence bits are set again and the error is counted. A DEC unit whose frame is
not known counts to zero, as R454 does. -/
def failOp (s : State) (o : EngOp) (code addr : Nat) : State :=
  let s := setLines (unpinHeld (engError s o code addr) o) o.lines
  let (units, bytes) := opShape o
  let s := if cmdCk o.cmd then s
    else if o.eng = 3 ∧ units = 0 then countDown s o none 1
    else countDown s o (some (bytes - bytesBefore o o.unit)) (units - o.unit)
  endCounter s o

/-- A command whose completion object fails the checks: no write, no signal, code 2. -/
def voidOp (s : State) (o : EngOp) : State := removeOp (setLines (engError s o 2 (cmdCompl o.cmd)) o.lines) o

/-! ### Queues of commands (R170, R174) -/

/-- The commands in a core's queue for an engine id. -/
def queuedFor (s : State) (core eng : Nat) : List EngOp :=
  s.ops.filter (fun o => o.core == core && o.eng == eng && o.phase == .queued)

def queueFull (s : State) (core eng : Nat) : Bool := decide (16 ≤ (queuedFor s core eng).length)

end Sys2Proof.Machine
end

