-- ==== Sys2Proof/Machine/LaneMem.lean ====
section
/-!
DEFINITION. Lane memory instructions: loads, stores, transposed loads, atomics and WAITC, to global memory and to
scratchpad (R284 to R298, R306).
-/

namespace Sys2Proof.Machine

/-! ### Operands of memory forms (R286, R298, R422) -/

/-- The registers of a tuple. -/
def tuple (vd : BitVec 6) (n : Nat) : List Nat := (upto n).map (· + vd.toNat)

/-- The issue checks of a memory form: a bound port in a tuple, or where `portOk` does not allow one, then missing
registers. -/
def memFaults (s : State) (va vd : BitVec 6) (n : Nat) (portOk : Bool) (t : Team) (part : List (Nat × Nat)) :
    List (Nat × Park) :=
  portFaults s t part (if portOk && n == 1 then [] else tuple vd n) ++ extFaults s t part (va.toNat :: tuple vd n)

/-- Each 4-byte group of the bytes read as one register (R286). -/
def wordsOfBytes (n : Nat) (l : List Byte) : List Word := (upto n).map (fun i => BitVec.ofNat 32 (bytesAt l (4 * i) 4))

/-- Puts the words of each lane into its tuple, sets LSTAT, and lets the group go on. -/
def giveWords (k : Nat) (vd : BitVec 6) (conv : List Byte → List Word) (lstat : Bool) (s : State)
    (res : List (Nat × List Byte × Bool)) : State :=
  let s := if lstat then modTeam s k (fun t =>
      res.foldl (fun t r => modThread t r.1 (fun th => { th with lstat := if r.2.2 then 4 else 0 })) t) else s
  match tget s.teams k with
  | none => s
  | some t =>
    if (portNamed t vd.toNat).isSome then
      deliver s k vd.toNat (res.map (fun r => (r.1, (conv r.2.1).headD 0)))
    else
      setTeam s k (advance s (res.foldl (fun t r =>
        (upto (conv r.2.1).length).foldl (fun t i => setLaneReg t r.1 (vd.toNat + i) ((conv r.2.1).getD i 0)) t) t))

/-- The size in bytes and in registers of a width code (R286). -/
def widthBytes (w : BitVec 2) : Nat := [4, 8, 16, 2].getD w.toNat 4
def widthRegs (w : BitVec 2) : Nat := [1, 2, 4, 1].getD w.toNat 1

/-- The answers by thread. -/
def byThread (l : List (Plan × List Byte × Bool)) : List (Nat × List Byte × Bool) := l.map (fun r => (r.1.lane.2, r.2))

/-- One access of each lane. -/
def oneWant (w : Nat) (addr : Nat × Nat → BitVec 64) (l : Nat × Nat) : Want :=
  { lane := l, ix := 0, addr := addr l, w := w, align := w }

/-- A load form: `n` registers from `w` bytes read as `conv` gives them; one along a column of width `col` goes past L1. -/
def loadForm (sp : Space) (vd va sb : BitVec 6) (w n : Nat) (conv : List Byte → List Word) (mq : Option Mq)
    (col : Option (BitVec 2)) (place : Nat × Nat → BitVec 64 → BitVec 64) (s : State) : Out :=
  laneForm s (fun t _ part => memFaults s va vd n true t part) (fun s t g part =>
    let k := s.cur.team
    if g.pstep = 3 then .next (deliver s k vd.toNat (heldResults t part))
    else match popOperands s k g.gid part 0 [va.toNat] with
      | (false, s) => .next s
      | (true, s) =>
        match tget s.teams k with
        | none => .next s
        | some t =>
          let g := (groupOf t g.gid).getD g
          let addr := fun l => place l (laneAddr sp (uReg (warpOf t (l.2 / 32)) sb.toNat) (operand t 0 va.toNat l.2))
          memAccess s t g sp (tuple vd n) (qualOf mq .read) (.load col.isSome col) (part.map (oneWant w addr))
            (fun s r => giveWords k vd conv true s (byThread r)))

/-- A store form: `n` registers, the low `w` bytes of them. -/
def storeForm (sp : Space) (vd va sb : BitVec 6) (w n : Nat) (mq : Option Mq) (s : State) : Out :=
  laneForm s (fun t _ part => memFaults s va vd n true t part) (fun s _ g part =>
    let k := s.cur.team
    match popOperands s k g.gid part 0 [va.toNat, vd.toNat] with
    | (false, s) => .next s
    | (true, s) =>
      match tget s.teams k with
      | none => .next s
      | some t =>
        let g := (groupOf t g.gid).getD g
        let data := fun tid (_ : Nat) =>
          if n = 1 then bytesOf w (operand t 1 vd.toNat tid).toNat
          else (tuple vd n).flatMap (fun r => bytesOf 4 (laneReg t tid r).toNat)
        let addr := fun (l : Nat × Nat) => laneAddr sp (uReg (warpOf t (l.2 / 32)) sb.toNat) (operand t 0 va.toNat l.2)
        memAccess s t g sp [] (qualOf mq .write) (.store data) ((notHelper t part).map (oneWant w addr))
          (fun s _ => modTeam s k (advance s)))

/-- An atomic form (R295): the word becomes `f operand next old`, the old value goes to vd; helper lanes receive 0. -/
def atomicForm (sp : Space) (vd va sb : BitVec 6) (n : Nat) (f : Word → Word → Word → Option Word) (mq : Option Mq)
    (s : State) : Out :=
  laneForm s (fun t _ part => memFaults s va vd n true t part) (fun s t g part =>
    let k := s.cur.team
    if g.pstep = 3 then .next (deliver s k vd.toNat (heldResults t part))
    else match popOperands s k g.gid part 0 [va.toNat, vd.toNat] with
      | (false, s) => .next s
      | (true, s) =>
        match tget s.teams k with
        | none => .next s
        | some t =>
          let g := (groupOf t g.gid).getD g
          let upd := fun tid old =>
            (f (operand t 1 vd.toNat tid) (laneReg t tid (vd.toNat + 1)) (BitVec.ofNat 32 old)).map (·.toNat)
          let helpers := part.filter (fun l => liveHelper t l.2)
          let addr := fun (l : Nat × Nat) => laneAddr sp (uReg (warpOf t (l.2 / 32)) sb.toNat) (operand t 0 va.toNat l.2)
          memAccess s t g sp [vd.toNat] (qualOf mq .rmw) (.atomic upd) ((notHelper t part).map (oneWant 4 addr))
            (fun s res => giveWords k vd (wordsOfBytes 1) false s
              (byThread res ++ helpers.map (fun l => (l.2, List.replicate 4 0, false)))))

def samePlace (_ : Nat × Nat) (a : BitVec 64) : BitVec 64 := a

/-! ### Loads and stores (R289 to R294) -/

def half (l : List Byte) : List Word := [BitVec.ofNat 32 (bytesAt l 0 2)]

/-- How a width code's bytes fill its registers. -/
def widthConv (w : BitVec 2) : List Byte → List Word := if w = 3 then half else wordsOfBytes (widthRegs w)

def execLd (w : BitVec 2) (vd va sb : BitVec 6) (mq : Option Mq) (s : State) : Out :=
  loadForm .global vd va sb (widthBytes w) (widthRegs w) (widthConv w) mq none samePlace s

/-- LDB: i8 and i16 sign-extend, n8 zero-extends (R290). -/
def execLdb (w : BitVec 2) (vd va sb : BitVec 6) (mq : Option Mq) (s : State) : Out :=
  let n := if w = 2 then 2 else 1
  loadForm .global vd va sb n 1
    (fun l => [if w = 1 then BitVec.ofNat 32 (bytesAt l 0 1)
      else if w = 0 then (BitVec.ofNat 8 (bytesAt l 0 1)).signExtend 32
      else (BitVec.ofNat 16 (bytesAt l 0 2)).signExtend 32]) mq none samePlace s

def execSt (w : BitVec 2) (vd va sb : BitVec 6) (mq : Option Mq) (s : State) : Out :=
  storeForm .global vd va sb (widthBytes w) (widthRegs w) mq s

def execStb (vd va sb : BitVec 6) (mq : Option Mq) (s : State) : Out := storeForm .global vd va sb 1 1 mq s

def execLdx (w : BitVec 2) (vd va sb : BitVec 6) (mq : Option Mq) (s : State) : Out :=
  loadForm .scratch vd va sb (widthBytes w) (widthRegs w) (widthConv w) mq none samePlace s

def execStx (w : BitVec 2) (vd va sb : BitVec 6) (mq : Option Mq) (s : State) : Out :=
  storeForm .scratch vd va sb (widthBytes w) (widthRegs w) mq s

/-- LDT (R294): row LANE of the column that A names; bits [9:5] of A are ignored. -/
def execLdt (w : BitVec 2) (vd va sb : BitVec 6) (mq : Option Mq) (s : State) : Out :=
  let e := 2 ^ w.toNat
  loadForm .global vd va sb e 1 (fun l => [BitVec.ofNat 32 (bytesAt l 0 e)]) mq (some w)
    (fun l a => (a &&& ~~~(0x3E0 : BitVec 64)) + BitVec.ofNat 64 (32 * l.1)) s

/-! ### Atomics (R296, R297) -/

def execAtomAdd (vd va sb : BitVec 6) (mq : Option Mq) (s : State) : Out :=
  atomicForm .global vd va sb 1 (fun v _ x => some (x + v)) mq s
def execAtomFadd (vd va sb : BitVec 6) (mq : Option Mq) (s : State) : Out :=
  atomicForm .global vd va sb 1 (fun v _ x => some (fadd32 x v)) mq s
def execAtomExch (vd va sb : BitVec 6) (mq : Option Mq) (s : State) : Out :=
  atomicForm .global vd va sb 1 (fun v _ _ => some v) mq s
def execAtomCas (vd va sb : BitVec 6) (mq : Option Mq) (s : State) : Out :=
  atomicForm .global vd va sb 2 (fun v n x => some (if x = v then n else x)) mq s
def execAtomNmin (vd va sb : BitVec 6) (mq : Option Mq) (s : State) : Out :=
  atomicForm .global vd va sb 1 (fun v _ x => some (nmin32 x v)) mq s
def execAtomNmax (vd va sb : BitVec 6) (mq : Option Mq) (s : State) : Out :=
  atomicForm .global vd va sb 1 (fun v _ x => some (nmax32 x v)) mq s
def execAtomAnd (vd va sb : BitVec 6) (mq : Option Mq) (s : State) : Out :=
  atomicForm .global vd va sb 1 (fun v _ x => some (x &&& v)) mq s
def execAtomOr (vd va sb : BitVec 6) (mq : Option Mq) (s : State) : Out :=
  atomicForm .global vd va sb 1 (fun v _ x => some (x ||| v)) mq s
def execAtomxAdd (vd va sb : BitVec 6) (mq : Option Mq) (s : State) : Out :=
  atomicForm .scratch vd va sb 1 (fun v _ x => some (x + v)) mq s
def execAtomxExch (vd va sb : BitVec 6) (mq : Option Mq) (s : State) : Out :=
  atomicForm .scratch vd va sb 1 (fun v _ _ => some v) mq s
def execAtomxCas (vd va sb : BitVec 6) (mq : Option Mq) (s : State) : Out :=
  atomicForm .scratch vd va sb 2 (fun v n x => some (if x = v then n else x)) mq s
def execAtomxNmax (vd va sb : BitVec 6) (mq : Option Mq) (s : State) : Out :=
  atomicForm .scratch vd va sb 1 (fun v _ x => some (nmax32 x v)) mq s

/-! ### WAITC (R144, R145, R306) -/

/-- Registers one lane: its condition holds already, or it takes a monitor. The core's own dirty bytes of the word go to
memory first (R125). Of a poisoned word the lane meets zero (R384). -/
def registerLane (k gid : Nat) (test : BitVec 2) (core : Nat) (s : State) (x : LaneWait) : LaneWait × State :=
  let s := settleL1 s core x.pa 4
  let bad := poisoned s x.pa 4 || farLost s x.pa
  let word := if bad then 0 else memWord s x.pa
  let x := { x with gate := none }
  if testHolds test word x.value then
    (metLane word bad (tagOf s (x.pa / 32)) x, if bad then consume s x.pa 4 (unitOf 1 (homeSlice x.pa)) else s)
  else (x, takeMonitor s { pa := x.pa, test := test, value := x.value, team := k, gid := gid, tid := some x.tid,
                           slot := none, counter := false, poll := 0, polled := false })

/-- Registers the lanes that no gate has let pass yet, each line once (R378, R379). `lines` are those asked for. -/
def registerLanes (k gid : Nat) (test : BitVec 2) (core : Nat) : List (Nat × Bool) → List LaneWait → State →
    List LaneWait × State
  | _, [], s => ([], s)
  | lines, x :: rest, s =>
    match x.gate with
    | none =>
      let (xs, s) := registerLanes k gid test core lines rest s
      (x :: xs, s)
    | some agent =>
      let slice := homeSlice x.pa
      let known := lines.find? (fun y => y.1 == x.pa / 128)
      let ok := match known with
        | some y => y.2
        | none => gateAdmits s slice agent
      if ok then
        let (x, s) := registerLane k gid test core (if known.isNone then servedAt s slice agent else s) x
        let (xs, s) := registerLanes k gid test core ((x.pa / 128, true) :: lines) rest s
        (x :: xs, s)
      else
        let (xs, s) := registerLanes k gid test core ((x.pa / 128, false) :: lines) rest (gateArrive s slice)
        (x :: xs, s)

/-- What a lane whose condition has held takes with it: LSTAT (R385), the stamp its relaxed read has met (R133), and that it
has met the word (R125). -/
def metWaitc (s : State) (t : Team) (x : LaneWait) (th : Thread) : Thread :=
  meetValues s x.pa 4 (fun _ => s.writes)
    { clkJoin t (tagRead x.tag).stamp false th with lstat := if x.bad then 4 else 0 }

/-- Every condition has held: the lanes receive the words, helper lanes 0, and LSTAT (R385). The core's clean copies of the
words are dropped, so that no later load returns an older value (R125). -/
def endWaitc (s : State) (k : Nat) (vd : BitVec 6) (part : List (Nat × Nat)) (l : List LaneWait) : State :=
  let give := fun (t : Team) (x : Nat × Nat) => match l.find? (fun y => y.tid == x.2) with
    | some y => modThread (setLaneReg t x.2 vd.toNat (y.got.getD 0)) x.2 (metWaitc s t y)
    | none => modThread (setLaneReg t x.2 vd.toNat 0) x.2 (fun th => { th with lstat := 0 })
  dropL1 (modTeam s k (fun t => advance s (part.foldl give t))) (teamCore s k)
    (fun a b => !b.dirty && l.any (fun x => decide (x.pa ≤ a) && decide (a < x.pa + 4)))

/-- A WAITC under way: lanes that gates held back are registered, and it goes on when every condition has held. -/
def tryWaitc (s : State) (k : Nat) (w : BitVec 2) (vd : BitVec 6) (core : Nat) (part : List (Nat × Nat)) (l : List LaneWait) :
    State :=
  let (l, s) := registerLanes k s.cur.gid w core [] l s
  let s := modTeam s k (fun t => hold s t (.lanes w l))
  if l.all (·.got.isSome) then endWaitc s k vd part l else s

/-- A lane that is to be registered: an unrecorded page's needs no gate, but is registered as one that passes it. -/
def laneWait (s : State) (t : Team) (vd : BitVec 6) (p : Plan) : LaneWait :=
  let w := wayOf s p.leaf p.pa
  { tid := p.lane.2, pa := w.pa, value := laneReg t p.lane.2 vd.toNat, got := none,
    checked := p.leaf.checked && !w.peer,
    gate := (loggedAs s t .global (qualOf none .read) (.load true none) p).map (·.2) }

/-- Registers lanes for the first time. -/
def startWaitc (k gid : Nat) (test : BitVec 2) (core : Nat) (l : List LaneWait) (s : State) : List LaneWait × State :=
  l.foldl (fun acc x =>
    if x.gate.isSome then (acc.1 ++ [x], acc.2)
    else
      let (x, s) := registerLane k gid test core acc.2 x
      (acc.1 ++ [x], s)) ([], s)

def execWaitc (w : BitVec 2) (vd va sb : BitVec 6) (s : State) : Out :=
  laneForm s (fun t _ part => memFaults s va vd 1 false t part) (fun s t g part =>
    let k := s.cur.team
    match g.wait with
    | .lanes _ l => .next (tryWaitc s k w vd t.core part l)
    | _ =>
      match popOperands s k g.gid part 0 [va.toNat] with
      | (false, s) => .next s
      | (true, s) =>
        match tget s.teams k with
        | none => .next s
        | some t =>
          let g := (groupOf t g.gid).getD g
          let addr := fun (l : Nat × Nat) =>
            laneAddr .global (uReg (warpOf t (l.2 / 32)) sb.toNat) (operand t 0 va.toNat l.2)
          let x := probeJob s t g .global []
            { q := qualOf none .read, act := fun _ => .load true none, wants := (notHelper t part).map (oneWant 4 addr) }
          let bad := fun (i : Nat) => x.faults.any (fun y => y.1 == i) || x.hits.any (fun h => h.1.lane.2 == i)
          let l := withoutLanes bad [x]
          let (s, gone, waits) :=
            judgeForm { sp := .global, uni := false, note := false, dest := [], jobs := [] } (fun i => [i]) s t g l x.faults x.hits
          if !hasGroup s k s.cur.gid then .next (takeTraps k trapFuel s)
          else
            let plans := (withoutLanes (gone.contains ·) l).flatMap (·.plans)
            let s := plans.foldl (fun s p => updateTags s t (probeOf s .global (qualOf none .read) .read p)) s
            let (l, s) := startWaitc k g.gid w t.core (plans.map (laneWait s t vd)) s
            let alive := part.filter (fun y => liveHelper t y.2 || l.any (fun z => z.tid == y.2))
            let s := tryWaitc s k w vd t.core alive l
            .next (takeTraps k trapFuel (if waits then
              modTeam s k (fun t => modGroup t g.gid (fun x => if x.wait = .none then { x with wait := .verdict } else x))
            else s)))

end Sys2Proof.Machine
end

