-- ==== Sys2Proof/Machine/Kv.lean ====
section
/-!
DEFINITION. Sequences, the KV cache, the rotary phase and the state store: R193 to R209, R348 to R353, R432 to R437,
R469. Every operation on these structures acts on memory at the home slice, outside L1.
-/

namespace Sys2Proof.Machine

/-! ### Sequences as the forms name them (R188, R193, R433) -/

/-- The page that a sequence holds in a page slot of a layer; a slot beyond PLCAP holds none. -/
def pageAt (s : State) (e layer slot : Nat) : Option Nat :=
  if slot < seqPlcap e then pageListGet s (pageListAddr e layer slot) else none

/-- Why a sequence cannot be used: REASON 1, 2, 9. -/
def seqFault (s : State) (q : Nat) : Option Nat :=
  if seqCap s ≤ q then some 1
  else
    let e := seqEntry s q
    if !seqValid e then some 2 else if seqBadFields s e then some 9 else none

/-- Code 0x22 (R433). -/
def badSeq (q reason : Nat) : Park :=
  { code := 0x22, addr := 0, info := BitVec.ofNat 64 (reason + q * 2 ^ 44), flags := 0, order := 0 }

/-- Code 0x23 (R437). -/
def stateMiss (q layer reason : Nat) : Park :=
  { code := 0x23, addr := 0, info := BitVec.ofNat 64 (reason + layer * 2 ^ 32 + q * 2 ^ 44), flags := 0, order := 0 }

/-- The sequence and the head that va+1 names. -/
def seqOf (x : Word) : Nat := x.toNat % 2 ^ 20
def headOf (x : Word) : Nat := x.toNat / 2 ^ 20 % 256

/-- The layer and the byte offset in s[SB]. -/
def layerOf (x : DWord) : Nat := x.toNat % 65536
def tileOff (x : DWord) : Nat := x.toNat / 65536 % 65536

/-- s[SB] as a lane reads it: its own home warp's, in a formation too. -/
def laneBase (t : Team) (sb : BitVec 6) (tid : Nat) : DWord := uReg (warpOf t (tid / 32)) sb.toNat

/-- The issue checks of these lane forms: bound ports, missing registers. -/
def kvFaults (s : State) (t : Team) (part : List (Nat × Nat)) (regs : List Nat) : List (Nat × Park) :=
  portFaults s t part regs ++ extFaults s t part regs

/-- A device-scope acquire that meets no stamp: the sequence area is not checked (R133). -/
def acquired (n : Nat) (th : Thread) : Thread := acquireAt n 2 { th with seen := 0 }

/-! ### KVLD (R193, R194, R348, R432) -/

/-- What one lane reads: its status, and where its bytes are when the status is 0. -/
def kvldPlace (s : State) (vt : Bool) (a0 a1 : Word) (sb : DWord) : Nat × Nat × Nat :=
  let q := seqOf a1
  let h := headOf a1
  let e := seqEntry s q
  let k := if vt then a0.toNat % 2 ^ 24 else a0.toNat / 16
  if (seqFault s q).isSome || decide (seqLayers e ≤ layerOf sb) || decide (seqHeads e ≤ h) then (3, 0, 0)
  else if seqLen e ≤ (if vt then 16 * k else a0.toNat) then (2, 0, 0)
  else match pageAt s e (layerOf sb) k with
    | none => (1, 0, 0)
    | some n =>
      let hb := seqHb e
      let tile := pagePa s n + (if vt then 16 * seqHeads e * hb else 0) + 16 * hb * h
      let off := (if vt then 2 * seqCbits e * (a0.toNat / 2 ^ 24) else hb * (a0.toNat % 16)) + tileOff sb
      (0, tile + off, min 16 (16 * hb - off))

def kvld (vt : Bool) (vd va sb : BitVec 6) (s : State) : Out :=
  laneForm s (fun t _ part => kvFaults s t part (va.toNat :: (va.toNat + 1) :: tuple vd 4)) (fun s t _ part =>
    let k := s.cur.team
    let got := part.map (fun l =>
      let (st, pa, n) := kvldPlace s vt (laneReg t l.2 va.toNat) (laneReg t l.2 (va.toNat + 1)) (laneBase t sb l.2)
      let bad := st == 0 && poisoned s pa n
      (l.2, st, pa, n, bad, cleanBytes s pa (if st = 0 && !bad then n else 0)))
    let s := part.foldl (fun s l =>
      let q := seqOf (laneReg t l.2 (va.toNat + 1))
      let a0 := (laneReg t l.2 va.toNat).toNat
      meetPageList (meetEntry s q) q (layerOf (laneBase t sb l.2)) (if vt then a0 % 2 ^ 24 else a0 / 16)) s
    let s := (got.filter (fun r => r.2.2.2.2.1)).foldl (fun s r => consume s r.2.2.1 r.2.2.2.1 (unitOf 0 t.core)) s
    let real := (notHelper t part).map (·.2)
    -- each lane reads LEN with a device-scope acquire (R194)
    let s := if real.isEmpty then s else acquireCore s t.core 2
    .next (modTeam s k (fun t => advance s (got.foldl (fun t r =>
      let (tid, st, _, _, bad, d) := r
      let t := (upto 4).foldl (fun t j => setLaneReg t tid (vd.toNat + j) (BitVec.ofNat 32 (bytesAt d (4 * j) 4))) t
      modThread t tid (fun th =>
        setLanePred { th with lstat := if bad then 4 else BitVec.ofNat 32 st } 7 (st == 0 && !bad)))
      (modThreads t real (acquired s.writes))))))

def execKvldK (vd va sb : BitVec 6) (s : State) : Out := kvld false vd va sb s
def execKvldVt (vd va sb : BitVec 6) (s : State) : Out := kvld true vd va sb s

/-! ### KVAPP (R195 to R197, R349, R433 to R436) -/

/-- Why a lane cannot append: the lowest REASON behind those of the entry itself. -/
def appendFault (s : State) (q h layer : Nat) (commit : Bool) : Option Nat :=
  match seqFault s q with
  | some r => some r
  | none =>
    let e := seqEntry s q
    if !commit && decide (seqLayers e ≤ layer) then some 3
    else if !commit && decide (seqHeads e ≤ h) then some 4
    else if seqLen e = 2 ^ 28 - 1 then some 5
    else if !commit && decide (seqPlcap e ≤ seqLen e / 16) then some 6
    else none

/-- Some copy of the entry is under way (R436). -/
def isCopying (s : State) (entry : Nat) : Bool := s.marks.any (fun m => m.entry == entry)

/-- The entries that a lane of an append or a commit reaches. -/
def entriesReached (s : State) (q layer : Nat) (commit : Bool) : List Nat :=
  let e := seqEntry s q
  let k := seqLen e / 16
  if commit then (upto (seqLayers e)).map (fun i => pageListAddr e i k) else [pageListAddr e layer k]

/-- An append's lane: thread, its LANE, sequence and head, layer and tile byte offset. -/
structure AppLane where
  tid : Nat
  lane : Nat
  q : Nat
  h : Nat
  layer : Nat
  off : Nat
deriving DecidableEq, Repr

/-- What the lanes of an append have come to: the machine, the lanes that write with their page, those that met a shared
page, and those that park for want of a page. -/
structure AppState where
  state : State
  writes : List (AppLane × Nat)
  shared : List (AppLane × Nat)
  parks : List (Nat × Park)
deriving DecidableEq, Repr

/-- Code 0x21 (R434). -/
def noPage (q entry kind : Nat) : Park :=
  { code := 0x21, addr := BitVec.ofNat 64 entry, info := BitVec.ofNat 64 (kind + q * 2 ^ 44), flags := 0, order := 0 }

/-- One lane comes to its page: the first to reach an empty slot allocates it (R195). -/
def appendLane (a : AppState) (l : AppLane) : AppState :=
  let s := a.state
  let e := seqEntry s l.q
  let entry := pageListAddr e l.layer (seqLen e / 16)
  match pageListGet s entry with
  | some n => if 1 < pageRef s n then { a with shared := a.shared ++ [(l, n)] } else { a with writes := a.writes ++ [(l, n)] }
  | none =>
    match popPage s with
    | none => { a with parks := a.parks ++ [(l.tid, noPage l.q entry 0)] }
    | some (n, s) => { a with state := pageListSet (openPage s n 0) entry n, writes := a.writes ++ [(l, n)] }

/-- The lanes that met a shared page (R435, R436): the lowest one's entry is marked and reported, or they park for want
of a page. The answer is the parks and the copy. -/
def appendShared (a : AppState) : State × List (Nat × Park) × Option Copying :=
  match a.shared with
  | [] => (a.state, [], none)
  | (l, old) :: _ =>
    let s := a.state
    let e := seqEntry s l.q
    let entry := pageListAddr e l.layer (seqLen e / 16)
    match popPage s with
    | none => (s, a.shared.map (fun x =>
        (x.1.tid, noPage x.1.q (pageListAddr (seqEntry s x.1.q) x.1.layer (seqLen (seqEntry s x.1.q) / 16)) 1)), none)
    | some (n, s) =>
      let s := addPin (openPage s n (seqLen e % 16)) old
      let seq := l.q
      let info := BitVec.ofNat 64 (n + old * 2 ^ 22 + seq * 2 ^ 44)
      let p : Park := { code := 0x20, addr := BitVec.ofNat 64 entry, info := info, flags := 0, order := 0 }
      ({ s with marks := s.marks ++ [{ entry := entry, fresh := n, old := old, seq := seq }] },
        a.shared.map (fun x => (x.1.tid, p)), some { entry := entry, fresh := n, old := old, seq := seq })

/-- Puts element values of `c` bits into a tile at bit offsets; a narrow one keeps its neighbours' bits. -/
def putElement (s : State) (base c bitOff v : Nat) : State :=
  if 8 ≤ c then memWrite s (base + bitOff / 8) (bytesOf (c / 8) v)
  else memPut s (base + bitOff / 8) 1 (putBits (memNat s (base + bitOff / 8) 1) (bitOff % 8) c v)

/-- A lane's 16 bytes go into the K tile, or element by element into the V^T tile (R196). -/
def appendWrite (v : Bool) (data : List Byte) (s : State) (l : AppLane) (page : Nat) : State :=
  let e := seqEntry s l.q
  let hb := seqHb e
  let row := l.off + 16 * l.lane
  let slot := seqLen e % 16
  let pa := pagePa s page
  if !v then
    let d := data.take (hb - row)
    if d.isEmpty then s else memWrite s (pa + 16 * hb * l.h + hb * slot + row) d
  else
    let c := seqCbits e
    let base := pa + 16 * seqHeads e * hb + 16 * hb * l.h
    let first := 8 * row / c
    (upto (128 / c)).foldl (fun s j =>
      if first + j < 8 * hb / c then putElement s base c (c * (16 * (first + j) + slot)) (ofBytes data / 2 ^ (c * j) % 2 ^ c)
      else s) s

/-- Marks the lanes that have just parked with code 0x20 as the ones whose leaving ends the copy. -/
def holdCopy (s : State) (k : Nat) (c : Copying) (tids : List Nat) : State :=
  modTeam s k (fun t => { t with groups := t.groups.map (fun g => match g.park with
    | some p => if p.code == 0x20 && g.lanes.any (fun l => tids.contains l.2) then { g with copying := some c } else g
    | none => g) })

/-- What a lane-set form of this chapter ends with: the parks are raised, the copy held, the lanes that stay go on, and
traps are taken. -/
def parkAndGo (s : State) (g : Grp) (parks : List (Nat × Park)) (copy : Option Copying) (go : State → State) : Out :=
  let k := s.cur.team
  let s := raise s k g 0 parks
  let s := match copy with
    | some c => settleCopies (holdCopy s k c ((parks.filter (fun x => x.2.code == 0x20)).map (·.1)))
    | none => s
  .next (takeTraps k trapFuel (if hasGroup s k s.cur.gid then go s else s))

/-- The lanes of an append or commit, with those that park with code 0x22. -/
def appendLanes (s : State) (t : Team) (part : List (Nat × Nat)) (va sb : BitVec 6) (commit : Bool) :
    List AppLane × List (Nat × Park) :=
  let all := (notHelper t part).map (fun l =>
    let a1 := laneReg t l.2 (va.toNat + 1)
    let x := laneBase t sb l.2
    ({ tid := l.2, lane := l.1, q := seqOf a1, h := headOf a1, layer := layerOf x, off := tileOff x : AppLane }))
  let bad := all.filterMap (fun a => (appendFault s a.q a.h a.layer commit).map (fun r => (a.tid, badSeq a.q r)))
  (all.filter (fun a => !bad.any (fun b => b.1 == a.tid)), bad)

/-- A copy-on-write would need a 65th mark of its home slice. -/
def marksFull (s : State) (l : List AppLane) : Bool :=
  match l.find? (fun a =>
    match pageListGet s (pageListAddr (seqEntry s a.q) a.layer (seqLen (seqEntry s a.q) / 16)) with
    | some n => decide (1 < pageRef s n)
    | none => false) with
  | none => false
  | some a =>
    let sl := homeSlice (pageListAddr (seqEntry s a.q) a.layer (seqLen (seqEntry s a.q) / 16))
    decide (64 ≤ (s.marks.filter (fun m => homeSlice m.entry == sl)).length)

def kvapp (v : Bool) (vd va sb : BitVec 6) (s : State) : Out :=
  laneForm s (fun t _ part => kvFaults s t part (va.toNat :: (va.toNat + 1) :: tuple vd 4)) (fun s t g part =>
    let s := (notHelper t part).foldl (fun s l =>
      let q := seqOf (laneReg t l.2 (va.toNat + 1))
      meetPageList (meetEntry s q) q (layerOf (laneBase t sb l.2)) (seqLen (seqEntry s q) / 16)) s
    let (lanes, bad) := appendLanes s t part va sb false
    if lanes.any (fun a => (entriesReached s a.q a.layer false).any (isCopying s)) || marksFull s lanes then
      waitFor s t (.retry .copying)
    else
      let a := lanes.foldl appendLane { state := s, writes := [], shared := [], parks := [] }
      let (s, cow, copy) := appendShared a
      let data := fun (tid : Nat) => ((upto 4).map (fun j => (laneReg t tid (vd.toNat + j)).toNat)).flatMap (bytesOf 4)
      let s := a.writes.foldl (fun s w => appendWrite v (data w.1.tid) s w.1 w.2) s
      parkAndGo s g (bad ++ a.parks ++ cow) copy (fun s => modTeam s s.cur.team (advance s)))

def execKvappK (vd va sb : BitVec 6) (s : State) : Out := kvapp false vd va sb s
def execKvappV (vd va sb : BitVec 6) (s : State) : Out := kvapp true vd va sb s

/-- Commits one sequence (R197). -/
def commitSeq (s : State) (q : Nat) : State :=
  let e := seqEntry s q
  let p := seqLen e
  (upto (seqLayers e)).foldl (fun s i =>
    match pageAt s e i (p / 16) with
    | some n => setPageFill s n (p % 16 + 1)
    | none => s) (setSeqLen s q (p + 1))

def execKvappCommit (va sb : BitVec 6) (s : State) : Out :=
  laneForm s (fun t _ part => kvFaults s t part [va.toNat, va.toNat + 1]) (fun s t g part =>
    let s := (notHelper t part).foldl (fun s l => meetEntry s (seqOf (laneReg t l.2 (va.toNat + 1)))) s
    let (lanes, bad) := appendLanes s t part va sb true
    if !s.marks.isEmpty && lanes.any (fun a => (entriesReached s a.q 0 true).any (isCopying s)) then
      waitFor s t (.retry .copying)
    else
      let qs := (lanes.map (·.q)).eraseDups
      let s := if qs.isEmpty then s else releaseCore s t.core 2
      parkAndGo (qs.foldl commitSeq s) g bad none (fun s => modTeam s s.cur.team (advance s)))

/-! ### ROPE (R198, R350) -/

/-- 2^256 times π, to the nearest integer below. -/
def piFixed : Nat :=
  0x3243F6A8885A308D313198A2E03707344A4093822299F31D0082EFA98EC4E6C89

/-- The terms of the cosine and sine series of x / 2^256, from x^n / n! on, by the sign of n div 2: the four sums of
the terms with n mod 4. `fuel` terms are added. -/
def seriesFrom (x : Nat) : Nat → Nat → Nat → Nat × Nat × Nat × Nat → Nat × Nat × Nat × Nat
  | 0, _, _, acc => acc
  | fuel + 1, n, term, (a, b, c, d) =>
    let acc := match n % 4 with
      | 0 => (a + term, b, c, d)
      | 1 => (a, b + term, c, d)
      | 2 => (a, b, c + term, d)
      | _ => (a, b, c, d + term)
    seriesFrom x fuel (n + 1) (term * x / 2 ^ 256 / (n + 1)) acc

/-- Cosine and sine of r / 2^32 of a turn, r below 2^30, as multiples of 2^-256 (R198: of the exact angle). -/
def quarterWave (r : Nat) : Nat × Nat :=
  let (a, b, c, d) := seriesFrom (piFixed * r / 2 ^ 31) 80 0 (2 ^ 256) (0, 0, 0, 0)
  (a - c, b - d)

/-- rne32 of the cosine and of the sine of u / 2^32 of a turn. -/
def turn (u : Nat) : Word × Word :=
  let (c, s) := quarterWave (u % 2 ^ 30)
  let v := fun (neg : Bool) (n : Nat) => to32 (.fin (neg && n != 0) n (2 ^ 256))
  match u / 2 ^ 30 % 4 with
  | 0 => (v false c, v false s)
  | 1 => (v true s, v false c)
  | 2 => (v true c, v true s)
  | _ => (v false s, v true c)

/-- Rotates a pair by p × f / 2^32 of a turn. -/
def rotatePair (p f : Nat) (x y : Word) : Word × Word :=
  let (c, s) := turn (p * f % 2 ^ 32)
  (to32 (((f32 x).mul (f32 c)).sub ((f32 y).mul (f32 s))), to32 (((f32 x).mul (f32 s)).add ((f32 y).mul (f32 c))))

/-- `snd` is the place of the first pair's second element: 1 interleaved, 2 split. -/
def rope (snd : Nat) (vd va sb : BitVec 6) (s : State) : Out :=
  laneForm s (fun t _ part => kvFaults s t part (va.toNat :: (va.toNat + 1) :: tuple vd 4)) (fun s t g part =>
    let pos := fun (tid : Nat) => (laneReg t tid va.toNat).toNat
    let turns := part.filter (fun l => decide (pos l.2 < 2 ^ 28))
    let wants := turns.flatMap (fun l => (upto 2).map (fun j =>
      { lane := l, ix := j, w := 4, align := 4,
        addr := ((laneBase t sb l.2).setWidth 32 + 4 * (laneReg t l.2 (va.toNat + 1) + BitVec.ofNat 32 j) : Word).setWidth 64 : Want }))
    memAccess s t g .scratch (tuple vd 4) (qualOf none .read) (.load false none) wants (fun s res =>
      let word := fun (tid j : Nat) =>
        match res.find? (fun r => r.1.lane.2 == tid && r.1.ix == j) with
        | some r => if r.2.2 then 0 else bytesAt r.2.1 0 4
        | none => 0
      let tids := (res.map (fun r => r.1.lane.2)).eraseDups
      let rot := fun (t : Team) (tid j a b : Nat) =>
        let r := rotatePair (pos tid) (word tid j) (laneReg t tid (vd.toNat + a)) (laneReg t tid (vd.toNat + b))
        setLaneReg (setLaneReg t tid (vd.toNat + a) r.1) tid (vd.toNat + b) r.2
      let still := part.filter (fun l => decide (2 ^ 28 ≤ pos l.2))
      modTeam s s.cur.team (fun t => advance s
        (still.foldl (fun t l => modThread t l.2 (fun th => { th with lstat := 2 }))
          (tids.foldl (fun t i =>
            modThread (rot (rot t i 0 0 snd) i 1 (3 - snd) 3) i (fun th => { th with lstat := 0 })) t)))))

def execRopeInter (vd va sb : BitVec 6) (s : State) : Out := rope 1 vd va sb s
def execRopeSplit (vd va sb : BitVec 6) (s : State) : Out := rope 2 vd va sb s

/-! ### The state store (R203 to R209) -/

/-- The address of a layer's block. -/
def blockAddr (e layer : Nat) : Nat := seqSrbase e + layer * (1024 + (seqRslots e + 1) * 16 * seqSsz e)

def stateBytes (e : Nat) : Nat := 16 * seqSsz e
def workAddr (e layer : Nat) : Nat := blockAddr e layer + 1024
def snapAddr (e layer i : Nat) : Nat := blockAddr e layer + 1024 + stateBytes e * (i + 1)

/-- The layer header's fields (R204) stand in its low 64 bits. -/
def layerHead (s : State) (e layer : Nat) : Nat := memNat s (blockAddr e layer) 8
def setLayerHead (s : State) (e layer x : Nat) : State := memPut s (blockAddr e layer) 8 x
def lhPos (x : Nat) : Nat := bitsAt x 0 28
def lhDirty (x : Nat) : Bool := x.testBit 28
def lhWref (x : Nat) : Bool := x.testBit 29
def lhOwner (x : Nat) : Nat := bitsAt x 32 20
def lhSlot (x : Nat) : Nat := bitsAt x 52 6

def slotHead (s : State) (e layer i : Nat) : Nat := memNat s (blockAddr e layer + 512 + 8 * i) 8
def setSlotHead (s : State) (e layer i x : Nat) : State := memPut s (blockAddr e layer + 512 + 8 * i) 8 x
def shPos (x : Nat) : Nat := bitsAt x 0 28
def shOwner (x : Nat) : Nat := bitsAt x 28 20
def shSlot (x : Nat) : Nat := bitsAt x 48 6
def shShr (x : Nat) : Nat := bitsAt x 54 8
def shValid (x : Nat) : Bool := x.testBit 63

/-- The slot headers of a layer. -/
def slotHeads (s : State) (e layer : Nat) : List Nat := (upto (seqRslots e)).map (slotHead s e layer)

/-- Adds to SHR of a slot of an owner's layer, up or down by one. -/
def bumpShr (s : State) (owner layer slot : Nat) (up : Bool) : State :=
  if seqCap s ≤ owner then s
  else
    let e := seqEntry s owner
    let x := slotHead s e layer slot
    let n := if up then min 255 (shShr x + 1) else shShr x - 1
    setSlotHead s e layer slot (putBits x 54 8 n)

/-- A slot that holds data: an owner's whose header is valid (R437 REASON 3). -/
def slotData (s : State) (owner layer slot : Nat) : Option Nat :=
  if seqCap s ≤ owner then none
  else
    let e := seqEntry s owner
    if shValid (slotHead s e layer slot) then some (snapAddr e layer slot) else none

/-- Where the working state's bytes are: its own area, or under WREF the referenced slot (R205). -/
def workSource (s : State) (e layer : Nat) : Option Nat :=
  let x := layerHead s e layer
  if lhWref x then slotData s (lhOwner x) layer (lhSlot x) else some (workAddr e layer)

/-- The state store units copy bytes (R185): a poisoned granule's read counts at its slice, and zeros are delivered (R384,
R451). -/
def copyBytes (s : State) (src dst n : Nat) : State :=
  let s := (granulesOf src n).foldl (fun s g => consumeAt (unitOf 1 (homeSlice (32 * g))) s (32 * g) 1) s
  memWrite s dst (cleanBytes s src n)

/-- The slot that R207 chooses. -/
def chooseSlot (hs : List Nat) : Option Nat :=
  match hs.findIdx? (fun x => !shValid x) with
  | some i => some i
  | none =>
    (((upto hs.length).zip hs).filter (fun x => shShr x.2 == 0)).foldl (fun best x =>
      match best with
      | none => some x.1
      | some b => if shPos x.2 < shPos (hs.getD b 0) then some x.1 else some b) none

/-- The slot that already holds a snapshot with this key (R206). -/
def heldSlot (q dirty key : Nat) (hs : List Nat) : Option Nat :=
  if dirty = 1 then none else hs.findIdx? (fun x => shValid x && shOwner x == q && shPos x == key)

/-- The header of an own snapshot. -/
def ownSlot (q i key : Nat) : Nat := key + q * 2 ^ 28 + i * 2 ^ 48 + 2 ^ 63

/-- Whether a snapshot keyed `key` meets a reference whose owner slot holds nothing. -/
def snapshotMiss (s : State) (q e layer key : Nat) : Bool :=
  let x := layerHead s e layer
  let hs := slotHeads s e layer
  match heldSlot q (if lhDirty x then 1 else 0) key hs with
  | some _ => false
  | none =>
    (workSource s e layer).isNone || (match chooseSlot hs with
      | none => false
      | some i =>
        let o := hs.getD i 0
        shValid o && shOwner o != q && (slotData s (shOwner o) layer (shSlot o)).isNone)

/-- Takes a snapshot keyed `key` (R206, R207): the slot that holds it, if any. -/
def snapshot (s : State) (q layer key : Nat) : Option Nat × State :=
  let e := seqEntry s q
  let x := layerHead s e layer
  let hs := slotHeads s e layer
  match heldSlot q (if lhDirty x then 1 else 0) key hs with
  | some i => (some i, s)
  | none =>
    match chooseSlot hs with
    | none => (none, crumb (countReg s 0x801C8 1) 0x0103 (unitOf 1 (homeSlice (seqAddr s q))) [])
    | some i =>
      let src := (workSource s e layer).getD (workAddr e layer)
      let o := hs.getD i 0
      let s := if shValid o && shOwner o != q then bumpShr s (shOwner o) layer (shSlot o) false else s
      let s := copyBytes s src (snapAddr e layer i) (stateBytes e)
      (some i, setLayerHead (setSlotHead s e layer i (ownSlot q i key)) e layer (putBits x 28 1 0))

/-- The binding of a home warp, its sequence's entry and layer, or the park (R433, R437). -/
def boundState (s : State) (t : Team) (w : Nat) : Except Park (Nat × Nat × Nat) :=
  match (warpOf t w).ssbind with
  | none => .error (stateMiss 0 0 1)
  | some b =>
    let q := b.toNat % 2 ^ 20
    let layer := b.toNat / 2 ^ 32 % 4096
    match seqFault s q with
    | some r => .error (badSeq q r)
    | none => if seqLayers (seqEntry s q) ≤ layer then .error (badSeq q 3) else .ok (q, seqEntry s q, layer)

/-- A state-store form of some home warps reads the entries of their bindings (R384). -/
def meetBound (s : State) (t : Team) (ws : List Nat) : State :=
  ((ws.filterMap (fun w => (warpOf t w).ssbind)).map (fun b => b.toNat % 2 ^ 20)).eraseDups.foldl meetEntry s

/-- The offset of a lane's chunk, or its park. -/
def chunkOf (q e layer : Nat) (off : Word) : Except Park Nat :=
  if off.toNat % 16 ≠ 0 then
    .error { code := 0x12, addr := off.setWidth 64, info := 16, flags := 0, order := 0 }
  else if stateBytes e ≤ off.toNat then .error (stateMiss q layer 2)
  else .ok off.toNat

/-- A lane's chunk of the working state: thread, entry, layer, and byte offset. -/
structure Chunk where
  tid : Nat
  e : Nat
  layer : Nat
  off : Nat
deriving DecidableEq, Repr

/-- The chunk of a lane under its home warp's binding, or its park; a working reference may hold nothing. -/
def laneChunk (s : State) (t : Team) (va sb : BitVec 6) (tid : Nat) : Except Park Chunk :=
  match boundState s t (tid / 32) with
  | .error p => .error p
  | .ok (q, e, layer) =>
    match chunkOf q e layer ((laneBase t sb tid).setWidth 32 + laneReg t tid va.toNat) with
    | .error p => .error p
    | .ok o =>
      if (workSource s e layer).isNone then .error (stateMiss q layer 3) else .ok { tid := tid, e := e, layer := layer, off := o }

/-- The chunks of the lanes, and the parks. -/
def chunks (s : State) (t : Team) (va sb : BitVec 6) (part : List (Nat × Nat)) : List Chunk × List (Nat × Park) :=
  let l := part.map (fun x => (x.2, laneChunk s t va sb x.2))
  (l.filterMap (fun x => match x.2 with
    | .ok c => some c
    | .error _ => none),
   l.filterMap (fun x => match x.2 with
    | .ok _ => none
    | .error p => some (x.1, p)))

def execSsld (vd va sb : BitVec 6) (s : State) : Out :=
  laneForm s (fun t _ part => kvFaults s t part (va.toNat :: tuple vd 4)) (fun s t g part =>
    let s := meetBound s t (part.map (fun l => l.2 / 32)).eraseDups
    let (ok, bad) := chunks s t va sb part
    let got := ok.map (fun c =>
      let pa := (workSource s c.e c.layer).getD 0 + c.off
      (c.tid, poisoned s pa 16, cleanBytes s pa 16, pa))
    let s := (got.filter (·.2.1)).foldl (fun s r => consume s r.2.2.2 16 (unitOf 0 t.core)) s
    parkAndGo s g bad none (fun s => modTeam s s.cur.team (fun t => advance s (got.foldl (fun t r =>
      let d := if r.2.1 then [] else r.2.2.1
      modThread ((upto 4).foldl (fun t j => setLaneReg t r.1 (vd.toNat + j) (BitVec.ofNat 32 (bytesAt d (4 * j) 4))) t) r.1
        (fun th => { th with lstat := if r.2.1 then 4 else 0 })) t))))

/-- Ends a working reference: its owner slot's SHR falls and WREF clears (R205). -/
def releaseWref (s : State) (e layer : Nat) : State :=
  let x := layerHead s e layer
  if lhWref x then setLayerHead (bumpShr s (lhOwner x) layer (lhSlot x) false) e layer (putBits x 29 1 0) else s

/-- The first SSST under WREF copies the referenced data into the working state (R205). -/
def ownWork (s : State) (e layer : Nat) : State :=
  if lhWref (layerHead s e layer) then
    match workSource s e layer with
    | some src => releaseWref (copyBytes s src (workAddr e layer) (stateBytes e)) e layer
    | none => s
  else s

def execSsst (vd va sb : BitVec 6) (s : State) : Out :=
  laneForm s (fun t _ part => kvFaults s t part (va.toNat :: tuple vd 4)) (fun s t g part =>
    let s := meetBound s t ((notHelper t part).map (fun l => l.2 / 32)).eraseDups
    let (ok, bad) := chunks s t va sb (notHelper t part)
    let works := (ok.map (fun c => (c.e, c.layer))).eraseDups
    let s := works.foldl (fun s x => ownWork s x.1 x.2) s
    let s := ok.foldl (fun s c => memWrite s (workAddr c.e c.layer + c.off)
      (((upto 4).map (fun j => (laneReg t c.tid (vd.toNat + j)).toNat)).flatMap (bytesOf 4))) s
    let s := works.foldl (fun s x => setLayerHead s x.1 x.2 (putBits (layerHead s x.1 x.2) 28 1 1)) s
    parkAndGo s g bad none (fun s => modTeam s s.cur.team (advance s)))

/-! ### State-store forms (R352) -/

/-- Runs a uniform form of this chapter, made once for the group (R309): without a representative it is suppressed, and
`lone` then says what its result register gets. -/
def seqForm (writes : Bool) (lone : State → Team → Grp → State) (run : State → Team → Grp → Out) (s : State) : Out :=
  uniformForm writes s (fun s t g =>
    match representative t g with
    | some _ => run s t g
    | none => .next (lone s t g))

/-- The group goes on. -/
def goOn (s : State) (_ : Team) (_ : Grp) : State := modTeam s s.cur.team (advance s)

/-- The group goes on with a result in s[SD]. -/
def goOnWith (sd : BitVec 6) (x : DWord) (s : State) (g : Grp) : State :=
  modTeam s s.cur.team (fun t => advance s (modWarp t g.warp (fun w => setU w sd.toNat x)))

/-- A form that is suppressed leaves no stated value in s[SD]: a free value. -/
def loneResult (sd : BitVec 6) (s : State) (_ : Team) (g : Grp) : State :=
  let x : DWord := Config.freeWord s.free ++ Config.freeWord (s.free + 1)
  goOnWith sd x { s with free := s.free + 2 } g

/-- A form reads LEN with a device-scope acquire for the group. -/
def acquireSeq (s : State) (t : Team) (g : Grp) : State :=
  modTeam (acquireCore s t.core 2) s.cur.team (fun t => modThreads t (realThreads t g) (acquired s.writes))

/-- Runs a state-store form on the bound sequence and layer. -/
def boundForm (writes : Bool) (lone : State → Team → Grp → State)
    (run : State → Team → Grp → Nat → Nat → Nat → Out) (s : State) : Out :=
  seqForm writes lone (fun s t g =>
    let s := meetBound s t [g.warp]
    match boundState s t g.warp with
    | .error p => trapUniform s g p
    | .ok (q, e, layer) => run s t g q e layer) s

def execSsnap (sd : BitVec 6) (s : State) : Out :=
  boundForm true (loneResult sd) (fun s _ g q e layer =>
    let key := lhPos (layerHead s e layer)
    if snapshotMiss s q e layer key then trapUniform s g (stateMiss q layer 3)
    else
      let (i, s) := snapshot s q layer key
      .next (goOnWith sd (BitVec.ofNat 64 (i.getD 0xFF)) s g)) s

/-- The slot that SSROLL takes: the largest POS not above `p`, the lowest-numbered among ties (R208). -/
def rollSlot (hs : List Nat) (p : Nat) : Option Nat :=
  (((upto hs.length).zip hs).filter (fun x => shValid x.2 && decide (shPos x.2 ≤ p))).foldl (fun best x =>
    match best with
    | none => some x.1
    | some b => if shPos (hs.getD b 0) < shPos x.2 then some x.1 else some b) none

def execSsroll (sd sa : BitVec 6) (s : State) : Out :=
  boundForm true (loneResult sd) (fun s t g q e layer =>
    let p := (uReg (warpOf t g.warp) sa.toNat).toNat % 2 ^ 28
    let hs := slotHeads s e layer
    match rollSlot hs p with
    | none => .next (goOnWith sd (BitVec.allOnes 64) s g)
    | some i =>
      let x := hs.getD i 0
      match slotData s (shOwner x) layer (shSlot x) with
      | none => trapUniform s g (stateMiss q layer 3)
      | some src =>
        let s := releaseWref (copyBytes s src (workAddr e layer) (stateBytes e)) e layer
        let s := setLayerHead s e layer (putBits (putBits (layerHead s e layer) 28 1 0) 0 28 (shPos x))
        .next (goOnWith sd (BitVec.ofNat 64 (shPos x)) s g)) s

def execSscommit (sa : BitVec 6) (s : State) : Out :=
  boundForm false goOn (fun s t g q e layer =>
    let p := (uReg (warpOf t g.warp) sa.toNat).toNat % 2 ^ 28
    let old := lhPos (layerHead s e layer)
    let snap := decide (old / 2 ^ seqSnapk e < p / 2 ^ seqSnapk e)
    if snap && snapshotMiss s q e layer p then trapUniform s g (stateMiss q layer 3)
    else
      let s := releaseCore s t.core 2
      let s := setLayerHead s e layer (putBits (layerHead s e layer) 0 28 p)
      .next (goOn (if snap then (snapshot s q layer p).2 else s) t g)) s

/-- SSBIND binds the warp: uniform state, which a group of helper lanes writes too (R308, R309). -/
def execSsbind (sa : BitVec 6) (s : State) : Out :=
  uniformForm true s (fun s t g =>
    let x := uReg (warpOf t g.warp) sa.toNat
    let q := x.toNat % 2 ^ 20
    let s := meetEntry s q
    match seqFault s q with
    | some r => trapUniform s g (badSeq q r)
    | none =>
      if seqLayers (seqEntry s q) ≤ x.toNat / 2 ^ 32 % 4096 then trapUniform s g (badSeq q 3)
      else finish s (modWarp t g.warp (fun w => { w with ssbind := some (x &&& 0x00000FFF000FFFFF) })))

/-! ### Sequence forms (R199 to R202, R209, R353) -/

/-- The valid page slots of a layer from `lo` on, below `hi`, with their pages: those whose entry's last byte is
listed. -/
def pageSlots (s : State) (e layer lo hi : Nat) : List (Nat × Nat) :=
  let first := pageListAddr e layer lo
  let n := min hi (seqPlcap e) - lo
  (s.mem.filter (fun c => decide (first ≤ c.1) && decide (c.1 < first + 4 * n) && decide ((c.1 - first) % 4 = 3))).filterMap
    (fun c => (pageListGet s (c.1 - 3)).map (fun p => (lo + (c.1 - first) / 4, p)))

/-- Some page-list entry of the sequence is being copied (R436). -/
def seqCopying (s : State) (q : Nat) : Bool := s.marks.any (fun m => m.seq == q)

/-- What SEQFORK does to one layer's state of the parent (R209): its headers after the snapshot, the slot it references
(none when R207 finds no slot), and whether a snapshot is taken. -/
def forkPlan (s : State) (a ea layer : Nat) : List Nat × Option (Nat × Nat) × Bool :=
  let x := layerHead s ea layer
  let hs := slotHeads s ea layer
  if lhWref x then (hs, some (lhOwner x, lhSlot x), false)
  else match heldSlot a (if lhDirty x then 1 else 0) (lhPos x) hs with
    | some i => (hs, some (a, i), false)
    | none =>
      match chooseSlot hs with
      | none => (hs, none, false)
      | some i => (hs.set i (ownSlot a i (lhPos x)), some (a, i), true)

/-- The owner slots whose SHR a fork of the layer raises, once per reference. -/
def forkRefs (hs : List Nat) (r : Option (Nat × Nat)) : List (Nat × Nat) :=
  (match r with
    | some x => [x]
    | none => []) ++ (hs.filter shValid).map (fun x => (shOwner x, shSlot x))

/-- Some increment of a layer's fork would pass 255 (R209). -/
def shrOverflows (s : State) (a ea layer : Nat) : Bool :=
  let (hs, r, snap) := forkPlan s a ea layer
  let refs := forkRefs hs r
  let old := slotHeads s ea layer
  refs.any (fun x =>
    let now := if x.1 = a then shShr (hs.getD x.2 0)
      else if seqCap s ≤ x.1 then 0 else shShr (slotHead s (seqEntry s x.1) layer x.2)
    -- a snapshot that replaces a reference lowers its owner slot first
    let less := if snap && ((upto old.length).zip old).any (fun y =>
        y.2 != hs.getD y.1 0 && shValid y.2 && shOwner y.2 != a && (shOwner y.2, shSlot y.2) == x) then 1 else 0
    decide (255 < now - less + (refs.filter (· == x)).length))

/-- The pages that a fork copies: layer, slot and page. -/
def forkPages (s : State) (ea : Nat) : List (Nat × Nat × Nat) :=
  (upto (seqLayers ea)).flatMap (fun i => (pageSlots s ea i 0 ((seqLen ea + 15) / 16)).map (fun x => (i, x)))

/-- Some page's REF would pass 65,535 (R209). -/
def refOverflows (s : State) (l : List (Nat × Nat × Nat)) : Bool :=
  ((l.map (·.2.2)).eraseDups).any (fun n => decide (65535 < pageRef s n + (l.filter (fun x => x.2.2 == n)).length))

/-- The fields that a child takes from its parent (R199), and PARENT. -/
def childEntry (a ea eb : Nat) : Nat :=
  let take := fun (x lo n : Nat) => putBits x lo n (bitsAt ea lo n)
  putBits (take (take (take (take (take (take (take (take eb 128 28) 208 16) 200 8) 192 8) 176 16) 224 8) 232 8) 240 16)
    256 20 a

/-- Forks one layer's state of the parent into the child (R209). -/
def forkLayer (a b : Nat) (s : State) (layer : Nat) : State :=
  let ea := seqEntry s a
  let (_, r, snap) := forkPlan s a ea layer
  let s := if snap then (snapshot s a layer (lhPos (layerHead s ea layer))).2 else s
  let eb := seqEntry s b
  let pos := lhPos (layerHead s ea layer)
  let s := ((upto (seqRslots ea)).zip (slotHeads s ea layer)).foldl (fun s x =>
    if shValid x.2 then bumpShr (setSlotHead s eb layer x.1 (putBits x.2 54 8 0)) (shOwner x.2) layer (shSlot x.2) true
    else s) s
  match r with
  | none => s
  | some (o, i) =>
    bumpShr (setLayerHead s eb layer (pos + 2 ^ 29 + o * 2 ^ 32 + i * 2 ^ 52)) o layer i true

def execSeqfork (sa sb : BitVec 6) (s : State) : Out :=
  seqForm false goOn (fun s t g =>
    let w := warpOf t g.warp
    let a := (uReg w sa.toNat).toNat % 2 ^ 20
    let b := (uReg w sb.toNat).toNat % 2 ^ 20
    let s := meetEntry (meetEntry s a) b
    match seqFault s a with
    | some r => trapUniform s g (badSeq a r)
    | none =>
      if seqCap s ≤ b then trapUniform s g (badSeq b 1)
      else if b = a ∨ seqValid (seqEntry s b) then trapUniform s g (badSeq b 7)
      else if seqCopying s a || seqCopying s b then waitFor s t (.retry .copying)
      else
        let ea := seqEntry s a
        let pages := forkPages s ea
        let layers := upto (seqLayers ea)
        if refOverflows s pages || layers.any (shrOverflows s a ea) then trapUniform s g (badSeq a 8)
        else match layers.find? (fun i => (forkPlan s a ea i).2.1.isNone) with
          | some i =>
            trapUniform (crumb (countReg s 0x801C8 1) 0x0103 (unitOf 1 (homeSlice (seqAddr s a))) []) g (stateMiss a i 4)
          | none =>
            let s := acquireSeq s t g
            let s := memPut s (seqAddr s b) 64 (childEntry a ea (seqEntry s b))
            let s := pages.foldl (fun s x =>
              setPageRef (pageListSet s (pageListAddr (seqEntry s b) x.1 x.2.1) x.2.2) x.2.2 (pageRef s x.2.2 + 1)) s
            let s := layers.foldl (forkLayer a b) s
            .next (goOn (seqPut s b 0 1 1) t g)) s

/-- Invalidates the entries of a layer from `lo` on, with a REF less for each page. -/
def dropSlots (s : State) (e layer lo : Nat) : State :=
  (pageSlots s e layer lo (seqPlcap e)).foldl (fun s x => dropRef (pageListClear s (pageListAddr e layer x.1)) x.2) s

/-- Releases a layer's state references (R209). -/
def releaseLayer (q e : Nat) (s : State) (layer : Nat) : State :=
  let x := layerHead s e layer
  let s := if lhWref x then bumpShr s (lhOwner x) layer (lhSlot x) false else s
  (slotHeads s e layer).foldl (fun s h =>
    if shValid h && shOwner h != q then bumpShr s (shOwner h) layer (shSlot h) false else s) s

/-- Runs SEQFREE or SEQTRUNC on the sequence that s[SA] names. -/
def seqChange (sa : BitVec 6) (f : State → Warp → Nat → State) (s : State) : Out :=
  seqForm false goOn (fun s t g =>
    let w := warpOf t g.warp
    let q := (uReg w sa.toNat).toNat % 2 ^ 20
    let s := meetEntry s q
    match seqFault s q with
    | some r => trapUniform s g (badSeq q r)
    | none => if seqCopying s q then waitFor s t (.retry .copying) else .next (goOn (f s w q) t g)) s

def execSeqfree (sa : BitVec 6) (s : State) : Out :=
  seqChange sa (fun s _ q =>
    let e := seqEntry s q
    let layers := upto (seqLayers e)
    let s := layers.foldl (fun s i => dropSlots s e i 0) s
    let s := layers.foldl (releaseLayer q e) s
    seqPut (setSeqLen s q 0) q 0 1 0) s

/-- Truncates one layer to `n` tokens (R200). -/
def truncLayer (e n : Nat) (s : State) (layer : Nat) : State :=
  let s := dropSlots s e layer ((n + 15) / 16)
  if n % 16 = 0 then s
  else match pageAt s e layer (n / 16) with
    | some p => if pageRef s p = 1 then setPageFill s p (n % 16) else s
    | none => s

def execSeqtrunc (sa sb : BitVec 6) (s : State) : Out :=
  seqChange sa (fun s w q =>
    let e := seqEntry s q
    let n := (uReg w sb.toNat).toNat % 2 ^ 28
    if seqLen e ≤ n then s else (upto (seqLayers e)).foldl (truncLayer e n) (setSeqLen s q n)) s

/-- The ring-slot headers of a sequence with SHR above 0. -/
def sharedSlots (s : State) (e : Nat) : Nat :=
  ((upto (seqLayers e)).map (fun i => ((slotHeads s e i).filter (fun x => shShr x != 0)).length)).foldl (· + ·) 0

def execSeqinfo (sd sa : BitVec 6) (s : State) : Out :=
  uniformForm true s (fun s t g =>
    let q := (uReg (warpOf t g.warp) sa.toNat).toNat % 2 ^ 20
    if seqCap s ≤ q then trapUniform s g (badSeq q 1)
    else
      let s := meetEntry s q
      let e := seqEntry s q
      let x := seqLen e + (if seqValid e then 2 ^ 31 else 0) + min (sharedSlots s e) (2 ^ 20 - 1) * 2 ^ 32
      .next (goOnWith sd (BitVec.ofNat 64 x) (acquireSeq s t g) g))

end Sys2Proof.Machine
end

