-- ==== Sys2Proof/Machine/EngCheck.lean ====
section
/-!
DEFINITION. The checks of a command (R178 to R186, R451), the frame that a DEC command decodes (R181, R182), and the
scratchpad lines that a command will write (R101, R175).
-/

namespace Sys2Proof.Machine

/-! ### Fields (R451 code 3) -/

/-- The checks of each class on the fields that stand in the command itself. -/
def fieldsOk (o : EngOp) : Bool :=
  let op := cmdOp o.cmd
  let w := cmdWord o
  match o.eng with
  | 0 =>
    decide (1 ≤ op) && decide (op ≤ 4) && w 12 % 4 == 0 && decide (4 ≤ w 12) && decide (w 12 ≤ 2 ^ 20) &&
      decide (1 ≤ w 40) && decide (w 40 ≤ 65536) && (decide (3 ≤ op) || w 36 % 4 == 0)
  | 1 =>
    decide (1 ≤ op) && decide (op ≤ 3) && w 12 % 4 == 0 && decide (4 ≤ w 12) && decide (w 12 ≤ 4096) &&
      decide (1 ≤ w 36) && decide (w 36 ≤ 65536)
  | 2 =>
    decide (1 ≤ op) && decide (op ≤ 2) && w 20 % 16 == 0 && decide (1 ≤ w 24) && decide (w 24 < 2 ^ 28) &&
      w 32 % 4 == 0 && decide (4 ≤ w 32) && decide (w 32 ≤ 1024)
  | 3 => op == 1 && nfmtValid (cmdOff o 28) && cmdLong o 48 % 65536 == 0
  | 4 =>
    let elt := w 12 % 256
    let red := w 12 / 256 % 256
    decide (1 ≤ op) && decide (op ≤ 3) && cmdCk o.cmd && decide (elt ≤ 3) && decide (red ≤ 2) &&
      (red != 2 || elt == 3) && decide (1 ≤ w 40)
  | 5 =>
    let slot := fun (n : Nat) => decide (n < 64) || n == 255
    op == 1 && slot (w 16 % 256) && slot (w 24 % 256) && w 28 % 16 == 0 && decide (16 ≤ w 28) && decide (w 28 ≤ 65536)
  | _ =>
    let d := cmdLong o 12
    op == 1 && cmdCk o.cmd && d % 4096 == 0 && decide (farBase ≤ d) && decide (d < 2 * farBase)

/-! ### Scratchpad offsets (R395, R451 code 2) -/

/-- A queue descriptor that lies nowhere or is misaligned. -/
def descriptorLost (s : State) (o : EngOp) (off : Word) : Bool := off.toNat % 32 != 0 || blockFault s o.team off 0 32

/-- A descriptor that no queue port would take either (R422). -/
def descriptorBad (s : State) (o : EngOp) (off : Word) : Bool :=
  match readDescriptor s o.team off, currentQueue s o.team off with
  | some (d, kinds), some (key, now) => !descriptorUsable s key (if isBound s key then now else d) kinds
  | _, _ => true

/-- The queue descriptor that a command names. -/
def cmdQueue (o : EngOp) : Option Word :=
  match o.eng, cmdOp o.cmd with
  | 0, 3 => some (cmdOff o 32)
  | 0, 4 => some (cmdOff o 32)
  | 1, 2 => some (cmdOff o 40)
  | 2, _ => some (cmdOff o 28)
  | _, _ => none

/-- The offset at fault, where one of the command's offsets is out of bounds or misaligned. -/
def offsetBad (s : State) (o : EngOp) : Option Nat :=
  match cmdQueue o with
  | some q =>
    if o.eng = 1 ∧ (cmdWord o 32 % 4 ≠ 0 ∨ blockFault s o.team (cmdOff o 32) 0 (4 * cmdWord o 36)) then some (cmdWord o 32)
    else if descriptorLost s o q then some q.toNat else none
  | none =>
    match o.eng with
    | 0 =>
      ((upto (cmdWord o 40)).find? (fun r =>
        blockFault s o.team (cmdOff o 32) (r * cmdWord o 36) (cmdWord o 12))).map (fun r => cmdWord o 32 + r * cmdWord o 36)
    | 1 =>
      if cmdWord o 32 % 4 ≠ 0 ∨ blockFault s o.team (cmdOff o 32) 0 (4 * cmdWord o 36) then some (cmdWord o 32)
      else if blockFault s o.team (cmdOff o 40) 0 (cmdWord o 36 * cmdWord o 12) then some (cmdWord o 40) else none
    | 3 =>
      if cmdWord o 40 % 128 ≠ 0 ∨ blockFault s o.team (cmdOff o 40) 0 1 then some (cmdWord o 40)
      else if cmdWord o 44 % 4 ≠ 0 ∨ blockFault s o.team (cmdOff o 44) 0 4 then some (cmdWord o 44) else none
    | _ => none

/-! ### Addresses (R393, R451 code 1) -/

/-- The first address of a range that the operation may not access. Pages are 64 KiB or larger. -/
def rangeBad (s : State) (o : EngOp) (k : Kind) (va n : Nat) : Option Nat :=
  let at' := fun (i : Nat) => if i = 0 then va % 2 ^ 64 else (va / 65536 * 65536 + 65536 * i) % 2 ^ 64
  (((upto (if n = 0 then 0 else (va % 65536 + n - 1) / 65536 + 1))).map at').find? (fun a =>
    match translate s o.core o.ctx (BitVec.ofNat 64 a) k o.priv with
    | .ok _ => false
    | .error _ => true)

/-- The first of several ranges that fails. -/
def rangesBad (s : State) (o : EngOp) (l : List (Kind × Nat × Nat)) : Option Nat :=
  l.findSome? (fun x => rangeBad s o x.1 x.2.1 x.2.2)

/-- The address at fault, where one of the command's addresses cannot be accessed. DEC's reference buffer at REFB is checked
for access alone: what it holds during and after a decode the spec does not say, and the model leaves it as it is (DESIGN
CHOICE, log 91). -/
def addressBad (s : State) (o : EngOp) : Option Nat :=
  match o.eng with
  | 0 =>
    let k := if cmdOp o.cmd = 2 ∨ cmdOp o.cmd = 3 then Kind.write else Kind.read
    (upto (cmdWord o 40)).findSome? (fun r => rangeBad s o k (cmdLong o 16 + r * cmdLong o 24) (cmdWord o 12))
  | 1 => rangeBad s o (if cmdOp o.cmd = 3 then .write else .read) (cmdLong o 16) 1
  | 3 =>
    rangesBad s o ([(.read, cmdLong o 16, cmdWord o 24), (.write, cmdLong o 48, 2 ^ 28)] ++
      (if cmdLong o 56 = 0 then [] else [(.write, cmdLong o 56, 256)]))
  | 4 => rangeBad s o .read (cmdLong o 16) 2
  | _ => none

/-- The first check that a command fails: its error code and the address or offset at fault. -/
def commandBad (s : State) (o : EngOp) : Option (Nat × Nat) :=
  if !fieldsOk o then some (3, 0)
  else match offsetBad s o with
    | some a => some (2, a)
    | none => match (match cmdQueue o with
        | some q => if descriptorBad s o q then some q.toNat else none
        | none => none) with
      | some a => some (3, a)
      | none => (addressBad s o).map (fun a => (1, a))

/-! ### DEC (R181, R182) -/

def DecStream.fresh (die ctx : Nat) : DecStream :=
  { die := die, ctx := ctx, state := [], shown := 0, units := 0, corrupt := [], ahead := [], engine := none }

def decOf (s : State) (die ctx : Nat) : DecStream :=
  (s.dec.find? (fun d => d.die == die && d.ctx == ctx)).getD (DecStream.fresh die ctx)

def setDec (s : State) (d : DecStream) : State :=
  { s with dec := s.dec.filter (fun x => !(x.die == d.die && x.ctx == d.ctx)) ++ [d] }

def decCtx (o : EngOp) : Nat := cmdWord o 12 % 16
def decLow (o : EngOp) : Bool := (cmdWord o 12).testBit 4
def decNewseq (o : EngOp) : Bool := (cmdWord o 12).testBit 5

/-- What a temporal unit comes to: a frame larger than 4,096 × 2,304 luma samples is outside the supported subset (R181,
R455). -/
def av1Of (low : Bool) (state unit : List Byte) : Config.Av1 :=
  let f := Config.av1 low state unit
  if f.kind ≠ 3 ∧ (4096 < f.width ∨ 2304 < f.height) then { f with kind := 4 } else f

/-- Bytes of a tile (R182): 64 × 64 containers. -/
def decTileBytes (o : EngOp) : Nat := 512 * containerOf (nfmtOf (cmdOff o 28)).width

/-- The planes of a frame: number, width and height (4:2:0, or luma alone). -/
def decPlanes (f : Config.Av1) : List (Nat × Nat × Nat) :=
  (0, f.width, f.height) ::
    (if f.mono then [] else [(1, (f.width + 1) / 2, (f.height + 1) / 2), (2, (f.width + 1) / 2, (f.height + 1) / 2)])

/-- The tiles of a frame, each its plane and the place of its first sample, luma first, row by row. -/
def decTiles (f : Config.Av1) : List (Nat × Nat × Nat) :=
  (decPlanes f).flatMap (fun p =>
    (upto ((p.2.2 + 63) / 64)).flatMap (fun y => (upto ((p.2.1 + 63) / 64)).map (fun x => (p.1, 64 * x, 64 * y))))

/-- Packs codes densely, the first in the low bits (R51); `c` is the container's width. -/
def packCodes (c : Nat) (l : List Nat) : Nat := l.foldr (fun x n => x % 2 ^ c + 2 ^ c * n) 0

/-- The code of a sample (R182). -/
def decCode (o : EngOp) (v : Nat) : Nat :=
  let x := fmul32 (fsub32 (to32 (FVal.ofInt v)) (cmdOff o 32)) (cmdOff o 36)
  ((nfmtOf (cmdOff o 28)).encode (f32 x)).code

/-- The bytes of a tile. -/
def decTile (o : EngOp) (f : Config.Av1) (state unit : List Byte) (tile : Nat × Nat × Nat) : List Byte :=
  let (plane, x0, y0) := tile
  let (w, h) := if plane = 0 then (f.width, f.height) else ((f.width + 1) / 2, (f.height + 1) / 2)
  let c := containerOf (nfmtOf (cmdOff o 28)).width
  (upto 64).flatMap (fun y =>
    bytesOf (8 * c) (packCodes c ((upto 64).map (fun x =>
      if x0 + x < w ∧ y0 + y < h then decCode o (Config.av1Sample (decLow o) state unit plane (x0 + x) (y0 + y)) else 0))))

/-- The temporal unit of a command as memory holds it now, where all of it can be read. -/
def decUnit (s : State) (o : EngOp) : Option (List Byte) :=
  match piecesFor s o .read (cmdLong o 16) (cmdWord o 24) with
  | .error _ => none
  | .ok l => some (l.flatMap (fun p => cleanBytes s p.pa p.n))

/-! ### The lines a command will write (R101, R175) -/

/-- What acceptance foresees of a DEC command: the tiles, the bytes of its status words, and the stream after it. -/
def decAhead (s : State) (o : EngOp) : Nat × Nat × DecStream :=
  let d := decOf s (o.core / 96) (decCtx o)
  let start := if decNewseq o then [] else d.ahead
  match decUnit s o with
  | none => (0, 0, d)
  | some u =>
    let f := av1Of (decLow o) start u
    let n := (decTiles f).length
    match f.kind with
    | 0 => (n, 4 * n, { d with ahead := f.state })
    | 1 => (0, 4, { d with ahead := f.state })
    | 2 => (n, 4 * n, { d with ahead := f.state })
    | 3 => (0, 0, { d with ahead := f.state })
    | _ => (0, 4, { d with ahead := [] })

/-- The runs of scratchpad that a command will write. -/
def cmdSpots (s : State) (o : EngOp) : List SpotRun :=
  if !fieldsOk o then []
  else match o.eng, cmdOp o.cmd with
    | 0, 1 => (upto (cmdWord o 40)).flatMap (fun r => spotsFor s o.team (cmdOff o 32) (r * cmdWord o 36) (cmdWord o 12))
    | 1, 1 => spotsFor s o.team (cmdOff o 40) 0 (cmdWord o 36 * cmdWord o 12)
    | 3, _ =>
      let (n, st, _) := decAhead s o
      spotsFor s o.team (cmdOff o 40) 0 (n * decTileBytes o) ++ spotsFor s o.team (cmdOff o 44) 0 st
    | _, _ => []

/-- An operation enters its queue (R170, R175): the lines it will write become absent. -/
def acceptOp (s : State) (o : EngOp) : State :=
  let o := { o with phase := .queued, lines := (cmdSpots s o).foldl addLine [] }
  let s := if o.eng = 3 then setDec s (decAhead s o).2.2 else s
  clearLines { s with ops := s.ops.filter (fun x => x.id != o.id) ++ [o] } o.lines

/-- The request engine of a core hands on its commands, in list order, while the queues have room (R170, R174). -/
def pumpRequests (core : Nat) : Nat → State → State
  | 0, s => s
  | fuel + 1, s =>
    match s.ops.find? (fun o => o.core == core && o.phase == .kicked) with
    | none => s
    | some o => if queueFull s core o.eng then s else pumpRequests core fuel (acceptOp s o)

end Sys2Proof.Machine
end

