-- ==== Sys2Proof/Machine/Groups.lean ====
section
/-!
DEFINITION. How groups divide and are filed (R23, R27, R29, R299), how formations are drawn (R28, R31, R164), and how
spawned threads become a home warp (R32, R33).
-/

namespace Sys2Proof.Machine

/-! ### Dividing a group -/

/-- The next word of a group. -/
def nextPc (s : State) (g : Grp) : BitVec 56 := g.pc + BitVec.ofNat 56 (4 * s.cur.len)

/-- Takes lanes out of a group into a new one at a PC. The two count as formed now (R23, R162). -/
def splitOff (now : Nat) (t : Team) (g : Grp) (lanes : List (Nat × Nat)) (pc : BitVec 56) (w : Wait) : Team :=
  let t := withoutThreads t (lanes.map (·.2))
  let t := modGroup t g.gid (fun x => { x with formed := now })
  addGroup t (fun gid => { g with gid := gid, lanes := lanes, pc := pc, formed := now, wait := w, pstep := 0, done := [], judged := false, mark := false })

/-- The handler that a group is in. -/
def insideOf (g : Grp) : Option Inside :=
  if g.handler then some { code := g.code, record := g.record, copying := g.copying, kept := g.kept } else none

/-- A group inside a handler, which is privileged. -/
def putInside (x : Option Inside) (g : Grp) : Grp :=
  match x with
  | some i => { g with handler := true, code := i.code, record := i.record, copying := i.copying, kept := i.kept }
  | none => g

/-- The bin of a slice for a key. Threads inside a handler keep its privilege (R390), so that they share bins and formations
with no others (DESIGN CHOICE, log 92). -/
def sameBin (slice : Nat) (key : BitVec 56) (x : Option Inside) (b : Bin) : Bool :=
  b.slice == slice && b.key == key && b.inside == x

/-- Files threads that leave for a PC into the bin of their slice (R27), in ascending lane order; where no bin is free
they run on in their home warps as masked sub-warps. -/
def fileLanes (now : Nat) (t : Team) (g : Grp) (key : BitVec 56) (lanes : List (Nat × Nat)) : Team :=
  let t := withoutThreads t (lanes.map (·.2))
  let filed := lanes.map (fun l => (l.2, now))
  let mine := sameBin g.slice key (insideOf g)
  if lanes.isEmpty then t
  else if t.bins.any mine then
    { t with bins := t.bins.map (fun b => if mine b then { b with filed := b.filed ++ filed } else b) }
  else if (t.bins.filter (fun b => b.slice == g.slice)).length < 64 then
    { t with bins := t.bins ++ [{ slice := g.slice, key := key, inside := insideOf g, filed := filed }] }
  else
    ((lanes.map (fun l => l.2 / 32)).eraseDups).foldl (fun t w =>
      addGroup t (fun gid => putInside (insideOf g)
        { Grp.fresh gid w now (homeLanes ((lanes.map (·.2)).filter (fun i => i / 32 == w))) key with masked := true })) t

/-- The distinct targets of branching lanes, in the order of their lowest lane. -/
def targetsOf (l : List ((Nat × Nat) × BitVec 56)) : List (BitVec 56) := (l.map (·.2)).eraseDups

/-- Sends lanes to their targets; the others of the group fall through (R23, R29, R299). -/
def branchLanes (s : State) (t : Team) (g : Grp) (l : List ((Nat × Nat) × BitVec 56)) : Team :=
  let stay := g.lanes.filter (fun x => !l.any (fun y => y.1.2 == x.2))
  let lanesTo := fun (pc : BitVec 56) => (l.filter (fun y => y.2 == pc)).map (·.1)
  let t := advance s t
  match stay, targetsOf l with
  | _, [] => t
  | [], [pc] => modGroup t g.gid (fun x => { x with pc := pc })
  | [], pc :: rest =>
    if inFormation g then (pc :: rest).foldl (fun t p => fileLanes s.gtick t g p (lanesTo p)) t
    else
      let t := modGroup t g.gid (fun x => { x with pc := pc, formed := s.gtick })
      match groupOf t g.gid with
      | none => t
      | some g' => rest.foldl (fun t p => splitOff s.gtick t g' (lanesTo p) p .none) t
  | _ :: _, ps =>
    if inFormation g then ps.foldl (fun t p => fileLanes s.gtick t g p (lanesTo p)) t
    else match groupOf t g.gid with
      | none => t
      | some g' => ps.foldl (fun t p => splitOff s.gtick t g' (lanesTo p) p .none) t

/-! ### Formations (R28, R31, R164) -/

/-- Formations of a core's slice. -/
def formationCount (s : State) (core slice : Nat) : Nat :=
  (s.teams.filter (fun t => t.2.core == core)).foldl
    (fun n t => n + (t.2.groups.filter (fun g => g.formation && g.slice == slice)).length) 0

/-- Draws a formation of up to 32 threads, oldest filed first, from a bin. An emptied bin is freed. -/
def drawBin (now : Nat) (t : Team) (b : Bin) : Team :=
  let taken := b.filed.take 32
  let rest := b.filed.drop 32
  let t := { t with bins := (t.bins.map (fun x =>
      if sameBin b.slice b.key b.inside x then { x with filed := rest } else x)).filter (fun x => !x.filed.isEmpty) }
  let ids := taken.map (·.1)
  addGroup t (fun gid => putInside b.inside
    { Grp.fresh gid ((ids.headD 0) / 32) now ((upto ids.length).zip ids) b.key with
      formation := true, slice := b.slice })

/-- When a bin's oldest thread was filed. -/
def binSince (b : Bin) : Nat := (b.filed.head?.map (·.2)).getD 0

/-- The bin timer of a team in cycles; cycles and ticks pass alike here. -/
def binTimer (t : Team) : Nat := if t.info.bint = 0 then 256 else t.info.bint

def binExpired (now : Nat) (t : Team) (b : Bin) : Bool := decide (binSince b + binTimer t ≤ now)

/-- The older of two bins, each with its team's key. -/
def olderBin (a : Option (Nat × Bin)) (b : Nat × Bin) : Option (Nat × Bin) :=
  match a with
  | none => some b
  | some x => if binSince b.2 < binSince x.2 then some b else a

/-- Teams of a core that run: no breakpoint has stopped them, and their context is not being saved. -/
def runningTeams (s : State) (core : Nat) : List (Nat × Team) :=
  s.teams.filter (fun t => t.2.core == core && t.2.brk.isNone && (ctxOf s t.2.info.ctx).stat == 0)

/-- The bin that a slice draws first, of whatever team (R31): expired ones before full ones, the oldest first. -/
def dueBin (s : State) (core slice : Nat) : Option (Nat × Bin) :=
  let pick := fun (ok : Team → Bin → Bool) => ((runningTeams s core).flatMap (fun t =>
    (t.2.bins.filter (fun b => b.slice == slice && ok t.2 b)).map (fun b => (t.1, b)))).foldl olderBin none
  match pick (binExpired s.gtick) with
  | some b => some b
  | none => pick (fun _ b => decide (32 ≤ b.filed.length))

/-! ### Slots and spawned warps (R18 to R20, R32, R33) -/

/-- The slots of a core that resident threads and open spawn bins hold. A home warp is formed with 32 slots (R16); each is
free again when its thread has exited (R29, R303), those of lanes that were never formed when the warp ends. -/
def usedSlots (s : State) (core : Nat) : List Nat :=
  (s.teams.filter (fun t => t.2.core == core)).flatMap (fun t =>
    (((upto t.2.threads.length).filter (fun i => (threadOf t.2 i).seated && !(warpOf t.2 (i / 32)).swapped)).map
      (fun i => (threadOf t.2 i).slot)) ++ t.2.spawnBins.flatMap (·.slots))

/-- The free slots of a slice, lowest first. -/
def freeSlots (s : State) (core slice : Nat) : List Nat :=
  let used := usedSlots s core
  ((upto 1024).map (· + 1024 * slice)).filter (fun x => !used.contains x)

/-- The slots of the `n`-th of several home warps that a slice takes in at once: the lowest that are free. -/
def seatSlots (free : List Nat) (n : Nat) : List Nat := (free.drop (32 * n)).take 32

/-- The lowest home-warp number of a slice that is not in use (R33). -/
def freeWarp (t : Team) (slice : Nat) : Option Nat :=
  (((upto 32).map (fun i => 4 * i + slice)).find? (fun w => !(warpOf t w).formed))

/-- Forms a home warp: the threads at the start of its lanes, helper lanes to complete their last quad (R18 to R20).
`v0` of a helper lane of a spawned warp is a free value. The start of a team is a device-scope acquire (R155 to R158); that of
a spawned thread comes after its spawner's SPAWN. -/
def formWarp (s : State) (t : Team) (w : Nat) (slots : List Nat) (v0s : List Word) (helperV0 : Nat → Word) (pc : BitVec 56) : Team :=
  let n := v0s.length
  let up := (n + 3) / 4 * 4
  let t := (upto 32).foldl (fun t l =>
    modThread t (32 * w + l) (fun _ =>
      acquireAt s.writes 2 <| Thread.fresh (slots.getD l 0) (decide (l < up)) (decide (n ≤ l ∧ l < up))
        (if l < n then v0s.getD l 0 else if l < up then helperV0 l else 0))) t
  let t := setWarp t w (Warp.fresh true (t.info.argp.setWidth 64) s.gtick)
  addGroup t (fun gid => Grp.fresh gid w s.gtick ((upto up).map (fun l => (l, 32 * w + l))) pc)

/-- A spawn bin becomes a home warp on its slice (R33). Queue ports are the team's (R37): the new warp has the bindings the
team holds, and R20's 'none' is read as of a team's launch (DESIGN CHOICE, log 93). -/
def formSpawn (s : State) (k : Nat) (b : SpawnBin) : State :=
  match tget s.teams k with
  | none => s
  | some t =>
    match freeWarp t b.slice with
    | none => s
    | some w =>
      let t := { t with spawnBins := t.spawnBins.filter (fun x => x.slots != b.slots) }
      { setTeam s k (formWarp s t w b.slots b.v0s (fun l => Config.freeWord (s.free + l)) b.key) with free := s.free + 32 }

/-- The slice with the most free slots that can take one more home warp of the team, the lowest among ties. -/
def spawnSlice (s : State) (t : Team) : Option Nat :=
  let can := (upto 4).filter (fun sl =>
    decide (32 ≤ (freeSlots s t.core sl).length) &&
      decide (((upto 32).filter (fun i => (warpOf t (4 * i + sl)).formed)).length +
        (t.spawnBins.filter (fun b => b.slice == sl)).length < 32))
  can.foldl (fun best sl => match best with
    | none => some sl
    | some b => if (freeSlots s t.core b).length < (freeSlots s t.core sl).length then some sl else best) none

/-- Puts one new thread into the spawn bin of its key; a bin of 32 forms its home warp (R32, R33). -/
def spawnOne (s : State) (k : Nat) (key : BitVec 56) (v0 : Word) : Option State :=
  match tget s.teams k with
  | none => none
  | some t =>
    match t.spawnBins.find? (fun b => b.key == key) with
    | some b =>
      let b := { b with v0s := b.v0s ++ [v0] }
      let s := setTeam s k { t with spawnBins := t.spawnBins.map (fun x => if x.slots == b.slots then b else x) }
      some (if b.v0s.length = 32 then formSpawn s k b else s)
    | none =>
      if 16 ≤ t.spawnBins.length then none
      else match spawnSlice s t with
        | none => none
        | some sl =>
          let b : SpawnBin :=
            { key := key, slice := sl, slots := (freeSlots s t.core sl).take 32, opened := s.gtick, v0s := [v0] }
          some (setTeam s k { t with spawnBins := t.spawnBins ++ [b] })

end Sys2Proof.Machine
end

