-- ==== Sys2Proof/Machine/Fetch.lean ====
section
/-!
DEFINITION. Instruction fetch (R229, R235, R239, R384): the words of a group at a PC.
-/

namespace Sys2Proof.Machine

/-- The word at an address, and where it lies: from the core's instruction cache, else from memory, in the own node's peer
window the near memory (R92). -/
def fetchWord (s : State) (t : Team) (priv : Bool) (pc : BitVec 56) : Except Park (Nat × Word) :=
  match translate s t.core t.info.ctx (pc.setWidth 64) .fetch priv with
  | .error e =>
    .error { code := BitVec.ofNat 16 e.code, addr := pc.setWidth 64, info := e.info .fetch, flags := 0, order := 0 }
  | .ok l =>
    let pa := homePa s (l.phys pc.toNat)
    match tget (coreOf s t.core).icache pa with
    | some w => .ok (pa, w)
    | none =>
      if poisoned s pa 4 || farLost s pa then .error { code := 1, addr := 0, info := 1, flags := 0, order := 0 }
      else .ok (pa, memWord s pa)

/-- Fetches words while the pattern of R235 asks for one more. -/
def fetchMore (s : State) (t : Team) (priv : Bool) : Nat → BitVec 56 → List (Nat × Word) → Except Park (List (Nat × Word))
  | 0, _, acc => .ok acc
  | n + 1, pc, acc =>
    if wantsMore (acc.map (·.2)) then
      match fetchWord s t priv pc with
      | .error p => .error p
      | .ok x => fetchMore s t priv n (pc + 4) (acc ++ [x])
    else .ok acc

/-- The words of the group of words at a PC. -/
def fetchGroup (s : State) (t : Team) (priv : Bool) (pc : BitVec 56) : Except Park (List (Nat × Word)) :=
  fetchMore s t priv 3 pc []

/-- How many words the group of words at a PC takes; one where it cannot be fetched. -/
def groupLen (s : State) (t : Team) (priv : Bool) (pc : BitVec 56) : Nat :=
  match fetchGroup s t priv pc with
  | .error _ => 1
  | .ok ws => match decodeGroup (ws.map (·.2)) with
    | .ok g => g.len
    | .error r => r.len

/-- A fetch that has completed fills the TLB and the core's instruction cache. -/
def keepFetch (s : State) (t : Team) (pc : BitVec 56) (ws : List (Nat × Word)) : State :=
  modCore (tlbFill s t.core t.info.ctx pc.toNat) t.core (fun c =>
    { c with icache := ws.foldl (fun m x => tset m x.1 x.2) c.icache })

end Sys2Proof.Machine
end

