-- ==== Sys2Proof/Machine/UniEngine.lean ====
section
/-!
DEFINITION. The uniform forms that hand work to engines and to the dispatcher (R130, R170 to R174, R309, R331, R332,
R425, R431), and the steps that complete a waiting PUSHW and a waiting LAUNCH.
-/

namespace Sys2Proof.Machine

/-! ### The fork (R130, R133, R309) -/

/-- The scope of the release that a command's FR asks for. -/
def forkScope (eng : Nat) (c : List Byte) : BitVec 2 := if !cmdFr c then 0 else if eng = 4 ∨ eng = 6 then 3 else 2

/-- An operation as its fork makes it: it carries the representative's new clock and agent number. -/
def newOp (s : State) (t : Team) (g : Grp) (rep : Nat) (id eng : Nat) (c : List Byte) : EngOp :=
  let th := threadOf t rep
  { id := id, eng := eng, inst := 0, core := t.core, team := s.cur.team, ctx := t.info.ctx, slot := th.slot,
    priv := g.handler, cmd := c, clk := th.clk, sat := th.sat, phase := .kicked, unit := 0, bytes := 0, lines := [],
    done := 0, aux := [], data := [], buf := [], put := 0, ending := false, since := s.gtick }

/-- One fork of the commands of a list: the widest release, the clock of every real thread, the operations handed to the
core's request engine in list order. -/
def forkAll (s : State) (g : Grp) (rep : Nat) (l : List (Nat × List Byte)) : State :=
  let k := s.cur.team
  let scope := l.foldl (fun (m : Nat) x => max m (forkScope x.1 x.2).toNat) 0
  let s := releaseCore s (teamCore s k) (BitVec.ofNat 2 scope)
  let s := modTeam s k (fun t => modThreads t (realThreads t g) bumpClk)
  match tget s.teams k with
  | none => s
  | some t =>
    let ops := (l.zip (upto l.length)).map (fun x => newOp s t g rep (s.nextOp + x.2) x.1.1 x.1.2)
    { s with ops := s.ops ++ ops, nextOp := s.nextOp + l.length }

/-- The 64 bytes of eight uniform registers (R173). -/
def cmdRegs (w : Warp) (sa : Nat) : List Byte := (upto 8).flatMap (fun i => bytesOf 8 (uReg w (sa + i)).toNat)

/-- What forbids the issuing group an engine id (R425). -/
def engineFault (s : State) (g : Grp) (id value : Nat) : Option Park :=
  if 7 ≤ id then some (parkOf s 1 value 10)
  else if id = 6 ∧ !g.handler then some (parkOf s 4 value 3)
  else none

/-- An engine id that does not exist. -/
def engineCheck (id : BitVec 6) : Check := fun s _ g => (engineFault s g id.toNat id.toNat).filter (fun p => p.code == 1)

/-- A command is forked and accepted at once. -/
def forkOne (s : State) (g : Grp) (rep id : Nat) (c : List Byte) : State :=
  let s := forkAll s g rep [(id, c)]
  match opOf s (s.nextOp - 1) with
  | some o => acceptOp s o
  | none => s

/-- PUSH (R331): the flag says whether the queue was full. -/
def execPush (fd : BitVec 3) (sa id : BitVec 6) (s : State) : Out :=
  uniformForm true s (fun s t g =>
    let put := fun (b : Bool) (s : State) =>
      .next (modTeam s s.cur.team (fun t => advance s (modWarp t g.warp (fun w => setFlag w fd.toNat b))))
    match engineFault s g id.toNat id.toNat with
    | some p => trapUniform s g p
    | none =>
      match representative t g with
      | none => put false s
      | some rep =>
        if queueFull s t.core id.toNat then put true s
        else put false (forkOne s g rep.2 id.toNat (cmdRegs (warpOf t g.warp) sa.toNat))) (engineCheck id)

/-- PUSHW: holds the group until its command is accepted. -/
def execPushw (sa id : BitVec 6) (s : State) : Out :=
  uniformForm false s (fun s t g =>
    match engineFault s g id.toNat id.toNat with
    | some p => trapUniform s g p
    | none =>
      match representative t g with
      | none => finish s t
      | some rep =>
        if queueFull s t.core id.toNat then waitFor s t (.retry .pushw)
        else
          let s := forkOne s g rep.2 id.toNat (cmdRegs (warpOf t g.warp) sa.toNat)
          .next (modTeam s s.cur.team (advance s))) (engineCheck id)

/-- The commands of a KICK list, and its runs of scratchpad. -/
def kickList (b : List Byte) (n : Nat) : List (List Byte) := (upto n).map (fun i => (b.drop (64 * i)).take 64)

/-- What forbids a list: an engine id of some entry, the code 0x01 before 0x04 (R415, R425). -/
def kickFault (s : State) (g : Grp) (l : List (List Byte)) : Option Park :=
  let faults := (l.zip (upto l.length)).filterMap (fun x => engineFault s g (cmdQid x.1) x.2)
  match faults.find? (fun p => p.code == 1) with
  | some p => some p
  | none => faults.head?

/-- A list length outside 1 to 256 (R429). -/
def kickCheck (sb : BitVec 6) : Check := fun s t g =>
  let n := (uReg (warpOf t g.warp) sb.toNat).toNat % 512
  if n = 0 ∨ 256 < n then some (parkOf s 1 n 10) else none

/-- KICK (R174): the list is read and forked at once; its commands enter their queues in list order. -/
def execKick (sa sb : BitVec 6) (s : State) : Out :=
  uniformForm false s (fun s t g =>
    let k := s.cur.team
    let w := warpOf t g.warp
    let off := low32 (uReg w sa.toNat)
    let n := (uReg w sb.toNat).toNat % 512
    if n = 0 ∨ 256 < n then trapUniform s g (parkOf s 1 n 10)
    else if off.toNat % 64 ≠ 0 then trapUniform s g (alignPark (off.setWidth 64) 64)
    else match resolve s k off (64 * n) with
      | .error r =>
        trapUniform s g { code := 0x13, addr := off.setWidth 64, info := boundInfo off r, flags := 0, order := 0 }
      | .ok _ =>
        let spots := spotsFor s k off 0 (64 * n)
        if !spadReady s spots then waitFor s t (.retry .presence)
        else match representative t g with
          | none => finish s t
          | some rep =>
            let reader := newOp s (modThreads t [rep.2] bumpClk) g rep.2 0 0 []
            let (b, s') := readSpots reader spots s
            let l := kickList b n
            match kickFault s g l with
            | some p => trapUniform s g p
            | none =>
              let s := forkAll s' g rep.2 (l.map (fun c => (cmdQid c, c)))
              let s := pumpRequests t.core (n + 16) s
              .next (modTeam s k (advance s))) (kickCheck sb)

/-! ### The launch queues (R154, R332, R364) -/

/-- The descriptor of launch queue `q`. -/
def lqAddr (s : State) (q : Nat) : Nat := (regGet s 0x28).toNat + 32 * q

def lqBase (s : State) (q : Nat) : Nat := memNat s (lqAddr s q) 8
def lqCap (s : State) (q : Nat) : Nat := memNat s (lqAddr s q + 8) 4
def lqHead (s : State) (q : Nat) : Word := BitVec.ofNat 32 (memNat s (lqAddr s q + 12) 4)
def lqTail (s : State) (q : Nat) : Word := BitVec.ofNat 32 (memNat s (lqAddr s q + 16) 4)
def lqEnabled (s : State) (q : Nat) : Bool := (memNat s (lqAddr s q + 20) 1).testBit 0

/-- A descriptor that the dispatcher can serve (R154). -/
def lqUsable (s : State) (q : Nat) : Bool :=
  lqEnabled s q && powerBetween (lqCap s q) 16 65536 && lqBase s q % 64 == 0

/-- The place of record `n`. -/
def lqSlot (s : State) (q : Nat) (n : Word) : Nat := lqBase s q + 64 * (n.toNat % lqCap s q)

def lqOf (s : State) (q : Nat) : LQueue := s.lqs.getD q LQueue.reset

def modLq (s : State) (q : Nat) (f : LQueue → LQueue) : State :=
  { s with lqs := padSet LQueue.reset s.lqs q (f (lqOf s q)) }

/-- LAUNCH takes the next slot of a queue; RES catches up first with a TAIL that a sole producer has moved (R332). -/
def reserve (s : State) (q : Nat) : Word × State :=
  let gap := (lqTail s q - (lqOf s q).resv).toNat
  let n := if 1 ≤ gap ∧ gap < 2 ^ 31 then lqTail s q else (lqOf s q).resv
  (n, modLq s q (fun x => { x with resv := n + 1 }))

/-- The slot is free and every earlier slot is published. -/
def canPublish (s : State) (q : Nat) (n : Word) : Bool :=
  decide ((n - lqHead s q).toNat < lqCap s q) && lqTail s q == n

/-- Publishes record `n`: the 64 bytes go into its slot, TAIL advances with a device-scope release (R126), s[SD] receives
n. -/
def publish (s : State) (g : Grp) (sd : BitVec 6) (q : Nat) (n : Word) (b : List Byte) : State :=
  let k := s.cur.team
  let s := releaseCore (memWrite s (lqSlot s q n) b) (teamCore s k) 2
  let s := memWrite s (lqAddr s q + 16) (bytesOf 4 (n + 1).toNat)
  modTeam s k (fun t =>
    advance s (modThreads (modWarp t g.warp (fun w => setU w sd.toNat (n.setWidth 64))) (realThreads t g) bumpClk))

/-- A queue that is not enabled. -/
def launchCheck (sb : BitVec 6) : Check := fun s t g =>
  let q := (uReg (warpOf t g.warp) sb.toNat).toNat % 64
  if lqUsable s q then none else some (parkOf s 1 q 17)

/-- LAUNCH (R332, R431). One that waits for its turn tries to publish again. -/
def execLaunch (sd sa sb : BitVec 6) (s : State) : Out :=
  uniformForm true s (fun s t g =>
    let k := s.cur.team
    let w := warpOf t g.warp
    let a := uReg w sa.toNat
    match g.wait with
    | .publish q n page size flags =>
      if canPublish s q n then
        -- the record as memory holds it now, on the page that the probe stage found
        let leaf : Leaf := { pa := page, size := size, flags := flags }
        let (b, s) := coreRead s t.core leaf (leaf.phys a.toNat) 64 0 0 false false
        .next (publish s g sd q n b.1)
      else .next s
    | _ =>
      let q := (uReg w sb.toNat).toNat % 64
      if !lqUsable s q then trapUniform s g (parkOf s 1 q 17)
      else
        let rep := representative t g
        let page := (match translate s t.core t.info.ctx a .read g.handler with
          | .ok leaf => leaf
          | .error _ => noLeaf)
        uniAccess false [sd.toNat] s t g 64 (qualOf none .read) (.load false none) a (fun s b =>
          match rep with
          | none => modTeam s k (fun t => advance s (modWarp t g.warp (fun w => setU w sd.toNat 0)))
          | some _ =>
            let s := releaseCore s t.core 2
            let (n, s) := reserve s q
            if canPublish s q n then publish s g sd q n (b.getD [])
            else modTeam s k (fun t => hold s t (.publish q n page.pa page.size page.flags)))) (launchCheck sb)

/-! ### The steps that complete a waiting form -/

/-- The instruction at a waiting group, with the machine made ready to run it for that group. -/
def waitingInstr (s : State) (k gid : Nat) : Option (Instr × State) :=
  match tget s.teams k with
  | none => none
  | some t => match groupOf t gid with
    | none => none
    | some g => match fetchGroup s t g.handler g.pc with
      | .error _ => none
      | .ok ws => match decodeGroup (ws.map (·.2)) with
        | .error _ => none
        | .ok d =>
          some (d.instr, { s with cur := { Cur.none with
            team := k, gid := gid, hdr := d.hdr, word := (ws.getLast?.map (·.2)).getD 0, len := d.len } })

/-- PUSHW_ACCEPT (R170): the queue accepts a waiting command. -/
def execPushwAccept (s : State) : Out :=
  match waitingInstr s s.cur.arg.team s.cur.arg.gid with
  | some (.pushw sa id, s) => execPushw sa id s
  | _ => .next s

/-- LAUNCH_PUBLISH (R332): a waiting LAUNCH publishes its record when it can. -/
def execLaunchPublish (s : State) : Out :=
  match waitingInstr s s.cur.arg.team s.cur.arg.gid with
  | some (.launch sd sa sb, s) => execLaunch sd sa sb s
  | _ => .next s

end Sys2Proof.Machine
end

