-- ==== Sys2Proof/Machine/Engines.lean ====
section
/-!
DEFINITION. The engines at work (R152, R170 to R185, R451 to R455, R466): taking a command, moving a unit of each class,
finishing a unit, resuming a stalled operation, and the collectives' segments. The checkpoint engine stands with the
context switch it is made of.
-/

namespace Sys2Proof.Machine

/-! ### What a unit is in each class -/

def copyField (o : EngOp) : Nat := cmdWord o 44

/-- CPY's chunk `o.unit` (R178): in row order, never across a row. -/
def cpyXfer (o : EngOp) : Xfer :=
  let row := o.unit / max 1 (cpyChunks o)
  let c := o.unit % max 1 (cpyChunks o) * 4096
  let va := cmdLong o 16 + row * cmdLong o 24 + c
  let spad := Side.spad ((offPlus (cmdOff o 32) (row * cmdWord o 36 + c)).getD (cmdOff o 32))
  let q := Side.queue (cmdOff o 32)
  let (src, dst) := match cmdOp o.cmd with
    | 1 => (Side.glob va, spad)
    | 2 => (spad, .glob va)
    | 3 => (q, .glob va)
    | _ => (.glob va, q)
  { src := src, dst := dst, n := min 4096 (cmdWord o 12 - c), rid := copyField o / 4 % 1024,
    cache := BitVec.ofNat 2 (copyField o) }

/-- GAT's row `o.unit` (R179) once its index is known. -/
def gatXfer (o : EngOp) (ix : Nat) : Xfer :=
  let va := Side.glob (cmdLong o 16 + ix * cmdLong o 24)
  let spad := Side.spad ((offPlus (cmdOff o 40) (o.unit * cmdWord o 12)).getD (cmdOff o 40))
  let (src, dst) := match cmdOp o.cmd with
    | 1 => (va, spad)
    | 2 => (va, .queue (cmdOff o 40))
    | _ => (spad, va)
  { src := src, dst := dst, n := cmdWord o 12, rid := 0, cache := 0 }

/-- Moves the unit in flight; a whole unit's bytes are then to be counted (R177). -/
def runUnit (s : State) (o : EngOp) (x : Xfer) : State :=
  match moveUnit o.id x (x.n + 1) s with
  | .some _ s => modOp s o.id (fun y => { y with phase := .unitDone, bytes := x.n })
  | .stuck s => modOp s o.id (fun y => { y with phase := .stalled })
  | .failed s c a => match opOf s o.id with
    | some y => failOp s y c a
    | none => s

def stepCpy (s : State) (o : EngOp) : State := runUnit s o (cpyXfer o)

/-- GAT reads its index first: an absent line holds it, an index outside the table ends it with code 3. -/
def stepGat (s : State) (o : EngOp) : State :=
  match o.aux with
  | ix :: _ => runUnit s o (gatXfer o ix)
  | [] =>
    let spots := spotsFor s o.team (cmdOff o 32) (4 * o.unit) 4
    if !spadReady s spots then modOp s o.id (fun y => { y with phase := .stalled })
    else
      let (b, s) := readSpots o spots s
      let ix := ofBytes b
      if cmdWord o 44 ≤ ix then failOp s o 3 (cmdWord o 32 + 4 * o.unit)
      else
        let o := { o with aux := [ix] }
        runUnit (setOp s o) o (gatXfer o ix)

/-! ### KVS (R180, R452, R466) -/

def kvsSeq (o : EngOp) : Nat := cmdWord o 12 % 2 ^ 20
def kvsHead (o : EngOp) : Nat := cmdWord o 12 / 2 ^ 20 % 256

/-- Where the tile of a page lies. -/
def kvsPlace (o : EngOp) (e pa : Nat) : Nat :=
  pa + (if cmdOp o.cmd = 1 then 0 else 16 * seqHeads e * o.aux.getD 1 0) + 16 * o.aux.getD 1 0 * kvsHead o

/-- The tile of a page: its slots at or past L read 0. -/
def kvsBytes (s : State) (o : EngOp) (e pa slot : Nat) : List Byte :=
  let hb := o.aux.getD 1 0
  let m := min 16 (o.aux.getD 0 0 - 16 * slot)
  let b := cleanBytes s (kvsPlace o e pa) (16 * hb)
  if cmdOp o.cmd = 1 then
    b.take (hb * m) ++ List.replicate (16 * hb - hb * m) 0
  else
    let c := seqCbits e
    let rl := max 1 (2 * c)
    (upto (16 * hb / rl)).flatMap (fun d => bytesOf rl (bytesAt b (rl * d) rl % 2 ^ (c * m)))

/-- The page slot of the unit is reached: its entry is read and its page pinned. A page in STATE 11 is not pinned, gives
zeros and counts code 3; an invalid entry gives zeros. -/
def kvsReach (s : State) (o : EngOp) : State × EngOp :=
  let e := seqEntry s (kvsSeq o)
  let slot := cmdWord o 20 / 16 + o.unit
  let l := o.aux.getD 0 0
  let hb := o.aux.getD 1 0
  let zeros := List.replicate (16 * hb) (0 : Byte)
  match pageAt s e (cmdWord o 16) slot with
  | none => (s, { o with data := zeros, aux := [l, hb, 0] })
  | some p =>
    if pageGet s p 117 2 = 3 then
      let s := engError s o 3 (pagePa s p)
      (if cmdCk o.cmd then s else countDown s o (some 0) 1, { o with data := zeros, aux := [l, hb, 0] })
    else
      let n := pagePa s p
      let b := kvsBytes s o e n slot
      -- the poison of the tile counts as it is read, line by line
      let at' := kvsPlace o e n
      let s := (upto ((at' % 128 + 16 * hb + 127) / 128)).foldl (fun s i =>
        let lo := max at' (at' / 128 * 128 + 128 * i)
        consumeAt (errorUnit o) s lo (min (at' + 16 * hb) (at' / 128 * 128 + 128 * (i + 1)) - lo)) s
      (addPin s p, { o with data := b, aux := [l, hb, p + 1] })

def stepKvs (s : State) (o : EngOp) : State :=
  let (s, o) := if o.data.isEmpty then kvsReach s o else (s, o)
  runUnit (setOp s o) o { src := .held o.data, dst := .queue (cmdOff o 28), n := kvsTile o, rid := 0, cache := 0 }

/-- At its start KVS reads L and HB (R180); of a sequence, head or layer that is not there it takes L = 0 (R452). -/
def startKvs (s : State) (o : EngOp) : State :=
  let q := kvsSeq o
  let e := seqEntry s q
  if (seqFault s q).isSome || decide (seqHeads e ≤ kvsHead o) || decide (seqLayers e ≤ cmdWord o 16) then
    failOp s { o with aux := [0, 0, 0] } 3 0
  else
    let o := { o with aux := [seqLen e, seqHb e, 0] }
    if seqHb e ≠ cmdWord o 32 then failOp s o 3 0
    else if kvsPages o = 0 then completeOp s o else setOp s o

/-! ### DEC (R181, R182, R454, R455) -/

def statusWord (frame plane code : Nat) : List Byte := bytesOf 4 (frame % 65536 * 65536 + plane * 256 + code)

/-- Writes bytes of an operation at a byte of a block of scratchpad. -/
def putBlock (s : State) (o : EngOp) (off : Word) (d : Nat) (b : List Byte) : State :=
  let ps := spotsFor s o.team off d b.length
  modOp (writeSpots o ps b s) o.id (fun y => { y with lines := ps.foldl arriveRun y.lines })

/-- The operation as it stands now. -/
def opNow (s : State) (o : EngOp) : EngOp := (opOf s o.id).getD o

/-- The barrier goes to zero, or the counter counts, and the operation is over. -/
def endDec (s : State) (o : EngOp) (corrupt : Nat) : State :=
  let s := if cmdCk o.cmd then s else countDown s o (some (2 ^ 32)) corrupt
  completeOp s (opNow s o)

/-- A corrupt frame of known size: every tile is zeros with status CORRUPT (R454). -/
def corruptDec (s : State) (o : EngOp) (d : DecStream) (tiles : List (Nat × Nat × Nat)) : State :=
  let t := decTileBytes o
  let s := (tiles.zip (upto tiles.length)).foldl (fun s x =>
    putBlock (putBlock s o (cmdOff o 40) (x.2 * t) (List.replicate t 0)) o (cmdOff o 44) (4 * x.2)
      (statusWord d.shown x.1.1 1)) s
  let s := if cmdCk o.cmd then s else countDown s o (some (tiles.length * t)) tiles.length
  let s := crumb (countReg s (0x80148 + 8 * (o.inst / 4)) 1) 0x0101 (unitOf 2 o.inst) []
  completeOp s (opNow s o)

/-- The unit is decoded before any tile is written (R454, R455). What follows depends on what it holds. A unit that shows no
frame writes no grain record: R182 speaks of how a frame is written, and R181 names what such a unit does write (DESIGN
CHOICE, log 90). -/
def beginDec (s : State) (o : EngOp) (u : List Byte) : State :=
  let die := o.inst / 4
  let d0 := decOf s die (decCtx o)
  let d := if decNewseq o then { DecStream.fresh die (decCtx o) with ahead := d0.ahead, engine := some o.inst } else d0
  let f := av1Of (decLow o) d.state u
  let after := { d with state := f.state, units := d.units + 1 }
  let seen := if f.key then [] else d.corrupt
  let tiles := decTiles f
  let n := tiles.length
  let fits := !blockFault s o.team (cmdOff o 40) 0 (n * decTileBytes o) && !blockFault s o.team (cmdOff o 44) 0 (4 * n)
  match f.kind with
  | 1 => endDec (putBlock (setDec s { after with corrupt := seen }) o (cmdOff o 44) 0 (statusWord d.shown 0 3)) o 0
  | 3 =>
    let s := crumb (countReg (setDec s after) (0x80148 + 8 * die) 1) 0x0101 (unitOf 2 o.inst) []
    endDec s o 1
  | 4 =>
    let s := engError (setDec s { DecStream.fresh die (decCtx o) with ahead := d.ahead }) o 5 (cmdLong o 16)
    endDec (putBlock s o (cmdOff o 44) 0 (statusWord d.shown 0 4)) o 1
  | k =>
    let o' := { o with aux := [n, decTileBytes o] }
    if !fits then failOp s o' 2 (cmdWord o 40)
    else if k = 2 then
      corruptDec (setDec s { after with shown := d.shown + 1, corrupt := seen ++ [d.units] }) o' d tiles
    else
      let degraded := !f.key && f.refs.any (fun r => d.corrupt.contains r)
      let s := setDec s { after with
        state := d.state, shown := d.shown + 1, corrupt := if degraded then seen ++ [d.units] else seen }
      setOp s { o with data := u, aux := [n, decTileBytes o, d.shown, if degraded then 2 else 0] ++ upto n }

/-- Writes one of the tiles that are left, in an order that nothing fixes, with its status word before its count-down; a
degraded tile counts. -/
def tileDec (s : State) (o : EngOp) : State :=
  match o.aux with
  | n :: t :: frame :: code :: left =>
    let d := decOf s (o.inst / 4) (decCtx o)
    let f := av1Of (decLow o) d.state o.data
    let i := (Config.freeWord s.free).toNat % left.length
    let tile := left.getD i 0
    let place := (decTiles f).getD tile (0, 0, 0)
    let s := { s with free := s.free + 1 }
    let s := setOp s { o with aux := [n, t, frame, code] ++ left.eraseIdx i, phase := .unitDone, bytes := t }
    let s := putBlock s o (cmdOff o 40) (tile * t) (decTile o f d.state o.data place)
    let s := putBlock s o (cmdOff o 44) (4 * tile) (statusWord frame place.1 code)
    if code = 2 then crumb (countReg s (0x80188 + 8 * (o.inst / 4)) 1) 0x0102 (unitOf 2 o.inst) [] else s
  | _ => s

/-- A grain record (R182): apply_grain, grain_seed and the bits of film_grain_params(), the first in the high bit of byte 4,
padded with zeros. The spec says nothing of byte 1. -/
def grainBytes (s : State) (f : Config.Av1) : List Byte :=
  let bits := f.grainParams ++ List.replicate (252 * 8) false
  bytesOf 1 (if f.applyGrain then 1 else 0) ++ [Config.freeByte s.free] ++ bytesOf 2 f.grainSeed.toNat ++
    (upto 252).map (fun i => BitVec.ofNat 8 ((upto 8).foldl (fun n j => 2 * n + (if bits.getD (8 * i + j) false then 1 else 0)) 0))

/-- The grain record is written before completion, as its gates let it; then the stream's state passes on (R182). -/
def sealDec (s : State) (o : EngOp) : Got :=
  let d := decOf s (o.inst / 4) (decCtx o)
  let f := av1Of (decLow o) d.state o.data
  match (if cmdLong o 56 = 0 then .all s else writeUpTo o.id (cmdLong o 56) (grainBytes s f) 0 257 s) with
  | .held s => .held s
  | .failed s c a => .failed s c a
  | .all s => .all (setDec { s with free := s.free + 1 } { d with state := f.state })

def stepDec (s : State) (o : EngOp) : State :=
  if !o.aux.isEmpty then tileDec s o
  else match readUpTo o.id (cmdLong o 16) (cmdWord o 24) 0 0 (cmdWord o 24 + 1) s with
    | .failed s c a => failOp s (opNow s o) c a
    | .held s => modOp s o.id (fun y => { y with phase := .stalled })
    | .all s =>
      let o := opNow s o
      let s := beginDec (setOp s { o with buf := [] }) { o with buf := [] } o.buf
      match opOf s o.id with
      | some y => if y.aux.isEmpty || y.ending then s else tileDec s y
      | none => s

/-! ### COL (R183, R184, R453) -/

def colCount (o : EngOp) : Nat := o.aux.getD 0 0
def colRank (o : EngOp) : Nat := o.aux.getD 1 0
def colIds (o : EngOp) : List Nat := (o.aux.drop 2).take (colCount o)
/-- The ranks whose segment has arrived, in order of arrival. -/
def colHeard (o : EngOp) : List Nat := o.aux.drop (2 + colCount o)

/-- The elements of the segment `o.unit`: first and count. -/
def colSegment (o : EngOp) : Nat × Nat :=
  let per := 65536 / colSize o
  (o.unit * per, min per (colPer o - o.unit * per))

/-- One step of a reduction on element bits (R184). -/
def colCombine (elt red : Nat) (acc x : Nat) : Nat :=
  let a := BitVec.ofNat 32 acc
  let b := BitVec.ofNat 32 x
  match red, elt with
  | 0, 0 => (fadd32 a b).toNat
  | 0, 1 => (fadd32 a (to32 (bf16.decode x))).toNat
  | 0, _ => (acc + x) % 2 ^ 32
  | 1, 0 => (fmax32 a b).toNat
  | 1, 1 => bf16.maxNum acc x
  | 1, 2 => if a.toInt < b.toInt then x else acc
  | 1, _ => max acc x
  | _, _ => acc ||| x

/-- The reduction of one element over the ranks, in ascending order. -/
def colReduce (elt red : Nat) (l : List Nat) : Nat :=
  match l with
  | [] => 0
  | x :: rest =>
    if red = 0 ∧ elt = 1 then
      let acc := rest.foldl (colCombine 1 0) (to32 (bf16.decode x)).toNat
      bf16.round (f32 (BitVec.ofNat 32 acc))
    else rest.foldl (colCombine elt red) x

/-- The segment of a rank: this device's own, or the one that has arrived. -/
def colData (o : EngOp) (own : List Byte) (rank : Nat) : List Byte :=
  if rank = colRank o then own
  else
    let n := own.length
    match (colHeard o).findIdx? (· == rank) with
    | some i => (o.data.drop (n * i)).take n
    | none => []

/-- What a segment writes: address and bytes. -/
def colWrites (o : EngOp) (own : List Byte) : List (Nat × List Byte) :=
  let sz := colSize o
  let (i0, n) := colSegment o
  let ranks := upto (colCount o)
  let recv := cmdLong o 32
  if cmdOp o.cmd = 3 then ranks.map (fun r => (recv + (r * cmdWord o 40 + i0) * sz, colData o own r))
  else
    let elt := cmdWord o 12 % 256
    let red := cmdWord o 12 / 256 % 256
    let ds := ranks.map (colData o own)
    [(recv + i0 * sz, (upto n).flatMap (fun i => bytesOf sz (colReduce elt red (ds.map (fun d => bytesAt d (sz * i) sz)))))]

/-- The first address of several writes that may not be written. -/
def writesBad (s : State) (o : EngOp) (l : List (Nat × List Byte)) : Option Nat :=
  rangesBad s o (l.map (fun w => (.write, w.1, w.2.length)))

/-- Makes several writes in order, as their gates let them. -/
def writeAll (id : Nat) : Nat → List (Nat × List Byte) → State → Got
  | _, [], s => .all s
  | skip, (a, b) :: rest, s =>
    match writeUpTo id a b skip (b.length + 1) s with
    | .all s => writeAll id (skip + b.length) rest s
    | r => r

/-- The group descriptor is read, as its gates let it, and checked (R183, R451 codes 1, 3 and 4). -/
def startCol (s : State) (o : EngOp) : State :=
  let stall := fun (s : State) => modOp s o.id (fun y => { y with phase := .stalled })
  match readUpTo o.id (cmdLong o 16) 2 0 0 3 s with
  | .failed s c a => failOp s (opNow s o) c a
  | .held s => stall s
  | .all s =>
    let n := bytesAt (opNow s o).buf 0 2
    if n < 2 ∨ 4096 < n ∨ (cmdOp o.cmd = 2 ∧ cmdWord o 40 % n ≠ 0) then failOp s (opNow s o) 3 (cmdLong o 16)
    else match readUpTo o.id (cmdLong o 16) (2 * n + 2) 0 0 (2 * n + 3) s with
      | .failed s c a => failOp s (opNow s o) c a
      | .held s => stall s
      | .all s =>
        let o := opNow s o
        let ids := (upto n).map (fun i => bytesAt o.buf (2 * i + 2) 2)
        match ids.findIdx? (· == nodeId s) with
        | none => failOp s o 4 (cmdLong o 16)
        | some rank =>
          let sz := colSize o
          let out := if cmdOp o.cmd = 3 then n * cmdWord o 40 else if cmdOp o.cmd = 2 then cmdWord o 40 / n else cmdWord o 40
          if ids.any (fun i => !reaches s i) then failOp s o 4 (cmdLong o 16)
          else match rangesBad s o [(.read, cmdLong o 24, cmdWord o 40 * sz), (.write, cmdLong o 32, out * sz)] with
            | some a => failOp s o 1 a
            | none => setOp s { o with aux := [n, rank] ++ ids, buf := [], phase := .running, since := s.gtick }

/-- The peers whose segment a collective still waits for. -/
def colWaits (o : EngOp) : Bool := !o.aux.isEmpty && decide ((colHeard o).length + 1 < colCount o)

/-- A collective's next segment: it waits until every peer's has arrived. -/
def exchangeCol (s : State) (o : EngOp) : State :=
  let stall := fun (s : State) => modOp s o.id (fun y => { y with phase := .stalled })
  let sz := colSize o
  let (i0, n) := colSegment o
  let first := (if cmdOp o.cmd = 2 then colRank o * colPer o else 0) + i0
  if colWaits o then stall s
  else match readUpTo o.id (cmdLong o 24 + first * sz) (n * sz) 0 0 (n * sz + 1) s with
    | .failed s c a => failOp s (opNow s o) c a
    | .held s => stall s
    | .all s =>
      let o := opNow s o
      let ws := colWrites o o.buf
      match writesBad s o ws with
      | some a => failOp s o 1 a
      | none => match writeAll o.id 0 ws s with
        | .failed s c a => failOp s (opNow s o) c a
        | .held s => stall s
        | .all s => modOp s o.id (fun y => { y with
            phase := .unitDone, bytes := 0, data := [], buf := [], put := 0, aux := y.aux.take (2 + colCount o) })

def stepCol (s : State) (o : EngOp) : State := if o.aux.isEmpty then startCol s o else exchangeCol s o

/-! ### SSU (R185) -/

def ssuSide (o : EngOp) (lo : Nat) : Nat × Nat × Nat :=
  (cmdWord o lo % 2 ^ 20, cmdWord o lo / 2 ^ 20 % 256, cmdWord o (lo + 4) % 256)

/-- A side that names no sequence, layer or slot. -/
def ssuBad (s : State) (o : EngOp) (x : Nat × Nat × Nat) : Bool :=
  let e := seqEntry s x.1
  (seqFault s x.1).isSome || decide (seqLayers e ≤ x.2.1) || (x.2.2 != 255 && decide (seqRslots e ≤ x.2.2)) ||
    decide (stateBytes e < cmdWord o 28)

/-- Where a source's bytes are: a reference's in its owner's slot. -/
def ssuSource (s : State) (x : Nat × Nat × Nat) : Nat :=
  let e := seqEntry s x.1
  if x.2.2 = 255 then (workSource s e x.2.1).getD (workAddr e x.2.1)
  else
    let h := slotHead s e x.2.1 x.2.2
    if shValid h && shOwner h != x.1 then (slotData s (shOwner h) x.2.1 (shSlot h)).getD (snapAddr e x.2.1 x.2.2)
    else snapAddr e x.2.1 x.2.2

/-- COPY: between two ring slots the position key goes along. -/
def stepSsu (s : State) (o : EngOp) : State :=
  let a := ssuSide o 12
  let b := ssuSide o 20
  let eb := seqEntry s b.1
  let src := ssuSource s a
  let s := if b.2.2 = 255 then ownWork s eb b.2.1 else s
  let dst := if b.2.2 = 255 then workAddr eb b.2.1 else snapAddr eb b.2.1 b.2.2
  let s := copyBytes s src dst (cmdWord o 28)
  let s := if a.2.2 = 255 ∨ b.2.2 = 255 then s
    else
      let key := shPos (slotHead s (seqEntry s a.1) a.2.1 a.2.2)
      setSlotHead s eb b.2.1 b.2.2 (putBits (slotHead s eb b.2.1 b.2.2) 0 28 key)
  modOp s o.id (fun y => { y with phase := .unitDone, bytes := cmdWord o 28 })

def startSsu (s : State) (o : EngOp) : State :=
  if ssuBad s o (ssuSide o 12) ∨ ssuBad s o (ssuSide o 20) then failOp s o 3 0 else setOp s o

/-! ### The steps of the classes -/

/-- The class step that moves the unit of a running operation. -/
def stepOp (s : State) (o : EngOp) : State :=
  if o.ending then endCounter s o
  else match o.eng with
  | 0 => stepCpy s o
  | 1 => stepGat s o
  | 2 => stepKvs s o
  | 3 => stepDec s o
  | 4 => stepCol s o
  | 5 => stepSsu s o
  | _ => s

/-- A step of class `eng` and opcode `op` for the operation that the event names. -/
def engineStep (eng op : Nat) (f : State → EngOp → State) (s : State) : Out :=
  match opOf s s.cur.arg.op with
  | some o => .next (if o.eng = eng ∧ cmdOp o.cmd = op ∧ o.phase = .running ∧ (ctxOf s o.ctx).stat = 0 then
      (if o.ending then endCounter s o else f s o) else s)
  | none => .next s

def execCpyLoad (s : State) : Out := engineStep 0 1 stepCpy s
def execCpyStore (s : State) : Out := engineStep 0 2 stepCpy s
def execCpyQstore (s : State) : Out := engineStep 0 3 stepCpy s
def execCpyQload (s : State) : Out := engineStep 0 4 stepCpy s
def execGatGather (s : State) : Out := engineStep 1 1 stepGat s
def execGatGatherq (s : State) : Out := engineStep 1 2 stepGat s
def execGatScatter (s : State) : Out := engineStep 1 3 stepGat s
def execKvsStreamk (s : State) : Out := engineStep 2 1 stepKvs s
def execKvsStreamvt (s : State) : Out := engineStep 2 2 stepKvs s
def execDecDecode (s : State) : Out := engineStep 3 1 stepDec s
def execColAllreduce (s : State) : Out := engineStep 4 1 stepCol s
def execColReducescatter (s : State) : Out := engineStep 4 2 stepCol s
def execColAllgather (s : State) : Out := engineStep 4 3 stepCol s
def execSsuCopy (s : State) : Out := engineStep 5 1 stepSsu s

/-! ### ENGINE_COMMAND_TAKE (R170, R175, R451) -/

/-- A context that runs: CTXSTAT reads 0, and it has a team or a queue that is served (R439). -/
def ctxRuns (s : State) (i : Nat) : Bool :=
  (ctxOf s i).stat == 0 &&
    (s.teams.any (fun t => t.2.info.ctx == i) ||
      (upto 64).any (fun q => (lqOf s q).served && bytesAt (bytesOf 8 (regGet s (0x480 + 8 * (q / 8))).toNat) (q % 8) 1 % 16 == i))

/-- A checkpoint cannot be taken while a running context has no save area (R186). -/
def ckpBlocked (s : State) : Bool := (upto 16).any (fun i => ctxRuns s i && regGet s (0x80640 + 8 * i) == 0)

/-- A decode engine is busy with a command, and a context's commands run one at a time, on the engine that took the first of
its stream (R181; that a new stream may go to another one is DESIGN CHOICE, log 90). -/
def decBusy (s : State) (inst : Nat) (o : EngOp) : Bool :=
  s.ops.any (fun x => x.eng == 3 && x.phase != .queued && x.phase != .kicked &&
    (x.inst == inst || (x.inst / 4 == o.core / 96 && decCtx x == decCtx o))) ||
  (!decNewseq o && (match (decOf s (o.core / 96) (decCtx o)).engine with
    | some e => e != inst
    | none => false))

/-- The function of an engine is ready (R359, R360). -/
def engineReady (s : State) (eng inst : Nat) : Bool :=
  match eng with
  | 2 => readyBit s (160 + inst)
  | 3 => readyBit s (256 + inst)
  | 4 => readyBit s (288 + inst)
  | 6 => readyBit s 31
  | _ => true

/-- Whether an engine can start a command now. -/
def canTake (s : State) (inst : Nat) (o : EngOp) : Bool :=
  (ctxOf s o.ctx).stat == 0 && engineReady s o.eng inst && match o.eng with
  | 3 => !decBusy s inst o
  | 6 => !(s.ops.any (fun x => x.eng == 6 && x.phase == .running)) && !busySwitching s
  | _ => true

/-- The first command of each core that an engine serves. -/
def heads (s : State) (eng inst : Nat) : List EngOp :=
  let mine := s.ops.filter (fun o => o.eng == eng && o.phase == .queued && feeds eng inst o.core)
  ((mine.map (·.core)).eraseDups).filterMap (fun c => mine.find? (fun o => o.core == c))

/-- The command an engine takes next: of the core after the one served last, in rotation. -/
def nextTake (s : State) (eng inst : Nat) : Option EngOp :=
  let l := (heads s eng inst).filter (canTake s inst)
  let last := cget 0 s.rotation (4096 * eng + inst)
  let low := fun (l : List EngOp) => l.foldl (fun (b : Option EngOp) o => match b with
    | none => some o
    | some x => if o.core < x.core then some o else b) none
  match low (l.filter (fun o => decide (last < o.core))) with
  | some o => some o
  | none => low l

/-- The operation starts, or ends at once in error. -/
def startOp (s : State) (o : EngOp) : State :=
  if completionBad s o then voidOp s o
  else match commandBad s o with
    | some (c, a) => failOp s o c a
    | none => match o.eng with
      | 2 => startKvs s o
      | 4 => startCol s o
      | 5 => startSsu s o
      | 6 => if ckpBlocked s then failOp s o 3 0 else setOp s o
      | _ => setOp s o

def execEngineCommandTake (s : State) : Out :=
  match nextTake s s.cur.arg.eng s.cur.arg.inst with
  | none => .next s
  | some o =>
    let o' := { o with inst := s.cur.arg.inst, phase := .running, since := s.gtick }
    let s := { s with rotation := tset s.rotation (4096 * o.eng + s.cur.arg.inst) o.core }
    let s := if o.eng = 3 then setDec s { decOf s (s.cur.arg.inst / 4) (decCtx o) with engine := some s.cur.arg.inst } else s
    .next (pumpRequests o.core 4096 (startOp (setOp s o') o'))

/-! ### ENGINE_UNIT_DONE (R102, R143, R177) -/

/-- A unit's bytes are finished: lines become present, the barrier counts down, KVS unpins; after the last unit the
operation completes. -/
def unitEnd (s : State) (o : EngOp) : State :=
  let last := decide ((opShape o).1 ≤ o.unit + 1)
  match (if last && o.eng == 3 then sealDec s o else .all s) with
  | .held s => s
  | .failed s c a => failOp s (opNow s o) c a
  | .all s =>
    let (s, o) := settleLines s (opNow s o)
    let s := if cmdCk o.cmd then s else countDown s o (some o.bytes) 0
    let s := unpinHeld s o
    let o := { o with
      unit := o.unit + 1, done := 0, bytes := 0, phase := .running, data := if o.eng = 2 then [] else o.data, put := 0,
      aux := if o.eng = 1 then [] else if o.eng = 2 then o.aux.take 2 else o.aux, since := s.gtick }
    if last then completeOp s o else setOp s o

def execEngineUnitDone (s : State) : Out :=
  match opOf s s.cur.arg.op with
  | some o => .next (if o.phase = .unitDone then unitEnd s o else s)
  | none => .next s

/-! ### ENGINE_QUEUE_RESUME (R152) -/

/-- A stalled operation could go on now. -/
def resumable (s : State) (o : EngOp) : Bool :=
  if o.phase ≠ .stalled ∨ (ctxOf s o.ctx).stat ≠ 0 then false
  else match opOf (stepOp (setOp s { o with phase := .running }) { o with phase := .running }) o.id with
    | some y => y.phase != .stalled || y.done != o.done || y.buf.length != o.buf.length || y.put != o.put
    | none => true

def execEngineQueueResume (s : State) : Out :=
  match opOf s s.cur.arg.op with
  | some o => .next (if o.phase = .stalled then setOp s { o with phase := .running } else s)
  | none => .next s

/-! ### The peers of a collective (R453) -/

/-- COLTO: 0 means 2^34 ticks, all ones never. -/
def colTimeout (s : State) : Option Nat :=
  let v := (regGet s 0x80378).toNat
  if v = 2 ^ 64 - 1 then none else if v = 0 then some (2 ^ 34) else some v

def execColPeerTimeout (s : State) : Out :=
  match opOf s s.cur.arg.op, colTimeout s with
  | some o, some n =>
    .next (if o.eng = 4 ∧ colWaits o ∧ o.since + n ≤ s.gtick then failOp s o 4 (cmdLong o 16) else s)
  | _, _ => .next s

/-- A peer's segment arrives: kept for the segment in flight; one whose size does not match tells of a descriptor that
is not the same. -/
def execColSegmentArrival (s : State) : Out :=
  match opOf s s.cur.arg.op with
  | none => .next s
  | some o =>
    if o.eng ≠ 4 ∨ !(o.phase = .running ∨ o.phase = .stalled) then .next s
    else match (colIds o).findIdx? (· == s.cur.arg.peer) with
      | none => .next s
      | some r =>
        if r = colRank o ∨ (colHeard o).contains r then .next s
        else if s.cur.arg.data.length ≠ (colSegment o).2 * colSize o then .next (failOp s o 4 (cmdLong o 16))
        else
          let o := { o with aux := o.aux ++ [r], data := o.data ++ s.cur.arg.data }
          .next (setOp s (if (colHeard o).length + 1 = colCount o then { o with phase := .running } else o))

end Sys2Proof.Machine
end

