-- ==== Sys2Proof/Machine/Launch.lean ====
section
/-!
DEFINITION. The dispatcher (R18 to R22, R36, R82, R95, R97, R154 to R161, R303, R408): a record at the head of its queue,
its wait conditions, the placement of teams, their retirement and the completion of a launch.
-/

namespace Sys2Proof.Machine

/-! ### The fields of a launch record (R156) -/

def recBits (r : LaunchRec) (lo n : Nat) : Nat := bitsAt r.raw.toNat lo n

def recEntry (r : LaunchRec) : Nat := recBits r 0 56
def recPcls (r : LaunchRec) : Nat := recBits r 57 2
def recRsys (r : LaunchRec) : Bool := r.raw.getLsbD 62
def recExt (r : LaunchRec) : Bool := r.raw.getLsbD 63
def recArgp (r : LaunchRec) : Nat := recBits r 64 56
def recClsz (r : LaunchRec) : Nat := recBits r 120 4
def recCbtp (r : LaunchRec) : Nat := recBits r 128 56
def recScr (r : LaunchRec) : Nat := recBits r 184 8
def recCompl (r : LaunchRec) : Nat := recBits r 192 56
def recL1min (r : LaunchRec) : Nat := max 4 (recBits r 248 8) * 65536
def recNtx (r : LaunchRec) : Nat := recBits r 256 32
def recNty (r : LaunchRec) : Nat := recBits r 288 32
def recNtz (r : LaunchRec) : Nat := recBits r 320 32
def recNthr (r : LaunchRec) : Nat := recBits r 352 12
def recBint (r : LaunchRec) : Nat := if recBits r 368 16 = 0 then 256 else recBits r 368 16
def recOffw (r : LaunchRec) (i : Nat) : Nat := recBits r (384 + 32 * i) 24
def recTgt (r : LaunchRec) (i : Nat) : BitVec 8 := BitVec.ofNat 8 (recBits r (384 + 32 * i + 24) 8)

/-- The number of teams (R22). -/
def recTeams (r : LaunchRec) : Nat := recNtx r * recNty r * recNtz r

/-! ### What the dispatcher reads in a launch's context -/

/-- The context of a queue's launches (R358). -/
def queueCtx (s : State) (q : Nat) : Nat := bytesAt (bytesOf 8 (regGet s (0x480 + 8 * (q / 8))).toNat) (q % 8) 1 % 16

/-- The dispatcher translates by a walk of its own, as the device and not as the program. -/
def dispTranslate (s : State) (ctx va : Nat) (k : Kind) : Except XFault Leaf :=
  translate s 768 ctx (BitVec.ofNat 64 va) k true

/-- The dispatcher's read of bytes of one page: whether they are poison, and the squares and far lines that it uses (R92,
R113, R384, R458). -/
def dispServe (s : State) (leaf : Leaf) (pa n : Nat) : (List Byte × Bool) × State :=
  let w := wayOf s leaf pa
  let (lost, s) := atSlice s w leaf n 0 0 false
  let s := consumeAt (unitOf 1 (homeSlice w.pa)) s w.pa n
  ((if lost then List.replicate n 0 else cleanBytes s w.pa n, lost || poisoned s w.pa n), s)

/-- Bytes of a launch's context, nothing where a page cannot be translated or read, and whether some are poisoned. -/
def dispRead (ctx : Nat) : Nat → State → Nat → Nat → Option (List Byte × Bool) × State
  | 0, s, _, _ => (some ([], false), s)
  | fuel + 1, s, va, n =>
    if n = 0 then (some ([], false), s)
    else match dispTranslate s ctx va .read with
      | .error _ => (none, s)
      | .ok leaf =>
        let m := min n (leaf.size - va % leaf.size)
        let (x, s) := dispServe s leaf (leaf.phys va) m
        match dispRead ctx fuel s (va + m) (n - m) with
        | (none, s) => (none, s)
        | (some y, s) => (some (x.1 ++ y.1, x.2 || y.2), s)

/-- The binding record that CBTP names: its entries, filled up with unused ones (R80, R82, R408). -/
def bindingTable (s : State) (ctx cbtp : Nat) : Option (List (BitVec 128)) × State :=
  match dispRead ctx 3 s cbtp 64 with
  | (none, s) => (none, s)
  | (some (h, _), s) =>
    let n := bytesAt h 6 2
    if bytesAt h 0 4 ≠ 0x444E424B ∨ bytesAt h 4 2 ≠ 1 ∨ n < 1 ∨ 64 < n then (none, s)
    else match dispRead ctx 3 s (cbtp + 64) (16 * n) with
      | (none, s) => (none, s)
      | (some (b, _), s) =>
        (some ((upto 64).map (fun i => if i < n then BitVec.ofNat 128 (bytesAt b (16 * i) 16) else 0)), s)

/-- An entry of the window table (R97). -/
def windowOf (x : Nat) : Window :=
  { base := bitsAt x 0 32, size := bitsAt x 32 22, swz := BitVec.ofNat 2 (bitsAt x 56 2), chk := x.testBit 58 }

/-- The window table that ends at the entry address; none where it cannot be read or is poisoned (R157). -/
def windowTable (s : State) (ctx entry : Nat) : Option (List Window) × State :=
  match dispRead ctx 3 s (BitVec.ofNat 64 entry - 128#64).toNat 128 with
  | (some (b, false), s) => (some ((upto 16).map (fun i => windowOf (bytesAt b (8 * i) 8))), s)
  | (_, s) => (none, s)

/-- Bytes of tag storage: half of the positions that checked windows cover, each 4 KiB block once (R95). -/
def tagBytes (l : List Window) : Nat :=
  2048 * (((l.filter (fun w => w.chk && w.size != 0)).flatMap (fun w =>
    (upto ((w.base + w.size - 1) / 4096 - w.base / 4096 + 1)).map (· + w.base / 4096))).eraseDups).length

/-! ### The checks of R157 -/

def windowBad (scr : Nat) (w : Window) : Bool :=
  w.size != 0 && (w.base % 4096 != 0 || w.size % 4096 != 0 || decide (scr * 16384 < w.base + w.size))

/-- Everything but the conditions and the table's readability. -/
def recordBad (r : LaunchRec) (ws : List Window) : Bool :=
  recNthr r == 0 || decide (2048 < recNthr r) || recClsz r == 0 || decide (8 < recClsz r) || decide (240 < recScr r) ||
    decide (2 ^ 22 < recScr r * 16384 + tagBytes ws + recL1min r) || decide (2 ^ 32 ≤ recTeams r) ||
    recEntry r % 4 != 0 || recCompl r % 4 != 0 || ws.any (windowBad (recScr r))

/-- The physical words of a record's used conditions, in their order; none where one fails (R157, R158). -/
def condWords (s : State) (ctx : Nat) (r : LaunchRec) : Nat → Option (List (Nat × BitVec 8 × Bool))
  | 0 => some []
  | n + 1 =>
    let i := 3 - n
    match condWords s ctx r n with
    | none => none
    | some rest =>
      if recOffw r i = 0 then some rest
      else if recCompl r = 0 then none
      else
        let va := (BitVec.ofNat 64 (recCompl r) + 4 * (BitVec.ofNat 24 (recOffw r i)).signExtend 64).toNat
        match dispTranslate s ctx va .read with
        | .error _ => none
        | .ok leaf => some ((homePa s (leaf.phys va), recTgt r i, false) :: rest)

/-- A condition that holds now (R158). -/
def condMet (s : State) (x : Nat × BitVec 8 × Bool) : Bool := condReached (testWord s x.1) x.2.1

/-! ### Completion (R161) -/

def launchNumber (lq : Nat) (n : Word) : List Byte := bytesOf 8 (lq * 2 ^ 32 + n.toNat)

/-- What a completion writes to the counter at COMPL: one more, through the home slice. -/
def bumpCompl (s : State) (ctx compl lq : Nat) (n : Word) : State :=
  match dispTranslate s ctx compl .rmw with
  | .error _ => crumb s 0x0602 (unitOf 6 0) (launchNumber lq n)
  | .ok leaf =>
    let w := { wayOf s leaf (leaf.phys compl) with inL1 := false }
    let (lost, s) := atSlice s w leaf 4 0 0 true
    if lost then s
    else
      let s := consumeAt (unitOf 1 (homeSlice w.pa)) s w.pa 4
      let s := memWrite s w.pa (bytesOf 4 (memNat s w.pa 4 + 1))
      if w.peer then peerMark s (w.pa / 32) else if leaf.checked then markUnknown s (.global (w.pa / 32)) else s

/-- The completion release, over the dirty bytes of the cores where teams of the launch ran (R356), and the increment. -/
def completion (s : State) (ctx compl : Nat) (rsys : Bool) (lq : Nat) (n : Word) (cores : List Nat) : State :=
  let s := cores.foldl (fun s c => releaseCore s c 2) s
  let s := if rsys then { s with squares := s.squares.map (fun e => (e.1, { e.2 with dirty := 0 })) } else s
  if compl = 0 ∨ compl % 4 ≠ 0 then s else bumpCompl s ctx compl lq n

/-- A launch with no team left completes, once. -/
def tryComplete (s : State) (id : Nat) : State :=
  match tget s.launches id with
  | some l =>
    if l.left = 0 then
      completion { s with launches := tdel s.launches id } l.ctx l.compl.toNat l.rsys l.lq l.recNo l.cores
    else s
  | none => s

/-! ### The head of a queue (R157, R159) -/

/-- HEAD passes the head record. -/
def advanceHead (s : State) (q : Nat) : State :=
  let h := (lqOf s q).head + 1
  memWrite (modLq s q (fun x => { x with head := h, headRec := none })) (lqAddr s q + 12) (bytesOf 4 h.toNat)

/-- A record is turned away: it completes at once and is counted. -/
def rejectRecord (s : State) (q : Nat) (r : LaunchRec) (counter : Nat) : State :=
  let n := (lqOf s q).head
  let s := crumb (countReg s counter 1) 0x0601 (unitOf 6 0) (launchNumber q n)
  advanceHead (completion s (queueCtx s q) (recCompl r) (recRsys r) q n []) q

/-- A zero-team launch whose conditions hold completes and leaves the queue, while that is served (R364). -/
def settleHead (s : State) (q : Nat) : State :=
  match (lqOf s q).headRec with
  | some h =>
    if (lqOf s q).served ∧ recTeams h.record = 0 ∧ h.conds.all (fun c => c.2.2) then advanceHead (tryComplete s h.launch) q else s
  | none => s

/-- Whether queue `q` has a record to bring to its head: it is served, its context runs, and L2 is ready (R361). -/
def headDue (s : State) (q : Nat) : Bool :=
  let l := lqOf s q
  l.served && l.headRec.isNone && readyBit s 30 && (ctxOf s (queueCtx s q)).stat == 0 && lqTail s q != l.head

/-- LAUNCH_RECORD_HEAD (R157): reads and checks the record, translates its conditions' counters, tests them. The checks of
R157 come before that of the binding record (R408), and a record that fails both counts in LRECREJ only (DESIGN CHOICE, log
94). -/
def execLaunchRecordHead (s : State) : Out :=
  let q := s.cur.arg.lq
  if !headDue s q then .next s
  else
    let n := (lqOf s q).head
    let ctx := queueCtx s q
    let s := consumeAt (unitOf 1 (homeSlice (lqSlot s q n))) s (lqSlot s q n) 64
    let r : LaunchRec := { raw := BitVec.ofNat 512 (memNat s (lqSlot s q n) 64) }
    let (windows, s) := windowTable s ctx (recEntry r)
    match windows, condWords s ctx r 4 with
    | some ws, some conds =>
      if recordBad r ws then .next (rejectRecord s q r 0x80388)
      else
        match bindingTable s ctx (recCbtp r) with
        | (none, s) => .next (rejectRecord s q r 0x80108)
        | (some _, s) =>
          let id := s.nextLaunch
          let launch : Launch :=
            { lq := q, recNo := n, ctx := ctx, compl := BitVec.ofNat 64 (recCompl r), rsys := recRsys r, left := recTeams r,
              cores := [] }
          let h : HeadRec :=
            { record := r, conds := conds.map (fun c => (c.1, c.2.1, condMet s c)), windows := ws, placed := 0, launch := id }
          let s := { s with launches := tset s.launches id launch, nextLaunch := id + 1 }
          .next (settleHead (modLq s q (fun x => { x with headRec := some h })) q)
    | _, _ => .next (rejectRecord s q r 0x80388)

/-- LAUNCH_WAIT_CONDITION_HOLDS (R158): a condition that holds now stays held for the record; those that a write has made
hold since the last look are noted already. -/
def execLaunchWaitConditionHolds (s : State) : Out :=
  let q := s.cur.arg.lq
  match (lqOf s q).headRec with
  | none => .next s
  | some h =>
    let conds := (h.conds.zip (upto h.conds.length)).map (fun x =>
      if x.2 = s.cur.arg.wc then (x.1.1, x.1.2.1, x.1.2.2 || condMet s x.1) else x.1)
    .next (settleHead (modLq s q (fun x => { x with headRec := some { h with conds := conds } })) q)

/-! ### Where a team fits (R95, R160) -/

def coreTeams (s : State) (core : Nat) : List (Nat × Team) := s.teams.filter (fun t => t.2.core == core)

/-- The threads resident on a core: helper lanes are none (R19). -/
def coreThreads (s : State) (core : Nat) : Nat :=
  (coreTeams s core).foldl (fun n t => n + ((allThreads t.2).filter (fun i =>
    !(threadOf t.2 i).helper && !(warpOf t.2 (i / 32)).swapped)).length) 0

/-- The runs of SRAM in use on a core: place and length. -/
def sramRuns (s : State) (core : Nat) : List (Nat × Nat) :=
  (coreTeams s core).flatMap (fun t =>
    [(t.2.info.scrBase, t.2.info.scrBytes), (t.2.info.tagBase, t.2.info.tagBytes)].filter (fun r => r.2 != 0))

/-- The lowest multiple of `step` at which `n` bytes are free. -/
def lowestRun (runs : List (Nat × Nat)) (step n : Nat) : Option Nat :=
  if n = 0 then some 0
  else ((upto (2 ^ 22 / step)).map (· * step)).find? (fun p =>
    decide (p + n ≤ 2 ^ 22) && runs.all (fun r => decide (p + n ≤ r.1) || decide (r.1 + r.2 ≤ p)))

/-- The places of a team's scratchpad and of its tag storage. -/
def sramPlace (s : State) (core scr tags : Nat) : Option (Nat × Nat) :=
  let runs := sramRuns s core
  match lowestRun runs 16384 scr with
  | none => none
  | some a => match lowestRun (if scr = 0 then runs else (a, scr) :: runs) 2048 tags with
    | none => none
    | some b => some (a, b)

/-- The home warps of a team with `n` threads on a slice, and its quads there. -/
def warpsOnSlice (n slice : Nat) : List Nat := (upto ((n + 31) / 32)).filter (fun w => w % 4 == slice)

def quadsOnSlice (n slice : Nat) : Nat :=
  (warpsOnSlice n slice).foldl (fun q w => q + (min 32 (n - 32 * w) + 3) / 4) 0

/-- Whether a team of a record fits a core now. -/
def fitsCore (s : State) (r : LaunchRec) (ws : List Window) (core : Nat) : Bool :=
  let ts := coreTeams s core
  let scr := recScr r * 16384
  let tags := tagBytes ws
  let used := (sramRuns s core).foldl (fun n x => n + x.2) (scr + tags)
  let l1 := ts.foldl (fun m t => max m t.2.info.l1min) (recL1min r)
  readyBit s (64 + core / 8) && decide (ts.length < 128) &&
    (upto 4).all (fun sl =>
      decide ((warpsOnSlice (recNthr r) sl).length ≤ (freeSlots s core sl).length / 32) &&
        (!recExt r || decide (blocksHeld s core sl + quadsOnSlice (recNthr r) sl ≤ 128))) &&
    (sramPlace s core scr tags).isSome && decide (used + l1 ≤ 2 ^ 22)

/-- Of a list of cores the first `m` that fit, those with the fewest resident threads first, then the lowest. -/
def rankCores (s : State) (r : LaunchRec) (ws : List Window) (cores : List Nat) : List Nat :=
  let fit := (cores.filter (fitsCore s r ws)).map (fun c => (coreThreads s c, c))
  (sortBy (fun (a b : Nat × Nat) => decide (a.1 < b.1) || (a.1 == b.1 && decide (a.2 ≤ b.2))) fit).map (·.2)

/-- The cores that the next cluster's `m` teams go to: those of the core cluster with the fewest resident threads among
the clusters with room for all of them (R160, R355). -/
def clusterCores (s : State) (r : LaunchRec) (ws : List Window) (m : Nat) : Option (List Nat) :=
  let best := (upto 96).foldl (fun (b : Option (Nat × List Nat)) k =>
    let cores := (upto 8).map (· + 8 * k)
    let l := rankCores s r ws cores
    let load := cores.foldl (fun n c => n + coreThreads s c) 0
    if l.length < m then b
    else match b with
      | none => some (load, l.take m)
      | some x => if load < x.1 then some (load, l.take m) else b) none
  best.map (·.2)

/-! ### Placement (R160) -/

/-- The lowest team number of a core that is free. -/
def freeTeamNo (s : State) (core : Nat) : Nat :=
  ((upto 128).find? (fun n => (tget s.teams (teamKey core n)).isNone)).getD 0

/-- A team without its threads. -/
def emptyTeam (core no : Nat) (info : TeamInfo) (ws : List Window) (cbt : List (BitVec 128)) : Team :=
  { core := core, no := no, info := info, windows := ws, cbt := cbt, scratch := [], tags := [], absent := [], poison := [],
    poisonSeen := [], threads := [], warps := [], groups := [], nextGid := 0, nextSplit := 0, bins := [], spawnBins := [],
    bars := List.replicate 16 freshBar, ports := List.replicate 8 none, portOffs := List.replicate 8 0, ext := [], brk := none }

/-- Forms the team's home warps on their slices in its initial state (R18 to R20, R36). -/
def formTeam (s : State) (t : Team) (n : Nat) (ext : Bool) : Team :=
  let warps := upto ((n + 31) / 32)
  let free := (upto 4).map (freeSlots s t.core)
  let t := warps.foldl (fun t w =>
    formWarp s t w (seatSlots (free.getD (w % 4) []) (w / 4))
      ((upto (min 32 (n - 32 * w))).map (fun l => BitVec.ofNat 32 (32 * w + l)))
      (fun l => BitVec.ofNat 32 (32 * w + l)) t.info.entry) t
  if ext then warps.foldl (fun t w => giveBlocks t (quadsNeeding t w)) t else t

/-- What a record gives team `i`. -/
def teamInfo (s : State) (q : Nat) (h : HeadRec) (i : Nat) (place : Nat × Nat) : TeamInfo :=
  let r := h.record
  let m := recClsz r
  let w := fun (n : Nat) => BitVec.ofNat 32 n
  { ctx := queueCtx s q, lq := q, recNo := (lqOf s q).head, launch := h.launch, index := i, rank := i % m,
    mates := min m (recTeams r - i / m * m), cluster := h.launch * 2 ^ 32 + i / m, tx := w (i % recNtx r), ty := w (i / recNtx r % recNty r),
    tz := w (i / (recNtx r * recNty r)), ntx := w (recNtx r), nty := w (recNty r), ntz := w (recNtz r),
    argp := BitVec.ofNat 64 (recArgp r), cbtp := BitVec.ofNat 64 (recCbtp r), entry := BitVec.ofNat 56 (recEntry r),
    bint := recBint r, pcls := BitVec.ofNat 2 (recPcls r), l1min := recL1min r, scrBase := place.1,
    scrBytes := recScr r * 16384, tagBase := place.2, tagBytes := tagBytes h.windows }

/-- A launch has a team on a core. -/
def ranOn (s : State) (launch core : Nat) : State :=
  match tget s.launches launch with
  | some l => { s with launches := tset s.launches launch { l with cores := nadd l.cores core } }
  | none => s

/-- Places one team on a core. Where the team takes SRAM from L1, every line of L1 is given up, as R95 allows; the core
acquires, and the team's state is loaded. -/
def placeOn (s : State) (q : Nat) (h : HeadRec) (cbt : List (BitVec 128)) (i core : Nat) : State :=
  let place := (sramPlace s core (recScr h.record * 16384) (tagBytes h.windows)).getD (0, 0)
  let shrinks := recScr h.record != 0 || tagBytes h.windows != 0
  let s := acquireCore (if shrinks then flushL1 s core (fun _ => true) else s) core 2
  let no := freeTeamNo s core
  let info := teamInfo s q h i place
  let t := formTeam s (emptyTeam core no info h.windows cbt) (recNthr h.record) (recExt h.record)
  let c := cget { teams := [], bars := List.replicate 8 freshBar } s.clusters info.cluster
  let s := { s with clusters := tset s.clusters info.cluster { c with teams := c.teams ++ [teamKey core no] } }
  ranOn (setTeam s (teamKey core no) t) h.launch core

/-- The record's placement ends short: it is counted, its HEAD passes, and it completes with the teams it has (R408). -/
def stopPlacing (s : State) (q : Nat) (h : HeadRec) : State :=
  let s := crumb (countReg s 0x80108 1) 0x0601 (unitOf 6 0) (launchNumber q (lqOf s q).head)
  let s := match tget s.launches h.launch with
    | some l => { s with launches := tset s.launches h.launch { l with left := l.left - (recTeams h.record - h.placed) } }
    | none => s
  tryComplete (advanceHead s q) h.launch

/-- Whether the head record of a queue may place teams. -/
def placeDue (s : State) (q : Nat) : Bool :=
  match (lqOf s q).headRec with
  | some h => (lqOf s q).served && (ctxOf s (queueCtx s q)).stat == 0 && h.conds.all (fun c => c.2.2) &&
      decide (h.placed < recTeams h.record)
  | none => false

/-- The head record with its window table as it stands at placement (R97). A table that R157 would turn away now counts as
it was when the record came to the head (DESIGN CHOICE, log 56). -/
def placeHead (s : State) (q : Nat) (h : HeadRec) : HeadRec × State :=
  match windowTable s (queueCtx s q) (recEntry h.record) with
  | (some ws, s) => (if recordBad h.record ws then h else { h with windows := ws }, s)
  | (none, s) => (h, s)

/-- The number of teams of the next cluster of a head record. -/
def nextMates (h : HeadRec) : Nat := min (recClsz h.record) (recTeams h.record - h.placed)

/-- Whether the head record of a queue may place its next cluster and finds room for it. -/
def placeReady (s : State) (q : Nat) : Bool :=
  match (lqOf s q).headRec with
  | none => false
  | some h =>
    let p := placeHead s q h
    placeDue s q && (clusterCores p.2 h.record p.1.windows (nextMates h)).isSome

/-- Queues in descending priority, each class from its lowest queue (R159). -/
def queueOrder : List Nat := (upto 8).flatMap (fun p => (upto 8).map (· + 8 * (7 - p)))

/-- TEAM_PLACE (R160): places the next cluster of the head record, all of its teams at once, unless a queue that is served
before it has a team to place (R159). -/
def execTeamPlace (s : State) : Out :=
  let q := s.cur.arg.lq
  match (lqOf s q).headRec with
  | none => .next s
  | some h =>
    if !placeDue s q || queueOrder.find? (placeReady s) != some q then .next s
    else
      let (h, s) := placeHead s q h
      let m := nextMates h
      match clusterCores s h.record h.windows m with
      | none => .next s
      | some cores =>
        match bindingTable s (queueCtx s q) (recCbtp h.record) with
        | (none, s) => .next (stopPlacing s q h)
        | (some cbt, s) =>
          let s := (cores.zip (upto m)).foldl (fun s x => placeOn s q h cbt (h.placed + x.2) x.1) s
          let h := { h with placed := h.placed + m }
          .next (if h.placed = recTeams h.record then advanceHead s q
            else modLq s q (fun x => { x with headRec := some h }))

/-! ### Retirement (R161, R303) -/

/-- A team retires when its last thread has exited and every access made by its threads and by the operations they
issued has been performed. -/
def retirable (s : State) (k : Nat) (t : Team) : Bool :=
  !t.threads.any (·.live) && t.spawnBins.isEmpty && t.brk.isNone && !s.ops.any (fun o => o.team == k) &&
    !(coreOf s t.core).reqs.any (fun r => r.team == k)

/-- The team leaves its core, with its queues; its cluster goes with its last team. -/
def dropTeam (s : State) (k : Nat) (t : Team) : State :=
  let c := clusterOf s t
  let left := c.teams.filter (· != k)
  { s with
    teams := tdel s.teams k, queues := s.queues.filter (fun q => q.1 / 2 ^ 32 != k),
    clusters := if left.isEmpty then tdel s.clusters t.info.cluster
      else tset s.clusters t.info.cluster { c with teams := left },
    monitors := s.monitors.filter (fun m => m.team != k) }

/-- TEAM_RETIRE: the last team of a launch completes it. -/
def execTeamRetire (s : State) : Out :=
  let k := s.cur.arg.team
  match tget s.teams k with
  | none => .next s
  | some t =>
    if !retirable s k t then .next s
    else
      let s := dropTeam s k t
      match tget s.launches t.info.launch with
      | some l =>
        .next (tryComplete { s with launches := tset s.launches t.info.launch { l with left := l.left - 1 } } t.info.launch)
      | none => .next s

end Sys2Proof.Machine
end

