-- ==== Sys2Proof/Machine/Numeric.lean ====
section
/-!
DEFINITION. Numeric events (R386, R409 to R411): the context's counters and the traps that follow an instruction.
-/

namespace Sys2Proof.Machine

/-- The events one lane's work produced, charged to a class. -/
structure NumEv where
  tid : Nat
  cls : Nat
  nan : Nat
  sat : Nat
  outov : Nat
deriving DecidableEq, Repr

def numcfg (s : State) (ctx : Nat) : Nat := (regGet s (0x80400 + 8 * ctx)).toNat

/-- Adds to a 32-bit counter in memory, which saturates. -/
def addSat (s : State) (pa n : Nat) : State :=
  if n = 0 then s
  else
    let old := if poisoned s pa 4 then 0 else ofBytes (memRead s pa 4)
    memWrite s pa (bytesOf 4 (min (old + n) (2 ^ 32 - 1)))

/-- Adds counts to an entry of the context's table. A table outside the near window loses them, with one event. -/
def countNumeric (s : State) (ctx core cls nan sat outov njump : Nat) : State :=
  let table := numcfg s ctx / 64 * 64 % 2 ^ 56
  if table = 0 ∨ nan + sat + outov + njump = 0 then s
  else if placeOf s table ≠ .near then
    if (ctxOf s ctx).numLost then s
    else modCtx (crumb s Config.numLostEvent (unitOf 0 core) []) ctx (fun c => { c with numLost := true })
  else
    let a := table + 16 * cls
    addSat (addSat (addSat (addSat s a nan) (a + 4) sat) (a + 8) outov) (a + 12) njump

/-- INFO [3:0] of code 0x30: NaN, saturation, outlier overflow. -/
def NumEv.bits (e : NumEv) : Nat :=
  (if e.nan = 0 then 0 else 1) + (if e.sat = 0 then 0 else 2) + (if e.outov = 0 then 0 else 4)

/-- The park of a lane whose events the context traps. -/
def numPark (cfg : Nat) (e : NumEv) : Option (Nat × Park) :=
  if e.bits &&& cfg % 8 = 0 then none
  else some (e.tid, { code := 0x30, addr := 0, info := BitVec.ofNat 64 (e.bits + 256 * e.cls), flags := 0, order := 0 })

/-- After its results: the events are counted, and the lanes whose events the context traps park behind the
instruction. -/
def numericTail (s : State) (flags : BitVec 8) (evs : List NumEv) : State :=
  let k := s.cur.team
  match tget s.teams k with
  | none => s
  | some t =>
    let ctx := t.info.ctx
    let s := evs.foldl (fun s e => countNumeric s ctx t.core e.cls e.nan e.sat e.outov 0) s
    match issuer s with
    | none => s
    | some (_, g) => trapLanes s k g flags (evs.filterMap (numPark (numcfg s ctx)))

end Sys2Proof.Machine
end

