-- ==== Sys2Proof/Machine/Tensor.lean ====
section
/-!
DEFINITION. Tensor handles, conversions in registers, and loads and stores through a handle: R338 to R343, R86, R430.
-/

namespace Sys2Proof.Machine

/-! ### Handles (R338 to R340) -/

abbrev Handle := BitVec 512

def Handle.base (h : Handle) : BitVec 56 := h.extractLsb' 0 56
def Handle.cls (h : Handle) : Nat := (h.extractLsb' 56 6).toNat
def Handle.oe (h : Handle) : Bool := h.getLsbD 62
def Handle.v (h : Handle) : Bool := h.getLsbD 63
def Handle.saddr (h : Handle) : BitVec 56 := h.extractLsb' 128 56
def Handle.oaddr (h : Handle) : BitVec 56 := h.extractLsb' 192 56
def Handle.rid (h : Handle) : Nat := (h.extractLsb' 256 10).toNat
def Handle.eb (h : Handle) : Nat := (h.extractLsb' 280 8).toNat
def Handle.tscale (h : Handle) : Word := h.extractLsb' 288 32
def Handle.seed (h : Handle) : Word := h.extractLsb' 320 32
def Handle.ash (h : Handle) : Nat := (h.extractLsb' 352 8).toNat
def Handle.aw (h : Handle) : Bool := h.getLsbD 360

/-- The bits of a handle that are not reserved. -/
def handleMask : Nat :=
  (2 ^ 64 - 1) + (2 ^ 56 - 1) * 2 ^ 128 + (2 ^ 56 - 1) * 2 ^ 192 + (2 ^ 10 - 1) * 2 ^ 256 + (2 ^ 81 - 1) * 2 ^ 280

/-- Eight uniform registers as 64 bytes. -/
def octet (w : Warp) (r : Nat) : Nat :=
  (upto 8).foldl (fun x i => x + (uReg w (r + i)).toNat * 2 ^ (64 * i)) 0

def handleOf (t : Team) (tid : Nat) (hb : BitVec 4) : Handle := (warpOf t (tid / 32)).h.getD hb.toNat 0

def entryOf (t : Team) (cls : Nat) : Entry := t.cbt.getD cls 0

def setHandle (w : Warp) (n : Nat) (h : Handle) : Warp := { w with h := padSet 0 w.h n h }

def execHset (hd : BitVec 4) (sa : BitVec 6) (s : State) : Out :=
  uniformForm true s (fun s t g => finish s (modWarp t g.warp (fun w =>
    setHandle w hd.toNat (BitVec.ofNat 512 (octet w sa.toNat &&& handleMask)))))

def execHget (sd : BitVec 6) (ha : BitVec 4) (s : State) : Out :=
  uniformForm true s (fun s t g => finish s (modWarp t g.warp (fun w =>
    let h := w.h.getD ha.toNat 0
    (upto 8).foldl (fun w i => setU w (sd.toNat + i) (h.extractLsb' (64 * i) 64)) w)))

def execHcls (hd : BitVec 4) (sa : BitVec 6) (s : State) : Out :=
  uniformForm true s (fun s t g => finish s (modWarp t g.warp (fun w =>
    let h := w.h.getD hd.toNat 0
    let c := (uReg w sa.toNat).toNat % 64
    setHandle w hd.toNat ((h &&& ~~~(BitVec.ofNat 512 (0xBF * 2 ^ 56))) ||| BitVec.ofNat 512 ((c + 128) * 2 ^ 56)))))

/-- A handle whose class entry is not used. -/
def seedCheck (hd : BitVec 4) : Check := fun s t g =>
  let h : Handle := (warpOf t g.warp).h.getD hd.toNat 0
  if (entryOf t h.cls).used then none else some (parkOf s 1 h.cls 11)

def execHseed (hd : BitVec 4) (sa : BitVec 6) (s : State) : Out :=
  uniformForm true s (fun s t g =>
    let w := warpOf t g.warp
    let h : Handle := w.h.getD hd.toNat 0
    let e := entryOf t h.cls
    if !e.used then trapUniform s g (parkOf s 1 h.cls 11)
    else
      let x := e.seed ^^^ low32 (uReg w sa.toNat)
      finish s (setWarp t g.warp (setHandle w hd.toNat
        ((h &&& ~~~(BitVec.ofNat 512 ((2 ^ 32 - 1) * 2 ^ 320))) ||| BitVec.ofNat 512 (x.toNat * 2 ^ 320))))) (seedCheck hd)

/-! ### The checks of a form that reads a class through a handle (R430) -/

/-- Why a handle does not suit: empty, its class unused or invalid, or unsuited to the form. -/
def handleFault (t : Team) (h : Handle) (ok : Entry → Bool) : Option Nat :=
  if !h.v then some 11
  else match (entryOf t h.cls).fault with
    | some r => some r
    | none => if ok (entryOf t h.cls) then none else some 13

/-- The faults of a handle form's lanes: bound ports, missing registers, the handle and its class. -/
def handleFaults (s : State) (t : Team) (part : List (Nat × Nat)) (hb : BitVec 4) (regs : List Nat) (ok : Entry → Bool) :
    List (Nat × Park) :=
  portFaults s t part regs ++ extFaults s t part regs ++
    part.filterMap (fun l =>
      let h := handleOf t l.2 hb
      (handleFault t h ok).map (fun r => (l.2, parkOf s 1 h.cls r)))

def isNarrow (e : Entry) : Bool := e.kind == 0
def anyClass (_ : Entry) : Bool := true

/-! ### Conversions (R341) -/

/-- What one lane's conversion gave. -/
def convEvent (t : Team) (hb : BitVec 4) (l : Nat × Nat) (c : Conv) : NumEv :=
  { tid := l.2, cls := (handleOf t l.2 hb).cls, nan := if c.nan then 1 else 0, sat := if c.sat then 1 else 0, outov := 0 }

/-- A conversion: `f` gives the result of a lane from its handle, class, operand and the old value of VD. -/
def convForm (vd va : BitVec 6) (hb : BitVec 4) (ok : Entry → Bool) (f : Handle → Entry → Word → Word → Conv)
    (s : State) : Out :=
  laneForm s (fun t _ part => handleFaults s t part hb [vd.toNat, va.toNat] ok) (fun s t _ part =>
    let res := part.map (fun l =>
      let h := handleOf t l.2 hb
      (l, f h (entryOf t h.cls) (laneReg t l.2 va.toNat) (laneReg t l.2 vd.toNat)))
    let s := setTeam s s.cur.team (advance s (res.foldl (fun t r => setLaneReg t r.1.2 vd.toNat (BitVec.ofNat 32 r.2.code)) t))
    .next (numericTail s 0 ((res.filter (fun r => !liveHelper t r.1.2)).map (fun r => convEvent t hb r.1 r.2))))

/-- The per-tensor scale these forms apply; they apply no block scale. -/
def tensorScale (h : Handle) (e : Elem) : FVal := if e.scale = 3 then f32 h.tscale else .fin false 1 1

def execCvtn (vd va : BitVec 6) (hb : BitVec 4) (s : State) : Out :=
  convForm vd va hb anyClass (fun h e x _ => e.elem.encode (quotient x (tensorScale h e.elem))) s

def execCvtsr (vd va : BitVec 6) (hb : BitVec 4) (s : State) : Out :=
  convForm vd va hb (fun e => e.kind != 1)
    (fun h e x ix => e.elem.stochastic (quotient x (tensorScale h e.elem)) h.seed ix) s

/-- CVTW: a code to FP32, or an INT32 accumulator with its shift. -/
def cvtw (h : Handle) (e : Entry) (x : Word) : Word :=
  if h.aw then to32 ((FVal.ofInt x.toInt).mul (pow2 (-(sext8 h.ash))))
  else if e.kind = 1 then x
  else to32 ((e.elem.decode (x.toNat % 2 ^ e.elem.container)).mul (tensorScale h e.elem))

def execCvtw (vd va : BitVec 6) (hb : BitVec 4) (s : State) : Out :=
  convForm vd va hb anyClass (fun h e x _ => { code := (cvtw h e x).toNat, nan := false, sat := false }) s

/-! ### Packing blocks (R342, R86) -/

/-- What a contributing lane supplies: its lane, its handle, its first index and four values. -/
structure Supply where
  lane : Nat × Nat
  h : Handle
  e : Nat
  xs : List Word
deriving DecidableEq, Repr

/-- One element: its supplier, index and value. -/
structure Item where
  lane : Nat × Nat
  h : Handle
  i : Nat
  x : Word
deriving DecidableEq, Repr

def Supply.items (u : Supply) : List Item :=
  (upto u.xs.length).map (fun k => { lane := u.lane, h := u.h, i := u.e + k, x := u.xs.getD k 0 })

/-- The magnitude of a value. -/
def FVal.abs : FVal → FVal
  | .nan => .nan
  | .inf _ => .inf false
  | .fin _ n d => .fin false n d

/-- A block of a tensor as an instruction packs it. -/
structure Block where
  h : Handle
  b : Nat
  items : List Item
  raw : Nat
  scale : FVal
  /-- The elements that side entries keep, in ascending index order. -/
  kept : List Item
  /-- More elements escape than OUTL. -/
  excess : Bool
deriving DecidableEq, Repr

/-- The largest magnitude of a block's elements, NaN values left out. -/
def blockMax (l : List Item) : FVal :=
  l.foldl (fun a x =>
    let v := (f32 x.x).abs
    match v with
    | .nan => a
    | _ => if a.cmp v == .less then v else a) (.fin false 0 1)

/-- An element's magnitude after division exceeds M. -/
def escapes (f : NFmt) (scale : FVal) (x : Word) : Bool :=
  match quotient x scale with
  | .nan => false
  | .inf _ => true
  | .fin _ n d => beyond n d f.largest

/-- Insertion by falling magnitude; of equal ones the lower index stands first. -/
def insertLarge (scale : FVal) (x : Item) : List Item → List Item
  | [] => [x]
  | y :: r =>
    let a := (quotient x.x scale).abs
    let b := (quotient y.x scale).abs
    if b.cmp a == .less || (a.cmp b == .equal && decide (x.i < y.i)) then x :: y :: r else y :: insertLarge scale x r

def insertIndex (x : Item) : List Item → List Item
  | [] => [x]
  | y :: r => if x.i < y.i then x :: y :: r else y :: insertIndex x r

/-- Of several values for one index the last, which is the highest lane's, stands. -/
def lastOf (l : List Item) : List Item :=
  l.foldl (fun acc x => acc.filter (fun y => y.i != x.i) ++ [x]) []

/-- Chooses a block's scale and, with `outliers`, the elements it keeps aside. -/
def packBlock (h : Handle) (e : Entry) (f : NFmt) (b : Nat) (items : List Item) (outliers : Bool) : Block :=
  let raw := chooseScale f (blockMax items) h.eb
  let scale := scaleValue (.narrow f) raw h.tscale h.eb
  let out := if outliers then (lastOf items).filter (fun x => escapes f scale x.x) else []
  let kept := ((out.foldl (fun l x => insertLarge scale x l) []).take e.outl).foldl (fun l x => insertIndex x l) []
  { h := h, b := b, items := items, raw := raw, scale := scale, kept := kept, excess := decide (e.outl < out.length) }

/-- The blocks of an instruction, in the order of their first element. -/
def packBlocks (t : Team) (l : List Supply) (outliers : Handle → Entry → Bool) : List Block :=
  let items := l.flatMap Supply.items
  let keyOf := fun (x : Item) => (x.h, x.i / (entryOf t x.h.cls).block)
  ((items.map keyOf).eraseDups).map (fun k =>
    let e := entryOf t k.1.cls
    packBlock k.1 e (nfmtOf e.fmt) k.2 (items.filter (fun x => keyOf x == k)) (outliers k.1 e))

/-- The block an element is in. -/
def blockOf (t : Team) (l : List Block) (h : Handle) (i : Nat) : Option Block :=
  l.find? (fun b => b.h == h && b.b == i / (entryOf t h.cls).block)

/-- An element's code. -/
def itemConv (t : Team) (l : List Block) (x : Item) : Conv :=
  match blockOf t l x.h x.i with
  | none => { code := 0, nan := false, sat := false }
  | some b => (entryOf t x.h.cls).elem.encode (quotient x.x b.scale)

/-- The events of a lane's elements; those a side entry keeps do not count as saturated (R409). -/
def itemsEvent (t : Team) (l : List Block) (u : Supply) : NumEv :=
  let cs := u.items.map (fun x => (x, itemConv t l x))
  let kept := fun (x : Item) => l.any (fun b => b.h == x.h && b.kept.any (fun y => y.i == x.i))
  { tid := u.lane.2, cls := u.h.cls, nan := (cs.filter (fun c => c.2.nan)).length,
    sat := (cs.filter (fun c => c.2.sat && !kept c.1)).length,
    outov := (l.filter (fun b => b.excess && b.h == u.h && (b.items.head?.map (·.lane)) == some u.lane)).length }

/-- The four codes of a lane, packed from bit 0 (R51). -/
def packedCodes (t : Team) (l : List Block) (u : Supply) : Nat :=
  let c := (entryOf t u.h.cls).elem.container
  (upto u.xs.length).foldl (fun x k =>
    x + (itemConv t l { lane := u.lane, h := u.h, i := u.e + k, x := u.xs.getD k 0 }).code * 2 ^ (c * k)) 0

/-- What a lane supplies from four registers. -/
def supplyOf (t : Team) (hb : BitVec 4) (r e : Nat) (l : Nat × Nat) : Supply :=
  { lane := l, h := handleOf t l.2 hb, e := e, xs := (upto 4).map (fun k => laneReg t l.2 (r + k)) }

/-- The lanes whose index is no multiple of 4: code 0x01, REASON 10. -/
def indexFaults (s : State) (t : Team) (part : List (Nat × Nat)) (r n : Nat) : List (Nat × Park) :=
  (part.filter (fun l => (laneReg t l.2 r).toNat % n != 0)).map (fun l => (l.2, parkOf s 1 (laneReg t l.2 r).toNat 10))

def execPackn (vd va : BitVec 6) (hb : BitVec 4) (s : State) : Out :=
  laneForm s (fun t _ part =>
      handleFaults s t part hb (tuple vd 2 ++ tuple va 4) isNarrow ++ indexFaults s t (notHelper t part) vd.toNat 4)
    (fun s t _ part =>
      let sup := (notHelper t part).map (fun l => supplyOf t hb va.toNat (laneReg t l.2 vd.toNat).toNat l)
      let bs := packBlocks t sup (fun _ _ => false)
      let put := fun (t' : Team) (u : Supply) =>
        let raw := match blockOf t bs u.h u.e with
          | some b => b.raw
          | none => 0
        setLaneReg (setLaneReg t' u.lane.2 vd.toNat (BitVec.ofNat 32 (packedCodes t bs u))) u.lane.2 (vd.toNat + 1)
          (BitVec.ofNat 32 raw)
      let t' := sup.foldl put t
      let t' := (part.filter (fun l => liveHelper t l.2)).foldl (fun t' l =>
        setLaneReg (setLaneReg t' l.2 vd.toNat 0) l.2 (vd.toNat + 1) 0) t'
      .next (numericTail (setTeam s s.cur.team (advance s t')) 0 (sup.map (itemsEvent t bs))))

/-! ### Where a handle's items lie (R339) -/

/-- A run of at most 128 bytes, cut where a line ends (R287). -/
def cutLines (a : BitVec 56) (n : Nat) : List (BitVec 56 × Nat) :=
  let m := min n (128 - a.toNat % 128)
  if m = n then [(a, n)] else [(a, m), (a + BitVec.ofNat 56 m, n - m)]

/-- The byte that holds element `i`. -/
def Handle.codeAddr (h : Handle) (c i : Nat) : BitVec 56 := h.base + BitVec.ofNat 56 (c * i / 8)

/-- The accesses of a lane: pieces of a run numbered from `ix`, under a residency id. -/
def wantsRun (l : Nat × Nat) (ix : Nat) (a : BitVec 56) (n align rid : Nat) : List Want :=
  let ps := cutLines a n
  (upto ps.length).map (fun j =>
    let p := ps.getD j (0, 0)
    { lane := l, ix := ix + j, addr := p.1.setWidth 64, w := p.2, align := align, rid := rid })

/-- The access to the stored scale or delta of block `b`; a class without one has none. -/
def scaleWant (l : Nat × Nat) (ix : Nat) (h : Handle) (e : Elem) (b : Nat) : List Want :=
  match e.scale with
  | 1 => [{ lane := l, ix := ix, addr := (h.saddr + BitVec.ofNat 56 (2 * b)).setWidth 64, w := 2, align := 2, rid := h.rid }]
  | 2 => [{ lane := l, ix := ix, addr := (h.saddr + BitVec.ofNat 56 (b / 2)).setWidth 64, w := 1, align := 1, rid := h.rid }]
  | _ => []

/-- The accesses to a block's side entries. -/
def sideWants (l : Nat × Nat) (ix : Nat) (h : Handle) (outl b : Nat) : List Want :=
  (upto outl).map (fun j =>
    { lane := l, ix := ix + j, addr := (h.oaddr + BitVec.ofNat 56 (4 * (outl * b + j))).setWidth 64, w := 4, align := 4,
      rid := h.rid })

/-- The bytes a lane read under the numbers from `lo` to `hi`, in order. -/
def answerBytes (res : List Answer) (tid lo hi : Nat) : List Byte :=
  (res.filter (fun r => r.1.lane.2 == tid && decide (lo ≤ r.1.ix) && decide (r.1.ix < hi))).flatMap (·.2.1)

/-- The stored scale of block `b` from the bytes read. -/
def rawScale (e : Elem) (b : Nat) (l : List Byte) : Nat :=
  if e.scale = 2 then bytesAt l 0 1 / 16 ^ (b % 2) % 16 else bytesAt l 0 2

/-! ### CLD (R343) -/

/-- The value of element `i`: its side entry's, or its code's, times its scale (R339, R343). -/
def elementValue (h : Handle) (e : Entry) (i code raw : Nat) (sides : List Word) : Word :=
  let s := scaleValue e.elem raw h.tscale h.eb
  match sides.find? (fun x => x != 0xFFFFFFFF && (x.extractLsb' 16 8).toNat == i % e.block) with
  | some x => to32 ((fp16.decode (x.toNat % 65536)).mul s)
  | none => to32 ((e.elem.decode code).mul s)

/-- The side entries that a lane's reads of this handle use. -/
def sidesUsed (h : Handle) (e : Entry) : Nat := if h.oe then e.outl else 0

/-- The elements a lane has read. -/
def laneElements (t : Team) (hb : BitVec 4) (tid i n : Nat) (res : List Answer) : List Word :=
  let h := handleOf t tid hb
  let e := entryOf t h.cls
  let c := e.elem.container
  let bits := ofBytes (answerBytes res tid 0 10)
  let raw := rawScale e.elem (i / e.block) (answerBytes res tid 10 11)
  let sides := wordsOfBytes (sidesUsed h e) (answerBytes res tid 20 40)
  (upto n).map (fun k => elementValue h e (i + k) (bits / 2 ^ (c * i % 8 + c * k) % 2 ^ c) raw sides)

/-- The accesses of one lane of CLD. -/
def cldWants (t : Team) (hb : BitVec 4) (n i : Nat) (l : Nat × Nat) : List Want :=
  let h := handleOf t l.2 hb
  let e := entryOf t h.cls
  let c := e.elem.container
  let b := i / e.block
  wantsRun l 0 (h.codeAddr c i) ((c * i % 8 + c * n + 7) / 8) 1 h.rid ++ scaleWant l 10 h e.elem b ++
    sideWants l 20 h (sidesUsed h e) b

def execCld (w : BitVec 2) (vd va : BitVec 6) (hb : BitVec 4) (mq : Option Mq) (s : State) : Out :=
  let n := 2 ^ w.toNat
  laneForm s (fun t _ part =>
      handleFaults s t part hb (va.toNat :: tuple vd n) anyClass ++ indexFaults s t part va.toNat n)
    (fun s t g part =>
      let k := s.cur.team
      let ix := fun (tid : Nat) => (laneReg t tid va.toNat).toNat
      memAccess s t g .global (tuple vd n) (qualOf mq .read) (.load false none) (part.flatMap (fun l => cldWants t hb n (ix l.2) l))
        (fun s res =>
          let tids := (res.map (fun r => r.1.lane.2)).eraseDups
          let bad := fun (i : Nat) => res.any (fun r => r.1.lane.2 == i && r.2.2)
          let vals := tids.map (fun i => (i, if bad i then List.replicate n 0 else laneElements t hb i (ix i) n res))
          let s := modTeam s k (fun t => advance s (vals.foldl (fun t r =>
            (upto n).foldl (fun t j => setLaneReg t r.1 (vd.toNat + j) (r.2.getD j 0))
              (modThread t r.1 (fun th => { th with lstat := if bad r.1 then 4 else 0 }))) t))
          numericTail s 0 ((vals.filter (fun r => !liveHelper t r.1)).map (fun r =>
            { tid := r.1, cls := (handleOf t r.1 hb).cls, nan := (r.2.filter (fun x => (f32 x).isNan)).length, sat := 0,
              outov := 0 }))))

/-! ### CST (R343) -/

/-- The code of a lane for CST.elem, under the stored scale. -/
def elemConv (t : Team) (hb : BitVec 4) (tid i : Nat) (x : Word) (res : List Answer) : Conv :=
  let h := handleOf t tid hb
  let e := entryOf t h.cls
  let raw := rawScale e.elem (i / e.block) (answerBytes res tid 10 11)
  e.elem.encode (quotient x (scaleValue e.elem raw h.tscale h.eb))

/-- The bytes and bit mask of codes `v` that start at element `i`, `bits` long, in the run of `n` bytes. -/
def codeBytes (c i v bits n : Nat) : List Byte × List Byte :=
  let sh := c * i % 8
  (bytesOf n (v * 2 ^ sh), bytesOf n ((2 ^ bits - 1) * 2 ^ sh))

/-- The part of a run's bytes that piece `ix` of a cut run stands for. -/
def pieceOf (a : BitVec 56) (n ix : Nat) (l : List Byte) : List Byte :=
  match cutLines a n with
  | [(_, _)] => l
  | (_, m) :: _ => if ix = 0 then l.take m else l.drop m
  | [] => l

/-- How codes are written: whole bytes by a store, narrower ones by a masked merge at the home slice. -/
def codeJob (t : Team) (hb : BitVec 4) (q : Qual) (ix : Nat → Nat) (count : Nat) (v : List Answer → Nat → Nat)
    (part : List (Nat × Nat)) (sub : Bool) : Job :=
  let run := fun (tid : Nat) =>
    let h := handleOf t tid hb
    let c := (entryOf t h.cls).elem.container
    (h.codeAddr c (ix tid), c, (c * (ix tid) % 8 + c * count + 7) / 8)
  let mine := part.filter (fun l => decide ((run l.2).2.1 < 8) == sub)
  let cells := fun (res : List Answer) (tid j : Nat) =>
    let (a, c, n) := run tid
    let b := codeBytes c (ix tid) (v res tid) (c * count) n
    (pieceOf a n j b.1, pieceOf a n j b.2)
  { q := q,
    act := fun res => if sub then .merge (cells res) else .store (fun tid j => (cells res tid j).1),
    wants := mine.flatMap (fun l => let (a, _, n) := run l.2; wantsRun l 0 a n 1 (handleOf t l.2 hb).rid) }

/-- A CST makes its accesses as one memory instruction. -/
def cstForm (jobs : List Job) : Form := { sp := .global, uni := false, note := true, dest := [], jobs := jobs }

def execCstElem (vd va : BitVec 6) (hb : BitVec 4) (mq : Option Mq) (s : State) : Out :=
  laneForm s (fun t _ part => handleFaults s t part hb [va.toNat, vd.toNat] anyClass)
    (fun s t g part =>
      let k := s.cur.team
      let real := notHelper t part
      let ix := fun (tid : Nat) => (laneReg t tid va.toNat).toNat
      let conv := fun (res : List Answer) (tid : Nat) => elemConv t hb tid (ix tid) (laneReg t tid vd.toNat) res
      let reads : Job :=
        { q := qualOf mq .read, act := fun _ => .load false none,
          wants := real.flatMap (fun l =>
            let h := handleOf t l.2 hb
            let e := entryOf t h.cls
            scaleWant l 10 h e.elem (ix l.2 / e.block)) }
      let write := fun (sub : Bool) => codeJob t hb (qualOf mq .write) ix 1 (fun res tid => (conv res tid).code) real sub
      memForm (cstForm [reads, write false, write true]) s t g
        (fun s res => numericTail (modTeam s k (advance s)) 0
          (((res.map (·.1.lane)).eraseDups).map (fun l => convEvent t hb l (conv res l.2)))))

/-- The bytes of a block's side entries. -/
def sideBytes (e : Entry) (b : Block) : List Byte :=
  let ws := b.kept.map (fun x => fp16.round (quotient x.x b.scale) + x.i % e.block * 65536)
  (ws ++ List.replicate (e.outl - ws.length) 0xFFFFFFFF).flatMap (bytesOf 4)

/-- The writer of a block's scale and side entries: the lowest lane that supplied an element of it. -/
def writerOf (b : Block) : Nat × Nat := (b.items.head?.map (·.lane)).getD (0, 0)

/-- The blocks a thread writes the scale of. -/
def writtenBy (bs : List Block) (tid : Nat) : List Block := bs.filter (fun b => (writerOf b).2 == tid)

/-- The writes of scales, stored or, for deltas, merged. -/
def scaleJob (t : Team) (q : Qual) (bs : List Block) (delta : Bool) : Job :=
  let el := fun (b : Block) => (entryOf t b.h.cls).elem
  let mine := bs.filter (fun b => (el b).scale == (if delta then 2 else 1))
  let at' := fun (tid ix : Nat) => (writtenBy mine tid)[ix - 50]?
  { q := q,
    act := fun _ =>
      if delta then .merge (fun tid ix => match at' tid ix with
        | some b => (bytesOf 1 (b.raw * 16 ^ (b.b % 2)), bytesOf 1 (15 * 16 ^ (b.b % 2)))
        | none => ([], []))
      else .store (fun tid ix => match at' tid ix with
        | some b => bytesOf 2 b.raw
        | none => []),
    wants := ((mine.map (fun b => (writerOf b))).eraseDups).flatMap (fun l =>
      let own := writtenBy mine l.2
      (upto own.length).flatMap (fun j => match own[j]? with
        | some b => scaleWant l (50 + j) b.h (el b) b.b
        | none => [])) }

/-- The writes of side entries, each of 4 bytes. -/
def sideJob (t : Team) (q : Qual) (bs : List Block) : Job :=
  let ent := fun (b : Block) => entryOf t b.h.cls
  let mine := bs.filter (fun b => b.h.oe && (ent b).outl != 0)
  { q := q,
    act := fun _ => .store (fun tid ix => match (writtenBy mine tid)[(ix - 100) / 256]? with
      | some b => (sideBytes (ent b) b).drop (4 * ((ix - 100) % 256)) |>.take 4
      | none => []),
    wants := ((mine.map (fun b => (writerOf b))).eraseDups).flatMap (fun l =>
      let own := writtenBy mine l.2
      (upto own.length).flatMap (fun j => match own[j]? with
        | some b => sideWants l (100 + 256 * j) b.h (ent b).outl b.b
        | none => [])) }

/-- The lanes whose own codes cannot be written contribute to no block (R342, R392). -/
def contributors (s : State) (t : Team) (g : Grp) (hb : BitVec 4) (ix : Nat → Nat) (part : List (Nat × Nat)) :
    List (Nat × Nat) :=
  part.filter (fun l =>
    let h := handleOf t l.2 hb
    let c := (entryOf t h.cls).elem.container
    (wantsRun l 0 (h.codeAddr c (ix l.2)) ((4 * c + 7) / 8) 1 h.rid).all (fun w =>
      match probeGlobal s t g.handler .write w with
      | .ok _ => true
      | .error _ => false))

def execCstBlk (vd va : BitVec 6) (hb : BitVec 4) (mq : Option Mq) (s : State) : Out :=
  laneForm s (fun t _ part =>
      handleFaults s t part hb (va.toNat :: tuple vd 4) isNarrow ++ indexFaults s t (notHelper t part) va.toNat 4)
    (fun s t g part =>
      let k := s.cur.team
      let real := notHelper t part
      let ix := fun (tid : Nat) => (laneReg t tid va.toNat).toNat
      let sup := (contributors s t g hb ix real).map (fun l => supplyOf t hb vd.toNat (ix l.2) l)
      let bs := packBlocks t sup (fun h e => h.oe && e.outl != 0)
      let q := qualOf mq .write
      let code := fun (_ : List Answer) (tid : Nat) => match sup.find? (fun u => u.lane.2 == tid) with
        | some u => packedCodes t bs u
        | none => 0
      memForm (cstForm [codeJob t hb q ix 4 code real false, codeJob t hb q ix 4 code real true, scaleJob t q bs false,
          scaleJob t q bs true, sideJob t q bs]) s t g
        (fun s res => numericTail (modTeam s k (advance s)) 0
          ((sup.map (itemsEvent t bs)).filter (fun e => res.any (fun r => r.1.lane.2 == e.tid)))))

end Sys2Proof.Machine
end

