-- ==== Sys2Proof/Machine/Matrix.lean ====
section
/-!
DEFINITION. The matrix array: descriptors (R217, R344), quartets (R212, R426, R427), operands and scales (R214, R215,
R218, R219), summation (R59, R60), MMA and MMAG (R345, R220), the norm monitor (R87) and numeric events (R409, R411).
-/

namespace Sys2Proof.Machine

/-! ### Descriptors -/

/-- The bits of a matrix descriptor that are not reserved. -/
def descMask : DWord := 0x00003F3F0F3F3F3F

def execMset (md : BitVec 2) (sa : BitVec 6) (s : State) : Out :=
  uniformForm true s (fun s t g =>
    finish s (modWarp t g.warp (fun w =>
      { w with md := padSet 0 w.md md.toNat (uReg w sa.toNat &&& descMask) })))

def execMget (sd : BitVec 6) (ma : BitVec 2) (s : State) : Out := uniformResult sd (fun w => w.md.getD ma.toNat 0) s

/-- The classes of A, B and C; the registers of A's and B's scale operands. -/
def descA (d : DWord) : Nat := bitsAt d.toNat 0 6
def descB (d : DWord) : Nat := bitsAt d.toNat 8 6
def descC (d : DWord) : Nat := bitsAt d.toNat 16 6
def descSrc (d : DWord) : Nat := bitsAt d.toNat 24 2
def descNmon (d : DWord) : Bool := d.getLsbD 26
def descOutl (d : DWord) : Bool := d.getLsbD 27
def descSra (d : DWord) : Nat := bitsAt d.toNat 32 6
def descSrb (d : DWord) : Nat := bitsAt d.toNat 40 6

/-! ### Sums of exact values (R59) -/

/-- A finite value as m × 2^e. Every value here has a power of two as its denominator. -/
def dyadic : FVal → Option (Int × Int)
  | .fin neg n d => some (signed neg n, -(Nat.log2 d : Int))
  | _ => none

/-- The sum of numbers m × 2^e, as one such number. -/
def sumDyadic (l : List (Int × Int)) : Int × Int :=
  let q := l.foldl (fun a x => if x.1 = 0 then a else min a x.2) 0
  (l.foldl (fun a x => if x.1 = 0 then a else a + x.1 * 2 ^ (x.2 - q).toNat) 0, q)

def ofDyadic (m e : Int) : FVal :=
  let r := scale2 m.natAbs 1 e
  .fin (decide (m < 0)) r.1 r.2

def isInf (neg : Bool) (x : FVal) : Bool := x == .inf neg

/-- The exact sum of values, with NaN and infinities as R59 takes them. -/
def sumVals (l : List FVal) : FVal :=
  if l.any FVal.isNan || (l.any (isInf true) && l.any (isInf false)) then .nan
  else if l.any (isInf true) then .inf true
  else if l.any (isInf false) then .inf false
  else
    let r := sumDyadic (l.filterMap dyadic)
    ofDyadic r.1 r.2

/-- The exponent of the leading 1 bit of the largest magnitude. -/
def topExp (l : List (Int × Int)) : Option Int :=
  l.foldl (fun (a : Option Int) (x : Int × Int) =>
    if x.1 = 0 then a
    else
      let e : Int := (Nat.log2 x.1.natAbs : Int) + x.2
      match a with
      | none => some e
      | some b => some (max e b)) none

/-- Drops the bits of m × 2^e below 2^q, toward zero. -/
def truncDyadic (q : Int) (x : Int × Int) : Int :=
  if q ≤ x.2 then x.1 * 2 ^ (x.2 - q).toNat
  else
    let a : Int := (x.1.natAbs / 2 ^ (q - x.2).toNat : Nat)
    if x.1 < 0 then -a else a

/-- The result of R59 from the accumulator and the terms; `negZero` says that every product is −0. -/
def sumMatrix (acc : Word) (terms : List FVal) (negZero : Unit → Bool) : Word :=
  let all := f32 acc :: terms
  if all.any FVal.isNan || (all.any (isInf true) && all.any (isInf false)) then to32 .nan
  else if all.any (isInf true) then to32 (.inf true)
  else if all.any (isInf false) then to32 (.inf false)
  else
    let l := all.filterMap dyadic
    let zero : Word := if acc == 0x80000000 && negZero () then 0x80000000 else 0
    match topExp l with
    | none => zero
    | some top =>
      let q := top - 48
      let m := (l.map (truncDyadic q)).foldl (· + ·) 0
      if m = 0 then zero else to32 (ofDyadic m q)

/-! ### Operands -/

/-- An operand as the array reads it: its class, the bits of each row of A or column of B, for each of them its scales
and the side entries of its blocks; `cut` is the block length where the scale changes along the reduction. -/
structure MatOp where
  e : Entry
  lines : List Nat
  scales : List (List FVal)
  cut : Option Nat
  sides : List (List (List Word))

/-- The value of element `k` of a line, before its scale (R214, R219). -/
def MatOp.value (o : MatOp) (r k : Nat) : FVal :=
  let b := o.e.block
  let side := ((o.sides.getD r []).getD (k / b) []).find? (fun x =>
    x != 0xFFFFFFFF && (x.extractLsb' 16 8).toNat == k % b)
  match side with
  | some x => fp16.decode (x.toNat % 65536)
  | none => o.e.elem.decode (o.lines.getD r 0 / 2 ^ (o.e.elem.container * k) % 2 ^ o.e.elem.container)

def MatOp.int (o : MatOp) (r k : Nat) : Int :=
  (nfmtOf o.e.fmt).intValue (o.lines.getD r 0 / 2 ^ (o.e.elem.container * k) % 2 ^ o.e.elem.container)

/-- The scale of a line at reduction index `k`. -/
def MatOp.scaleAt (o : MatOp) (r k : Nat) : FVal :=
  (o.scales.getD r []).getD (match o.cut with
    | some n => k / n
    | none => 0) (.fin false 1 1)

/-- The runs of reduction indices over which both scales are constant (R59). -/
def runsOf (a b : MatOp) (depth : Nat) : List (Nat × Nat) :=
  let cutAt := fun (o : MatOp) (k : Nat) => match o.cut with
    | some n => k % n == 0
    | none => false
  let starts :=
    if a.e.elem.scale = 0 ∧ b.e.elem.scale = 0 then upto depth
    else (upto depth).filter (fun k => k == 0 || cutAt a k || cutAt b k)
  starts.map (fun k => (k, ((starts.filter (fun x => decide (k < x))).headD depth) - k))

/-- One output element of floating-point classes (R59). -/
def floatElement (a b : MatOp) (depth : Nat) (runs : List (Nat × Nat)) (acc : Word) (r n : Nat) : Word :=
  let prod := fun (k : Nat) => (a.value r k).mul (b.value n k)
  let term := fun (run : Nat × Nat) =>
    ((sumVals ((upto run.2).map (fun i => prod (run.1 + i)))).mul (a.scaleAt r run.1)).mul (b.scaleAt n run.1)
  sumMatrix acc (runs.map term) (fun _ => (upto depth).all (fun k => match prod k with
    | .fin true 0 _ => true
    | _ => false))

/-- One output element of integer classes and whether it is clamped (R60). -/
def intElement (a b : MatOp) (depth : Nat) (acc : Word) (r n : Nat) : Word × Bool :=
  let x := acc.toInt + ((upto depth).map (fun k => a.int r k * b.int n k)).foldl (· + ·) 0
  let y := clamp x (-(2 ^ 31 - 1)) (2 ^ 31 - 1)
  (BitVec.ofInt 32 y, x != y)

/-! ### Tables in scratchpad (R215, R218, R219) -/

/-- A run of scratchpad that the array reads: offset, bytes, the piece it is resolved in, and its alignment. -/
structure Slab where
  off : Word
  n : Nat
  w : Nat
  align : Nat
deriving DecidableEq, Repr

/-- Where the pieces of a slab lie, or the park of its first piece that lies nowhere. -/
def slabSpots (s : State) (k : Nat) (x : Slab) : Except Park (List (Word × Spot)) :=
  if x.off.toNat % x.align ≠ 0 then .error (alignPark (x.off.setWidth 64) x.align)
  else
    let ps := (upto (x.n / x.w)).map (fun i => x.off + BitVec.ofNat 32 (x.w * i))
    let rs := ps.map (fun o => (o, resolve s k o x.w))
    match rs.findSome? (fun r => match r.2 with
      | .error e => some (r.1, e)
      | .ok _ => none) with
    | some (o, e) => .error { code := 0x13, addr := o.setWidth 64, info := boundInfo o e, flags := 0, order := 0 }
    | none => .ok (rs.filterMap (fun r => match r.2 with
      | .ok p => some (r.1, p)
      | .error _ => none))

/-- The bytes of a slab; poison reads 0 (R384). -/
def slabBytes (s : State) (x : Slab) (l : List (Word × Spot)) : List Byte :=
  l.flatMap (fun p =>
    if scratchPoisoned s p.2.team p.2.pos x.w then List.replicate x.w 0 else scratchBytes s p.2.team p.2.pos x.w)

/-- The array reads a slab: the poisoned pieces count (R383). -/
def consumeSlab (core : Nat) (s : State) (x : Slab × List (Word × Spot)) : State :=
  x.2.foldl (fun s p =>
    if scratchPoisoned s p.2.team p.2.pos x.1.w then consumeScratch s p.2.team p.2.pos x.1.w (unitOf 0 core) else s) s

/-- Scales per line in one instruction (R218). -/
def blocksPerLine (e : Entry) (depth : Nat) : Nat := max 1 (depth / e.block)

/-- The scale table of an operand with `lines` rows or columns. -/
def scaleSlab (e : Entry) (reg : DWord) (lines depth : Nat) : List Slab :=
  let n := blocksPerLine e depth * lines
  match e.elem.scale with
  | 1 => [{ off := low32 reg, n := 2 * n, w := 2, align := 2 }]
  | 2 => [{ off := low32 reg, n := (n + 1) / 2, w := 1, align := 1 }]
  | _ => []

/-- The side table of an operand (R219). -/
def sideSlab (e : Entry) (reg : DWord) (lines depth : Nat) (on : Bool) : List Slab :=
  if on && e.outl != 0 then [{ off := low32 reg, n := 4 * e.outl * blocksPerLine e depth * lines, w := 4, align := 4 }]
  else []

/-- The scales of an operand's lines from its register and the bytes of its table. -/
def scalesFrom (e : Entry) (reg : DWord) (lines depth : Nat) (table : List Byte) : List (List FVal) :=
  let nb := blocksPerLine e depth
  match e.elem.scale with
  | 1 => (upto lines).map (fun r => (upto nb).map (fun b =>
      scaleValue e.elem (bytesAt table (2 * (nb * r + b)) 2) 0 0))
  | 2 => (upto lines).map (fun r => (upto nb).map (fun b =>
      let i := nb * r + b
      scaleValue e.elem (bytesAt table (i / 2) 1 / 16 ^ (i % 2) % 16) 0 (bitsAt reg.toNat 32 8)))
  | 3 => List.replicate lines [f32 (low32 reg)]
  | _ => List.replicate lines [.fin false 1 1]

/-- The side entries of an operand's lines by block. -/
def sidesFrom (e : Entry) (lines depth : Nat) (table : List Byte) : List (List (List Word)) :=
  let nb := blocksPerLine e depth
  if table.isEmpty then []
  else (upto lines).map (fun r => (upto nb).map (fun b => (upto e.outl).map (fun j =>
    BitVec.ofNat 32 (bytesAt table (4 * (e.outl * (nb * r + b) + j)) 4))))

/-- Whether a block ends inside an instruction of a class with a block scale. -/
def cutOf (e : Entry) : Option Nat := if e.elem.scale = 1 ∨ e.elem.scale = 2 then some e.block else none

/-! ### GAM slots (R220, R221) -/

/-- A slot that nothing has written. -/
def GamSlot.fresh : GamSlot := { elems := [], int := false, nf := false, owner := none, poison := [], poisonSeen := [] }

def gamSlot (c : Core) (n : Nat) : GamSlot := cget GamSlot.fresh c.gam n

def setGamSlot (c : Core) (n : Nat) (x : GamSlot) : Core := { c with gam := cset GamSlot.fresh c.gam n x }

/-- One read of a poisoned granule of a slot (R383, R384): it counts, its first read writes an event, and NF is set. -/
def meetGranule (core slot : Nat) (s : State) (n : Nat) : State :=
  let x := gamSlot (coreOf s core) slot
  let s := countReg s 0x800D0 1
  let s := if x.poisonSeen.contains n then s else crumb s 0x0600 (unitOf 0 core) (bytesOf 4 0x800D0)
  modCore s core (fun c => setGamSlot c slot { x with nf := true, poisonSeen := nadd x.poisonSeen n })

/-- A read of whole slots meets the poisoned granules in them. -/
def meetPoison (s : State) (core : Nat) (slots : List Nat) : State :=
  slots.foldl (fun s i => (gamSlot (coreOf s core) i).poison.foldl (meetGranule core i) s) s

/-- The elements from `i` on, `n` of them, of a list of those that are not +0. -/
def expandFrom : Nat → Nat → List (Nat × Word) → List Word
  | 0, _, _ => []
  | n + 1, i, [] => 0 :: expandFrom n (i + 1) []
  | n + 1, i, (j, x) :: r => if i = j then x :: expandFrom n (i + 1) r else 0 :: expandFrom n (i + 1) ((j, x) :: r)

/-- The 2,048 elements of a slot as they read: a poisoned granule reads +0 (R384). -/
def GamSlot.words (x : GamSlot) : List Word :=
  expandFrom 2048 0 (x.elems.filter (fun y => !x.poison.contains (y.1 / 8)))

/-- The list of those that are not +0. -/
def gamElems (l : List Word) : List (Nat × Word) := ((upto l.length).zip l).filter (fun x => x.2 != 0)

def ownedElsewhere (owner : Option Nat) (ctx : Nat) : Bool := owner.isSome && owner != some ctx

/-! ### Issue checks (R422, R424, R430, R221) -/

/-- The registers that a matrix word names: C, A and B. -/
def matrixRegs (gam : Bool) (src : Nat) (vd va vb : BitVec 6) : List Nat :=
  (if gam then [] else tuple vd 16) ++ (if src = 0 then tuple va 4 else []) ++ tuple vb 2

/-- The class entry's REASON under one class index. -/
def classPark (s : State) (t : Team) (i : Nat) : Option Park := (entryOf t i).fault.map (parkOf s 1 i)

/-- The accumulator of class C does not suit the classes of A and B. -/
def accUnfit (a b c : Entry) : Bool :=
  let plain := fun (e : Entry) => e.kind == 0 && (nfmtOf e.fmt).ew == 0 && (nfmtOf e.fmt).scale == 0
  c.acc == 0 || (c.acc == 2 && !(plain a && plain b))

/-- What a warp that issues a matrix word finds wrong, the lowest REASON first. -/
def matrixFault (s : State) (t : Team) (g : Grp) (gam : Bool) (src : Nat) (vd va vb : BitVec 6) (m : BitVec 2) :
    Option Park :=
  let w := warpOf t g.warp
  let d := w.md.getD m.toNat 0
  let slot := w.gbase.toNat % 256 + vd.toNat
  let cls := [descA d, descB d, descC d]
  match (matrixRegs gam src vd va vb).find? (fun r => (portNamed t r).isSome) with
  | some r => some (parkOf s 1 r 6)
  | none =>
    if src = 2 ∧ (portNamed t va.toNat).isNone then some (parkOf s 1 va.toNat 7)
    else match cls.find? (fun i => (entryOf t i).fault == some 11) with
      | some i => classPark s t i
      | none => match cls.find? (fun i => (entryOf t i).fault == some 12) with
        | some i => classPark s t i
        | none =>
          if accUnfit (entryOf t (descA d)) (entryOf t (descB d)) (entryOf t (descC d)) then some (parkOf s 1 (descC d) 13)
          else if descSrc d ≠ src then some (parkOf s 1 (descSrc d) 14)
          else if gam ∧ ownedElsewhere (gamSlot (coreOf s t.core) slot).owner t.info.ctx then some (parkOf s 1 slot 18)
          else none

/-! ### The quartet (R212, R426, R427) -/

/-- The four home warps of a quartet have been formed. -/
def quartetWhole (t : Team) (q : Nat) : Bool := (upto 4).all (fun i => (warpOf t (4 * q + i)).formed)

/-- A holder waits at another matrix word than the one that arrives: PC, word, descriptor or GBASE. -/
def wordsDiffer (s : State) (t : Team) (g h : Grp) (gam : Bool) (m : BitVec 2) : Bool :=
  let a := warpOf t g.warp
  let b := warpOf t h.warp
  h.pc != g.pc || heldWord h != some s.cur.word || a.md.getD m.toNat 0 != b.md.getD m.toNat 0 ||
    (gam && a.gbase != b.gbase)

/-- Every lane of the groups parks alike (R212). -/
def parkGroups (s : State) (k : Nat) (gs : List Grp) (p : Park) : Out :=
  .next (takeTraps k trapFuel (gs.foldl (fun s g => if hasGroup s k g.gid then raise s k g 2 (g.lanes.map (fun l => (l.2, p))) else s) s))

/-! ### The start at the array -/

/-- What the array gathers: the operands' slabs with their spots, in the order tile, A's scales, B's scales, A's sides,
B's sides. -/
abbrev Slabs := List (Slab × List (Word × Spot))

/-- The bytes of the slabs of one kind. -/
def gathered (s : State) (l : Slabs) : List Byte := l.flatMap (fun x => slabBytes s x.1 x.2)

/-- The 32 bytes of an A row or 64 bits of a B column from lane registers (R214). -/
def rowFromLanes (t : Team) (q va r : Nat) : Nat :=
  ofBytes ((upto 8).flatMap (fun i =>
    bytesOf 4 (laneReg t (32 * (4 * q + r / 16) + 2 * (r % 16) + i / 4) (va + i % 4)).toNat))

/-- A column of B: its four quarters one after another, each `depth / 4` containers long. -/
def columnFromLanes (t : Team) (q vb c depth n : Nat) : Nat :=
  ((upto 4).map (fun j =>
    let tid := 32 * (4 * q + j) + n
    let x := (laneReg t tid vb).toNat + (laneReg t tid (vb + 1)).toNat * 2 ^ 32
    x % 2 ^ (c * (depth / 4)) * 2 ^ (c * (depth / 4) * j))).foldl (· + ·) 0

/-- The lane that holds an output element (R214), and its register's place in the tuple. -/
def lanePlace (q r n : Nat) : Nat × Nat := (32 * (4 * q + r / 16) + 2 * (r % 16) + n / 16, n % 16)

/-- What one output element came to. -/
structure Cell where
  r : Nat
  n : Nat
  x : Word
  nan : Bool
  sat : Bool
deriving DecidableEq, Repr

/-- The 2,048 output elements. -/
def cellsOf (a b : MatOp) (c : Entry) (depth : Nat) (acc : Nat → Nat → Word) : List Cell :=
  let runs := runsOf a b depth
  (upto 64).flatMap (fun r => (upto 32).map (fun n =>
    let x := acc r n
    if c.acc = 2 then
      let y := intElement a b depth x r n
      { r := r, n := n, x := y.1, nan := false, sat := y.2 }
    else
      let y := floatElement a b depth runs x r n
      { r := r, n := n, x := y, nan := (f32 y).isNan && !(f32 x).isNan, sat := false }))

/-- The norm monitor (R87): the sum of squares of a warp's 16 rows. -/
def noteNorm (int : Bool) (cells : List Cell) (q cc : Nat) (t : Team) (i : Nat) : Team :=
  let mine := cells.filter (fun x => x.r / 16 == i)
  let sq := mine.map (fun x =>
    let v := if int then FVal.ofInt x.x.toInt else f32 x.x
    v.mul v)
  modWarp t (4 * q + i) (fun w => { w with nmon := fadd32 w.nmon (to32 (sumVals sq)), lastClass := some cc })

/-- The events of the quartet's warps are counted, and those whose rows produced an event that the context traps park
behind the instruction (R409, R411). -/
def matrixTail (s : State) (k q cc : Nat) (cells : List Cell) (gids : List (Nat × Nat)) : State :=
  match tget s.teams k with
  | none => s
  | some t =>
    let live := cells.filter (fun x => (x.nan || x.sat) && !liveHelper t (lanePlace q x.r x.n).1)
    let s := countNumeric s t.info.ctx t.core cc (live.filter (·.nan)).length (live.filter (·.sat)).length 0 0
    let cfg := numcfg s t.info.ctx
    takeTraps k trapFuel (gids.foldl (fun s g =>
      let mine := live.filter (fun x => x.r / 16 == g.1 % 4)
      let e : NumEv := { tid := 0, cls := cc, nan := (mine.filter (·.nan)).length, sat := (mine.filter (·.sat)).length,
                         outov := 0 }
      match numPark cfg e, (tget s.teams k).bind (fun t => groupOf t g.2) with
      | some (_, p), some x => raise s k x 2 (x.lanes.map (fun l => (l.2, p)))
      | _, _ => s) s)

/-- The race probes of the array's reads of checked windows, made for the lowest lane of home warp 4k that is no helper. -/
def slabProbes (t : Team) (lead : Grp) (l : Slabs) : List Probe :=
  match notHelper t lead.lanes with
  | [] => []
  | x :: _ => l.flatMap (fun y => (y.2.filter (fun p => p.2.chk)).map (fun p =>
      { lane := x, addr := p.1.setWidth 64, granules := (granulesOf p.2.pos y.1.w).map (.scratch p.2.team),
        q := qualOf none .read, kind := .read, scratch := true }))

/-- The array's reads take place: the tags, and what the thread they are made for meets (R133, R135). -/
def slabReads (t : Team) (l : List Probe) (s : State) : State :=
  l.foldl (fun s p => joinThreads p.q (stampAt s p) [p.lane.2] (updateTags s t p)) s

/-- The thread that the reads are made for has had its check (R400, R401). -/
def slabChecked (k : Nat) (l : List Probe) (s : State) : State :=
  match l with
  | [] => s
  | p :: _ => modTeam s k (fun t => modThread t p.lane.2 (checkDone true))

/-- The slabs that the word of quartet `q` reads, by kind: tile, A's and B's scales, A's and B's side tables. -/
def matrixSlabs (t : Team) (q src : Nat) (va : BitVec 6) (d : DWord) : List (List Slab) :=
  let w := warpOf t (4 * q)
  let ea := entryOf t (descA d)
  let eb := entryOf t (descB d)
  let depth := 256 / max ea.elem.container eb.elem.container
  let on := descOutl d && (entryOf t (descC d)).acc != 2
  [if src = 1 then [{ off := low32 (uReg w va.toNat), n := 2048, w := 16, align := 32 }] else [],
   scaleSlab ea (uReg w (descSra d)) 64 depth, scaleSlab eb (uReg w (descSrb d)) 32 depth,
   sideSlab ea (uReg w (descSra d + 1)) 64 depth on, sideSlab eb (uReg w (descSrb d + 1)) 32 depth on]

/-- The operands A and B of quartet `q`, from registers, from the slabs read, or from the entries popped (R214, R215,
R218, R219). -/
def matrixOps (s : State) (t : Team) (q src : Nat) (va vb : BitVec 6) (d : DWord) (slabs : List Slabs)
    (popped : List (Word × Word)) : MatOp × MatOp :=
  let w := warpOf t (4 * q)
  let ea := entryOf t (descA d)
  let eb := entryOf t (descB d)
  let depth := 256 / max ea.elem.container eb.elem.container
  let tile := gathered s (slabs.getD 0 [])
  let rowA := fun (r : Nat) => match src with
    | 0 => rowFromLanes t q va.toNat r
    | 1 => bytesAt tile (32 * r) 32
    | _ => ofBytes ((upto 8).flatMap (fun i => bytesOf 4 (popped.getD (8 * r + i) (0, 0)).1.toNat))
  ({ e := ea, lines := (upto 64).map rowA,
     scales := scalesFrom ea (uReg w (descSra d)) 64 depth (gathered s (slabs.getD 1 [])),
     cut := cutOf ea, sides := sidesFrom ea 64 depth (gathered s (slabs.getD 3 [])) },
   { e := eb, lines := (upto 32).map (columnFromLanes t q vb.toNat eb.elem.container depth),
     scales := scalesFrom eb (uReg w (descSrb d)) 32 depth (gathered s (slabs.getD 2 [])),
     cut := cutOf eb, sides := sidesFrom eb 32 depth (gathered s (slabs.getD 4 [])) })

/-- The fourth warp has issued the word of its quartet: the array's own checks (R212, R429), what it waits for, and the
instruction. -/
def startMatrix (gam : Bool) (src : Nat) (vd va vb : BitVec 6) (m : BitVec 2) (s : State) (t : Team) (g : Grp)
    (others : List Grp) : Out :=
  let k := s.cur.team
  let q := g.warp / 4
  let gs := g :: others
  let lead := (gs.find? (fun x => x.warp == 4 * q)).getD g
  let w := warpOf t (4 * q)
  let d := w.md.getD m.toNat 0
  let ea := entryOf t (descA d)
  let eb := entryOf t (descB d)
  let ec := entryOf t (descC d)
  let depth := 256 / max ea.elem.container eb.elem.container
  let slot := w.gbase.toNat % 256 + vd.toNat
  let queue := if src = 2 then (boundKey t (va.toNat - 56)).bind (fun key => (queueOf s key).map (fun x => (key, x))) else none
  let bad :=
    (if gam && decide (256 ≤ slot) then [parkOf s 1 slot 10] else []) ++
    (if descOutl d && ea.outl != 0 && decide (62 < descSra d) then [parkOf s 1 (descSra d) 10] else []) ++
    (if descOutl d && eb.outl != 0 && decide (62 < descSrb d) then [parkOf s 1 (descSrb d) 10] else []) ++
    (match queue with
      | some (_, x) => if x.cap < 512 then [parkOf s 1 va.toNat 15] else []
      | none => [])
  let found := (matrixSlabs t q src va d).map (fun l => l.map (fun x => (x, slabSpots s k x)))
  let wrong := bad ++ (found.flatten.filterMap (fun x => match x.2 with
    | .error p => some p
    | .ok _ => none))
  match firstPark wrong with
  | some p => parkGroups s k gs p
  | none =>
    let slabs : List Slabs := found.map (fun l => l.filterMap (fun x => match x.2 with
      | .ok p => some (x.1, p)
      | .error _ => none))
    if (coreOf s t.core).array.isSome then waitFor s t (.retry .array)
    else if !slabs.flatten.all (fun x => x.2.all (fun p => present s p.2 x.1.w)) then waitFor s t (.retry .presence)
    else
      let me := (k, g.gid)
      match (match queue with
        | some (key, x) => if canPop x me 512 then none else some (key, x)
        | none => none) with
      | some (key, x) =>
        waitFor (setQueue s key { x with poppers := waitLast x.poppers me }) t (.retry .array)
      | none =>
        let probes := slabProbes t lead slabs.flatten
        let v := judgeAccesses s t lead.pc probes
        let s := slabChecked k probes v.state
        match v.parks with
        | (_, p) :: _ => parkGroups s k gs p
        | [] =>
          let s := slabs.flatten.foldl (consumeSlab t.core) (slabReads t probes s)
          -- the pop, and the clocks that its entries give
          let (popped, s) := match queue with
            | some (key, x) => popEntries s key x me (unitOf 0 t.core) 512
            | none => ([], s)
          let s := modTeam s k (fun t => if popped.isEmpty then t else (upto 128).foldl (fun t i =>
            let tid := 128 * q + i
            if liveHelper t tid then t
            else modThread t tid (fun th => acquireAt s.writes 0 (raiseClk th
              (BitVec.ofNat 32 (((upto 4).map (fun j => (popped.getD (4 * i + j) (0, 0)).2.toNat)).foldl max 0))))) t)
          let (a, b) := matrixOps s t q src va vb d slabs popped
          let s := if gam then meetPoison s t.core [slot] else s
          let old := gamSlot (coreOf s t.core) slot
          let words := if gam then old.words else []
          let acc := fun (r n : Nat) =>
            if gam then words.getD (32 * r + n) 0
            else laneReg t (lanePlace q r n).1 (vd.toNat + (lanePlace q r n).2)
          let cells := cellsOf a b ec depth acc
          let int := ec.acc == 2
          let nf := !int && cells.any (fun x => match f32 x.x with
            | .fin _ _ _ => false
            | _ => true)
          let s := modTeam s k (fun t =>
            let t := if gam then t
              else cells.foldl (fun t x =>
                let p := lanePlace q x.r x.n
                setLaneReg t p.1 (vd.toNat + p.2) x.x) t
            let t := if descNmon d then (upto 4).foldl (noteNorm int cells q (descC d)) t else t
            gs.foldl (fun t h => modGroup t h.gid (stepPc s.gtick s.cur.hdr s.cur.len)) t)
          let s := modCore s t.core (fun c =>
            let c := if gam then setGamSlot c slot
                { elems := gamElems (cells.map (·.x)), int := int, nf := old.nf || nf,
                  owner := some t.info.ctx, poison := [], poisonSeen := [] }
              else c
            { c with array := some (k, q) })
          let s := if v.waits && !probes.isEmpty then
              modTeam s k (fun t => modGroup t lead.gid (fun x => { x with wait := .verdict })) else s
          .next (matrixTail s k q (descC d) cells (gs.map (fun x => (x.warp, x.gid))))

/-- A matrix word reaches the quartet (R212, R426, R427): what is wrong with it, the hold, or the start. -/
def matrixForm (gam : Bool) (src : Nat) (vd va vb : BitVec 6) (m : BitVec 2) (s : State) : Out :=
  withIssuer s (fun t g =>
    let k := s.cur.team
    let q := g.warp / 4
    if g.formation then misplaced (fun s t g => matrixFault s t g gam src vd va vb m) s t g 3
    else
      let ext := extFaults s t g.lanes (matrixRegs gam src vd va vb)
      match matrixFault s t g gam src vd va vb m, ext with
      | some p, _ =>
        -- v32 to v63 without a block is REASON 8, which comes before those above it (R415)
        .next (trapLanes s k g 2 (g.lanes.map (fun l => (l.2,
          if p.info.toNat % 256 < 8 then p else ((ext.find? (fun x => x.1 == l.2)).map (·.2)).getD p))))
      | none, x :: xs => .next (trapLanes s k g 2 (x :: xs))
      | none, [] =>
          let others := (quartetHolders t q).filter (fun h => h.gid != g.gid)
          let fail := fun (reason : Nat) =>
            trapUniform (modTeam s k (fun t => failQuartet s.gtick (modGroup t g.gid (fun x => { x with wait := .none })) q reason))
              g (parkOf s 2 0 reason)
          if g.lanes.length ≠ 32 ∨ !quartetWhole t q then fail 1
          else if others.any (fun h => wordsDiffer s t g h gam m) then fail 2
          else if others.length < 3 then waitFor s t (.quartet s.cur.word)
          else startMatrix gam src vd va vb m s t g others)

def execMma (vd va vb : BitVec 6) (m : BitVec 2) (s : State) : Out := matrixForm false 0 vd va vb m s
def execMmaSpad (vd va vb : BitVec 6) (m : BitVec 2) (s : State) : Out := matrixForm false 1 vd va vb m s
def execMmaQueue (vd va vb : BitVec 6) (m : BitVec 2) (s : State) : Out := matrixForm false 2 vd va vb m s
def execMmag (vd va vb : BitVec 6) (m : BitVec 2) (s : State) : Out := matrixForm true 0 vd va vb m s
def execMmagSpad (vd va vb : BitVec 6) (m : BitVec 2) (s : State) : Out := matrixForm true 1 vd va vb m s
def execMmagQueue (vd va vb : BitVec 6) (m : BitVec 2) (s : State) : Out := matrixForm true 2 vd va vb m s

/-! ### Quartets that can no longer be completed (R427) -/

/-- A thread of the quartet is regrouped, or parked or in a handler. -/
def quartetBroken (t : Team) (q : Nat) : Bool :=
  (upto 4).any (fun i => !(warpOf t (4 * q + i)).formed || regrouped t (4 * q + i)) ||
    t.groups.any (fun g => (g.park.isSome || g.handler) && g.lanes.any (fun l => l.2 / 128 == q))

/-- After every step the holding warps of broken quartets park, and requests of groups that are gone leave their queues. -/
def settleQuartets (s : State) : State :=
  s.teams.foldl (fun s x =>
    let qs := ((x.2.groups.filter (fun g => (heldWord g).isSome)).map (fun g => g.warp / 4)).eraseDups
    match qs.filter (quartetBroken x.2) with
    | [] => s
    | bad => pruneQueues (takeTraps x.1 trapFuel (modTeam s x.1 (fun t => bad.foldl (fun t q => failQuartet s.gtick t q 1) t))) x.1) s

/-! ### The norm monitor (R88, R347) -/

def execNrst (s : State) : Out :=
  uniformForm true s (fun s t g => finish s (modWarp t g.warp (fun w => { w with nmon := 0 })))

def execNrd (sd : BitVec 6) (s : State) : Out := uniformResult sd (fun w => w.nema ++ w.nmon) s

/-- Whether the norm has jumped, and the next NEMA. -/
def normCheck (nmon nema : Word) (k a : Nat) : Bool × Word :=
  let jump := (f32 nmon).cmp ((f32 nema).mul (pow2 k)) == .greater
  let d := fsub32 nmon nema
  (jump, to32 ((f32 nema).add ((f32 d).mul (pow2 (-(a : Int))))))

def execNchk (fd : BitVec 3) (sa sb : BitVec 6) (s : State) : Out :=
  uniformForm true s (fun s t g =>
    let k := s.cur.team
    let w := warpOf t g.warp
    let (jump, nema) := normCheck w.nmon w.nema ((uReg w sa.toNat).toNat % 32) ((uReg w sb.toNat).toNat % 32)
    let t := modWarp t g.warp (fun w => setFlag { w with nema := nema } fd.toNat jump)
    let s := setTeam s k (advance s t)
    if !jump then .next s
    else
      -- where the monitor has never run the spec names no class: an open value
      let cls := w.lastClass.getD ((Config.freeWord s.free).toNat % 64)
      let s := if w.lastClass.isNone then { s with free := s.free + 1 } else s
      let s := countNumeric s t.info.ctx t.core cls 0 0 0 1
      match issuer s with
      | none => .next s
      | some (_, g) =>
        if (numcfg s t.info.ctx).testBit 3 then
          trapUniform s g { code := 0x31, addr := 0, info := BitVec.ofNat 64 (256 * cls), flags := 0, order := 0 }
        else .next s)

end Sys2Proof.Machine
end

