-- ==== Sys2Proof/Machine/CoreEv.lean ====
section
/-!
DEFINITION. The steps of a core that are no instruction word: formations and spawn bins (R28, R31, R33, R164), the load
allowance and L1 evictions (R103, R163), translations that complete (R93, R94), answers to memory requests (R169, R287,
R377), verdicts (R138), traps that wait for their handler (R387), the matrix array's result (R213), the ends of waits
(R35, R147, R151, R405) and the time-out of a replay gate (R379).
-/

namespace Sys2Proof.Machine

/-! ### Formations and spawn bins -/

/-- A slice draws the bin that comes first, of whatever team, unless it holds 32 formations (R31, R164). -/
def drawNext (s : State) (core slice : Nat) : State :=
  if 32 ≤ formationCount s core slice then s
  else match dueBin s core slice with
    | none => s
    | some (k, b) => modTeam s k (fun t => drawBin s.gtick t b)

/-- FORMATION_DRAW (R28, R31): the bin that the slice draws first. -/
def execFormationDraw (s : State) : Out :=
  match tget s.teams s.cur.arg.team with
  | none => .next s
  | some t => .next (drawNext s t.core s.cur.arg.slice)

/-- BIN_TIMER_EXPIRY (R28): the timer of a bin has run out; it is drawn before any bin that is merely full (R31). -/
def execBinTimerExpiry (s : State) : Out :=
  match tget s.teams s.cur.arg.team with
  | none => .next s
  | some t =>
    let mine := fun (b : Bin) => b.slice == s.cur.arg.slice && b.key == BitVec.ofNat 56 s.cur.arg.key
    .next (if t.bins.any (fun b => mine b && binExpired s.gtick t b) then drawNext s t.core s.cur.arg.slice else s)

/-- SPAWN_BIN_TIMER_EXPIRY (R33): a spawn bin whose timer has run out becomes a home warp as it is. -/
def execSpawnBinTimerExpiry (s : State) : Out :=
  match tget s.teams s.cur.arg.team with
  | none => .next s
  | some t =>
    match t.spawnBins.find? (fun b => b.key == BitVec.ofNat 56 s.cur.arg.key) with
    | none => .next s
    | some b => .next (if b.opened + binTimer t ≤ s.gtick then formSpawn s s.cur.arg.team b else s)

/-! ### The load allowance and L1 (R103, R163) -/

/-- One step of an allowance: down under 512 or more victim hits, up under fewer than 128. -/
def nextAllowance (hits n : Nat) : Nat :=
  if 512 ≤ hits then (if n = 32 then 16 else if n = 16 then 8 else if n = 8 then 4 else 2)
  else if hits < 128 then (if n = 2 then 4 else if n = 4 then 8 else if n = 8 then 16 else 32)
  else n

/-- LOAD_ALLOWANCE_UPDATE (R163): a window of 4,096 cycles of a core has ended. -/
def execLoadAllowanceUpdate (s : State) : Out :=
  let c := coreOf s s.cur.arg.core
  if s.gtick / 4096 ≤ c.window then .next s
  else .next (setCore s s.cur.arg.core { c with
    allowance := (upto 4).map (fun i => nextAllowance c.hits (c.allowance.getD i 32)), hits := 0, window := s.gtick / 4096 })

/-- L1_EVICTION: of the set of a line, the line that stands first leaves L1 (R103, R104): its dirty bytes go to their home
slice, and its tag joins the 1,024 victims. -/
def execL1Eviction (s : State) : Out :=
  let core := s.cur.arg.core
  let line := l1Victim (coreOf s core) s.cur.arg.line
  let mine := fun a => a / 128 == line
  if (coreOf s core).l1.any (fun e => mine e.1) then
    .next (modCore (flushL1 s core mine) core (fun c =>
      { c with victims := (line :: c.victims.filter (· != line)).take 1024, lines := tdel c.lines line }))
  else .next s

/-! ### Translations and answers -/

/-- PAGE_WALK_COMPLETE (R93, R94): the TLB takes what the walk has found. -/
def execPageWalkComplete (s : State) : Out := .next (tlbFill s s.cur.arg.core s.cur.arg.ctx s.cur.arg.va)

/-- A SAMPLE record (R377). Where the time was spent is not modelled: its queue times are open values. -/
def sampleRecord (s : State) (core : Nat) (r : Req) : State :=
  let header := traceHeader s 2 r.ctx core r.slot r.hwarp r.pc
  let open' := (upto 21).map (fun i => Config.freeByte (s.free + i))
  let last := (upto 32).filter (fun i => r.lanes.getLsbD i)
  let lane := last.getD ((Config.freeWord (s.free + 21)).toNat % max 1 last.length) 0
  let body := bytesOf 4 r.lanes.toNat ++ bytesOf 1 r.sectors ++ open'.take 1 ++ bytesOf 2 0 ++ open'.drop 1 ++
    bytesOf 1 lane ++ bytesOf 3 0 ++ bytesOf 4 (min (s.gtick - r.issued) (2 ^ 32 - 1))
  { traceRecord s (header ++ body) with free := s.free + 22 }

/-- The answer of an outstanding request will still write a register, of the kinds of R428, of some lanes of team `k`. -/
def requestWrites (c : Core) (k : Nat) (lanes : List (Nat × Nat)) (x : Nat × Nat) : Bool :=
  x.1 == 0 && c.reqs.any (fun r => r.team == k && !r.store && r.regs.contains x.2 &&
    lanes.any (fun l => r.tids.contains l.2))

/-- The results of a group's instructions are not all written yet (R166). -/
def resultsOpen (c : Core) (k : Nat) (g : Grp) : Bool :=
  c.reqs.any (fun r => r.team == k && !r.store && !r.regs.isEmpty && g.lanes.any (fun l => r.tids.contains l.2))

/-- The lanes of a WAITC have all met their condition. -/
def lanesMet (l : List LaneWait) : Bool := l.all (fun x => x.got.isSome)

/-- A wait that has ended, so that the group's instruction can complete. -/
def waitOver (w : Wait) : Bool :=
  match w with
  | .none => true
  | .slots all mask sat _ _ e => waitEnds all mask sat || e
  | .lanes _ l => lanesMet l
  | _ => false

/-- A group that nothing holds but, perhaps, a wait: after a STALL of 7 the results of its last instruction are written
(R166). -/
def groupRuns (s : State) (k : Nat) (t : Team) (g : Grp) : Bool :=
  g.park.isNone && decide (g.next ≤ s.gtick) && !(warpOf t g.warp).swapped &&
    !(g.owed && resultsOpen (coreOf s t.core) k g)

/-- A group that waits for a register issues again two cycles after its release (R167). -/
def scoreOver (now k : Nat) (c : Core) (g : Grp) : Grp :=
  match g.wait with
  | .score r => if requestWrites c k g.lanes (0, r) then g else { g with wait := .none, next := now + 2, ready := now + 2 }
  | _ => g

/-- A core's request is answered: it leaves the core's entries, its registers are released, and a sampled one writes its
record. -/
def answerReq (s : State) (core id : Nat) (store : Bool) : State :=
  match (coreOf s core).reqs.find? (fun r => r.id == id && r.store == store) with
  | none => s
  | some r =>
    let s := modCore s core (fun c => { c with reqs := c.reqs.erase r })
    let s := modTeam s r.team (fun t => { t with groups := t.groups.map (scoreOver s.gtick r.team (coreOf s core)) })
    if r.sampled then sampleRecord s core r else s

/-- LOAD_DATA_RETURN (R169): the data of a load or atomic has come back. Its registers were written as it issued, which
no instruction can tell apart: the scoreboard holds each one back until now (R167). -/
def execLoadDataReturn (s : State) : Out := .next (answerReq s s.cur.arg.core s.cur.arg.req false)

/-- WRITE_ACKNOWLEDGEMENT (R287): a store has been acknowledged. -/
def execWriteAcknowledgement (s : State) : Out := .next (answerReq s s.cur.arg.core s.cur.arg.req true)

/-- RACE_VERDICT_RETURN (R138): the verdict releases the group. -/
def execRaceVerdictReturn (s : State) : Out :=
  .next (modTeam s s.cur.arg.team (fun t => modGroup t s.cur.arg.gid (fun g =>
    if g.wait = .verdict then { g with wait := .none, ready := s.gtick } else g)))

/-- TRAP_ENTRY (R387): the parked sub-warps of a team that may enter their handler do so. -/
def execTrapEntry (s : State) : Out := .next (settleQuartets (takeTraps s.cur.arg.team trapFuel s))

/-- MATRIX_RESULT (R213): the array has delivered its result and is free. -/
def execMatrixResult (s : State) : Out := .next (modCore s s.cur.arg.core (fun c => { c with array := none }))

/-! ### The ends of waits -/

/-- A poll of one wait that found no monitor: it reads its word; where the condition does not hold, it takes a monitor if one
is free, else it polls again. -/
def pollMonitor (s : State) (m : Monitor) : State :=
  if !m.polled || s.gtick < m.poll then s
  else
    let s := { s with monitors := s.monitors.filter (· != m) }
    let word := testWord s m.pa
    if monitorHolds m word then
      modTeam s m.team (fun t => modGroup t m.gid (fun g =>
        { g with wait := noteWait m word (poisoned s m.pa 4) (cget 0 s.tags (m.pa / 32)) g.wait }))
    else
      let m := { m with polled := false }
      { s with monitors := s.monitors ++ [if monitorFree s m then m else { m with polled := true, poll := s.gtick + 3600 }] }

/-- MONITOR_POLL (R405): the waits of a group that found no monitor and whose 3,600 ticks have passed. -/
def execMonitorPoll (s : State) : Out :=
  let a := s.cur.arg
  .next ((s.monitors.filter (fun m => m.team == a.team && m.gid == a.gid)).foldl pollMonitor s)

/-- WAIT_TIMEOUT (R147): the time of a wait has run out before its slots were met. -/
def execWaitTimeout (s : State) : Out :=
  .next (modTeam s s.cur.arg.team (fun t => modGroup t s.cur.arg.gid (fun g =>
    match g.wait with
    | .slots a m sat ws (some d) _ => if d ≤ s.gtick && !waitEnds a m sat then { g with wait := .slots a m sat ws (some d) true } else g
    | _ => g)))

/-- QUEUE_PORT_RESUME (R151): a waiting pop, or a waiting push of a held result, can be served: the group's instruction
issues again at that step. -/
def execQueuePortResume (s : State) : Out :=
  .next (modTeam s s.cur.arg.team (fun t => modGroup t s.cur.arg.gid (fun g =>
    match g.wait with
    | .port _ _ _ => { g with next := s.gtick, ready := 0 }
    | _ => g)))

/-- REGX_ACQ_GRANT (R35): the blocks a waiting REGX.ACQ asks for are given, in the order of asking. -/
def execRegxAcqGrant (s : State) : Out :=
  match waitingInstr s s.cur.arg.team s.cur.arg.gid with
  | some (.regxAcq, s) => execRegxAcq s
  | _ => .next s

/-! ### The time-out of a replay gate (R379) -/

/-- REPTO: 0 means 36,000 ticks. -/
def repTimeout (s : State) : Nat :=
  let n := bitsAt (regGet s 0x30080).toNat 16 32
  if n = 0 then 36000 else n

/-- REPLAY_GATE_TIMEOUT: the agent that the gate's chunk names has not come in time: the divergence opens every gate. -/
def execReplayGateTimeout (s : State) : Out :=
  let slice := s.cur.arg.slice
  let l := logOf s slice
  let due := replaying s && !s.gatesOpen && decide (l.gateChunk < (regGet s (0x30400 + 8 * slice)).toNat) &&
    (match l.gateSince with
     | some t => decide (t + repTimeout s ≤ s.gtick)
     | none => false)
  let chunk := memRead s (chunkAddr s slice l.gateChunk) 4
  if due then
    .next (diverge s (traceHeader s 5 0 0xFFFF 0 0 0) (bytesOf 8 0 ++ bytesOf 1 3 ++ bytesOf 2 slice ++ bytesOf 1 0 ++ chunk))
  else .next s

end Sys2Proof.Machine
end

