-- ==== Sys2Proof/Machine/SaveArea.lean ====
section
/-!
DEFINITION. What a save writes (R442, R443, R445, R446): thread entries, warp entries, team records, GAM sections and the
header of a save area. Where the spec names a part and not its layout, the layout is the model's.
-/

namespace Sys2Proof.Machine

def padTo (n : Nat) (l : List Byte) : List Byte := (l ++ List.replicate (n - l.length) 0).take n

/-- NWARP (R442): the home warps up to the last one formed. -/
def warpCount (t : Team) : Nat :=
  (upto t.warps.length).foldl (fun m w => if (warpOf t w).formed then w + 1 else m) 0

/-- The sub-warps of a home warp, in the order in which they are saved. -/
def subWarps (t : Team) (w : Nat) : List Grp := t.groups.filter (fun g => !g.formation && g.warp == w)

/-! ### Thread entries (R443) -/

def flagBits (l : List Bool) : Nat := ofBytes [maskOf 8 ((upto l.length).filter (fun i => l.getD i false))]

/-- The thread entry of 256 bytes. Threads of formations and bins are back in their home warps by then. -/
def threadEntry (t : Team) (tid : Nat) : List Byte :=
  let th := threadOf t tid
  let subs := subWarps t (tid / 32)
  let ix := subs.findIdx (fun g => g.lanes.any (fun l => l.2 == tid))
  let g := subs[ix]?
  let code := match g with
    | some g => (match g.park with
        | some p => p.code.toNat
        | none => if g.handler then g.code.toNat else 0)
    | none => 0
  let flags := flagBits [th.live, th.helper, g.any (·.park.isSome), g.any (·.handler), g.any (·.masked),
    g.any (fun g => match g.wait with
      | .rejoin _ _ => true
      | _ => false), th.sat]
  padTo 256 ((upto 32).flatMap (fun i => bytesOf 4 (th.v.getD i 0).toNat) ++
    bytesOf 8 ((g.map (·.pc.toNat)).getD 0) ++ bytesOf 4 th.clk.toNat ++ bytesOf 4 th.lstat.toNat ++
    bytesOf 1 (th.p ||| 1).toNat ++ bytesOf 1 flags ++ bytesOf 2 code ++ bytesOf 1 (if g.isSome then ix else 0) ++
    bytesOf 3 0 ++ bytesOf 4 (th.pend.getD 0 0).toNat ++ bytesOf 4 (th.pend.getD 1 0).toNat)

/-! ### Warp entries (R443) -/

/-- A wait-condition slot as armed, with its satisfied bit, in 32 bytes. -/
def condBytes (c : Cond) (sat : Bool) : List Byte :=
  let pack := fun (kind b2 b3 v a : Nat) =>
    padTo 32 (bytesOf 1 kind ++ bytesOf 1 (if sat then 1 else 0) ++ bytesOf 1 b2 ++ bytesOf 1 b3 ++ bytesOf 4 v ++ bytesOf 8 a)
  match c with
  | .empty => pack 0 0 0 0 0
  | .addr va test v => pack 1 test.toNat 0 v.toNat va.toNat
  | .bcb o => pack 2 0 0 0 o.toNat
  | .queue o room n => pack 3 (if room then 1 else 0) n 0 o.toNat
  | .counter va target sc => pack 4 sc.toNat 0 target.toNat va.toNat
  | .phase cl id target => pack 5 (if cl then 1 else 0) id target.toNat 0

def waitKind (w : Wait) : Nat :=
  match w with
  | .none => 0
  | .rcv => 1
  | .rejoin _ _ => 2
  | .bar _ _ _ => 3
  | .slots _ _ _ _ _ _ => 4
  | .lanes _ _ => 5
  | .port _ _ _ => 6
  | .quartet _ => 7
  | .verdict => 8
  | .publish _ _ _ _ _ => 9
  | .retry _ => 10
  | .score _ => 11

/-- The satisfied bits and the ticks left of the wait on slots that a home warp is in. -/
def slotsOf (t : Team) (w : Nat) : BitVec 4 × Nat :=
  (subWarps t w).foldl (fun b g => match g.wait with
    | .slots _ _ sat _ d _ => (sat, d.getD (2 ^ 64 - 1))
    | _ => b) (0, 0)

/-- The offset that a port's binding names. -/
def portOffset (t : Team) (i : Nat) : Nat :=
  match boundKey t i with
  | some _ => (t.portOffs.getD i 0).toNat
  | none => 2 ^ 32 - 1

/-- The warp entry of 4 KiB. -/
def warpEntry (t : Team) (w : Nat) : List Byte :=
  let x := warpOf t w
  let subs := subWarps t w
  let (sat, ticks) := slotsOf t w
  let sub := fun (g : Grp) =>
    bytesOf 8 g.pc.toNat ++ bytesOf 4 (laneMask g.lanes).toNat ++
      bytesOf 4 (laneMask (g.lanes.filter (fun l => !g.done.any (fun m => m.tid == l.2)))).toNat
  let misc := bytesOf 8 x.gbase.toNat ++ bytesOf 4 x.nmon.toNat ++ bytesOf 4 x.nema.toNat ++
    bytesOf 8 x.storehash.toNat ++ bytesOf 8 (x.ssbind.getD 0).toNat ++ bytesOf 1 (x.c ||| 1).toNat ++
    bytesOf 1 (subs.foldl (fun m g => max m g.pstep) 0) ++ bytesOf 1 (x.partner.getD 255) ++
    bytesOf 1 (if x.token then 1 else 0) ++ bytesOf 4 (subs.foldl (fun m g => max m (waitKind g.wait)) 0) ++ bytesOf 8 ticks
  padTo 4096 ((upto 64).flatMap (fun i => bytesOf 8 (uReg x i).toNat) ++
    (upto 16).flatMap (fun i => bytesOf 64 (x.h.getD i 0).toNat) ++
    (upto 4).flatMap (fun i => bytesOf 8 (x.md.getD i 0).toNat) ++
    (upto 4).flatMap (fun i => condBytes (x.wc.getD i .empty) (sat.getLsbD i)) ++
    (upto 8).flatMap (fun i => bytesOf 4 (portOffset t i)) ++
    padTo 256 (x.stack.flatMap (fun r => bytesOf 8 r.target.toNat ++ bytesOf 4 r.mask.toNat)) ++
    padTo 512 (subs.flatMap sub) ++ padTo 64 misc)

/-- The extended blocks of some quads, in ascending order. -/
def extBytes (t : Team) (f : Nat → Bool) : List Byte :=
  (t.ext.filter (fun e => f e.1)).flatMap (fun e => (upto 128).flatMap (fun i => bytesOf 4 (e.2.getD i 0).toNat))

/-! ### Team records (R442) -/

/-- A barrier of the record: phase, arrivals, expected count, and the quartets with a warp that waits. -/
def barBytes (s : State) (k : Nat) (t : Team) (id : Nat) : List Byte :=
  if 16 ≤ id ∧ t.info.rank ≠ 0 then List.replicate 16 0
  else
    let b := barOf s t id
    let waits := t.groups.filter (fun g => match g.wait with
      | .bar i _ _ => i == id
      | _ => false)
    bytesOf 4 b.phase.toNat ++ bytesOf 4 (b.arrived.length + b.gone) ++ bytesOf 4 (expected s k id) ++
      bytesOf 4 (maskOf 32 (waits.map (fun g => g.warp / 4))).toNat

def windowWord (w : Window) : Nat :=
  w.base + w.size % 2 ^ 22 * 2 ^ 32 + w.swz.toNat * 2 ^ 56 + (if w.chk then 2 ^ 58 else 0)

/-- An engine record: the command, then the unit at which it resumes and the bytes of it that are done. -/
def opBytes (o : EngOp) : List Byte :=
  padTo 128 (padTo 64 o.cmd ++ bytesOf 8 o.unit ++ bytesOf 8 o.done)

/-- The tag storage of a team: 16 bytes for each 32-byte granule of the 4 KiB blocks that checked windows cover (R95). -/
def tagStorage (t : Team) : List Byte :=
  let blocks := ((t.windows.filter (fun w => w.chk && w.size != 0)).flatMap (fun w =>
    (upto ((w.base + w.size - 1) / 4096 - w.base / 4096 + 1)).map (· + w.base / 4096))).foldl nadd []
  blocks.flatMap (fun b => (upto 128).flatMap (fun i => bytesOf 16 (cget 0 t.tags (128 * b + i)).toNat))

/-- The presence bits, one for each 128-byte line. -/
def presenceBytes (t : Team) : List Byte :=
  (upto ((t.info.scrBytes / 128 + 7) / 8)).map (fun i =>
    maskOf 8 ((upto 8).filter (fun j => !t.absent.contains (8 * i + j))))

/-- A team record. -/
def teamRecord (s : State) (k : Nat) (t : Team) (status : Nat) (ops : List EngOp) : List Byte :=
  let n := warpCount t
  let body := (upto 24).flatMap (barBytes s k t) ++
    ((upto 64).flatMap (fun i => bytesOf 16 (t.cbt.getD i 0).toNat) ++
      (upto 16).flatMap (fun i => bytesOf 8 (windowWord (t.windows.getD i noWindow)))) ++
    ops.flatMap opBytes ++ (upto n).flatMap (warpEntry t) ++ (upto (32 * n)).flatMap (threadEntry t) ++
    extBytes t (fun _ => true) ++ cellsRead t.scratch 0 t.info.scrBytes ++ presenceBytes t ++ tagStorage t
  padTo 256 (bytesOf 2 status ++ bytesOf 6 0 ++ bytesOf 8 (launchWord t.info).toNat ++ bytesOf 4 t.info.index ++
    bytesOf 1 t.info.rank ++ bytesOf 1 t.info.pcls.toNat ++ bytesOf 2 n ++ bytesOf 4 ops.length ++
    bytesOf 4 t.info.scrBytes ++ bytesOf 8 (256 + body.length)) ++ body

/-! ### GAM sections (R445) -/

/-- A slot: its 8 KiB and its NF bit. -/
def gamSlotBytes (x : GamSlot) : List Byte :=
  (upto 2048).flatMap (fun i => bytesOf 4 (cget 0 x.elems i).toNat) ++ bytesOf 4 (if x.nf then 1 else 0)

/-- A section: the core number, the masks of headers and slots, the slots, the headers. -/
def gamSection (x : GamSaved) : List Byte :=
  bytesOf 4 x.core ++ bytesOf 4 (maskOf 16 (x.headers.map (·.1))).toNat ++
    bytesOf 32 (maskOf 256 (x.gam.map (·.1))).toNat ++ x.gam.flatMap (fun e => gamSlotBytes e.2) ++
    x.headers.flatMap (fun e => bytesOf 4 e.2.p1.toNat ++ bytesOf 4 e.2.p2.toNat ++ bytesOf 4 e.2.t.toNat)

/-! ### The areas -/

/-- CTXSAVE and CTXSWAP (R439, R446). -/
def saveBase (s : State) (c : Nat) : Nat := (regGet s (0x80640 + 8 * c)).toNat
def swapBase (s : State) (c : Nat) : Nat := (regGet s (0x80780 + 8 * c)).toNat

/-- The 64-byte header of a save area (R442). -/
def areaHeader (now teams sections first : Nat) : List Byte :=
  padTo 64 (bytesOf 4 0x56415343 ++ bytesOf 4 teams ++ bytesOf 8 now ++ bytesOf 4 sections ++ bytesOf 4 first)

/-- What a warp swapped out at the quantum leaves in its place of the swap area (R446). -/
def swapBytes (t : Team) (w : Nat) : List Byte :=
  warpEntry t w ++ (upto 32).flatMap (fun l => threadEntry t (32 * w + l)) ++ extBytes t (fun q => q / 8 == w)

/-- The position of a home warp (R446): its first slot div 32. -/
def warpPlace (t : Team) (w : Nat) : Nat :=
  match ((upto 32).map (· + 32 * w)).find? (fun i => (threadOf t i).seated) with
  | some i => (threadOf t i).slot / 32
  | none => 0

def swapAddr (s : State) (t : Team) (w : Nat) : Nat :=
  swapBase s t.info.ctx + 2 * 2 ^ 20 * t.core + 16384 * warpPlace t w

end Sys2Proof.Machine
end

