-- ==== Sys2Proof/Machine/Context.lean ====
section
/-!
DEFINITION. Saving and restoring contexts (R438 to R449), the swap-out at a breakpoint and what DBGRES does (R374, R375,
R446), the end of a residency quantum (R40, R165), and the checkpoint engine (R186).
-/

namespace Sys2Proof.Machine

/-! ### Names of a team -/

def renameKey (old new q : Nat) : Nat := if q / 2 ^ 32 = old then 2 ^ 32 * new + q % 2 ^ 32 else q

def renameWaiter (old new : Nat) (x : Nat × Nat) : Nat × Nat := if x.1 = old then (new, x.2) else x

def renamePorts (old new : Nat) (t : Team) : Team := { t with ports := t.ports.map (fun p => p.map (renameKey old new)) }

def renameOp (old new : Nat) (o : EngOp) : EngOp :=
  { o with team := if o.team = old then new else o.team,
           lines := o.lines.map (fun y => if y.1 = old then (new, y.2) else y) }

/-- The barriers of a cluster whose team is named otherwise. -/
def renameCluster (old new : Nat) (c : Cluster) : Cluster :=
  { teams := c.teams.map (fun j => if j = old then new else j),
    bars := c.bars.map (fun b => { b with arrived := b.arrived.map (fun a =>
      if a / 8192 = old then 8192 * new + a % 8192 else a) }) }

/-- A team that is known by another key from now on: in clusters, queues, port bindings and engine operations. -/
def renameTeam (s : State) (old new : Nat) : State :=
  let move := fun (q : Queue) =>
    { q with poppers := q.poppers.map (renameWaiter old new), pushers := q.pushers.map (renameWaiter old new) }
  { s with
    teams := s.teams.map (fun x => (x.1, renamePorts old new x.2)),
    saved := s.saved.map (fun x => { x with team := renamePorts old new x.team, ops := x.ops.map (renameOp old new) }),
    clusters := s.clusters.map (fun x => (x.1, renameCluster old new x.2)),
    queues := s.queues.foldl (fun l q => tset l (renameKey old new q.1) (move q.2)) [],
    ops := s.ops.map (renameOp old new) }

/-- A key that no team, resident or saved, has. -/
def freshKey (s : State) : Nat := (s.saved.map (·.key)).foldl max (2 ^ 20) + 1

/-! ### Regrouped threads (R165, R440) -/

/-- Threads of some home warps leave their formations and bins for their home warps, where they stay regrouped. -/
def unform (now : Nat) (t : Team) (home : Nat → Bool) : Team :=
  let mine := fun (l : List (Nat × Nat)) => l.filter (fun x => home (x.2 / 32))
  let forms := t.groups.filter (fun g => g.formation && !(mine g.lanes).isEmpty)
  let filed := t.bins.filterMap (fun b =>
    let l := mine (b.filed.map (fun x => (0, x.1)))
    if l.isEmpty then none else some (b, l.map (·.2)))
  let t1 := withoutThreads t (forms.flatMap (fun g => (mine g.lanes).map (·.2)))
  let t1 := { t1 with bins := (t1.bins.map (fun b =>
    { b with filed := b.filed.filter (fun x => !home (x.1 / 32)) })).filter (fun b => !b.filed.isEmpty) }
  let add := fun (t : Team) (g : Grp) (ids : List Nat) =>
    ((ids.map (· / 32)).eraseDups).foldl (fun t w => addGroup t (fun gid =>
      { g with gid := gid, formation := false, warp := w, slice := w % 4, masked := true, formed := now,
               lanes := homeLanes (ids.filter (fun i => i / 32 == w)),
               done := g.done.filter (fun m => m.tid / 32 == w) })) t
  let t2 := forms.foldl (fun t g => add t g ((mine g.lanes).map (·.2))) t1
  filed.foldl (fun t x => add t (putInside x.1.inside (Grp.fresh 0 0 now [] x.1.key)) x.2) t2

/-- Regrouped threads that hold nothing of an instruction are filed again under their PC. -/
def refile (now : Nat) (t : Team) (home : Nat → Bool) : Team :=
  (t.groups.filter (fun g => g.masked && home g.warp && g.wait == .none && g.pstep == 0 && g.done.isEmpty &&
    g.park.isNone)).foldl (fun t g => fileLanes now t g g.pc g.lanes) t

/-! ### What a save does to a team -/

/-- Every open spawn bin of a team forms its home warp (R440 step 2). -/
def formSpawns (s : State) (k : Nat) : State :=
  match tget s.teams k with
  | some t => t.spawnBins.foldl (fun s b => formSpawn s k b) s
  | none => s

/-- The answers that a team's requests still lack (R440 step 3). -/
def answerAll (s : State) (k : Nat) : State :=
  ((coreOf s (k / 128)).reqs.filter (fun r => r.team == k)).foldl (fun s r => answerReq s (k / 128) r.id r.store) s

/-- The core of a team owes it nothing more. -/
def quietCore (s : State) (k : Nat) : State :=
  let s := answerAll s k
  modCore s (k / 128) (fun c => { c with
    array := (match c.array with
      | some a => if a.1 = k then none else some a
      | none => none),
    regxWait := c.regxWait.filter (fun x => x.1 != k) })

/-- Waits as they are saved (R444): ticks left instead of a deadline; a verdict has come. -/
def stillWait (now : Nat) (g : Grp) : Grp :=
  match g.wait with
  | .slots a m sat ws (some d) e => { g with wait := .slots a m sat ws (some (d - now)) e }
  | .verdict => { g with wait := .none }
  | _ => g

/-- The team as its record shows it. -/
def stillTeam (now : Nat) (t : Team) : Team :=
  let t := unform now t (fun _ => true)
  { t with groups := t.groups.map (stillWait now), warps := t.warps.map (fun w => { w with swapped := false }) }

/-- Where the next record of a save area goes. -/
def nextRecord (c : Ctx) : Nat := (max c.used 64 + 4095) / 4096 * 4096

/-- Writes a team's record at the end of its context's save area and counts it. -/
def writeRecord (s : State) (k : Nat) (t : Team) (status : Nat) (ops : List EngOp) : State :=
  let c := t.info.ctx
  let at' := nextRecord (ctxOf s c)
  let rec' := teamRecord s k t status ops
  modCtx (memWrite s (saveBase s c + at') rec') c (fun x => { x with used := at' + rec'.length, records := x.records + 1 })

/-- The operations of a team that a save stops: a checkpoint runs on. -/
def opsOf (s : State) (k : Nat) : List EngOp := s.ops.filter (fun o => o.team == k && o.eng != 6)

/-- A team leaves its core for the save area. -/
def stowTeam (s : State) (k status : Nat) : State :=
  match tget s.teams k with
  | none => s
  | some t0 =>
    let t := stillTeam s.gtick t0
    let ops := opsOf s k
    let s := setTeam s k t
    let place := nextRecord (ctxOf s t.info.ctx)
    let ticket := (ctxOf s t.info.ctx).records
    let s := writeRecord s k t status ops
    let key := freshKey s
    let x : Saved :=
      { ctx := t.info.ctx, status := status, ticket := ticket, offset := place, key := key, team := t, ops := ops,
        action := none }
    let s := { s with
      teams := tdel s.teams k, saved := s.saved ++ [x],
      ops := s.ops.filter (fun o => !ops.any (fun y => y.id == o.id)),
      monitors := s.monitors.filter (fun m => m.team != k), swaps := s.swaps.filter (fun y => y.team != k) }
    renameTeam s k key

/-! ### Breakpoint swap-out (R374, R446) -/

/-- An operation that moves entries through a queue and cannot go on: it waits for a group at the queue's other end. -/
def atQueue (s : State) (o : EngOp) : Bool :=
  o.phase == .stalled && !resumable s o &&
    [(0, 3), (0, 4), (1, 2), (2, 1), (2, 2)].contains (o.eng, cmdOp o.cmd)

/-- Operations of the team that run on and complete before its record is written (R374). Those that wait at a queue stop
there and complete when the team is back (DESIGN CHOICE, log 64). -/
def opsMove (s : State) (k : Nat) : Bool := (opsOf s k).any (fun o => !atQueue s o)

/-- A LAUNCH of a team that has a slot and has not published. -/
def publishing (t : Team) : Bool :=
  t.groups.any (fun g => match g.wait with
    | .publish _ _ _ _ _ => true
    | _ => false)

def swapOutDue (s : State) (k : Nat) (t : Team) : Bool := t.brk.isSome && !opsMove s k && !publishing t

/-- The record area's header, with its team count. -/
def writeHeader (s : State) (c sections first : Nat) : State :=
  memWrite s (saveBase s c) (areaHeader s.gtick (ctxOf s c).records sections first)

/-- The record of the hit bears the tick at which it happened (R371). -/
def breakOut (s : State) (k : Nat) : State :=
  match tget s.teams k with
  | none => s
  | some t =>
    let s := quietCore (formSpawns s k) k
    let s := releaseCore s t.core 2
    let parked := (t.groups.find? (fun g => match g.park with
      | some p => p.code == 0x41
      | none => false)).getD (Grp.fresh 0 0 0 [] 0)
    let ticket := (ctxOf s t.info.ctx).records
    let (mask, va, watch, tick) := t.brk.getD (0, 0, 0xFFFF, s.gtick)
    let header := traceHeader { s with gtick := tick } (if watch = 0xFFFF then 3 else 4) t.info.ctx t.core (recordSlot t parked) parked.warp parked.pc
    let s := writeHeader (stowTeam s k 3) t.info.ctx 0 0
    traceRecord s (header ++ bytesOf 4 ticket ++ bytesOf 4 mask ++ bytesOf 8 va.toNat ++ bytesOf 2 watch.toNat)

/-- BREAKPOINT_SWAP_OUT: a team that a breakpoint has stopped leaves for the save area. -/
def execBreakpointSwapOut (s : State) : Out :=
  match tget s.teams s.cur.arg.team with
  | none => .next s
  | some t => .next (if swapOutDue s s.cur.arg.team t then breakOut s s.cur.arg.team else s)

/-! ### The save of a context (R440, R449) -/

def teamsOf (s : State) (c : Nat) : List (Nat × Team) := s.teams.filter (fun t => t.2.info.ctx == c)

/-- A launch of class 10 or 11 of the context is under way (R438). -/
def holdsSave (s : State) (c : Nat) : Bool :=
  (teamsOf s c).any (fun t => decide (2 ≤ t.2.info.pcls.toNat)) ||
    (upto 64).any (fun q => queueCtx s q == c && (match (lqOf s q).headRec with
      | some h => decide (0 < h.placed) && decide (2 ≤ recPcls h.record)
      | none => false))

/-- Steps 1 and 2. -/
def beginSave (s : State) (c : Nat) : State :=
  let s := modCtx { s with preSave := none } c (fun x => { x with stat := 1 })
  (teamsOf s c).foldl (fun s t => formSpawns s t.1) s

/-- Nothing of the context stands against the save any more. -/
def saveReady (s : State) (c : Nat) : Bool := !(teamsOf s c).any (fun t => publishing t.2)

/-- The units that have been moved are counted; the others stop where they are (R441). -/
def endUnits (s : State) (k : Nat) : State :=
  ((opsOf s k).filter (fun o => o.phase == .unitDone)).foldl (fun s o => unitEnd s o) s

/-- A team is saved. One that has ended altogether is recorded as complete, and its launch has it no more. -/
def saveTeam (s : State) (k : Nat) : State :=
  match tget s.teams k with
  | none => s
  | some t =>
    let s := endUnits (quietCore s k) k
    let live := t.threads.any (·.live)
    if live then stowTeam s k 0
    else if !(opsOf s k).isEmpty then stowTeam s k 2
    else
      let s := dropTeam (writeRecord s k (stillTeam s.gtick t) 1 []) k t
      match tget s.launches t.info.launch with
      | some l => tryComplete { s with launches := tset s.launches t.info.launch { l with left := l.left - 1 } } t.info.launch
      | none => s

/-- The slots and headers of a core that a context owns. -/
def ownedGam (s : State) (c core : Nat) : GamSaved :=
  { ctx := c, core := core, gam := (coreOf s core).gam.filter (fun e => e.2.owner == some c),
    headers := (coreOf s core).headers.filter (fun e => e.2.owner == some c) }

/-- Frees them, as a save leaves them. -/
def freeGam (s : State) (c core : Nat) : State :=
  modCore s core (fun x => { x with gam := x.gam.filter (fun e => e.2.owner != some c),
                                    headers := x.headers.filter (fun e => e.2.owner != some c) })

/-- The GAM sections of a context go to its save area, and their slots and headers are free. -/
def saveGam (s : State) (c : Nat) : State × Nat × Nat :=
  let parts := (s.cores.map (fun x => ownedGam s c x.1)).filter (fun p => !p.gam.isEmpty || !p.headers.isEmpty)
  let first := nextRecord (ctxOf s c)
  let bytes := parts.flatMap gamSection
  let s := parts.foldl (fun s p => freeGam s c p.core) { s with gamSaved := s.gamSaved ++ parts }
  if parts.isEmpty then (s, 0, 0)
  else (modCtx (memWrite s (saveBase s c + first) bytes) c (fun x => { x with used := first + bytes.length }),
        parts.length, first)

/-- A system-scope release by the device: what L2 holds of far memory is written back. -/
def deviceRelease (s : State) : State := { s with squares := s.squares.map (fun e => (e.1, { e.2 with dirty := 0 })) }

/-- Steps 3 to 6 of a save. -/
def saveContext (s : State) (c : Nat) : State :=
  let ks := (teamsOf s c).map (·.1)
  let cores := (ks.map (· / 128)).eraseDups
  let s := cores.foldl (fun s core => releaseCore s core 2) s
  let s := ks.foldl (fun s k => match tget s.teams k with
    | some t => if t.brk.isSome then breakOut s k else saveTeam s k
    | none => s) s
  let (s, n, first) := saveGam s c
  modCtx (deviceRelease (writeHeader s c n first)) c (fun x => { x with stat := 2 })

/-- PRECTL_SAVE (R438 to R440). -/
def execPrectlSave (s : State) : Out :=
  let v := s.cur.arg.v
  let c := v.toNat % 16
  if busySwitching s then .next s
  else
    let s := regSet s 0x80600 (BitVec.ofNat 64 c)
    if (ctxOf s c).stat ≠ 0 then .next s
    else .next (if holdsSave s c then { s with preSave := some c } else beginSave s c)

/-- A checkpoint is under way. -/
def ckpRuns (s : State) : Bool := s.ops.any (fun o => o.eng == 6 && o.phase == .running)

/-- The context that a save is under way for, and that can be finished. -/
def saveDue (s : State) : Option Nat :=
  if ckpRuns s then none
  else (upto 16).find? (fun c => ((ctxOf s c).stat == 1 && saveReady s c) || (s.preSave == some c && !holdsSave s c))

/-- CONTEXT_SAVE_COMPLETE. A save that has waited for classes 10 and 11 starts first. -/
def execContextSaveComplete (s : State) : Out :=
  match saveDue s with
  | none => .next s
  | some c =>
    let s := if (ctxOf s c).stat = 0 then beginSave s c else s
    .next (if saveReady s c then saveContext s c else s)

/-! ### Where a saved team fits (R447) -/

def liveWarps (t : Team) (slice : Nat) : List Nat :=
  (upto t.warps.length).filter (fun w => (warpOf t w).formed && w % 4 == slice)

def extOnSlice (t : Team) (slice : Nat) : Nat := (t.ext.filter (fun e => e.1 / 8 % 4 == slice)).length

/-- The threads of a team that hold a slot on a slice. -/
def seatedOn (t : Team) (slice : Nat) : List Nat :=
  (upto t.threads.length).filter (fun i => (threadOf t i).seated && i / 32 % 4 == slice)

/-- R160 for a team whose state is known. -/
def fitsSaved (s : State) (t : Team) (core : Nat) : Bool :=
  let ts := coreTeams s core
  let used := (sramRuns s core).foldl (fun n x => n + x.2) (t.info.scrBytes + t.info.tagBytes)
  let l1 := ts.foldl (fun m x => max m x.2.info.l1min) t.info.l1min
  readyBit s (64 + core / 8) && decide (ts.length < 128) &&
    (upto 4).all (fun sl => decide ((seatedOn t sl).length ≤ (freeSlots s core sl).length) &&
      decide (blocksHeld s core sl + extOnSlice t sl ≤ 128)) &&
    (sramPlace s core t.info.scrBytes t.info.tagBytes).isSome && decide (used + l1 ≤ 2 ^ 22)

/-- The core with the fewest resident threads, the lowest among ties. -/
def fewest (s : State) (cores : List Nat) : Option Nat :=
  (cores.foldl (fun (b : Option (Nat × Nat)) c =>
    let n := coreThreads s c
    match b with
    | none => some (n, c)
    | some x => if n < x.1 then some (n, c) else some x) none).map (·.2)

/-! ### Putting a team back -/

/-- A wait goes on: the ticks that are left count from now. -/
def wakeWait (now : Nat) (g : Grp) : Grp :=
  let g := { g with next := now, ready := now, formed := now }
  match g.wait with
  | .slots a m sat ws (some d) e => { g with wait := .slots a m sat ws (some (now + d)) e }
  | _ => g

/-- The team in its new place: the lowest free slots for its threads, every CLK one higher (R447). -/
def reseat (s : State) (t : Team) (core no : Nat) : Team :=
  let now := s.gtick
  let place := (sramPlace s core t.info.scrBytes t.info.tagBytes).getD (0, 0)
  let seats := (upto 4).flatMap (fun sl => (seatedOn t sl).zip (freeSlots s core sl))
  let t := seats.foldl (fun t x => modThread t x.1 (fun th => { th with slot := x.2 })) t
  let t := modThreads t (allThreads t) bumpClk
  let t := { t with core := core, no := no, brk := none,
                    info := { t.info with scrBase := place.1, tagBase := place.2 },
                    warps := t.warps.map (fun w => { w with since := now }),
                    groups := t.groups.map (wakeWait now) }
  refile now t (fun _ => true)

/-- The waits on memory words look again and take their monitors anew (R444). -/
def rearm (k : Nat) (s : State) (g : Grp) : State :=
  match tget s.teams k, g.wait with
  | some t, .slots a m sat ws d e =>
    let w := warpOf t g.warp
    let (sat, ws) := if e then (sat, ws) else lookSlots s k t w (fun _ => true) sat ws
    let s := setTeam s k (modGroup t g.gid (fun x => { x with wait := .slots a m sat ws d e }))
    if e then s else slotMonitors s k g.gid w sat ws
  | some t, .lanes test l =>
    let l := l.map (fun (x : LaneWait) =>
      if x.got.isNone && x.gate.isNone && testHolds test (testWord s x.pa) x.value then
        metLane (testWord s x.pa) (poisoned s x.pa 4) (cget 0 s.tags (x.pa / 32)) x
      else x)
    let s := setTeam s k (modGroup t g.gid (fun x => { x with wait := .lanes test l }))
    (l.filter (fun (x : LaneWait) => x.got.isNone && x.gate.isNone)).foldl (fun s (x : LaneWait) => takeMonitor s
      { pa := x.pa, test := test, value := x.value, team := k, gid := g.gid, tid := some x.tid, slot := none,
        counter := false, poll := 0, polled := false }) s
  | _, _ => s

/-- The SLOT that an operation's issuer has now. -/
def newSlot (old new : Team) (slot : Nat) : Nat :=
  match (upto old.threads.length).find? (fun i => (threadOf old i).live && (threadOf old i).slot == slot) with
  | some i => (threadOf new i).slot
  | none => slot

/-- A saved team is placed on a core, with its engine operations, which go on in the order of their acceptance. -/
def placeSaved (s : State) (x : Saved) (core : Nat) : State :=
  let no := freeTeamNo s core
  let k := teamKey core no
  let t := reseat s x.team core no
  let inst := fun (o : EngOp) =>
    if o.phase = .queued ∨ o.phase = .kicked then o.inst
    else if o.eng = 2 then core / 8 else if o.eng = 3 then o.inst else if o.eng = 4 then core / 96 else core
  let ops := x.ops.map (fun o => { o with core := core, team := k, inst := inst o, slot := newSlot x.team t o.slot })
  let all := sortBy (fun (a b : EngOp) => decide (a.id ≤ b.id)) (s.ops ++ ops)
  let s := { s with saved := s.saved.filter (fun y => y.key != x.key), ops := all }
  let s := ranOn (renameTeam (setTeam s k t) x.key k) t.info.launch core
  let s := t.groups.foldl (rearm k) s
  takeTraps k trapFuel s

/-! ### The restore of a context (R445, R447) -/

/-- The section of a core among those of a context. -/
def sectionOf (s : State) (c core : Nat) : Option GamSaved := s.gamSaved.find? (fun p => p.ctx == c && p.core == core)

/-- The numbers of a section are owned by no context on a core. -/
def gamFree (s : State) (p : GamSaved) (core : Nat) : Bool :=
  p.gam.all (fun e => (gamSlot (coreOf s core) e.1).owner.isNone) &&
    p.headers.all (fun e => (match tget (coreOf s core).headers e.1 with
      | some h => h.owner.isNone
      | none => true))

def loadGam (s : State) (p : GamSaved) (core : Nat) : State :=
  let s := modCore s core (fun c =>
    { c with gam := p.gam.foldl (fun l e => tset l e.1 e.2) c.gam,
             headers := p.headers.foldl (fun l e => tset l e.1 e.2) c.headers })
  { s with gamSaved := s.gamSaved.filter (fun q => q != p) }

/-- Old cores whose section has been loaded, and where. -/
abbrev Pins := List (Nat × Nat)

def pinOk (s : State) (pins : Pins) (c old core : Nat) : Bool :=
  match pins.find? (fun p => p.1 == old) with
  | some p => p.2 == core
  | none => match sectionOf s c old with
    | some p => gamFree s p core
    | none => true

/-- Places the members of a cluster on distinct cores of a list. -/
def seatOn (cores : List Nat) : List Saved → List Nat → Pins → State → Option (State × Pins)
  | [], _, pins, s => some (s, pins)
  | x :: rest, used, pins, s =>
    match fewest s (cores.filter (fun c => !used.contains c && pinOk s pins x.ctx x.team.core c && fitsSaved s x.team c)) with
    | none => none
    | some c =>
      let (s, pins) := match sectionOf s x.ctx x.team.core with
        | some p => (loadGam s p c, (x.team.core, c) :: pins)
        | none => (s, pins)
      seatOn cores rest (c :: used) pins (placeSaved s x c)

/-- The cores of a core cluster. -/
def clusterOfCores (k : Nat) : List Nat := (upto 8).map (· + 8 * k)

/-- Core clusters by their resident threads, the lowest number among ties. -/
def rankClusters (s : State) : List Nat :=
  (sortBy (fun (a b : Nat × Nat) => decide (a.1 < b.1) || (a.1 == b.1 && decide (a.2 ≤ b.2)))
    ((upto 96).map (fun k => ((clusterOfCores k).foldl (fun n c => n + coreThreads s c) 0, k)))).map (·.2)

def seatCluster (l : List Saved) (pins : Pins) (s : State) : Option (State × Pins) :=
  (rankClusters s).findSome? (fun k => seatOn (clusterOfCores k) l [] pins s)

/-- Places the records of several clusters, one after another. -/
def seatAll (ls : List (List Saved)) (pins : Pins) (s : State) : Option State :=
  (ls.foldl (fun (acc : Option (State × Pins)) l => acc.bind (fun x => seatCluster l x.2 x.1)) (some (s, pins))).map (·.1)

/-- The records of a context that a restore places, by cluster. -/
def toRestore (s : State) (c : Nat) : List (List Saved) :=
  let l := s.saved.filter (fun x => x.ctx == c && x.status != 3)
  ((l.map (fun x => x.team.info.cluster)).eraseDups).map (fun j => l.filter (fun x => x.team.info.cluster == j))

/-- Sections of cores that no team ran on go where their numbers are free, to their own core first. -/
def loadRest (c : Nat) : List GamSaved → State → Option State
  | [], s => some s
  | p :: rest, s =>
    match (p.core :: upto 768).find? (gamFree s p) with
    | some core => loadRest c rest (loadGam s p core)
    | none => none

/-- Places every record of the context, or nothing. -/
def tryRestore (s : State) (c : Nat) : Option State :=
  match seatAll (toRestore s c) [] s with
  | none => none
  | some s => match loadRest c (s.gamSaved.filter (fun p => p.ctx == c)) s with
    | none => none
    | some s =>
      let left := s.saved.filter (fun x => x.ctx == c)
      let ends := left.map (fun x => x.offset + (teamRecord s x.key x.team x.status x.ops).length)
      some (modCtx (deviceRelease s) c (fun y =>
        { y with stat := 0, records := (left.map (fun x => x.ticket + 1)).foldl max 0, used := ends.foldl max 64 }))

/-- PRECTL_RESTORE. -/
def execPrectlRestore (s : State) : Out :=
  let c := s.cur.arg.v.toNat % 16
  if busySwitching s then .next s
  else
    let s := regSet s 0x80600 (BitVec.ofNat 64 c)
    .next (if (ctxOf s c).stat = 2 then modCtx s c (fun x => { x with stat := 3 }) else s)

/-- CONTEXT_RESTORE_COMPLETE: every record is placed at once, as soon as all of them fit. -/
def execContextRestoreComplete (s : State) : Out :=
  match (upto 16).find? (fun c => (ctxOf s c).stat == 3) with
  | some c => .next ((tryRestore s c).getD s)
  | none => .next s

/-! ### DBGRES (R375, R446) -/

/-- The swapped-out team that a ticket names, for an action that has not been given yet, or has been given already. -/
def ticketed (s : State) (ticket action : Nat) : Option Saved :=
  s.saved.find? (fun x => x.status == 3 && x.ticket % 2 ^ 32 == ticket && (x.action == none || x.action == some action) &&
    (ctxOf s x.ctx).stat == 0)

/-- Where a swapped-out team may go, core cluster by core cluster in order of choice: beside the resident teams of its
cluster (R355). -/
def seatsFor (s : State) (x : Saved) : List (List Nat) :=
  let mates := (cget { teams := [], bars := [] } s.clusters x.team.info.cluster).teams.filter (fun j => (tget s.teams j).isSome)
  match mates with
  | [] => (rankClusters s).map clusterOfCores
  | j :: _ => [(clusterOfCores (j / 128 / 8)).filter (fun c => !mates.any (fun i => i / 128 == c))]

/-- The record is freed (R446). -/
def freeRecord (s : State) (x : Saved) : State := memWrite s (saveBase s x.ctx + x.offset) (bytesOf 2 4)

/-- The lanes that a breakpoint has parked go on, at their group or at the next one. -/
def unbreak (s : State) (k : Nat) (watched skip : Bool) : State :=
  match tget s.teams k with
  | none => s
  | some t =>
    let mine := t.groups.filter (fun g => match g.park with
      | some p => p.code == 0x41
      | none => false)
    let t := mine.foldl (fun t g =>
      let len := groupLen s t g.handler g.pc
      let t := if watched && !skip then modThreads t (g.lanes.map (·.2)) (fun th => { th with unwatched := true }) else t
      modGroup t g.gid (fun x =>
        { x with park := none, pc := if skip then x.pc + BitVec.ofNat 56 (4 * len) else x.pc,
                 pstep := if skip then 0 else x.pstep, done := if skip then [] else x.done })) t
    setTeam s k t

/-- Resume or skip: the team is placed, or waits for room. -/
def dbgres (action : Nat) (s : State) : State :=
  match ticketed s s.cur.arg.ticket.toNat action with
  | none => s
  | some x =>
    match (seatsFor s x).findSome? (fun l => fewest s (l.filter (fitsSaved s x.team))) with
    | none => { s with saved := s.saved.map (fun y => if y.key == x.key then { y with action := some action } else y) }
    | some core =>
      let k := teamKey core (freeTeamNo s core)
      let watched := match x.team.brk with
        | some b => b.2.2.1 != 0xFFFF
        | none => false
      takeTraps k trapFuel (unbreak (placeSaved (freeRecord s x) x core) k watched (action == 1))

def execDbgresResume (s : State) : Out := .next (dbgres 0 s)
def execDbgresSkip (s : State) : Out := .next (dbgres 1 s)

/-- Kill: the team's threads end; it needs no slots, and without engine operations no scratchpad. -/
def execDbgresKill (s : State) : Out :=
  match ticketed s s.cur.arg.ticket.toNat 2 with
  | none => .next s
  | some x =>
    let info := if x.ops.isEmpty then { x.team.info with scrBytes := 0, tagBytes := 0 } else x.team.info
    let t := { x.team with info := info, ext := [] }
    let fit := fun (core : Nat) => readyBit s (64 + core / 8) && decide ((coreTeams s core).length < 128) &&
      (sramPlace s core info.scrBytes info.tagBytes).isSome
    match (seatsFor s x).findSome? (fun l => fewest s (l.filter fit)) with
    | none =>
      .next { s with saved := s.saved.map (fun y => if y.key == x.key then { y with action := some 2 } else y) }
    | some core =>
      let k := teamKey core (freeTeamNo s core)
      .next (killTeam (placeSaved (freeRecord s x) { x with team := t } core) k)

/-! ### The end of a residency quantum (R40, R165, R438, R446) -/

/-- Whether what a group waits for before it asks again is there. -/
def askReady (s : State) (k : Nat) (t : Team) (g : Grp) (why : Why) : Bool :=
  match why with
  | .kin => (joinKin t g).isSome
  | .spawn => (spawnSlice s t).isSome
  | .array => (coreOf s t.core).array.isNone
  | .mark => !storesOpen { s with cur := { s.cur with team := k } } t g
  | .entries => decide (entriesUsed (coreOf s t.core) < 1024)
  | _ => true

/-- A sub-warp that is ready, or whose wait is over: what it asks for is there (R40). -/
def couldIssue (s : State) (k : Nat) (t : Team) (g : Grp) : Bool :=
  g.park.isNone && (match g.wait with
    | .none => true
    | .slots all mask sat _ _ e => waitEnds all mask sat || e
    | .lanes _ l => l.all (fun x => x.got.isSome || x.gate.isSome)
    | .port step q n => (match (boundKey t q).bind (queueOf s) with
      | some y => if step = 3 then canPush y (k, g.gid) n else canPop y (k, g.gid) (notHelper t g.lanes).length
      | none => true)
    | .retry why => askReady s k t g why
    | _ => false)

/-- The home warps that go out and come back together (R165). -/
def swapUnit (t : Team) (w : Nat) : List Nat :=
  let q := (upto 4).map (· + w / 4 * 4)
  if q.any (fun i => (warpOf t i).md.any (· != 0)) then q.filter (fun i => (warpOf t i).formed) else [w]

/-- A home warp that may go out: its class and its context's swap area allow it (R438, R446), and its place in the area is
free. -/
def swappable (s : State) (t : Team) (w : Nat) : Bool :=
  (warpOf t w).formed && !(warpOf t w).swapped && t.info.pcls == 0 && swapBase s t.info.ctx != 0 &&
    (ctxOf s t.info.ctx).stat == 0 && t.brk.isNone &&
    !s.swaps.any (fun y => match tget s.teams y.team with
      | some u => u.core == t.core && u.info.ctx == t.info.ctx && warpPlace u y.warp == warpPlace t w
      | none => false)

/-- Swaps a home warp out. -/
def warpOut (s : State) (k w : Nat) : State :=
  match tget s.teams k with
  | none => s
  | some t =>
    let t := unform s.gtick t (· == w)
    let s := memWrite (setTeam s k t) (swapAddr s t w) (swapBytes t w)
    { modTeam s k (fun t => modWarp t w (fun x => { x with swapped := true })) with
      swaps := s.swaps ++ [{ team := k, warp := w, since := s.gtick }] }

/-- Swaps it back in, to the same core and position. -/
def warpIn (s : State) (k w : Nat) : State :=
  match tget s.teams k with
  | none => s
  | some t =>
    let t := modWarp t w (fun x => { x with swapped := false, since := s.gtick })
    { setTeam s k (refile s.gtick t (· == w)) with swaps := s.swaps.filter (fun y => !(y.team == k && y.warp == w)) }

/-- The home warp of a core that has been resident longest among those that may go out; of several that came at once, the
first team's lowest warp (DESIGN CHOICE, log 95). -/
def longestResident (s : State) (core : Nat) : Option (Nat × Nat) :=
  ((coreTeams s core).foldl (fun (b : Option (Nat × Nat × Nat)) x =>
    ((upto x.2.warps.length).filter (swappable s x.2)).foldl (fun (b : Option (Nat × Nat × Nat)) w =>
      let since := (warpOf x.2 w).since
      match b with
      | none => some (since, x.1, w)
      | some y => if since < y.1 then some (since, x.1, w) else some y) b) none).map (·.2)

/-- Swaps out the longest-resident warps of a core, with their units, until `fits` holds. -/
def outUntil (core : Nat) (fits : State → Bool) : Nat → State → State
  | 0, s => s
  | n + 1, s =>
    if fits s then s
    else match longestResident s core with
      | none => s
      | some (k, w) => match tget s.teams k with
        | none => s
        | some t => outUntil core fits n (((swapUnit t w).filter (swappable s t)).foldl (fun s i => warpOut s k i) s)

/-- The warps that come in together have their positions and their extended blocks. -/
def canComeIn (k : Nat) (ws : List Nat) (s : State) : Bool :=
  match tget s.teams k with
  | none => false
  | some t => ws.all (fun w =>
      ((upto 32).map (· + 32 * w)).all (fun i =>
        !(threadOf t i).seated || !(usedSlots s t.core).contains (threadOf t i).slot) &&
        decide (blocksHeld s t.core (w % 4) + (t.ext.filter (fun e => e.1 / 8 == w)).length ≤ 128))

/-- A warp that is out comes in, if it can be made to fit. -/
def bringIn (s : State) (x : SwapOut) : State :=
  match tget s.teams x.team with
  | none => s
  | some t =>
    let ws := (swapUnit t x.warp).filter (fun w => (warpOf t w).swapped)
    if !(warpOf t x.warp).swapped || !(subWarps t x.warp).any (couldIssue s x.team t) || (ctxOf s t.info.ctx).stat != 0 then s
    else
      let s' := outUntil t.core (canComeIn x.team ws) 128 s
      if canComeIn x.team ws s' then ws.foldl (fun s w => warpIn s x.team w) s' else s

/-- The first `m` cores of a core cluster on which swapping warps out makes `fits` hold. -/
def coresIn (s : State) (fits : Nat → State → Bool) (m k : Nat) : Option (List Nat) :=
  let l := (clusterOfCores k).filter (fun c => fits c (outUntil c (fits c) 128 s))
  if m ≤ l.length then some (l.take m) else none

/-- Makes room on `m` cores of one core cluster. -/
def roomOn (s : State) (fits : Nat → State → Bool) (m : Nat) : State :=
  match (rankClusters s).findSome? (coresIn s fits m) with
  | some l => l.foldl (fun s c => outUntil c (fits c) 128 s) s
  | none => s

/-- A record that has no room: its next cluster gets it. -/
def makeRoomFor (s : State) (q : Nat) : State :=
  match (lqOf s q).headRec with
  | none => s
  | some x =>
    let h := (placeHead s q x).1
    if !placeDue s q || (clusterCores s h.record h.windows (nextMates h)).isSome then s
    else roomOn s (fun c s => fitsCore s h.record h.windows c) (nextMates h)

/-- A group of a team waits for a place for spawned threads. -/
def spawnWaits (s : State) (t : Team) : Bool :=
  (ctxOf s t.info.ctx).stat == 0 && t.brk.isNone && decide (t.spawnBins.length < 16) && (spawnSlice s t).isNone &&
    t.groups.any (fun g => g.wait == .retry .spawn)

/-- A team whose spawned threads wait for slots gets them. -/
def spawnRoom (s : State) (k : Nat) : State :=
  match tget s.teams k with
  | some t =>
    if spawnWaits s t then
      let fits := fun (s : State) => match tget s.teams k with
        | some t => (spawnSlice s t).isSome
        | none => true
      if fits (outUntil t.core fits 128 s) then outUntil t.core fits 128 s else s
    else s
  | none => s

/-- The warp of the whole device that has been resident longest among those that may go out. -/
def longestOfAll (s : State) : Option (Nat × Nat) :=
  ((s.cores.filterMap (fun c => longestResident s c.1)).foldl (fun (b : Option (Nat × Nat × Nat)) x =>
    let since := match tget s.teams x.1 with
      | some t => (warpOf t x.2).since
      | none => 0
    match b with
    | none => some (since, x)
    | some y => if since < y.1 then some (since, x) else b) none).map (·.2)

/-- Swaps out the longest-resident warps of the device until saved teams that wait for a place have it. -/
def outForSaved (fits : State → Bool) : Nat → State → State
  | 0, s => s
  | n + 1, s =>
    if fits s then s
    else match longestOfAll s with
      | none => s
      | some (k, w) => match tget s.teams k with
        | none => s
        | some t => outForSaved fits n (((swapUnit t w).filter (swappable s t)).foldl (fun s i => warpOut s k i) s)

/-- A team that a DBGRES is to resume finds a core. -/
def seatFound (x : Saved) (s : State) : Bool := ((seatsFor s x).findSome? (fun l => fewest s (l.filter (fitsSaved s x.team)))).isSome

/-- What waits for saved teams to be placed: restores, and resumes of teams at a breakpoint. -/
def savedWaits (s : State) : List (State → Bool) :=
  ((upto 16).filter (fun c => (ctxOf s c).stat == 3)).map (fun c s => (tryRestore s c).isSome) ++
    (s.saved.filter (fun x => x.action == some 0 || x.action == some 1)).map seatFound

/-- Room for them, where swapping out makes it. -/
def savedRoom (s : State) : State :=
  (savedWaits s).foldl (fun s fits =>
    let s' := outForSaved fits (128 * 768) s
    if fits s' then s' else s) s

/-- QUANTUM_END, on every core at once: the warps that are out come in, oldest first, and what waits for room gets it:
records, spawned threads, saved teams. -/
def execQuantumEnd (s : State) : Out :=
  if s.gtick % 65536 ≠ 0 then .next s
  else
    let s := (s.swaps.filter (fun x => x.since != s.gtick)).foldl bringIn s
    let s := queueOrder.foldl makeRoomFor s
    .next (savedRoom ((s.teams.map (·.1)).foldl spawnRoom s))

/-- There is runnable work that is not resident. -/
def quantumWork (s : State) : Bool :=
  !s.swaps.isEmpty || s.teams.any (fun x => spawnWaits s x.2) || (savedWaits s).any (fun f => !f s) ||
    (upto 64).any (fun q => match (lqOf s q).headRec with
      | some _ => placeDue s q && !placeReady s q
      | none => false)

/-! ### CKP (R186, R441) -/

/-- Where a checkpoint's byte goes: to its far line, or nowhere while the line's port is down (R458). -/
def farUp (s : State) (pa : Nat) : Bool :=
  match placeOf s pa with
  | .far _ port => !cxlDown s port
  | _ => false

/-- Writes bytes at a far address, in order; those whose port is down are dropped. -/
def farPut (s : State) (cells : List (Nat × Byte)) (lo n : Nat) : State :=
  let old := s.mem.filter (fun c => decide (c.1 < lo) || decide (lo + n ≤ c.1) || !farUp s c.1)
  { s with mem := (cells.filter (fun c => farUp s c.1)).foldl (fun (m : List Host.Cell) (c : Nat × Byte) => cset 0 m c.1 c.2) old,
           poison := s.poison.filter (fun g => decide (32 * g < lo) || decide (lo + n ≤ 32 * g)) }

/-- The near window goes to DEST; a poisoned granule goes as zeros and counts (R384). -/
def writeNear (s : State) (dest : Nat) : State :=
  let bad := s.poison.filter (fun g => decide (32 * g < nearEnd s))
  let cells := (s.mem.filter (fun c => decide (c.1 < nearEnd s) && !bad.contains (c.1 / 32))).map (fun c => (dest + c.1, c.2))
  let n := nearEnd s
  farPut (bad.foldl (fun s g => consume s (32 * g) 32 (unitOf 2 0)) s) cells dest n

/-- A byte of a core's arrays as they stand (R186): the scratchpad of its resident teams and the slots of its GAM; what stands
in parts that are free or hold L1 the spec does not say. -/
def arrayByte (s : State) (i : Nat) : Byte :=
  let core := i / (6 * 2 ^ 20)
  let off := i % (6 * 2 ^ 20)
  let open' := Config.freeByte (s.free + i)
  if off < 2 ^ 22 then
    match (coreTeams s core).find? (fun t =>
        decide (t.2.info.scrBase ≤ off) && decide (off < t.2.info.scrBase + t.2.info.scrBytes)) with
    | some t =>
      let p := off - t.2.info.scrBase
      if t.2.poison.contains (p / 32) then 0 else cget 0 t.2.scratch p
    | none => open'
  else
    let p := off - 2 ^ 22
    match tget (coreOf s core).gam (p / 8192) with
    | some x =>
      if x.poison.contains (p % 8192 / 32) then 0
      else (bytesOf 4 (cget 0 x.elems (p % 8192 / 4)).toNat).getD (p % 4) 0
    | none => open'

/-- SRAM and GAM of every core follow. -/
def writeArrays (s : State) (dest : Nat) : State :=
  let n := 768 * 6 * 2 ^ 20
  let lo := dest + nearEnd s
  { farPut s ((upto n).map (fun i => (lo + i, arrayByte s i))) lo n with free := s.free + n }

/-- The contexts that a checkpoint quiesces: those that run (R186). -/
def quiesced (s : State) : List Nat := (upto 16).filter (ctxRuns s)

/-- Restores what can be restored now. -/
def restoreNow (s : State) (c : Nat) : State :=
  let s := modCtx s c (fun x => { x with stat := 3 })
  (tryRestore s c).getD s

/-- CKP_CHECKPOINT: every running context is saved, memory is written, the contexts come back. An operation whose
contexts cannot all be placed at once waits for their restore before it completes. -/
def execCkpCheckpoint (s : State) : Out :=
  match opOf s s.cur.arg.op with
  | none => .next s
  | some o =>
    if o.eng ≠ 6 ∨ o.phase ≠ .running then .next s
    else if o.unit = 0 ∧ o.aux.isEmpty then
      let cs := quiesced s
      if ckpBlocked s then .next (failOp s o 3 0)
      else if !cs.all (saveReady s) then .next s
      else
        let s := cs.foldl (fun s c => saveContext (beginSave s c) c) s
        let dest := cmdLong o 12
        let s := writeNear s dest
        let s := if (cmdWord o 20).testBit 0 then writeArrays s dest else s
        let s := cs.foldl restoreNow s
        .next (modOp s o.id (fun y =>
          { y with aux := 1 :: cs, phase := if cs.all (fun c => (ctxOf s c).stat == 0) then .unitDone else .running }))
    else .next (modOp s o.id (fun y =>
      { y with phase := if o.aux.tail.all (fun c => (ctxOf s c).stat == 0) then .unitDone else .running }))

end Sys2Proof.Machine
end

