-- ==== Sys2Proof/Machine/Sha.lean ====
section
/-!
DEFINITION. SHA-384, with which an attestation report measures the firmware and the device's configuration (R14, R367). The
spec names the function only; what it computes is taken from its standard (PRESUMED, log 97). Its constants are computed here
from what defines them: the roots of the first primes.
-/

namespace Sys2Proof.Machine

/-- A number from 2 up that no smaller one from 2 up divides. -/
def isPrime (n : Nat) : Bool := decide (2 ≤ n) && (upto n).all (fun d => decide (d < 2) || n % d != 0)

/-- The first 80 primes; the 80th is 409. -/
def shaPrimes : List Nat := (upto 410).filter isPrime

/-- The largest number whose `k`-th power is at most `x`, of those that agree with `acc` above the lowest `n` bits. -/
def rootFrom (k x : Nat) : Nat → Nat → Nat
  | 0, acc => acc
  | n + 1, acc => rootFrom k x n (if (acc + 2 ^ n) ^ k ≤ x then acc + 2 ^ n else acc)

/-- The first 64 fractional bits of a `k`-th root: a root below 2^8 is meant. -/
def rootBits (k p : Nat) : DWord := BitVec.ofNat 64 (rootFrom k (p * 2 ^ (64 * k)) 72 0)

/-- The constant of each of the 80 rounds: from the cube root of its prime. -/
def roundConstants : List DWord := shaPrimes.map (rootBits 3)

/-- The state before the first block: from the square roots of the ninth to the sixteenth prime. -/
def firstState : List DWord := ((shaPrimes.drop 8).take 8).map (rootBits 2)

/-- The exclusive or of a word turned right by each of some distances, and shifted right by `n`. -/
def mixTurns (by' : List Nat) (n : Nat) (x : DWord) : DWord :=
  by'.foldl (fun acc r => acc ^^^ x.rotateRight r) (x >>> n)

/-- The bytes of a number, the highest first. -/
def highFirst (n x : Nat) : List Byte := (bytesOf n x).reverse

/-- A message with the one bit, the zeros and its length in bits that fill its last block of 128 bytes. -/
def wholeBlocks (m : List Byte) : List Byte :=
  let short := (m.length + 17) % 128
  m ++ [0x80] ++ List.replicate (if short = 0 then 0 else 128 - short) 0 ++ highFirst 16 (8 * m.length)

/-- The word of round `i` of those before it, in their order (from round 16 on). -/
def nextScheduled (w : List DWord) : DWord :=
  let back := fun (d : Nat) => w.getD (w.length - d) 0
  mixTurns [19, 61] 6 (back 2) + back 7 + mixTurns [1, 8] 7 (back 15) + back 16

/-- The words of all rounds of a block. -/
def scheduled (block : List Byte) : List DWord :=
  let given := (upto 16).map (fun i => BitVec.ofNat 64 (ofBytes ((block.drop (8 * i)).take 8).reverse))
  (upto 64).foldl (fun w _ => w ++ [nextScheduled w]) given

/-- One round on the eight words of the state, with its constant and its scheduled word. -/
def hashRound (v : List DWord) (k w : DWord) : List DWord :=
  let at' := fun (i : Nat) => v.getD i 0
  let choice := (at' 4 &&& at' 5) ||| (~~~(at' 4) &&& at' 6)
  let most := (at' 0 &&& (at' 1 ||| at' 2)) ||| (at' 1 &&& at' 2)
  let fresh := at' 7 + mixTurns [14, 18, 41] 64 (at' 4) + choice + k + w
  let top := fresh + mixTurns [28, 34, 39] 64 (at' 0) + most
  top :: v.take 3 ++ (at' 3 + fresh) :: (v.drop 4).take 3

/-- The state after a block. -/
def hashBlock (v : List DWord) (block : List Byte) : List DWord :=
  let after := (roundConstants.zip (scheduled block)).foldl (fun x kw => hashRound x kw.1 kw.2) v
  (upto 8).map (fun i => v.getD i 0 + after.getD i 0)

/-- SHA-384 of a message: 48 bytes. -/
def sha384 (m : List Byte) : List Byte :=
  let p := wholeBlocks m
  let last := (upto (p.length / 128)).foldl (fun v i => hashBlock v ((p.drop (128 * i)).take 128)) firstState
  (last.take 6).flatMap (fun x => highFirst 8 x.toNat)

end Sys2Proof.Machine
end

