-- ==== Sys2Proof/Machine/Bringup.lean ====
section
/-!
DEFINITION. Bring-up, resets and the management registers (R221, R358 to R362, R364, R365, R367 to R369, R381, R459,
R464): each step that starts, configures or resets the device.
-/

namespace Sys2Proof.Machine

/-! ### Stages (R359, R360, R368) -/

/-- The image in flash. -/
def flashImage (s : State) : List Byte := s.flash.getD Config.factoryImage

/-- The test of R14 and R368: both signatures verify, and the security version is at least the one fused into the part. -/
def imageAccepted (l : List Byte) : Bool :=
  Config.ecdsaVerifies l && Config.lmsVerifies l && decide (Config.fusedVersion.toNat ≤ (Config.imageVersion l).toNat)

/-- Stage 0: the root of trust loads the firmware in flash and tests it. -/
def stage0 (s : State) : State := { s with firmware := imageAccepted (flashImage s) }

/-- POWER_GOOD: stage 0 begins. -/
def execPowerGood (s : State) : Out := .next (stage0 s)

def goSet (s : State) : Bool := (regGet s 0x8).getLsbD 0

/-- Whether a function of FRDY can come up now. -/
def canReady (s : State) (n : Nat) : Bool :=
  if n = 0 then s.firmware
  else if n < 30 ∨ n = 31 ∨ (32 ≤ n ∧ n ≤ 44) then readyBit s 0 && goSet s
  else if n = 30 then goSet s && (upto 12).all (fun i => readyBit s (18 + i))
  else decide (64 ≤ n) && decide (n < 296) && readyBit s 30

def setReady (s : State) (n : Nat) (b : Bool) : State :=
  let off := 0x100 + 8 * (n / 64)
  regSet s off (setBit (regGet s off) (n % 64) b)

/-- FUNCTION_READY: a function has finished its bring-up. -/
def execFunctionReady (s : State) : Out :=
  .next (if canReady s s.cur.arg.bit then setReady s s.cur.arg.bit true else s)

/-- BOOTCTL_GO (R358, R360): stages 1 and 2 start; the registers marked "until GO" freeze. -/
def execBootctlGo (s : State) : Out := .next (if readyBit s 0 then regSet s 0x8 1 else s)

/-! ### Resets (R362, R381) -/

/-- Far bytes that the memory-side cache held dirty are lost with HBM: what CXL holds there is open. -/
def loseDirty (s : State) : State :=
  let parts := s.msc.flatMap (fun e =>
    ((upto 32).filter (fun i => e.2.dirty.getLsbD i)).map (fun i => farBase + 4096 * e.2.line + 128 * i))
  parts.foldl (fun s a =>
    { s with mem := cellsSet s.mem a ((upto 128).map (fun i => Config.freeByte (s.free + i))), free := s.free + 128 }) s

/-- What a FULL reset keeps: memory beyond the package, flash, the Crumb record, the retirement list and the counts of each
frame's errors since power-on, and GTICK. `image` is what the host has written to flash since, if anything: it takes effect
now (R368). How the host writes it the spec does not say (DESIGN CHOICE, log 96). -/
def resetFull (s : State) (image : List Byte) : State :=
  let s := loseDirty s
  let r := { State.reset with
    gtick := s.gtick, mem := s.mem.filter (fun c => decide (farBase ≤ c.1)),
    poison := s.poison.filter (fun g => decide (farBase ≤ 32 * g)), crumbs := s.crumbs, crHead := s.crHead,
    mirrored := s.mirrored, retired := s.retired, frameErrors := s.frameErrors, free := s.free, agenda := s.agenda,
    flash := if image.isEmpty then s.flash else some image, signed := s.signed, cur := s.cur }
  stage0 r

/-- RESET_FULL; before MGMT a write to RESET is ignored. -/
def execResetFull (s : State) : Out := .next (if readyBit s 0 then resetFull s s.cur.arg.image else s)

/-- A core loses what it holds; its dirty bytes have reached memory or not. -/
def clearCore (s : State) (core : Nat) : State :=
  let s' := if Config.freeBool s.free then writeBackL1 s core (fun _ => true) else s
  let c := coreOf s core
  setCore { s' with free := s.free + 1 } core { Core.fresh with gam := c.gam, headers := c.headers }

/-- A CORES reset: every team of every context is killed, those that are saved or at a breakpoint among them, and the
functions of stage 2 come up again. -/
def resetCores (s : State) : State :=
  let s := s.cores.foldl (fun s c => clearCore s c.1) s
  let s := { s with
    teams := [], saved := [], queues := [], clusters := [], monitors := [], swaps := [],
    ops := s.ops.filter (fun o => o.eng == 6 && o.phase == .running), dec := [] }
  let s := (upto 4).foldl (fun s i => regSet s (0x108 + 8 * i) 0) s
  settleCopies s

def execResetCores (s : State) : Out := .next (if readyBit s 0 then resetCores s else s)

/-- THERMAL_TRIP (R459): a CORES reset, counted. -/
def execThermalTrip (s : State) : Out :=
  .next (resetCores (crumb (countReg s 0x80370 1) 0x0401 (unitOf 5 s.cur.arg.die) []))

/-- Where the Crumb mirror lies (R381): 4,096 events and CRHEAD. -/
def inMirror (s : State) (a : Nat) : Bool :=
  let m := (regGet s 0x31008).toNat
  m != 0 && decide (m ≤ a) && decide (a < m + 0x40008)

/-- POWER_LOSS: all is lost but the mirror in far memory, and the retirement list in flash. -/
def execPowerLoss (s : State) : Out :=
  .next { State.reset with mem := s.mem.filter (fun c => inMirror s c.1), retired := s.retired, free := s.free, agenda := s.agenda,
                           flash := s.flash, signed := s.signed, cur := s.cur }

/-! ### Launch queues (R154, R364) -/

/-- The dispatcher rereads descriptor `q`. RES is set to TAIL when the queue comes to be served (R332). -/
def scanQueue (s : State) (q : Nat) : State :=
  if lqUsable s q then
    let was := lqOf s q
    let head := lqHead s q
    modLq s q (fun x => { x with
      served := true, head := head, resv := if was.served then x.resv else lqTail s q,
      headRec := if head = was.head then x.headRec else none })
  else
    let s := if lqEnabled s q then crumb s 0x0601 (unitOf 6 0) (bytesOf 4 q) else s
    modLq s q (fun x => { x with served := false })

/-- LQSCAN: one queue, or all of them. -/
def execLqscan (s : State) : Out :=
  let q := s.cur.arg.v.toNat % 128
  if !readyBit s 30 then .next s
  else if q < 64 then .next (scanQueue s q)
  else if q = 64 then .next ((upto 64).foldl scanQueue s)
  else .next s

/-! ### TLBINV (R93, R365) -/

def startInv (s : State) : State :=
  if s.tlbinv.isSome then s
  else
    let v := s.cur.arg.v
    regSet { s with tlbinv := some v } 0x600 (v &&& 0x4FFFFFFFFFFF0000)

def execTlbinvAddress (s : State) : Out := .next (startInv s)
def execTlbinvAll (s : State) : Out := .next (startInv s)

/-- Whether an invalidation drops an entry. -/
def invDrops (v : DWord) (e : TlbEntry) : Bool :=
  let va := bitsAt v.toNat 16 40 * 65536
  e.ctx == bitsAt v.toNat 56 4 && (v.getLsbD 62 || (decide (e.va ≤ va) && decide (va < e.va + e.size)))

/-- TLBINV_COMPLETE: no TLB holds a dropped entry. -/
def execTlbinvComplete (s : State) : Out :=
  match s.tlbinv with
  | none => .next s
  | some v =>
    .next { s with tlbinv := none, cores := s.cores.map (fun c =>
      (c.1, { c.2 with tlb := c.2.tlb.filter (fun e => !invDrops v e) })) }

/-! ### Attestation (R367) -/

/-- ATTEST_REQUEST: a report starts, or starts again with the newer nonce. -/
def execAttestRequest (s : State) : Out :=
  .next (regSet { s with attest := some ((upto 6).map (fun i => regGet s (0x740 + 8 * i))) } 0x700 0)

/-- The 20 registers marked "until GO", as frozen. -/
def frozenBytes (s : State) : List Byte :=
  ([0x18, 0x20, 0x28, 0x30] ++ (upto 16).map (fun i => 0x300 + 8 * i)).flatMap (fun o => bytesOf 8 (regGet s o).toNat)

/-- HSS with L = 2, LMS_SHA256_M32_H15 and LMOTS_SHA256_N32_W8 gives signatures of 3,284 bytes. -/
def reportLength : Nat := 272 + 3284

/-- The report with a nonce. The signatures are the part's. -/
def attReport (s : State) (nonce : List DWord) : List Byte :=
  let image := flashImage s
  let body := bytesOf 4 0x54414B5A ++ bytesOf 4 reportLength ++
    nonce.flatMap (fun w => bytesOf 8 w.toNat) ++ sha384 image ++
    (if goSet s then sha384 (frozenBytes s) else List.replicate 48 0) ++ bytesOf 8 (mgmtRead s 0).toNat ++
    bytesOf 8 s.gtick ++ bytesOf 4 (Config.imageVersion image).toNat ++ bytesOf 4 (Config.hssStock - s.signed)
  body ++ padTo 96 (Config.signEcdsa body s.free) ++ padTo 3284 (Config.signHss body s.free)

/-- ATTEST_DONE: the report is in ATTREP, one HSS signature is spent, and DONE reads 1. -/
def execAttestDone (s : State) : Out :=
  match s.attest with
  | none => .next s
  | some nonce =>
    let r := attReport s nonce
    let s := (upto 1024).foldl (fun s i => regSet s (0x10000 + 8 * i) (BitVec.ofNat 64 (bytesAt r (8 * i) 8))) s
    .next (regSet { s with attest := none, signed := s.signed + 1, free := s.free + 1 } 0x700 2)

/-! ### Power states and throttling (R369, R459) -/

/-- Whether a die's clock is below the one of the requested state. -/
def isBelow (s : State) (die : Nat) : Bool :=
  s.throttled.contains die || decide ((regGet s 0x38).toNat % 4 < s.pstate.toNat)

/-- THRCNT counts up to now for the dies that are no longer below, and begins for those that have come to be. -/
def settleBelow (s : State) : State :=
  (upto 8).foldl (fun s d =>
    match tget s.below d, isBelow s d with
    | some since, false => { countReg s (0x200 + 8 * d) (s.gtick - since) with below := tdel s.below d }
    | none, true => { s with below := tset s.below d s.gtick }
    | _, _ => s) s

/-- PSTATE_WRITE: a state is requested. -/
def execPstateWrite (s : State) : Out := .next (settleBelow (regSet s 0x38 (s.cur.arg.v &&& 3)))

/-- PSTATE_CHANGE: it takes effect. -/
def execPstateChange (s : State) : Out := .next (settleBelow { s with pstate := (regGet s 0x38).setWidth 2 })

def execThrottleOnset (s : State) : Out :=
  let d := s.cur.arg.die
  if 8 ≤ d ∨ s.throttled.contains d then .next s
  else .next (settleBelow (crumb { s with throttled := nadd s.throttled d } 0x0400 (unitOf 5 d) []))

def execThrottleRelease (s : State) : Out :=
  .next (settleBelow { s with throttled := s.throttled.filter (· != s.cur.arg.die) })

/-! ### GAMREL (R221) -/

def execGamrelStart (s : State) : Out :=
  if s.gamrel.isSome then .next s
  else .next (regSet { s with gamrel := some s.cur.arg.v } 0x80740 (s.cur.arg.v &&& 0xF))

/-- GAMREL_COMPLETE: no core has a slot or header of the context; they are as they were at reset. -/
def execGamrelComplete (s : State) : Out :=
  match s.gamrel with
  | none => .next s
  | some v => .next (s.cores.foldl (fun s c => freeGam s (v.toNat % 16) c.1) { s with gamrel := none })

/-! ### REGISTER_WRITE (R358, R370, R383, R398, R439, R446, R460, R464) -/

/-- The registers that BOOTCTL.GO freezes. -/
def untilGo (off : Nat) : Bool :=
  off == 0x18 || off == 0x20 || off == 0x28 || off == 0x30 || (decide (0x300 ≤ off) && decide (off < 0x380))

/-- A register of a run of `n` at `lo`, `step` bytes apart. -/
def inRun (off lo step n : Nat) : Bool := decide (lo ≤ off) && decide (off < lo + step * n) && decide ((off - lo) % step = 0)

/-- The bits of a register that a write changes; none for a register that ignores writes. -/
def writeMask (off : Nat) : DWord :=
  if off = 0x18 then 0xFFF
  else if off = 0x20 then 0x3
  else if off = 0x28 ∨ off = 0x30 then 0xFFFFFFFFFFFFFFFF
  else if off = 0x40 then 0xFFFF
  else if inRun off 0x300 8 16 then 0x000FFFFFFFFFFFFF
  else if inRun off 0x400 8 16 then 0xFFFFFFFFFFFFE001
  else if inRun off 0x480 8 8 then 0x0F0F0F0F0F0F0F0F
  else if off = 0x600 then 0x4FFFFFFFFFFF0000
  else if inRun off 0x740 8 6 then 0xFFFFFFFFFFFFFFFF
  else if off = 0x30000 ∨ off = 0x30018 ∨ off = 0x30040 then 0xFFFFFFFFFFFFFFFF
  else if off = 0x30008 then 0x00000001FFFFFFFF
  else if off = 0x30048 then 0x1
  else if off = 0x30050 then 0x00FFFFFFFFFFFFF8
  else if off = 0x30080 then 0x0000FFFFFFFF0003
  else if off = 0x30088 ∨ off = 0x30090 ∨ off = 0x30098 ∨ off = 0x300A0 then 0xFFFFFFFFFFFFFFFF
  else if off = 0x300C0 then 0xFFFFFF
  else if inRun off 0x30800 32 8 then 0x00FFFFFFFFFFFFFF
  else if inRun off 0x30808 32 8 then 0xFFFFFFFF
  else if inRun off 0x30810 32 8 then 0xFFFFFFFFFFFFFFFF
  else if inRun off 0x30818 32 8 then 0xF7
  else if off = 0x31008 then 0xFFFFFFFFFFFFFFFF
  else if inRun off 0x80000 8 58 then
    0xFFFFFFFFFFFFFFFF
  else if inRun off 0x80200 8 18 ∨ inRun off 0x80300 8 12 then 0xFFFFFFFFFFFFFFFF
  else if off = 0x80370 ∨ off = 0x80378 ∨ off = 0x80388 then 0xFFFFFFFFFFFFFFFF
  else if off = 0x80380 then 0x7F
  else if inRun off 0x80400 8 16 then 0x00FFFFFFFFFFFFCF
  else if off = 0x80600 ∨ off = 0x80740 then 0xF
  else if inRun off 0x80640 8 16 ∨ inRun off 0x80780 8 16 then 0xFFFFFFFFFFFFFFFF
  else if inRun off 0x80A00 32 16 then 0x00FFFFFFFFFFFFC0
  else if inRun off 0x80A08 32 16 then 0xFFFFFFFF00FFFFFF
  else if inRun off 0x80A18 32 16 then 0xFFFFFFFFFFFFFFFF
  else 0

/-- A context register (R464), with the fields that SWR gives it. -/
def writeContext (s : State) (off : Nat) (v : DWord) : State :=
  modCtx s ((off - 0x80800) / 32) (fun c => match (off - 0x80800) % 32 / 8 with
    | 0 => { c with sbchk := v &&& 1 }
    | 1 => if v.extractLsb' 0 2 = 3 then c else { c with racemode := v.setWidth 2 }
    | 2 => { c with trapvec := v &&& 0x00FFFFFFFFFFFFFF }
    | _ => { c with traprec := v &&& 0x00FFFFFFFFFFFFFF })

/-- A write to a register that stores what is written. -/
def registerStore (s : State) (off : Nat) (v : DWord) : State :=
  if off % 8 ≠ 0 ∨ (untilGo off && goSet s) then s
  else if 0x80800 ≤ off ∧ off < 0x80A00 then writeContext s off v
  else if off = 0x80600 ∧ busySwitching s then s
  else if off = 0x600 ∧ s.tlbinv.isSome then s
  else if writeMask off = 0 then s
  else regSet s off ((regGet s off &&& ~~~(writeMask off)) ||| (v &&& writeMask off))

/-- REGISTER_WRITE. -/
def execRegisterWrite (s : State) : Out := .next (registerStore s s.cur.arg.ro s.cur.arg.v)

end Sys2Proof.Machine
end

