-- ==== Sys2Proof/Machine/HostEv.lean ====
section
/-!
DEFINITION. What the outside world does to the device: the host and fabric peers on its memory (R92, R135, R363, R378,
R379), the Dytum hub's stop, scan and replay (R370, R373, R379, R468), the Crumb mirror (R381), and the links
(R457, R458).
-/

namespace Sys2Proof.Machine

/-! ### Accesses to the near window (R363, R92) -/

/-- The device answers a request (R363): before GO those that arrive on port 0 for node 0xFFF, from GO on those for NODEID
on every ready port. For other than management requests the clocks run (R373). -/
def answers (s : State) (management : Bool) : Bool :=
  let a := s.cur.arg
  readyBit s 0 && (management || !s.stopped) &&
    (if goSet s then a.node == nodeId s && decide (a.port < 18) && readyBit s a.port && !(portOf s a.port).failed
     else a.port == 0 && a.node == 0xFFF)

/-- The bytes of a read: of poisoned granules, and of the near window before L2 is ready, they are open. -/
def fabricBytes (s : State) (pa n : Nat) : List Byte :=
  (upto n).map (fun i =>
    if readyBit s 30 && !poisoned s (pa + i) 1 then memByte s (pa + i) else Config.freeByte (s.free + i))

/-- A write's bytes arrive at their home slice; on checked pages their tags become unknown (R135). -/
def fabricStore (s : State) (pa : Nat) (d : List Byte) : State :=
  (granulesOf pa d.length).foldl peerMark (memWrite (touchSquare s pa d.length 0 none none true) pa d)

/-- One access of a request, within a line of 128 bytes. -/
def fabricPiece (s : State) (r : FabricReq) (m : Nat) : FabricReq × State :=
  let rest := { r with pa := r.pa + m, n := r.n - m, data := r.data.drop m }
  if r.write then (rest, if readyBit s 30 then fabricStore s r.pa (r.data.take m) else s)
  else
    let s := if readyBit s 30 then touchSquare s r.pa m 0 none none false else s
    ({ rest with got := r.got ++ fabricBytes s r.pa m }, { s with free := s.free + m })

/-- Serves a request line by line until a replay gate holds it (R378, R379): the host is slot 0 of core 0x3FF, a peer slot
1. What is left waits. -/
def serveFabric : Nat → FabricReq → State → FabricReq × State
  | 0, r, s => (r, s)
  | fuel + 1, r, s =>
    if r.n = 0 then (r, s)
    else
      let agent := logAgent 0x3FF r.slot
      let slice := homeSlice r.pa
      let m := min r.n (128 - r.pa % 128)
      if (pageOver s Leaf.recorded r.pa).isNone then
        let (r, s) := fabricPiece s r m
        serveFabric fuel r s
      else if gateAdmits s slice agent then
        let (r, s) := fabricPiece (servedAt s slice agent) r m
        serveFabric fuel r s
      else (r, gateArrive s slice)

/-- A request that has been served in full is answered; one that has not waits behind the others. -/
def fabricDone (r : FabricReq) (s : State) : State :=
  if r.n = 0 then { s with answer := if r.write then [] else r.got } else { s with fabric := s.fabric ++ [r] }

/-- The requests that wait at gates go on as far as the gates let them. -/
def settleFabric (s : State) : State :=
  if s.fabric.isEmpty then s
  else s.fabric.foldl (fun s r =>
    let (r, s) := serveFabric (r.n / 128 + 2) r s
    fabricDone r s) { s with fabric := [] }

/-- A read or write of the near window by the host (slot 0) or a peer (slot 1). Without data it reads. -/
def fabricAccess (s : State) (slot pa n : Nat) (d : List Byte) : State :=
  let len := if d.isEmpty then n else d.length
  if !answers s false || decide (nearEnd s < pa + len) then { s with answer := [] }
  else
    let r := serveFabric (len / 128 + 2) { slot := slot, pa := pa, n := len, data := d, write := !d.isEmpty, got := [] }
      { s with answer := [] }
    fabricDone r.1 r.2

/-! ### SCANDATA (R370, R373) -/

/-- The thread of a slot of a core. -/
def threadAt (s : State) (core slot : Nat) : Option (Team × Nat) :=
  (coreTeams s core).findSome? (fun x =>
    let l := (allThreads x.2).filter (fun i => (threadOf x.2 i).seated && (threadOf x.2 i).slot == slot && !(warpOf x.2 (i / 32)).swapped)
    l.head?.map (fun i => (x.2, i)))

/-- Eight bytes of a unit's state image. What an L2 slice's or an engine's image holds the spec does not say. -/
def scanBytes (s : State) (a : DWord) : List Byte :=
  let off := bitsAt a.toNat 0 32 / 8 * 8
  let free := (upto 8).map (fun i => Config.freeByte (s.free + i))
  if !s.stopped || bitsAt a.toNat 48 8 ≠ 0 || 4096 * 256 ≤ off then free
  else match threadAt s (bitsAt a.toNat 32 16) (off / 256) with
    | some (t, i) => ((threadEntry (unform s.gtick t (fun _ => true)) i).drop (off % 256)).take 8
    | none => List.replicate 8 0

/-- SCANDATA_READ: the bytes at SCANADDR, which advances by 8. -/
def scanRead (s : State) : State :=
  let a := regGet s 0x30050
  let next : DWord := (a.extractLsb' 32 32 ++ (a.setWidth 32 + 8 : BitVec 32) : BitVec 64)
  regSet { s with answer := scanBytes s a, free := s.free + 8 } 0x30050 next

def execScandataRead (s : State) : Out := .next (if readyBit s 0 then scanRead s else s)

/-! ### HOST_READ, HOST_WRITE, FABRIC_PEER_ACCESS -/

/-- HOST_READ: the near window, or an aligned 8-byte register of the management window. -/
def execHostRead (s : State) : Out :=
  let pa := s.cur.arg.pa
  match placeOf s pa with
  | .management off =>
    if !answers s true then .next { s with answer := [] }
    else if off = 0x30058 then .next (scanRead s)
    else .next { s with answer := bytesOf 8 (mgmtRead s (off / 8 * 8)).toNat }
  | .near => .next (fabricAccess s 0 pa s.cur.arg.n [])
  | _ => .next { s with answer := [] }

/-- HOST_WRITE. A write to a register is the device's next step. -/
def execHostWrite (s : State) : Out :=
  let pa := s.cur.arg.pa
  let d := s.cur.arg.data
  match placeOf s pa with
  | .management off =>
    if answers s true && off % 8 == 0 && d.length == 8 then .next (mgmtQueue s off (BitVec.ofNat 64 (ofBytes d))) else .next s
  | .near => .next (if d.isEmpty then s else fabricAccess s 0 pa 0 d)
  | _ => .next s

/-- FABRIC_PEER_ACCESS: a peer reads, or with data writes, the near window. -/
def execFabricPeerAccess (s : State) : Out :=
  match placeOf s s.cur.arg.pa with
  | .near => .next (fabricAccess s 1 s.cur.arg.pa s.cur.arg.n s.cur.arg.data)
  | _ => .next { s with answer := [] }

/-! ### Stopping on a tick (R373) -/

/-- An armed stop whose tick has come. -/
def stopDue (s : State) : Bool :=
  (regGet s 0x30048).getLsbD 0 && !s.stopped && decide ((regGet s 0x30040).toNat ≤ s.gtick)

def execTickStop (s : State) : Out := .next (if stopDue s then stopClocks s else s)

/-- STOP_RESUME: every domain restarts on the tick after the stop. The write sets ARM as well. -/
def execStopResume (s : State) : Out :=
  let s := registerStore s 0x30048 s.cur.arg.v
  .next (if s.stopped then { s with stopped := false, gtick := s.gtick + 1 } else s)

/-! ### Replay (R379, R468) -/

def firstChunk (l : SliceLog) : SliceLog := { l with gateChunk := 0, gateRun := 0, gateSince := none }

/-- REPCTL_REPLAY: every gate closes and is at chunk 0; no mark of the table is consumed. -/
def execRepctlReplay (s : State) : Out :=
  let s := registerStore s 0x30080 s.cur.arg.v
  .next { s with gatesOpen := false, marksUsed := [], logs := s.logs.map (fun l => (l.1, firstChunk l.2)) }

/-- RLFILL_WRITE: a slice's chunk count; its gate returns to chunk 0, and its next access opens a chunk. -/
def execRlfillWrite (s : State) : Out :=
  let i := s.cur.arg.slice
  if 128 ≤ i then .next s
  else .next (setLog (regSet s (0x30400 + 8 * i) s.cur.arg.v) i { firstChunk (logOf s i) with run := 0, full := false })

/-! ### The Crumb mirror (R381) -/

/-- The bytes of event `n` of the Crumb record. -/
def crumbBytes (s : State) (n : Nat) : List Byte :=
  (upto 8).flatMap (fun i => bytesOf 8 (mgmtRead s (0x40000 + 64 * (n % 4096) + 8 * i)).toNat)

/-- Bytes of the management core at a far address, past the memory-side cache. -/
def mirrorPut (s : State) (a : Nat) (l : List Byte) : State :=
  if farUp s a then memWrite s a l else s

/-- CRUMB_MIRROR: the events added since the last mirror, and CRHEAD. -/
def execCrumbMirror (s : State) : Out :=
  let m := (regGet s 0x31008).toNat
  if m = 0 then .next s
  else
    let fresh := (upto (min 4096 (s.crHead - s.mirrored))).map (fun i => s.crHead - 1 - i)
    let s' := fresh.foldr (fun n s => mirrorPut s (m + 64 * (n % 4096)) (crumbBytes s n)) s
    .next { mirrorPut s' (m + 0x40000) (bytesOf 8 s.crHead) with mirrored := s.crHead }

/-! ### Ralori links (R457) -/

def setPortState (s : State) (p : Nat) (x : Port) : State := { s with ports := tset s.ports p x }

/-- One retry of the flit in flight: counted, and at the 64th in a row the port has failed. -/
def retryPort (s : State) (p : Nat) : State :=
  let x := portOf s p
  let s := crumb (countReg s (0x80200 + 8 * p) 1) 0x0300 (unitOf 4 p) []
  if x.retries + 1 = 64 then
    let s := regSet s 0x80290 (setBit (regGet s 0x80290) p true)
    crumb (setPortState s p { x with retries := 0, backoff := 0, failed := true }) 0x0301 (unitOf 4 p) []
  else setPortState s p { x with retries := x.retries + 1 }

/-- FLIT_CRC_ERROR: the flit is retried at once. -/
def execFlitCrcError (s : State) : Out :=
  let p := s.cur.arg.port
  .next (if decide (p < 18) && !(portOf s p).failed then retryPort s p else s)

/-- FLIT_NOT_READY: the sender's backoff begins, or doubles. -/
def execFlitNotReady (s : State) : Out :=
  let p := s.cur.arg.port
  let x := portOf s p
  .next (if decide (p < 18) && !x.failed then
    setPortState s p { x with backoff := if x.backoff = 0 then 64 else min 65536 (2 * x.backoff), since := s.gtick } else s)

/-- FLIT_RETRANSMIT: after its backoff the sender tries again. With `n` 0 the receiver acknowledges the flit. -/
def execFlitRetransmit (s : State) : Out :=
  let p := s.cur.arg.port
  let x := portOf s p
  if 18 ≤ p ∨ x.failed ∨ s.gtick < x.since + x.backoff then .next s
  else
    let s := if x.backoff = 0 then s else retryPort s p
    .next (if s.cur.arg.n = 0 then setPortState s p { portOf s p with retries := 0, backoff := 0 } else s)

/-! ### CXL links (R458) -/

/-- A granule of far memory that goes through a port becomes poison. -/
def poisonFar (s : State) (port pa : Nat) : State :=
  match placeOf s pa with
  | .far _ p => if p = port then
      { s with poison := nadd s.poison (pa / 32), poisonSeen := s.poisonSeen.filter (· != pa / 32) } else s
  | _ => s

def cxlError (s : State) (port : Nat) : State :=
  crumb (countReg s (0x80300 + 8 * port) 1) 0x0302 (unitOf 4 (32 + port)) []

/-- CXL_ERROR: an error, or with `poison` a poison response for an address. -/
def execCxlError (s : State) : Out :=
  let p := s.cur.arg.port
  if 12 ≤ p then .next s
  else match s.cur.arg.poison with
    | some pa => .next (poisonFar (cxlError s p) p pa)
    | none => .next (cxlError s p)

/-- CXL_READ_TIMEOUT: a read of `pa` has been outstanding for 2^26 ticks. -/
def execCxlReadTimeout (s : State) : Out :=
  let p := s.cur.arg.port
  .next (if 12 ≤ p then s else poisonFar (cxlError s p) p s.cur.arg.pa)

/-- CXL_LINK_DOWN. -/
def execCxlLinkDown (s : State) : Out :=
  let p := s.cur.arg.port
  if 12 ≤ p then .next s
  else
    let s := regSet s 0x80360 (setBit (regGet s 0x80360) p true)
    .next (crumb (setPortState s (32 + p) { portOf s (32 + p) with down := true }) 0x0303 (unitOf 4 (32 + p)) [])

/-- CXL_LINK_UP: the lines that were kept for the port are written back. -/
def execCxlLinkUp (s : State) : Out :=
  let p := s.cur.arg.port
  if 12 ≤ p then .next s
  else
    let s := regSet s 0x80360 (setBit (regGet s 0x80360) p false)
    let s := setPortState s (32 + p) { portOf s (32 + p) with down := false }
    .next { s with msc := s.msc.map (fun e =>
      (e.1, if farPort s (4096 * e.2.line) == some p then { e.2 with dirty := 0 } else e.2)) }

/-! ### ECC errors in a unit's arrays (R384) -/

/-- Where an uncorrectable error strikes: the granule is poison, or the register reads zero until it is written. -/
def strike (s : State) (place : SramPlace) : State :=
  match place with
  | .scratch k g => modTeam s k (fun t => { t with poison := nadd t.poison g })
  | .gam core slot g => modCore s core (fun c => setGamSlot c slot { gamSlot c slot with poison := nadd (gamSlot c slot).poison g })
  | .l1 core pa =>
    let s := dropL1 s core (fun a _ => a / 32 == pa / 32)
    { s with poison := nadd s.poison (pa / 32), poisonSeen := s.poisonSeen.filter (· != pa / 32) }
  | .l2 pa => { s with poison := nadd s.poison (pa / 32), poisonSeen := s.poisonSeen.filter (· != pa / 32) }
  | .lane k tid r => modTeam s k (fun t => setLaneReg t tid r 0)
  | .uniform k w r => modTeam s k (fun t => modWarp t w (fun x => setU x r 0))
  | .other => s

/-- An ECC error of a core's or an L2 slice's arrays. -/
def arrayError (s : State) (unit : BitVec 16) (corrected : Bool) (place : SramPlace) : State :=
  let s := sramError s unit corrected
  if corrected then s else strike s place

end Sys2Proof.Machine
end

