-- ==== Sys2Proof/Machine/Binder.lean ====
section
/-!
DEFINITION. The Amieb binder (R65 to R84, R354, R406, R407, R462): a requirement graph read and checked, budgets, the
choice of formats, and the binding record or the binding fault record that it publishes.
-/

namespace Sys2Proof.Machine

/-! ### The requirement graph (R67, R68) -/

structure ClassRec where
  range : Int
  tiny : Int
  rel : Option Int
  rms : Bool
  spread : Option Nat
  spn : Nat
  lo : Nat
  hi : Nat
  sr : Bool
  outl : Nat
  kappa : Nat
  pink : Nat
  pinfmt : Word
deriving DecidableEq, Repr

structure OpRec where
  kind : Nat
  out : Nat
  nin : Nat
  lambda : Nat
  kn : Nat
  ins : List Nat
deriving DecidableEq, Repr

/-- A signed field of `n` bits. -/
def sfield (x lo n : Nat) : Int :=
  let v := bitsAt x lo n
  if v < 2 ^ (n - 1) then v else (v : Int) - 2 ^ n

def classOf (x : Nat) : ClassRec :=
  { range := sfield x 16 8, tiny := sfield x 0 16, rel := if x.testBit 32 then some (sfield x 24 8) else none,
    rms := x.testBit 33, spread := if x.testBit 34 then some (bitsAt x 35 5) else none, spn := bitsAt x 40 2,
    lo := bitsAt x 56 8, hi := bitsAt x 64 8, sr := x.testBit 43, outl := bitsAt x 44 4, kappa := bitsAt x 48 4,
    pink := bitsAt x 104 4, pinfmt := BitVec.ofNat 32 (bitsAt x 72 32) }

def opRecOf (x : Nat) : OpRec :=
  { kind := bitsAt x 0 8, out := bitsAt x 8 8, nin := bitsAt x 16 8, lambda := bitsAt x 24 8, kn := bitsAt x 32 32,
    ins := (upto 8).map (fun i => bitsAt x (64 + 8 * i) 8) }

def OpRec.inputs (o : OpRec) : List Nat := o.ins.take o.nin

def widthOk (w : Nat) : Bool := (decide (1 ≤ w) && decide (w ≤ 8)) || w == 16 || w == 32

/-- A class record within R65 and R68. -/
def classOk (x : Nat) : Bool :=
  let c := classOf x
  decide (-126 ≤ c.range) && decide (-149 ≤ c.tiny) && decide (c.tiny ≤ c.range) &&
    (match c.rel with
     | some r => decide (-8 ≤ r) && decide (r ≤ 30)
     | none => bitsAt x 24 8 == 0) &&
    (match c.spread with
     | some s => decide (s ≤ 30)
     | none => bitsAt x 35 5 == 0 && c.spn == 1) &&
    widthOk c.lo && widthOk c.hi && decide (c.lo ≤ c.hi) && decide (c.outl ≤ 8) && decide (c.pink ≤ 4) &&
    (c.pink == 1 || c.pinfmt == 0)

/-- An op record within R66 and R67, whose inputs are declared before its output. -/
def opRecOk (ncls : Nat) (o : OpRec) : Bool :=
  let n := o.nin
  decide (o.out < ncls) && o.inputs.all (fun i => decide (i < o.out)) && (o.ins.drop n).all (· == 255) &&
    (match o.kind with
     | 0 => n == 2 && decide (1 ≤ o.kn) && decide (o.kn ≤ 2 ^ 24)
     | 1 => n == 2 && o.kn == 0
     | 2 => decide (2 ≤ n) && decide (n ≤ 8) && o.kn == n
     | 3 => n == 1 && o.kn == 0
     | 4 => n == 1 && o.kn == 0 && decide (o.lambda ≤ 15)
     | 5 => n == 1 && decide (2 ≤ o.kn) && decide (o.kn ≤ 2 ^ 24)
     | _ => false) &&
    (o.kind == 4 || o.lambda == 0)

structure Graph where
  classes : List ClassRec
  ops : List OpRec
deriving DecidableEq, Repr

/-- What a binding fault record says (R406). -/
structure BindFault where
  kind : Nat
  reason : Nat
  cls : Nat
  op : Nat
  req : Int
  best : Int
deriving DecidableEq, Repr

/-- REASON 7 (R407). -/
def malformed (cls op : Nat) : BindFault := { kind := 0, reason := 7, cls := cls, op := op, req := 0, best := 0 }

/-- Whether no op consumes a class (R66). -/
def isSink (ops : List OpRec) (i : Nat) : Bool := !ops.any (fun o => o.inputs.contains i)

/-- Reads an image: the graph, or its first fault: of the header, the class records, the op records, the sinks. -/
def readGraph (b : List Byte) : Except BindFault Graph :=
  let ncls := bytesAt b 4 2
  let nops := bytesAt b 6 2
  if bytesAt b 0 4 ≠ 0x47524B51 ∨ bytesAt b 8 8 ≠ 0 ∨ 64 < ncls ∨ b.length ≠ 16 + 16 * (ncls + nops) then
    .error (malformed 0xFF 0xFFFF)
  else
    let cs := (upto ncls).map (fun i => bytesAt b (16 + 16 * i) 16)
    let ops := (upto nops).map (fun i => opRecOf (bytesAt b (16 + 16 * (ncls + i)) 16))
    let outs := ops.map (·.out)
    match (upto ncls).find? (fun i => !classOk (cs.getD i 0)) with
    | some i => .error (malformed i 0xFFFF)
    | none =>
      match (upto nops).find? (fun i => match ops[i]? with
        | some o => !opRecOk ncls o || (outs.take i).any (fun x => decide (o.out ≤ x))
        | none => false) with
      | some i => .error (malformed (outs.getD i 0) i)
      | none =>
        match (upto ncls).find? (fun i => isSink ops i && !(cs.getD i 0).testBit 32) with
        | some i => .error (malformed i 0xFFFF)
        | none => .ok { classes := cs.map classOf, ops := ops }

/-! ### Candidates (R69, R73, R75) -/

/-- A format a class may be bound to: KIND of R81, the word, its significand bits, and its block size. -/
structure Candidate where
  kind : Nat
  fmt : Word
  p : Nat
  blk : Nat
deriving DecidableEq, Repr

/-- The format word of a narrow format with SG = 1, SUB = 1, SPEC 00 (R47, R73). -/
def narrowWord (ew mw bias : Nat) (blk : Option Nat) : Word :=
  BitVec.ofNat 32 (ew + 8 * mw + 64 + 256 * bias + 2 ^ 18 +
    (match blk with
     | some k => 2 ^ 19 + 2 ^ 21 * k
     | none => 0))

/-- The narrow candidates of a container for one EW, with MW the largest that fits. -/
def narrowAt (c : ClassRec) (lo hi box ew : Nat) : List Candidate :=
  let w := min (min box hi) (8 + ew)
  let mw := w - 1 - ew
  if w < 1 + ew ∨ w < lo ∨ (1 < box ∧ w ≤ box / 2) then []
  else
    let bias := 2 ^ ew - 1 - c.range
    let plain := if c.range - c.tiny ≤ 2 ^ ew - 2 ∧ 0 ≤ bias ∧ bias ≤ 255 then
        [{ kind := 0, fmt := narrowWord ew mw bias.toNat none, p := mw + 1, blk := 0 : Candidate }] else []
    let scaled := match c.spread with
      | some s => if s ≤ 2 ^ ew - 2 ∧ c.range ≤ 127 ∧ -126 ≤ c.tiny then
          [{ kind := 0, fmt := narrowWord ew mw (2 ^ (ew - 1) - 1) (some c.spn), p := mw + 1, blk := 2 ^ (c.spn + 4) : Candidate }]
        else []
      | none => []
    plain ++ scaled

/-- Whether a fixed format holds a class's range. -/
def fixedHolds (c : ClassRec) (kind : Nat) : Bool :=
  if kind = 2 then decide (c.range ≤ 15) && decide (-14 ≤ c.tiny) else decide (c.range ≤ 127) && decide (-126 ≤ c.tiny)

def fixedBits (kind : Nat) : Nat := if kind = 1 then 24 else if kind = 2 then 11 else 8

/-- The candidates that meet R73 with widths `lo` to `hi`, in the order of R75. -/
def candidates (c : ClassRec) (lo hi : Nat) : List Candidate :=
  let fixed := fun (width kind : Nat) =>
    if lo ≤ width ∧ width ≤ hi ∧ fixedHolds c kind then [{ kind := kind, fmt := 0, p := fixedBits kind, blk := 0 : Candidate }]
    else []
  [1, 2, 4, 8].flatMap (fun box => (upto 7).flatMap (fun i => narrowAt c lo hi box (i + 1))) ++
    fixed 16 2 ++ fixed 16 3 ++ fixed 32 1

/-! ### Pins (R77) -/

def isInt (c : ClassRec) : Bool := c.pink == 1 && (nfmtOf c.pinfmt).ew == 0

/-- Whether a value lies at or above 2^k. -/
def geTwo (x : FVal) (k : Int) : Bool := x.cmp (pow2 k) != .less

/-- The range test of a pinned format word that is valid. -/
def pinHolds (c : ClassRec) : Bool :=
  let f := nfmtOf c.pinfmt
  let span := decide (c.range ≤ 127) && decide (-126 ≤ c.tiny)
  if f.ew = 0 then
    geTwo (FVal.fin false f.largest.1 f.largest.2) c.range
  else match f.scale with
    | 0 => geTwo (FVal.fin false f.largest.1 f.largest.2) c.range && decide (1 - (f.bias : Int) ≤ c.tiny)
    | 3 => decide (c.range - c.tiny ≤ 2 ^ f.ew - 2) && span
    | _ => (match c.spread with
        | some s => c.spn == f.blk && decide (s ≤ 2 ^ f.ew - 2)
        | none => false) && span

/-- The significand bits of a pin; of an integer pin its integer bits. -/
def pinBits (c : ClassRec) : Nat :=
  let f := nfmtOf c.pinfmt
  match c.pink with
  | 1 => if f.ew = 0 then f.width - (if f.sg then 1 else 0) else f.mw + 1
  | 2 => 24
  | 3 => 11
  | _ => 8

/-- A class bound to its pin (R77). Its BLKSZ counts a per-tensor scale (SCALE 11) as no block scale and is 0 then (R81; DESIGN
CHOICE, log 99). -/
def pinned (c : ClassRec) : Candidate :=
  let f := nfmtOf c.pinfmt
  match c.pink with
  | 1 => { kind := 0, fmt := c.pinfmt, p := pinBits c, blk := if f.scale = 1 ∨ f.scale = 2 then 2 ^ (f.blk + 4) else 0 }
  | 2 => { kind := 1, fmt := 0, p := 24, blk := 0 }
  | 3 => { kind := 2, fmt := 0, p := 11, blk := 0 }
  | _ => { kind := 3, fmt := 0, p := 8, blk := 0 }

/-! ### The choice for one class (R75, R77, R407) -/

/-- The format of class `i` under a demand, or the fault; `op` is the op record being visited. -/
def choose (c : ClassRec) (i op : Nat) (demand : Int) : Except BindFault Candidate :=
  let fault := fun (reason : Nat) (req best : Int) =>
    { kind := 0, reason := reason, cls := i, op := op, req := req, best := best : BindFault }
  if c.pink ≠ 0 then
    if c.pink = 1 ∧ !nfmtValid c.pinfmt then .error (fault 6 0 0)
    else
      let holds := if c.pink = 1 then pinHolds c else fixedHolds c (c.pink - 1)
      if holds ∧ (isInt c ∨ demand ≤ pinBits c) then .ok (pinned c) else .error (fault 5 demand (pinBits c))
  else
    let l := candidates c c.lo c.hi
    match l.find? (fun x => decide (demand ≤ x.p)) with
    | some x => .ok x
    | none =>
      if (candidates c 1 32).isEmpty then .error (fault 2 demand 0)
      else if l.isEmpty then .error (fault 3 demand 0)
      else .error (fault 1 demand ((l.map (·.p)).foldl max 0))

/-! ### Budgets (R70 to R72) -/

/-- ⌈log2 n⌉ for n ≥ 1. -/
def ceilLog2 (n : Nat) : Nat := if n ≤ 1 then 0 else Nat.log2 (n - 1) + 1

def halved (rms : Bool) (t : Nat) : Nat := if rms then (t + 1) / 2 else t

/-- What an op's accumulator needs, if it is FP32 (R70, R71). -/
def accNeed (o : OpRec) (c : ClassRec) (b : Int) : Option Int :=
  match o.kind with
  | 0 => some (b + 2 + halved c.rms (if o.kn ≤ 32 then 0 else ceilLog2 o.kn - 5))
  | 5 => some (b + 2 + halved c.rms (ceilLog2 o.kn))
  | _ => none

/-- The budget an op gives to each input. -/
def giveBudget (o : OpRec) (c : ClassRec) (b : Int) : Int :=
  match o.kind with
  | 0 => b + 3
  | 1 => b + 2
  | 2 => b + 1 + halved c.rms (ceilLog2 o.kn) + c.kappa
  | 3 => b + 1
  | 4 => b + 1 + o.lambda
  | _ => b + 1 + halved c.rms (ceilLog2 o.kn) + c.kappa

/-- A class's budget: the larger of the one it declares and the largest it has been given (R72). -/
def budgetOf (c : ClassRec) (given : Option Int) : Int :=
  match given, c.rel with
  | some b, some r => max b r
  | some b, none => b
  | none, some r => r
  | none, none => 0

/-- The demand on a class's format (R69). -/
def demandOf (c : ClassRec) (produced : Bool) (b : Int) : Int :=
  b + (if produced then 1 else 0) + (if c.sr then 1 else 0)

/-- What has been decided so far: the largest budget given to each class, its format and its accumulator. -/
structure Binding where
  given : List (Nat × Int)
  chosen : List (Nat × Candidate)
  acc : List (Nat × Nat)
deriving DecidableEq, Repr

def noClass : ClassRec :=
  { range := 0, tiny := 0, rel := none, rms := false, spread := none, spn := 1, lo := 1, hi := 32, sr := false,
    outl := 0, kappa := 0, pink := 0, pinfmt := 0 }

/-- INT32 accumulation: both inputs are pinned to unscaled integer formats (R76). -/
def intAcc (g : Graph) (o : OpRec) : Bool :=
  o.kind == 0 && o.inputs.all (fun i =>
    let c := g.classes.getD i noClass
    isInt c && (nfmtOf c.pinfmt).scale == 0)

/-- Visits op record `j` (R74). -/
def visitOp (g : Graph) (j : Nat) (o : OpRec) (x : Binding) : Except BindFault Binding :=
  let c := g.classes.getD o.out noClass
  let b := budgetOf c (tget x.given o.out)
  match choose c o.out j (demandOf c true b) with
  | .error e => .error e
  | .ok f =>
    let int := intAcc g o
    match (if int then none else (accNeed o c b).filter (fun n => decide (24 < n))) with
    | some n => .error { kind := 1, reason := 4, cls := o.out, op := j, req := n, best := 24 }
    | none =>
      let give := giveBudget o c b
      .ok { given := o.inputs.foldl (fun l i => tset l i (match tget l i with
              | some y => max y give
              | none => give)) x.given,
            chosen := tset x.chosen o.out f,
            acc := if o.kind = 0 then tset x.acc o.out (if int then 2 else 1) else x.acc }

/-- Visits the op records from last to first. -/
def visitOps (g : Graph) : Nat → Binding → Except BindFault Binding
  | 0, x => .ok x
  | n + 1, x =>
    match g.ops[n]? with
    | none => visitOps g n x
    | some o => match visitOp g n o x with
      | .error e => .error e
      | .ok x => visitOps g n x

/-- Chooses the formats of the source classes, in ascending order. -/
def visitSources (g : Graph) : List Nat → Binding → Except BindFault Binding
  | [], x => .ok x
  | i :: rest, x =>
    if (tget x.chosen i).isSome then visitSources g rest x
    else
      let c := g.classes.getD i noClass
      match choose c i 0xFFFF (demandOf c false (budgetOf c (tget x.given i))) with
      | .error e => .error e
      | .ok f => visitSources g rest { x with chosen := tset x.chosen i f }

def bindGraph (g : Graph) : Except BindFault Binding :=
  match visitOps g g.ops.length { given := [], chosen := [], acc := [] } with
  | .error e => .error e
  | .ok x => visitSources g (upto g.classes.length) x

/-! ### The records (R79 to R81, R354, R406) -/

/-- Achieved bits (R79). -/
def achieved (c : ClassRec) (produced : Bool) (f : Candidate) : Int :=
  if isInt c then f.p else (f.p : Int) - (if produced then 1 else 0) - (if c.sr then 1 else 0)

def entryBytes (g : Graph) (x : Binding) (lseed : Word) (i : Nat) : List Byte :=
  let c := g.classes.getD i noClass
  let f := (tget x.chosen i).getD { kind := 0, fmt := 0, p := 0, blk := 0 }
  let seed : Word := if c.sr then lseed ^^^ BitVec.ofNat 32 (i * 0x01000193) else 0
  let ach := achieved c (g.ops.any (fun o => o.out == i)) f
  bytesOf 4 f.fmt.toNat ++ bytesOf 1 f.kind ++ bytesOf 1 ((tget x.acc i).getD 0) ++ bytesOf 1 f.blk ++ bytesOf 1 c.outl ++
    bytesOf 4 seed.toNat ++ bytesOf 1 (ach % 256).toNat ++
    bytesOf 1 ((if c.sr then 1 else 0) + (if c.pink ≠ 0 then 2 else 0) + 4) ++ bytesOf 2 0

/-- The digest of an image (R68). -/
def digestOf (image : List Byte) : List Byte := (sha384 image).take 8

def recordHeader (ncls : Nat) (image : List Byte) (lseed : Word) : List Byte :=
  padTo 64 (bytesOf 4 0x444E424B ++ bytesOf 2 1 ++ bytesOf 2 ncls ++ bytesOf 1 9 ++ bytesOf 7 0 ++ digestOf image ++
    bytesOf 4 lseed.toNat)

/-- The binding record of a graph; one without classes has a single zero entry (R354). -/
def recordOf (g : Graph) (x : Binding) (image : List Byte) (lseed : Word) : List Byte :=
  if g.classes.isEmpty then recordHeader 1 image lseed ++ List.replicate 16 0
  else recordHeader g.classes.length image lseed ++ (upto g.classes.length).flatMap (entryBytes g x lseed)

def faultBytes (f : BindFault) (image : List Byte) : List Byte :=
  bytesOf 4 0x544C4642 ++ bytesOf 2 1 ++ bytesOf 1 f.kind ++ bytesOf 1 f.reason ++ bytesOf 1 f.cls ++ bytesOf 2 f.op ++
    bytesOf 2 (f.req % 65536).toNat ++ bytesOf 2 (f.best % 65536).toNat ++ bytesOf 1 0 ++ digestOf image ++ bytesOf 8 0

/-- A pinned binding record that is native to the part: every one of its entries is (R83). -/
def nativeRecord (b : List Byte) : Bool :=
  let n := bytesAt b 6 2
  bytesAt b 0 4 == 0x444E424B && bytesAt b 4 2 == 1 && decide (1 ≤ n) && decide (n ≤ 64) && b.length == 64 + 16 * n &&
    (upto n).all (fun i => Entry.valid (BitVec.ofNat 128 (bytesAt b (64 + 16 * i) 16)))

/-- What the binder publishes. -/
def bindImage (image : List Byte) (lseed : Word) (pin : List Byte) : List Byte :=
  if nativeRecord pin then pin
  else match readGraph image with
    | .error f => faultBytes f image
    | .ok g => match bindGraph g with
      | .error f => faultBytes f image
      | .ok x => recordOf g x image lseed

/-- BINDER_RUN (R74): the record, or the fault record, is in the buffer at `dst`. -/
def execBinderRun (s : State) : Out :=
  let a := s.cur.arg
  .next (memWrite s a.dst (bindImage a.image a.lseed a.pinned))

end Sys2Proof.Machine
end

