-- ==== Sys2Proof/Machine/Gam.lean ====
section
/-!
DEFINITION. GAM slots and step-group headers as DRAIN, DRAIN.SKIP, GCLR and GRD use them: R221 to R226, R346, R409,
R411, R414, R429.
-/

namespace Sys2Proof.Machine

/-! ### Headers and groups -/

def freshHeader : GamHeader := { p1 := 0x3F800000, p2 := 0x3F800000, t := 0, owner := none }

def gamHeader (c : Core) (h : Nat) : GamHeader := cget freshHeader c.headers h
def setGamHeader (c : Core) (h : Nat) (x : GamHeader) : Core := { c with headers := cset freshHeader c.headers h x }

/-- A slot group operand (R224): first slot, count, header. -/
def groupFirst (x : DWord) : Nat := bitsAt x.toNat 0 8
def groupCount (x : DWord) : Nat := bitsAt x.toNat 8 9
def groupHeader (x : DWord) : Nat := bitsAt x.toNat 20 4

def groupSlots (x : DWord) : List Nat := (upto (groupCount x)).map (· + groupFirst x)

/-- What is wrong with the slots and the header that a form names: a group outside its limits, or an owner that is
another context. -/
def gamFault (s : State) (t : Team) (x : DWord) (ok : Bool) (slots : List Nat) (header : Option Nat) : Option Park :=
  let c := coreOf s t.core
  let other := slots.find? (fun i => ownedElsewhere (gamSlot c i).owner t.info.ctx)
  let otherHead := header.filter (fun h => ownedElsewhere (gamHeader c h).owner t.info.ctx)
  if !ok then some (parkOf s 1 x.toNat 10)
  else match other, otherHead with
    | some i, _ => some (parkOf s 1 i 18)
    | none, some h => some (parkOf s 1 h 18)
    | none, none => none

/-- The group lies inside the 256 slots; `zero` allows an empty one. -/
def groupOk (x : DWord) (zero : Bool) : Bool :=
  decide (groupFirst x + groupCount x ≤ 256) && (zero || decide (1 ≤ groupCount x))

/-- The slots become the context's. -/
def ownSlots (s : State) (t : Team) (slots : List Nat) : State :=
  modCore s t.core (fun c => slots.foldl (fun c i => setGamSlot c i { gamSlot c i with owner := some t.info.ctx }) c)

def ownHeader (s : State) (t : Team) (h : Nat) : State :=
  modCore s t.core (fun c => setGamHeader c h { gamHeader c h with owner := some t.info.ctx })

/-- Slots are cleared to +0 with NF = 0. -/
def clearSlots (s : State) (t : Team) (slots : List Nat) : State :=
  modCore s t.core (fun c => slots.foldl (fun c i =>
    setGamSlot c i { GamSlot.fresh with owner := some t.info.ctx }) c)

/-- The NF bits of slots, which a poisoned element sets (R384). -/
def anyNf (s : State) (t : Team) (slots : List Nat) : Bool :=
  slots.any (fun i => (gamSlot (coreOf s t.core) i).nf || !(gamSlot (coreOf s t.core) i).poison.isEmpty)

/-! ### The memory accesses of a GAM form (R226, R346) -/

/-- A range of memory that a form reads or writes: address, bytes, alignment, residency id, and whether its addresses are
formed modulo 2^56, as a handle's are (R339). -/
structure Span where
  kind : Kind
  va : BitVec 64
  n : Nat
  align : Nat
  rid : Nat
  wraps : Bool := false
deriving DecidableEq, Repr

/-- The length of the piece of a range that begins `lo` bytes into it: pieces end with their line of 128 bytes. -/
def Span.piece (x : Span) (lo : Nat) : Nat := min (x.n - lo) (128 - (x.va.toNat + lo) % 128)

/-- Where the pieces of a range begin. -/
def Span.starts (x : Span) : List Nat :=
  ((upto ((x.va.toNat % 128 + x.n + 127) / 128)).map (fun i => if i = 0 then 0 else 128 * i - x.va.toNat % 128)).filter
    (fun lo => decide (lo < x.n))

/-- The number of an access of the `i`-th range of a form, `lo` bytes into it. -/
def spanIndex (i lo : Nat) : Nat := 2 ^ 24 * i + lo

/-- The accesses to a range, one for each line of 128 bytes it touches. -/
def spanWants (lane : Nat × Nat) (i : Nat) (x : Span) : List Want :=
  x.starts.map (fun lo =>
    let a := x.va + BitVec.ofNat 64 lo
    { lane := lane, ix := spanIndex i lo, addr := if x.wraps then (a.setWidth 56).setWidth 64 else a, w := x.piece lo,
      align := if lo = 0 then x.align else 1, rid := x.rid })

/-- What the reads of the `i`-th range have got. -/
def spanGot (read : List Answer) (i : Nat) : List Byte :=
  (read.filter (fun r => r.1.ix / 2 ^ 24 == i)).flatMap (·.2.1)

/-- The accesses to the ranges of a form: reads first, then the writes of what is computed from them (R226). -/
def spanJobs (lane : Nat × Nat) (spans : List Span) (compute : List (List Byte) → List (List Byte)) : List Job :=
  let reads := spans.filter (fun x => x.kind == .read)
  let n := reads.length
  let ranges := reads ++ spans.filter (fun x => x.kind != .read)
  ((upto ranges.length).zip ranges).map (fun y =>
    { q := qualOf none y.2.kind,
      act := fun read =>
        if y.1 < n then .load true none
        else
          let d := (compute ((upto n).map (spanGot read))).getD (y.1 - n) []
          .storeL2 (fun _ ix => d.drop (ix % 2 ^ 24) |>.take (y.2.piece (ix % 2 ^ 24))),
      wants := spanWants lane y.1 y.2 })

/-- Carries out a form's accesses for its group (R309, R226). Without a representative it writes nothing; its reads are then
made by its lowest lane. `give` gets the bytes read. -/
def spanForm (s : State) (t : Team) (g : Grp) (spans : List Span) (compute : List (List Byte) → List (List Byte))
    (give : State → List (List Byte) → State) : Out :=
  let rep := representative t g
  let spans := spans.filter (fun x => x.kind == .read || rep.isSome)
  let n := (spans.filter (fun x => x.kind == .read)).length
  memForm { sp := .global, uni := true, note := false, dest := [],
            jobs := spanJobs (rep.getD (g.lanes.headD (0, 0))) spans compute }
    s t g (fun s read => give s ((upto n).map (spanGot read)))

/-! ### DRAIN (R224, R225) -/

/-- The fields of a drain descriptor. -/
structure DrainDesc where
  sgd : Bool
  nwen : Bool
  nwh : BitVec 4
  lr : Word
  waddr : BitVec 64
  maddr : BitVec 64
  vaddr : BitVec 64
  beta1 : Word
  beta2 : Word
  omb1 : Word
  omb2 : Word
  eps : Word
  lambda : Word
  mu : Word
  gscale : Word
deriving DecidableEq, Repr

def drainDesc (b : List Byte) : DrainDesc :=
  let w := fun (i : Nat) => BitVec.ofNat 32 (bytesAt b i 4)
  let d := fun (i : Nat) => BitVec.ofNat 64 (bytesAt b i 8)
  { sgd := (w 0).getLsbD 0, nwen := (w 0).getLsbD 1, nwh := (w 0).extractLsb' 2 4, lr := w 4, waddr := d 8, maddr := d 16,
    vaddr := d 24, beta1 := w 32, beta2 := w 36, omb1 := w 40, omb2 := w 44, eps := w 48, lambda := w 52, mu := w 56,
    gscale := w 60 }

def fdiv32 (a b : Word) : Word := to32 ((f32 a).div (f32 b))

/-- The header after the step; momentum counts the step alone. -/
def drainHeader (d : DrainDesc) (h : GamHeader) : GamHeader :=
  if d.sgd then { h with t := h.t + 1 }
  else { h with p1 := fmul32 h.p1 d.beta1, p2 := fmul32 h.p2 d.beta2, t := h.t + 1 }

/-- One element: gradient, moments and weight give the new moments and weight. `h` is the header after the step. -/
def drainElement (d : DrainDesc) (h : GamHeader) (grad m v w : Word) : Word × Word × Word :=
  let g := fmul32 grad d.gscale
  if d.sgd then
    let m := fadd32 (fmul32 d.mu m) g
    (m, v, fsub32 w (fmul32 d.lr m))
  else
    let q1 := fsub32 0x3F800000 h.p1
    let q2 := fsub32 0x3F800000 h.p2
    let m := fadd32 (fmul32 d.beta1 m) (fmul32 d.omb1 g)
    let v := fadd32 (fmul32 d.beta2 v) (fmul32 d.omb2 (fmul32 g g))
    let u := fdiv32 (fdiv32 m q1) (fadd32 (fsqrt32 (fdiv32 v q2)) d.eps)
    (m, v, fsub32 w (fmul32 d.lr (fadd32 u (fmul32 d.lambda w))))

/-- The gradients of the group as FP32: an INT32 slot's elements are converted. -/
def gradients (c : Core) (slots : List Nat) : List Word :=
  slots.flatMap (fun i =>
    let x := gamSlot c i
    if x.int then x.words.map (fun w => to32 (FVal.ofInt w.toInt)) else x.words)

/-- The words of a range of memory. -/
def wordsIn (b : List Byte) (n : Nat) : List Word := (upto n).map (fun i => BitVec.ofNat 32 (bytesAt b (4 * i) 4))

/-- The new moments and weights, element by element. -/
def drainAll (d : DrainDesc) (h : GamHeader) (grads : List Word) (ms vs ws : List Word) : List (Word × Word × Word) :=
  (upto grads.length).map (fun i => drainElement d h (grads.getD i 0) (ms.getD i 0) (vs.getD i 0) (ws.getD i 0))

/-- The narrow weights as packed: the blocks and each four elements' supply. -/
def narrowSupply (t : Team) (w : Warp) (nwh : BitVec 4) (lane : Nat × Nat) (ws : List Word) : List Supply × List Block :=
  let h : Handle := w.h.getD nwh.toNat 0
  let sup := (upto (ws.length / 4)).map (fun i =>
    ({ lane := lane, h := h, e := 4 * i, xs := (upto 4).map (fun j => ws.getD (4 * i + j) 0) } : Supply))
  (sup, packBlocks t sup (fun h e => h.oe && e.outl != 0))

/-- The bytes of the narrow weights: codes, scales, side entries. -/
def narrowBytes (t : Team) (h : Handle) (sup : List Supply) (bs : List Block) : List (List Byte) :=
  let e := entryOf t h.cls
  let c := e.elem.container
  let codes := sup.flatMap (fun u => bytesOf 4 (packedCodes t bs u) |>.take (4 * c / 8))
  let nibbles := (upto (bs.length / 2)).flatMap (fun i =>
    bytesOf 1 ((bs.map (·.raw)).getD (2 * i) 0 + 16 * (bs.map (·.raw)).getD (2 * i + 1) 0))
  let subCodes := (upto (sup.length * 4 * c / 8)).map (fun i =>
    BitVec.ofNat 8 (((upto (2 / c)).map (fun j => packedCodes t bs (sup.getD (i * (2 / c) + j) { lane := (0, 0), h := h, e := 0, xs := [] }) *
      2 ^ (4 * c * j))).foldl (· + ·) 0))
  (if c = 1 then subCodes else codes) ::
    (match e.elem.scale with
      | 1 => [bs.flatMap (fun b => bytesOf 2 b.raw)]
      | 2 => [nibbles]
      | _ => []) ++ (if h.oe && e.outl != 0 then [bs.flatMap (sideBytes e)] else [])

/-- The ranges that the narrow weights of `n` elements take. -/
def narrowSpans (t : Team) (h : Handle) (n : Nat) : List Span :=
  let e := entryOf t h.cls
  let blocks := n / e.block
  let put := fun (a : BitVec 56) (len align : Nat) => ({ kind := .write, va := a.setWidth 64, n := len, align := align, rid := h.rid, wraps := true } : Span)
  put h.base (n * e.elem.container / 8) 1 ::
    (match e.elem.scale with
      | 1 => [put h.saddr (2 * blocks) 2]
      | 2 => [put h.saddr (blocks / 2) 1]
      | _ => []) ++ (if h.oe && e.outl != 0 then [put h.oaddr (4 * e.outl * blocks) 4] else [])

/-- The events of the narrow weights, charged to the class of their handle (R409). -/
def narrowEvents (t : Team) (cls : Nat) (sup : List Supply) (bs : List Block) : NumEv :=
  let evs := sup.map (itemsEvent t bs)
  { tid := 0, cls := cls, nan := (evs.map (·.nan)).foldl (· + ·) 0, sat := (evs.map (·.sat)).foldl (· + ·) 0,
    outov := (bs.filter (·.excess)).length }

/-- After a DRAIN: the events are counted, and where the context traps them the issuing group parks (R411). -/
def drainTail (s : State) (e : NumEv) : State :=
  let k := s.cur.team
  match issuer s with
  | none => s
  | some (t, g) =>
    let s := countNumeric s t.info.ctx t.core e.cls e.nan e.sat e.outov 0
    match numPark (numcfg s t.info.ctx) e with
    | some (_, p) => trapLanes s k g 2 (g.lanes.map (fun l => (l.2, p)))
    | none => s

/-- A group outside its limits, or an owner that is another context. -/
def drainCheck (sb : BitVec 6) : Check := fun s t g =>
  let x := uReg (warpOf t g.warp) sb.toNat
  gamFault s t x (groupOk x false) (groupSlots x) (some (groupHeader x))

def execDrain (sa sb : BitVec 6) (s : State) : Out :=
  uniformForm false s (fun s t g =>
    let w := warpOf t g.warp
    let x := uReg w sb.toNat
    let slots := groupSlots x
    let h := groupHeader x
    match gamFault s t x (groupOk x false) slots (some h) with
    | some p => trapUniform s g p
    | none =>
      let lane := (representative t g).getD (g.lanes.headD (0, 0))
      let desc : Span := { kind := .read, va := uReg w sa.toNat, n := 64, align := 64, rid := 0 }
      match probeGlobal s t g.handler .read { lane := lane, ix := 0, addr := desc.va, w := 64, align := 64 } with
      | .error p => trapUniform s g p
      | .ok plan =>
        let d := drainDesc (match g.done.find? (fun m => m.ix == 0) with
          | some m => m.data
          | none => (peekPlan s t.core plan).2.1)
        let nh : Handle := w.h.getD d.nwh.toNat 0
        match (if d.nwen then handleFault t nh isNarrow else none) with
        | some r => trapUniform s g (parkOf s 1 nh.cls r)
        | none =>
          let n := 2048 * groupCount x
          let span := fun (k : Kind) (a : BitVec 64) => ({ kind := k, va := a, n := 4 * n, align := 4, rid := 0 } : Span)
          let head := drainHeader d (gamHeader (coreOf s t.core) h)
          let result := fun (got : List (List Byte)) =>
            drainAll d head (gradients (coreOf s t.core) slots) (wordsIn (got.getD 2 []) n)
              (if d.sgd then [] else wordsIn (got.getD 3 []) n) (wordsIn (got.getD 1 []) n)
          let bytes := fun (l : List Word) => l.flatMap (fun x => bytesOf 4 x.toNat)
          let narrow := fun (got : List (List Byte)) => narrowSupply t w d.nwh lane ((result got).map (·.2.2))
          spanForm s t g
            ([desc, span .read d.waddr, span .read d.maddr] ++ (if d.sgd then [] else [span .read d.vaddr]) ++
              [span .write d.maddr] ++ (if d.sgd then [] else [span .write d.vaddr]) ++ [span .write d.waddr] ++
              (if d.nwen then narrowSpans t nh n else []))
            (fun got =>
              let r := result got
              [bytes (r.map (·.1))] ++ (if d.sgd then [] else [bytes (r.map (·.2.1))]) ++ [bytes (r.map (·.2.2))] ++
                (if d.nwen then
                  let p := narrow got
                  narrowBytes t nh p.1 p.2
                else []))
            (fun s got =>
              let s := clearSlots (meetPoison s t.core slots) t slots
              let s := modCore s t.core (fun c => setGamHeader c h { head with owner := some t.info.ctx })
              let s := modTeam s s.cur.team (advance s)
              if d.nwen then
                let p := narrow got
                drainTail s (narrowEvents t nh.cls p.1 p.2)
              else s)) (drainCheck sb)

def skipCheck (sb : BitVec 6) : Check := fun s t g =>
  let x := uReg (warpOf t g.warp) sb.toNat
  gamFault s t x (groupOk x false) (groupSlots x) none

def execDrainSkip (sb : BitVec 6) (s : State) : Out :=
  uniformForm false s (fun s t g =>
    match skipCheck sb s t g with
    | some p => trapUniform s g p
    | none => .next (modTeam (clearSlots s t (groupSlots (uReg (warpOf t g.warp) sb.toNat))) s.cur.team (advance s)))
    (skipCheck sb)

/-! ### GCLR and GRD (R346) -/

/-- The memory address that a GCLR or GRD names: its operand without the low byte and the top byte. -/
def gamAddress (x : DWord) : BitVec 64 := x &&& 0x00FFFFFFFFFFFF00

def gclrCheck (sa sb : BitVec 6) : Check := fun s t g =>
  let x := uReg (warpOf t g.warp) sb.toNat
  gamFault s t x (groupOk x true) (groupSlots x)
    (if (uReg (warpOf t g.warp) sa.toNat).getLsbD 0 then some (groupHeader x) else none)

def grdCheck (sd sa sb : BitVec 6) : Check := fun s t g =>
  let x := uReg (warpOf t g.warp) sb.toNat
  match (uReg (warpOf t g.warp) sa.toNat).toNat % 4 with
  | 0 => gamFault s t x true [groupFirst x] none
  | 2 =>
    if sd.toNat % 2 = 1 ∨ sd.toNat = 0 then some (parkOf s 1 sd.toNat 5)
    else gamFault s t x true [] (some (bitsAt x.toNat 0 4))
  | _ => gamFault s t x (groupOk x false) (groupSlots x) none

def execGclr (sa sb : BitVec 6) (s : State) : Out :=
  uniformForm false s (fun s t g =>
    let w := warpOf t g.warp
    let a := uReg w sa.toNat
    let x := uReg w sb.toNat
    let slots := groupSlots x
    let head := if a.getLsbD 0 then some (groupHeader x) else none
    match gamFault s t x (groupOk x true) slots head with
    | some p => trapUniform s g p
    | none =>
      let clear := fun (s : State) =>
        let s := clearSlots s t slots
        match head with
        | some h => modCore s t.core (fun c => setGamHeader c h { freshHeader with owner := some t.info.ctx })
        | none => s
      if a.getLsbD 1 then
        spanForm s t g [{ kind := .read, va := gamAddress a, n := 8192 * groupCount x, align := 1, rid := 0 }] (fun _ => [])
          (fun s got =>
            let kinds := slots.map (fun i => (gamSlot (coreOf s t.core) i).int)
            let s := clear s
            let s := modCore s t.core (fun c => ((upto slots.length).zip slots).foldl (fun c i =>
              setGamSlot c i.2
                { gamSlot c i.2 with elems := gamElems (wordsIn ((got.getD 0 []).drop (8192 * i.1)) 2048),
                                     int := kinds.getD i.1 false }) c)
            modTeam s s.cur.team (advance s))
      else .next (modTeam (clear s) s.cur.team (advance s))) (gclrCheck sa sb)

def execGrd (sd sa sb : BitVec 6) (s : State) : Out :=
  uniformForm true s (fun s t g =>
    let w := warpOf t g.warp
    let a := uReg w sa.toNat
    let x := uReg w sb.toNat
    let slots := groupSlots x
    let c := coreOf s t.core
    let put := fun (s : State) (f : Warp → Warp) => modTeam s s.cur.team (fun t => advance s (modWarp t g.warp f))
    let flag := fun (s : State) => put s (fun w => setU w sd.toNat (bit 64 (anyNf s t slots)))
    match a.toNat % 4 with
    | 0 =>
      let i := groupFirst x
      let e := bitsAt x.toNat 8 11
      match gamFault s t x true [i] none with
      | some p => trapUniform s g p
      | none =>
        let y := gamSlot c i
        let bad := y.poison.contains (e / 8)
        let s := if bad then meetGranule t.core i s (e / 8) else s
        let v := if bad then 0 else cget 0 y.elems e
        .next (put (ownSlots s t [i]) (fun w => setU w sd.toNat (zext32 v)))
    | 1 =>
      match gamFault s t x (groupOk x false) slots none with
      | some p => trapUniform s g p
      | none => .next (flag (ownSlots s t slots))
    | 2 =>
      let h := bitsAt x.toNat 0 4
      if sd.toNat % 2 = 1 ∨ sd.toNat = 0 then trapUniform s g (parkOf s 1 sd.toNat 5)
      else match gamFault s t x true [] (some h) with
        | some p => trapUniform s g p
        | none =>
          let y := gamHeader c h
          .next (put (ownHeader s t h) (fun w => setU (setU w sd.toNat (zext32 y.t)) (sd.toNat + 1) (y.p2 ++ y.p1)))
    | _ =>
      match gamFault s t x (groupOk x false) slots none with
      | some p => trapUniform s g p
      | none =>
        spanForm s t g [{ kind := .write, va := gamAddress a, n := 8192 * groupCount x, align := 1, rid := 0 }]
          (fun _ => [slots.flatMap (fun i => (gamSlot c i).words.flatMap (fun y => bytesOf 4 y.toNat))])
          (fun s _ => flag (meetPoison (ownSlots s t slots) t.core slots))) (grdCheck sd sa sb)

end Sys2Proof.Machine
end

