-- ==== Sys2Proof/Machine/Score.lean ====
section
/-!
DEFINITION. The scoreboard (R166, R167, R428): the registers that an instruction names, those that outstanding requests still
write, and the return of a group to its instruction.
-/

namespace Sys2Proof.Machine

/-- The lane registers of a width code's tuple (R286). -/
def wide (w : BitVec 2) (vd : BitVec 6) : List (Nat × Nat) :=
  (upto ([1, 2, 4, 1].getD w.toNat 1)).map (fun i => (0, vd.toNat + i))

/-- The registers that an instruction reads or writes, by the kinds of R428: 0 lane, 1 uniform, 2 lane predicate, 3 uniform
flag. Those of its guard are not among them. -/
def namesOf (i : Instr) : List (Nat × Nat) :=
  match i with
  | .iadd vd va vb | .isub vd va vb | .imin vd va vb | .imax vd va vb | .nmin vd va vb | .nmax vd va vb
  | .iabsd vd va vb | .navg vd va vb | .imul vd va vb | .imulh vd va vb | .nmulh vd va vb | .imad vd va vb
  | .and vd va vb | .or vd va vb | .xor vd va vb | .andn vd va vb | .shl vd va vb | .shr vd va vb | .sar vd va vb
  | .rol vd va vb | .bfx vd va vb | .bfxn vd va vb | .bfi vd va vb | .prmt vd va vb | .fadd vd va vb | .fsub vd va vb
  | .fmul vd va vb | .ffma vd va vb | .fmin vd va vb | .fmax vd va vb | .fabsd vd va vb | .fcpys vd va vb
  | .phadd vd va vb | .phmul vd va vb | .phfma vd va vb | .phmax vd va vb | .pbadd vd va vb | .pbmul vd va vb
  | .pbfma vd va vb | .pbmax vd va vb | .shfl vd va vb | .shflu vd va vb | .shfld vd va vb | .shflx vd va vb
  | .f2h2 vd va vb | .f2b2 vd va vb | .qbc vd va vb | .mma vd va vb _ | .mmaSpad vd va vb _ | .mmaQueue vd va vb _
  | .mmag vd va vb _ | .mmagSpad vd va vb _ | .mmagQueue vd va vb _ =>
    [(0, vd.toNat), (0, va.toNat), (0, vb.toNat)]
  | .popc vd va | .clz vd va | .brev vd va | .ffs vd va | .frcp vd va | .frsq vd va | .fex2 vd va | .flg2 vd va
  | .fsin vd va | .fcos vd va | .fsqrt vd va | .ftanh vd va | .i2f vd va | .n2f vd va | .f2i vd va | .f2n vd va
  | .frne vd va | .fflr vd va | .fceil vd va | .ftrnc vd va | .wradd vd va | .wrmax vd va | .wrfadd vd va
  | .wrfmax vd va | .h2f vd va _ | .b2f vd va _ | .cvtn vd va _ | .cvtsr vd va _ | .cvtw vd va _ | .packn vd va _
  | .qxh vd va | .qxv vd va | .qxd vd va | .vany vd va | .vall vd va | .vmatch vd va | .vmov vd va | .iaddi vd va _
  | .shli vd va _ | .shri vd va _ | .andi vd va _ | .ori vd va _ | .xori vd va _ | .cld _ vd va _ _
  | .cstElem vd va _ _ | .cstBlk vd va _ _ =>
    [(0, vd.toNat), (0, va.toNat)]
  | .icmpp pd _ va vb _ | .fcmpp pd _ va vb _ =>
    [(2, pd.toNat), (0, va.toNat), (0, vb.toNat)]
  | .sel vd va vb k =>
    [(0, vd.toNat), (0, va.toNat), (0, vb.toNat), (2, k.toNat)]
  | .ballot sd va =>
    [(1, sd.toNat), (0, va.toNat)]
  | .vmovs vd sa _ =>
    [(0, vd.toNat), (1, sa.toNat)]
  | .vspec vd _ | .movi vd _ =>
    [(0, vd.toNat)]
  | .ld w vd va sb _ | .st w vd va sb _ | .ldx w vd va sb _ | .stx w vd va sb _ =>
    wide w vd ++ [(0, va.toNat), (1, sb.toNat)]
  | .ldb _ vd va sb _ | .stb vd va sb _ | .ldt _ vd va sb _ | .atomAdd vd va sb _ | .atomFadd vd va sb _
  | .atomExch vd va sb _ | .atomNmin vd va sb _ | .atomNmax vd va sb _ | .atomAnd vd va sb _ | .atomOr vd va sb _
  | .atomxAdd vd va sb _ | .atomxExch vd va sb _ | .atomxNmax vd va sb _ | .kvldK vd va sb | .kvldVt vd va sb
  | .kvappK vd va sb | .kvappV vd va sb | .ssld vd va sb | .ssst vd va sb | .ropeInter vd va sb | .ropeSplit vd va sb
  | .waitc _ vd va sb =>
    [(0, vd.toNat), (0, va.toNat), (1, sb.toNat)]
  | .atomCas vd va sb _ | .atomxCas vd va sb _ =>
    [(0, vd.toNat), (0, vd.toNat + 1), (0, va.toNat), (1, sb.toNat)]
  | .kvappCommit va sb =>
    [(0, va.toNat), (1, sb.toNat)]
  | .bra _ | .rcvset _ | .reform _ | .rejoin _ | .spawn _ | .jmp _ | .jcall _ | .trap _ | .qunb _ | .qreset _
  | .rcvwait | .exit | .yield | .fenceRel | .fenceAcq | .fenceFull | .sret | .regxAcq | .regxRel | .prioPass
  | .prioTake | .nrst | .brk | .sample | .nop | .launchPublish | .cpyLoad | .cpyStore | .cpyQstore | .cpyQload
  | .gatGather | .gatGatherq | .gatScatter | .kvsStreamk | .kvsStreamvt | .decDecode | .colAllreduce
  | .colReducescatter | .colAllgather | .ssuCopy | .ckpCheckpoint | .engineCommandTake | .pushwAccept
  | .engineUnitDone | .engineQueueResume | .colPeerTimeout | .launchRecordHead | .launchWaitConditionHolds
  | .teamPlace | .teamRetire | .formationDraw | .binTimerExpiry | .spawnBinTimerExpiry | .quantumEnd
  | .loadAllowanceUpdate | .pageWalkComplete | .loadDataReturn | .raceVerdictReturn | .trapEntry | .matrixResult
  | .monitorPoll | .waitTimeout | .queuePortResume | .regxAcqGrant | .l1Eviction | .replayGateTimeout
  | .breakpointSwapOut | .flitCrcError | .flitRetransmit | .cxlError | .cxlReadTimeout | .cxlLinkDown | .cxlLinkUp
  | .throttleOnset | .throttleRelease | .thermalTrip | .powerGood | .functionReady | .bootctlGo | .resetFull
  | .resetCores | .lqscan | .tlbinvAddress | .tlbinvAll | .tlbinvComplete | .attestRequest | .attestDone
  | .pstateWrite | .pstateChange | .gamrelStart | .gamrelComplete | .prectlSave | .contextSaveComplete
  | .prectlRestore | .contextRestoreComplete | .dbgresResume | .dbgresSkip | .dbgresKill | .tickStop | .stopResume
  | .scandataRead | .repctlReplay | .rlfillWrite | .crumbMirror | .hostRead | .hostWrite | .fabricPeerAccess
  | .binderRun | .registerWrite | .illegalInstruction | .writeAcknowledgement | .colSegmentArrival | .flitNotReady
  | .powerLoss =>
    []
  | .call _ | .ret =>
    [(0, 31)]
  | .callr va =>
    [(0, va.toNat), (0, 31)]
  | .brx va =>
    [(0, va.toNat)]
  | .sadd sd sa sb | .ssub sd sa sb | .smin sd sa sb | .smax sd sa sb | .smul sd sa sb | .smulh sd sa sb
  | .sdivn sd sa sb | .sremn sd sa sb | .sand sd sa sb | .sor sd sa sb | .sxor sd sa sb | .sandn sd sa sb
  | .sshl sd sa sb | .sshr sd sa sb | .ssar sd sa sb | .srol sd sa sb | .sfadd sd sa sb | .sfsub sd sa sb
  | .sfmul sd sa sb | .sffma sd sa sb | .sld _ sd sa sb _ | .sst _ sd sa sb _ | .satomAdd sd sa sb _
  | .satomExch sd sa sb _ | .satomCas sd sa sb _ | .satomNmax sd sa sb _ | .launch sd sa sb | .grd sd sa sb =>
    [(1, sd.toNat), (1, sa.toNat), (1, sb.toNat)]
  | .spopc sd sa | .sclz sd sa | .sbrev sd sa | .sffs sd sa | .si2f sd sa | .sf2i sd sa | .sfrcp sd sa
  | .sfsqrt sd sa | .smov sd sa | .saddi sd sa _ | .sshli sd sa _ | .sandi sd sa _ | .sori sd sa _ | .resqry sd sa
  | .waitany sd sa _ | .waitall sd sa _ | .seqinfo sd sa | .ssroll sd sa =>
    [(1, sd.toNat), (1, sa.toNat)]
  | .ssetc cd _ sa sb _ =>
    [(3, cd.toNat), (1, sa.toNat), (1, sb.toNat)]
  | .ssel sd sa sb k =>
    [(1, sd.toNat), (1, sa.toNat), (1, sb.toNat), (3, k.toNat)]
  | .srd sd _ | .smovi sd _ | .hget sd _ | .bar sd _ | .cbar sd _ | .bara sd _ | .barw sd _ | .qstat sd _ | .ssnap sd
  | .mget sd _ | .nrd sd | .hashrd sd =>
    [(1, sd.toNat)]
  | .swr _ sa | .respro sa | .hset _ sa | .hcls _ sa | .hseed _ sa | .jmpr sa | .rte sa | .wcondBcb _ sa
  | .pushw sa _ | .qbind _ sa | .prioPair sa | .seqfree sa | .sscommit sa | .ssbind sa | .mset _ sa | .mark sa =>
    [(1, sa.toNat)]
  | .discard sa sb | .flush sa sb | .inval sa sb | .pfetch sa sb | .respri sa sb | .resdem sa sb | .wcondAddr _ sa sb
  | .wcondQueue _ sa sb | .wcondCompl _ sa sb | .kick sa sb | .seqfork sa sb | .seqtrunc sa sb | .drain sa sb
  | .gclr sa sb =>
    [(1, sa.toNat), (1, sb.toNat)]
  | .push fd sa _ =>
    [(3, fd.toNat), (1, sa.toNat)]
  | .regxTry fd =>
    [(3, fd.toNat)]
  | .drainSkip sb =>
    [(1, sb.toNat)]
  | .nchk fd sa sb =>
    [(3, fd.toNat), (1, sa.toNat), (1, sb.toNat)]

/-- What the scoreboard finds pending for an instruction (R167): a register that a request writes, else the one that the
script names; how long the pipelines hold a result the spec leaves to them. A group whose last STALL is 7 meets no check
(R166, R428). -/
def pendingFor (s : State) (k : Nat) (t : Team) (g : Grp) (i : Instr) (guard : BitVec 2) (script : Option (Nat × Nat)) :
    Option (Nat × Nat) :=
  let uniform := s.cur.word.getLsbD 31
  let names := (if guard = 0 then [] else [(if uniform then 3 else 2, guard.toNat)]) ++ namesOf i
  let lanes := if uniform then g.lanes else takesPart t g guard
  if g.owed || lanes.isEmpty then none
  else match names.find? (requestWrites (coreOf s t.core) k lanes) with
    | some x => some x
    | none => script.filter (fun x => names.contains x)

/-- What the scoreboard does about a pending register (R167, R428): with SBCHK set the lanes that take part park, else
the group goes back to the scheduler; two cycles after the register's release it issues again. -/
def stallCheck (s : State) (t : Team) (g : Grp) (x : Nat × Nat) : State :=
  if (ctxOf s t.info.ctx).sbchk.getLsbD 0 then
    let uniform := s.cur.word.getLsbD 31
    let lanes := if uniform then g.lanes else takesPart t g s.cur.hdr.guard
    trapLanes s s.cur.team g (if uniform then 2 else 0) (lanes.map (fun l => (l.2, parkOf s 3 x.2 x.1)))
  else modTeam s s.cur.team (fun t => modGroup t g.gid (fun y =>
    if requestWrites (coreOf s t.core) s.cur.team g.lanes x then { y with wait := .score x.2 } else { y with next := s.gtick + 2 }))

end Sys2Proof.Machine
end

