-- ==== Sys2Proof/Machine/Issue.lean ====
section
/-!
DEFINITION. Issue: which group of a slice issues next (R38, R153, R162, R163), and what happens before its instruction
runs: the fetch and its faults (R239, R393), the decode and ILLEGAL_INSTRUCTION (R415 to R419), exec watches (R374,
R376), the scoreboard (R167, R428).
-/

namespace Sys2Proof.Machine

/-! ### Candidates and their ranks -/

/-- A wait that ends by asking again; a WAITC some of whose lanes a replay gate holds back registers them so (R379). -/
def asksAgain (w : Wait) : Bool :=
  match w with
  | .retry _ => true
  | .port _ _ _ => true
  | .lanes _ l => l.any (fun x => x.gate.isSome)
  | _ => false

/-- A team that may issue: its context runs (R440) and no breakpoint has stopped it (R374). -/
def teamRuns (s : State) (t : Team) : Bool := (ctxOf s t.info.ctx).stat == 0 && t.brk.isNone

/-- The groups of running teams that satisfy a test of their wait. -/
def groupsThat (s : State) (f : Wait → Bool) : List (Nat × Team × Grp) :=
  (s.teams.filter (fun x => teamRuns s x.2)).flatMap (fun x =>
    (x.2.groups.filter (fun g => groupRuns s x.1 x.2 g && f g.wait)).map (fun g => (x.1, x.2, g)))

/-- Ready for 4,096 cycles without issuing (R38). -/
def aged (now : Nat) (g : Grp) : Bool := decide (g.ready + 4096 ≤ now)

/-- The keys of R162, smaller first: aged candidates by the time they wait, the token's holder, the launch priority (a
queue's number div 8), the age. -/
def rankOf (now : Nat) (x : Nat × Team × Grp) : List Nat :=
  let g := x.2.2
  (if aged now g then [0, g.ready] else [1, 0]) ++
    [if !g.formation && (warpOf x.2.1 g.warp).token then 0 else 1, 7 - x.2.1.info.lq / 8, g.formed, g.warp,
      (g.lanes.head?.map (·.1)).getD 32]

def before : List Nat → List Nat → Bool
  | a :: r, b :: q => decide (a < b) || (a == b && before r q)
  | _, _ => false

/-- The candidate that ranks first. -/
def best (now : Nat) (l : List (Nat × Team × Grp)) : Option (Nat × Team × Grp) :=
  l.foldl (fun b x => match b with
    | none => some x
    | some y => if before (rankOf now x) (rankOf now y) then some x else b) none

/-- A candidate that a YIELD of another still lets go first (R307). -/
def yields (now : Nat) (l : List (Nat × Team × Grp)) (x : Nat × Team × Grp) : Bool :=
  decide (now < x.2.2.yieldEnd) && l.any (fun y => x.2.2.after.contains (y.1, y.2.2.gid))

/-- The word that a group issues next, with its instruction; none where it cannot be fetched. -/
def nextIssue (s : State) (x : Nat × Team × Grp) : Option (Word × Option Instr) :=
  match fetchGroup s x.2.1 x.2.2.handler x.2.2.pc with
  | .error _ => none
  | .ok ws => some ((ws.getLast?.map (·.2)).getD 0, (match decodeGroup (ws.map (·.2)) with
      | .error _ => none
      | .ok d => some d.instr))

/-- A group whose next instruction is a global load (R163). -/
def loadsNext (s : State) (x : Nat × Team × Grp) : Bool :=
  match (nextIssue s x).bind (·.2) with
  | some (.ld _ _ _ _ _) => true
  | some (.ldb _ _ _ _ _) => true
  | some (.ldt _ _ _ _ _) => true
  | some (.cld _ _ _ _ _) => true
  | some (.sld _ _ _ _ _) => true
  | _ => false

/-- Whether a group's next word goes to the uniform pipe (R162). -/
def uniformNext (s : State) (x : Nat × Team × Grp) : Bool :=
  match nextIssue s x with
  | some (w, _) => w.getLsbD 31
  | none => false

/-- What a slice has issued in this cycle. -/
def issuedNow (s : State) (core slice : Nat) : List Issued :=
  (coreOf s core).issued.filter (fun i => i.slice == slice && i.tick == s.gtick)

/-- Whether a slice can issue a candidate in this cycle: another group than those that have issued, for a pipe that is free
(R162). -/
def pipeFree (s : State) (core slice : Nat) (x : Nat × Team × Grp) : Bool :=
  (issuedNow s core slice).all (fun i => i.uniform != uniformNext s x && !(i.team == x.1 && i.gid == x.2.2.gid))

/-- A slice issues a group: a cycle's issues are kept together. -/
def noteIssue (s : State) (t : Team) (k : Nat) (g : Grp) (word : Word) : State :=
  let one : Issued := { slice := g.slice, tick := s.gtick, uniform := word.getLsbD 31, team := k, gid := g.gid }
  modCore s t.core (fun c =>
    let same := c.issued.filter (fun i => i.tick == s.gtick)
    { c with issued := one :: same })

/-- Age alone (R162, key 5). -/
def older (x y : Nat × Team × Grp) : Bool := before ((rankOf 0 x).drop 4) ((rankOf 0 y).drop 4)

/-- Every candidate of a slice, ready or not. -/
def candidatesOn (s : State) (core slice : Nat) : List (Nat × Team × Grp) :=
  (s.teams.filter (fun x => teamRuns s x.2 && x.2.core == core)).flatMap (fun x =>
    (x.2.groups.filter (fun g => g.slice == slice && g.park.isNone && !(warpOf x.2 g.warp).swapped)).map (fun g => (x.1, x.2, g)))

/-- The ready candidates without those that the throttle passes over: of the candidates whose next instruction is a global
load, only the oldest may issue it (R163). -/
def throttled (s : State) (core slice : Nat) (l : List (Nat × Team × Grp)) : List (Nat × Team × Grp) :=
  let n := (coreOf s core).allowance.getD slice 32
  let all := candidatesOn s core slice
  if all.length ≤ n then l
  else
    let loads := all.filter (loadsNext s)
    l.filter (fun x => aged s.gtick x.2.2 || !loads.contains x ||
      decide ((loads.filter (fun y => older y x)).length < n))

/-- The group that a slice issues: of its ready candidates, those that `held` names apart, the first by R162; a group
whose wait asks again comes when no candidate is ready, or when it has aged. -/
def chooseGroup (s : State) (core slice : Nat) (held : List (Nat × Nat)) : Option (Nat × Team × Grp) :=
  let mine := fun (x : Nat × Team × Grp) =>
    x.2.1.core == core && x.2.2.slice == slice && !held.contains (x.1, x.2.2.gid) && pipeFree s core slice x
  let l := (groupsThat s (fun w => waitOver w || asksAgain w)).filter mine
  let ready := l.filter (fun x => waitOver x.2.2.wait || aged s.gtick x.2.2)
  match best s.gtick (throttled s core slice (ready.filter (fun x => !yields s.gtick ready x))) with
  | some x => some x
  | none => l.foldl (fun b x => match b with
    | none => some x
    | some y => if x.2.2.ready < y.2.2.ready then some x else b) none

/-! ### Before the instruction runs -/

/-- ILLEGAL_INSTRUCTION (R415 to R419): every lane of the group's mask parks with code 0x01. -/
def execIllegalInstruction (s : State) : Out :=
  withIssuer s (fun _ g =>
    match s.cur.reject with
    | none => .next s
    | some r =>
      .next (trapLanes s s.cur.team g (if r.word.getLsbD 31 then 2 else 0) (g.lanes.map (fun l =>
        (l.2, { code := 1, addr := 0, info := infoOf r.word r.value.toNat r.reason.toNat, flags := 0, order := 0 })))))

/-- The first poisoned word among those a group of words can take, for the event of its consumption (R384). -/
def poisonedWord (s : State) (t : Team) (priv : Bool) (pc : BitVec 56) : Option Nat :=
  (upto 3).findSome? (fun i =>
    let a := pc + BitVec.ofNat 56 (4 * i)
    match translate s t.core t.info.ctx (a.setWidth 64) .fetch priv with
    | .error _ => none
    | .ok l =>
      let pa := homePa s (l.phys a.toNat)
      if poisoned s pa 4 || farLost s pa then some pa else none)

/-- A fetch that fails parks every lane of the group. -/
def fetchFault (s : State) (t : Team) (g : Grp) (p : Park) : State :=
  let s := match (if p.code = 1 then poisonedWord s t g.handler g.pc else none) with
    | some pa => consume s pa 4 (unitOf 0 t.core)
    | none => s
  trapLanes s s.cur.team g 0 (g.lanes.map (fun l => (l.2, p)))

/-- The lanes of a group that an exec watch stops, and the watch (R374, R376): the probe stage tests it, after the checks at
issue, so that it stops no lane that those park (R389). -/
def execWatch (s : State) (t : Team) (g : Grp) (lanes : List (Nat × Nat)) : List (Nat × Nat) × Option Nat :=
  let l := lanes.filter (fun x => !(threadOf t x.2).unwatched)
  (l, if l.isEmpty then none else watchHit s t.info.ctx 0 g.pc.toNat 1 [])

/-- A step that has begun: it is over, or an instruction is to run, perhaps under an exec watch. -/
inductive Begun where
  | done (s : State)
  | run (i : Instr) (s : State)
  /-- Lanes that an exec watch stops, unless the instruction's checks at issue park them. -/
  | watched (i : Instr) (s : State) (lanes : List (Nat × Nat)) (watch : Nat)

/-- What the issuing group's instruction needs to know. -/
def issueCur (k : Nat) (g : Grp) (hdr : Header) (word : Word) (len : Nat) : Cur :=
  { Cur.none with team := k, gid := g.gid, hdr := hdr, word := word, len := len }

/-- The group `g` of team `k` issues: fetch, decode, watches, scoreboard. -/
def issueGroup (s : State) (k : Nat) (t : Team) (g : Grp) (pending : Option (Nat × Nat)) : Begun :=
  match fetchGroup s t g.handler g.pc with
  | .error p => .done (fetchFault { s with cur := issueCur k g Cur.none.hdr 0 1 } t g p)
  | .ok ws =>
    let word := (ws.getLast?.map (·.2)).getD 0
    let s := keepFetch s t g.pc ws
    match decodeGroup (ws.map (·.2)) with
    | .error r => .run .illegalInstruction { s with cur := { issueCur k g Cur.none.hdr word r.len with reject := some r } }
    | .ok d =>
      let s := { s with cur := issueCur k g d.hdr word d.len }
      match pendingFor s k t g d.instr d.hdr.guard pending with
      | some x => .done (stallCheck s t g x)
      | none =>
        let s := noteIssue s t k g word
        match execWatch s t g g.lanes with
        | (lanes, some i) => .watched d.instr s lanes i
        | (_, none) => .run d.instr s

/-- The lanes that the checks at issue have parked in a dry run (R415): codes 0x01 to 0x04. -/
def issueParks (old : Team) (t : Team) : List (Nat × Park) :=
  (t.groups.filter (fun x => decide (old.nextGid ≤ x.gid))).flatMap (fun x => match x.park with
    | some p => if p.code.toNat ≤ 4 then x.lanes.map (fun l => (l.2, p)) else []
    | none => [])

/-- An exec watch has hit (R374, R376): the lanes that the checks at issue do not park stop at the instruction. -/
def watchStop (s after : State) (lanes : List (Nat × Nat)) (watch : Nat) : State :=
  match issuer s with
  | none => s
  | some (t, g) =>
    let k := s.cur.team
    let bad := match tget after.teams k with
      | some t' => issueParks t t'
      | none => []
    let hit := lanes.filter (fun l => !bad.any (fun x => x.1 == l.2))
    let flags : BitVec 8 := if s.cur.word.getLsbD 31 then 2 else 0
    let s := trapLanes s k g flags (bad ++ hit.map (fun l => (l.2, breakPark (g.pc.setWidth 64))))
    if hit.isEmpty then s
    else modTeam s k (fun t => stopTeam s.gtick t (laneMask hit) (g.pc.setWidth 64) (BitVec.ofNat 16 watch))

/-! ### After the instruction has run -/

/-- The issuing group leaves the lists of the groups that yielded to it. -/
def unyield (k gid : Nat) (t : Team) : Team :=
  { t with groups := t.groups.map (fun g =>
      if g.after.isEmpty then g else { g with after := g.after.filter (· != (k, gid)) }) }

/-- A group that asks again waits from now; one that has gone on is watched again (R375), and an access that RTE let pass
unchecked is over with its instruction (R327): `loose` are the lanes that went into the step with one. -/
def settleIssuer (s : State) (k gid : Nat) (pc : BitVec 56) (lanes : List (Nat × Nat)) (loose : List Nat) : State :=
  let s := if s.teams.any (fun x => x.2.groups.any (fun g => !g.after.isEmpty)) then
      { s with teams := s.teams.map (fun x => (x.1, unyield k gid x.2)) }
    else s
  modTeam s k (fun t =>
    let still := match groupOf t gid with
      | some g => g.pc == pc
      | none => false
    let t := if loose.isEmpty || still then t else modThreads t loose (fun th => { th with unchecked := false })
    match groupOf t gid with
    | none => t
    | some g =>
      let t := if asksAgain g.wait then modGroup t gid (fun g => { g with ready := s.gtick }) else t
      let seen := lanes.filter (fun l => (threadOf t l.2).unwatched)
      if g.pc = pc ∨ seen.isEmpty then t else modThreads t (seen.map (·.2)) (fun th => { th with unwatched := false }))

/-- A wait of WAITANY, WAITALL or WAITC that is over. -/
def metWait (w : Wait) : Bool :=
  match w with
  | .slots _ _ _ _ _ _ => waitOver w
  | .lanes _ _ => waitOver w
  | _ => false

/-- A group whose wait has ended in this step is ready from now (R38). -/
def settleReady (old s : State) : State :=
  let was := fun (k : Nat) (g : Grp) => match (tget old.teams k).bind (groupOf · g.gid) with
    | some x => metWait x.wait
    | none => false
  { s with teams := s.teams.map (fun x => (x.1, { x.2 with groups := x.2.groups.map (fun g =>
      if metWait g.wait && !was x.1 g then { g with ready := s.gtick } else g) })) }

/-- What stands after every step: accesses that waited at gates go on, waits, quartets and monitors have noted what holds,
and no instruction is under way. -/
def settle (old s : State) : State :=
  settleReady old (settleMonitors { settleQuartets (settleWaits (settleFabric s)) with cur := Cur.none })

end Sys2Proof.Machine
end

