-- ==== Sys2Proof/Machine/LaneCtl.lean ====
section
/-!
DEFINITION. Branches, calls and returns, reconvergence and regrouping, and YIELD of the lane set: R299 to R305, R307.
-/

namespace Sys2Proof.Machine

/-- The target of a direct branch (R238, R299). -/
def offTarget (g : Grp) (off : BitVec 18) : BitVec 56 := g.pc + (off.signExtend 56 <<< 2)

/-- The target that a lane register's value names (R299). -/
def laneTarget (g : Grp) (v : Word) : BitVec 56 := (g.pc.extractLsb' 32 24 ++ (v &&& 0xFFFFFFFC#32) : BitVec 56)

/-- What a link register receives: bits [31:0] of the next word's address. -/
def linkOf (s : State) (g : Grp) : Word := (nextPc s g).setWidth 32

/-- The lanes that take part go to one target. -/
def directBranch (off : BitVec 18) (link : Bool) (s : State) : Out :=
  withIssuer s (fun t g =>
    let part := takesPart t g s.cur.hdr.guard
    let t := if link then part.foldl (fun t l => setLaneReg t l.2 31 (linkOf s g)) t else t
    .next (setTeam s s.cur.team (branchLanes s t g (part.map (fun l => (l, offTarget g off))))))

def execBra (off : BitVec 18) (s : State) : Out := directBranch off false s
def execCall (off : BitVec 18) (s : State) : Out := directBranch off true s

/-- Each lane that takes part goes where its register names. -/
def indirectBranch (reg : Nat) (link : Bool) (s : State) : Out :=
  laneForm s (fun t _ part => extFaults s t part [reg]) (fun s _ g part =>
    let k := s.cur.team
    match popOperands s k g.gid part 0 [reg] with
    | (false, s) => .next s
    | (true, s) =>
      .next (modTeam s k (fun t =>
        let dest := part.map (fun l => (l, laneTarget g (operand t 0 reg l.2)))
        let t := if link then part.foldl (fun t l => setLaneReg t l.2 31 (linkOf s g)) t else t
        branchLanes s t g dest)))

def execRet (s : State) : Out := indirectBranch 31 false s
def execCallr (va : BitVec 6) (s : State) : Out := indirectBranch va.toNat true s
def execBrx (va : BitVec 6) (s : State) : Out := indirectBranch va.toNat false s

/-- EXIT (R302, R303): the threads that take part end, the others fall through. A helper lane stays for its quad. -/
def execExit (s : State) : Out :=
  withIssuer s (fun t g =>
    let k := s.cur.team
    let part := takesPart t g s.cur.hdr.guard
    .next (takeTraps k trapFuel (exitThreads (setTeam s k (advance s t)) k (part.map (·.2)))))

/-- RCVSET (R24, R304); in a formation it has no effect (R29). -/
def execRcvset (off : BitVec 18) (s : State) : Out :=
  laneForm s (fun t g part =>
      if !inFormation g && decide (16 ≤ (warpOf t g.warp).stack.length) then
        part.map (fun l => (l.2, parkOf s 2 0 6)) else [])
    (fun s t g part =>
      if inFormation g || part.isEmpty then finish s t
      else finish s (modWarp t g.warp (fun w =>
        { w with stack := { target := offTarget g off, mask := laneMask part } :: w.stack })))

/-- RCVWAIT (R24, R304): the lanes that take part wait for the top record's mask. -/
def execRcvwait (s : State) : Out :=
  laneForm s (fun t g part =>
      if inFormation g then []
      else match (warpOf t g.warp).stack with
        | r :: _ => if r.target = g.pc then [] else part.map (fun l => (l.2, parkOf s 2 0 7))
        | [] => part.map (fun l => (l.2, parkOf s 2 0 7)))
    (fun s t g part =>
      if inFormation g || part.isEmpty then finish s t
      else
        let t := if part.length = g.lanes.length then hold s t .rcv
          else splitOff s.gtick (advance s t) g part g.pc .rcv
        .next (setTeam s s.cur.team (tryRcv s.gtick t g.warp)))

/-- REFORM (R27, R305): the lanes that take part are filed for the target, the others continue. -/
def execReform (off : BitVec 18) (s : State) : Out :=
  withIssuer s (fun t g =>
    let part := takesPart t g s.cur.hdr.guard
    let t := fileLanes s.gtick (advance s t) g (offTarget g off) part
    .next (setTeam s s.cur.team
      (if part.isEmpty || g.formation then t else modGroup t g.gid (fun x => { x with formed := s.gtick }))))

/-- REJOIN (R30, R305): the lanes that take part are held for their home warps, which resume when every thread has
come. -/
def execRejoin (off : BitVec 18) (s : State) : Out :=
  withIssuer s (fun t g =>
    let k := s.cur.team
    let part := takesPart t g s.cur.hdr.guard
    let ws := (part.map (fun l => l.2 / 32)).eraseDups
    let t := withoutThreads (advance s t) (part.map (·.2))
    let t := ws.foldl (fun t w =>
      addGroup t (fun gid =>
        { Grp.fresh gid w s.gtick (homeLanes ((part.map (·.2)).filter (fun i => i / 32 == w))) g.pc with
          wait := .rejoin (offTarget g off) s.cur.word, split := if g.formation then [] else g.split, handler := g.handler,
          code := g.code, record := g.record, copying := g.copying, kept := g.kept })) t
    .next (takeTraps k trapFuel (setTeam s k (ws.foldl (tryRejoin s.gtick) t))))

/-- Spawns one thread for each lane in turn: the lanes that have one now, and the machine. -/
def spawnLanes (k : Nat) (key : BitVec 56) : List (Nat × Word) → State → List Nat × State
  | [], s => ([], s)
  | (tid, v0) :: rest, s =>
    match spawnOne s k key v0 with
    | none => ([], s)
    | some s =>
      let (ids, s) := spawnLanes k key rest s
      (tid :: ids, s)

/-- The lanes that take no part go on at the next word while the others wait for their new threads (R305). A formation has
one PC and waits as it is (DESIGN CHOICE, log 98). -/
def splitRest (s : State) (t : Team) (g : Grp) (part : List (Nat × Nat)) : Team :=
  let rest := g.lanes.filter (fun l => !part.any (fun x => x.2 == l.2))
  if rest.isEmpty || g.formation then t else splitOff s.gtick t g rest (nextPc s g) .none

/-- A note that a lane's new thread has its place. -/
def spawned (tid : Nat) : Made := { tid := tid, ix := 0, addr := 0, data := [], bad := false, stored := [] }

/-- SPAWN (R32, R305): the lanes that take part wait until every new thread has a place. -/
def execSpawn (off : BitVec 18) (s : State) : Out :=
  withIssuer s (fun t g =>
    let k := s.cur.team
    let part := takesPart t g s.cur.hdr.guard
    let todo := (notHelper t part).filter (fun l => !g.done.any (fun m => m.tid == l.2))
    let (ids, s') := spawnLanes k (offTarget g off) (todo.map (fun l => (l.2, laneReg t l.2 0))) s
    if ids.length = todo.length then .next (modTeam s' k (advance s'))
    else .next (modTeam s' k (fun t =>
      let t := splitRest s t g part
      modGroup t g.gid (fun x => { x with done := x.done ++ ids.map spawned, wait := .retry .spawn }))))

/-- A candidate that is ready (R162). -/
def candidate (s : State) (k : Nat) (t : Team) (g : Grp) : Bool := groupRuns s k t g && waitOver g.wait

/-- YIELD (R307): the slice's other ready candidates issue first, for at most 64 cycles. -/
def execYield (s : State) : Out :=
  withIssuer s (fun t g =>
    if (takesPart t g s.cur.hdr.guard).isEmpty then finish s t else
    let others := (runningTeams s t.core).flatMap (fun x =>
      (x.2.groups.filter (fun y => y.slice == g.slice && candidate s x.1 x.2 y &&
        !(x.1 == s.cur.team && y.gid == g.gid))).map (fun y => (x.1, y.gid)))
    finish s (modGroup t g.gid (fun x => { x with after := others, yieldEnd := s.gtick + 64 })))

end Sys2Proof.Machine
end

