-- ==== Sys2Proof/Machine/LaneFp.lean ====
section
/-!
DEFINITION. Lane floating-point and conversion instructions: R267 to R276.
-/

namespace Sys2Proof.Machine

/-! ### R267 to R269 -/

def execFadd (vd va vb : BitVec 6) (s : State) : Out := laneBin vd va vb fadd32 s
def execFsub (vd va vb : BitVec 6) (s : State) : Out := laneBin vd va vb fsub32 s
def execFmul (vd va vb : BitVec 6) (s : State) : Out := laneBin vd va vb fmul32 s
def execFfma (vd va vb : BitVec 6) (s : State) : Out := laneTern vd va vb ffma32 s
def execFmin (vd va vb : BitVec 6) (s : State) : Out := laneBin vd va vb fmin32 s
def execFmax (vd va vb : BitVec 6) (s : State) : Out := laneBin vd va vb fmax32 s

/-- |rne32(a − b)|, or the canonical NaN (R268). -/
def fabsd32 (a b : Word) : Word :=
  match (f32 a).sub (f32 b) with
  | .nan => to32 .nan
  | v => to32 v &&& 0x7FFFFFFF

def execFabsd (vd va vb : BitVec 6) (s : State) : Out := laneBin vd va vb fabsd32 s
def execFcpys (vd va vb : BitVec 6) (s : State) : Out :=
  laneBin vd va vb (fun a b => (a &&& 0x7FFFFFFF) ||| (b &&& 0x80000000)) s

def execFcmpp (pd cc : BitVec 3) (va vb : BitVec 6) (f : BitVec 2) (s : State) : Out :=
  lanePredOp pd va vb (fun old a b => combine f old (floatCond cc ((f32 a).cmp (f32 b)))) s

/-! ### R270, R271 -/

def execFrcp (vd va : BitVec 6) (s : State) : Out := laneUn vd va frcp32 s
def execFrsq (vd va : BitVec 6) (s : State) : Out := laneUn vd va frsq32 s
def execFex2 (vd va : BitVec 6) (s : State) : Out := laneUn vd va fex232 s
def execFlg2 (vd va : BitVec 6) (s : State) : Out := laneUn vd va flg232 s
def execFsin (vd va : BitVec 6) (s : State) : Out := laneUn vd va fsin32 s
def execFcos (vd va : BitVec 6) (s : State) : Out := laneUn vd va fcos32 s
def execFsqrt (vd va : BitVec 6) (s : State) : Out := laneUn vd va fsqrt32 s
def execFtanh (vd va : BitVec 6) (s : State) : Out := laneUn vd va ftanh32 s

/-! ### R272, R273 -/

/-- F2I and F2N: NaN gives 0, all else rounds to nearest even and saturates. -/
def toInt32 (lo hi : Int) (x : Word) : Word :=
  match f32 x with
  | .nan => 0
  | .inf neg => BitVec.ofInt 32 (if neg then lo else hi)
  | .fin neg n d => BitVec.ofInt 32 (clamp (rnei neg n d) lo hi)

def execI2f (vd va : BitVec 6) (s : State) : Out := laneUn vd va (fun a => to32 (FVal.ofInt a.toInt)) s
def execN2f (vd va : BitVec 6) (s : State) : Out := laneUn vd va (fun a => to32 (FVal.ofInt a.toNat)) s
def execF2i (vd va : BitVec 6) (s : State) : Out := laneUn vd va (toInt32 (-2 ^ 31) (2 ^ 31 - 1)) s
def execF2n (vd va : BitVec 6) (s : State) : Out := laneUn vd va (toInt32 0 (2 ^ 32 - 1)) s

def integral32 (dir : Direction) (x : Word) : Word := to32 ((f32 x).integral dir)

def execFrne (vd va : BitVec 6) (s : State) : Out := laneUn vd va (integral32 .nearest) s
def execFflr (vd va : BitVec 6) (s : State) : Out := laneUn vd va (integral32 .down) s
def execFceil (vd va : BitVec 6) (s : State) : Out := laneUn vd va (integral32 .up) s
def execFtrnc (vd va : BitVec 6) (s : State) : Out := laneUn vd va (integral32 .zero) s

/-! ### Packed halves (R274, R275) -/

def fmtAdd (f : Fmt) (_ a b : Nat) : Nat := f.round ((f.decode a).add (f.decode b))
def fmtMul (f : Fmt) (_ a b : Nat) : Nat := f.round ((f.decode a).mul (f.decode b))
def fmtFma (f : Fmt) (c a b : Nat) : Nat := f.round ((f.decode c).add ((f.decode a).mul (f.decode b)))
def fmtMax (f : Fmt) (_ a b : Nat) : Nat := f.maxNum a b

def execPhadd (vd va vb : BitVec 6) (s : State) : Out := laneBin vd va vb (halves (fmtAdd fp16) 0) s
def execPhmul (vd va vb : BitVec 6) (s : State) : Out := laneBin vd va vb (halves (fmtMul fp16) 0) s
def execPhfma (vd va vb : BitVec 6) (s : State) : Out := laneTern vd va vb (halves (fmtFma fp16)) s
def execPhmax (vd va vb : BitVec 6) (s : State) : Out := laneBin vd va vb (halves (fmtMax fp16) 0) s
def execPbadd (vd va vb : BitVec 6) (s : State) : Out := laneBin vd va vb (halves (fmtAdd bf16) 0) s
def execPbmul (vd va vb : BitVec 6) (s : State) : Out := laneBin vd va vb (halves (fmtMul bf16) 0) s
def execPbfma (vd va vb : BitVec 6) (s : State) : Out := laneTern vd va vb (halves (fmtFma bf16)) s
def execPbmax (vd va vb : BitVec 6) (s : State) : Out := laneBin vd va vb (halves (fmtMax bf16) 0) s

/-! ### Half conversions (R276) -/

/-- FP32 converted to a 16-bit format. -/
def narrow16 (f : Fmt) (x : Word) : Nat := f.round (f32 x)

/-- A half of a word converted exactly to FP32. -/
def widen16 (f : Fmt) (hi : BitVec 1) (x : Word) : Word :=
  to32 (f.decode (if hi = 1 then x.toNat / 65536 else x.toNat % 65536))

def packHalves (f : Fmt) (a b : Word) : Word := BitVec.ofNat 32 (narrow16 f a + 65536 * narrow16 f b)

def execF2h2 (vd va vb : BitVec 6) (s : State) : Out := laneBin vd va vb (packHalves fp16) s
def execH2f (vd va : BitVec 6) (hi : BitVec 1) (s : State) : Out := laneUn vd va (widen16 fp16 hi) s
def execF2b2 (vd va vb : BitVec 6) (s : State) : Out := laneBin vd va vb (packHalves bf16) s
def execB2f (vd va : BitVec 6) (hi : BitVec 1) (s : State) : Out := laneUn vd va (widen16 bf16 hi) s

end Sys2Proof.Machine
end

