-- ==== Sys2Proof/Machine/LaneXchg.lean ====
section
/-!
DEFINITION. Quad exchange, shuffles, votes and warp reductions: R257, R277 to R281.
-/

namespace Sys2Proof.Machine

/-- What a source lane supplies (R257): its operand when it is in the issuing group's mask, whatever its guard, else 0.
A lane that takes no part in a pop supplies 0 for it (R256). -/
def sourceLane (t : Team) (g : Grp) (part : List (Nat × Nat)) (o : Nat → Nat → Word) (va : Nat) (lane : Nat) : Word :=
  match g.lanes.find? (fun l => l.1 == lane) with
  | none => 0
  | some l => if (portNamed t va).isSome && !part.any (fun x => x.1 == lane) then 0 else o 0 l.2

/-- What a lane of the quad supplies: a helper lane that has executed EXIT still does, until its quad has exited (R19,
R303). -/
def quadSource (t : Team) (g : Grp) (part : List (Nat × Nat)) (o : Nat → Nat → Word) (va : Nat) (lane : Nat) : Word :=
  let th := threadOf t (32 * g.warp + lane)
  if !g.formation && th.live && th.quit && (portNamed t va).isNone then o 0 (32 * g.warp + lane)
  else sourceLane t g part o va lane

/-- A quad exchange form. It is not for a formation: the lanes that take part park with code 0x02, REASON 4 (R426), the
others go on. -/
def quadForm (rs : List (BitVec 6)) (vd : BitVec 6)
    (f : Team → Grp → List (Nat × Nat) → (Nat → Nat → Word) → Nat × Nat → Word) (s : State) : Out :=
  laneForm s (fun t g part =>
      extFaults s t part (vd.toNat :: rs.map (·.toNat)) ++
        (if inFormation g then part.map (fun l => (l.2, parkOf s 2 0 4)) else []))
    (fun s t g part => if inFormation g then finish s t else resultBody rs vd f s t g part)

def quadExchange (vd va : BitVec 6) (x : Nat) (s : State) : Out :=
  quadForm [va] vd (fun t g part o l => quadSource t g part o va.toNat (l.1 ^^^ x)) s

def execQxh (vd va : BitVec 6) (s : State) : Out := quadExchange vd va 1 s
def execQxv (vd va : BitVec 6) (s : State) : Out := quadExchange vd va 2 s
def execQxd (vd va : BitVec 6) (s : State) : Out := quadExchange vd va 3 s
def execQbc (vd va vb : BitVec 6) (s : State) : Out :=
  quadForm [va, vb] vd (fun t g part o l =>
    quadSource t g part o va.toNat (4 * (l.1 / 4) + (o 1 l.2).toNat % 4)) s

/-- The source lanes of the shuffles (R278). -/
def execShfl (vd va vb : BitVec 6) (s : State) : Out :=
  laneResult [va, vb] vd (fun t g part o l => sourceLane t g part o va.toNat ((o 1 l.2).toNat % 32)) s
def execShflu (vd va vb : BitVec 6) (s : State) : Out :=
  laneResult [va, vb] vd (fun t g part o l =>
    sourceLane t g part o va.toNat (if (o 1 l.2).toNat ≤ l.1 then l.1 - (o 1 l.2).toNat else l.1)) s
def execShfld (vd va vb : BitVec 6) (s : State) : Out :=
  laneResult [va, vb] vd (fun t g part o l =>
    sourceLane t g part o va.toNat (if l.1 + (o 1 l.2).toNat ≤ 31 then l.1 + (o 1 l.2).toNat else l.1)) s
def execShflx (vd va vb : BitVec 6) (s : State) : Out :=
  laneResult [va, vb] vd (fun t g part o l => sourceLane t g part o va.toNat (l.1 ^^^ ((o 1 l.2).toNat % 32))) s

/-! ### Votes (R279, R280) -/

/-- What a BALLOT of a regrouped lane finds: code 0x02, REASON 4 in a formation, REASON 5 in a home warp with regrouped
threads (R426). -/
def ballotFaults (s : State) (t : Team) (g : Grp) (part : List (Nat × Nat)) : List (Nat × Park) :=
  if g.formation then part.map (fun l => (l.2, parkOf s 2 0 4))
  else if regrouped t g.warp && !g.handler then part.map (fun l => (l.2, parkOf s 2 0 5))
  else []

/-- BALLOT writes the home warp's uniform state once for the group. -/
def execBallot (sd va : BitVec 6) (s : State) : Out :=
  laneForm s (fun t g part => extFaults s t part [va.toNat] ++ ballotFaults s t g part) (fun s t g _ =>
    if g.formation || (regrouped t g.warp && !g.handler) then finish s t
    else match joinKin t g with
      | none => waitFor s t (.retry .kin)
      | some (t, g) =>
        let k := s.cur.team
        let part := takesPart t g s.cur.hdr.guard
        match popOperands (setTeam s k t) k g.gid part 0 [va.toNat] with
        | (false, s) => .next s
        | (true, s) =>
          .next (modTeam s k (fun t =>
            let m := (notHelper t part).filter (fun l => operand t 0 va.toNat l.2 != 0)
            advance s (modWarp t g.warp (fun w => setU w sd.toNat ((laneMask m).setWidth 64))))))

def execVany (vd va : BitVec 6) (s : State) : Out :=
  laneResult [va] vd (fun t _ part o _ => bit 32 ((notHelper t part).any (fun c => o 0 c.2 != 0))) s
def execVall (vd va : BitVec 6) (s : State) : Out :=
  laneResult [va] vd (fun t _ part o _ => bit 32 ((notHelper t part).all (fun c => o 0 c.2 != 0))) s
def execVmatch (vd va : BitVec 6) (s : State) : Out :=
  laneResult [va] vd (fun t _ part o l =>
    laneMask ((notHelper t part).filter (fun c => o 0 c.2 == o 0 l.2))) s

/-! ### Warp reductions (R62, R281) -/

/-- One level of the tree: neighbours combined, the lower first. -/
def pairUp (f : Word → Word → Word) : List Word → List Word
  | a :: b :: r => f a b :: pairUp f r
  | l => l

/-- The root of the tree over 32 positions. -/
def treeRoot (f : Word → Word → Word) (l : List Word) : Word :=
  (pairUp f (pairUp f (pairUp f (pairUp f (pairUp f l))))).headD 0

/-- Position i holds the operand of lane i when it contributes, else the identity. -/
def reduction (vd va : BitVec 6) (identity : Word) (f : Word → Word → Word) (s : State) : Out :=
  laneResult [va] vd (fun t _ part o _ =>
    let c := notHelper t part
    treeRoot f ((upto 32).map (fun i => match c.find? (fun l => l.1 == i) with
      | some l => o 0 l.2
      | none => identity))) s

def execWradd (vd va : BitVec 6) (s : State) : Out := reduction vd va 0 (fun a b => a + b) s
def execWrmax (vd va : BitVec 6) (s : State) : Out := reduction vd va 0x80000000 smax32 s
def execWrfadd (vd va : BitVec 6) (s : State) : Out := reduction vd va 0x80000000 fadd32 s
def execWrfmax (vd va : BitVec 6) (s : State) : Out := reduction vd va 0xFF800000 fmax32 s

end Sys2Proof.Machine
end

