-- ==== Sys2Proof/Machine/UniCtl.lean ====
section
/-!
DEFINITION. Uniform jumps, TRAP and the return from a trap: R324 to R327, R391.
-/

namespace Sys2Proof.Machine

/-- Every lane of the issuing group goes to a PC. -/
def jumpTo (s : State) (t : Team) (pc : BitVec 56) : Out :=
  .next (setTeam s s.cur.team (modGroup (advance s t) s.cur.gid (fun g => { g with pc := pc })))

/-- The target of a direct jump (R238, R324). -/
def jumpTarget (g : Grp) (off : BitVec 18) : BitVec 56 := g.pc + (off.signExtend 56 <<< 2)

/-- The target a uniform register names (R325). -/
def regTarget (x : DWord) : BitVec 56 := x.setWidth 56 &&& ~~~3#56

def execJmp (off : BitVec 18) (s : State) : Out :=
  uniformForm false s (fun s t g => jumpTo s t (jumpTarget g off))

def execJcall (off : BitVec 18) (s : State) : Out :=
  uniformForm true s (fun s t g =>
    jumpTo s (modWarp t g.warp (fun w => setU w 63 ((nextPc s g).setWidth 64))) (jumpTarget g off))

def execSret (s : State) : Out :=
  uniformForm false s (fun s t g => jumpTo s t (regTarget (uReg (warpOf t g.warp) 63)))

def execJmpr (sa : BitVec 6) (s : State) : Out :=
  uniformForm false s (fun s t g => jumpTo s t (regTarget (uReg (warpOf t g.warp) sa.toNat)))

/-- TRAP n (R326): the group takes the software trap. -/
def execTrap (n : BitVec 6) (s : State) : Out :=
  uniformForm false s (fun s _ g =>
    trapUniform s g { code := 0x40, addr := 0, info := n.setWidth 64, flags := 0, order := 0 })

/-! ### The return from a trap (R327, R391) -/

/-- s56 to s63 and c1 to c7 as a trap record holds them. -/
def restoreWarp (rec : List Byte) (w : Warp) : Warp :=
  let w := (upto 8).foldl (fun w i => setU w (56 + i) (BitVec.ofNat 64 (bytesAt rec (64 + 8 * i) 8))) w
  { w with c := (BitVec.ofNat 8 (bytesAt rec 56 1) &&& 0xFE#8) ||| 1#8 }

/-- The groups of the issuing group's handler: those that serve the same record. -/
def sameHandler (t : Team) (g : Grp) : List Grp :=
  t.groups.filter (fun x => x.handler && x.warp == g.warp && x.record == g.record)

/-- A lane leaves its handler. A retry executes with the entries its instruction had popped, which a skip and a kill
discard (R471), and with ACK its access is performed unchecked (R327). -/
def leaveThread (retry ack : Bool) (th : Thread) : Thread :=
  { th with pend := if retry then th.aside else [], aside := [], unchecked := retry && ack }

/-- The group leaves its handler for a PC, with the lanes of every group of it. -/
def leaveHandler (s : State) (t : Team) (g : Grp) (pc : BitVec 56) (retry ack : Bool) : Team :=
  let hs := sameHandler t g
  let lanes := hs.foldl (fun l x => mergeLanes x.lanes l) []
  let t := modThreads t (lanes.map (·.2)) (leaveThread retry ack)
  let gs := t.groups.filter (fun x => x.gid == g.gid || !hs.any (fun y => y.gid == x.gid))
  { t with groups := gs.map (fun x => if x.gid == g.gid then
      { x with lanes := lanes, pc := pc, wait := .none, handler := false, code := 0, record := 0, copying := none,
               kept := 0, pstep := if retry then g.kept else 0, done := [], formed := s.gtick, next := s.gtick,
               ready := s.gtick } else x) }

/-- RTE with its operand (R391): what the record holds comes back, privileged mode ends, and the lanes retry, go on or
are killed. -/
def returnFromTrap (s : State) (t : Team) (g : Grp) (rec : List Byte) (act : Nat) (ack : Bool) : State :=
  let k := s.cur.team
  let pc := BitVec.ofNat 56 (bytesAt rec 8 8) &&& ~~~3#56
  let later := g.code = 0x30 ∨ g.code = 0x31
  let dest := if act = 1 ∧ ¬ later then pc + BitVec.ofNat 56 (4 * groupLen s t false pc) else pc
  let t := leaveHandler s (modWarp t g.warp (restoreWarp rec)) g dest (act = 0 ∧ ¬ later) ack
  let s := pruneQueues (setTeam s k t) k
  let s := if act = 2 then
      match groupOf t g.gid with
      | some x => exitThreads s k (x.lanes.map (·.2))
      | none => s
    else settleCopies s
  takeTraps k trapFuel s

/-- An ACT that does not exist, or bits above it (R429). -/
def rteCheck (sa : BitVec 6) : Check := fun s t g =>
  let x := (uReg (warpOf t g.warp) sa.toNat).toNat
  if x % 4 = 3 ∨ 8 ≤ x then some (parkOf s 1 (x % 256) 10) else none

def execRte (sa : BitVec 6) (s : State) : Out :=
  uniformForm false s (fun s t g =>
    let x := uReg (warpOf t g.warp) sa.toNat
    match rteCheck sa s t g with
    | some p => trapUniform s g p
    | none =>
    if !g.handler then trapUniform s g (parkOf s 4 0 2)
    else match translate s t.core t.info.ctx g.record .read true with
      | .error e =>
        trapUniform s g { code := BitVec.ofNat 16 e.code, addr := g.record, info := e.info .read, flags := 0, order := 0 }
      | .ok l =>
        .next (returnFromTrap s t g (coreBytes s t.core (l.phys g.record.toNat) 128) (x.toNat % 4) (x.getLsbD 2)))
    (rteCheck sa)

end Sys2Proof.Machine
end

