-- ==== Sys2Proof/Machine/Dispatch.lean ====
section
/-!
DEFINITION. The dispatch: each instruction and each step of the device is one call of its meaning.
-/

namespace Sys2Proof.Machine

def exec (i : Instr) (s : State) : Host.Outcome State Fault Refusal :=
  match i with
  | .iadd vd va vb => Sys2Proof.Machine.execIadd vd va vb s
  | .isub vd va vb => Sys2Proof.Machine.execIsub vd va vb s
  | .imin vd va vb => Sys2Proof.Machine.execImin vd va vb s
  | .imax vd va vb => Sys2Proof.Machine.execImax vd va vb s
  | .nmin vd va vb => Sys2Proof.Machine.execNmin vd va vb s
  | .nmax vd va vb => Sys2Proof.Machine.execNmax vd va vb s
  | .iabsd vd va vb => Sys2Proof.Machine.execIabsd vd va vb s
  | .navg vd va vb => Sys2Proof.Machine.execNavg vd va vb s
  | .imul vd va vb => Sys2Proof.Machine.execImul vd va vb s
  | .imulh vd va vb => Sys2Proof.Machine.execImulh vd va vb s
  | .nmulh vd va vb => Sys2Proof.Machine.execNmulh vd va vb s
  | .imad vd va vb => Sys2Proof.Machine.execImad vd va vb s
  | .and vd va vb => Sys2Proof.Machine.execAnd vd va vb s
  | .or vd va vb => Sys2Proof.Machine.execOr vd va vb s
  | .xor vd va vb => Sys2Proof.Machine.execXor vd va vb s
  | .andn vd va vb => Sys2Proof.Machine.execAndn vd va vb s
  | .shl vd va vb => Sys2Proof.Machine.execShl vd va vb s
  | .shr vd va vb => Sys2Proof.Machine.execShr vd va vb s
  | .sar vd va vb => Sys2Proof.Machine.execSar vd va vb s
  | .rol vd va vb => Sys2Proof.Machine.execRol vd va vb s
  | .bfx vd va vb => Sys2Proof.Machine.execBfx vd va vb s
  | .bfxn vd va vb => Sys2Proof.Machine.execBfxn vd va vb s
  | .bfi vd va vb => Sys2Proof.Machine.execBfi vd va vb s
  | .prmt vd va vb => Sys2Proof.Machine.execPrmt vd va vb s
  | .fadd vd va vb => Sys2Proof.Machine.execFadd vd va vb s
  | .fsub vd va vb => Sys2Proof.Machine.execFsub vd va vb s
  | .fmul vd va vb => Sys2Proof.Machine.execFmul vd va vb s
  | .ffma vd va vb => Sys2Proof.Machine.execFfma vd va vb s
  | .fmin vd va vb => Sys2Proof.Machine.execFmin vd va vb s
  | .fmax vd va vb => Sys2Proof.Machine.execFmax vd va vb s
  | .fabsd vd va vb => Sys2Proof.Machine.execFabsd vd va vb s
  | .fcpys vd va vb => Sys2Proof.Machine.execFcpys vd va vb s
  | .phadd vd va vb => Sys2Proof.Machine.execPhadd vd va vb s
  | .phmul vd va vb => Sys2Proof.Machine.execPhmul vd va vb s
  | .phfma vd va vb => Sys2Proof.Machine.execPhfma vd va vb s
  | .phmax vd va vb => Sys2Proof.Machine.execPhmax vd va vb s
  | .pbadd vd va vb => Sys2Proof.Machine.execPbadd vd va vb s
  | .pbmul vd va vb => Sys2Proof.Machine.execPbmul vd va vb s
  | .pbfma vd va vb => Sys2Proof.Machine.execPbfma vd va vb s
  | .pbmax vd va vb => Sys2Proof.Machine.execPbmax vd va vb s
  | .shfl vd va vb => Sys2Proof.Machine.execShfl vd va vb s
  | .shflu vd va vb => Sys2Proof.Machine.execShflu vd va vb s
  | .shfld vd va vb => Sys2Proof.Machine.execShfld vd va vb s
  | .shflx vd va vb => Sys2Proof.Machine.execShflx vd va vb s
  | .popc vd va => Sys2Proof.Machine.execPopc vd va s
  | .clz vd va => Sys2Proof.Machine.execClz vd va s
  | .brev vd va => Sys2Proof.Machine.execBrev vd va s
  | .ffs vd va => Sys2Proof.Machine.execFfs vd va s
  | .frcp vd va => Sys2Proof.Machine.execFrcp vd va s
  | .frsq vd va => Sys2Proof.Machine.execFrsq vd va s
  | .fex2 vd va => Sys2Proof.Machine.execFex2 vd va s
  | .flg2 vd va => Sys2Proof.Machine.execFlg2 vd va s
  | .fsin vd va => Sys2Proof.Machine.execFsin vd va s
  | .fcos vd va => Sys2Proof.Machine.execFcos vd va s
  | .fsqrt vd va => Sys2Proof.Machine.execFsqrt vd va s
  | .ftanh vd va => Sys2Proof.Machine.execFtanh vd va s
  | .i2f vd va => Sys2Proof.Machine.execI2f vd va s
  | .n2f vd va => Sys2Proof.Machine.execN2f vd va s
  | .f2i vd va => Sys2Proof.Machine.execF2i vd va s
  | .f2n vd va => Sys2Proof.Machine.execF2n vd va s
  | .frne vd va => Sys2Proof.Machine.execFrne vd va s
  | .fflr vd va => Sys2Proof.Machine.execFflr vd va s
  | .fceil vd va => Sys2Proof.Machine.execFceil vd va s
  | .ftrnc vd va => Sys2Proof.Machine.execFtrnc vd va s
  | .wradd vd va => Sys2Proof.Machine.execWradd vd va s
  | .wrmax vd va => Sys2Proof.Machine.execWrmax vd va s
  | .wrfadd vd va => Sys2Proof.Machine.execWrfadd vd va s
  | .wrfmax vd va => Sys2Proof.Machine.execWrfmax vd va s
  | .icmpp pd cc va vb f => Sys2Proof.Machine.execIcmpp pd cc va vb f s
  | .sel vd va vb k => Sys2Proof.Machine.execSel vd va vb k s
  | .fcmpp pd cc va vb f => Sys2Proof.Machine.execFcmpp pd cc va vb f s
  | .f2h2 vd va vb => Sys2Proof.Machine.execF2h2 vd va vb s
  | .h2f vd va hi => Sys2Proof.Machine.execH2f vd va hi s
  | .f2b2 vd va vb => Sys2Proof.Machine.execF2b2 vd va vb s
  | .b2f vd va hi => Sys2Proof.Machine.execB2f vd va hi s
  | .cvtn vd va hb => Sys2Proof.Machine.execCvtn vd va hb s
  | .cvtsr vd va hb => Sys2Proof.Machine.execCvtsr vd va hb s
  | .cvtw vd va hb => Sys2Proof.Machine.execCvtw vd va hb s
  | .packn vd va hb => Sys2Proof.Machine.execPackn vd va hb s
  | .qxh vd va => Sys2Proof.Machine.execQxh vd va s
  | .qxv vd va => Sys2Proof.Machine.execQxv vd va s
  | .qxd vd va => Sys2Proof.Machine.execQxd vd va s
  | .qbc vd va vb => Sys2Proof.Machine.execQbc vd va vb s
  | .ballot sd va => Sys2Proof.Machine.execBallot sd va s
  | .vany vd va => Sys2Proof.Machine.execVany vd va s
  | .vall vd va => Sys2Proof.Machine.execVall vd va s
  | .vmatch vd va => Sys2Proof.Machine.execVmatch vd va s
  | .vmov vd va => Sys2Proof.Machine.execVmov vd va s
  | .vmovs vd sa hi => Sys2Proof.Machine.execVmovs vd sa hi s
  | .vspec vd ix => Sys2Proof.Machine.execVspec vd ix s
  | .iaddi vd va imm => Sys2Proof.Machine.execIaddi vd va imm s
  | .shli vd va imm => Sys2Proof.Machine.execShli vd va imm s
  | .shri vd va imm => Sys2Proof.Machine.execShri vd va imm s
  | .andi vd va imm => Sys2Proof.Machine.execAndi vd va imm s
  | .movi vd imm => Sys2Proof.Machine.execMovi vd imm s
  | .ori vd va imm => Sys2Proof.Machine.execOri vd va imm s
  | .xori vd va imm => Sys2Proof.Machine.execXori vd va imm s
  | .ld w vd va sb mq => Sys2Proof.Machine.execLd w vd va sb mq s
  | .ldb w vd va sb mq => Sys2Proof.Machine.execLdb w vd va sb mq s
  | .st w vd va sb mq => Sys2Proof.Machine.execSt w vd va sb mq s
  | .stb vd va sb mq => Sys2Proof.Machine.execStb vd va sb mq s
  | .ldx w vd va sb mq => Sys2Proof.Machine.execLdx w vd va sb mq s
  | .stx w vd va sb mq => Sys2Proof.Machine.execStx w vd va sb mq s
  | .ldt w vd va sb mq => Sys2Proof.Machine.execLdt w vd va sb mq s
  | .cld w vd va hb mq => Sys2Proof.Machine.execCld w vd va hb mq s
  | .cstElem vd va hb mq => Sys2Proof.Machine.execCstElem vd va hb mq s
  | .cstBlk vd va hb mq => Sys2Proof.Machine.execCstBlk vd va hb mq s
  | .atomAdd vd va sb mq => Sys2Proof.Machine.execAtomAdd vd va sb mq s
  | .atomFadd vd va sb mq => Sys2Proof.Machine.execAtomFadd vd va sb mq s
  | .atomExch vd va sb mq => Sys2Proof.Machine.execAtomExch vd va sb mq s
  | .atomCas vd va sb mq => Sys2Proof.Machine.execAtomCas vd va sb mq s
  | .atomNmin vd va sb mq => Sys2Proof.Machine.execAtomNmin vd va sb mq s
  | .atomNmax vd va sb mq => Sys2Proof.Machine.execAtomNmax vd va sb mq s
  | .atomAnd vd va sb mq => Sys2Proof.Machine.execAtomAnd vd va sb mq s
  | .atomOr vd va sb mq => Sys2Proof.Machine.execAtomOr vd va sb mq s
  | .atomxAdd vd va sb mq => Sys2Proof.Machine.execAtomxAdd vd va sb mq s
  | .atomxExch vd va sb mq => Sys2Proof.Machine.execAtomxExch vd va sb mq s
  | .atomxCas vd va sb mq => Sys2Proof.Machine.execAtomxCas vd va sb mq s
  | .atomxNmax vd va sb mq => Sys2Proof.Machine.execAtomxNmax vd va sb mq s
  | .kvldK vd va sb => Sys2Proof.Machine.execKvldK vd va sb s
  | .kvldVt vd va sb => Sys2Proof.Machine.execKvldVt vd va sb s
  | .kvappK vd va sb => Sys2Proof.Machine.execKvappK vd va sb s
  | .kvappV vd va sb => Sys2Proof.Machine.execKvappV vd va sb s
  | .kvappCommit va sb => Sys2Proof.Machine.execKvappCommit va sb s
  | .ssld vd va sb => Sys2Proof.Machine.execSsld vd va sb s
  | .ssst vd va sb => Sys2Proof.Machine.execSsst vd va sb s
  | .ropeInter vd va sb => Sys2Proof.Machine.execRopeInter vd va sb s
  | .ropeSplit vd va sb => Sys2Proof.Machine.execRopeSplit vd va sb s
  | .bra off => Sys2Proof.Machine.execBra off s
  | .call off => Sys2Proof.Machine.execCall off s
  | .rcvset off => Sys2Proof.Machine.execRcvset off s
  | .reform off => Sys2Proof.Machine.execReform off s
  | .rejoin off => Sys2Proof.Machine.execRejoin off s
  | .spawn off => Sys2Proof.Machine.execSpawn off s
  | .callr va => Sys2Proof.Machine.execCallr va s
  | .brx va => Sys2Proof.Machine.execBrx va s
  | .waitc w vd va sb => Sys2Proof.Machine.execWaitc w vd va sb s
  | .sadd sd sa sb => Sys2Proof.Machine.execSadd sd sa sb s
  | .ssub sd sa sb => Sys2Proof.Machine.execSsub sd sa sb s
  | .smin sd sa sb => Sys2Proof.Machine.execSmin sd sa sb s
  | .smax sd sa sb => Sys2Proof.Machine.execSmax sd sa sb s
  | .smul sd sa sb => Sys2Proof.Machine.execSmul sd sa sb s
  | .smulh sd sa sb => Sys2Proof.Machine.execSmulh sd sa sb s
  | .sdivn sd sa sb => Sys2Proof.Machine.execSdivn sd sa sb s
  | .sremn sd sa sb => Sys2Proof.Machine.execSremn sd sa sb s
  | .sand sd sa sb => Sys2Proof.Machine.execSand sd sa sb s
  | .sor sd sa sb => Sys2Proof.Machine.execSor sd sa sb s
  | .sxor sd sa sb => Sys2Proof.Machine.execSxor sd sa sb s
  | .sandn sd sa sb => Sys2Proof.Machine.execSandn sd sa sb s
  | .sshl sd sa sb => Sys2Proof.Machine.execSshl sd sa sb s
  | .sshr sd sa sb => Sys2Proof.Machine.execSshr sd sa sb s
  | .ssar sd sa sb => Sys2Proof.Machine.execSsar sd sa sb s
  | .srol sd sa sb => Sys2Proof.Machine.execSrol sd sa sb s
  | .sfadd sd sa sb => Sys2Proof.Machine.execSfadd sd sa sb s
  | .sfsub sd sa sb => Sys2Proof.Machine.execSfsub sd sa sb s
  | .sfmul sd sa sb => Sys2Proof.Machine.execSfmul sd sa sb s
  | .sffma sd sa sb => Sys2Proof.Machine.execSffma sd sa sb s
  | .spopc sd sa => Sys2Proof.Machine.execSpopc sd sa s
  | .sclz sd sa => Sys2Proof.Machine.execSclz sd sa s
  | .sbrev sd sa => Sys2Proof.Machine.execSbrev sd sa s
  | .sffs sd sa => Sys2Proof.Machine.execSffs sd sa s
  | .si2f sd sa => Sys2Proof.Machine.execSi2f sd sa s
  | .sf2i sd sa => Sys2Proof.Machine.execSf2i sd sa s
  | .sfrcp sd sa => Sys2Proof.Machine.execSfrcp sd sa s
  | .sfsqrt sd sa => Sys2Proof.Machine.execSfsqrt sd sa s
  | .ssetc cd cc sa sb f => Sys2Proof.Machine.execSsetc cd cc sa sb f s
  | .ssel sd sa sb k => Sys2Proof.Machine.execSsel sd sa sb k s
  | .smov sd sa => Sys2Proof.Machine.execSmov sd sa s
  | .srd sd ix => Sys2Proof.Machine.execSrd sd ix s
  | .swr ixd sa => Sys2Proof.Machine.execSwr ixd sa s
  | .saddi sd sa imm => Sys2Proof.Machine.execSaddi sd sa imm s
  | .smovi sd imm => Sys2Proof.Machine.execSmovi sd imm s
  | .sshli sd sa imm => Sys2Proof.Machine.execSshli sd sa imm s
  | .sandi sd sa imm => Sys2Proof.Machine.execSandi sd sa imm s
  | .sori sd sa imm => Sys2Proof.Machine.execSori sd sa imm s
  | .sld w sd sa sb mq => Sys2Proof.Machine.execSld w sd sa sb mq s
  | .sst w sd sa sb mq => Sys2Proof.Machine.execSst w sd sa sb mq s
  | .satomAdd sd sa sb mq => Sys2Proof.Machine.execSatomAdd sd sa sb mq s
  | .satomExch sd sa sb mq => Sys2Proof.Machine.execSatomExch sd sa sb mq s
  | .satomCas sd sa sb mq => Sys2Proof.Machine.execSatomCas sd sa sb mq s
  | .satomNmax sd sa sb mq => Sys2Proof.Machine.execSatomNmax sd sa sb mq s
  | .discard sa sb => Sys2Proof.Machine.execDiscard sa sb s
  | .flush sa sb => Sys2Proof.Machine.execFlush sa sb s
  | .inval sa sb => Sys2Proof.Machine.execInval sa sb s
  | .pfetch sa sb => Sys2Proof.Machine.execPfetch sa sb s
  | .respri sa sb => Sys2Proof.Machine.execRespri sa sb s
  | .resdem sa sb => Sys2Proof.Machine.execResdem sa sb s
  | .respro sa => Sys2Proof.Machine.execRespro sa s
  | .resqry sd sa => Sys2Proof.Machine.execResqry sd sa s
  | .hset hd sa => Sys2Proof.Machine.execHset hd sa s
  | .hget sd ha => Sys2Proof.Machine.execHget sd ha s
  | .hcls hd sa => Sys2Proof.Machine.execHcls hd sa s
  | .hseed hd sa => Sys2Proof.Machine.execHseed hd sa s
  | .jmp off => Sys2Proof.Machine.execJmp off s
  | .jcall off => Sys2Proof.Machine.execJcall off s
  | .jmpr sa => Sys2Proof.Machine.execJmpr sa s
  | .trap n => Sys2Proof.Machine.execTrap n s
  | .rte sa => Sys2Proof.Machine.execRte sa s
  | .bar sd id => Sys2Proof.Machine.execBar sd id s
  | .cbar sd id => Sys2Proof.Machine.execCbar sd id s
  | .bara sd id => Sys2Proof.Machine.execBara sd id s
  | .barw sd id => Sys2Proof.Machine.execBarw sd id s
  | .wcondAddr wn sa sb => Sys2Proof.Machine.execWcondAddr wn sa sb s
  | .wcondBcb wn sa => Sys2Proof.Machine.execWcondBcb wn sa s
  | .wcondQueue wn sa sb => Sys2Proof.Machine.execWcondQueue wn sa sb s
  | .wcondCompl wn sa sb => Sys2Proof.Machine.execWcondCompl wn sa sb s
  | .waitany sd sa mask => Sys2Proof.Machine.execWaitany sd sa mask s
  | .waitall sd sa mask => Sys2Proof.Machine.execWaitall sd sa mask s
  | .push fd sa id => Sys2Proof.Machine.execPush fd sa id s
  | .pushw sa id => Sys2Proof.Machine.execPushw sa id s
  | .kick sa sb => Sys2Proof.Machine.execKick sa sb s
  | .launch sd sa sb => Sys2Proof.Machine.execLaunch sd sa sb s
  | .qbind q sa => Sys2Proof.Machine.execQbind q sa s
  | .qunb q => Sys2Proof.Machine.execQunb q s
  | .qstat sd q => Sys2Proof.Machine.execQstat sd q s
  | .qreset q => Sys2Proof.Machine.execQreset q s
  | .regxTry fd => Sys2Proof.Machine.execRegxTry fd s
  | .prioPair sa => Sys2Proof.Machine.execPrioPair sa s
  | .seqfork sa sb => Sys2Proof.Machine.execSeqfork sa sb s
  | .seqfree sa => Sys2Proof.Machine.execSeqfree sa s
  | .seqtrunc sa sb => Sys2Proof.Machine.execSeqtrunc sa sb s
  | .seqinfo sd sa => Sys2Proof.Machine.execSeqinfo sd sa s
  | .ssnap sd => Sys2Proof.Machine.execSsnap sd s
  | .ssroll sd sa => Sys2Proof.Machine.execSsroll sd sa s
  | .sscommit sa => Sys2Proof.Machine.execSscommit sa s
  | .ssbind sa => Sys2Proof.Machine.execSsbind sa s
  | .mset md sa => Sys2Proof.Machine.execMset md sa s
  | .mget sd ma => Sys2Proof.Machine.execMget sd ma s
  | .mma vd va vb m => Sys2Proof.Machine.execMma vd va vb m s
  | .mmaSpad vd va vb m => Sys2Proof.Machine.execMmaSpad vd va vb m s
  | .mmaQueue vd va vb m => Sys2Proof.Machine.execMmaQueue vd va vb m s
  | .mmag vd va vb m => Sys2Proof.Machine.execMmag vd va vb m s
  | .mmagSpad vd va vb m => Sys2Proof.Machine.execMmagSpad vd va vb m s
  | .mmagQueue vd va vb m => Sys2Proof.Machine.execMmagQueue vd va vb m s
  | .drain sa sb => Sys2Proof.Machine.execDrain sa sb s
  | .drainSkip sb => Sys2Proof.Machine.execDrainSkip sb s
  | .gclr sa sb => Sys2Proof.Machine.execGclr sa sb s
  | .grd sd sa sb => Sys2Proof.Machine.execGrd sd sa sb s
  | .nchk fd sa sb => Sys2Proof.Machine.execNchk fd sa sb s
  | .nrd sd => Sys2Proof.Machine.execNrd sd s
  | .mark sa => Sys2Proof.Machine.execMark sa s
  | .hashrd sd => Sys2Proof.Machine.execHashrd sd s
  | .rcvwait => Sys2Proof.Machine.execRcvwait s
  | .exit => Sys2Proof.Machine.execExit s
  | .ret => Sys2Proof.Machine.execRet s
  | .yield => Sys2Proof.Machine.execYield s
  | .fenceRel => Sys2Proof.Machine.execFenceRel s
  | .fenceAcq => Sys2Proof.Machine.execFenceAcq s
  | .fenceFull => Sys2Proof.Machine.execFenceFull s
  | .sret => Sys2Proof.Machine.execSret s
  | .regxAcq => Sys2Proof.Machine.execRegxAcq s
  | .regxRel => Sys2Proof.Machine.execRegxRel s
  | .prioPass => Sys2Proof.Machine.execPrioPass s
  | .prioTake => Sys2Proof.Machine.execPrioTake s
  | .nrst => Sys2Proof.Machine.execNrst s
  | .brk => Sys2Proof.Machine.execBrk s
  | .sample => Sys2Proof.Machine.execSample s
  | .nop => Sys2Proof.Machine.execNop s
  | .launchPublish => Sys2Proof.Machine.execLaunchPublish s
  | .cpyLoad => Sys2Proof.Machine.execCpyLoad s
  | .cpyStore => Sys2Proof.Machine.execCpyStore s
  | .cpyQstore => Sys2Proof.Machine.execCpyQstore s
  | .cpyQload => Sys2Proof.Machine.execCpyQload s
  | .gatGather => Sys2Proof.Machine.execGatGather s
  | .gatGatherq => Sys2Proof.Machine.execGatGatherq s
  | .gatScatter => Sys2Proof.Machine.execGatScatter s
  | .kvsStreamk => Sys2Proof.Machine.execKvsStreamk s
  | .kvsStreamvt => Sys2Proof.Machine.execKvsStreamvt s
  | .decDecode => Sys2Proof.Machine.execDecDecode s
  | .colAllreduce => Sys2Proof.Machine.execColAllreduce s
  | .colReducescatter => Sys2Proof.Machine.execColReducescatter s
  | .colAllgather => Sys2Proof.Machine.execColAllgather s
  | .ssuCopy => Sys2Proof.Machine.execSsuCopy s
  | .ckpCheckpoint => Sys2Proof.Machine.execCkpCheckpoint s
  | .engineCommandTake => Sys2Proof.Machine.execEngineCommandTake s
  | .pushwAccept => Sys2Proof.Machine.execPushwAccept s
  | .engineUnitDone => Sys2Proof.Machine.execEngineUnitDone s
  | .engineQueueResume => Sys2Proof.Machine.execEngineQueueResume s
  | .colPeerTimeout => Sys2Proof.Machine.execColPeerTimeout s
  | .launchRecordHead => Sys2Proof.Machine.execLaunchRecordHead s
  | .launchWaitConditionHolds => Sys2Proof.Machine.execLaunchWaitConditionHolds s
  | .teamPlace => Sys2Proof.Machine.execTeamPlace s
  | .teamRetire => Sys2Proof.Machine.execTeamRetire s
  | .formationDraw => Sys2Proof.Machine.execFormationDraw s
  | .binTimerExpiry => Sys2Proof.Machine.execBinTimerExpiry s
  | .spawnBinTimerExpiry => Sys2Proof.Machine.execSpawnBinTimerExpiry s
  | .quantumEnd => Sys2Proof.Machine.execQuantumEnd s
  | .loadAllowanceUpdate => Sys2Proof.Machine.execLoadAllowanceUpdate s
  | .pageWalkComplete => Sys2Proof.Machine.execPageWalkComplete s
  | .loadDataReturn => Sys2Proof.Machine.execLoadDataReturn s
  | .raceVerdictReturn => Sys2Proof.Machine.execRaceVerdictReturn s
  | .trapEntry => Sys2Proof.Machine.execTrapEntry s
  | .matrixResult => Sys2Proof.Machine.execMatrixResult s
  | .monitorPoll => Sys2Proof.Machine.execMonitorPoll s
  | .waitTimeout => Sys2Proof.Machine.execWaitTimeout s
  | .queuePortResume => Sys2Proof.Machine.execQueuePortResume s
  | .regxAcqGrant => Sys2Proof.Machine.execRegxAcqGrant s
  | .l1Eviction => Sys2Proof.Machine.execL1Eviction s
  | .replayGateTimeout => Sys2Proof.Machine.execReplayGateTimeout s
  | .breakpointSwapOut => Sys2Proof.Machine.execBreakpointSwapOut s
  | .flitCrcError => Sys2Proof.Machine.execFlitCrcError s
  | .flitRetransmit => Sys2Proof.Machine.execFlitRetransmit s
  | .cxlError => Sys2Proof.Machine.execCxlError s
  | .cxlReadTimeout => Sys2Proof.Machine.execCxlReadTimeout s
  | .cxlLinkDown => Sys2Proof.Machine.execCxlLinkDown s
  | .cxlLinkUp => Sys2Proof.Machine.execCxlLinkUp s
  | .throttleOnset => Sys2Proof.Machine.execThrottleOnset s
  | .throttleRelease => Sys2Proof.Machine.execThrottleRelease s
  | .thermalTrip => Sys2Proof.Machine.execThermalTrip s
  | .powerGood => Sys2Proof.Machine.execPowerGood s
  | .functionReady => Sys2Proof.Machine.execFunctionReady s
  | .bootctlGo => Sys2Proof.Machine.execBootctlGo s
  | .resetFull => Sys2Proof.Machine.execResetFull s
  | .resetCores => Sys2Proof.Machine.execResetCores s
  | .lqscan => Sys2Proof.Machine.execLqscan s
  | .tlbinvAddress => Sys2Proof.Machine.execTlbinvAddress s
  | .tlbinvAll => Sys2Proof.Machine.execTlbinvAll s
  | .tlbinvComplete => Sys2Proof.Machine.execTlbinvComplete s
  | .attestRequest => Sys2Proof.Machine.execAttestRequest s
  | .attestDone => Sys2Proof.Machine.execAttestDone s
  | .pstateWrite => Sys2Proof.Machine.execPstateWrite s
  | .pstateChange => Sys2Proof.Machine.execPstateChange s
  | .gamrelStart => Sys2Proof.Machine.execGamrelStart s
  | .gamrelComplete => Sys2Proof.Machine.execGamrelComplete s
  | .prectlSave => Sys2Proof.Machine.execPrectlSave s
  | .contextSaveComplete => Sys2Proof.Machine.execContextSaveComplete s
  | .prectlRestore => Sys2Proof.Machine.execPrectlRestore s
  | .contextRestoreComplete => Sys2Proof.Machine.execContextRestoreComplete s
  | .dbgresResume => Sys2Proof.Machine.execDbgresResume s
  | .dbgresSkip => Sys2Proof.Machine.execDbgresSkip s
  | .dbgresKill => Sys2Proof.Machine.execDbgresKill s
  | .tickStop => Sys2Proof.Machine.execTickStop s
  | .stopResume => Sys2Proof.Machine.execStopResume s
  | .scandataRead => Sys2Proof.Machine.execScandataRead s
  | .repctlReplay => Sys2Proof.Machine.execRepctlReplay s
  | .rlfillWrite => Sys2Proof.Machine.execRlfillWrite s
  | .crumbMirror => Sys2Proof.Machine.execCrumbMirror s
  | .hostRead => Sys2Proof.Machine.execHostRead s
  | .hostWrite => Sys2Proof.Machine.execHostWrite s
  | .fabricPeerAccess => Sys2Proof.Machine.execFabricPeerAccess s
  | .binderRun => Sys2Proof.Machine.execBinderRun s
  | .registerWrite => Sys2Proof.Machine.execRegisterWrite s
  | .illegalInstruction => Sys2Proof.Machine.execIllegalInstruction s
  | .writeAcknowledgement => Sys2Proof.Machine.execWriteAcknowledgement s
  | .colSegmentArrival => Sys2Proof.Machine.execColSegmentArrival s
  | .flitNotReady => Sys2Proof.Machine.execFlitNotReady s
  | .powerLoss => Sys2Proof.Machine.execPowerLoss s

end Sys2Proof.Machine
end

