-- ==== Sys2Proof/Machine/Sched.lean ====
section
/-!
DEFINITION. What happens next (R38, R41): the model's own script, `State.agenda`, says it; where the script is empty, this
file does. DESIGN CHOICE (log 1): at every tick the first thing that is due beside the cores' issue happens, each kind of
thing having its turn to be the first; then every slice issues as R162 says, until no pipe is free that has a candidate.
What comes at its own tick (a stop, the end of a quantum or of a load window, the Crumb mirror) comes in a script too.
-/

namespace Sys2Proof.Machine

abbrev Ev := Instr × Arg

/-! ### Cores and teams -/

/-- A list from the element on whose turn it is. -/
def inTurn {α : Type} (n : Nat) (l : List α) : List α := l.drop (n % max 1 l.length) ++ l.take (n % max 1 l.length)

/-- What is due for the bins of a core's slice (R28, R31, R164). -/
def sliceEvent (s : State) (core slice : Nat) : Option Ev :=
  if 32 ≤ formationCount s core slice then none
  else (dueBin s core slice).map (fun b =>
    let expired := match tget s.teams b.1 with
      | some t => binExpired s.gtick t b.2
      | none => false
    (if expired then Instr.binTimerExpiry else .formationDraw, { team := b.1, slice := slice, key := b.2.key.toNat }))

/-- What is due for the bins of the slices. -/
def binEvent (s : State) : Option Ev :=
  let cores := ((s.teams.filter (fun x => !x.2.bins.isEmpty)).map (·.2.core)).eraseDups
  (cores.flatMap (fun c => (upto 4).map (fun sl => (c, sl)))).findSome? (fun x => sliceEvent s x.1 x.2)

/-- A spawn bin of a team whose time is up (R33). -/
def spawnEvent (s : State) (k : Nat) (t : Team) : Option Ev :=
  (t.spawnBins.find? (fun b => decide (b.opened + binTimer t ≤ s.gtick) && (freeWarp t b.slice).isSome)).map
    (fun b => (Instr.spawnBinTimerExpiry, { team := k, key := b.key.toNat }))

/-- What is due for a group's wait. -/
def waitEvent (s : State) (k : Nat) (g : Grp) : Option Ev :=
  let a : Arg := { team := k, gid := g.gid }
  match g.wait with
  | .slots _ _ _ _ (some d) false => if d ≤ s.gtick then some (.waitTimeout, a) else none
  | .publish q n _ _ _ => if canPublish s q n then some (.launchPublish, a) else none
  | .verdict => some (.raceVerdictReturn, a)
  | _ => none

def teamEvent (s : State) (k : Nat) (t : Team) : Option Ev :=
  if (ctxOf s t.info.ctx).stat ≠ 0 then
    t.groups.findSome? (fun g => match g.wait with
      | .publish _ _ _ _ _ => waitEvent s k g
      | _ => none)
  else if swapOutDue s k t then some (.breakpointSwapOut, { team := k })
  else (t.groups.findSome? (waitEvent s k))
    <|> (if t.brk.isNone && ((nextTrap t).isSome || faultedInside t) then some (Instr.trapEntry, { team := k }) else none)
    <|> (if t.brk.isNone then spawnEvent s k t else none)
    <|> (if retirable s k t then some (Instr.teamRetire, { team := k }) else none)

/-- A wait whose next poll is due (R405). -/
def pollEvent (s : State) : Option Ev :=
  (s.monitors.find? (fun m => m.polled && decide (m.poll ≤ s.gtick))).map
    (fun m => (.monitorPoll, { team := m.team, gid := m.gid }))

/-- The oldest request of a core that is not answered. -/
def reqEvent (s : State) : Option Ev :=
  s.cores.findSome? (fun c => c.2.reqs.head?.map (fun r =>
    (if r.store then Instr.writeAcknowledgement else Instr.loadDataReturn, { core := c.1, req := r.id })))

def arrayEvent (s : State) : Option Ev :=
  (s.cores.find? (fun c => c.2.array.isSome)).map (fun c => (.matrixResult, { core := c.1 }))

def gateEvent (s : State) : Option Ev :=
  if !replaying s || s.gatesOpen then none
  else (s.logs.find? (fun l => match l.2.gateSince with
    | some t => decide (t + repTimeout s ≤ s.gtick) && decide (l.2.gateChunk < (regGet s (0x30400 + 8 * l.1)).toNat)
    | none => false)).map (fun l => (.replayGateTimeout, { slice := l.1 }))

/-! ### Engines -/

/-- The class step of an operation. -/
def classStep (o : EngOp) : Option Instr :=
  match o.eng, cmdOp o.cmd with
  | 0, 1 => some .cpyLoad
  | 0, 2 => some .cpyStore
  | 0, 3 => some .cpyQstore
  | 0, 4 => some .cpyQload
  | 1, 1 => some .gatGather
  | 1, 2 => some .gatGatherq
  | 1, 3 => some .gatScatter
  | 2, 1 => some .kvsStreamk
  | 2, 2 => some .kvsStreamvt
  | 3, 1 => some .decDecode
  | 4, 1 => some .colAllreduce
  | 4, 2 => some .colReducescatter
  | 4, 3 => some .colAllgather
  | 5, 1 => some .ssuCopy
  | 6, 1 => some .ckpCheckpoint
  | _, _ => none

/-- The engines that serve a core's commands of a class (R10, R171). -/
def enginesOf (eng core : Nat) : List Nat :=
  match eng with
  | 2 => [core / 8]
  | 3 => (upto 4).map (· + 4 * (core / 96))
  | 4 => [core / 96]
  | 6 => [0]
  | _ => [core]

def opEvent (s : State) (o : EngOp) : Option Ev :=
  if (ctxOf s o.ctx).stat ≠ 0 then none
  else match o.phase with
    | .kicked => none
    | .queued => ((enginesOf o.eng o.core).find? (fun i => (nextTake s o.eng i).isSome)).map
        (fun i => (.engineCommandTake, { eng := o.eng, inst := i }))
    | .running => (classStep o).map (fun i => (i, { op := o.id }))
    | .unitDone => if (counterGate s o).1 then some (.engineUnitDone, { op := o.id }) else none
    | .stalled =>
      if resumable s o then some (.engineQueueResume, { op := o.id })
      else match colTimeout s with
        | some n => if o.eng = 4 ∧ o.since + n ≤ s.gtick then some (.colPeerTimeout, { op := o.id }) else none
        | none => none

/-! ### The dispatcher, contexts and the management core -/

/-- What is due for the head of a launch queue. -/
def headEvent (s : State) (q : Nat) : Option Ev :=
  let a : Arg := { lq := q }
  if headDue s q then some (.launchRecordHead, a)
  else match (lqOf s q).headRec with
    | none => none
    | some h =>
      match (upto h.conds.length).find? (fun i => match h.conds[i]? with
        | some c => !c.2.2 && condMet s c
        | none => false) with
      | some i => some (.launchWaitConditionHolds, { a with wc := i })
      | none =>
        if (lqOf s q).served ∧ recTeams h.record = 0 ∧ h.conds.all (fun c => c.2.2) then some (.launchWaitConditionHolds, a)
        else none

/-- A team that can be placed now (R159). -/
def placeEvent (s : State) : Option Ev := (queueOrder.find? (placeReady s)).map (fun q => (.teamPlace, { lq := q }))

/-- A DBGRES that waits for room finds it. -/
def dbgresEvent (s : State) : Option Ev :=
  s.saved.findSome? (fun x =>
    let a : Arg := { ticket := BitVec.ofNat 32 x.ticket }
    let seats := fun (i : Instr) (r : Out) => match r with
      | .next y => if y.saved.length < s.saved.length then some (i, a) else none
      | _ => none
    let s := { s with cur := { Cur.none with arg := a } }
    match x.action with
    | some 0 => seats .dbgresResume (execDbgresResume s)
    | some 1 => seats .dbgresSkip (execDbgresSkip s)
    | some _ => seats .dbgresKill (execDbgresKill s)
    | none => none)

def contextEvent (s : State) : Option Ev :=
  if (saveDue s).isSome then some (.contextSaveComplete, {})
  else match (upto 16).find? (fun c => (ctxOf s c).stat == 3) with
    | some c => if (tryRestore s c).isSome then some (.contextRestoreComplete, {}) else dbgresEvent s
    | none => dbgresEvent s

/-- What a request to the management core completes. -/
def mgmtEvent (s : State) : Option Ev :=
  if s.tlbinv.isSome then some (.tlbinvComplete, {})
  else if s.gamrel.isSome then some (.gamrelComplete, {})
  else if s.attest.isSome then some (.attestDone, {})
  else if (regGet s 0x38).toNat % 4 ≠ s.pstate.toNat then some (.pstateChange, {})
  else none

/-! ### The default -/

/-- What is due beside the cores' groups: every kind of thing, and in each kind every one, has its turn to come first, so
that none waits for ever (R41). -/
def deviceEvent (s : State) : Option Ev :=
  let kinds : List (State → Option Ev) :=
    [fun s => (inTurn (s.gtick / 11) s.teams).findSome? (fun x => teamEvent s x.1 x.2),
     binEvent,
     fun s => (inTurn (s.gtick / 11) s.ops).findSome? (opEvent s),
     reqEvent, arrayEvent, pollEvent, gateEvent, mgmtEvent, contextEvent,
     fun s => (inTurn (s.gtick / 11) (upto 64)).findSome? (headEvent s),
     placeEvent]
  (inTurn s.gtick kinds).findSome? (fun f => f s)

/-- A slice that issues a group in this cycle: that of the group that has waited longest among those that can go on, else
among those that ask again. -/
def issuing (s : State) : Option (Nat × Nat) :=
  let l := groupsThat s (fun w => waitOver w || asksAgain w)
  let slices := (l.map (fun x => (x.2.1.core, x.2.2.slice))).eraseDups
  ((slices.filterMap (fun x => (chooseGroup s x.1 x.2 []).map (fun y => (y.2.2.ready, x)))).foldl
    (fun (b : Option (Nat × Nat × Nat)) x => match b with
      | none => some x
      | some y => if x.1 < y.1 then some x else b) none).map (·.2)

/-! ### The tick of the next step (R5, R371, R373) -/

/-- What still happens while the clocks are stopped (R373): the management core, the ports, power and reset. -/
def runsStopped (i : Instr) : Bool :=
  match i with
  | .registerWrite => true
  | .bootctlGo => true
  | .functionReady => true
  | .powerGood => true
  | .powerLoss => true
  | .resetFull => true
  | .resetCores => true
  | .thermalTrip => true
  | .throttleOnset => true
  | .throttleRelease => true
  | .pstateWrite => true
  | .pstateChange => true
  | .attestRequest => true
  | .attestDone => true
  | .lqscan => true
  | .tlbinvAddress => true
  | .tlbinvAll => true
  | .gamrelStart => true
  | .prectlSave => true
  | .prectlRestore => true
  | .dbgresResume => true
  | .dbgresSkip => true
  | .dbgresKill => true
  | .stopResume => true
  | .scandataRead => true
  | .repctlReplay => true
  | .rlfillWrite => true
  | .crumbMirror => true
  | .hostRead => true
  | .hostWrite => true
  | .fabricPeerAccess => true
  | .binderRun => true
  | .flitCrcError => true
  | .flitRetransmit => true
  | .flitNotReady => true
  | .cxlError => true
  | .cxlReadTimeout => true
  | .cxlLinkDown => true
  | .cxlLinkUp => true
  | _ => false

/-- The tick at which an armed stop comes, if it lies in the next `dt` ticks (R373). -/
def stopTick (s : State) (dt : Nat) : Option Nat :=
  if (regGet s 0x30048).getLsbD 0 ∧ dt ≠ 0 ∧ (regGet s 0x30040).toNat ≤ s.gtick + dt then
    some (max (regGet s 0x30040).toNat (s.gtick + 1))
  else none

/-- The first multiple of `n` in the next `dt` ticks. -/
def multiple (s : State) (n dt : Nat) : Option Nat :=
  let m := (s.gtick / n + 1) * n
  if m ≤ s.gtick + dt then some m else none

/-- A tick with what comes at it, if something does. -/
def timed (t : Option Nat) (on : Bool) (i : Instr) : List (Nat × Instr) :=
  match t with
  | some t => if on then [(t, i)] else []
  | none => []

/-- What comes at its own tick within the next `dt` ticks: the end of a quantum with work for it (R40), the mirror of new
Crumb events, every 3,600,000 ticks (R381), an armed stop. -/
def dueTicks (s : State) (dt : Nat) : List (Nat × Instr) :=
  if s.stopped then []
  else timed (multiple s 65536 dt) (quantumWork s) .quantumEnd ++
    timed (multiple s 3600000 dt) (regGet s 0x31008 != 0 && s.crHead != s.mirrored) .crumbMirror ++
    timed (stopTick s dt) true .tickStop

/-- The first of those ticks, with all that comes at it. -/
def nextDue (l : List (Nat × Instr)) : Option (Nat × List Instr) :=
  match l with
  | [] => none
  | x :: rest =>
    let t := rest.foldl (fun t y => min t y.1) x.1
    some (t, (l.filter (fun y => y.1 == t)).map (·.2))

/-- A core whose load window has ended (R163). -/
def endedWindow (s : State) : Option Nat :=
  if s.stopped then none else (s.cores.find? (fun c => decide (c.2.window < s.gtick / 4096))).map (·.1)

/-- A step that is no word: it runs with what it acts on. A word, or ILLEGAL_INSTRUCTION, only runs for a group. -/
def beginEvent (s : State) (i : Instr) (a : Arg) : Begun :=
  if i.words ≠ 0 ∨ i = .illegalInstruction ∨ (s.stopped ∧ !runsStopped i) then .done s
  else .run i { s with cur := { Cur.none with arg := a } }

def beginAct (s : State) (a : Act) : Begun :=
  match a with
  | .issue core slice held pending =>
    if s.stopped then .done s
    else match chooseGroup s core slice held with
      | none => .done s
      | some (k, t, g) => issueGroup s k t g pending
  | .event i a => beginEvent s i a
  | .hbmError pa corrected => .done (if s.stopped then s else hbmError s pa corrected)
  | .sramError unit corrected place => .done (if s.stopped then s else arrayError s unit corrected place)

/-- What comes before anything else at a tick: a write to the management window that is to take place (R358), the end of a
core's load window (R163). -/
def urgent (s : State) : Option (State × Act) :=
  match s.posted with
  | (off, v) :: rest => some ({ s with posted := rest }, .event (mgmtStep off v) (mgmtArg off v))
  | [] => (endedWindow s).map (fun c => (s, .event .loadAllowanceUpdate { core := c }))

/-- The script's next move. -/
def scripted (s : State) (m : Move) (rest : List Move) : State × Option Act :=
  match nextDue (dueTicks s m.dt) with
  | some (t, is) =>
    let now := is.map (fun i => ({ dt := 0, act := .event i {} } : Move))
    ({ s with gtick := t, agenda := now.drop 1 ++ { m with dt := s.gtick + m.dt - t } :: rest }, now.head?.map (·.act))
  | none => ({ s with gtick := if s.stopped then s.gtick else s.gtick + m.dt, agenda := rest }, some m.act)

/-- What happens where the script says nothing: the slices issue; where none does, the next tick comes. -/
def unscripted (s : State) : State × Option Act :=
  let event := fun (x : Ev) => Act.event x.1 x.2
  let issue := fun (x : Nat × Nat) => Act.issue x.1 x.2 [] none
  if s.stopped then
    (s, (mgmtEvent s).map event <|>
      (if regGet s 0x31008 != 0 && s.crHead != s.mirrored then some (.event .crumbMirror {}) else none))
  else match issuing s with
    | some x => (s, some (issue x))
    | none =>
      match nextDue (dueTicks s 1) with
      | some (t, is) =>
        ({ s with gtick := t, agenda := (is.drop 1).map (fun i => { dt := 0, act := .event i {} }) },
          is.head?.map (fun i => .event i {}))
      | none =>
        let s := { s with gtick := s.gtick + 1 }
        (s, (deviceEvent s).map event <|> (issuing s).map issue)

/-- The machine at the tick of its next step, and what that is. -/
def nextMove (s : State) : State × Option Act :=
  match urgent s, s.agenda with
  | some (s, a), _ => (s, some a)
  | none, m :: rest => scripted s m rest
  | none, [] => unscripted s

/-- The step up to the point where its instruction runs. -/
def beginStep (s : State) : Begun :=
  match nextMove s with
  | (s, none) => .done s
  | (s, some a) => beginAct s a

/-- The lanes of a group whose next access RTE lets pass unchecked. -/
def looseLanes (t : Team) (g : Grp) : List Nat := (g.lanes.map (·.2)).filter (fun i => (threadOf t i).unchecked)

/-- The step after its instruction: `old` is the state in which it began. -/
def endStep (old s : State) : State :=
  settle old (match issuer old with
    | some (t, g) => settleIssuer s old.cur.team old.cur.gid g.pc g.lanes (looseLanes t g)
    | none => s)

end Sys2Proof.Machine
end

