-- ==== Sys2Proof/Machine/Load.lean ====
section
/-!
DEFINITION. A program placed from outside the machine: the pages of context 0, one team of one home warp on core 0, and the
bytes of its code.
-/

namespace Sys2Proof.Machine

/-- Where the program's code lies, at the same virtual and physical address. -/
def codeBase : Nat := 0x10000

/-- A table of level 0 at 8 KiB whose first entry names a table of level 1 at 16 KiB, whose first entry is a leaf (R90,
R91): 64 GiB from address 0, readable, writable, executable, for user code, unchecked, unrecorded, held in L1. -/
def loadPages (s : State) : State :=
  let s := memWrite s 0x2000 (bytesOf 8 0x4001)
  let s := memWrite s 0x4000 (bytesOf 8 0x20F)
  regSet s 0x400 0x2001

/-- What the team knows of its launch: one team, queue 0. -/
def loadInfo : TeamInfo :=
  { ctx := 0, lq := 0, recNo := 0, launch := 0, index := 0, rank := 0, mates := 1, cluster := 0, tx := 0, ty := 0, tz := 0, ntx := 1,
    nty := 1, ntz := 1, argp := 0, cbtp := 0, entry := BitVec.ofNat 56 codeBase, bint := 0, pcls := 0, l1min := 0,
    scrBase := 0, scrBytes := 0, tagBase := 0, tagBytes := 0 }

/-- The team, with extended blocks (R36), in slots 0 to 31. No exec watch stops its first instruction (R375). -/
def loadTeam (s : State) : Team :=
  let t := formWarp s (emptyTeam 0 0 loadInfo [] (List.replicate 64 0)) 0 (upto 32) ((upto 32).map (fun l => BitVec.ofNat 32 l))
    (fun _ => 0) loadInfo.entry
  giveBlocks (modThreads t (upto 32) (fun th => { th with unwatched := true })) (quadsNeeding t 0)

/-- Core 0 as the team finds it: no translation or fetched word held, nothing issued in this cycle, no answer for a team 0
outstanding. -/
def loadCore (c : Core) : Core :=
  { c with tlb := [], icache := [], issued := [], reqs := c.reqs.filter (fun r => r.team != 0) }

/-- The groups of the other teams, which the next issue passes over. -/
def otherGroups (s : State) : List (Nat × Nat) :=
  (s.teams.filter (fun x => x.1 != 0)).flatMap (fun x => x.2.groups.map (fun g => (x.1, g.gid)))

/-- The next step issues the team's group at this tick: no write to a register, window of loads or stop comes first. -/
def loadProgram (s : State) (code : List Byte) : State :=
  let s := memWrite (loadPages s) codeBase code
  let s := modCtx (modCore s 0 loadCore) 0 (fun c => { c with stat := 0 })
  let s := { s with stopped := false, posted := [],
                    cores := s.cores.map (fun c => (c.1, { c.2 with window := s.gtick / 4096 })) }
  { setTeam s 0 (loadTeam s) with
    clusters := tset s.clusters 0 { teams := [0], bars := List.replicate 8 freshBar },
    agenda := [{ dt := 0, act := .issue 0 0 (otherGroups s) none }] }

end Sys2Proof.Machine
end

