-- ==== Sys2Proof/Machine/Step.lean ====
section
/-!
DEFINITION. One step of the device: what happens next begins, its instruction runs, and what holds after every step is
settled. And the machine that is about to run one given instruction.
-/

namespace Sys2Proof.Machine

def step (s : State) : Host.Outcome State Fault Refusal :=
  match beginStep s with
  | .done s' => .next (settle s s')
  | .run i s =>
    match exec i s with
    | .next s' => .next (endStep s s')
    | .fault r => .fault r
    | .refused r => .refused r
  | .watched i s lanes w =>
    match exec i { s with cur := { s.cur with dry := true } } with
    | .next s' => .next (endStep s (watchStop s s' lanes w))
    | .fault r => .fault r
    | .refused r => .refused r

/-- `s` with an instruction that its next step issues. The host loads a program from outside the machine: this stands for
that load and for the launch of one team of 32 threads on core 0, as the dispatcher would place it. -/
def State.withFetchWord (s : State) (nbits w : Nat) : State := loadProgram s (bytesOf 12 (w % 2 ^ nbits))

end Sys2Proof.Machine
end

