-- ==== Sys2Proof/Safety.lean ====
section
/-!
DEFINITION. The terms of the statements: a step that goes on, memory in its canonical form, monitors that have fired, a group
that is ready to issue a form of the lane set or of the uniform set, and the state in which its form has completed.
-/

namespace Sys2Proof.Machine

/-- A step that stops neither with a fault nor with a refusal. -/
def Goes (o : Out) : Prop := ∃ t, o = .next t

/-- Memory in its canonical form: addresses strictly rise and no listed byte is 0, which an unlisted one reads as. -/
def MemoryCanonical (s : State) : Prop := Memory.wf s.mem = true

/-- No condition monitor sees its condition hold (R144). -/
def MonitorsSettled (s : State) : Prop := ∀ m ∈ s.monitors, monitorSees s m = false

/-- What holds between two steps: monitors are settled and no instruction is under way. -/
def Rested (s : State) : Prop := MonitorsSettled s ∧ s.cur = Cur.none

/-! ### A group that is ready -/

/-- Group `g` of team `t` issues the instruction under way. -/
def Issues (s : State) (t : Team) (g : Grp) : Prop := issuer s = some (t, g)

/-- The registers name no bound port (R256), and where they are v32 to v63 every lane that takes part has its extended
block (R424). -/
def RegsPlain (s : State) (t : Team) (g : Grp) (regs : List (BitVec 6)) : Prop :=
  (∀ r ∈ regs, portNamed t r.toNat = none) ∧
    ∀ l ∈ takesPart t g s.cur.hdr.guard, ∀ r ∈ regs, r.toNat < 32 ∨ hasExt t l.2 = true

/-- The group issues a lane-set form on plain registers. -/
def LaneReady (s : State) (t : Team) (g : Grp) (regs : List (BitVec 6)) : Prop :=
  Issues s t g ∧ g.pstep = 0 ∧ RegsPlain s t g regs

/-- The lanes that take part in the instruction under way (R228). -/
def laneSet (s : State) (t : Team) (g : Grp) : List (Nat × Nat) := takesPart t g s.cur.hdr.guard

/-- The group issues a uniform-set form in its place (R29, R308, R390, R426), with a guard that is true: it is no formation,
and it is a handler, or none of its home warp's threads is regrouped and no lanes are split off by a trap. -/
def UniReady (s : State) (t : Team) (g : Grp) : Prop :=
  Issues s t g ∧ g.formation = false ∧ uFlag (warpOf t g.warp) s.cur.hdr.guard.toNat = true ∧
    (g.handler = true ∨ (g.masked = false ∧ regrouped t g.warp = false ∧ g.split = []))

/-! ### Completed forms -/

/-- The instruction has changed its team to `t'` and its group has gone on. -/
def wentOn (s : State) (t' : Team) : Out := .next (setTeam s s.cur.team (advance s t'))

/-- Register `vd` of each lane of a list receives that lane's value. -/
def putLanes (t : Team) (vd : BitVec 6) (l : List (Nat × Nat)) (val : Nat × Nat → Word) : Team :=
  l.foldl (fun t x => setLaneReg t x.2 vd.toNat (val x)) t

/-- Every lane that takes part has written `vd`, and the group has gone on. -/
def laneWrote (s : State) (t : Team) (g : Grp) (vd : BitVec 6) (val : Nat × Nat → Word) : Out :=
  wentOn s (putLanes t vd (laneSet s t g) val)

/-- Every lane that takes part has set predicate `pd`, and the group has gone on. -/
def lanePredWrote (s : State) (t : Team) (g : Grp) (pd : BitVec 3) (val : Nat × Nat → Bool) : Out :=
  wentOn s ((laneSet s t g).foldl (fun t l => modThread t l.2 (fun th => setLanePred th pd.toNat (val l))) t)

/-- The home warp has written uniform register `sd`, and the group has gone on. -/
def uniWrote (s : State) (t : Team) (g : Grp) (sd : BitVec 6) (x : DWord) : Out :=
  wentOn s (modWarp t g.warp (fun w => setU w sd.toNat x))

/-- All that may differ from `s` are lane registers, predicates, uniform registers and flags of the issuing team, which is `t'`
now; of its groups only the issuing one has changed, and it has gone on. -/
structure OnlyRegisters (s s' : State) (t t' : Team) : Prop where
  rest : s' = { s with teams := s'.teams }
  others : ∀ k, k ≠ s.cur.team → tget s'.teams k = tget s.teams k
  team : tget s'.teams s.cur.team = some t'
  fixed : t' = { t with threads := t'.threads, ext := t'.ext, warps := t'.warps, groups := t'.groups }
  groups : t'.groups = t.groups.map (fun x =>
    if x.gid = s.cur.gid then stepPc s.gtick s.cur.hdr s.cur.len x else x)

/-- Of the registers only `vd` of the lanes that take part has changed. -/
def OnlyLaneRegister (s s' : State) (t : Team) (g : Grp) (vd : BitVec 6) : Prop :=
  ∃ t', OnlyRegisters s s' t t' ∧ t'.warps = t.warps ∧
    (∀ tid, { threadOf t' tid with v := (threadOf t tid).v } = threadOf t tid) ∧
    ∀ tid r, ((∀ l ∈ laneSet s t g, l.2 ≠ tid) ∨ r ≠ vd.toNat) → laneReg t' tid r = laneReg t tid r

/-- Of the registers only `sd` of the group's home warp has changed. -/
def OnlyUniformRegister (s s' : State) (t : Team) (g : Grp) (sd : BitVec 6) : Prop :=
  ∃ t', OnlyRegisters s s' t t' ∧ t'.threads = t.threads ∧ t'.ext = t.ext ∧
    (∀ w, w ≠ g.warp → warpOf t' w = warpOf t w) ∧ { warpOf t' g.warp with s := (warpOf t g.warp).s } = warpOf t g.warp ∧
    ∀ r, r ≠ sd.toNat → uReg (warpOf t' g.warp) r = uReg (warpOf t g.warp) r

/-! ### Shapes of completion -/

/-- Lane register `r` of a lane. -/
def vreg (t : Team) (r : BitVec 6) (l : Nat × Nat) : Word := laneReg t l.2 r.toNat

/-- Uniform register `r` of the group's home warp. -/
def sreg (t : Team) (g : Grp) (r : BitVec 6) : DWord := uReg (warpOf t g.warp) r.toNat

/-- On plain registers the instruction completes: `exec` answers the next state in which each lane that takes part has
written `vd` with its value, and nothing else has changed but that the group has gone on. -/
def LaneWrites (i : Instr) (vd : BitVec 6) (srcs : List (BitVec 6)) (val : State → Team → Grp → Nat × Nat → Word) : Prop :=
  ∀ s t g, LaneReady s t g (vd :: srcs) → exec i s = laneWrote s t g vd (val s t g)

/-- A lane form of one source completes with `f` of it. -/
def Lane1 (i : BitVec 6 → BitVec 6 → Instr) (f : Word → Word) : Prop :=
  ∀ vd va, LaneWrites (i vd va) vd [va] (fun _ t _ l => f (vreg t va l))

/-- A lane form of two sources completes with `f` of them. -/
def Lane2 (i : BitVec 6 → BitVec 6 → BitVec 6 → Instr) (f : Word → Word → Word) : Prop :=
  ∀ vd va vb, LaneWrites (i vd va vb) vd [va, vb] (fun _ t _ l => f (vreg t va l) (vreg t vb l))

/-- A lane form that also reads the old value of its destination completes with `f` of that value and its sources. -/
def Lane3 (i : BitVec 6 → BitVec 6 → BitVec 6 → Instr) (f : Word → Word → Word → Word) : Prop :=
  ∀ vd va vb, LaneWrites (i vd va vb) vd [va, vb] (fun _ t _ l => f (vreg t vd l) (vreg t va l) (vreg t vb l))

/-- A uniform form in its place completes: `exec` answers the next state in which the home warp has written `sd`, and
nothing else has changed but that the group has gone on. -/
def UniWrites (i : Instr) (sd : BitVec 6) (val : State → Team → Grp → DWord) : Prop :=
  ∀ s t g, UniReady s t g → exec i s = uniWrote s t g sd (val s t g)

/-- A uniform form of one source. -/
def Uni1 (i : BitVec 6 → BitVec 6 → Instr) (f : DWord → DWord) : Prop :=
  ∀ sd sa, UniWrites (i sd sa) sd (fun _ t g => f (sreg t g sa))

/-- A uniform form of two sources. -/
def Uni2 (i : BitVec 6 → BitVec 6 → BitVec 6 → Instr) (f : DWord → DWord → DWord) : Prop :=
  ∀ sd sa sb, UniWrites (i sd sa sb) sd (fun _ t g => f (sreg t g sa) (sreg t g sb))

/-- A lane form that writes a predicate completes on plain source registers. -/
def LanePredWrites (i : Instr) (pd : BitVec 3) (srcs : List (BitVec 6)) (val : Team → Nat × Nat → Bool) : Prop :=
  ∀ s t g, LaneReady s t g srcs → exec i s = lanePredWrote s t g pd (val t)

/-- What a compare leaves in a predicate or flag that held `old`: F picks one of four combinations (R234). -/
def combined (f : BitVec 2) (old cond : Bool) : Bool := [cond, old && cond, old || cond, old != cond].getD f.toNat false

/-- An immediate as a lane word (R236): sign-extended from its group, modulo 2^32. -/
def immWord : Imm → Word
  | .lone v => v.signExtend 32
  | .one l v => (l ++ v : BitVec 35).truncate 32
  | .two _ b v => (b ++ v : BitVec 35).truncate 32

/-- An immediate as a uniform value (R236). -/
def immDWord : Imm → DWord
  | .lone v => v.signExtend 64
  | .one l v => (l ++ v : BitVec 35).signExtend 64
  | .two a b v => (a ++ b ++ v : BitVec 60).signExtend 64

/-- A lane immediate form completes with `f` of its register and its immediate. -/
def LaneImm (i : BitVec 6 → BitVec 6 → Imm → Instr) (f : Word → Word → Word) : Prop :=
  ∀ vd va imm, LaneWrites (i vd va imm) vd [va] (fun _ t _ l => f (vreg t va l) (immWord imm))

/-- A uniform immediate form. -/
def UniImm (i : BitVec 6 → BitVec 6 → Imm → Instr) (f : DWord → DWord → DWord) : Prop :=
  ∀ sd sa imm, UniWrites (i sd sa imm) sd (fun _ t g => f (sreg t g sa) (immDWord imm))

/-- A form: the bits [31:25] of its word, its F value, and what its VD, VA and VB fields give. -/
abbrev FormRow := BitVec 7 × BitVec 2 × (BitVec 6 → BitVec 6 → BitVec 6 → Instr)

/-- Words in the three-register formats decode to their forms, whatever the STALL, the fields and the guard are (R230, R231). -/
def WordForms (l : List FormRow) : Prop :=
  ∀ x ∈ l, ∀ (st : BitVec 3) (d a b : BitVec 6) (g : BitVec 2),
    decodeGroup [(x.1 ++ st ++ d ++ a ++ b ++ g ++ x.2.1 : BitVec 32)] =
      .ok { instr := x.2.2 d a b, hdr := { stall := st, guard := g, scope := 0 }, len := 1 }

/-- The two halves of a word, each through `f` (R274). -/
def onHalves (f : Nat → Nat → Nat) (a b : Word) : Word :=
  (BitVec.ofNat 16 (f (a.extractLsb' 16 16).toNat (b.extractLsb' 16 16).toNat) ++
    BitVec.ofNat 16 (f (a.extractLsb' 0 16).toNat (b.extractLsb' 0 16).toNat) : BitVec 32)

/-- The same with the half of a third word in front. -/
def onHalves3 (f : Nat → Nat → Nat → Nat) (d a b : Word) : Word :=
  (BitVec.ofNat 16 (f (d.extractLsb' 16 16).toNat (a.extractLsb' 16 16).toNat (b.extractLsb' 16 16).toNat) ++
    BitVec.ofNat 16 (f (d.extractLsb' 0 16).toNat (a.extractLsb' 0 16).toNat (b.extractLsb' 0 16).toNat) : BitVec 32)

/-- What a lane reads from lane `i` of its group (R257): that lane's register, 0 outside the group's mask. -/
def fromLane (t : Team) (g : Grp) (va : BitVec 6) (i : Nat) : Word :=
  match g.lanes.find? (fun l => l.1 == i) with
  | some l => vreg t va l
  | none => 0

/-- What a lane reads from lane `i` of its quad (R19, R257, R303): as from any lane of its group, and of a helper lane that
has executed EXIT its register until its quad has exited. -/
def fromQuad (t : Team) (g : Grp) (va : BitVec 6) (i : Nat) : Word :=
  let th := threadOf t (32 * g.warp + i)
  if th.live && th.quit then laneReg t (32 * g.warp + i) va.toNat else fromLane t g va i

/-- A form that reads `va` of the lane `src` names completes. -/
def LaneExchanges (i : Instr) (vd va : BitVec 6) (srcs : List (BitVec 6)) (src : Team → Nat × Nat → Nat)
    (source : Team → Grp → BitVec 6 → Nat → Word) (allowed : Grp → Prop) : Prop :=
  ∀ s t g, LaneReady s t g (vd :: va :: srcs) → allowed g →
    exec i s = laneWrote s t g vd (fun l => source t g va (src t l))

/-- The lanes listed park at the instruction under way, each with its fault, and the others go on (R26, R392). -/
def someParked (s : State) (g : Grp) (l : List (Nat × Park)) : Out :=
  let s1 := raise s s.cur.team g 0 l
  .next (takeTraps s.cur.team trapFuel (match issuer s1 with
    | none => s1
    | some (t1, _) => setTeam s1 s.cur.team (advance s1 t1)))

/-- The lanes that contribute to a vote or reduction (R257): they take part and are no helpers. -/
def voters (s : State) (t : Team) (g : Grp) : List (Nat × Nat) :=
  (laneSet s t g).filter (fun l => !(threadOf t l.2).helper)

/-- The fixed tree over 2^k positions from `lo` on, the lower position first (R62). -/
def laneTree (f : Word → Word → Word) (pos : Nat → Word) : Nat → Nat → Word
  | 0, lo => pos lo
  | k + 1, lo => f (laneTree f pos k lo) (laneTree f pos k (lo + 2 ^ k))

/-- A warp reduction completes with the root of the tree; a position without a contributing lane holds `e`. -/
def LaneReduces (i : BitVec 6 → BitVec 6 → Instr) (e : Word) (f : Word → Word → Word) : Prop :=
  ∀ vd va, LaneWrites (i vd va) vd [va] (fun s t g _ => laneTree f (fun p =>
    match (voters s t g).find? (fun l => l.1 == p) with
    | some l => vreg t va l
    | none => e) 5 0)

/-- What CALL and CALLR leave in v31: bits [31:0] of the next word's address (R301). -/
def linkWord (s : State) (g : Grp) : Word := (g.pc + BitVec.ofNat 56 (4 * s.cur.len)).truncate 32

/-- Slot `wn` of the group's home warp holds a condition. -/
def armed (t : Team) (g : Grp) (wn : BitVec 2) (c : Cond) : Team :=
  modWarp t g.warp (fun w => { w with wc := padSet .empty w.wc wn.toNat c })

/-- The address at which a sub-warp's trap record goes (R387). -/
def recordPlace (s : State) (t : Team) (lanes : List (Nat × Nat)) : DWord :=
  (ctxOf s t.info.ctx).traprec + BitVec.ofNat 64 (128 * (t.core * 4096 + (threadOf t ((lanes.head?.map (·.2)).getD 0)).slot))

/-- The group has gone to a PC with every lane. -/
def jumped (s : State) (t : Team) (pc : BitVec 56) : Out :=
  .next (setTeam s s.cur.team (modGroup (advance s t) s.cur.gid (fun g => { g with pc := pc })))

/-! ### Memory at rest -/

/-- Nothing disturbs what a core sees of memory: no poison, no monitor or head record that watches a word, memory in its
canonical form, no square that holds tags; each clean byte of the core's L1 is as memory has it, each dirty one is of near
memory, and no line of it is of a checked or recorded page. -/
structure Quiet (s : State) (core : Nat) : Prop where
  poison : s.poison = []
  watched : watched s = false
  memory : MemoryCanonical s
  untagged : ∀ e ∈ s.squares, e.2.shadow = none
  rising : risingFrom 0 (coreOf s core).l1 = true
  clean : ∀ e ∈ (coreOf s core).l1, e.2.dirty = false → e.2.val = memByte s e.1
  near : ∀ e ∈ (coreOf s core).l1, e.2.dirty = true → placeOf s e.1 = .near
  lines : ∀ e ∈ (coreOf s core).lines, e.2.agent = none ∧ e.2.shadow = none

/-- No watch is enabled (R376). -/
def NoWatch (s : State) : Prop := ∀ i < 8, (regGet s (0x30800 + 32 * i + 24)).getLsbD 0 = false

/-- The physical address of an access of `w` bytes, aligned to `al` and within a line, that translates to a page in near
memory which is neither checked nor recorded. -/
def plainRun (s : State) (t : Team) (g : Grp) (k : Kind) (al w : Nat) (addr : BitVec 64) : Option Nat :=
  match translate s t.core t.info.ctx addr k g.handler with
  | .error _ => none
  | .ok l =>
    let pa := l.phys addr.toNat
    if l.checked || l.recorded || placeOf s pa != .near || addr.toNat % al != 0 || decide (128 < pa % 128 + w) then none
    else some pa

/-- The same of an access aligned to its own width. -/
def plainAt (s : State) (t : Team) (g : Grp) (k : Kind) (w : Nat) (addr : BitVec 64) : Option Nat := plainRun s t g k w w addr

/-- The bytes a core sees from a physical address on. -/
def seenBytes (s : State) (core pa n : Nat) : List Byte := (List.range n).map (fun i => coreByte s core (pa + i))

/-- What is seen after bytes have been written. -/
def withBytes (seen : Nat → Byte) (pa : Nat) (d : List Byte) (a : Nat) : Byte :=
  if pa ≤ a ∧ a < pa + d.length then d.getD (a - pa) 0 else seen a

/-- The group may access memory without anything in its way: memory is at rest, nothing watches, the core has entries left for
requests of `n` lines (R287), the instruction has made no access yet, no group of the team is parked, and no thread stands twice in the
group. -/
structure MemReady (s : State) (t : Team) (g : Grp) (n : Nat) : Prop where
  quiet : Quiet s t.core
  unwatched : NoWatch s
  entries : entriesUsed (coreOf s t.core) + min n 1024 ≤ 1024
  fresh : g.done = [] ∧ g.judged = false
  unparked : ∀ x ∈ t.groups, x.park = none
  distinct : (g.lanes.map (·.2)).Nodup

/-- Whether the condition of a slot holds (R146), its word of memory as the core sees it; nothing where that word is on no
plain page. -/
def slotHolds (s : State) (t : Team) (g : Grp) : Cond → Option Bool
  | .addr a test v => (plainAt s t g .read 4 a).map (fun pa => testHolds test (BitVec.ofNat 32 (ofBytes (seenBytes s t.core pa 4))) v)
  | .counter a target _ => (plainAt s t g .read 4 a).map (fun pa => reached (BitVec.ofNat 32 (ofBytes (seenBytes s t.core pa 4))) target)
  | .bcb o => some (offWord s s.cur.team (o + 4) == some 0)
  | .queue o room n => some (match currentQueue s s.cur.team o with
    | none => false
    | some (_, q) => if room then decide (n ≤ q.cap - occupancy q) else decide (n ≤ occupancy q))
  | .phase cl id target => some (reached (barOf s t (if cl then 16 + id else id)).phase target)
  | .empty => some false

/-- A wait has ended: `sd` has its result, no other register and no byte the core sees has changed, and the group has gone on. -/
def WaitEnds (s : State) (t : Team) (g : Grp) (i : Instr) (sd : BitVec 6) (res : DWord) : Prop :=
  ∃ s' t', exec i s = .next s' ∧ tget s'.teams s.cur.team = some t' ∧
    (∀ r, uReg (warpOf t' g.warp) r = uReg (setU (warpOf t g.warp) sd.toNat res) r) ∧
    (∀ tid r, laneReg t' tid r = laneReg t tid r) ∧ (∀ a, coreByte s' t.core a = coreByte s t.core a) ∧
    groupOf t' g.gid = some (stepPc s.gtick s.cur.hdr s.cur.len g)

/-- A wait holds its group at its instruction, until a time of ticks. -/
def WaitHolds (s : State) (t : Team) (g : Grp) (i : Instr) (all : Bool) (mask sat : BitVec 4) (deadline : Option Nat) : Prop :=
  ∃ s' t' ws, exec i s = .next s' ∧ tget s'.teams s.cur.team = some t' ∧
    (∀ r, uReg (warpOf t' g.warp) r = uReg (warpOf t g.warp) r) ∧ (∀ tid r, laneReg t' tid r = laneReg t tid r) ∧
    (∀ a, coreByte s' t.core a = coreByte s t.core a) ∧
    groupOf t' g.gid = some { g with wait := .slots all mask sat ws deadline false }

/-- The registers of a tuple. -/
def tupleRegs (vd : BitVec 6) (n : Nat) : List (BitVec 6) := (List.range n).map (fun i => vd + BitVec.ofNat 6 i)

/-- The address of a lane's global access (R284). -/
def globalAddr (t : Team) (va sb : BitVec 6) (l : Nat × Nat) : BitVec 64 :=
  uReg (warpOf t (l.2 / 32)) sb.toNat + (vreg t va l).zeroExtend 64

/-- The scratchpad offset of a lane (R285). -/
def scratchOff (t : Team) (va sb : BitVec 6) (l : Nat × Nat) : Word :=
  (uReg (warpOf t (l.2 / 32)) sb.toNat).truncate 32 + vreg t va l

/-- The issuing group has gone on in team `t'`; its SAMPLE mark may have been taken (R377). -/
def hasGone (s : State) (g : Grp) (t' : Team) : Prop :=
  ∃ m, (m = g.mark ∨ m = false) ∧ groupOf t' g.gid = some (stepPc s.gtick s.cur.hdr s.cur.len { g with mark := m })

/-- Registers other than those of a tuple of the lanes listed are as they were. -/
def otherRegs (t t' : Team) (lanes : List (Nat × Nat)) (vd : BitVec 6) (n : Nat) : Prop :=
  ∀ tid r, (∀ l ∈ lanes, l.2 = tid → r < vd.toNat ∨ vd.toNat + n ≤ r) → laneReg t' tid r = laneReg t tid r

/-- A global load completes: each lane that takes part has the words of the bytes the core sees at its address, and no byte
the core sees has changed. Which value a quantum or speculative load gets is said elsewhere (`LaneLoads`). -/
def LoadGives (i : Instr) (mq : Option Mq) (vd va : BitVec 6) (n w : Nat) (addr : Team → Nat × Nat → BitVec 64)
    (val : List Byte → Nat → Word) : Prop :=
  ∀ s t g (pa : Nat × Nat → Nat), LaneReady s t g (va :: tupleRegs vd n) → vd.toNat + n ≤ 64 →
    MemReady s t g (laneSet s t g).length →
    (∀ l ∈ laneSet s t g, plainAt s t g .read w (addr t l) = some (pa l)) →
    ∃ s' t', exec i s = .next s' ∧ tget s'.teams s.cur.team = some t' ∧
      (∀ l ∈ laneSet s t g, (threadOf t' l.2).lstat = 0 ∧
        ((qualOf mq .read).mayLag .read = false →
          ∀ j < n, laneReg t' l.2 (vd.toNat + j) = val (seenBytes s t.core (pa l) w) j)) ∧
      otherRegs t t' (laneSet s t g) vd n ∧ (∀ a, coreByte s' t.core a = coreByte s t.core a) ∧ hasGone s g t'

/-- Word `j` of some bytes (R286). -/
def wordAt (l : List Byte) (j : Nat) : Word := BitVec.ofNat 32 (ofBytes ((l.drop (4 * j)).take 4))

/-- A global store completes: what the core sees has changed in the bytes stored, in lane order, and nowhere else. -/
def StoreGives (i : Instr) (vd va : BitVec 6) (n w : Nat) (addr : Team → Nat × Nat → BitVec 64)
    (data : Team → Nat × Nat → List Byte) : Prop :=
  ∀ s t g (pa : Nat × Nat → Nat), LaneReady s t g (va :: tupleRegs vd n) → vd.toNat + n ≤ 64 →
    MemReady s t g (laneSet s t g).length →
    (∀ l ∈ voters s t g, plainAt s t g .write w (addr t l) = some (pa l)) →
    ∃ s' t', exec i s = .next s' ∧ tget s'.teams s.cur.team = some t' ∧
      (∀ a, coreByte s' t.core a =
        (voters s t g).foldl (fun seen l => withBytes seen (pa l) (data t l)) (coreByte s t.core) a) ∧
      (∀ tid r, laneReg t' tid r = laneReg t tid r) ∧ hasGone s g t'

/-- The old words that lanes meet in turn, each writing the word that `f` gives. -/
def turns (f : Nat × Nat → Word → Word) (pa : Nat × Nat → Nat) : List (Nat × Nat) → (Nat → Byte) → List (Nat × Word)
  | [], _ => []
  | l :: r, seen =>
    let old := BitVec.ofNat 32 (ofBytes ((List.range 4).map (fun i => seen (pa l + i))))
    (l.2, old) :: turns f pa r (withBytes seen (pa l) (bytesOf 4 (f l old).toNat))

/-- What is seen after those lanes. -/
def afterTurns (f : Nat × Nat → Word → Word) (pa : Nat × Nat → Nat) : List (Nat × Nat) → (Nat → Byte) → Nat → Byte
  | [], seen => seen
  | l :: r, seen =>
    let old := BitVec.ofNat 32 (ofBytes ((List.range 4).map (fun i => seen (pa l + i))))
    afterTurns f pa r (withBytes seen (pa l) (bytesOf 4 (f l old).toNat))

/-- A global atomic completes: the lanes that are no helpers update their words in lane order and receive the old ones,
helper lanes receive 0. -/
def AtomicGives (i : Instr) (vd va sb : BitVec 6) (n : Nat) (f : Word → Word → Word → Word) : Prop :=
  ∀ s t g (pa : Nat × Nat → Nat), LaneReady s t g (va :: tupleRegs vd n) → vd.toNat + n ≤ 64 →
    MemReady s t g (laneSet s t g).length →
    (∀ l ∈ voters s t g, plainAt s t g .rmw 4 (globalAddr t va sb l) = some (pa l)) →
    ∃ s' t', exec i s = .next s' ∧ tget s'.teams s.cur.team = some t' ∧
      (∀ x ∈ turns (fun l old => f (vreg t vd l) (laneReg t l.2 (vd.toNat + 1)) old) pa (voters s t g) (coreByte s t.core),
        laneReg t' x.1 vd.toNat = x.2) ∧
      (∀ l ∈ laneSet s t g, (threadOf t l.2).helper = true → vreg t' vd l = 0) ∧
      (∀ a, coreByte s' t.core a = afterTurns (fun l old => f (vreg t vd l) (laneReg t l.2 (vd.toNat + 1)) old) pa
        (voters s t g) (coreByte s t.core) a) ∧
      otherRegs t t' (laneSet s t g) vd 1 ∧ hasGone s g t'

/-! ### Scratchpad at rest -/

/-- A byte of a team's scratchpad. -/
def scratchByte (s : State) (p : Nat × Nat) : Byte :=
  match tget s.teams p.1 with
  | some t => cget 0 t.scratch p.2
  | none => 0

/-- Every scratchpad is in the canonical form of memory. -/
def ScratchCanonical (s : State) : Prop := ∀ k u, tget s.teams k = some u → Memory.wf u.scratch = true

/-- The team and position of an aligned access of `w` bytes to an unchecked window, present and unpoisoned. -/
def spotAt (s : State) (w : Nat) (o : Word) : Option (Nat × Nat) :=
  match resolve s s.cur.team o w with
  | .error _ => none
  | .ok p =>
    if p.chk || o.toNat % w != 0 || !present s p w || scratchPoisoned s p.team p.pos w then none else some (p.team, p.pos)

/-- What scratchpad holds after bytes have been written. -/
def withScratch (seen : Nat × Nat → Byte) (p : Nat × Nat) (d : List Byte) (a : Nat × Nat) : Byte :=
  if a.1 = p.1 ∧ p.2 ≤ a.2 ∧ a.2 < p.2 + d.length then d.getD (a.2 - p.2) 0 else seen a

/-- The old words that lanes meet in turn in scratchpad, and what it holds after them. -/
def scratchTurns (f : Nat × Nat → Word → Word) (p : Nat × Nat → Nat × Nat) :
    List (Nat × Nat) → (Nat × Nat → Byte) → List (Nat × Word) × (Nat × Nat → Byte)
  | [], seen => ([], seen)
  | l :: r, seen =>
    let old := BitVec.ofNat 32 (ofBytes ((List.range 4).map (fun i => seen ((p l).1, (p l).2 + i))))
    let rest := scratchTurns f p r (withScratch seen (p l) (bytesOf 4 (f l old).toNat))
    ((l.2, old) :: rest.1, rest.2)

/-! ### Handles and tensors -/

/-- A handle names a tensor of a usable class that suits the form (R430), in each lane that takes part. -/
def HandlesFit (s : State) (t : Team) (g : Grp) (hb : BitVec 4) (ok : Entry → Bool) : Prop :=
  ∀ l ∈ laneSet s t g, (handleOf t l.2 hb).v = true ∧
    (let e := entryOf t (handleOf t l.2 hb).cls
     e.used = true ∧ e.valid = true ∧ ok e = true)

/-- The class entry of a lane's handle. -/
def laneEntry (t : Team) (hb : BitVec 4) (l : Nat × Nat) : Entry := entryOf t (handleOf t l.2 hb).cls

/-- The bytes that a plain read of an access sees. -/
def plainBytes (s : State) (t : Team) (g : Grp) (x : Want) : List Byte :=
  seenBytes s t.core ((plainRun s t g .read x.align x.w x.addr).getD 0) x.w

/-- Bytes that an instruction writes at an address, under a mask of bits. -/
structure Change where
  addr : BitVec 64
  align : Nat
  data : List Byte
  mask : List Byte
deriving DecidableEq, Repr

/-- What is seen after changes, in order, whose addresses lie at `pa`. -/
def afterChanges (pa : BitVec 64 → Nat) (l : List Change) (seen : Nat → Byte) : Nat → Byte :=
  l.foldl (fun seen x a =>
    let i := a - pa x.addr
    if pa x.addr ≤ a ∧ i < x.data.length then
      (seen a &&& ~~~(x.mask.getD i 0)) ||| (x.data.getD i 0 &&& x.mask.getD i 0)
    else seen a) seen

/-- Whole bytes. -/
def wholeBytes (d : List Byte) : List Byte := List.replicate d.length 0xFF

/-- `count` codes of a container of `c` bits, together `v`, go to a tensor from element `i` on (R339, R343). -/
def codeChanges (h : Handle) (c i count v : Nat) : List Change :=
  let sh := c * i % 8
  let n := (sh + c * count + 7) / 8
  let d := bytesOf n (v * 2 ^ sh)
  let m := if c < 8 then bytesOf n ((2 ^ (c * count) - 1) * 2 ^ sh) else wholeBytes d
  (cutLines (h.codeAddr c i) n).map (fun p =>
    let off := if p.1 = h.codeAddr c i then 0 else n - p.2
    { addr := p.1.zeroExtend 64, align := 1, data := (d.drop off).take p.2, mask := (m.drop off).take p.2 })

/-- The scale of a block goes to its place (R339): 2 bytes, or 4 bits of a byte. -/
def scaleChanges (e : Entry) (b : Block) : List Change :=
  if e.elem.scale = 1 then
    [{ addr := (b.h.saddr + BitVec.ofNat 56 (2 * b.b)).zeroExtend 64, align := 2, data := bytesOf 2 b.raw,
       mask := [0xFF, 0xFF] }]
  else if e.elem.scale = 2 then
    [{ addr := (b.h.saddr + BitVec.ofNat 56 (b.b / 2)).zeroExtend 64, align := 1, data := bytesOf 1 (b.raw * 16 ^ (b.b % 2)),
       mask := bytesOf 1 (15 * 16 ^ (b.b % 2)) }]
  else []

/-- The side entries of a block go to their places (R86, R339). -/
def sideChanges (e : Entry) (b : Block) : List Change :=
  if b.h.oe then
    (List.range e.outl).map (fun j =>
      { addr := (b.h.oaddr + BitVec.ofNat 56 (4 * (e.outl * b.b + j))).zeroExtend 64, align := 4,
        data := ((sideBytes e b).drop (4 * j)).take 4, mask := [0xFF, 0xFF, 0xFF, 0xFF] })
  else []

/-- An instruction that stores changes what the core sees by `l` alone. -/
def StoresChanges (s : State) (t : Team) (g : Grp) (i : Instr) (l : List Change) : Prop :=
  ∀ pa : BitVec 64 → Nat,
    (∀ x ∈ l, plainRun s t g .write x.align x.data.length x.addr = some (pa x.addr)) →
    ∃ s' t', exec i s = .next s' ∧ tget s'.teams s.cur.team = some t' ∧
      (∀ a, coreByte s' t.core a = afterChanges pa l (coreByte s t.core) a) ∧
      (∀ tid r, laneReg t' tid r = laneReg t tid r) ∧ hasGone s g t'

/-- A finite value as a rational number. -/
def ratOf : FVal → ℚ
  | .fin neg n d => (if neg then -(n : ℚ) else n) / d
  | _ => 0

/-- The writes of a range of memory, one for each line of 128 bytes (R226). -/
def spanChanges (lane : Nat × Nat) (x : Span) (d : List Byte) : List Change :=
  (spanWants lane 0 x).map (fun w =>
    { addr := w.addr, align := w.align, data := (d.drop w.ix).take w.w, mask := wholeBytes ((d.drop w.ix).take w.w) })

/-- The bytes of a range as the core sees them. -/
def spanSeen (s : State) (t : Team) (g : Grp) (lane : Nat × Nat) (x : Span) : List Byte :=
  (spanWants lane 0 x).flatMap (plainBytes s t g)

/-- A range can be read. -/
def SpanReads (s : State) (t : Team) (g : Grp) (lane : Nat × Nat) (x : Span) : Prop :=
  ∀ w ∈ spanWants lane 0 x, plainRun s t g .read w.align w.w w.addr ≠ none

/-! ### Engines -/

/-- The class step of `eng` and `op` finds the running operation it names, whose context runs. -/
structure OpRuns (s : State) (o : EngOp) (eng op : Nat) : Prop where
  named : opOf s s.cur.arg.op = some o
  phase : o.phase = .running
  context : (ctxOf s o.ctx).stat = 0
  form : o.eng = eng ∧ cmdOp o.cmd = op
  going : o.ending = false

/-- The slices at rest: no poison, memory in its canonical form, no square that holds tags. -/
structure SlicesRest (s : State) : Prop where
  poison : s.poison = []
  memory : MemoryCanonical s
  untagged : ∀ e ∈ s.squares, e.2.shadow = none

/-- Every scratchpad is canonical and holds no poison. -/
def ScratchRest (s : State) : Prop := ScratchCanonical s ∧ ∀ k u, tget s.teams k = some u → u.poison = []

/-- The step moves a unit: its `n` bytes are to be counted, and memory, scratchpad and the device's queues are as given. -/
def UnitMoves (s : State) (o : EngOp) (i : Instr) (n : Nat) (mem : Nat → Byte) (spad : Nat × Nat → Byte)
    (queues : List (Nat × Queue)) : Prop :=
  ∃ s' o', exec i s = .next s' ∧ opOf s' o.id = some o' ∧ o'.phase = .unitDone ∧ o'.bytes = n ∧ o'.unit = o.unit ∧
    (∀ a, memByte s' a = mem a) ∧ (∀ p, scratchByte s' p = spad p) ∧ s'.queues = queues

/-- A piece of an operation's access that lies on a plain page of near memory. -/
def plainPiece (s : State) (p : Piece) : Bool := !p.leaf.checked && !p.leaf.recorded && placeOf s p.pa == .near

/-- Where an access of an operation lies that is within one line, on a plain page. -/
def opLine (s : State) (o : EngOp) (k : Kind) (va n : Nat) : Option Nat :=
  match piecesFor s o k va n with
  | .ok [p] => if plainPiece s p then some p.pa else none
  | _ => none

/-- The core's TLB holds the page of an address. -/
def inTlb (s : State) (o : EngOp) (va : Nat) : Bool := (tlbHit (coreOf s o.core).tlb o.ctx va).isSome

/-- The pieces of an access of an operation, each its place and size, all on plain pages that the core's TLB holds. -/
def opSpan (s : State) (o : EngOp) (k : Kind) (va n : Nat) : Option (List (Nat × Nat)) :=
  match piecesFor s o k va n with
  | .ok l => if l.all (fun p => plainPiece s p && inTlb s o p.va) then some (l.map (fun p => (p.pa, p.n))) else none
  | .error _ => none

/-- The bytes of those pieces. -/
def pieceBytes (s : State) (l : List (Nat × Nat)) : List Byte := l.flatMap (fun p => memRead s p.1 p.2)

/-- What memory holds after bytes have been written over pieces. -/
def afterPieces : List (Nat × Nat) → List Byte → (Nat → Byte) → Nat → Byte
  | [], _, seen => seen
  | p :: r, d, seen => afterPieces r (d.drop p.2) (withBytes seen p.1 (d.take p.2))

/-- Runs of scratchpad, `n` bytes in all, in unchecked windows of teams that are there. -/
def SpotsPlain (s : State) (l : List SpotRun) (n : Nat) : Prop :=
  (l.map (·.n)).sum = n ∧ ∀ x ∈ l, x.spot.chk = false ∧ (tget s.teams x.spot.team).isSome

/-- The bytes of runs of scratchpad. -/
def spotBytes (s : State) (l : List SpotRun) : List Byte := l.flatMap (fun x => scratchBytes s x.spot.team x.spot.pos x.n)

/-- What scratchpad holds after bytes have been written over runs. -/
def afterSpots : List SpotRun → List Byte → (Nat × Nat → Byte) → Nat × Nat → Byte
  | [], _, seen => seen
  | x :: r, d, seen => afterSpots r (d.drop x.n) (withScratch seen (x.spot.team, x.spot.pos) (d.take x.n))

/-- A descriptor names a queue that can be used now. -/
def QueueServes (s : State) (o : EngOp) (off : Word) (key : Nat) (q : Queue) : Prop :=
  (∃ p, resolve s o.team off 32 = .ok p ∧ present s p 32 = true) ∧ currentQueue s o.team off = some (key, q)

/-- The entries that bytes make, with a producer's clock. -/
def entryList (d : List Byte) (clk : Word) : List (Word × Word) := (List.range (d.length / 4)).map (fun i => (wordAt d i, clk))

/-- The machine after entries have been pushed in runs of 32. -/
def pushRuns (key : Nat) (me : Nat × Nat) : Nat → List (Word × Word) → State → State
  | 0, _, s => s
  | n + 1, l, s =>
    match l, queueOf s key with
    | [], _ => s
    | _, none => s
    | _, some q => pushRuns key me n (l.drop 32) (pushEntries s key q me (l.take 32))

/-- The index of a GAT unit: read already, or the word of its index list, which is there and below NROWS (R179). -/
def RowIndex (s : State) (o : EngOp) (ix : Nat) : Prop :=
  let l := spotsFor s o.team (cmdOff o 32) (4 * o.unit) 4
  o.aux = [ix] ∨ (o.aux = [] ∧ SpotsPlain s l 4 ∧ spadReady s l = true ∧ ix = ofBytes (spotBytes s l) ∧ ix < cmdWord o 44)

/-- The places of tile `k` of a frame and of its status word are plain scratchpad. -/
def TilePlain (s : State) (o : EngOp) (t k : Nat) : Prop :=
  SpotsPlain s (spotsFor s o.team (cmdOff o 40) (k * t) t) t ∧ SpotsPlain s (spotsFor s o.team (cmdOff o 44) (4 * k) 4) 4

/-- What scratchpad holds after tile `k` of a frame and its status word have been written (R182). -/
def afterTile (s : State) (o : EngOp) (f : Config.Av1) (state unit : List Byte) (t frame code k : Nat)
    (seen : Nat × Nat → Byte) : Nat × Nat → Byte :=
  let place := (decTiles f).getD k (0, 0, 0)
  afterSpots (spotsFor s o.team (cmdOff o 44) (4 * k) 4) (statusWord frame place.1 code)
    (afterSpots (spotsFor s o.team (cmdOff o 40) (k * t) t) (decTile o f state unit place) seen)

/-! ### Quartets -/

/-- The group is the fourth of its quartet to issue a matrix word that all four issue alike (R212): the array is free, and what
it reads is there. `s1` is the machine once a queue's entries have been popped. -/
structure QuartetReady (s : State) (t : Team) (g : Grp) (gam : Bool) (src : Nat) (vd va vb : BitVec 6) (m : BitVec 2)
    (slabs : List Slabs) (popped : List (Word × Word)) (s1 : State) : Prop where
  issues : Issues s t g
  home : g.formation = false
  full : g.lanes.length = 32
  whole : quartetWhole t (g.warp / 4) = true
  fault : matrixFault s t g gam src vd va vb m = none
  blocks : extFaults s t g.lanes (matrixRegs gam src vd va vb) = []
  three : ((quartetHolders t (g.warp / 4)).filter (fun h => h.gid != g.gid)).length = 3
  alike : ∀ h ∈ (quartetHolders t (g.warp / 4)).filter (fun h => h.gid != g.gid), wordsDiffer s t g h gam m = false
  distinct : (t.groups.map (·.gid)).Nodup
  unparked : ∀ x ∈ t.groups, x.park = none
  threads : ∀ tid, g.warp / 4 * 128 ≤ tid → tid < g.warp / 4 * 128 + 128 → tid < t.threads.length ∧
    (vd.toNat + 16 ≤ 32 ∨ hasExt t tid = true)
  counted : numcfg s t.info.ctx = 0
  free : (coreOf s t.core).array = none
  slot : gam = true → (warpOf t (g.warp / 4 * 4)).gbase.toNat % 256 + vd.toNat < 256
  place : gam = false → vd.toNat + 16 ≤ 64
  pairs : descOutl ((warpOf t (g.warp / 4 * 4)).md.getD m.toNat 0) = false ∨
    (descSra ((warpOf t (g.warp / 4 * 4)).md.getD m.toNat 0) ≤ 62 ∧ descSrb ((warpOf t (g.warp / 4 * 4)).md.getD m.toNat 0) ≤ 62)
  tables : slabs.map (fun l => l.map (·.1)) = matrixSlabs t (g.warp / 4) src va ((warpOf t (g.warp / 4 * 4)).md.getD m.toNat 0)
  found : ∀ l ∈ slabs, ∀ x ∈ l, slabSpots s s.cur.team x.1 = .ok x.2 ∧ ∀ p ∈ x.2, p.2.chk = false ∧
    present s p.2 x.1.w = true ∧ scratchPoisoned s p.2.team p.2.pos x.1.w = false
  noPop : src ≠ 2 → popped = [] ∧ s1 = s
  pop : src = 2 → ∃ key q, boundKey t (va.toNat - 56) = some key ∧ queueOf s key = some q ∧ 512 ≤ q.cap ∧
    canPop q (s.cur.team, g.gid) 512 = true ∧ popEntries s key q (s.cur.team, g.gid) (unitOf 0 t.core) 512 = (popped, s1)

end Sys2Proof.Machine
end

