-- ==== Sys2Proof/Certificates/Slice0/Obligations.lean ====
section
/-!
DEFINITION. The statements for the provers. Each says which rule of spec/ it formalises.
-/

open Sys2Proof Sys2Proof.Machine

/-! ### Lane integers (R258 to R266) -/

/-- R258 to R262: the sums, minima, maxima, differences, means and products of 32-bit lanes, the bitwise operations, and the
shifts by the whole of VB; and their words. -/
def Obligations.LaneIntegerAndLogic : Prop :=
  Lane2 .iadd (fun a b => a + b) ∧
  Lane2 .isub (fun a b => a - b) ∧
  Lane2 .imin (fun a b => if a.sle b then a else b) ∧
  Lane2 .imax (fun a b => if b.sle a then a else b) ∧
  Lane2 .nmin (fun a b => if a ≤ b then a else b) ∧
  Lane2 .nmax (fun a b => if b ≤ a then a else b) ∧
  Lane2 .iabsd (fun a b => BitVec.ofNat 32 (a.toInt - b.toInt).natAbs) ∧
  Lane2 .navg (fun a b => ((a.zeroExtend 33 + b.zeroExtend 33 + 1) >>> 1).truncate 32) ∧
  Lane2 .imul (fun a b => a * b) ∧
  Lane2 .imulh (fun a b => ((a.signExtend 64 * b.signExtend 64) >>> 32).truncate 32) ∧
  Lane2 .nmulh (fun a b => ((a.zeroExtend 64 * b.zeroExtend 64) >>> 32).truncate 32) ∧
  Lane3 .imad (fun d a b => d + a * b) ∧
  Lane2 .and (fun a b => a &&& b) ∧
  Lane2 .or (fun a b => a ||| b) ∧
  Lane2 .xor (fun a b => a ^^^ b) ∧
  Lane2 .andn (fun a b => a &&& ~~~b) ∧
  Lane2 .shl (fun a n => a <<< n.toNat) ∧
  Lane2 .shr (fun a n => a >>> n.toNat) ∧
  Lane2 .sar (fun a n => a.sshiftRight n.toNat) ∧
  Lane2 .rol (fun a n => a.rotateLeft n.toNat) ∧
  WordForms [(0x00, 0, .iadd), (0x00, 1, .isub), (0x00, 2, .imin), (0x00, 3, .imax), (0x01, 0, .nmin), (0x01, 1, .nmax),
    (0x01, 2, .iabsd), (0x01, 3, .navg), (0x02, 0, .imul), (0x02, 1, .imulh), (0x02, 2, .nmulh), (0x02, 3, .imad),
    (0x03, 0, .and), (0x03, 1, .or), (0x03, 2, .xor), (0x03, 3, .andn), (0x04, 0, .shl), (0x04, 1, .shr),
    (0x04, 2, .sar), (0x04, 3, .rol)]

/-- R263, R264: the counting forms, the bit fields under a clamped control, and the byte permutation; and
their words. -/
def Obligations.LaneBitFields : Prop :=
  Lane1 .popc (fun a => BitVec.ofNat 32 ((List.range 32).countP (fun i => a.getLsbD i))) ∧
  Lane1 .clz (fun a => a.clz) ∧
  Lane1 .brev (fun a => a.reverse) ∧
  Lane1 .ffs (fun a => match (List.range 32).find? (fun i => a.getLsbD i) with
    | some i => BitVec.ofNat 32 i
    | none => 0xFFFFFFFF) ∧
  (∀ vd va vb, LaneWrites (.bfxn vd va vb) vd [va, vb] (fun _ t _ l =>
    let p := min ((vreg t vb l).extractLsb' 0 8).toNat 32
    let n := min ((vreg t vb l).extractLsb' 8 8).toNat (32 - p)
    (vreg t va l >>> p) &&& ~~~(BitVec.allOnes 32 <<< n))) ∧
  (∀ vd va vb, LaneWrites (.bfx vd va vb) vd [va, vb] (fun _ t _ l =>
    let p := min ((vreg t vb l).extractLsb' 0 8).toNat 32
    let n := min ((vreg t vb l).extractLsb' 8 8).toNat (32 - p)
    if n = 0 then 0 else ((vreg t va l >>> p) <<< (32 - n)).sshiftRight (32 - n))) ∧
  (∀ vd va vb, LaneWrites (.bfi vd va vb) vd [va, vb] (fun _ t _ l =>
    let p := min ((vreg t vb l).extractLsb' 0 8).toNat 32
    let n := min ((vreg t vb l).extractLsb' 8 8).toNat (32 - p)
    let m : Word := ~~~(BitVec.allOnes 32 <<< n) <<< p
    (vreg t vd l &&& ~~~m) ||| ((vreg t va l <<< p) &&& m))) ∧
  (∀ vd va vb, LaneWrites (.prmt vd va vb) vd [va, vb] (fun _ t _ l =>
    let x : BitVec 64 := vreg t vb l ++ vreg t va l
    let byte := fun (i : Nat) =>
      let b := x.extractLsb' (8 * ((vreg t vd l).extractLsb' (4 * i) 3).toNat) 8
      if (vreg t vd l).getLsbD (4 * i + 3) then (if b.msb then 0xFF#8 else 0#8) else b
    (byte 3 ++ byte 2 ++ byte 1 ++ byte 0 : BitVec 32))) ∧
  WordForms [(0x05, 0, fun d a _ => .popc d a), (0x05, 1, fun d a _ => .clz d a), (0x05, 2, fun d a _ => .brev d a),
    (0x05, 3, fun d a _ => .ffs d a), (0x06, 0, .bfx), (0x06, 1, .bfxn), (0x06, 2, .bfi), (0x06, 3, .prmt)]

/-- R234, R244, R265, R266, R269, R282, R283: the integer and FP32 compares into a predicate, the select by one, the moves, the
lane special registers and the immediate forms. -/
def Obligations.LaneMovesAndCompares : Prop :=
  (∀ pd cc va vb f, LanePredWrites (.icmpp pd cc va vb f) pd [va, vb] (fun t l =>
    let a := vreg t va l
    let b := vreg t vb l
    combined f (lanePred (threadOf t l.2) pd.toNat)
      ([a == b, a != b, a.slt b, a.sle b, b.slt a, b.sle a, a.ult b, b.ule a].getD cc.toNat false))) ∧
  (∀ pd cc va vb f, LanePredWrites (.fcmpp pd cc va vb f) pd [va, vb] (fun t l =>
    let c := (f32 (vreg t va l)).cmp (f32 (vreg t vb l))
    combined f (lanePred (threadOf t l.2) pd.toNat)
      ([c == .equal, c != .equal, c == .less, c == .less || c == .equal, c == .greater, c == .greater || c == .equal,
        c != .unordered, c == .unordered].getD cc.toNat false))) ∧
  (∀ vd va vb k, LaneWrites (.sel vd va vb k) vd [va, vb] (fun _ t _ l =>
    if lanePred (threadOf t l.2) (4 + k.toNat) then vreg t va l else vreg t vb l)) ∧
  Lane1 .vmov (fun a => a) ∧
  (∀ vd sa hi, LaneWrites (.vmovs vd sa hi) vd [] (fun _ t _ l =>
    (uReg (warpOf t (l.2 / 32)) sa.toNat).extractLsb' (32 * hi.toNat) 32)) ∧
  (∀ vd ix, ix.toNat < 8 → LaneWrites (.vspec vd ix) vd [] (fun _ t _ l =>
    let th := threadOf t l.2
    [BitVec.ofNat 32 l.1, BitVec.ofNat 32 l.2, BitVec.ofNat 32 (l.2 / 32), BitVec.ofNat 32 th.slot, th.clk, th.lstat,
      BitVec.ofNat 32 (l.2 / 4 % 8), if th.helper then 1 else 0].getD ix.toNat 0)) ∧
  LaneImm .iaddi (fun a n => a + n) ∧
  LaneImm .shli (fun a n => a <<< n.toNat) ∧
  LaneImm .shri (fun a n => a >>> n.toNat) ∧
  LaneImm .andi (fun a n => a &&& n) ∧
  (∀ vd imm, LaneWrites (.movi vd imm) vd [] (fun _ _ _ _ => immWord imm)) ∧
  LaneImm .ori (fun a n => a ||| n) ∧
  LaneImm .xori (fun a n => a ^^^ n)

/-! ### Lane floating point (R267 to R276) -/

/-- R43 to R45, R267, R268: one rounding of the exact sum, difference, product or fused result; minimum, maximum, distance and
sign copy. `f32` is the exact value of a pattern and `to32` its one rounding to nearest even: an invalid operation gives the
canonical NaN, a zero sum of opposite signs is +0 and of two −0 is −0, and a value that is an FP32 number is rounded to itself. -/
def Obligations.LaneFloatArithmetic : Prop :=
  Lane2 .fadd (fun a b => to32 ((f32 a).add (f32 b))) ∧
  Lane2 .fsub (fun a b => to32 ((f32 a).add (f32 b).neg)) ∧
  Lane2 .fmul (fun a b => to32 ((f32 a).mul (f32 b))) ∧
  Lane3 .ffma (fun d a b => to32 ((f32 d).add ((f32 a).mul (f32 b)))) ∧
  Lane2 .fmin (fun a b =>
    if f32 a = .nan then (if f32 b = .nan then 0x7FC00000 else b)
    else if f32 b = .nan then a else if below (f32 b) (f32 a) then b else a) ∧
  Lane2 .fmax (fun a b =>
    if f32 a = .nan then (if f32 b = .nan then 0x7FC00000 else b)
    else if f32 b = .nan then a else if below (f32 a) (f32 b) then b else a) ∧
  Lane2 .fabsd (fun a b =>
    if (f32 a).add (f32 b).neg = .nan then 0x7FC00000 else to32 ((f32 a).add (f32 b).neg) &&& 0x7FFFFFFF) ∧
  Lane2 .fcpys (fun a b => (b.extractLsb' 31 1 ++ a.extractLsb' 0 31 : BitVec 32)) ∧
  (∀ a b, f32 a = .nan ∨ f32 b = .nan → to32 ((f32 a).add (f32 b)) = 0x7FC00000 ∧ to32 ((f32 a).mul (f32 b)) = 0x7FC00000) ∧
  (∀ n, to32 ((FVal.inf n).add (.inf (!n))) = 0x7FC00000 ∧ ∀ m d, to32 ((FVal.inf n).mul (.fin m 0 d)) = 0x7FC00000) ∧
  (∀ m n d, 0 < d → to32 ((FVal.fin m n d).add (FVal.fin m n d).neg) = 0) ∧
  to32 ((f32 0x80000000).add (f32 0x80000000)) = 0x80000000 ∧
  (∀ a, f32 a ≠ .nan → to32 (f32 a) = a)

/-- R270, R271: FRCP is 1/x rounded once, and the others are fixed functions of their bits; where the spec gives a bound and no
value, the part's own function stands (log entry 22). What each gives for an infinity, a negative number, a zero and a NaN;
FSIN and FCOS are exactly 0 or ±1 at every multiple of a quarter turn, FLG2 is exact at the powers of two that are FP32
numbers of exponent field 1 or more, and FTANH is odd. -/
def Obligations.LaneSpecialFunctions : Prop :=
  Lane1 .frcp (fun a => to32 ((FVal.fin false 1 1).div (f32 a))) ∧
  Lane1 .frsq frsq32 ∧ Lane1 .fex2 fex232 ∧ Lane1 .flg2 flg232 ∧ Lane1 .fsin fsin32 ∧ Lane1 .fcos fcos32 ∧
  Lane1 .fsqrt fsqrt32 ∧ Lane1 .ftanh ftanh32 ∧
  (∀ x, f32 x = .nan → ∀ f ∈ [frcp32, fsqrt32, frsq32, fex232, flg232, fsin32, fcos32, ftanh32], f x = 0x7FC00000) ∧
  [frcp32 0xFF800000, frcp32 0x80000000, frcp32 0, frcp32 0x7F800000] = [0x80000000, 0xFF800000, 0x7F800000, 0] ∧
  [fsqrt32 0xFF800000, fsqrt32 0x80000000, fsqrt32 0, fsqrt32 0x7F800000] = [0x7FC00000, 0x80000000, 0, 0x7F800000] ∧
  [frsq32 0xFF800000, frsq32 0x80000000, frsq32 0, frsq32 0x7F800000] = [0x7FC00000, 0xFF800000, 0x7F800000, 0] ∧
  [fex232 0xFF800000, fex232 0x80000000, fex232 0, fex232 0x7F800000] = [0, 0x3F800000, 0x3F800000, 0x7F800000] ∧
  [flg232 0xFF800000, flg232 0x80000000, flg232 0, flg232 0x7F800000] = [0x7FC00000, 0xFF800000, 0xFF800000, 0x7F800000] ∧
  [fsin32 0xFF800000, fsin32 0x80000000, fsin32 0, fsin32 0x7F800000] = [0x7FC00000, 0x80000000, 0, 0x7FC00000] ∧
  [fcos32 0xFF800000, fcos32 0x80000000, fcos32 0, fcos32 0x7F800000] = [0x7FC00000, 0x3F800000, 0x3F800000, 0x7FC00000] ∧
  [ftanh32 0xFF800000, ftanh32 0x80000000, ftanh32 0, ftanh32 0x7F800000] = [0xBF800000, 0x80000000, 0, 0x3F800000] ∧
  (∀ x n d, f32 x = .fin true n d → n ≠ 0 → ∀ f ∈ [fsqrt32, frsq32, flg232], f x = 0x7FC00000) ∧
  (∀ x neg n d, f32 x = .fin neg n d → 4 * n % d = 0 →
    fsin32 x ∈ [0, 0x80000000, 0x3F800000, 0xBF800000] ∧ fcos32 x ∈ [0, 0x3F800000, 0xBF800000]) ∧
  (∀ e : BitVec 8, 0 < e.toNat → e.toNat < 255 →
    flg232 (0#1 ++ e ++ 0#23 : BitVec 32) = to32 (FVal.ofInt ((e.toNat : Int) - 127))) ∧
  (∀ x, f32 x ≠ .nan → ftanh32 (x ^^^ 0x80000000) = ftanh32 x ^^^ 0x80000000)



/-- R272, R273, R276: conversions between integers and FP32, roundings to an integral value, and the half formats. -/
def Obligations.LaneConversions : Prop :=
  Lane1 .i2f (fun a => to32 (.fin a.msb a.toInt.natAbs 1)) ∧
  Lane1 .n2f (fun a => to32 (.fin false a.toNat 1)) ∧
  Lane1 .f2i (fun a => match f32 a with
    | .nan => 0
    | .inf neg => if neg then 0x80000000 else 0x7FFFFFFF
    | .fin neg n d => BitVec.ofInt 32 (max (-2 ^ 31) (min (2 ^ 31 - 1) (if neg then -(divRne n d : Int) else divRne n d)))) ∧
  Lane1 .f2n (fun a => match f32 a with
    | .nan => 0
    | .inf neg => if neg then 0 else 0xFFFFFFFF
    | .fin neg n d => if neg then 0 else BitVec.ofNat 32 (min (2 ^ 32 - 1) (divRne n d))) ∧
  Lane1 .frne (fun a => to32 ((f32 a).integral .nearest)) ∧
  Lane1 .fflr (fun a => to32 ((f32 a).integral .down)) ∧
  Lane1 .fceil (fun a => to32 ((f32 a).integral .up)) ∧
  Lane1 .ftrnc (fun a => to32 ((f32 a).integral .zero)) ∧
  Lane2 .f2h2 (fun a b => (BitVec.ofNat 16 (fp16.round (f32 b)) ++ BitVec.ofNat 16 (fp16.round (f32 a)) : BitVec 32)) ∧
  Lane2 .f2b2 (fun a b => (BitVec.ofNat 16 (bf16.round (f32 b)) ++ BitVec.ofNat 16 (bf16.round (f32 a)) : BitVec 32)) ∧
  (∀ vd va hi, LaneWrites (.h2f vd va hi) vd [va] (fun _ t _ l =>
    to32 (fp16.decode ((vreg t va l).extractLsb' (16 * hi.toNat) 16).toNat))) ∧
  (∀ vd va hi, LaneWrites (.b2f vd va hi) vd [va] (fun _ t _ l =>
    to32 (bf16.decode ((vreg t va l).extractLsb' (16 * hi.toNat) 16).toNat)))

/-- R274, R275: the packed forms, half by half, each with one rounding. -/
def Obligations.LanePackedHalves : Prop :=
  Lane2 .phadd (fun a b => onHalves (fun x y => fp16.round ((fp16.decode x).add (fp16.decode y))) a b) ∧
  Lane2 .phmul (fun a b => onHalves (fun x y => fp16.round ((fp16.decode x).mul (fp16.decode y))) a b) ∧
  Lane2 .phmax (fun a b => onHalves (fun x y => fp16.maxNum x y) a b) ∧
  Lane3 .phfma (fun d a b => onHalves3 (fun z x y =>
    fp16.round ((fp16.decode z).add ((fp16.decode x).mul (fp16.decode y)))) d a b) ∧
  Lane2 .pbadd (fun a b => onHalves (fun x y => bf16.round ((bf16.decode x).add (bf16.decode y))) a b) ∧
  Lane2 .pbmul (fun a b => onHalves (fun x y => bf16.round ((bf16.decode x).mul (bf16.decode y))) a b) ∧
  Lane2 .pbmax (fun a b => onHalves (fun x y => bf16.maxNum x y) a b) ∧
  Lane3 .pbfma (fun d a b => onHalves3 (fun z x y =>
    bf16.round ((bf16.decode z).add ((bf16.decode x).mul (bf16.decode y)))) d a b)

/-! ### Exchanges, votes and reductions (R257, R277 to R281) -/

/-- R257, R277, R278: a quad exchange or shuffle reads the lane that its form names; a quad exchange in a formation parks
the lanes that take part with code 0x02, REASON 4 (R426), and the others go on.
Log entry 13 says what the model does where the spec leaves a point open. -/
def Obligations.LaneExchangesComplete : Prop :=
  (∀ vd va, LaneExchanges (.qxh vd va) vd va [] (fun _ l => l.1 ^^^ 1) fromQuad (inFormation · = false)) ∧
  (∀ vd va, LaneExchanges (.qxv vd va) vd va [] (fun _ l => l.1 ^^^ 2) fromQuad (inFormation · = false)) ∧
  (∀ vd va, LaneExchanges (.qxd vd va) vd va [] (fun _ l => l.1 ^^^ 3) fromQuad (inFormation · = false)) ∧
  (∀ vd va vb, LaneExchanges (.qbc vd va vb) vd va [vb]
    (fun t l => l.1 / 4 * 4 + ((vreg t vb l).extractLsb' 0 2).toNat) fromQuad (inFormation · = false)) ∧
  (∀ vd va vb, LaneExchanges (.shfl vd va vb) vd va [vb] (fun t l => (vreg t vb l).toNat % 32) fromLane (fun _ => True)) ∧
  (∀ vd va vb, LaneExchanges (.shflu vd va vb) vd va [vb]
    (fun t l => if (vreg t vb l).toNat ≤ l.1 then l.1 - (vreg t vb l).toNat else l.1) fromLane (fun _ => True)) ∧
  (∀ vd va vb, LaneExchanges (.shfld vd va vb) vd va [vb]
    (fun t l => if l.1 + (vreg t vb l).toNat ≤ 31 then l.1 + (vreg t vb l).toNat else l.1) fromLane (fun _ => True)) ∧
  (∀ vd va vb, LaneExchanges (.shflx vd va vb) vd va [vb] (fun t l => l.1 ^^^ ((vreg t vb l).toNat % 32)) fromLane (fun _ => True)) ∧
  (∀ s t g vd va vb, Issues s t g → RegsPlain s t g [vd, va, vb] → inFormation g = true →
    ∀ i ∈ [Instr.qxh vd va, .qxv vd va, .qxd vd va, .qbc vd va vb],
      (laneSet s t g = [] → exec i s = wentOn s t) ∧
      (laneSet s t g ≠ [] → exec i s = someParked s g (mergeFaults ((laneSet s t g).map (fun l => (l.2, parkOf s 2 0 4))))))

/-- R62, R257, R279 to R281: BALLOT writes the mask of the contributing lanes that hold a nonzero word once for the group, with a
mask of zeros when no lane takes part, and parks the lanes that take part with code 0x02 in a formation (REASON 4) and in a home
warp with regrouped threads (REASON 5), the others going on; VANY, VALL and VMATCH give every lane that takes part its answer; the warp reductions
combine the 32 positions in the fixed tree.
Log entry 13 says what the model does where the spec leaves a point open. -/
def Obligations.LaneVotesAndReductions : Prop :=
  (∀ l i, i < 32 → (laneMask l).getLsbD i = l.any (fun x => x.1 == i)) ∧
  (∀ s t g sd va, LaneReady s t g [va] → g.formation = false →
    g.handler = true ∨ (regrouped t g.warp = false ∧ g.split = []) →
    exec (.ballot sd va) s =
      uniWrote s t g sd ((laneMask ((voters s t g).filter (fun c => vreg t va c != 0))).zeroExtend 64)) ∧
  (∀ s t g sd va reason, Issues s t g → RegsPlain s t g [va] →
    (g.formation = true ∧ reason = 4) ∨ (g.formation = false ∧ regrouped t g.warp = true ∧ g.handler = false ∧ reason = 5) →
    (laneSet s t g = [] → exec (.ballot sd va) s = wentOn s t) ∧
    (laneSet s t g ≠ [] →
      exec (.ballot sd va) s = someParked s g (mergeFaults ((laneSet s t g).map (fun l => (l.2, parkOf s 2 0 reason)))))) ∧
  (∀ vd va, LaneWrites (.vany vd va) vd [va] (fun s t g _ =>
    if (voters s t g).any (fun c => vreg t va c != 0) then 1 else 0)) ∧
  (∀ vd va, LaneWrites (.vall vd va) vd [va] (fun s t g _ =>
    if (voters s t g).all (fun c => vreg t va c != 0) then 1 else 0)) ∧
  (∀ vd va, LaneWrites (.vmatch vd va) vd [va] (fun s t g l =>
    laneMask ((voters s t g).filter (fun c => vreg t va c == vreg t va l)))) ∧
  LaneReduces .wradd 0 (fun x y => x + y) ∧
  LaneReduces .wrmax 0x80000000 (fun x y => if y.sle x then x else y) ∧
  LaneReduces .wrfadd 0x80000000 (fun x y => to32 ((f32 x).add (f32 y))) ∧
  LaneReduces .wrfmax 0xFF800000 fmax32


/-! ### Lane control (R23 to R33, R299 to R307) -/

/-- R23, R238, R299, R301: the lanes that take part go to their targets, CALL and CALLR leaving the low 32 bits of the next
word's address in v31 first; the register forms keep bits [55:32] of the PC. Outside a formation every lane of a branching group
ends in a group at the lane's own target, or at the next word when the lane does not branch; lanes that share a target share a
group.
Log entry 14 says what the model does where the spec leaves a point open. -/
def Obligations.LaneBranches : Prop :=
  (∀ s t g off, Issues s t g → exec (.bra off) s =
    .next (setTeam s s.cur.team (branchLanes s t g ((laneSet s t g).map (fun l => (l, g.pc + 4 * off.signExtend 56)))))) ∧
  (∀ s t g off, Issues s t g → exec (.call off) s =
    .next (setTeam s s.cur.team (branchLanes s (putLanes t 31 (laneSet s t g) (fun _ => linkWord s g)) g
      ((laneSet s t g).map (fun l => (l, g.pc + 4 * off.signExtend 56)))))) ∧
  (∀ s t g va, LaneReady s t g [va] → exec (.brx va) s =
    .next (setTeam s s.cur.team (branchLanes s t g
      ((laneSet s t g).map (fun l => (l, g.pc.extractLsb' 32 24 ++ (vreg t va l &&& 0xFFFFFFFC))))))) ∧
  (∀ s t g va, LaneReady s t g [va] → exec (.callr va) s =
    .next (setTeam s s.cur.team (branchLanes s (putLanes t 31 (laneSet s t g) (fun _ => linkWord s g)) g
      ((laneSet s t g).map (fun l => (l, g.pc.extractLsb' 32 24 ++ (vreg t va l &&& 0xFFFFFFFC))))))) ∧
  (∀ s t g, LaneReady s t g [31] → exec .ret s =
    .next (setTeam s s.cur.team (branchLanes s t g
      ((laneSet s t g).map (fun l => (l, g.pc.extractLsb' 32 24 ++ (vreg t 31 l &&& 0xFFFFFFFC))))))) ∧
  ∀ s t g (dest : Nat × Nat → BitVec 56) (part : List (Nat × Nat)), Issues s t g → inFormation g = false → g.gid = s.cur.gid →
    (∀ x ∈ t.groups, x.gid = g.gid → x = g) → (∀ x ∈ t.groups, x.gid < t.nextGid) →
    (g.lanes.map (·.2)).Nodup → part.Sublist g.lanes →
    ∀ l ∈ g.lanes, ∃ x ∈ (branchLanes s t g (part.map (fun l => (l, dest l)))).groups,
      l ∈ x.lanes ∧ x.pc = (if l ∈ part then dest l else g.pc + BitVec.ofNat 56 (4 * s.cur.len)) ∧
      ∀ m ∈ part, l ∈ part → dest m = dest l → m ∈ x.lanes

/-- R24, R29, R304: RCVSET pushes a record of the lanes that take part, a seventeenth record parks them with code 0x02
REASON 6, and RCVWAIT makes them wait for the top record or, without one at this word, parks them with REASON 7. In a
formation neither has an effect. A record is met when every live lane of its mask waits at its target, and not before; lanes
that wait at another record's are not merged. -/
def Obligations.ReconvergenceComplete : Prop :=
  (∀ s t g off, Issues s t g → inFormation g = false → laneSet s t g ≠ [] → (warpOf t g.warp).stack.length < 16 →
    exec (.rcvset off) s = wentOn s (modWarp t g.warp (fun w =>
      { w with stack := ⟨g.pc + 4 * off.signExtend 56, laneMask (laneSet s t g)⟩ :: w.stack }))) ∧
  (∀ s t g off, Issues s t g → inFormation g = true ∨ laneSet s t g = [] → exec (.rcvset off) s = wentOn s t) ∧
  (∀ s t g off, Issues s t g → inFormation g = false → laneSet s t g ≠ [] → 16 ≤ (warpOf t g.warp).stack.length →
    exec (.rcvset off) s = someParked s g (mergeFaults ((laneSet s t g).map (fun l => (l.2, parkOf s 2 0 6))))) ∧
  (∀ s t g, Issues s t g → inFormation g = true ∨ laneSet s t g = [] → exec .rcvwait s = wentOn s t) ∧
  (∀ s t g, Issues s t g → inFormation g = false → laneSet s t g ≠ [] →
    (∀ r rest, (warpOf t g.warp).stack = r :: rest → r.target ≠ g.pc) →
    exec .rcvwait s = someParked s g (mergeFaults ((laneSet s t g).map (fun l => (l.2, parkOf s 2 0 7))))) ∧
  (∀ s t g r rest, Issues s t g → inFormation g = false → (warpOf t g.warp).stack = r :: rest → r.target = g.pc →
    laneSet s t g ≠ [] → (laneSet s t g).length ≠ g.lanes.length →
    exec .rcvwait s = .next (setTeam s s.cur.team
      (tryRcv s.gtick (splitOff s.gtick (advance s t) g (laneSet s t g) g.pc .rcv) g.warp))) ∧
  (∀ s t g r rest, Issues s t g → inFormation g = false → (warpOf t g.warp).stack = r :: rest → r.target = g.pc →
    laneSet s t g = g.lanes → g.lanes ≠ [] →
    exec .rcvwait s = .next (setTeam s s.cur.team (tryRcv s.gtick (hold s t .rcv) g.warp))) ∧
  (∀ now t w r rest, (warpOf t w).stack = r :: rest →
    (∀ i < 32, r.mask.getLsbD i = true → (threadOf t (32 * w + i)).live = true → (threadOf t (32 * w + i)).quit = false →
      ∃ g ∈ t.groups, waitsAtRcv g w r.target = true ∧ ∃ l ∈ g.lanes, l.1 = i) →
    (∀ r' rest', rest = r' :: rest' → ∃ i < 32, r'.mask.getLsbD i = true ∧ (threadOf t (32 * w + i)).live = true ∧
      (threadOf t (32 * w + i)).quit = false ∧ ∀ g ∈ t.groups, waitsAtRcv g w r'.target = true → ∀ l ∈ g.lanes, l.1 ≠ i) →
    (∃ g ∈ t.groups, waitsAtRcv g w r.target = true ∧ g.lanes ≠ []) → w < t.warps.length →
    (warpOf (tryRcv now t w) w).stack = rest ∧
      ∃ x ∈ (tryRcv now t w).groups, x.pc = r.target + 4 ∧ x.wait = .none ∧
        ∀ g ∈ t.groups, waitsAtRcv g w r.target = true → ∀ l ∈ g.lanes, l ∈ x.lanes) ∧
  (∀ now t w r rest i, (warpOf t w).stack = r :: rest → i < 32 → r.mask.getLsbD i = true →
    (threadOf t (32 * w + i)).live = true → (threadOf t (32 * w + i)).quit = false →
    (∀ g ∈ t.groups, waitsAtRcv g w r.target = true → ∀ l ∈ g.lanes, l.1 ≠ i) → tryRcv now t w = t)

/-- R27, R30, R302, R303, R305, R307: EXIT ends the threads that take part and the others go on; REFORM files them for
its target; REJOIN holds them for their home warps, each of which resumes when every live thread has come, and not before; SPAWN goes on when every new thread has its place; YIELD lets the
slice's other candidates issue first, for at most 64 ticks.
Log entries 14 and 15 say what the model does where the spec leaves a point open. -/
def Obligations.LaneRegroupingComplete : Prop :=
  (∀ s t g, Issues s t g → exec .exit s =
    .next (takeTraps s.cur.team trapFuel (exitThreads (setTeam s s.cur.team (advance s t)) s.cur.team
      ((laneSet s t g).map (·.2))))) ∧
  (∀ s t g off, Issues s t g → laneSet s t g ≠ [] → g.formation = false →
    exec (.reform off) s = .next (setTeam s s.cur.team (modGroup
      (fileLanes s.gtick (advance s t) g (g.pc + 4 * off.signExtend 56) (laneSet s t g)) g.gid
      (fun x => { x with formed := s.gtick })))) ∧
  (∀ s t g off, Issues s t g → g.formation = true →
    exec (.reform off) s = .next (setTeam s s.cur.team
      (fileLanes s.gtick (advance s t) g (g.pc + 4 * off.signExtend 56) (laneSet s t g)))) ∧
  (∀ s t g off, Issues s t g → laneSet s t g = [] →
    exec (.reform off) s = .next (setTeam s s.cur.team (withoutThreads (advance s t) []))) ∧
  (∀ now t g key lanes, lanes ≠ [] →
    t.bins.any (sameBin g.slice key (insideOf g)) = true ∨
      (t.bins.filter (fun b => b.slice == g.slice)).length < 64 →
    ∀ l ∈ lanes, ∃ b ∈ (fileLanes now t g key lanes).bins, b.slice = g.slice ∧ b.key = key ∧ b.inside = insideOf g ∧ (l.2, now) ∈ b.filed) ∧
  (∀ s t g off, Issues s t g → exec (.rejoin off) s = (
    let tids := (laneSet s t g).map (·.2)
    let held := fun t w => addGroup t (fun gid =>
      { Grp.fresh gid w s.gtick (homeLanes (tids.filter (fun i => i / 32 == w))) g.pc with
        wait := .rejoin (g.pc + 4 * off.signExtend 56) s.cur.word, split := if g.formation then [] else g.split,
        handler := g.handler, code := g.code, record := g.record, copying := g.copying, kept := g.kept })
    let ws := (tids.map (· / 32)).eraseDups
    .next (takeTraps s.cur.team trapFuel (setTeam s s.cur.team
      (ws.foldl (tryRejoin s.gtick) (ws.foldl held (withoutThreads (advance s t) tids))))))) ∧
  (∀ now t w target, rejoined t w ≠ [] → (∀ x ∈ rejoined t w, x.2.1 = target ∧ x.1.lanes ≠ []) →
    (∀ i < 32, (threadOf t (32 * w + i)).live = true → (threadOf t (32 * w + i)).quit = false →
      ∃ x ∈ rejoined t w, ∃ l ∈ x.1.lanes, l.2 = 32 * w + i) →
    ∃ g ∈ (tryRejoin now t w).groups, g.warp = w ∧ g.formation = false ∧ g.pc = target ∧ g.wait = .none ∧
      ∀ x ∈ rejoined t w, ∀ l ∈ x.1.lanes, l ∈ g.lanes) ∧
  (∀ now t w i, i < 32 → (threadOf t (32 * w + i)).live = true → (threadOf t (32 * w + i)).quit = false →
    (∀ x ∈ rejoined t w, ∀ l ∈ x.1.lanes, l.2 ≠ 32 * w + i) → tryRejoin now t w = t) ∧
  (∀ s t g off s', Issues s t g →
    spawnLanes s.cur.team (g.pc + 4 * off.signExtend 56)
        (((voters s t g).filter (fun l => !g.done.any (fun m => m.tid == l.2))).map (fun l => (l.2, laneReg t l.2 0))) s =
      (((voters s t g).filter (fun l => !g.done.any (fun m => m.tid == l.2))).map (·.2), s') →
    exec (.spawn off) s = .next (modTeam s' s.cur.team (advance s'))) ∧
  (∀ s t g, Issues s t g → laneSet s t g ≠ [] → ∃ after, exec .yield s = wentOn s (modGroup t g.gid (fun x =>
    { x with after := after, yieldEnd := s.gtick + 64 }))) ∧
  (∀ s t g, Issues s t g → laneSet s t g = [] → exec .yield s = wentOn s t)

/-! ### The uniform set: arithmetic, registers, jumps (R308 to R318, R324 to R327) -/

/-- R234, R311 to R315, R318: the 64-bit arithmetic, logic, shifts and counts, the compare into a flag, the select, the move and the
immediate forms, and the scalar FP32 forms, which read bits [31:0] and leave bits [63:32] of an FP32 result zero; and the
words of the integer forms. -/
def Obligations.UniformArithmetic : Prop :=
  Uni2 .sadd (fun a b => a + b) ∧
  Uni2 .ssub (fun a b => a - b) ∧
  Uni2 .smin (fun a b => if a.sle b then a else b) ∧
  Uni2 .smax (fun a b => if a.sle b then b else a) ∧
  Uni2 .smul (fun a b => a * b) ∧
  Uni2 .smulh (fun a b => ((a.signExtend 128 * b.signExtend 128) >>> 64).truncate 64) ∧
  Uni2 .sdivn (fun a b => if b = 0 then 0xFFFFFFFFFFFFFFFF else a.udiv b) ∧
  Uni2 .sremn (fun a b => if b = 0 then 0xFFFFFFFFFFFFFFFF else a.umod b) ∧
  Uni2 .sand (fun a b => a &&& b) ∧
  Uni2 .sor (fun a b => a ||| b) ∧
  Uni2 .sxor (fun a b => a ^^^ b) ∧
  Uni2 .sandn (fun a b => a &&& ~~~b) ∧
  Uni2 .sshl (fun a n => a <<< n.toNat) ∧
  Uni2 .sshr (fun a n => a >>> n.toNat) ∧
  Uni2 .ssar (fun a n => a.sshiftRight n.toNat) ∧
  Uni2 .srol (fun a n => a.rotateLeft n.toNat) ∧
  Uni1 .spopc (fun a => BitVec.ofNat 64 ((List.range 64).countP (fun i => a.getLsbD i))) ∧
  Uni1 .sclz (fun a => a.clz) ∧
  Uni1 .sbrev (fun a => a.reverse) ∧
  Uni1 .sffs (fun a => match (List.range 64).find? (fun i => a.getLsbD i) with
    | some i => BitVec.ofNat 64 i
    | none => 0xFFFFFFFFFFFFFFFF) ∧
  (∀ s t g cd cc sa sb f, UniReady s t g → exec (.ssetc cd cc sa sb f) s =
    wentOn s (modWarp t g.warp (fun w => setFlag w cd.toNat (combined f (uFlag w cd.toNat)
      (let a := sreg t g sa
       let b := sreg t g sb
       [a == b, a != b, a.slt b, a.sle b, b.slt a, b.sle a, a.ult b, b.ule a].getD cc.toNat false))))) ∧
  (∀ sd sa sb k, UniWrites (.ssel sd sa sb k) sd (fun _ t g =>
    if uFlag (warpOf t g.warp) (4 + k.toNat) then sreg t g sa else sreg t g sb)) ∧
  Uni1 .smov (fun a => a) ∧
  UniImm .saddi (fun a n => a + n) ∧
  (∀ sd imm, UniWrites (.smovi sd imm) sd (fun _ _ _ => immDWord imm)) ∧
  UniImm .sshli (fun a n => a <<< n.toNat) ∧
  UniImm .sandi (fun a n => a &&& n) ∧
  UniImm .sori (fun a n => a ||| n) ∧
  Uni2 .sfadd (fun a b => (to32 ((f32 (a.truncate 32)).add (f32 (b.truncate 32)))).zeroExtend 64) ∧
  Uni2 .sfsub (fun a b => (to32 ((f32 (a.truncate 32)).add (f32 (b.truncate 32)).neg)).zeroExtend 64) ∧
  Uni2 .sfmul (fun a b => (to32 ((f32 (a.truncate 32)).mul (f32 (b.truncate 32)))).zeroExtend 64) ∧
  (∀ sd sa sb, UniWrites (.sffma sd sa sb) sd (fun _ t g =>
    (to32 ((f32 ((sreg t g sd).truncate 32)).add ((f32 ((sreg t g sa).truncate 32)).mul
      (f32 ((sreg t g sb).truncate 32))))).zeroExtend 64)) ∧
  Uni1 .si2f (fun a => (to32 (.fin a.msb a.toInt.natAbs 1)).zeroExtend 64) ∧
  Uni1 .sf2i (fun a => match f32 (a.truncate 32) with
    | .nan => 0
    | .inf neg => if neg then 0x8000000000000000 else 0x7FFFFFFFFFFFFFFF
    | .fin neg n d => BitVec.ofInt 64 (max (-2 ^ 63) (min (2 ^ 63 - 1) (if neg then -(divRne n d : Int) else divRne n d)))) ∧
  Uni1 .sfrcp (fun a => (to32 ((FVal.fin false 1 1).div (f32 (a.truncate 32)))).zeroExtend 64) ∧
  Uni1 .sfsqrt (fun a => (fsqrt32 (a.truncate 32)).zeroExtend 64) ∧
  WordForms [(0x40, 0, .sadd), (0x40, 1, .ssub), (0x40, 2, .smin), (0x40, 3, .smax), (0x41, 0, .smul), (0x41, 1, .smulh),
    (0x41, 2, .sdivn), (0x41, 3, .sremn), (0x42, 0, .sand), (0x42, 1, .sor), (0x42, 2, .sxor), (0x42, 3, .sandn),
    (0x43, 0, .sshl), (0x43, 1, .sshr), (0x43, 2, .ssar), (0x43, 3, .srol), (0x44, 0, fun d a _ => .spopc d a),
    (0x44, 1, fun d a _ => .sclz d a), (0x44, 2, fun d a _ => .sbrev d a), (0x44, 3, fun d a _ => .sffs d a),
    (0x46, 0, fun d a b => .ssel d a b 0), (0x46, 1, fun d a b => .ssel d a b 1),
    (0x46, 2, fun d a b => .ssel d a b 2), (0x46, 3, fun d a b => .ssel d a b 3)]

/-- R245, R314, R425: SRD reads each uniform special register, and SWR writes the bits that the register defines. In
user mode indices 19 to 22 park the group with code 0x04 REASON 1 instead. -/
def Obligations.UniformSpecialRegisters : Prop :=
  (∀ s t g sd ix, UniReady s t g → ix.toNat < 24 → (19 ≤ ix.toNat → ix.toNat ≤ 22 → g.handler = true) →
    exec (.srd sd ix) s = uniWrote s t g sd (
      let i := t.info
      let w := warpOf t g.warp
      let c := ctxOf s i.ctx
      [BitVec.ofNat 64 s.gtick, BitVec.ofNat 64 t.core, BitVec.ofNat 64 (g.warp % 4), BitVec.ofNat 64 (t.core / 8),
        i.tx.zeroExtend 64, i.ty.zeroExtend 64, i.tz.zeroExtend 64, i.ntx.zeroExtend 64, i.nty.zeroExtend 64,
        i.ntz.zeroExtend 64, BitVec.ofNat 64 (t.threads.countP (fun th => th.live && !th.helper)),
        BitVec.ofNat 64 (i.lq * 2 ^ 32 + i.recNo.toNat), i.argp, i.cbtp, BitVec.ofNat 64 i.scrBase, w.gbase,
        w.nmon.zeroExtend 64, w.nema.zeroExtend 64, w.storehash, c.sbchk, c.racemode.zeroExtend 64, c.trapvec, c.traprec,
        BitVec.ofNat 64 (65536 - s.gtick % 65536)].getD ix.toNat 0)) ∧
  (∀ s t g sa, UniReady s t g →
    exec (.swr 15 sa) s = wentOn s (modWarp t g.warp (fun w => { w with gbase := sreg t g sa &&& 0xFF })) ∧
    exec (.swr 16 sa) s = wentOn s (modWarp t g.warp (fun w => { w with nmon := (sreg t g sa).truncate 32 })) ∧
    exec (.swr 17 sa) s = wentOn s (modWarp t g.warp (fun w => { w with nema := (sreg t g sa).truncate 32 })) ∧
    exec (.swr 18 sa) s = wentOn s (modWarp t g.warp (fun w => { w with storehash := sreg t g sa }))) ∧
  (∀ s t g sa, UniReady s t g → g.handler = true →
    exec (.swr 19 sa) s = wentOn (modCtx s t.info.ctx (fun c => { c with sbchk := sreg t g sa &&& 1 })) t ∧
    exec (.swr 20 sa) s = wentOn (modCtx s t.info.ctx (fun c =>
      if (sreg t g sa).extractLsb' 0 2 = 3 then c else { c with racemode := (sreg t g sa).extractLsb' 0 2 })) t ∧
    exec (.swr 21 sa) s = wentOn (modCtx s t.info.ctx (fun c =>
      { c with trapvec := (sreg t g sa).truncate 56 |>.zeroExtend 64 })) t ∧
    exec (.swr 22 sa) s = wentOn (modCtx s t.info.ctx (fun c =>
      { c with traprec := (sreg t g sa).truncate 56 |>.zeroExtend 64 })) t) ∧
  (∀ s t g sd ix, UniReady s t g → 19 ≤ ix.toNat → ix.toNat ≤ 22 → g.handler = false →
    ∀ i ∈ [Instr.srd sd ix, .swr ix sd], ∃ s', exec i s =
      .next (trapLanes s' s.cur.team g 2 (g.lanes.map (fun l => (l.2, parkOf s 4 ix.toNat 1)))) ∧
      s' = setTeam s s.cur.team t)

/-- R238, R324, R325: the uniform jumps move the whole group; JCALL first leaves the next word's address in s63; a
false guard falls through; and the words of all four. -/
def Obligations.UniformJumps : Prop :=
  (∀ s t g off, UniReady s t g →
    exec (.jmp off) s = jumped s t (g.pc + 4 * off.signExtend 56) ∧
    exec (.jcall off) s = jumped s (modWarp t g.warp (fun w =>
      setU w 63 ((g.pc + BitVec.ofNat 56 (4 * s.cur.len)).zeroExtend 64))) (g.pc + 4 * off.signExtend 56)) ∧
  (∀ s t g, UniReady s t g → exec .sret s = jumped s t ((sreg t g 63).truncate 56 &&& ~~~3)) ∧
  (∀ s t g sa, UniReady s t g → exec (.jmpr sa) s = jumped s t ((sreg t g sa).truncate 56 &&& ~~~3)) ∧
  (∀ s t g, Issues s t g → g.formation = false → g.masked = false ∨ g.handler = true →
    uFlag (warpOf t g.warp) s.cur.hdr.guard.toNat = false → ∀ off sa, ∀ i ∈ [Instr.jmp off, .jcall off, .sret, .jmpr sa], exec i s = wentOn s t) ∧
  (∀ (st : BitVec 3) (off : BitVec 18) (g : BitVec 2),
    decodeGroup [(0x58#7 ++ st ++ off ++ g ++ 0#2 : BitVec 32)] =
      .ok { instr := .jmp off, hdr := { stall := st, guard := g, scope := 0 }, len := 1 } ∧
    decodeGroup [(0x58#7 ++ st ++ off ++ g ++ 1#2 : BitVec 32)] =
      .ok { instr := .jcall off, hdr := { stall := st, guard := g, scope := 0 }, len := 1 }) ∧
  WordForms [(0x59, 0, fun _ _ _ => .sret), (0x59, 1, fun _ a _ => .jmpr a)]

/-- R29, R233, R337, R390, R426: a uniform instruction whose guard flag is false only takes its issue slot, and NOP changes nothing;
in a formation a uniform instruction parks every lane with code 0x02 REASON 3, and in a home warp with regrouped threads with
REASON 5, unless it is in a handler.
Log entries 12, 13 and 86 say what the model does where the spec leaves a point open. -/
def Obligations.UniformGuardsAndPlaces : Prop :=
  (∀ s t g, Issues s t g → g.formation = false → g.masked = false ∨ g.handler = true →
    uFlag (warpOf t g.warp) s.cur.hdr.guard.toNat = false → ∀ sd sa sb off m, ∀ i ∈ [Instr.sadd sd sa sb, .srd sd sa, .swr sd sa, .sst 0 sd sa sb m, .sld 0 sd sa sb m,
      .satomAdd sd sa sb m, .jmp off, .jcall off, .sret, .trap sa, .rte sa, .bar sd sa, .fenceRel, .discard sa sb, .push 1 sa sb,
      .launch sd sa sb, .qbind 0 sa, .regxAcq, .brk, .hashrd sd, .nop],
      exec i s = wentOn s t) ∧
  (∀ s t g, UniReady s t g → exec .nop s = wentOn s t) ∧
  (∀ s t g sd sa sb, Issues s t g → g.formation = true →
    ∀ i ∈ [Instr.sadd sd sa sb, .smov sd sa, .ssel sd sa sb 0, .srd sd sa, .sret, .fenceRel, .nop],
      exec i s = .next (trapLanes s s.cur.team g 2 (g.lanes.map (fun l => (l.2, parkOf s 2 0 3))))) ∧
  (∀ s t g sd sa sb, Issues s t g → g.formation = false → g.masked = true → g.handler = false →
    ∀ i ∈ [Instr.sret, .fenceRel, .nop, .regxRel, .sst 0 sd sa sb none],
      exec i s = .next (trapLanes s s.cur.team g 2 (g.lanes.map (fun l => (l.2, parkOf s 2 0 3))))) ∧
  (∀ s t g sd sa sb, Issues s t g → g.formation = false → uFlag (warpOf t g.warp) s.cur.hdr.guard.toNat = true →
    regrouped t g.warp = true → g.handler = false →
    (∀ i ∈ [Instr.sadd sd sa sb, .smov sd sa, .ssel sd sa sb 0, .srd sd sa],
      exec i s = .next (trapLanes s s.cur.team g 2 (g.lanes.map (fun l => (l.2, parkOf s 2 0 5))))) ∧
    (g.masked = false → ∀ i ∈ [Instr.sret, .fenceRel, .nop, .regxRel, .sst 0 sd sa sb none],
      exec i s = .next (trapLanes s s.cur.team g 2 (g.lanes.map (fun l => (l.2, parkOf s 2 0 5))))))

/-! ### Fences, barriers, waits, ports, blocks and the token (R126 to R153, R321, R328 to R335) -/

/-- R124, R126, R127, R129, R133, R321: a fence changes the clocks of the group's threads, and moves what its side moves. A release of
cluster scope or wider leaves no dirty byte in the core's L1, each in memory; an acquire leaves no clean one and keeps the
dirty ones; at team scope nothing moves.
Log entry 19 says what the model does where the spec leaves a point open. -/
def Obligations.Fences : Prop :=
  (∀ s t g, UniReady s t g →
    exec .fenceRel s = (
      let s1 := releaseCore (setTeam s s.cur.team (modThreads t (realThreads t g) (clkRelease t s.cur.hdr.scope))) t.core
        s.cur.hdr.scope
      .next (modTeam s1 s.cur.team (advance s1))) ∧
    exec .fenceAcq s = (
      let s1 := acquireCore (setTeam s s.cur.team (modThreads t (realThreads t g)
        (fun th => acquireAt s.writes s.cur.hdr.scope (clkAcquire th)))) t.core s.cur.hdr.scope
      .next (modTeam s1 s.cur.team (advance s1))) ∧
    exec .fenceFull s = (
      let t1 := modThreads t (realThreads t g) (fun th => acquireAt s.writes s.cur.hdr.scope (clkAcquire th))
      let s1 := acquireCore (releaseCore (setTeam s s.cur.team (modThreads t1 (realThreads t g)
        (clkRelease t s.cur.hdr.scope))) t.core s.cur.hdr.scope) t.core s.cur.hdr.scope
      .next (modTeam s1 s.cur.team (advance s1)))) ∧
  (∀ (t : Team) (scope : BitVec 2) (th : Thread), th.sat = false → th.clk.toNat + 1 < 2 ^ 32 →
    clkRelease t scope th =
      { th with clk := th.clk + 1, stamp := some { clock := th.clk + 1, scope := scope, inst := instanceOf t scope } }) ∧
  (∀ th : Thread, th.sat = false → max th.clk.toNat th.seen.toNat + 1 < 2 ^ 32 →
    clkAcquire th = { th with clk := BitVec.ofNat 32 (max th.clk.toNat th.seen.toNat + 1), seen := 0 }) ∧
  (∀ s core, releaseCore s core 0 = s ∧ acquireCore s core 0 = s) ∧
  (∀ s core scope, scope ≠ 0 →
    (∀ e ∈ (coreOf (releaseCore s core scope) core).l1, e.2.dirty = false) ∧
    (Quiet s core → ∀ e ∈ (coreOf s core).l1, e.2.dirty = true → memByte (releaseCore s core scope) e.1 = e.2.val) ∧
    (∀ e, e ∈ (coreOf (acquireCore s core scope) core).l1 ↔ e ∈ (coreOf s core).l1 ∧ e.2.dirty = true))

/-- R140, R141, R328, R431: BAR, CBAR and BARA arrive for the group's threads and give the open phase's number; BARW departs
from the phase that its threads arrived at. A phase completes exactly when its arrivals equal the expected count; its number
then goes up by 1 and the groups that BAR holds go on.
Log entry 19 says what the model does where the spec leaves a point open. -/
def Obligations.Barriers : Prop :=
  (∀ s t g sd id, UniReady s t g → id.toNat < 16 →
    (∀ i ∈ realThreads t g, i ∉ (barOf s t id.toNat).arrived) →
    (let k := s.cur.team
     let b := barOf s t id.toNat
     let s1 := arrive (setTeam s k (modWarp t g.warp (fun w => setU w sd.toNat (b.phase.zeroExtend 64)))) k id.toNat
       (realThreads t g)
     exec (.bar sd id) s = .next (tryBar (modTeam s1 k (fun t => hold s1 t (.bar id.toNat b.phase false))) k id.toNat) ∧
     exec (.bara sd id) s = .next (tryBar (modTeam s1 k (advance s1)) k id.toNat))) ∧
  (∀ s t g sd id, UniReady s t g → id.toNat < 8 →
    (∀ i ∈ realThreads t g, 8192 * s.cur.team + i ∉ (barOf s t (16 + id.toNat)).arrived) →
    (let k := s.cur.team
     let n := 16 + id.toNat
     let b := barOf s t n
     let s1 := arrive (modTeam (releaseCore (setTeam s k t) t.core 1) k (fun t =>
       modWarp t g.warp (fun w => setU w sd.toNat (b.phase.zeroExtend 64)))) k n (realThreads t g)
     exec (.cbar sd id) s = .next (tryBar (modTeam s1 k (fun t => hold s1 t (.bar n b.phase false))) k n))) ∧
  (∀ s t g sd id p, UniReady s t g → id.toNat < 16 → realThreads t g ≠ [] →
    (∀ i ∈ realThreads t g, i ∉ (barOf s t id.toNat).arrived ∧ tget (threadOf t i).arrived id.toNat = some p) →
    exec (.barw sd id) s = wentOn s (modThreads (modWarp t g.warp (fun w => setU w sd.toNat (p.zeroExtend 64)))
      (realThreads t g) (depart s.writes id.toNat))) ∧
  (∀ s k t id, tget s.teams k = some t →
    (barOf s t id).arrived.length ≠ expected s k id ∨ (barOf s t id).arrived.length + (barOf s t id).gone = 0 →
    tryBar s k id = s) ∧
  (∀ s k t id, tget s.teams k = some t → id < 16 → (t.groups.map (·.gid)).Nodup →
    (barOf s t id).arrived.length = liveCount t → 0 < (barOf s t id).arrived.length + (barOf s t id).gone →
    ∃ t', tget (tryBar s k id).teams k = some t' ∧
      t'.bars.getD id freshBar = { phase := (barOf s t id).phase + 1, arrived := [], gone := 0, clk := 0 } ∧
      ∀ g ∈ t.groups, g.wait = .bar id (barOf s t id).phase false →
        ∃ x ∈ t'.groups, x.gid = g.gid ∧ x.lanes = g.lanes ∧ x.pc = g.pc + 4 ∧ x.wait = .none)

/-- R146, R147, R329, R330: WCOND arms its slot from its registers, a misaligned address parking the group with code 0x12;
WAITANY and WAITALL end at once on an empty selection, on one that is satisfied as they ask, and with bit 8 set when their
time is 0; else they hold their group. A wait that ends frees its monitors.
Log entry 20 says what the model does where the spec leaves a point open. -/
def Obligations.WaitSlots : Prop :=
  (∀ s t g wn sa sb, UniReady s t g → (sreg t g sa).toNat % 4 = 0 →
    exec (.wcondAddr wn sa sb) s = wentOn s (armed t g wn
      (.addr (sreg t g sa) ((sreg t g sb).extractLsb' 32 2) ((sreg t g sb).truncate 32)))) ∧
  (∀ s t g wn sa sb, UniReady s t g → (sreg t g sa).toNat % 4 ≠ 0 →
    exec (.wcondAddr wn sa sb) s = .next (trapLanes (setTeam s s.cur.team t) s.cur.team g 2 (g.lanes.map (fun l =>
      (l.2, { code := 0x12, addr := sreg t g sa, info := 4, flags := 0, order := 0 }))))) ∧
  (∀ s t g wn sa, UniReady s t g → ((sreg t g sa).truncate 32).toNat % 16 = 0 →
    (∃ p, resolve s s.cur.team ((sreg t g sa).truncate 32) 16 = .ok p) →
    exec (.wcondBcb wn sa) s = wentOn s (armed t g wn
      (.bcb ((sreg t g sa).truncate 32)))) ∧
  (∀ s t g wn sa sb, UniReady s t g → ((sreg t g sa).truncate 32).toNat % 32 = 0 →
    (∃ p, resolve s s.cur.team ((sreg t g sa).truncate 32) 32 = .ok p) →
    1 ≤ ((sreg t g sb).extractLsb' 0 6).toNat → ((sreg t g sb).extractLsb' 0 6).toNat ≤ 32 →
    exec (.wcondQueue wn sa sb) s = wentOn s (armed t g wn
      (.queue ((sreg t g sa).truncate 32) ((sreg t g sb).getLsbD 8) ((sreg t g sb).extractLsb' 0 6).toNat))) ∧
  (∀ s t g wn sa sb, UniReady s t g → (sreg t g sb).getLsbD 32 = false → (sreg t g sa).toNat % 4 = 0 →
    exec (.wcondCompl wn sa sb) s = wentOn s (armed t g wn
      (.counter (sreg t g sa) ((sreg t g sb).truncate 32) ((sreg t g sb).extractLsb' 34 2)))) ∧
  (∀ s t g wn sa sb, UniReady s t g → (sreg t g sb).getLsbD 32 = true →
    ((sreg t g sa).getLsbD 4 = true → ((sreg t g sa).extractLsb' 0 4).toNat < 8) →
    exec (.wcondCompl wn sa sb) s = wentOn s (armed t g wn
      (.phase ((sreg t g sa).getLsbD 4) ((sreg t g sa).extractLsb' 0 4).toNat ((sreg t g sb).truncate 32)))) ∧
  (∀ s t g sd sa, UniReady s t g → g.wait = .none →
    exec (.waitany sd sa 0) s = uniWrote s t g sd 0 ∧ exec (.waitall sd sa 0) s = uniWrote s t g sd 0) ∧
  (∀ s t g sd sa mask sat, UniReady s t g → Quiet s t.core → g.wait = .none → mask ≠ 0 →
    (∀ i < 4, mask.getLsbD i = true → slotHolds s t g ((warpOf t g.warp).wc.getD i .empty) = some (sat.getLsbD i)) →
    (∀ i < 4, mask.getLsbD i = false → sat.getLsbD i = false) →
    (let deadline := if sreg t g sa = 0xFFFFFFFFFFFFFFFF then none else some (s.gtick + (sreg t g sa).toNat)
     (sat ≠ 0 → WaitEnds s t g (.waitany sd sa mask) sd (sat.zeroExtend 64)) ∧
     (sat = mask → WaitEnds s t g (.waitall sd sa mask) sd (sat.zeroExtend 64)) ∧
     (sat = 0 → sreg t g sa = 0 → WaitEnds s t g (.waitany sd sa mask) sd 0x100) ∧
     (sat ≠ mask → sreg t g sa = 0 → WaitEnds s t g (.waitall sd sa mask) sd (sat.zeroExtend 64 ||| 0x100)) ∧
     (sat = 0 → sreg t g sa ≠ 0 → WaitHolds s t g (.waitany sd sa mask) false mask 0 deadline) ∧
     (sat ≠ mask → sreg t g sa ≠ 0 → WaitHolds s t g (.waitall sd sa mask) true mask sat deadline))) ∧
  (∀ s k t g sd sat watch, tget s.teams k = some t → g.wait = .none →
    (endWait s k g sd sat true watch).monitors = s.monitors.filter (fun m => !(m.team == k && m.gid == g.gid && m.slot.isSome)))

/-- R37, R150, R151, R333, R422: QBIND binds a usable descriptor and parks the group with code 0x01 REASON 15 on another;
QUNB unbinds a port that no request waits on; QSTAT reads HEAD and TAIL, QRESET empties the queue.
Log entry 35 says what the model does where the spec leaves a point open. -/
def Obligations.QueuePorts : Prop :=
  (∀ s t g q sa p d kinds key now, UniReady s t g → (boundKey t q.toNat).isSome && portWaits t q.toNat = false →
    ((sreg t g sa).truncate 32).toNat % 32 = 0 → resolve s s.cur.team ((sreg t g sa).truncate 32) 32 = .ok p →
    present (setTeam s s.cur.team t) p 32 = true →
    readDescriptor (setTeam s s.cur.team t) s.cur.team ((sreg t g sa).truncate 32) = some (d, kinds) →
    currentQueue (setTeam s s.cur.team t) s.cur.team ((sreg t g sa).truncate 32) = some (key, now) →
    (let ok := descriptorUsable (setTeam s s.cur.team t) key
       (if isBound (setTeam s s.cur.team t) key then now else d) kinds
     (ok = true → exec (.qbind q sa) s = wentOn (setQueue s key now)
       (setPort t q.toNat (some key) ((sreg t g sa).truncate 32))) ∧
     (ok = false → exec (.qbind q sa) s = .next (trapLanes (setTeam s s.cur.team t) s.cur.team g 2
       (g.lanes.map (fun l => (l.2, parkOf s 1 0 15))))))) ∧
  (∀ s t g q, UniReady s t g → (boundKey t q.toNat).isSome && portWaits t q.toNat = false →
    exec (.qunb q) s = wentOn s (setPort t q.toNat none 0)) ∧
  (∀ s t g sd q, UniReady s t g → boundKey t q.toNat = none → exec (.qstat sd q) s = uniWrote s t g sd 0) ∧
  (∀ s t g sd q key d, UniReady s t g → boundKey t q.toNat = some key → queueOf s key = some d →
    exec (.qstat sd q) s = uniWrote s t g sd (d.tail ++ d.head)) ∧
  (∀ s t g q, UniReady s t g → boundKey t q.toNat = none → exec (.qreset q) s = wentOn s t) ∧
  (∀ s t g q key d, UniReady s t g → boundKey t q.toNat = some key → queueOf s key = some d →
    exec (.qreset q) s = (
      let e : Queue := { d with head := d.tail, clks := [] }
      let s1 := writeBack (setQueue (setTeam s s.cur.team t) key e) key e
      .next (modTeam s1 s.cur.team (advance s1)))) ∧
  (∀ d : Queue, occupancy { d with head := d.tail, clks := [] } = 0)

/-- R35, R36, R153, R334, R335: REGX gives the home warp every block it needs at once, takes them back, or tries; PRIO
passes, takes and pairs the issue-priority token. -/
def Obligations.BlocksAndToken : Prop :=
  (∀ s t g, UniReady s t g → quadsNeeding t g.warp = [] → exec .regxAcq s = wentOn (dropRegxWait s t.core s.cur.team g.gid) t) ∧
  (∀ s t g, UniReady s t g → quadsNeeding t g.warp ≠ [] →
    myTurn (regxQueue s t.core (g.warp % 4)) (s.cur.team, g.gid) = true →
    blocksHeld s t.core (g.warp % 4) + (quadsNeeding t g.warp).length ≤ 128 →
    exec .regxAcq s = wentOn (dropRegxWait s t.core s.cur.team g.gid) (giveBlocks t (quadsNeeding t g.warp))) ∧
  (∀ t w, ∀ q ∈ quadsNeeding t w, q / 8 = w ∧
    tget (giveBlocks t (quadsNeeding t w)).ext q = some (List.replicate 128 0)) ∧
  (∀ s t g, UniReady s t g →
    exec .regxRel s = wentOn s { t with ext := t.ext.filter (fun e => e.1 / 8 != g.warp) }) ∧
  (∀ s t g fd, UniReady s t g → (
    let free := (regxQueue (setTeam s s.cur.team t) t.core (g.warp % 4)).isEmpty && (decide (quadsNeeding t g.warp = []) ||
      decide (blocksHeld (setTeam s s.cur.team t) t.core (g.warp % 4) + (quadsNeeding t g.warp).length ≤ 128))
    exec (.regxTry fd) s = wentOn s (modWarp (if free then giveBlocks t (quadsNeeding t g.warp) else t) g.warp
      (fun w => setFlag w fd.toNat free)))) ∧
  (∀ s t g, UniReady s t g → pairedWith t g.warp = none → exec .prioPass s = wentOn s t ∧ exec .prioTake s = wentOn s t) ∧
  (∀ s t g p, UniReady s t g → pairedWith t g.warp = some p → (warpOf t g.warp).token = true →
    exec .prioPass s = wentOn s (setToken (setToken t g.warp false) p true) ∧ exec .prioTake s = wentOn s t) ∧
  (∀ s t g p, UniReady s t g → pairedWith t g.warp = some p → (warpOf t g.warp).token = false →
    exec .prioPass s = wentOn s t ∧ exec .prioTake s = .next (setTeam s s.cur.team (hold s t (.retry .prio)))) ∧
  (∀ s t g sa, UniReady s t g → ((sreg t g sa).extractLsb' 0 7).toNat ≠ g.warp →
    ((sreg t g sa).extractLsb' 0 7).toNat % 4 = g.warp % 4 →
    exec (.prioPair sa) s = wentOn s (namePartner t g.warp ((sreg t g sa).extractLsb' 0 7).toNat)) ∧
  (∀ t w p, w ≠ p → (warpOf t p).partner = some w → (warpOf t w).partner ≠ some p →
    (warpOf (namePartner t w p) (min w p)).token = true ∧ (warpOf (namePartner t w p) (max w p)).token = false ∧
      pairedWith (namePartner t w p) w = some p)

/-! ### Traps, faults of lanes and ports (R26, R150, R256, R326, R327, R387 to R391, R422, R424, R425) -/

/-- R387, R388, R471: taking a trap writes the trap record where TRAPREC and the slot of the lowest lane say, leaves its address
in s56, makes the sub-warp privileged, sends it to TRAPVEC and keeps what its instruction had popped; of the parked sub-warps
whose home warp has none inside a handler the one with the lowest code enters first, then the one that parked first. -/
def Obligations.TrapEntry : Prop :=
  (∀ s k t g p l, tget s.teams k = some t → groupOf t g.gid = some g → MemoryCanonical s →
    (ctxOf s t.info.ctx).trapvec ≠ 0 → (ctxOf s t.info.ctx).traprec ≠ 0 →
    translate s t.core t.info.ctx (recordPlace s t g.lanes) .write true = .ok l →
    placeOf s (l.phys (recordPlace s t g.lanes).toNat) = .near →
    (∃ t' x, tget (takeTrap s k t g p).teams k = some t' ∧ groupOf t' g.gid = some x ∧
      x.lanes = g.lanes ∧ x.park = none ∧ x.handler = true ∧ x.code = p.code ∧ x.record = recordPlace s t g.lanes ∧
      x.pc = (ctxOf s t.info.ctx).trapvec.truncate 56 &&& ~~~3 ∧ x.kept = g.pstep ∧
      uReg (warpOf t' g.warp) 56 = recordPlace s t g.lanes ∧
      ((g.lanes.map (·.2)).Nodup → ∀ l ∈ g.lanes, (threadOf t' l.2).aside = (threadOf t l.2).pend)) ∧
    ∀ i < 128, coreByte (takeTrap s k t g p) t.core (l.phys (recordPlace s t g.lanes).toNat + i) =
      (recordBytes t g p).getD i 0) ∧
  (∀ t g p, recordBytes t g p = bytesOf 8 p.tick ++ bytesOf 8 g.pc.toNat ++ bytesOf 4 (laneMask g.lanes).toNat ++
    bytesOf 2 p.code.toNat ++ bytesOf 1 p.flags.toNat ++ bytesOf 1 0 ++ bytesOf 8 p.addr.toNat ++ bytesOf 8 p.info.toNat ++
    bytesOf 2 (threadOf t ((g.lanes.head?.map (·.2)).getD 0)).slot ++ bytesOf 2 g.warp ++ bytesOf 2 t.core ++ bytesOf 2 0 ++
    bytesOf 8 (t.info.lq * 2 ^ 32 + t.info.recNo.toNat) ++ bytesOf 1 ((warpOf t g.warp).c &&& 0xFE).toNat ++ bytesOf 7 0 ++
    (List.range 8).flatMap (fun i => bytesOf 8 (uReg (warpOf t g.warp) (56 + i)).toNat)) ∧
  (∀ t g p, nextTrap t = some (g, p) → g ∈ t.groups ∧ g.park = some p ∧ p.code ≠ 0x41 ∧ insideHandler t g.warp = false ∧
    ∀ x ∈ t.groups, ∀ q, x.park = some q → q.code ≠ 0x41 → insideHandler t x.warp = false →
      p.code.toNat < q.code.toNat ∨ p.code = q.code ∧ p.order ≤ q.order)

/-- R326, R387: TRAP parks its group with code 0x40 and INFO n, and where no other group of its team is parked or in a
handler the group enters its handler at once.
Log entry 17 says what the model does where the spec leaves a point open. -/
def Obligations.TrapTaken : Prop :=
  (∀ s t g n, UniReady s t g → exec (.trap n) s =
    .next (trapLanes s s.cur.team g 2 (g.lanes.map (fun l =>
      (l.2, { code := 0x40, addr := 0, info := n.zeroExtend 64, flags := 0, order := 0 }))))) ∧
  (∀ s t g n leaf, UniReady s t g → s.cur.dry = false → (∀ x ∈ t.groups, x.park = none ∧ x.handler = false) →
    (∀ b ∈ t.bins, b.inside = none) → g.lanes ≠ [] → (∀ l ∈ g.lanes, l.2 / 32 = g.warp) →
    (ctxOf s t.info.ctx).trapvec ≠ 0 → (ctxOf s t.info.ctx).traprec ≠ 0 →
    translate s t.core t.info.ctx (recordPlace s t (homeLanes (g.lanes.map (·.2)))) .write true = .ok leaf →
    ∃ s' t' x, exec (.trap n) s = .next s' ∧ tget s'.teams s.cur.team = some t' ∧ x ∈ t'.groups ∧ x.handler = true ∧
      x.code = 0x40 ∧ x.lanes = homeLanes (g.lanes.map (·.2)) ∧ x.warp = g.warp ∧
      x.pc = (ctxOf s t.info.ctx).trapvec.truncate 56 &&& ~~~3 ∧
      uReg (warpOf t' g.warp) 56 = recordPlace s t (homeLanes (g.lanes.map (·.2))))

/-- R327, R391, R425, R429, R471: RTE reads the record of its handler and leaves it: the PC, s56 to s63 and c1 to c7 come back as
the record holds them, ACT 0 retrying with the entries that were popped before and ACT 1 going on with the next group of words;
outside a handler it parks its group with code 0x04
REASON 2, and on an ACT that does not exist with code 0x01 REASON 10.
Log entry 16 says what the model does where the spec leaves a point open. -/
def Obligations.ReturnFromTrap : Prop :=
  (∀ s t g sa l, UniReady s t g → g.handler = true → (sreg t g sa).toNat % 4 ≠ 3 → (sreg t g sa).toNat < 8 →
    translate s t.core t.info.ctx g.record .read true = .ok l →
    exec (.rte sa) s = .next (returnFromTrap s t g ((List.range 128).map (fun i =>
      coreByte s t.core (l.phys g.record.toNat + i))) ((sreg t g sa).toNat % 4) ((sreg t g sa).getLsbD 2))) ∧
  (∀ s t g sa, UniReady s t g → g.handler = false → (sreg t g sa).toNat % 4 ≠ 3 → (sreg t g sa).toNat < 8 →
    exec (.rte sa) s = .next (trapLanes s s.cur.team g 2 (g.lanes.map (fun l => (l.2, parkOf s 4 0 2))))) ∧
  (∀ s t g sa, UniReady s t g → (sreg t g sa).toNat % 4 = 3 ∨ 8 ≤ (sreg t g sa).toNat →
    exec (.rte sa) s = .next (trapLanes s s.cur.team g 2 (g.lanes.map (fun l =>
      (l.2, parkOf s 1 ((sreg t g sa).toNat % 256) 10))))) ∧
  (∀ s t g rec act ack, tget s.teams s.cur.team = some t → groupOf t g.gid = some g → g.handler = true → act ≤ 1 →
    s.marks = [] → (∀ x ∈ t.groups, x.park = none) →
    (∀ x ∈ t.groups, x.handler = true → x.warp = g.warp → x.record = g.record → x = g) →
    ∃ t' x, tget (returnFromTrap s t g rec act ack).teams s.cur.team = some t' ∧ x ∈ t'.groups ∧ x.gid = g.gid ∧
      (∀ l ∈ g.lanes, l ∈ x.lanes) ∧ x.handler = false ∧ x.wait = .none ∧
      x.pc = (BitVec.ofNat 56 (ofBytes ((rec.drop 8).take 8)) &&& ~~~3) +
        (if act = 1 ∧ g.code ≠ 0x30 ∧ g.code ≠ 0x31 then BitVec.ofNat 56
          (4 * groupLen s t false (BitVec.ofNat 56 (ofBytes ((rec.drop 8).take 8)) &&& ~~~3)) else 0) ∧
      ((g.lanes.map (·.2)).Nodup → g.code ≠ 0x30 → g.code ≠ 0x31 → x.pstep = (if act = 0 then g.kept else 0) ∧
        ∀ l ∈ g.lanes, (threadOf t' l.2).pend = (if act = 0 then (threadOf t l.2).aside else []) ∧
          (threadOf t' l.2).unchecked = (decide (act = 0) && ack)) ∧
      (∀ i < 8, uReg (warpOf t' g.warp) (56 + i) = BitVec.ofNat 64 (ofBytes ((rec.drop (64 + 8 * i)).take 8))) ∧
      ∀ i, 1 ≤ i → i < 8 → uFlag (warpOf t' g.warp) i = (BitVec.ofNat 8 (ofBytes ((rec.drop 56).take 1))).getLsbD i)

/-- R26, R34, R387, R424: the lanes of a lane form that names v32 to v63 without an extended block park with code 0x01
REASON 8, the register in VALUE; the lanes of a form without a fault go on.
Log entry 17 says what the model does where the spec leaves a point open. -/
def Obligations.MissingBlocks : Prop :=
  (∀ s t g vd va vb, Issues s t g → (∀ x ∈ t.groups, x.gid < t.nextGid ∧ (x.gid = g.gid → x = g)) → g.gid = s.cur.gid →
    (g.lanes.map (·.2)).Nodup → laneSet s t g = g.lanes → g.lanes ≠ [] → 32 ≤ vd.toNat → portNamed t vd.toNat = none →
    (∀ l ∈ g.lanes, hasExt t l.2 = false) → (g.handler = true → ∀ l ∈ g.lanes, (threadOf t l.2).live = true) →
    ∀ i ∈ [Instr.iadd vd va vb, .and vd va vb, .fadd vd va vb, .imad vd va vb, .phadd vd va vb],
      exec i s = .next (trapLanes s s.cur.team g 0 (g.lanes.map (fun l => (l.2, parkOf s 1 vd.toNat 8))))) ∧
  (∀ s t g f run, Issues s t g → f t g (laneSet s t g) = [] →
    laneForm s f run = run s t g (laneSet s t g))

/-- R150, R151, R256: IADD with a bound port in VA pops one entry for each lane that takes part, in lane order, HEAD going
up by their number, and a helper lane gets 0; with a port in VD it pushes the sums; and where the queue holds too few
entries the group waits, its registers as they were. -/
def Obligations.PortOperands : Prop :=
  (∀ s t g vd va vb p key q, Issues s t g → g.gid = s.cur.gid → g.pstep = 0 → RegsPlain s t g [vd, vb] →
    portNamed t va.toNat = some p → boundKey t p = some key → queueOf s key = some q → (g.lanes.map (·.2)).Nodup →
    voters s t g ≠ [] → canPop q (s.cur.team, g.gid) (voters s t g).length = true →
    (∀ i < (voters s t g).length, ∀ x, resolve s (key / 2 ^ 32) (entryOff q (q.head.toNat + i)) 4 = .ok x →
      scratchPoisoned s x.team x.pos 4 = false) →
    ∃ s' t', exec (.iadd vd va vb) s = .next s' ∧ tget s'.teams s.cur.team = some t' ∧
      (∀ i < (voters s t g).length, ∀ l, (voters s t g)[i]? = some l → vreg t' vd l =
        ((offWord s (key / 2 ^ 32) (entryOff q (q.head.toNat + i))).getD 0) + vreg t vb l) ∧
      (∀ l ∈ laneSet s t g, (threadOf t l.2).helper = true → vreg t' vd l = vreg t vb l) ∧
      (∃ q', queueOf s' key = some q' ∧ q'.head = q.head + BitVec.ofNat 32 (voters s t g).length ∧ q'.tail = q.tail) ∧
      groupOf t' g.gid = some (stepPc s.gtick s.cur.hdr s.cur.len g)) ∧
  (∀ s t g vd va vb p key q, Issues s t g → g.gid = s.cur.gid → g.pstep = 0 → RegsPlain s t g [vd, vb] →
    portNamed t va.toNat = some p → boundKey t p = some key → queueOf s key = some q →
    voters s t g ≠ [] → canPop q (s.cur.team, g.gid) (voters s t g).length = false →
    exec (.iadd vd va vb) s = .next (setTeam (setQueue s key { q with poppers := waitLast q.poppers (s.cur.team, g.gid) })
      s.cur.team (modGroup t g.gid (fun x => { x with wait := .port 0 p s.cur.len })))) ∧
  (∀ s t g vd va vb p key q, Issues s t g → g.gid = s.cur.gid → g.pstep = 0 → RegsPlain s t g [va, vb] →
    portNamed t vd.toNat = some p → boundKey t p = some key → queueOf s key = some q →
    voters s t g ≠ [] → canPush q (s.cur.team, g.gid) (voters s t g).length = true →
    exec (.iadd vd va vb) s = (
      let s1 := pushEntries s key q (s.cur.team, s.cur.gid)
        ((voters s t g).map (fun l => (vreg t va l + vreg t vb l, (threadOf t l.2).clk)))
      .next (modTeam s1 s.cur.team (advance s1))))

/-! ### Memory (R89 to R131, R284 to R298, R306, R309, R319 to R323) -/

/-- R129, R284, R286, R289, R290, R294: LD, LDB and LDT give each lane that takes part the bytes at its address, and change no
byte. A quantum or speculative load gets its bytes as they stood together after some number of the writes made so far: of a
quantum load no earlier than before the last Q of the writes to those bytes, and of neither earlier than a value that its
thread has met.
Log entries 6, 27 and 88 say what the model does where the spec leaves a point open. -/
def Obligations.LaneLoads : Prop :=
  (∀ vd va sb mq, LoadGives (.ld 0 vd va sb mq) mq vd va 1 4 (fun t => globalAddr t va sb) wordAt) ∧
  (∀ vd va sb mq, LoadGives (.ld 1 vd va sb mq) mq vd va 2 8 (fun t => globalAddr t va sb) wordAt) ∧
  (∀ vd va sb mq, LoadGives (.ld 2 vd va sb mq) mq vd va 4 16 (fun t => globalAddr t va sb) wordAt) ∧
  (∀ vd va sb mq, LoadGives (.ld 3 vd va sb mq) mq vd va 1 2 (fun t => globalAddr t va sb) wordAt) ∧
  (∀ vd va sb mq, LoadGives (.ldb 0 vd va sb mq) mq vd va 1 1 (fun t => globalAddr t va sb)
    (fun l _ => (l.getD 0 0).signExtend 32)) ∧
  (∀ vd va sb mq, LoadGives (.ldb 1 vd va sb mq) mq vd va 1 1 (fun t => globalAddr t va sb)
    (fun l _ => (l.getD 0 0).zeroExtend 32)) ∧
  (∀ vd va sb mq, LoadGives (.ldb 2 vd va sb mq) mq vd va 1 2 (fun t => globalAddr t va sb)
    (fun l _ => (l.getD 1 0 ++ l.getD 0 0 : BitVec 16).signExtend 32)) ∧
  (∀ w vd va sb mq, w.toNat < 3 → LoadGives (.ldt w vd va sb mq) mq vd va 1 (2 ^ w.toNat)
    (fun t l => (globalAddr t va sb l &&& ~~~0x3E0) + BitVec.ofNat 64 (32 * l.1)) wordAt) ∧
  (∀ w n k, (w, n, k) ∈ [((0 : BitVec 2), 1, 4), (1, 2, 8), (2, 4, 16), (3, 1, 2)] →
    ∀ s t g vd va sb mq (pa : Nat × Nat → Nat), LaneReady s t g (va :: tupleRegs vd n) → vd.toNat + n ≤ 64 →
    MemReady s t g (laneSet s t g).length → (qualOf mq .read).mayLag .read = true →
    (∀ l ∈ laneSet s t g, plainAt s t g .read k (globalAddr t va sb l) = some (pa l) ∧
      ∀ i < k, ∀ b, tget (coreOf s t.core).l1 (pa l + i) = some b → b.dirty = false) →
    ∃ s' t', exec (.ld w vd va sb mq) s = .next s' ∧ tget s'.teams s.cur.team = some t' ∧
      ∀ l ∈ laneSet s t g, ∃ c ∈ lagging s t.core (qualOf mq .read) (threadOf t l.2) (pa l) k,
        ∀ j < n, laneReg t' l.2 (vd.toNat + j) = wordAt ((List.range k).map (fun i => byteAt s c (pa l + i))) j) ∧
  (∀ s core q th pa n, ∀ c ∈ lagging s core q th pa n, c = s.writes ∨
    (∃ i < n, ∃ v, (c, v) ∈ cget [] s.past (pa + i)) ∧
      ∀ i < n, cget 0 th.floors (pa + i) ≤ c ∧ cget 0 (coreOf s core).wrote (pa + i) ≤ c) ∧
  (∀ s core q th pa n, q.use = 4 → (lagging s core q th pa n).length ≤ q.quantum + 1) ∧
  (∀ s a, (∀ x ∈ cget [] s.past a, x.1 < s.writes) → byteAt s s.writes a = memByte s a)

/-- R284, R286, R291, R292: ST and STB store the low bytes of each lane's registers, in lane order, and change no register
and no other byte. -/
def Obligations.LaneStores : Prop :=
  (∀ vd va sb mq, StoreGives (.st 0 vd va sb mq) vd va 1 4 (fun t => globalAddr t va sb)
    (fun t l => bytesOf 4 (vreg t vd l).toNat)) ∧
  (∀ vd va sb mq, StoreGives (.st 1 vd va sb mq) vd va 2 8 (fun t => globalAddr t va sb)
    (fun t l => bytesOf 4 (vreg t vd l).toNat ++ bytesOf 4 (laneReg t l.2 (vd.toNat + 1)).toNat)) ∧
  (∀ vd va sb mq, StoreGives (.st 2 vd va sb mq) vd va 4 16 (fun t => globalAddr t va sb)
    (fun t l => (List.range 4).flatMap (fun i => bytesOf 4 (laneReg t l.2 (vd.toNat + i)).toNat))) ∧
  (∀ vd va sb mq, StoreGives (.st 3 vd va sb mq) vd va 1 2 (fun t => globalAddr t va sb)
    (fun t l => bytesOf 2 (vreg t vd l).toNat)) ∧
  (∀ vd va sb mq, StoreGives (.stb vd va sb mq) vd va 1 1 (fun t => globalAddr t va sb)
    (fun t l => bytesOf 1 (vreg t vd l).toNat))

/-- R148, R295, R296: the global atomics update their words one lane after another, each lane receiving the old word. -/
def Obligations.LaneAtomics : Prop :=
  ∀ vd va sb mq,
    AtomicGives (.atomAdd vd va sb mq) vd va sb 1 (fun v _ x => x + v) ∧
    AtomicGives (.atomFadd vd va sb mq) vd va sb 1 (fun v _ x => to32 ((f32 x).add (f32 v))) ∧
    AtomicGives (.atomExch vd va sb mq) vd va sb 1 (fun v _ _ => v) ∧
    AtomicGives (.atomCas vd va sb mq) vd va sb 2 (fun v n x => if x = v then n else x) ∧
    AtomicGives (.atomNmin vd va sb mq) vd va sb 1 (fun v _ x => if x ≤ v then x else v) ∧
    AtomicGives (.atomNmax vd va sb mq) vd va sb 1 (fun v _ x => if v ≤ x then x else v) ∧
    AtomicGives (.atomAnd vd va sb mq) vd va sb 1 (fun v _ x => x &&& v) ∧
    AtomicGives (.atomOr vd va sb mq) vd va sb 1 (fun v _ x => x ||| v)

/-- R96 to R100, R285, R293, R297: LDX, STX and the scratchpad atomics do the same in the windows of the scratchpad.
Log entry 37 says what the model does where the spec leaves a point open. -/
def Obligations.ScratchpadAccess : Prop :=
  (∀ w n k, (w, n, k) ∈ [((0 : BitVec 2), 1, 4), (1, 2, 8), (2, 4, 16), (3, 1, 2)] →
    ∀ s t g vd va sb mq (p : Nat × Nat → Nat × Nat), LaneReady s t g (va :: tupleRegs vd n) → vd.toNat + n ≤ 64 →
    MemReady s t g 0 → ScratchCanonical s →
    ((∀ l ∈ laneSet s t g, spotAt s k (scratchOff t va sb l) = some (p l)) →
      ∃ s' t', exec (.ldx w vd va sb mq) s = .next s' ∧ tget s'.teams s.cur.team = some t' ∧
        (∀ l ∈ laneSet s t g, ∀ j < n, laneReg t' l.2 (vd.toNat + j) =
          wordAt ((List.range k).map (fun i => scratchByte s ((p l).1, (p l).2 + i))) j) ∧
        otherRegs t t' (laneSet s t g) vd n ∧ (∀ a, scratchByte s' a = scratchByte s a) ∧
        (∀ a, coreByte s' t.core a = coreByte s t.core a) ∧ hasGone s g t') ∧
    ((∀ l ∈ voters s t g, spotAt s k (scratchOff t va sb l) = some (p l)) →
      ∃ s' t', exec (.stx w vd va sb mq) s = .next s' ∧ tget s'.teams s.cur.team = some t' ∧
        (∀ a, scratchByte s' a = (voters s t g).foldl (fun seen l => withScratch seen (p l)
          (((List.range 4).flatMap (fun i => bytesOf 4 (laneReg t l.2 (vd.toNat + i)).toNat)).take k)) (scratchByte s) a) ∧
        (∀ tid r, laneReg t' tid r = laneReg t tid r) ∧ (∀ a, coreByte s' t.core a = coreByte s t.core a) ∧
        hasGone s g t')) ∧
  (∀ s t g vd va sb mq (p : Nat × Nat → Nat × Nat) i n f, (i, n, f) ∈ [(Instr.atomxAdd vd va sb mq, 1, fun (v _ x : Word) => x + v),
      (.atomxExch vd va sb mq, 1, fun v _ _ => v), (.atomxCas vd va sb mq, 2, fun v n x => if x = v then n else x),
      (.atomxNmax vd va sb mq, 1, fun v _ x => if v ≤ x then x else v)] →
    LaneReady s t g (va :: tupleRegs vd n) → vd.toNat + n ≤ 64 → MemReady s t g 0 → ScratchCanonical s →
    (∀ l ∈ voters s t g, spotAt s 4 (scratchOff t va sb l) = some (p l)) →
    (let run := scratchTurns (fun l old => f (vreg t vd l) (laneReg t l.2 (vd.toNat + 1)) old) p (voters s t g) (scratchByte s)
     ∃ s' t', exec i s = .next s' ∧ tget s'.teams s.cur.team = some t' ∧
      (∀ x ∈ run.1, laneReg t' x.1 vd.toNat = x.2) ∧
      (∀ l ∈ laneSet s t g, (threadOf t l.2).helper = true → vreg t' vd l = 0) ∧
      (∀ a, scratchByte s' a = run.2 a) ∧ otherRegs t t' (laneSet s t g) vd 1 ∧ hasGone s g t'))

/-- R125, R144, R306: WAITC goes on at once where every lane's condition holds on its word, the core's own stores to it among
what is seen, each lane receiving its word; otherwise the group waits at the instruction.
Log entry 79 says what the model does where the spec leaves a point open. -/
def Obligations.WaitConditions : Prop :=
  ∀ s t g test vd va sb (pa : Nat × Nat → Nat), LaneReady s t g [vd, va] → MemReady s t g 0 → g.wait = .none →
    (∀ l ∈ voters s t g, plainAt s t g .read 4 (globalAddr t va sb l) = some (pa l)) →
    (let word := fun l => BitVec.ofNat 32 (ofBytes (seenBytes s t.core (pa l) 4))
     ∃ s' t', exec (.waitc test vd va sb) s = .next s' ∧ tget s'.teams s.cur.team = some t' ∧
      (∀ a, coreByte s' t.core a = coreByte s t.core a) ∧
      ((∀ l ∈ voters s t g, testHolds test (word l) (vreg t vd l) = true) →
        (∀ l ∈ voters s t g, vreg t' vd l = word l ∧ (threadOf t' l.2).lstat = 0) ∧
        (∀ l ∈ laneSet s t g, (threadOf t l.2).helper = true → vreg t' vd l = 0) ∧
        otherRegs t t' (laneSet s t g) vd 1 ∧ groupOf t' g.gid = some (stepPc s.gtick s.cur.hdr s.cur.len g)) ∧
      ((∃ l ∈ voters s t g, testHolds test (word l) (vreg t vd l) = false) →
        (∀ tid r, laneReg t' tid r = laneReg t tid r) ∧
        ∃ x ws, groupOf t' g.gid = some x ∧ x.pc = g.pc ∧ x.wait = .lanes test ws ∧
          ws.map (fun y => (y.tid, y.got)) = (voters s t g).map (fun l =>
            (l.2, if testHolds test (word l) (vreg t vd l) then some (word l) else none))))

/-- R309, R319, R320: SLD, SST and SATOM make one access for the group, by its lowest lane that is no helper. Which value a
quantum or speculative SLD gets `LaneLoads` says of LD.
Log entries 18 and 19 say what the model does where the spec leaves a point open. -/
def Obligations.UniformMemory : Prop :=
  (∀ s t g sd sa sb mq pa, UniReady s t g → MemReady s t g 1 → representative t g ≠ none →
    ∀ w n, (w, n) ∈ [((0 : BitVec 2), 8), (1, 4), (2, 4), (3, 16)] → plainAt s t g .read n (sreg t g sa + sreg t g sb) = some pa →
    ∃ s' t', exec (.sld w sd sa sb mq) s = .next s' ∧ tget s'.teams s.cur.team = some t' ∧
      (∀ r, (qualOf mq .read).mayLag .read = false ∨ (r ≠ sd.toNat ∧ (w = 3 → r ≠ sd.toNat + 1)) → uReg (warpOf t' g.warp) r = uReg (
        let x := warpOf t g.warp
        let d := fun lo n => ofBytes (seenBytes s t.core (pa + lo) n)
        if w = 0 then setU x sd.toNat (BitVec.ofNat 64 (d 0 8))
        else if w = 1 then setU x sd.toNat (BitVec.ofNat 64 (d 0 4))
        else if w = 2 then setU x sd.toNat ((BitVec.ofNat 32 (d 0 4)).signExtend 64)
        else setU (setU x sd.toNat (BitVec.ofNat 64 (d 0 8))) (sd.toNat + 1) (BitVec.ofNat 64 (d 8 8))) r) ∧
      (∀ tid r, laneReg t' tid r = laneReg t tid r) ∧ (∀ a, coreByte s' t.core a = coreByte s t.core a) ∧ hasGone s g t') ∧
  (∀ s t g sd sa sb mq pa, UniReady s t g → MemReady s t g 1 → representative t g ≠ none →
    ∀ w n, (w, n) ∈ [((0 : BitVec 2), 8), (1, 4), (3, 16)] → plainAt s t g .write n (sreg t g sa + sreg t g sb) = some pa →
    ∃ s' t', exec (.sst w sd sa sb mq) s = .next s' ∧ tget s'.teams s.cur.team = some t' ∧
      (∀ a, coreByte s' t.core a = withBytes (coreByte s t.core) pa ((bytesOf 8 (sreg t g sd).toNat ++
        bytesOf 8 (uReg (warpOf t g.warp) (sd.toNat + 1)).toNat).take n) a) ∧
      (∀ tid r, laneReg t' tid r = laneReg t tid r) ∧ (∀ r, uReg (warpOf t' g.warp) r = uReg (warpOf t g.warp) r) ∧
      hasGone s g t') ∧
  (∀ s t g sd sa sb mq pa, UniReady s t g → MemReady s t g 1 → representative t g ≠ none →
    plainAt s t g .rmw 8 (sreg t g sa + sreg t g sb) = some pa →
    (let old : DWord := BitVec.ofNat 64 (ofBytes (seenBytes s t.core pa 8))
     ∀ i new, (i, new) ∈ [(Instr.satomAdd sd sa sb mq, old + sreg t g sd), (.satomExch sd sa sb mq, sreg t g sd),
      (.satomCas sd sa sb mq, if old = sreg t g sd then uReg (warpOf t g.warp) (sd.toNat + 1) else old),
      (.satomNmax sd sa sb mq, if old ≤ sreg t g sd then sreg t g sd else old)] →
     ∃ s' t', exec i s = .next s' ∧ tget s'.teams s.cur.team = some t' ∧
      (∀ a, coreByte s' t.core a = withBytes (coreByte s t.core) pa (bytesOf 8 new.toNat) a) ∧
      (∀ r, uReg (warpOf t' g.warp) r = uReg (setU (warpOf t g.warp) sd.toNat old) r) ∧
      (∀ tid r, laneReg t' tid r = laneReg t tid r) ∧ hasGone s g t'))

/-- R109, R111, R322, R323, R389, R393, R403, R429: a range operation of length 0 does nothing, one above 2^36 bytes parks the
group with code 0x01 REASON 10, one whose pages cannot be accessed with the first code of the table that one of them gives, one
whose range is not in lines of 128 bytes with code 0x12; else it acts on the pages of its range. The residency forms change the
entry of their id, RESQRY reads it.
Log entries 33 and 34 say what the model does where the spec leaves a point open. -/
def Obligations.RangesAndResidency : Prop :=
  (∀ s t g sa sb, UniReady s t g → sreg t g sb = 0 →
    ∀ i ∈ [Instr.discard sa sb, .flush sa sb, .inval sa sb, .pfetch sa sb], exec i s = wentOn s t) ∧
  (∀ s t g sa sb, UniReady s t g → 2 ^ 36 < (sreg t g sb).toNat →
    ∀ i ∈ [Instr.discard sa sb, .flush sa sb, .inval sa sb, .pfetch sa sb], exec i s =
      .next (trapLanes s s.cur.team g 2 (g.lanes.map (fun l => (l.2, parkOf s 1 ((sreg t g sb).toNat % 256) 10))))) ∧
  (∀ s t g sa sb k faults l, UniReady s t g → 0 < (sreg t g sb).toNat → (sreg t g sb).toNat ≤ 2 ^ 36 →
    segments s t g.handler k (sreg t g sa).toNat (sreg t g sb).toNat ((sreg t g sb).toNat / 65536 + 2) = (faults, l) →
    ∀ i ∈ (if k = .read then [Instr.flush sa sb, .inval sa sb, .pfetch sa sb] else if k = .write then [.discard sa sb] else []),
      (∀ p, firstPark faults = some p → exec i s = .next (trapLanes s s.cur.team g 2 (g.lanes.map (fun l => (l.2, p))))) ∧
      (faults = [] → ¬((sreg t g sa).toNat % 128 = 0 ∧ (sreg t g sb).toNat % 128 = 0) →
        exec i s = .next (trapLanes s s.cur.team g 2 (g.lanes.map
          (fun l => (l.2, { code := 0x12, addr := sreg t g sa, info := 128, flags := 0, order := 0 })))))) ∧
  (∀ l p, firstPark l = some p → p ∈ l ∧ ∀ x ∈ l, p.code.toNat ≤ x.code.toNat) ∧
  (∀ s t g sa sb l, UniReady s t g → 0 < (sreg t g sb).toNat → (sreg t g sb).toNat ≤ 2 ^ 36 →
    segments s t g.handler .read (sreg t g sa).toNat (sreg t g sb).toNat ((sreg t g sb).toNat / 65536 + 2) = ([], l) →
    (sreg t g sa).toNat % 128 = 0 → (sreg t g sb).toNat % 128 = 0 →
    (let s1 := l.foldl (fun s x => tlbFill s t.core t.info.ctx x.va) s
     exec (.flush sa sb) s = (let s2 := l.foldl (flushSegment t.core s.cur.hdr.scope) s1
       .next (modTeam s2 s.cur.team (advance s2))) ∧
     exec (.inval sa sb) s = (let s2 := l.foldl (invalSegment t.core s.cur.hdr.scope) s1
       .next (modTeam s2 s.cur.team (advance s2))) ∧
     exec (.pfetch sa sb) s = (let s2 := l.foldl pfetchSegment s1
       .next (modTeam s2 s.cur.team (advance s2))))) ∧
  (∀ s t g sa sb l, UniReady s t g → 0 < (sreg t g sb).toNat → (sreg t g sb).toNat ≤ 2 ^ 36 →
    segments s t g.handler .write (sreg t g sa).toNat (sreg t g sb).toNat ((sreg t g sb).toNat / 65536 + 2) = ([], l) →
    (sreg t g sa).toNat % 128 = 0 → (sreg t g sb).toNat % 128 = 0 →
    (let s1 := l.foldl (fun s x => tlbFill s t.core t.info.ctx x.va) s
     (representative t g = none → exec (.discard sa sb) s = wentOn s1 t) ∧
     (∀ rep, representative t g = some rep → (∀ x ∈ l, x.checked = false) → exec (.discard sa sb) s = (
       let s2 := l.foldl (fun s x => discardSegment s t.core s.cur.hdr.scope x) s1
       .next (modTeam s2 s.cur.team (fun t => advance s2 (modThread t rep.2 (checkDone false)))))))) ∧
  (∀ s scope core x a, inSegment x a = true → tget (coreOf (discardSegment s core scope x) core).l1 a = none ∧
    tget (coreOf (invalSegment core scope s x) core).l1 a = none ∧
    ∀ b, tget (coreOf (flushSegment core scope s x) core).l1 a = some b → b.dirty = false) ∧
  (∀ s t g sa, UniReady s t g →
    (let id := (sreg t g sa).toNat % 1024
     let old := residencyOf s id
     let marked := fun (b : Bool) => s.squares.map (fun e => if e.2.rid = id then (e.1, { e.2 with demoted := b }) else e)
     (∀ sb, exec (.respri sa sb) s = (
       let x : BitVec 8 := if (sreg t g sb).extractLsb' 4 2 = 3 then old.extractLsb' 4 4 ++ (sreg t g sb).extractLsb' 0 4
         else old.extractLsb' 6 2 ++ (sreg t g sb).extractLsb' 0 6
       wentOn { s with residency := cset 0x08 s.residency id x } t)) ∧
     (∀ sb, (sreg t g sb).getLsbD 0 = false → exec (.resdem sa sb) s = 
       wentOn { s with squares := marked true } t) ∧
     (∀ sb, (sreg t g sb).getLsbD 0 = true → exec (.resdem sa sb) s = (
       let s1 := (s.squares.filter (fun e => e.2.rid == id)).foldl (fun s e => evictSquare s e.1 e.2) s
       let s2 := { s1 with msc := s1.msc.filter (fun e => e.2.rid != id) }
       .next (modTeam s2 s.cur.team (advance s2)))) ∧
     exec (.respro sa) s = (
       let x : BitVec 8 := old.extractLsb' 4 4 ++ 0xF#4
       wentOn { s with residency := cset 0x08 s.residency id x, squares := marked false } t) ∧
     (∀ sd, exec (.resqry sd sa) s = uniWrote s t g sd (BitVec.ofNat 64 (old.toNat +
       s.squares.countP (fun e => e.2.rid == id) % 2 ^ 20 * 65536)))))

/-! ### Handles, narrow formats and tensors (R47 to R57, R338 to R344, R409, R430) -/

/-- R88, R217, R338, R340, R344, R347: HSET and MSET write a handle or descriptor whose reserved bits read 0, HGET and MGET
read it, HCLS changes CLS and V alone, and HSEED the seed alone, parking the group with code 0x01 REASON 11 where the class
entry is not used. NRST clears the warp's norm monitor, NRD reads it with its moving average, and NCHK compares them and moves
the average, counting a jump in the context's table.
Log entries 43 and 47 say what the model does where the spec leaves a point open. -/
def Obligations.WarpTensorState : Prop :=
  (∀ s t g hd sa, UniReady s t g → ∃ H : BitVec 512,
    exec (.hset hd sa) s = wentOn s (modWarp t g.warp (fun w => { w with h := padSet 0 w.h hd.toNat H })) ∧
    ∀ i < 512, H.getLsbD i = (if (64 ≤ i ∧ i < 128) ∨ (184 ≤ i ∧ i < 192) ∨ (248 ≤ i ∧ i < 256) ∨ (266 ≤ i ∧ i < 280) ∨ 361 ≤ i
      then false else (uReg (warpOf t g.warp) (sa.toNat + i / 64)).getLsbD (i % 64))) ∧
  (∀ s t g sd ha, UniReady s t g → exec (.hget sd ha) s = wentOn s (modWarp t g.warp (fun w =>
    (List.range 8).foldl (fun w' i => setU w' (sd.toNat + i) ((w.h.getD ha.toNat 0).extractLsb' (64 * i) 64)) w))) ∧
  (∀ s t g hd sa, UniReady s t g → ∃ H : BitVec 512,
    exec (.hcls hd sa) s = wentOn s (modWarp t g.warp (fun w => { w with h := padSet 0 w.h hd.toNat H })) ∧
    H.extractLsb' 56 6 = (sreg t g sa).truncate 6 ∧ H.getLsbD 63 = true ∧
    ∀ i, i < 56 ∨ i = 62 ∨ 64 ≤ i → H.getLsbD i = ((warpOf t g.warp).h.getD hd.toNat 0).getLsbD i) ∧
  (∀ s t g hd sa, UniReady s t g →
    (let old : Handle := (warpOf t g.warp).h.getD hd.toNat 0
     ((entryOf t old.cls).used = true → ∃ H : BitVec 512,
       exec (.hseed hd sa) s = wentOn s (modWarp t g.warp (fun w => { w with h := padSet 0 w.h hd.toNat H })) ∧
       H.extractLsb' 320 32 = (entryOf t old.cls).seed ^^^ (sreg t g sa).truncate 32 ∧
       ∀ i, i < 320 ∨ 352 ≤ i → H.getLsbD i = old.getLsbD i) ∧
     ((entryOf t old.cls).used = false → exec (.hseed hd sa) s = .next (trapLanes (setTeam s s.cur.team t) s.cur.team g 2
       (g.lanes.map (fun l => (l.2, parkOf s 1 old.cls 11))))))) ∧
  (∀ s t g md sa, UniReady s t g → ∃ D : BitVec 64,
    exec (.mset md sa) s = wentOn s (modWarp t g.warp (fun w => { w with md := padSet 0 w.md md.toNat D })) ∧
    ∀ i, D.getLsbD i = (decide (i < 6 ∨ (8 ≤ i ∧ i < 14) ∨ (16 ≤ i ∧ i < 22) ∨ (24 ≤ i ∧ i < 28) ∨ (32 ≤ i ∧ i < 38) ∨
      (40 ≤ i ∧ i < 46)) && (sreg t g sa).getLsbD i)) ∧
  (∀ sd md, UniWrites (.mget sd md) sd (fun _ t g => (warpOf t g.warp).md.getD md.toNat 0)) ∧
  (∀ s t g, UniReady s t g → exec .nrst s = wentOn s (modWarp t g.warp (fun w => { w with nmon := 0 }))) ∧
  (∀ sd, UniWrites (.nrd sd) sd (fun _ t g => (warpOf t g.warp).nema ++ (warpOf t g.warp).nmon)) ∧
  (∀ s t g cd sa sb, UniReady s t g →
    (let w := warpOf t g.warp
     let k := ((sreg t g sa).extractLsb' 0 5).toNat
     let a := ((sreg t g sb).extractLsb' 0 5).toNat
     let jump := (f32 w.nmon).cmp ((f32 w.nema).mul (.fin false (2 ^ k) 1)) == .greater
     let d := to32 ((f32 w.nmon).add (f32 w.nema).neg)
     let nema := to32 ((f32 w.nema).add ((f32 d).mul (.fin false 1 (2 ^ a))))
     let t1 := modWarp t g.warp (fun w => setFlag { w with nema := nema } cd.toNat jump)
     (jump = false → exec (.nchk cd sa sb) s = wentOn s t1) ∧
     (jump = true → (numcfg s t.info.ctx).testBit 3 = false → ∀ cls, w.lastClass = some cls →
       exec (.nchk cd sa sb) s = .next (countNumeric (setTeam s s.cur.team (advance s t1)) t.info.ctx t.core cls 0 0 0 1))))

/-- R49, R50, R54: the value of every code of a valid format, and the conversion into it: to a nearest value within ±M, and
beyond it, in formats without infinities, to ±M; a negative number becomes 0 in an unsigned format. -/
def Obligations.NarrowFormats : Prop :=
  ∀ x : Word, nfmtValid x = true →
    (let f := nfmtOf x
     let big : ℚ := (f.largest.1 : ℚ) / f.largest.2
     (∀ code < 2 ^ f.width, f.ew ≠ 0 →
       (let m : Nat := code % 2 ^ f.mw
        let e : Nat := code / 2 ^ f.mw % 2 ^ f.ew
        let neg := f.sg && code.testBit (f.ew + f.mw)
        if f.spec = 1 ∧ e = 2 ^ f.ew - 1 ∧ m = 2 ^ f.mw - 1 then f.decode code = .nan
        else if f.spec = 2 ∧ e = 2 ^ f.ew - 1 then f.decode code = (if m = 0 then .inf neg else .nan)
        else ∃ n d, 0 < d ∧ f.decode code = .fin neg n d ∧ ratOf (.fin false n d) =
          (if 0 < e then (2 : ℚ) ^ ((e : Int) - f.bias) * (1 + (m : ℚ) / 2 ^ f.mw)
           else if f.sub then (2 : ℚ) ^ ((1 : Int) - f.bias) * ((m : ℚ) / 2 ^ f.mw) else 0))) ∧
     (∀ code < 2 ^ f.width, f.ew = 0 → ratOf (f.decode code) =
       (if f.sg ∧ f.mw = 0 then (if code = 0 then 1 else -1)
        else if f.sg ∧ 2 ^ (f.width - 1) ≤ code then (code : ℚ) - 2 ^ f.width else code) / 2 ^ f.bias) ∧
     (∀ neg n d, 0 < d → (f.ew ≠ 0 → f.sub = true) → (neg = true → n ≠ 0 → f.sg = true) →
       |ratOf (.fin neg n d)| ≤ big → ∀ code < 2 ^ f.width, (∃ a b c, f.decode code = .fin a b c) →
       |ratOf (.fin neg n d) - ratOf (f.decode (f.encode (.fin neg n d)).code)| ≤ |ratOf (.fin neg n d) - ratOf (f.decode code)|) ∧
     (∀ neg n d, 0 < d → f.spec ≠ 2 → (neg = true → f.sg = true) → big < |ratOf (.fin neg n d)| →
       ratOf (f.decode (f.encode (.fin neg n d)).code) = if neg then -big else big) ∧
     (∀ n d, f.sg = false → (f.encode (.fin true n d)).code = 0) ∧
     (∀ seed ix code, code < 2 ^ f.width → f.ew ≠ 0 ∨ f.sg = false ∨ code ≠ 2 ^ (f.width - 1) ∨ f.mw = 0 →
       (∃ a b c, f.decode code = .fin a b c) → f.stochastic (f.decode code) seed ix = f.encode (f.decode code)))

/-- R53: the scale chosen for a block is 2^k with the smallest k that brings its largest magnitude within M, clamped to BF16's
exponents; the delta is the largest that does, 0 when none does; a block of zeros takes 1.0, or 15. -/
def Obligations.BlockScales : Prop :=
  ∀ x : Word, nfmtValid x = true →
    (let f := nfmtOf x
     let big : ℚ := (f.largest.1 : ℚ) / f.largest.2
     ∀ (neg : Bool) (n d eb : Nat), 0 < d →
       (f.scale = 1 → chooseScale f (.fin neg 0 d) eb = 0x3F80 ∧ (0 < n → ∃ k : Int, (n : ℚ) / d / 2 ^ k ≤ big ∧
         big < (n : ℚ) / d / 2 ^ (k - 1) ∧ chooseScale f (.fin neg n d) eb = (max (-126) (min 127 k) + 127).toNat * 2 ^ 7)) ∧
       (f.scale = 2 → chooseScale f (.fin neg 0 d) eb = 15 ∧
         (let y := chooseScale f (.fin neg n d) eb
          let fits := fun (k : Nat) => (n : ℚ) / d / 2 ^ ((BitVec.ofNat 8 eb).toInt - (k : Int)) ≤ big
          y ≤ 15 ∧ (fits y ∨ y = 0) ∧ ∀ k ≤ 15, fits k → k ≤ y)))

/-- R341, R342, R409, R411: the conversions in registers write each lane's code or value, and PACKN each lane's four codes and
its block's scale; their numeric events are counted in the context's table, each counter saturating.
Log entry 24 says what the model does where the spec leaves a point open. -/
def Obligations.TensorConversions : Prop :=
  (∀ s t g vd va hb, LaneReady s t g [vd, va] → HandlesFit s t g hb (fun _ => true) →
    (let h := fun (l : Nat × Nat) => handleOf t l.2 hb
     let elem := fun (l : Nat × Nat) => (laneEntry t hb l).elem
     let scale := fun l => if (elem l).scale = 3 then f32 (h l).tscale else FVal.fin false 1 1
     let conv := fun l => (elem l).encode (quotient (vreg t va l) (scale l))
     let wide := fun l =>
       if (h l).aw then to32 ((FVal.ofInt (vreg t va l).toInt).mul (pow2 (-(BitVec.ofNat 8 (h l).ash).toInt)))
       else if (laneEntry t hb l).kind = 1 then vreg t va l
       else to32 (((elem l).decode ((vreg t va l).toNat % 2 ^ (elem l).container)).mul (scale l))
     exec (.cvtn vd va hb) s = .next (numericTail (setTeam s s.cur.team (advance s (putLanes t vd (laneSet s t g)
       (fun l => BitVec.ofNat 32 (conv l).code)))) 0 ((voters s t g).map (fun l => convEvent t hb l (conv l)))) ∧
     exec (.cvtw vd va hb) s = .next (numericTail (setTeam s s.cur.team (advance s (putLanes t vd (laneSet s t g) wide)))
       0 ((voters s t g).map (fun l => convEvent t hb l { code := (wide l).toNat, nan := false, sat := false }))))) ∧
  (∀ s t g vd va hb, LaneReady s t g [vd, va] → HandlesFit s t g hb (fun e => e.kind != 1) →
    (let elem := fun (l : Nat × Nat) => (laneEntry t hb l).elem
     let scale := fun l => if (elem l).scale = 3 then f32 (handleOf t l.2 hb).tscale else FVal.fin false 1 1
     let conv := fun l => (elem l).stochastic (quotient (vreg t va l) (scale l)) (handleOf t l.2 hb).seed (vreg t vd l)
     exec (.cvtsr vd va hb) s = .next (numericTail (setTeam s s.cur.team (advance s (putLanes t vd (laneSet s t g)
       (fun l => BitVec.ofNat 32 (conv l).code)))) 0 ((voters s t g).map (fun l => convEvent t hb l (conv l)))))) ∧
  (∀ s t g vd va hb, LaneReady s t g (tupleRegs vd 2 ++ tupleRegs va 4) → vd.toNat + 2 ≤ 64 → va.toNat + 4 ≤ 64 →
    HandlesFit s t g hb (fun e => e.kind == 0) → (∀ l ∈ voters s t g, (vreg t vd l).toNat % 4 = 0) →
    (let sup := fun (l : Nat × Nat) => supplyOf t hb va.toNat (vreg t vd l).toNat l
     let bs := packBlocks t ((voters s t g).map sup) (fun _ _ => false)
     let raw := fun (l : Nat × Nat) => match blockOf t bs (handleOf t l.2 hb) (vreg t vd l).toNat with
       | some b => BitVec.ofNat 32 b.raw
       | none => 0
     let t1 := (voters s t g).foldl (fun t' l => setLaneReg (setLaneReg t' l.2 vd.toNat
       (BitVec.ofNat 32 (packedCodes t bs (sup l)))) l.2 (vd.toNat + 1) (raw l)) t
     let t2 := ((laneSet s t g).filter (fun l => (threadOf t l.2).helper)).foldl (fun t' l =>
       setLaneReg (setLaneReg t' l.2 vd.toNat 0) l.2 (vd.toNat + 1) 0) t1
     exec (.packn vd va hb) s = .next (numericTail (setTeam s s.cur.team (advance s t2)) 0
       ((voters s t g).map (fun l => itemsEvent t bs (sup l)))))) ∧
  (∀ s t g flags evs, Issues s t g → (∀ x ∈ t.groups, x.park = none) →
    numcfg s t.info.ctx = 0 ∨ (∀ e ∈ evs, e.nan = 0 ∧ e.sat = 0 ∧ e.outov = 0) → numericTail s flags evs = s) ∧
  (∀ s ctx core cls nan sat outov njump, MemoryCanonical s → s.poison = [] →
    (let table := numcfg s ctx / 64 * 64 % 2 ^ 56
     let a := table + 16 * cls
     table ≠ 0 → placeOf s table = .near →
     (∀ j < 4, ofBytes (memRead (countNumeric s ctx core cls nan sat outov njump) (a + 4 * j) 4) =
       min (ofBytes (memRead s (a + 4 * j) 4) + [nan, sat, outov, njump].getD j 0) (2 ^ 32 - 1)) ∧
     ∀ b, b < a ∨ a + 16 ≤ b → memByte (countNumeric s ctx core cls nan sat outov njump) b = memByte s b))

/-- R339, R342, R343: CLD gives each lane the scaled values of its elements, a side entry's where one stands; CST.elem
writes each lane's code under the scale that is stored, and CST.blk the codes, scales and side entries of whole blocks. No
other bit changes. Where the qualifiers let a read lag (R129), which codes or scales are read is left open here.
Log entries 29, 30 and 32 say what the model does where the spec leaves a point open. -/
def Obligations.TensorMemory : Prop :=
  (∀ w vd va hb mq s t g, LaneReady s t g (va :: tupleRegs vd (2 ^ (w : BitVec 2).toNat)) → vd.toNat + 2 ^ w.toNat ≤ 64 →
    MemReady s t g 1024 → numcfg s t.info.ctx = 0 → HandlesFit s t g hb (fun _ => true) →
    (∀ l ∈ laneSet s t g, (vreg t va l).toNat % 2 ^ w.toNat = 0) →
    (∀ l ∈ laneSet s t g, ∀ x ∈ cldWants t hb (2 ^ w.toNat) (vreg t va l).toNat l,
      plainRun s t g .read x.align x.w x.addr ≠ none) →
    ∃ s' t', exec (.cld w vd va hb mq) s = .next s' ∧ tget s'.teams s.cur.team = some t' ∧
      (∀ l ∈ laneSet s t g, (threadOf t' l.2).lstat = 0 ∧ ((qualOf mq .read).mayLag .read = false →
        ∀ j < 2 ^ w.toNat, laneReg t' l.2 (vd.toNat + j) = (
        let h := handleOf t l.2 hb
        let e := laneEntry t hb l
        let c := e.elem.container
        let i := (vreg t va l).toNat
        let b := i / e.block
        let bits := ofBytes ((wantsRun l 0 (h.codeAddr c i) ((c * i % 8 + c * 2 ^ w.toNat + 7) / 8) 1 h.rid).flatMap
          (plainBytes s t g))
        let scale := scaleValue e.elem (rawScale e.elem b ((scaleWant l 10 h e.elem b).flatMap (plainBytes s t g))) h.tscale h.eb
        let sides := (sideWants l 20 h (if h.oe then e.outl else 0) b).map (fun x =>
          BitVec.ofNat 32 (ofBytes (plainBytes s t g x)))
        match sides.find? (fun x => x != 0xFFFFFFFF && (x.extractLsb' 16 8).toNat == (i + j) % e.block) with
        | some x => to32 ((fp16.decode (x.extractLsb' 0 16).toNat).mul scale)
        | none => to32 ((e.elem.decode (bits / 2 ^ (c * i % 8 + c * j) % 2 ^ c)).mul scale)))) ∧
      otherRegs t t' (laneSet s t g) vd (2 ^ w.toNat) ∧ (∀ a, coreByte s' t.core a = coreByte s t.core a) ∧ hasGone s g t') ∧
  (∀ vd va hb mq s t g, LaneReady s t g [va, vd] → MemReady s t g 1024 → numcfg s t.info.ctx = 0 →
    HandlesFit s t g hb (fun _ => true) →
    (let want := fun (l : Nat × Nat) =>
       scaleWant l 10 (handleOf t l.2 hb) (laneEntry t hb l).elem ((vreg t va l).toNat / (laneEntry t hb l).block)
     let code := fun (l : Nat × Nat) =>
       let h := handleOf t l.2 hb
       let e := laneEntry t hb l
       let raw := rawScale e.elem ((vreg t va l).toNat / e.block) ((want l).flatMap (plainBytes s t g))
       (e.elem.encode (quotient (vreg t vd l) (scaleValue e.elem raw h.tscale h.eb))).code
     let narrow := fun (l : Nat × Nat) => decide ((laneEntry t hb l).elem.container < 8)
     (∀ l ∈ voters s t g, ∀ x ∈ want l, plainRun s t g .read x.align x.w x.addr ≠ none) →
     let changes := fun (code : Nat × Nat → Nat) =>
       (((voters s t g).filter (fun l => !narrow l) ++ (voters s t g).filter narrow).flatMap (fun l =>
         codeChanges (handleOf t l.2 hb) (laneEntry t hb l).elem.container (vreg t va l).toNat 1 (code l)))
     ((qualOf mq .read).mayLag .read = false → StoresChanges s t g (.cstElem vd va hb mq) (changes code)) ∧
     ((qualOf mq .read).mayLag .read = true → ∃ c, StoresChanges s t g (.cstElem vd va hb mq) (changes c)))) ∧
  (∀ vd va hb mq s t g, LaneReady s t g (va :: tupleRegs vd 4) → vd.toNat + 4 ≤ 64 → MemReady s t g 1024 →
    numcfg s t.info.ctx = 0 → HandlesFit s t g hb (fun e => e.kind == 0) →
    (∀ l ∈ voters s t g, (vreg t va l).toNat % 4 = 0) →
    (let sup := fun (l : Nat × Nat) => supplyOf t hb vd.toNat (vreg t va l).toNat l
     let bs := packBlocks t ((voters s t g).map sup) (fun h e => h.oe && e.outl != 0)
     let ent := fun (b : Block) => entryOf t b.h.cls
     let narrow := fun (l : Nat × Nat) => decide ((laneEntry t hb l).elem.container < 8)
     StoresChanges s t g (.cstBlk vd va hb mq)
       (((voters s t g).filter (fun l => !narrow l) ++ (voters s t g).filter narrow).flatMap (fun l =>
          codeChanges (handleOf t l.2 hb) (laneEntry t hb l).elem.container (vreg t va l).toNat 4 (packedCodes t bs (sup l))) ++
        (bs.filter (fun b => (ent b).elem.scale == 1)).flatMap (fun b => scaleChanges (ent b) b) ++
        (bs.filter (fun b => (ent b).elem.scale == 2)).flatMap (fun b => scaleChanges (ent b) b) ++
        bs.flatMap (fun b => sideChanges (ent b) b))))

/-! ### Sequences, KV pages and the state store (R187 to R209, R348 to R353) -/

/-- R189, R193, R194, R198, R205, R348, R350, R351, R353: KVLD gives each lane its status and its 16 bytes of the tile, SSLD its
chunk of the working state or of the slot it refers to, ROPE rotates each lane's two pairs, and SEQINFO reads the
sequence's entry.
Log entries 38 to 40 say what the model does where the spec leaves a point open. -/
def Obligations.KvReads : Prop :=
  (∀ (vt : Bool) s t g vd va sb, LaneReady s t g (tupleRegs va 2 ++ tupleRegs vd 4) → va.toNat + 2 ≤ 64 → vd.toNat + 4 ≤ 64 →
    s.poison = [] → (g.lanes.map (·.2)).Nodup →
    ∃ s' t', exec (if vt then .kvldVt vd va sb else .kvldK vd va sb) s = .next s' ∧ tget s'.teams s.cur.team = some t' ∧
      (∀ l ∈ laneSet s t g,
        (let a0 := (vreg t va l).toNat
         let a1 := (laneReg t l.2 (va.toNat + 1)).toNat
         let x := (uReg (warpOf t (l.2 / 32)) sb.toNat).toNat
         let q := a1 % 2 ^ 20
         let h := a1 / 2 ^ 20 % 256
         let layer := x % 65536
         let e := seqEntry s q
         let k := if vt then a0 % 2 ^ 24 else a0 / 16
         let tile := fun n => pagePa s n + (if vt then 16 * seqHeads e * seqHb e else 0) + 16 * seqHb e * h
         let off := (if vt then 2 * seqCbits e * (a0 / 2 ^ 24) else seqHb e * (a0 % 16)) + x / 65536 % 65536
         let page := if k < seqPlcap e then pageListGet s (pageListAddr e layer k) else none
         let status : Word :=
           if seqCap s ≤ q ∨ seqValid e = false ∨ seqBadFields s e = true ∨ seqLayers e ≤ layer ∨ seqHeads e ≤ h then 3
           else if seqLen e ≤ (if vt then 16 * k else a0) then 2
           else if page = none then 1 else 0
         (threadOf t' l.2).lstat = status ∧ lanePred (threadOf t' l.2) 7 = (status == 0) ∧
         ∀ j < 4, laneReg t' l.2 (vd.toNat + j) = BitVec.ofNat 32 (ofBytes ((List.range 4).map (fun i =>
           if status = 0 ∧ off + 4 * j + i < 16 * seqHb e then memByte s (tile (page.getD 0) + off + 4 * j + i) else 0))))) ∧
      otherRegs t t' (laneSet s t g) vd 4 ∧ (∀ a, memByte s' a = memByte s a) ∧ hasGone s g t') ∧
  (∀ s t g vd va sb (c : Nat × Nat → Chunk), LaneReady s t g (va :: tupleRegs vd 4) → vd.toNat + 4 ≤ 64 → s.poison = [] →
    (g.lanes.map (·.2)).Nodup → (∀ x ∈ t.groups, x.park = none) →
    (∀ l ∈ laneSet s t g, laneChunk s t va sb l.2 = .ok (c l)) →
    ∃ s' t', exec (.ssld vd va sb) s = .next s' ∧ tget s'.teams s.cur.team = some t' ∧
      (∀ l ∈ laneSet s t g, (threadOf t' l.2).lstat = 0 ∧ ∀ src, workSource s (c l).e (c l).layer = some src →
        ∀ j < 4, laneReg t' l.2 (vd.toNat + j) = BitVec.ofNat 32 (ofBytes (memRead s (src + (c l).off + 4 * j) 4))) ∧
      otherRegs t t' (laneSet s t g) vd 4 ∧ (∀ a, memByte s' a = memByte s a) ∧ hasGone s g t') ∧
  (∀ s t va (sb : BitVec 6) tid c, laneChunk s t va sb tid = .ok c ↔
    (c.tid = tid ∧ ∃ b, (warpOf t (tid / 32)).ssbind = some b ∧ seqFault s (b.toNat % 2 ^ 20) = none ∧
      c.e = seqEntry s (b.toNat % 2 ^ 20) ∧ c.layer = b.toNat / 2 ^ 32 % 4096 ∧ c.layer < seqLayers c.e ∧
      c.off = ((uReg (warpOf t (tid / 32)) sb.toNat).truncate 32 + laneReg t tid va.toNat).toNat ∧ c.off % 16 = 0 ∧
      c.off < 16 * seqSsz c.e ∧ workSource s c.e c.layer ≠ none)) ∧
  (∀ (split : Bool) s t g vd va (sb : BitVec 6) (p : Nat × Nat → Nat → Nat × Nat), LaneReady s t g (tupleRegs va 2 ++ tupleRegs vd 4) →
    va.toNat + 2 ≤ 64 → vd.toNat + 4 ≤ 64 → MemReady s t g 0 → ScratchCanonical s →
    (∀ l ∈ laneSet s t g, (vreg t va l).toNat < 2 ^ 28 → ∀ j < 2, spotAt s 4 ((uReg (warpOf t (l.2 / 32)) sb.toNat).truncate 32 +
      4 * (laneReg t l.2 (va.toNat + 1) + BitVec.ofNat 32 j)) = some (p l j)) →
    ∃ s' t', exec (if split then .ropeSplit vd va sb else .ropeInter vd va sb) s = .next s' ∧
      tget s'.teams s.cur.team = some t' ∧
      (∀ l ∈ laneSet s t g,
        (2 ^ 28 ≤ (vreg t va l).toNat → (threadOf t' l.2).lstat = 2 ∧
          ∀ j < 4, laneReg t' l.2 (vd.toNat + j) = laneReg t l.2 (vd.toNat + j)) ∧
        ((vreg t va l).toNat < 2 ^ 28 → (threadOf t' l.2).lstat = 0 ∧ ∀ j < 2,
          (let i := vd.toNat + (if split then j else 2 * j)
           let i' := if split then i + 2 else i + 1
           let f := ofBytes ((List.range 4).map (fun n => scratchByte s ((p l j).1, (p l j).2 + n)))
           let r := turn ((vreg t va l).toNat * f % 2 ^ 32)
           let x := f32 (laneReg t l.2 i)
           let y := f32 (laneReg t l.2 i')
           laneReg t' l.2 i = to32 ((x.mul (f32 r.1)).add (y.mul (f32 r.2)).neg) ∧
           laneReg t' l.2 i' = to32 ((x.mul (f32 r.2)).add (y.mul (f32 r.1)))))) ∧
      otherRegs t t' (laneSet s t g) vd 4 ∧ (∀ a, scratchByte s' a = scratchByte s a) ∧ hasGone s g t') ∧
  [turn 0, turn (2 ^ 30), turn (2 ^ 31), turn (3 * 2 ^ 30)] =
    [(0x3F800000, 0), (0, 0x3F800000), (0xBF800000, 0), (0, 0xBF800000)] ∧
  (∀ s t g sd sa, UniReady s t g →
    (let q := (sreg t g sa).toNat % 2 ^ 20
     let e := seqEntry s q
     let s1 := acquireCore (setTeam s s.cur.team t) t.core 2
     s.poison = [] → q < seqCap s → ∃ x : DWord, exec (.seqinfo sd sa) s = .next (modTeam s1 s.cur.team (fun t =>
         advance s1 (modWarp (modThreads t (realThreads t g) (acquireAt s.writes 2 ∘ fun th => { th with seen := 0 })) g.warp
           (fun w => setU w sd.toNat x)))) ∧
       (x.extractLsb' 0 28).toNat = seqLen e ∧ x.getLsbD 31 = seqValid e ∧
       (x.extractLsb' 32 20).toNat = min (((List.range (seqLayers e)).map (fun i =>
         (slotHeads s e i).countP (fun y => shShr y != 0))).sum) (2 ^ 20 - 1) ∧
       x.extractLsb' 28 3 = 0 ∧ x.extractLsb' 52 12 = 0))

/-- R189, R195 to R197, R349, R351: KVAPP writes each lane's bytes into the row of its token, a page being taken from the free
stack, zeroed, where the page list names none; its commit raises LEN and counts the slot in each layer's page; SSST writes
each lane's chunk of the working state and sets DIRTY.
Log entries 38, 39 and 42 say what the model does where the spec leaves a point open. -/
def Obligations.KvAppends : Prop :=
  (∀ s t g vd va sb (page : Nat × Nat → Nat), LaneReady s t g (tupleRegs va 2 ++ tupleRegs vd 4) → va.toNat + 2 ≤ 64 →
    vd.toNat + 4 ≤ 64 → s.poison = [] → s.monitors = [] → s.marks = [] → MemoryCanonical s → (∀ x ∈ t.groups, x.park = none) →
    (let q := fun (l : Nat × Nat) => (laneReg t l.2 (va.toNat + 1)).toNat % 2 ^ 20
     let h := fun (l : Nat × Nat) => (laneReg t l.2 (va.toNat + 1)).toNat / 2 ^ 20 % 256
     let x := fun (l : Nat × Nat) => (uReg (warpOf t (l.2 / 32)) sb.toNat).toNat
     let e := fun l => seqEntry s (q l)
     let hb := fun l => seqHb (e l)
     let row := fun l => x l / 65536 % 65536 + 16 * l.1
     let data := fun (l : Nat × Nat) => (List.range 4).flatMap (fun j => bytesOf 4 (laneReg t l.2 (vd.toNat + j)).toNat)
     let slot := fun l => seqLen (e l) % 16
     let spot := fun l => pagePa s (page l) + 16 * hb l * h l + hb l * slot l + row l
     let rows := fun l => pagePa s (page l) + 16 * seqHeads (e l) * hb l + 16 * hb l * h l
     (∀ l ∈ voters s t g, seqFault s (q l) = none ∧ x l % 65536 < seqLayers (e l) ∧ h l < seqHeads (e l) ∧
       seqLen (e l) < 2 ^ 28 - 1 ∧ seqLen (e l) / 16 < seqPlcap (e l) ∧
       pageListGet s (pageListAddr (e l) (x l % 65536) (seqLen (e l) / 16)) = some (page l) ∧ pageRef s (page l) ≤ 1) →
     (∀ l ∈ voters s t g, ∀ m ∈ voters s t g, ∀ r ∈ [(seqArea s, 64), (seqAddr s (q m), 64), (pageAddr s (page m), 16)],
       pagePa s (page l) + pageBytes s ≤ r.1 ∨ r.1 + r.2 ≤ pagePa s (page l)) →
     (∃ s' t', exec (.kvappK vd va sb) s = .next s' ∧ tget s'.teams s.cur.team = some t' ∧
       (∀ a, memByte s' a = (voters s t g).foldl (fun seen l => withBytes seen (spot l) ((data l).take (hb l - row l)))
         (memByte s) a) ∧ (∀ tid r, laneReg t' tid r = laneReg t tid r) ∧ hasGone s g t') ∧
     (∃ s' t', exec (.kvappV vd va sb) s = .next s' ∧ tget s'.teams s.cur.team = some t' ∧
       (∀ a, memByte s' a = memByte ((voters s t g).foldl (fun s1 l =>
         (let c := seqCbits (e l)
          let d := fun j => 8 * row l / c + j
          ((List.range (128 / c)).filter (fun j => d j < 8 * hb l / c)).foldl (fun s2 j =>
            putElement s2 (rows l) c (c * (16 * d j + slot l)) (ofBytes (data l) / 2 ^ (c * j) % 2 ^ c)) s1)) s) a) ∧
       (∀ tid r, laneReg t' tid r = laneReg t tid r) ∧ hasGone s g t'))) ∧
  (∀ s base c off v i, s.poison = [] → MemoryCanonical s → c ∈ [1, 2, 4, 8, 16, 32] → off % c = 0 →
    (memByte (putElement s base c off v) (base + i / 8)).getLsbD (i % 8) =
      (if off ≤ i ∧ i < off + c then v.testBit (i - off) else (memByte s (base + i / 8)).getLsbD (i % 8))) ∧
  (∀ (a : AppState) l n s', (let entry := pageListAddr (seqEntry a.state l.q) l.layer (seqLen (seqEntry a.state l.q) / 16)
    pageListGet a.state entry = none → popPage a.state = some (n, s') →
    appendLane a l = { a with state := pageListSet (openPage s' n 0) entry n, writes := a.writes ++ [(l, n)] })) ∧
  (∀ s n s', popPage s = some (n, s') → 0 < fsTop s ∧ n = memNat s (fsBase s + 4 * (fsTop s - 1)) 4 % 2 ^ 22 ∧
    s' = memPut s (seqArea s + 52) 4 (fsTop s - 1)) ∧
  (∀ s t g va sb, LaneReady s t g (tupleRegs va 2) → va.toNat + 2 ≤ 64 → s.marks = [] → (∀ x ∈ t.groups, x.park = none) →
    s.monitors = [] → s.poison = [] →
    (let q := fun (l : Nat × Nat) => (laneReg t l.2 (va.toNat + 1)).toNat % 2 ^ 20
     (∀ l ∈ voters s t g, seqFault s (q l) = none ∧ seqLen (seqEntry s (q l)) < 2 ^ 28 - 1) →
     exec (.kvappCommit va sb) s = .next (
       let s1 := (((voters s t g).map q).eraseDups).foldl (fun s q =>
           let e := seqEntry s q
           let p := seqLen e
           (List.range (seqLayers e)).foldl (fun s i =>
             match pageAt s e i (p / 16) with
             | some n => setPageFill s n (p % 16 + 1)
             | none => s) (seqPut s q 128 28 (p + 1)))
         (if voters s t g = [] then s else releaseCore s t.core 2)
       modTeam s1 s.cur.team (advance s1)))) ∧
  (∀ s t g vd va sb (c : Nat × Nat → Chunk), LaneReady s t g (va :: tupleRegs vd 4) → vd.toNat + 4 ≤ 64 → s.poison = [] →
    s.monitors = [] → MemoryCanonical s → (∀ x ∈ t.groups, x.park = none) → voters s t g ≠ [] →
    (∀ l ∈ voters s t g, laneChunk s t va sb l.2 = .ok (c l)) →
    ∀ e layer, (∀ l ∈ voters s t g, (c l).e = e ∧ (c l).layer = layer) → lhWref (layerHead s e layer) = false →
    ∃ s' t', exec (.ssst vd va sb) s = .next s' ∧ tget s'.teams s.cur.team = some t' ∧
      (∀ a, memByte s' a = if a = blockAddr e layer + 3 then memByte s a ||| 0x10 else
        (voters s t g).foldl (fun seen l => withBytes seen (workAddr e layer + (c l).off)
          ((List.range 4).flatMap (fun j => bytesOf 4 (laneReg t l.2 (vd.toNat + j)).toNat))) (memByte s) a) ∧
      (∀ tid r, laneReg t' tid r = laneReg t tid r) ∧ hasGone s g t') ∧
  (∀ e layer, workAddr e layer = seqSrbase e + layer * (1024 + (seqRslots e + 1) * (16 * seqSsz e)) + 1024 ∧
    blockAddr e layer + 1024 = workAddr e layer)

/-- R199 to R201, R205 to R209, R352, R353: the slot that a snapshot takes and the slot that a roll takes; SSNAP, SSROLL and
SSCOMMIT on the bound layer, SSBIND; and SEQFORK, SEQTRUNC and SEQFREE.
Log entries 41 and 42 say what the model does where the spec leaves a point open. -/
def Obligations.SequenceForms : Prop :=
  (∀ (hs : List Nat) i, chooseSlot hs = some i → i < hs.length ∧
    ((shValid (hs.getD i 0) = false ∧ ∀ j < i, shValid (hs.getD j 0) = true) ∨
     ((∀ x ∈ hs, shValid x = true) ∧ shShr (hs.getD i 0) = 0 ∧ ∀ j < hs.length, shShr (hs.getD j 0) = 0 →
       shPos (hs.getD i 0) < shPos (hs.getD j 0) ∨ (shPos (hs.getD i 0) = shPos (hs.getD j 0) ∧ i ≤ j)))) ∧
  (∀ hs : List Nat, chooseSlot hs = none → ∀ x ∈ hs, shValid x = true ∧ 0 < shShr x) ∧
  (∀ (hs : List Nat) p i, rollSlot hs p = some i → i < hs.length ∧ shValid (hs.getD i 0) = true ∧ shPos (hs.getD i 0) ≤ p ∧
    ∀ j < hs.length, shValid (hs.getD j 0) = true → shPos (hs.getD j 0) ≤ p →
      shPos (hs.getD j 0) < shPos (hs.getD i 0) ∨ (shPos (hs.getD j 0) = shPos (hs.getD i 0) ∧ i ≤ j)) ∧
  (∀ (hs : List Nat) p, rollSlot hs p = none → ∀ x ∈ hs, shValid x = true → p < shPos x) ∧
  (∀ s q layer key i,
    (let e := seqEntry s q
     let head := layerHead s e layer
     heldSlot q (if lhDirty head then 1 else 0) key (slotHeads s e layer) = none → chooseSlot (slotHeads s e layer) = some i →
     ∀ src, workSource s e layer = some src → shValid ((slotHeads s e layer).getD i 0) = false →
     snapshot s q layer key = (some i, setLayerHead (setSlotHead (copyBytes s src (snapAddr e layer i)
       (16 * seqSsz e)) e layer i (key + q * 2 ^ 28 + i * 2 ^ 48 + 2 ^ 63)) e layer (putBits head 28 1 0)))) ∧
  (∀ s src dst n, s.poison = [] → copyBytes s src dst n = memWrite s dst (memRead s src n)) ∧
  (∀ s t g q e layer, UniReady s t g → s.poison = [] → representative t g ≠ none → boundState s t g.warp = .ok (q, e, layer) →
    (let k := s.cur.team
     let s0 := setTeam s k t
     let go := fun (s : State) (sd : BitVec 6) (x : DWord) =>
       (.next (modTeam s k (fun t => advance s (modWarp t g.warp (fun w => setU w sd.toNat x)))) : Out)
     let old := lhPos (layerHead s e layer)
     (∀ sd, snapshotMiss s q e layer old = false → exec (.ssnap sd) s = (
       let r := snapshot s0 q layer old
       go r.2 sd (match r.1 with
         | some i => BitVec.ofNat 64 i
         | none => 0xFF))) ∧
     (∀ sd sa, rollSlot (slotHeads s e layer) ((sreg t g sa).toNat % 2 ^ 28) = none →
       exec (.ssroll sd sa) s = go s0 sd 0xFFFFFFFFFFFFFFFF) ∧
     (∀ sd sa i src, rollSlot (slotHeads s e layer) ((sreg t g sa).toNat % 2 ^ 28) = some i →
       slotData s (shOwner ((slotHeads s e layer).getD i 0)) layer (shSlot ((slotHeads s e layer).getD i 0)) = some src →
       exec (.ssroll sd sa) s = (
         let pos := shPos ((slotHeads s e layer).getD i 0)
         let s1 := releaseWref (copyBytes s0 src (workAddr e layer) (16 * seqSsz e)) e layer
         go (setLayerHead s1 e layer (putBits (putBits (layerHead s1 e layer) 28 1 0) 0 28 pos)) sd (BitVec.ofNat 64 pos))) ∧
     (∀ sa,
       (let p := (sreg t g sa).toNat % 2 ^ 28
        let s1 := releaseCore s t.core 2
        let s2 := setLayerHead s1 e layer (putBits (layerHead s1 e layer) 0 28 p)
        (old / 2 ^ seqSnapk e < p / 2 ^ seqSnapk e → snapshotMiss s q e layer p = false →
          exec (.sscommit sa) s = (
            let s3 := (snapshot s2 q layer p).2
            .next (modTeam s3 k (advance s3)))) ∧
        (p / 2 ^ seqSnapk e ≤ old / 2 ^ seqSnapk e → exec (.sscommit sa) s = .next (modTeam s2 k (advance s2))))))) ∧
  (∀ s t g sa, UniReady s t g → s.poison = [] →
    (let x := sreg t g sa
     seqFault s (x.toNat % 2 ^ 20) = none → x.toNat / 2 ^ 32 % 4096 < seqLayers (seqEntry s (x.toNat % 2 ^ 20)) →
     exec (.ssbind sa) s = wentOn s (modWarp t g.warp (fun w => { w with ssbind := some (x &&& 0x00000FFF000FFFFF) })))) ∧
  (∀ s t g sa sb, UniReady s t g → s.poison = [] → representative t g ≠ none →
    (let a := (sreg t g sa).toNat % 2 ^ 20
     let b := (sreg t g sb).toNat % 2 ^ 20
     let ea := seqEntry s a
     let layers := List.range (seqLayers ea)
     let pages := forkPages s ea
     seqFault s a = none → b < seqCap s → b ≠ a → seqValid (seqEntry s b) = false → s.marks = [] →
     refOverflows s pages = false → (∀ i ∈ layers, shrOverflows s a ea i = false ∧ (forkPlan s a ea i).2.1 ≠ none) →
     exec (.seqfork sa sb) s = .next (
       let s1 := modTeam (acquireCore s t.core 2) s.cur.team (fun t =>
         modThreads t (realThreads t g) (acquireAt s.writes 2 ∘ fun th => { th with seen := 0 }))
       let s2 := memPut s1 (seqAddr s1 b) 64 (childEntry a ea (seqEntry s1 b))
       let s3 := pages.foldl (fun s x =>
         setPageRef (pageListSet s (pageListAddr (seqEntry s b) x.1 x.2.1) x.2.2) x.2.2 (pageRef s x.2.2 + 1)) s2
       let s4 := layers.foldl (forkLayer a b) s3
       let s5 := seqPut s4 b 0 1 1
       modTeam s5 s.cur.team (advance s5)))) ∧
  (∀ a ea eb, a < 2 ^ 20 → ea < 2 ^ 512 → eb < 2 ^ 512 →
    (∀ f ∈ [(128, 28), (208, 16), (200, 8), (192, 8), (176, 16), (224, 8), (232, 8), (240, 16)],
      bitsAt (childEntry a ea eb) f.1 f.2 = bitsAt ea f.1 f.2) ∧
    bitsAt (childEntry a ea eb) 256 20 = a ∧
    ∀ f ∈ [(0, 128), (156, 20), (276, 236)], bitsAt (childEntry a ea eb) f.1 f.2 = bitsAt eb f.1 f.2) ∧
  (∀ s t g sa, UniReady s t g → s.poison = [] → representative t g ≠ none →
    (let q := (sreg t g sa).toNat % 2 ^ 20
     let e := seqEntry s q
     let layers := List.range (seqLayers e)
     seqFault s q = none → s.marks = [] →
     exec (.seqfree sa) s = .next (
       let s1 := layers.foldl (releaseLayer q e) (layers.foldl (fun s i => dropSlots s e i 0) s)
       let s2 := seqPut (seqPut s1 q 128 28 0) q 0 1 0
       modTeam s2 s.cur.team (advance s2)) ∧
     ∀ sb,
       (let n := (sreg t g sb).toNat % 2 ^ 28
        (seqLen e ≤ n → exec (.seqtrunc sa sb) s = .next (modTeam s s.cur.team (advance s))) ∧
        (n < seqLen e → exec (.seqtrunc sa sb) s = .next (
          let s1 := layers.foldl (fun s i =>
            let s := dropSlots s e i ((n + 15) / 16)
            if n % 16 = 0 then s
            else match pageAt s e i (n / 16) with
              | some p => if pageRef s p = 1 then setPageFill s p (n % 16) else s
              | none => s) (seqPut s q 128 28 n)
          modTeam s1 s.cur.team (advance s1))))))

/-! ### Matrix words, the norm monitor and the gradient accumulators (R87, R88, R212 to R226, R344 to R347) -/

/-- R59: a sum whose terms are finite drops the bits of each term more than 48 places below the largest one's leading bit, adds
what is left exactly, and rounds once; a NaN or infinities of both signs give NaN, infinities of one sign that infinity.
R60: an integer sum is exact and saturates once. -/
def Obligations.MatrixSums : Prop :=
  (∀ acc terms nz, f32 acc = .nan ∨ (∃ x ∈ terms, x = .nan) → sumMatrix acc terms nz = 0x7FC00000) ∧
  (∀ acc terms nz neg, f32 acc ≠ .nan → (∀ x ∈ terms, x ≠ .nan) → f32 acc = .inf neg ∨ .inf neg ∈ terms →
    sumMatrix acc terms nz = (if f32 acc = .inf (!neg) ∨ .inf (!neg) ∈ terms then 0x7FC00000
      else if neg then 0xFF800000 else 0x7F800000)) ∧
  (∀ acc terms nz, (∀ x ∈ f32 acc :: terms, ∃ neg n k, x = .fin neg n (2 ^ k)) →
    ((∀ x ∈ f32 acc :: terms, ratOf x = 0) → sumMatrix acc terms nz = if acc = 0x80000000 ∧ nz () = true then 0x80000000 else 0) ∧
    ((∃ x ∈ f32 acc :: terms, ratOf x ≠ 0) → ∃ top : Int, (∀ x ∈ f32 acc :: terms, |ratOf x| < 2 ^ (top + 1)) ∧
      (∃ x ∈ f32 acc :: terms, 2 ^ top ≤ |ratOf x|) ∧
      (let cut := fun (x : ℚ) => (if x < 0 then -1 else 1) * ((⌊|x| / 2 ^ (top - 48)⌋ : Int) : ℚ) * 2 ^ (top - 48)
       let sum := ((f32 acc :: terms).map (fun x => cut (ratOf x))).sum
       (sum ≠ 0 → ∃ neg n d, 0 < d ∧ ratOf (.fin neg n d) = sum ∧ sumMatrix acc terms nz = to32 (.fin neg n d)) ∧
       (sum = 0 → acc ≠ 0x80000000 → sumMatrix acc terms nz = 0)))) ∧
  (∀ a b depth acc r n,
    (let sum := acc.toInt + ((List.range depth).map (fun k => a.int r k * b.int n k)).sum
     (intElement a b depth acc r n).1.toInt = max (-(2 ^ 31 - 1)) (min (2 ^ 31 - 1) sum) ∧
     ((intElement a b depth acc r n).2 = true ↔ sum < -(2 ^ 31 - 1) ∨ 2 ^ 31 - 1 < sum)))

/-- R212, R214, R215, R220, R345: a matrix word holds until its quartet is complete; the fourth warp's issue starts it, and
every element of C, or of the GAM slot, becomes the sum of the old one and its row of A times its column of B.
Log entries 44 to 46 say what the model does where the spec leaves a point open. -/
def Obligations.MatrixForms : Prop :=
  (∀ vd va vb m gam src i, (gam, src, i) ∈ [(false, 0, Instr.mma vd va vb m), (false, 1, .mmaSpad vd va vb m),
      (false, 2, .mmaQueue vd va vb m), (true, 0, .mmag vd va vb m), (true, 1, .mmagSpad vd va vb m),
      (true, 2, .mmagQueue vd va vb m)] →
    (∀ s t g, Issues s t g → g.formation = false → g.lanes.length = 32 → quartetWhole t (g.warp / 4) = true →
      matrixFault s t g gam src vd va vb m = none → extFaults s t g.lanes (matrixRegs gam src vd va vb) = [] →
      (let others := (quartetHolders t (g.warp / 4)).filter (fun h => h.gid != g.gid)
       (∀ h ∈ others, wordsDiffer s t g h gam m = false) → others.length < 3 →
       exec i s = .next (setTeam s s.cur.team (hold s t (.quartet s.cur.word))))) ∧
    (∀ s t g slabs popped s1, QuartetReady s t g gam src vd va vb m slabs popped s1 →
      (let q := g.warp / 4
       let d := (warpOf t (q * 4)).md.getD m.toNat 0
       let slot := (warpOf t (q * 4)).gbase.toNat % 256 + vd.toNat
       let old := (gamSlot (coreOf s t.core) slot).words
       let ops := matrixOps s1 t q src va vb d slabs popped
       let depth := 256 / max ops.1.e.elem.container ops.2.e.elem.container
       let acc := fun r n => if gam then old.getD (32 * r + n) 0 else laneReg t (lanePlace q r n).1 (vd.toNat + (lanePlace q r n).2)
       let new := fun r n => if (entryOf t (descC d)).acc = 2 then (intElement ops.1 ops.2 depth (acc r n) r n).1
         else floatElement ops.1 ops.2 depth (runsOf ops.1 ops.2 depth) (acc r n) r n
       ∃ s' t', exec i s = .next s' ∧ tget s'.teams s.cur.team = some t' ∧
        (∀ r < 64, ∀ n < 32, if gam then (gamSlot (coreOf s' t.core) slot).words.getD (32 * r + n) 0 = new r n
          else laneReg t' (lanePlace q r n).1 (vd.toNat + (lanePlace q r n).2) = new r n) ∧
        (gam = true → (gamSlot (coreOf s' t.core) slot).owner = some t.info.ctx ∧
          ((∃ r < 64, ∃ n < 32, ∀ neg a b, f32 (new r n) ≠ .fin neg a b) → (entryOf t (descC d)).acc ≠ 2 →
            (gamSlot (coreOf s' t.core) slot).nf = true)) ∧
        (∀ tid r, (gam = true ∨ r < vd.toNat ∨ vd.toNat + 16 ≤ r ∨ tid / 128 ≠ q) → laneReg t' tid r = laneReg t tid r) ∧
        (coreOf s' t.core).array = some (s.cur.team, q) ∧
        ∀ h ∈ g :: (quartetHolders t q).filter (fun h => h.gid != g.gid),
          groupOf t' h.gid = some (stepPc s.gtick s.cur.hdr s.cur.len h)))) ∧
  (∀ q r n, r < 64 → n < 32 → lanePlace q r n = (32 * (4 * q + r / 16) + 2 * (r % 16) + n / 16, n % 16)) ∧
  (∀ t q va r i, i < 8 → rowFromLanes t q va r / 2 ^ (32 * i) % 2 ^ 32 =
    (laneReg t (32 * (4 * q + r / 16) + 2 * (r % 16) + i / 4) (va + i % 4)).toNat) ∧
  (∀ t q vb c depth n j, j < 4 → c * (depth / 4) ≤ 64 →
    columnFromLanes t q vb c depth n / 2 ^ (c * (depth / 4) * j) % 2 ^ (c * (depth / 4)) =
      ((laneReg t (32 * (4 * q + j) + n) vb).toNat + (laneReg t (32 * (4 * q + j) + n) (vb + 1)).toNat * 2 ^ 32) %
        2 ^ (c * (depth / 4)))


/-- R221 to R226, R346: DRAIN updates the moments and weights in memory from the group's gradients, steps the header and clears
the slots; DRAIN.SKIP and GCLR clear them, GCLR also from memory; GRD reads an element, the flags, a header, or writes the
slots out.
Log entry 48 says what the model does where the spec leaves a point open. -/
def Obligations.GamForms : Prop :=
  (∀ s t g sb, UniReady s t g →
    (let x := sreg t g sb
     groupOk x false = true → (∀ i ∈ groupSlots x, (gamSlot (coreOf s t.core) i).owner = none ∨
       (gamSlot (coreOf s t.core) i).owner = some t.info.ctx) →
     exec (.drainSkip sb) s = (
       let s1 := clearSlots s t (groupSlots x)
       .next (modTeam s1 s.cur.team (advance s1))))) ∧
  (∀ (x : DWord), groupSlots x = (List.range (x.extractLsb' 8 9).toNat).map (· + (x.extractLsb' 0 8).toNat)) ∧
  (∀ s t l i, (gamSlot (coreOf (clearSlots s t l) t.core) i) = if i ∈ l then
    { elems := [], int := false, nf := false, owner := some t.info.ctx, poison := [], poisonSeen := [] } else gamSlot (coreOf s t.core) i) ∧
  (∀ s t g sa sb, UniReady s t g →
    (let a := sreg t g sa
     let x := sreg t g sb
     let h := groupHeader x
     groupOk x true = true → gamFault s t x true (groupSlots x) (if a.getLsbD 0 then some h else none) = none →
     let s1 := clearSlots s t (groupSlots x)
     let s2 := if a.getLsbD 0 then modCore s1 t.core (fun c =>
       setGamHeader c h { p1 := 0x3F800000, p2 := 0x3F800000, t := 0, owner := some t.info.ctx }) else s1
     (a.getLsbD 1 = false → exec (.gclr sa sb) s = .next (modTeam s2 s.cur.team (advance s2))) ∧
     (a.getLsbD 1 = true → MemReady s t g 0 → ∀ rep, representative t g = some rep →
       (let mem : Span := { kind := .read, va := a &&& 0x00FFFFFFFFFFFF00, n := 8192 * groupCount x, align := 1, rid := 0 }
        SpanReads s t g rep mem →
        ∃ s' t', exec (.gclr sa sb) s = .next s' ∧ tget s'.teams s.cur.team = some t' ∧
          (∀ i < groupCount x, ∀ n < 2048, (gamSlot (coreOf s' t.core) (groupFirst x + i)).words.getD n 0 =
            wordAt (spanSeen s t g rep mem) (2048 * i + n)) ∧
          (∀ i < groupCount x, (gamSlot (coreOf s' t.core) (groupFirst x + i)).nf = false) ∧
          (∀ a, coreByte s' t.core a = coreByte s t.core a) ∧ (∀ tid r, laneReg t' tid r = laneReg t tid r) ∧ hasGone s g t')))) ∧
  (∀ s t g sd sa sb, UniReady s t g →
    (let a := sreg t g sa
     let x := sreg t g sb
     let c := coreOf s t.core
     let y := gamSlot c (groupFirst x)
     (a.extractLsb' 0 2 = 0 → ownedElsewhere y.owner t.info.ctx = false → y.poison = [] →
       ∃ s' t', exec (.grd sd sa sb) s = .next s' ∧ tget s'.teams s.cur.team = some t' ∧
         (∀ r, uReg (warpOf t' g.warp) r = uReg (setU (warpOf t g.warp) sd.toNat
           ((cget 0 y.elems (x.extractLsb' 8 11).toNat).zeroExtend 64)) r) ∧
         (gamSlot (coreOf s' t.core) (groupFirst x)).words = y.words ∧
         (gamSlot (coreOf s' t.core) (groupFirst x)).owner = some t.info.ctx ∧ hasGone s g t') ∧
     (a.extractLsb' 0 2 = 1 → groupOk x false = true →
       (∀ i ∈ groupSlots x, ownedElsewhere (gamSlot c i).owner t.info.ctx = false ∧ (gamSlot c i).poison = []) →
       ∃ s' t', exec (.grd sd sa sb) s = .next s' ∧ tget s'.teams s.cur.team = some t' ∧
         (∀ r, uReg (warpOf t' g.warp) r = uReg (setU (warpOf t g.warp) sd.toNat
           (if (groupSlots x).any (fun i => (gamSlot c i).nf) then 1 else 0)) r) ∧ hasGone s g t') ∧
     (a.extractLsb' 0 2 = 2 → sd.toNat % 2 = 0 → sd ≠ 0 →
       (let y := gamHeader c (x.extractLsb' 0 4).toNat
        ownedElsewhere y.owner t.info.ctx = false →
        ∃ s' t', exec (.grd sd sa sb) s = .next s' ∧ tget s'.teams s.cur.team = some t' ∧
          (∀ r, uReg (warpOf t' g.warp) r = uReg (setU (setU (warpOf t g.warp) sd.toNat (y.t.zeroExtend 64)) (sd.toNat + 1)
            (y.p2 ++ y.p1)) r) ∧ hasGone s g t')) ∧
     (a.extractLsb' 0 2 = 3 → groupOk x false = true → MemReady s t g 0 →
       (∀ i ∈ groupSlots x, ownedElsewhere (gamSlot c i).owner t.info.ctx = false ∧ (gamSlot c i).poison = []) →
       ∀ rep, representative t g = some rep →
       (let mem : Span := { kind := .write, va := a &&& 0x00FFFFFFFFFFFF00, n := 8192 * groupCount x, align := 1, rid := 0 }
        let l := spanChanges rep mem ((groupSlots x).flatMap (fun i => (gamSlot c i).words.flatMap (fun y => bytesOf 4 y.toNat)))
        ∀ pa : BitVec 64 → Nat, (∀ y ∈ l, plainRun s t g .write y.align y.data.length y.addr = some (pa y.addr)) →
        ∃ s' t', exec (.grd sd sa sb) s = .next s' ∧ tget s'.teams s.cur.team = some t' ∧
          (∀ b, coreByte s' t.core b = afterChanges pa l (coreByte s t.core) b) ∧
          (∀ r, uReg (warpOf t' g.warp) r = uReg (setU (warpOf t g.warp) sd.toNat
            (if (groupSlots x).any (fun i => (gamSlot c i).nf) then 1 else 0)) r) ∧ hasGone s g t')))) ∧
  (∀ s t g sa sb, UniReady s t g → MemReady s t g 0 → numcfg s t.info.ctx = 0 → ∀ rep, representative t g = some rep →
    (let x := sreg t g sb
     let c := coreOf s t.core
     let slots := groupSlots x
     let n := 2048 * groupCount x
     let desc : Span := { kind := .read, va := sreg t g sa, n := 64, align := 64, rid := 0 }
     let d := drainDesc (spanSeen s t g rep desc)
     let at4 := fun (k : Kind) (a : BitVec 64) => ({ kind := k, va := a, n := 4 * n, align := 4, rid := 0 } : Span)
     let words := fun (a : BitVec 64) => (List.range n).map (wordAt (spanSeen s t g rep (at4 .read a)))
     let old := gamHeader c (groupHeader x)
     let head : GamHeader := if d.sgd then { old with t := old.t + 1 }
       else { old with p1 := fmul32 old.p1 d.beta1, p2 := fmul32 old.p2 d.beta2, t := old.t + 1 }
     let vs := if d.sgd then [] else words d.vaddr
     let new := (List.range n).map (fun i => drainElement d head ((gradients c slots).getD i 0) ((words d.maddr).getD i 0)
       (vs.getD i 0) ((words d.waddr).getD i 0))
     let put := fun (a : BitVec 64) (l : List Word) => spanChanges rep (at4 .write a) (l.flatMap (fun y => bytesOf 4 y.toNat))
     let nh : Handle := (warpOf t g.warp).h.getD d.nwh.toNat 0
     let narrow := narrowSupply t (warpOf t g.warp) d.nwh rep (new.map (·.2.2))
     let l := put d.maddr (new.map (·.1)) ++ (if d.sgd then [] else put d.vaddr (new.map (·.2.1))) ++
       put d.waddr (new.map (·.2.2)) ++ (if d.nwen then
         ((narrowSpans t nh n).zip (narrowBytes t nh narrow.1 narrow.2)).flatMap (fun y => spanChanges rep y.1 y.2) else [])
     gamFault s t x (groupOk x false) slots (some (groupHeader x)) = none → (∀ i ∈ slots, (gamSlot c i).poison = []) →
     SpanReads s t g rep desc → SpanReads s t g rep (at4 .read d.waddr) → SpanReads s t g rep (at4 .read d.maddr) →
     (d.sgd = false → SpanReads s t g rep (at4 .read d.vaddr)) →
     (d.nwen = true → nh.v = true ∧ (entryOf t nh.cls).used = true ∧ (entryOf t nh.cls).valid = true ∧ (entryOf t nh.cls).kind = 0) →
     ∀ pa : BitVec 64 → Nat, (∀ y ∈ l, plainRun s t g .write y.align y.data.length y.addr = some (pa y.addr)) →
     ∃ s' t', exec (.drain sa sb) s = .next s' ∧ tget s'.teams s.cur.team = some t' ∧
       (∀ b, coreByte s' t.core b = afterChanges pa l (coreByte s t.core) b) ∧
       gamHeader (coreOf s' t.core) (groupHeader x) = { head with owner := some t.info.ctx } ∧
       (∀ i ∈ slots, (gamSlot (coreOf s' t.core) i).words = List.replicate 2048 0 ∧ (gamSlot (coreOf s' t.core) i).nf = false) ∧
       (∀ tid r, laneReg t' tid r = laneReg t tid r) ∧ hasGone s g t')) ∧
  (∀ d h grad m v w,
    (let r := fun (x : FVal) => to32 x
     let g := r ((f32 grad).mul (f32 d.gscale))
     (d.sgd = true → drainElement d h grad m v w = (
       let m' := r ((f32 (r ((f32 d.mu).mul (f32 m)))).add (f32 g))
       (m', v, r ((f32 w).add (f32 (r ((f32 d.lr).mul (f32 m')))).neg))) ∧
     (d.sgd = false → drainElement d h grad m v w = (
       let q1 := r ((f32 0x3F800000).add (f32 h.p1).neg)
       let q2 := r ((f32 0x3F800000).add (f32 h.p2).neg)
       let m' := r ((f32 (r ((f32 d.beta1).mul (f32 m)))).add (f32 (r ((f32 d.omb1).mul (f32 g)))))
       let v' := r ((f32 (r ((f32 d.beta2).mul (f32 v)))).add (f32 (r ((f32 d.omb2).mul (f32 (r ((f32 g).mul (f32 g))))))))
       let mh := r ((f32 m').div (f32 q1))
       let vh := r ((f32 v').div (f32 q2))
       let u := r ((f32 mh).div (f32 (r ((f32 (fsqrt32 vh)).add (f32 d.eps)))))
       let decay := r ((f32 d.lambda).mul (f32 w))
       (m', v', r ((f32 w).add (f32 (r ((f32 d.lr).mul (f32 (r ((f32 u).add (f32 decay))))))).neg)))))))

/-! ### Commands, launches and the debug forms (R130, R170 to R174, R331, R332, R336, R374, R380, R415, R425) -/

/-- R130, R170, R173, R174, R309, R331, R425: PUSH hands the eight uniform registers to an engine's queue and says in its flag
whether the queue was full; PUSHW waits for room; KICK forks the commands of its list in order.
Log entry 55 says what the model does where the spec leaves a point open. -/
def Obligations.EngineWords : Prop :=
  (∀ s t g fd sa id, UniReady s t g → id.toNat < 7 → (id.toNat = 6 → g.handler = true) →
    (representative t g = none → exec (.push fd sa id) s = wentOn s (modWarp t g.warp (fun w => setFlag w fd.toNat false))) ∧
    (∀ rep, representative t g = some rep →
      (queueFull s t.core id.toNat = true →
        exec (.push fd sa id) s = wentOn s (modWarp t g.warp (fun w => setFlag w fd.toNat true))) ∧
      (queueFull s t.core id.toNat = false → exec (.push fd sa id) s = (
        let s1 := forkOne (setTeam s s.cur.team t) g rep.2 id.toNat
          ((List.range 8).flatMap (fun i => bytesOf 8 (uReg (warpOf t g.warp) (sa.toNat + i)).toNat))
        .next (modTeam s1 s1.cur.team (fun t => advance s1 (modWarp t g.warp (fun w => setFlag w fd.toNat false)))))))) ∧
  (∀ s t g sa id, UniReady s t g → id.toNat < 7 → (id.toNat = 6 → g.handler = true) →
    (representative t g = none → exec (.pushw sa id) s = wentOn s t) ∧
    (∀ rep, representative t g = some rep →
      (queueFull s t.core id.toNat = true →
        exec (.pushw sa id) s = .next (setTeam s s.cur.team (hold s t (.retry .pushw)))) ∧
      (queueFull s t.core id.toNat = false → exec (.pushw sa id) s = (
        let s1 := forkOne s g rep.2 id.toNat
          ((List.range 8).flatMap (fun i => bytesOf 8 (uReg (warpOf t g.warp) (sa.toNat + i)).toNat))
        .next (modTeam s1 s1.cur.team (advance s1)))))) ∧
  (∀ s t g sa sb off n, UniReady s t g → off = (sreg t g sa).truncate 32 → n = ((sreg t g sb).extractLsb' 0 9).toNat →
    1 ≤ n → n ≤ 256 → off.toNat % 64 = 0 → (∃ p, resolve s s.cur.team off (64 * n) = .ok p) →
    (let spots := spotsFor s s.cur.team off 0 (64 * n)
     (spadReady s spots = false → exec (.kick sa sb) s = .next (setTeam s s.cur.team (hold s t (.retry .presence)))) ∧
     (spadReady s spots = true → representative t g = none → exec (.kick sa sb) s = wentOn s t) ∧
     (∀ rep b s1, spadReady s spots = true → representative t g = some rep →
       readSpots (newOp s (modThreads t [rep.2] bumpClk) g rep.2 0 0 []) spots s = (b, s1) →
       (∀ c ∈ kickList b n, cmdQid c < 6 ∨ (cmdQid c = 6 ∧ g.handler = true)) →
       exec (.kick sa sb) s = (
         let s2 := pumpRequests t.core (n + 16) (forkAll s1 g rep.2 ((kickList b n).map (fun c => (cmdQid c, c))))
         .next (modTeam s2 s.cur.team (advance s2)))))) ∧
  (∀ s t g sa id, UniReady s t g → 7 ≤ id.toNat →
    exec (.pushw sa id) s = .next (trapLanes s s.cur.team g 2 (g.lanes.map (fun l => (l.2, parkOf s 1 id.toNat 10))))) ∧
  (∀ s t g sa, UniReady s t g → g.handler = false →
    exec (.pushw sa 6) s = .next (trapLanes s s.cur.team g 2 (g.lanes.map (fun l => (l.2, parkOf s 4 6 3))))) ∧
  (∀ s t g rep l, tget s.teams s.cur.team = some t →
    (forkAll s g rep l).ops.map (fun o => (o.id, o.eng, o.cmd, o.core, o.team)) =
      s.ops.map (fun o => (o.id, o.eng, o.cmd, o.core, o.team)) ++
      (l.zip (List.range l.length)).map (fun x => (s.nextOp + x.2, x.1.1, x.1.2, t.core, s.cur.team))) ∧
  (∀ s t g rep c id, tget s.teams s.cur.team = some t → representative t g = some rep → (g.lanes.map (·.2)).Nodup →
    (∀ o ∈ s.ops, o.id < s.nextOp) → cmdFr c = false →
    ∃ o, opOf (forkOne s g rep.2 id c) s.nextOp = some o ∧ o.eng = id ∧ o.cmd = c ∧ o.phase = .queued ∧
      o.clk = (bumpClk (threadOf t rep.2)).clk ∧ o.slot = (threadOf t rep.2).slot ∧ o.priv = g.handler)

/-- R332, R364, R431: LAUNCH reserves the next record of a queue, RES catching up with TAIL first; where the slot is free and
every earlier record is published it copies its 64 bytes there, moves TAIL and gives the record's number, else it waits, and
what the core has stored is released; and a queue that cannot be served parks the group with code 0x01 REASON 17.
Log entry 55 says what the model does where the spec leaves a point open. -/
def Obligations.LaunchWord : Prop :=
  (∀ s t g sd sa sb, UniReady s t g → (∀ q n p z f, g.wait ≠ .publish q n p z f) →
    lqUsable s ((sreg t g sb).extractLsb' 0 6).toNat = false →
    exec (.launch sd sa sb) s = .next (trapLanes (setTeam s s.cur.team t) s.cur.team g 2
      (g.lanes.map (fun l => (l.2, parkOf s 1 ((sreg t g sb).extractLsb' 0 6).toNat 17))))) ∧
  (∀ s t g sd sa sb q n pa, UniReady s t g → MemReady s t g 0 → representative t g ≠ none →
    (∀ q n p z f, g.wait ≠ .publish q n p z f) → q = ((sreg t g sb).extractLsb' 0 6).toNat → s.lqs.length = 64 →
    (∀ e ∈ (coreOf s t.core).l1, e.2.dirty = true → e.1 < lqAddr s q ∨ lqAddr s q + 32 ≤ e.1) → lqUsable s q = true →
    plainAt s t g .read 64 (sreg t g sa) = some pa → n = (reserve s q).1 →
    (canPublish (reserve s q).2 q n = true → (∀ i < 4, ∀ j < 64, lqAddr s q + 16 + i ≠ lqSlot s q n + j) →
      ∃ s' t', exec (.launch sd sa sb) s = .next s' ∧ tget s'.teams s.cur.team = some t' ∧
        (∀ i < 64, memByte s' (lqSlot s q n + i) = (seenBytes s t.core pa 64).getD i 0) ∧ lqTail s' q = n + 1 ∧
        (∀ a, (∀ i < 4, a ≠ lqAddr s q + 16 + i) → (∀ i < 64, a ≠ lqSlot s q n + i) → memByte s' a = coreByte s t.core a) ∧
        (∀ r, uReg (warpOf t' g.warp) r = uReg (setU (warpOf t g.warp) sd.toNat (n.zeroExtend 64)) r) ∧
        (lqOf s' q).resv = n + 1 ∧ hasGone s g t') ∧
    (canPublish (reserve s q).2 q n = false →
      ∃ s' t' x leaf, exec (.launch sd sa sb) s = .next s' ∧ tget s'.teams s.cur.team = some t' ∧ groupOf t' g.gid = some x ∧
        translate s t.core t.info.ctx (sreg t g sa) .read g.handler = .ok leaf ∧
        x.wait = .publish q n leaf.pa leaf.size leaf.flags ∧ x.pc = g.pc ∧ (lqOf s' q).resv = n + 1 ∧
        ∀ a, memByte s' a = coreByte s t.core a)) ∧
  (∀ s t g sd sa sb q n page size flags, UniReady s t g → g.wait = .publish q n page size flags →
    (canPublish s q n = false → exec (.launch sd sa sb) s = .next (setTeam s s.cur.team t)) ∧
    (canPublish s q n = true → exec (.launch sd sa sb) s = (
      let leaf : Leaf := { pa := page, size := size, flags := flags }
      let r := coreRead (setTeam s s.cur.team t) t.core leaf (leaf.phys (sreg t g sa).toNat) 64 0 0 false false
      .next (publish r.2 g sd q n r.1.1)))) ∧
  (∀ s q, (reserve s q).1 = (if 0 < (lqTail s q - (lqOf s q).resv).toNat ∧ (lqTail s q - (lqOf s q).resv).toNat < 2 ^ 31
    then lqTail s q else (lqOf s q).resv)) ∧
  (∀ s q n, canPublish s q n = true ↔ (n - lqHead s q).toNat < lqCap s q ∧ lqTail s q = n)

/-- R336, R371, R373, R374, R377, R379, R380: MARK waits for its warp's stores and writes a record of STOREHASH, label and launch, which a
replay compares with the recorded one; HASHRD gives STOREHASH; SAMPLE marks the next memory instruction; BRK parks its lanes
with code 0x41 and stops the team.
Log entry 59 says what the model does where the spec leaves a point open. -/
def Obligations.DebugWords : Prop :=
  (∀ s t g sa sd, UniReady s t g → storesOpen s t g = true →
    exec (.mark sa) s = .next (setTeam s s.cur.team (hold s t (.retry .mark))) ∧
    exec (.hashrd sd) s = .next (setTeam (setTeam s s.cur.team t) s.cur.team (hold s t (.retry .mark)))) ∧
  (∀ s t g sa, UniReady s t g → storesOpen s t g = false → exec (.mark sa) s = (
    let header := fun (kind : BitVec 8) => traceHeader s kind.toNat t.info.ctx t.core (recordSlot t g) g.warp g.pc
    let s1 := traceRecord s (header 1 ++ (bytesOf 8 (warpOf t g.warp).storehash.toNat ++ bytesOf 8 (sreg t g sa).toNat ++
      bytesOf 8 (t.info.lq * 2 ^ 32 + t.info.recNo.toNat) ++ bytesOf 4 t.info.index))
    let s2 := if replaying s1 then compareMark s1 t g (sreg t g sa) header else s1
    .next (modTeam s2 s2.cur.team (advance s2)))) ∧
  (∀ s t g sd, UniReady s t g → storesOpen s t g = false →
    exec (.hashrd sd) s = uniWrote s t g sd (warpOf t g.warp).storehash) ∧
  (∀ s t g, UniReady s t g → exec .sample s = wentOn s (modGroup t g.gid (fun x => { x with mark := true }))) ∧
  (∀ s t g, UniReady s t g → exec .brk s = .next (trapLanes
    (setTeam s s.cur.team (stopTeam s.gtick t (laneMask g.lanes) 0 0xFFFF)) s.cur.team g 2
    (g.lanes.map (fun l => (l.2, { code := 0x41, addr := 0, info := 0, flags := 0, order := 0 }))))) ∧
  (∀ now t mask, t.brk = none → (stopTeam now t mask 0 0xFFFF).brk = some (mask.toNat, 0, 0xFFFF, now)) ∧
  (∀ s t g label header, findMark s t g label = none → (compareMark s t g label header).gatesOpen = true) ∧
  (∀ s t g label header i, findMark s t g label = some i →
    memNat s ((regGet s 0x30098).toNat + 64 * i + 24) 8 = (warpOf t g.warp).storehash.toNat →
    compareMark s t g label header = { s with marksUsed := nadd s.marksUsed i }) ∧
  (∀ s body, (let cap := (regGet s 0x30008).toNat % 2 ^ 32
    let head := (regGet s 0x30010).toNat
    readyBit s 44 = true → powerBetween cap 64 (2 ^ 24) = true → (regGet s 0x30008).getLsbD 32 = true →
    (head + 2 ^ 64 - (regGet s 0x30018).toNat) % 2 ^ 64 ≠ cap → body.length = 64 →
    traceRecord s body = regSet (memWrite s ((regGet s 0x30000).toNat + 64 * (head % cap)) body) 0x30010
      (BitVec.ofNat 64 (head + 1))))

/-! ### Engines and launches (R102, R131, R143, R152, R154 to R161, R170 to R186, R303, R332, R408, R451 to R453) -/

/-- R152, R170, R177, R178, R179, R180, R182 to R185, R441: the class step of a running operation moves its unit, whose bytes are
then to be counted. A CPY unit or a GAT row within one line of plain memory goes between memory and scratchpad or a queue: QSTORE
pops its entries, QLOAD and GATHERQ push them, a GAT row lies where the unit's index says. A KVS unit pushes the tile of its page in
runs of 32 entries; a DEC unit writes a tile of the frame and its status word; a COL unit whose peers' segments have all come writes
what they come to; SSU copies the bytes of a state, between two ring slots with their position key.
Log entries 49 to 51 say what the model does where the spec leaves a point open. -/
def Obligations.EngineUnits : Prop :=
  (∀ s o, opOf s s.cur.arg.op = some o → o.phase = .running → (ctxOf s o.ctx).stat = 0 →
    ∀ i eng op, (i, eng, op) ∈ [(Instr.cpyLoad, 0, 1), (.cpyStore, 0, 2), (.cpyQstore, 0, 3), (.cpyQload, 0, 4), (.gatGather, 1, 1),
      (.gatGatherq, 1, 2), (.gatScatter, 1, 3), (.kvsStreamk, 2, 1), (.kvsStreamvt, 2, 2), (.decDecode, 3, 1),
      (.colAllreduce, 4, 1), (.colReducescatter, 4, 2), (.colAllgather, 4, 3), (.ssuCopy, 5, 1)] →
    o.eng = eng → cmdOp o.cmd = op → exec i s = .next (stepOp s o)) ∧
  (∀ s o row c off pa leaf k va n spots, opOf s s.cur.arg.op = some o → o.phase = .running → (ctxOf s o.ctx).stat = 0 →
    o.eng = 0 → (cmdOp o.cmd, k) ∈ [(1, Kind.read), (2, .write)] → fieldsOk o = true → o.done = 0 →
    c < (cmdWord o 12 + 4095) / 4096 → o.unit = row * ((cmdWord o 12 + 4095) / 4096) + c →
    va = (cmdLong o 16 + row * cmdLong o 24 + 4096 * c) % 2 ^ 64 →
    offPlus (cmdOff o 32) (row * cmdWord o 36 + 4096 * c) = some off → n = min 4096 (cmdWord o 12 - 4096 * c) →
    va % 128 + n ≤ 128 → translate s o.core o.ctx (BitVec.ofNat 64 va) k o.priv = .ok leaf → leaf.phys va = pa →
    placeOf s pa = .near → leaf.checked = false → leaf.recorded = false →
    s.poison = [] → MemoryCanonical s → (∀ e ∈ s.squares, e.2.shadow = none) → ScratchCanonical s →
    spots = spotsFor s o.team off 0 n → (spots.map (·.2)).sum = n →
    (∀ x ∈ spots, x.1.chk = false ∧ (tget s.teams x.1.team).isSome ∧ (cmdOp o.cmd = 2 → present s x.1 x.2 = true) ∧
      scratchPoisoned s x.1.team x.1.pos x.2 = false) →
    (spots.flatMap (fun x => (List.range x.2).map (fun i => (x.1.team, x.1.pos + i)))).Nodup →
    (let inScratch := fun s => spots.flatMap (fun x => scratchBytes s x.1.team x.1.pos x.2)
     ∃ s' o', exec (if cmdOp o.cmd = 1 then .cpyLoad else .cpyStore) s = .next s' ∧ opOf s' o.id = some o' ∧
      o'.phase = .unitDone ∧ o'.bytes = n ∧ o'.unit = o.unit ∧
      (cmdOp o.cmd = 1 → inScratch s' = memRead s pa n ∧ ∀ a, memByte s' a = memByte s a) ∧
      (cmdOp o.cmd = 2 → inScratch s' = inScratch s ∧ ∀ a, memByte s' a = withBytes (memByte s) pa (inScratch s) a))) ∧
  (∀ s o row c va n pa key q got s1, OpRuns s o 0 3 → SlicesRest s → o.done = 0 →
    c < (cmdWord o 12 + 4095) / 4096 → o.unit = row * ((cmdWord o 12 + 4095) / 4096) + c →
    va = (cmdLong o 16 + row * cmdLong o 24 + 4096 * c) % 2 ^ 64 → n = min 4096 (cmdWord o 12 - 4096 * c) →
    n % 4 = 0 → opLine s o .write va n = some pa → QueueServes s o (cmdOff o 32) key q → myTurn q.poppers (opWaiter o) = true →
    n / 4 ≤ occupancy q → ringPresent s key q q.head.toNat (n / 4) = true →
    popEntries s key q (opWaiter o) (errorUnit o) (n / 4) = (got, s1) →
    UnitMoves s o .cpyQstore n (withBytes (memByte s) pa (got.flatMap (fun e => bytesOf 4 e.1.toNat))) (scratchByte s1)
      s1.queues) ∧
  (∀ s o row c va n pa key q s1, OpRuns s o 0 4 → SlicesRest s → o.done = 0 →
    c < (cmdWord o 12 + 4095) / 4096 → o.unit = row * ((cmdWord o 12 + 4095) / 4096) + c →
    va = (cmdLong o 16 + row * cmdLong o 24 + 4096 * c) % 2 ^ 64 → n = min 4096 (cmdWord o 12 - 4096 * c) →
    n % 4 = 0 → opLine s o .read va n = some pa → QueueServes s o (cmdOff o 32) key q → myTurn q.pushers (opWaiter o) = true →
    n / 4 ≤ q.cap - occupancy q → s1 = pushEntries s key q (opWaiter o) (entryList (memRead s pa n) o.clk) →
    UnitMoves s o .cpyQload n (memByte s) (scratchByte s1) s1.queues) ∧
  (∀ s o ix va n pa off, OpRuns s o 1 1 → SlicesRest s → ScratchRest s → o.done = 0 → RowIndex s o ix →
    va = (cmdLong o 16 + ix * cmdLong o 24) % 2 ^ 64 → n = cmdWord o 12 → 0 < n → opLine s o .read va n = some pa →
    offPlus (cmdOff o 40) (o.unit * n) = some off → SpotsPlain s (spotsFor s o.team off 0 n) n →
    UnitMoves s o .gatGather n (memByte s) (afterSpots (spotsFor s o.team off 0 n) (memRead s pa n) (scratchByte s)) s.queues) ∧
  (∀ s o ix va n pa key q s1, OpRuns s o 1 2 → SlicesRest s → ScratchRest s → o.done = 0 → RowIndex s o ix →
    va = (cmdLong o 16 + ix * cmdLong o 24) % 2 ^ 64 → n = cmdWord o 12 → 0 < n → n % 4 = 0 →
    opLine s o .read va n = some pa → QueueServes s o (cmdOff o 40) key q → myTurn q.pushers (opWaiter o) = true →
    n / 4 ≤ q.cap - occupancy q → s1 = pushEntries s key q (opWaiter o) (entryList (memRead s pa n) o.clk) →
    UnitMoves s o .gatGatherq n (memByte s) (scratchByte s1) s1.queues) ∧
  (∀ s o ix va n pa off, OpRuns s o 1 3 → SlicesRest s → ScratchRest s → o.done = 0 → RowIndex s o ix →
    va = (cmdLong o 16 + ix * cmdLong o 24) % 2 ^ 64 → n = cmdWord o 12 → 0 < n → opLine s o .write va n = some pa →
    offPlus (cmdOff o 40) (o.unit * n) = some off → SpotsPlain s (spotsFor s o.team off 0 n) n →
    spadReady s (spotsFor s o.team off 0 n) = true →
    UnitMoves s o .gatScatter n (withBytes (memByte s) pa (spotBytes s (spotsFor s o.team off 0 n))) (scratchByte s) s.queues) ∧
  (∀ s o s0 o0 key q, ∀ x ∈ [(Instr.kvsStreamk, 1), (.kvsStreamvt, 2)], OpRuns s o 2 x.2 → o.done = 0 →
    (if o.data = [] then kvsReach s o = (s0, o0) else (s0, o0) = (s, o)) → o0.data.length = kvsTile o → 0 < kvsTile o →
    QueueServes s0 o (cmdOff o 28) key q → isBound s0 key = true → (∀ y ∈ q.pushers, y = opWaiter o) → q.cap ≤ 65536 →
    kvsTile o / 4 ≤ q.cap - occupancy q →
    (let s1 := pushRuns key (opWaiter o) (kvsTile o) (entryList o0.data o.clk) s0
     UnitMoves s o x.1 (kvsTile o) (memByte s0) (scratchByte s1) s1.queues)) ∧
  (∀ s o e p slot l hb i, o.eng = 2 → cmdOp o.cmd = 1 → s.poison = [] → e = seqEntry s (kvsSeq o) → o.aux = [l, hb, 0] →
    slot = cmdWord o 20 / 16 + o.unit → pageAt s e (cmdWord o 16) slot = some p → pageGet s p 117 2 ≠ 3 → i < 16 * hb →
    (kvsReach s o).2.data.getD i 0 =
      if i / hb < l - 16 * slot then memByte s (pagePa s p + 16 * hb * kvsHead o + i) else 0) ∧
  (∀ s o n t frame code left d f, OpRuns s o 3 1 → ScratchRest s → o.aux = [n, t, frame, code] ++ left → left ≠ [] →
    d = decOf s (o.inst / 4) (decCtx o) → f = av1Of (decLow o) d.state o.data →
    t = decTileBytes o → (∀ k ∈ left, TilePlain s o t k) →
    ∃ k ∈ left, UnitMoves s o .decDecode t (memByte s) (afterTile s o f d.state o.data t frame code k (scratchByte s)) s.queues) ∧
  (∀ s o l d st f n t, OpRuns s o 3 1 → SlicesRest s → ScratchRest s → o.aux = [] → o.buf = [] →
    opSpan s o .read (cmdLong o 16) (cmdWord o 24) = some l →
    d = (if decNewseq o then DecStream.fresh (o.inst / 4) (decCtx o) else decOf s (o.inst / 4) (decCtx o)) → st = d.state →
    f = av1Of (decLow o) st (pieceBytes s l) → f.kind = 0 → n = (decTiles f).length → 0 < n → t = decTileBytes o →
    blockFault s o.team (cmdOff o 40) 0 (n * t) = false → blockFault s o.team (cmdOff o 44) 0 (4 * n) = false →
    (∀ k < n, TilePlain s o t k) →
    ∃ k < n, ∃ code, (code = 0 ∨ code = 2) ∧ UnitMoves s o .decDecode t (memByte s)
      (afterTile s o f st (pieceBytes s l) t d.shown code k (scratchByte s)) s.queues) ∧
  (∀ s o own l, ∀ x ∈ [(Instr.colAllreduce, 1), (.colReducescatter, 2), (.colAllgather, 3)], OpRuns s o 4 x.2 → SlicesRest s →
    o.aux ≠ [] → colWaits o = false → o.buf = [] → o.put = 0 →
    opSpan s o .read (cmdLong o 24 + ((if x.2 = 2 then colRank o * colPer o else 0) + (colSegment o).1) * colSize o)
      ((colSegment o).2 * colSize o) = some l → own = pieceBytes s l →
    ∀ ws : List (List (Nat × Nat) × List Byte),
      (colWrites o own).map (fun w => (opSpan s o .write w.1 w.2.length, w.2)) = ws.map (fun w => (some w.1, w.2)) →
      UnitMoves s o x.1 0 (ws.foldl (fun seen w => afterPieces w.1 w.2 seen) (memByte s)) (scratchByte s) s.queues) ∧
  (∀ s o a b dst src, OpRuns s o 5 1 → s.poison = [] → MemoryCanonical s → a = ssuSide o 12 → b = ssuSide o 20 →
    src = ssuSource s a → dst = (if b.2.2 = 255 then workAddr (seqEntry s b.1) b.2.1 else snapAddr (seqEntry s b.1) b.2.1 b.2.2) →
    ((a.2.2 = 255 ∨ b.2.2 = 255) → (b.2.2 = 255 → lhWref (layerHead s (seqEntry s b.1) b.2.1) = false) →
      UnitMoves s o .ssuCopy (cmdWord o 28) (withBytes (memByte s) dst (memRead s src (cmdWord o 28))) (scratchByte s) s.queues) ∧
    (a.2.2 < 64 → b.2.2 < 64 →
      (let s1 := memWrite s dst (memRead s src (cmdWord o 28))
       let key := shPos (slotHead s1 (seqEntry s1 a.1) a.2.1 a.2.2)
       let place := blockAddr (seqEntry s b.1) b.2.1 + 512 + 8 * b.2.2
       UnitMoves s o .ssuCopy (cmdWord o 28)
        (withBytes (withBytes (memByte s) dst (memRead s src (cmdWord o 28))) place
          (bytesOf 8 (putBits (memNat s1 place 8) 0 28 key))) (scratchByte s) s.queues)))

/-- R102, R131, R143, R152, R170, R171, R177, R186, R441, R451, R453: an engine takes its cores' commands each in its order; a
finished unit counts its bytes down or, after the last one, increments the counter by 1; an operation that ends in error leaves
the machine and is counted; stalled operations resume; a collective keeps each peer's segment and ends where none comes in time;
a checkpoint saves the running contexts, copies near memory and brings them back.
Log entries 49 to 54 and 74 say what the model does where the spec leaves a point open. -/
def Obligations.EngineEvents : Prop :=
  (∀ s o, nextTake s s.cur.arg.eng s.cur.arg.inst = some o → exec .engineCommandTake s = (
    let o' := { o with inst := s.cur.arg.inst, phase := .running, since := s.gtick }
    let s1 := { s with rotation := tset s.rotation (4096 * o.eng + s.cur.arg.inst) o.core }
    let s2 := if o.eng = 3 then
        setDec s1 { decOf s1 (s.cur.arg.inst / 4) (decCtx o) with engine := some s.cur.arg.inst } else s1
    .next (pumpRequests o.core 4096 (startOp (setOp s2 o') o')))) ∧
  (∀ s eng inst o, nextTake s eng inst = some o → o.eng = eng ∧ o.phase = .queued ∧ feeds eng inst o.core = true ∧
    (ctxOf s o.ctx).stat = 0 ∧ engineReady s eng inst = true ∧ (s.ops.filter (fun x => x.core == o.core && x.eng == eng && x.phase == .queued)).head? = some o) ∧
  (∀ s s1 t g rep sa id, waitingInstr s s.cur.arg.team s.cur.arg.gid = some (.pushw sa id, s1) → UniReady s1 t g →
    id.toNat < 7 → (id.toNat = 6 → g.handler = true) → representative t g = some rep → queueFull s1 t.core id.toNat = false →
    exec .pushwAccept s = (
      let s2 := forkOne s1 g rep.2 id.toNat (cmdRegs (warpOf t g.warp) sa.toNat)
      .next (modTeam s2 s2.cur.team (advance s2)))) ∧
  (∀ s o, opOf s s.cur.arg.op = some o → o.phase = .unitDone → exec .engineUnitDone s = .next (unitEnd s o)) ∧
  (∀ s o, opOf s o.id = some o → o.eng = 0 → o.unit + 1 < (opShape o).1 → (∀ y ∈ o.lines, y.2.2 ≠ 0) → cmdCk o.cmd = false →
    unitEnd s o = setOp (countDown s o (some o.bytes) 0)
      { o with unit := o.unit + 1, done := 0, bytes := 0, phase := .running, put := 0, since := s.gtick }) ∧
  (∀ s o p n corrupt, resolve s o.team (cmdOff o 4) 16 = .ok p → p.chk = false → (tget s.teams p.team).isSome →
    ScratchCanonical s → scratchPoisoned s p.team p.pos 16 = false → p.pos % 16 = 0 → ¬(n = 0 ∧ corrupt = 0) →
    (let word := fun (s : State) d => ofBytes (scratchBytes s p.team (p.pos + d) 4)
     word (countDown s o (some n) corrupt) 4 = word s 4 - n ∧
     word (countDown s o (some n) corrupt) 8 = (word s 8 + corrupt) % 2 ^ 32 ∧
     word (countDown s o none corrupt) 4 = 0 ∧ word (countDown s o (some n) corrupt) 0 = word s 0)) ∧
  (∀ s o leaf pa, opOf s o.id = some o → o.eng = 0 → o.unit + 1 = (opShape o).1 → cmdCk o.cmd = true → cmdCompl o.cmd % 4 = 0 →
    translate s o.core o.ctx (BitVec.ofNat 64 (cmdCompl o.cmd)) .rmw o.priv = .ok leaf → leaf.phys (cmdCompl o.cmd) = pa →
    placeOf s pa = .near → leaf.checked = false → leaf.recorded = false → s.poison = [] → MemoryCanonical s →
    (∀ e ∈ s.squares, e.2.shadow = none) →
    opOf (unitEnd s o) o.id = none ∧ memNat (unitEnd s o) pa 4 = (memNat s pa 4 + 1) % 2 ^ 32) ∧
  (∀ s o code addr, o.eng < 7 → (replaying s = false → opOf (failOp s o code addr) o.id = none) ∧
    opOf (voidOp s o) o.id = none ∧
    (engError s o code addr).crHead = s.crHead + 1 ∧
    (regGet (engError s o code addr) (0x80110 + 8 * o.eng)).toNat =
      min ((regGet s (0x80110 + 8 * o.eng)).toNat + 1) (2 ^ 64 - 1)) ∧
  (∀ s o, opOf s s.cur.arg.op = some o → o.phase = .stalled →
    exec .engineQueueResume s = .next (setOp s { o with phase := .running })) ∧
  (∀ s o v n, opOf s s.cur.arg.op = some o → o.eng = 4 → colWaits o = true → v = (regGet s 0x80378).toNat → v ≠ 2 ^ 64 - 1 →
    n = (if v = 0 then 2 ^ 34 else v) →
    exec .colPeerTimeout s = .next (if o.since + n ≤ s.gtick then failOp s o 4 (cmdLong o 16) else s)) ∧
  (∀ s o r, opOf s s.cur.arg.op = some o → o.eng = 4 → o.phase = .running ∨ o.phase = .stalled →
    (colIds o).findIdx? (· == s.cur.arg.peer) = some r → r ≠ colRank o → r ∉ colHeard o →
    (s.cur.arg.data.length = (colSegment o).2 * colSize o → ∃ s' o', exec .colSegmentArrival s = .next s' ∧
      opOf s' o.id = some o' ∧ o'.aux = o.aux ++ [r] ∧ o'.data = o.data ++ s.cur.arg.data) ∧
    (s.cur.arg.data.length ≠ (colSegment o).2 * colSize o →
      exec .colSegmentArrival s = .next (failOp s o 4 (cmdLong o 16)))) ∧
  (∀ s o cs dest, opOf s s.cur.arg.op = some o → o.eng = 6 → o.phase = .running → o.unit = 0 → o.aux = [] → cs = quiesced s →
    dest = cmdLong o 12 →
    (ckpBlocked s = true → exec .ckpCheckpoint s = .next (failOp s o 3 0)) ∧
    (ckpBlocked s = false → (∀ c ∈ cs, saveReady s c = true) → exec .ckpCheckpoint s = (
      let s1 := writeNear (cs.foldl (fun s c => saveContext (beginSave s c) c) s) dest
      let s2 := cs.foldl restoreNow (if (cmdWord o 20).testBit 0 then writeArrays s1 dest else s1)
      .next (modOp s2 o.id (fun y => { y with
        aux := 1 :: cs, phase := if cs.all (fun c => (ctxOf s2 c).stat == 0) then .unitDone else .running }))))) ∧
  (∀ s dest a, s.poison = [] → MemoryCanonical s →
    (dest ≤ a → a < dest + nearEnd s → farUp s a = true → memByte (writeNear s dest) a = memByte s (a - dest)) ∧
    (a < dest ∨ dest + nearEnd s ≤ a → memByte (writeNear s dest) a = memByte s a))

/-- R18 to R20, R36, R97, R154, R156 to R161, R303, R332, R355, R356, R408: the dispatcher reads the record at a queue's head
and turns a bad one away, counted and completed; a wait condition that has held stays held; the queue of the highest priority
that can places the teams of a cluster, on distinct cores of one core cluster in their initial state; a team retires with its
last thread, and its launch then has one team fewer.
Log entries 56 to 58 and 94 say what the model does where the spec leaves a point open. -/
def Obligations.LaunchEvents : Prop :=
  (∀ s s1 t g sd sa sb q n page size flags, waitingInstr s s.cur.arg.team s.cur.arg.gid = some (.launch sd sa sb, s1) →
    UniReady s1 t g → g.wait = .publish q n page size flags → canPublish s1 q n = true → exec .launchPublish s = (
      let leaf : Leaf := { pa := page, size := size, flags := flags }
      let r := coreRead (setTeam s1 s1.cur.team t) t.core leaf (leaf.phys (sreg t g sa).toNat) 64 0 0 false false
      .next (publish r.2 g sd q n r.1.1))) ∧
  (∀ s q ctx s0 r w, q = s.cur.arg.lq → headDue s q = true → ctx = queueCtx s q →
    s0 = consumeAt (unitOf 1 (homeSlice (lqSlot s q (lqOf s q).head))) s (lqSlot s q (lqOf s q).head) 64 →
    r = { raw := BitVec.ofNat 512 (memNat s (lqSlot s q (lqOf s q).head) 64) } → w = windowTable s0 ctx (recEntry r) →
    (w.1 = none ∨ condWords w.2 ctx r 4 = none → exec .launchRecordHead s = .next (rejectRecord w.2 q r 0x80388)) ∧
    (∀ ws conds b, w.1 = some ws → condWords w.2 ctx r 4 = some conds → b = bindingTable w.2 ctx (recCbtp r) →
      (recordBad r ws = true → exec .launchRecordHead s = .next (rejectRecord w.2 q r 0x80388)) ∧
      (recordBad r ws = false → b.1 = none → exec .launchRecordHead s = .next (rejectRecord b.2 q r 0x80108)) ∧
      (recordBad r ws = false → b.1 ≠ none → recTeams r ≠ 0 → q < 64 →
        ∃ s', exec .launchRecordHead s = .next s' ∧ s'.nextLaunch = s.nextLaunch + 1 ∧
          (∃ l, tget s'.launches s.nextLaunch = some l ∧ l.left = recTeams r ∧ l.lq = q ∧ l.recNo = (lqOf s q).head) ∧
          (lqOf s' q).headRec = some
            { record := r, conds := conds.map (fun c => (c.1, c.2.1, condMet b.2 c)), windows := ws, placed := 0,
              launch := s.nextLaunch }))) ∧
  (∀ s q r counter, (lqOf (rejectRecord s q r counter) q).head = (lqOf s q).head + 1 ∧
    (lqOf (rejectRecord s q r counter) q).headRec = none) ∧
  (∀ s h, (lqOf s s.cur.arg.lq).headRec = some h → recTeams h.record ≠ 0 → ∃ s' h', exec .launchWaitConditionHolds s = .next s' ∧
    (lqOf s' s.cur.arg.lq).headRec = some h' ∧ h'.record = h.record ∧ h'.placed = h.placed ∧ h'.conds.length = h.conds.length ∧
    ∀ i c, h.conds[i]? = some c →
      h'.conds[i]? = some (c.1, c.2.1, c.2.2 || (i == s.cur.arg.wc && decide (
        ((BitVec.ofNat 8 (testWord s c.1).toNat) - c.2.1).toNat < 128)))) ∧
  (∀ s q h0 p h m cores b, q = s.cur.arg.lq → (lqOf s q).headRec = some h0 → placeDue s q = true →
    queueOrder.find? (placeReady s) = some q → p = placeHead s q h0 → h = p.1 →
    m = min (recClsz h.record) (recTeams h.record - h.placed) → clusterCores p.2 h.record h.windows m = some cores →
    b = bindingTable p.2 (queueCtx p.2 q) (recCbtp h.record) →
    (b.1 = none → exec .teamPlace s = .next (stopPlacing b.2 q h)) ∧
    (∀ cbt, b.1 = some cbt → exec .teamPlace s = (
      let s1 := (cores.zip (List.range m)).foldl (fun s x => placeOn s q h cbt (h.placed + x.2) x.1) b.2
      .next (if h.placed + m = recTeams h.record then advanceHead s1 q
        else modLq s1 q (fun x => { x with headRec := some { h with placed := h.placed + m } }))))) ∧
  (∀ s, queueOrder.find? (placeReady s) ≠ some s.cur.arg.lq → exec .teamPlace s = .next s) ∧
  (∀ s q h ws s1, windowTable s (queueCtx s q) (recEntry h.record) = (some ws, s1) → recordBad h.record ws = false →
    placeHead s q h = ({ h with windows := ws }, s1)) ∧
  (∀ s r ws m cores, clusterCores s r ws m = some cores → cores.length = m ∧ cores.Nodup ∧
    ∃ k < 96, ∀ c ∈ cores, c / 8 = k ∧ fitsCore s r ws c = true) ∧
  (∀ s q h cbt i core, fitsCore s h.record h.windows core = true → recNthr h.record ≤ 2048 → ∃ k t,
    tget (placeOn s q h cbt i core).teams k = some t ∧ k / 128 = core ∧ t.core = core ∧ t.cbt = cbt ∧ t.windows = h.windows ∧
    t.info.index = i ∧ t.info.entry = BitVec.ofNat 56 (recEntry h.record) ∧
    (∀ g ∈ t.groups, g.pc = BitVec.ofNat 56 (recEntry h.record) ∧ g.formation = false ∧ g.wait = .none) ∧
    ∀ j < recNthr h.record, (threadOf t j).live = true ∧ (threadOf t j).helper = false ∧ laneReg t j 0 = BitVec.ofNat 32 j) ∧
  (∀ s k t, k = s.cur.arg.team → tget s.teams k = some t → retirable s k t = true →
    (tget s.launches t.info.launch = none → exec .teamRetire s = .next (dropTeam s k t)) ∧
    (∀ l, tget s.launches t.info.launch = some l → exec .teamRetire s = .next (tryComplete
      { dropTeam s k t with launches := tset s.launches t.info.launch { l with left := l.left - 1 } } t.info.launch))) ∧
  (∀ s id l, tget s.launches id = some l →
    (l.left ≠ 0 → tryComplete s id = s) ∧
    (l.left = 0 → tryComplete s id =
      completion { s with launches := tdel s.launches id } l.ctx l.compl.toNat l.rsys l.lq l.recNo l.cores)) ∧
  (∀ s ctx compl rsys lq n cores leaf pa, (∀ c ∈ cores, ∀ e ∈ (coreOf s c).l1, e.2.dirty = false) → compl ≠ 0 → compl % 4 = 0 →
    translate s 768 ctx (BitVec.ofNat 64 compl) .rmw true = .ok leaf → leaf.phys compl = pa → placeOf s pa = .near →
    leaf.checked = false → s.poison = [] → MemoryCanonical s → (∀ e ∈ s.squares, e.2.shadow = none) →
    memNat (completion s ctx compl rsys lq n cores) pa 4 = (memNat s pa 4 + 1) % 2 ^ 32)

/-! ### Events of the cores and contexts (R28, R31, R33, R35, R40, R103, R138, R144, R147, R151, R163 to R165, R169, R213, R287,
R374, R375, R379, R387, R405, R438 to R447) -/

/-- R28, R31, R33, R35, R94, R103, R138, R144, R147, R151, R163, R164, R169, R213, R287, R379, R387, R405: a bin that is due is
drawn while the slice has room, of all teams' bins the expired before the full and the oldest first, spawn bins form at their
time, the load allowance follows the victim hits, an evicted line's dirty bytes reach memory, the TLB takes what a walk has found,
and answers, verdicts, polls, time-outs, grants and traps end what waits on them.
Log entries 6, 10 and 31 say what the model does where the spec leaves a point open. -/
def Obligations.CoreEvents : Prop :=
  (∀ s t core slice, tget s.teams s.cur.arg.team = some t → core = t.core → slice = s.cur.arg.slice →
    (∀ k b, dueBin s core slice = some (k, b) →
      (let drawn := if 32 ≤ formationCount s core slice then s else modTeam s k (fun t => drawBin s.gtick t b)
       exec .formationDraw s = .next drawn ∧
       ((∃ x ∈ t.bins, x.slice = slice ∧ x.key = BitVec.ofNat 56 s.cur.arg.key ∧ binExpired s.gtick t x = true) →
         exec .binTimerExpiry s = .next drawn))) ∧
    (dueBin s core slice = none → exec .formationDraw s = .next s)) ∧
  (∀ s core slice k b, dueBin s core slice = some (k, b) → ∃ t, (k, t) ∈ runningTeams s core ∧ b ∈ t.bins ∧ b.slice = slice ∧
    ((binSince b + binTimer t ≤ s.gtick ∧
        ∀ y ∈ runningTeams s core, ∀ x ∈ y.2.bins, x.slice = slice → binSince x + binTimer y.2 ≤ s.gtick → binSince b ≤ binSince x) ∨
      (32 ≤ b.filed.length ∧ ∀ y ∈ runningTeams s core, ∀ x ∈ y.2.bins, x.slice = slice →
        s.gtick < binSince x + binTimer y.2 ∧ (32 ≤ x.filed.length → binSince b ≤ binSince x)))) ∧
  (∀ now t b, ∃ g, (drawBin now t b).groups = t.groups ++ [g] ∧ g.formation = true ∧ g.slice = b.slice ∧ g.pc = b.key ∧
    g.lanes.map (·.2) = (b.filed.take 32).map (·.1) ∧ g.lanes.map (·.1) = List.range g.lanes.length ∧ g.formed = now) ∧
  (∀ s k t b, k = s.cur.arg.team → tget s.teams k = some t →
    t.spawnBins.find? (fun b => b.key == BitVec.ofNat 56 s.cur.arg.key) = some b →
    exec .spawnBinTimerExpiry s = .next (if b.opened + binTimer t ≤ s.gtick then formSpawn s k b else s)) ∧
  (∀ s, (s.gtick / 4096 ≤ (coreOf s s.cur.arg.core).window → exec .loadAllowanceUpdate s = .next s) ∧
    ((coreOf s s.cur.arg.core).window < s.gtick / 4096 → ∃ s', exec .loadAllowanceUpdate s = .next s' ∧
      (let c := coreOf s s.cur.arg.core
       let c' := coreOf s' s.cur.arg.core
       c'.hits = 0 ∧ c'.window = s.gtick / 4096 ∧
         ∀ i < 4, c.allowance.getD i 32 ∈ [2, 4, 8, 16, 32] → c'.allowance.getD i 32 =
          (if 512 ≤ c.hits then max 2 (c.allowance.getD i 32 / 2)
           else if c.hits < 128 then min 32 (2 * c.allowance.getD i 32) else c.allowance.getD i 32)))) ∧
  (∀ s core line, core = s.cur.arg.core → line = l1Victim (coreOf s core) s.cur.arg.line → MemoryCanonical s →
    risingFrom 0 (coreOf s core).l1 = true → (∃ e ∈ (coreOf s core).l1, e.1 / 128 = line) →
    ∃ s', exec .l1Eviction s = .next s' ∧
      (∀ e, e ∈ (coreOf s' core).l1 ↔ e ∈ (coreOf s core).l1 ∧ e.1 / 128 ≠ line) ∧
      (∀ e ∈ (coreOf s core).l1, e.1 / 128 = line → e.2.dirty = true → placeOf s (128 * line) = .near → memByte s' e.1 = e.2.val) ∧
      (coreOf s' core).victims.head? = some line ∧ (coreOf s' core).victims.length ≤ 1024) ∧
  (∀ c line, l1Victim c line = line ∨ (∃ e ∈ c.l1, e.1 / 128 = l1Victim c line) ∧
    Config.l1Set (l1Victim c line) = Config.l1Set line ∧ leavesBefore (cget plainLine c.lines (l1Victim c line))
      (cget plainLine c.lines line) = true) ∧
  (∀ s, exec .pageWalkComplete s = .next (tlbFill s s.cur.arg.core s.cur.arg.ctx s.cur.arg.va)) ∧
  (∀ s core ctx va l, leafOf s core ctx va = .ok (l, false) → (coreOf (tlbFill s core ctx va) core).tlb.head? =
    some { ctx := ctx, va := va / l.size * l.size, size := l.size, pa := l.pa, flags := l.flags }) ∧
  (∀ s core r, core = s.cur.arg.core → r.sampled = false →
    (coreOf s core).reqs.find? (fun x => x.id == s.cur.arg.req && x.store == r.store) = some r →
    exec (if r.store then .writeAcknowledgement else .loadDataReturn) s =
      .next (let s1 := modCore s core (fun c => { c with reqs := c.reqs.erase r })
        modTeam s1 r.team (fun t => { t with groups := t.groups.map (scoreOver s.gtick r.team (coreOf s1 core)) }))) ∧
  (∀ now k c g r, g.wait = .score r →
    (requestWrites c k g.lanes (0, r) = false →
      scoreOver now k c g = { g with wait := .none, next := now + 2, ready := now + 2 }) ∧
    (requestWrites c k g.lanes (0, r) = true → scoreOver now k c g = g)) ∧
  (∀ s t g, tget s.teams s.cur.arg.team = some t → groupOf t s.cur.arg.gid = some g →
    (g.wait = .verdict → ∃ s' t', exec .raceVerdictReturn s = .next s' ∧ tget s'.teams s.cur.arg.team = some t' ∧
      groupOf t' g.gid = some { g with wait := .none, ready := s.gtick }) ∧
    (∀ all mask sat ws d e, g.wait = .slots all mask sat ws (some d) e → d ≤ s.gtick → waitEnds all mask sat = false →
      ∃ s' t', exec .waitTimeout s = .next s' ∧ tget s'.teams s.cur.arg.team = some t' ∧
        groupOf t' g.gid = some { g with wait := .slots all mask sat ws (some d) true }) ∧
    (∀ a b c, g.wait = .port a b c → ∃ s' t', exec .queuePortResume s = .next s' ∧ tget s'.teams s.cur.arg.team = some t' ∧
      groupOf t' g.gid = some { g with next := s.gtick, ready := 0 })) ∧
  (∀ s, exec .trapEntry s = .next (settleQuartets (takeTraps s.cur.arg.team trapFuel s))) ∧
  (∀ s k t, tget s.teams k = some t → nextTrap t = none → takeTraps k trapFuel s = s) ∧
  (∀ s, ∃ s', exec .matrixResult s = .next s' ∧ (coreOf s' s.cur.arg.core).array = none) ∧
  (∀ s m, m ∈ s.monitors → m.polled = true → m.poll ≤ s.gtick → m.team = s.cur.arg.team → m.gid = s.cur.arg.gid →
    ∃ s', exec .monitorPoll s = .next s' ∧ m ∉ s'.monitors ∧ (monitorHolds m (testWord s m.pa) = false →
      { m with polled := false } ∈ s'.monitors ∨ { m with poll := s.gtick + 3600 } ∈ s'.monitors)) ∧
  (∀ s s1 t g, waitingInstr s s.cur.arg.team s.cur.arg.gid = some (.regxAcq, s1) → UniReady s1 t g →
    quadsNeeding t g.warp ≠ [] → myTurn (regxQueue s1 t.core (g.warp % 4)) (s1.cur.team, g.gid) = true →
    blocksHeld s1 t.core (g.warp % 4) + (quadsNeeding t g.warp).length ≤ 128 →
    exec .regxAcqGrant s = wentOn (dropRegxWait s1 t.core s1.cur.team g.gid) (giveBlocks t (quadsNeeding t g.warp))) ∧
  (∀ s t slice, slice = s.cur.arg.slice → replaying s = true → s.gatesOpen = false →
    (logOf s slice).gateChunk < (regGet s (0x30400 + 8 * slice)).toNat → (logOf s slice).gateSince = some t →
    t + repTimeout s ≤ s.gtick → ∃ s', exec .replayGateTimeout s = .next s' ∧ s'.gatesOpen = true)

/-- R40, R165, R221, R374, R375, R438 to R447, R449: a save begins and ends with its teams in the save area, a restore brings
back every record at once, a breakpoint's team leaves its core and DBGRES brings it back or ends it, and at the end of a residency
quantum warps change places.
Log entries 60 to 65 say what the model does where the spec leaves a point open. -/
def Obligations.ContextEvents : Prop :=
  (∀ s c, c = s.cur.arg.v.toNat % 16 → busySwitching s = false →
    (let s1 := regSet s 0x80600 (BitVec.ofNat 64 c)
     ((ctxOf s c).stat = 0 → holdsSave s1 c = false → exec .prectlSave s = .next (beginSave s1 c)) ∧
     ((ctxOf s c).stat = 0 → holdsSave s1 c = true → exec .prectlSave s = .next { s1 with preSave := some c }) ∧
     ((ctxOf s c).stat ≠ 0 → exec .prectlSave s = .next s1) ∧
     ((ctxOf s c).stat = 2 → exec .prectlRestore s = .next (modCtx s1 c (fun x => { x with stat := 3 }))) ∧
     ((ctxOf s c).stat ≠ 2 → exec .prectlRestore s = .next s1))) ∧
  (∀ s c, (ctxOf (beginSave s c) c).stat = 1 ∧ (beginSave s c).preSave = none) ∧
  (∀ s c, saveDue s = some c → (ctxOf s c).stat = 1 → saveReady s c = true → exec .contextSaveComplete s = .next (saveContext s c)) ∧
  (∀ s c, (ctxOf (saveContext s c) c).stat = 2 ∧ ∀ e ∈ (saveContext s c).squares, e.2.dirty = 0) ∧
  (∀ s k status t, tget s.teams k = some t → s.teams.Pairwise (fun a b => a.1 < b.1) →
    (let s' := stowTeam s k status
     tget s'.teams k = none ∧ s'.saved.length = s.saved.length + 1 ∧
     (∀ o ∈ s'.ops, o.team = k → o.eng = 6) ∧ (∀ m ∈ s'.monitors, m.team ≠ k))) ∧
  (∀ s c, (List.range 16).find? (fun c => (ctxOf s c).stat == 3) = some c →
    (∀ s', tryRestore s c = some s' → exec .contextRestoreComplete s = .next s') ∧
    (tryRestore s c = none → exec .contextRestoreComplete s = .next s)) ∧
  (∀ s s' c, tryRestore s c = some s' → (ctxOf s' c).stat = 0) ∧
  (∀ s k t, k = s.cur.arg.team → tget s.teams k = some t → swapOutDue s k t = true →
    exec .breakpointSwapOut s = .next (breakOut s k)) ∧
  (∀ s action x i, (action, i) ∈ [(0, Instr.dbgresResume), (1, .dbgresSkip)] →
    ticketed s s.cur.arg.ticket.toNat action = some x →
    (∀ core, (seatsFor s x).findSome? (fun l => fewest s (l.filter (fitsSaved s x.team))) = some core → exec i s = (
      let k := teamKey core (freeTeamNo s core)
      let watched := match x.team.brk with
        | some b => b.2.2.1 != 0xFFFF
        | none => false
      .next (takeTraps k trapFuel (unbreak (placeSaved (freeRecord s x) x core) k watched (action == 1))))) ∧
    ((seatsFor s x).findSome? (fun l => fewest s (l.filter (fitsSaved s x.team))) = none → exec i s =
      .next { s with saved := s.saved.map (fun y => if y.key == x.key then { y with action := some action } else y) })) ∧
  (∀ s x core, ticketed s s.cur.arg.ticket.toNat 2 = some x → x.ops = [] →
    (seatsFor s x).findSome? (fun l => fewest s (l.filter (fun core => readyBit s (64 + core / 8) &&
      decide ((coreTeams s core).length < 128) && (sramPlace s core 0 0).isSome))) = some core →
    exec .dbgresKill s = .next (killTeam (placeSaved (freeRecord s x)
      { x with team := { x.team with info := { x.team.info with scrBytes := 0, tagBytes := 0 }, ext := [] } } core)
        (teamKey core (freeTeamNo s core)))) ∧
  (∀ s ticket action x, ticketed s ticket action = some x → x ∈ s.saved ∧ x.status = 3 ∧ x.ticket % 2 ^ 32 = ticket ∧
    (x.action = none ∨ x.action = some action) ∧ (ctxOf s x.ctx).stat = 0) ∧
  (∀ s, s.gtick % 65536 ≠ 0 → exec .quantumEnd s = .next s) ∧
  (∀ s, s.gtick % 65536 = 0 → exec .quantumEnd s =
    .next (let s1 := queueOrder.foldl makeRoomFor ((s.swaps.filter (fun x => x.since != s.gtick)).foldl bringIn s)
      savedRoom ((s1.teams.map (·.1)).foldl spawnRoom s1))) ∧
  (∀ s k t w, tget s.teams k = some t → ∃ t', tget (warpOut s k w).teams k = some t' ∧ (warpOf t' w).swapped = true ∧
    (∀ r, uReg (warpOf t' w) r = uReg (warpOf t w) r) ∧ (∀ tid r, laneReg t' tid r = laneReg t tid r) ∧
    ∃ x ∈ (warpOut s k w).swaps, x.team = k ∧ x.warp = w)

/-! ### The management core and the outside world (R74, R93, R221, R332, R358 to R370, R373, R378 to R381, R384, R415, R456 to R470) -/

/-- R93, R154, R221, R332, R358 to R362, R364, R365, R367 to R369, R381, R383, R459, R460, R464: bring-up goes in its order,
GO freezes the registers marked so, a write changes a register's writable bits, and each request to the management core is done:
resets, the scan of launch queues, TLB invalidation, attestation, power states, throttling and GAMREL.
Log entries 3, 66 to 68 and 73 say what the model does where the spec leaves a point open. -/
def Obligations.ManagementEvents : Prop :=
  (∀ s, exec .powerGood s = .next { s with firmware := imageAccepted (s.flash.getD Config.factoryImage) }) ∧
  (∀ l, imageAccepted l = true ↔ Config.ecdsaVerifies l = true ∧ Config.lmsVerifies l = true ∧
    Config.fusedVersion.toNat ≤ (Config.imageVersion l).toNat) ∧
  (∀ s n, n = s.cur.arg.bit →
    (canReady s n = true → ∃ s', exec .functionReady s = .next s' ∧ readyBit s' n = true) ∧
    (canReady s n = false → exec .functionReady s = .next s)) ∧
  (∀ s n, canReady s n = true → (n ≠ 0 → n < 64 → goSet s = true) ∧ (n = 0 → s.firmware = true) ∧
    (64 ≤ n → readyBit s 30 = true) ∧ (n = 30 → ∀ i < 12, readyBit s (18 + i) = true)) ∧
  (∀ s, (readyBit s 0 = true → ∃ s', exec .bootctlGo s = .next s' ∧ goSet s' = true) ∧
    (readyBit s 0 = false → ∀ i ∈ [Instr.bootctlGo, .resetFull, .resetCores, .scandataRead], exec i s = .next s)) ∧
  (∀ s off v, off = s.cur.arg.ro → v = s.cur.arg.v → (s.regs.map (·.1)).Nodup →
    (off ∈ [0x18, 0x20, 0x28, 0x30] ∨ 0x300 ≤ off ∧ off < 0x380 → goSet s = true → exec .registerWrite s = .next s) ∧
    (off % 8 = 0 → off < 0x80800 ∨ 0x80A00 ≤ off → off ≠ 0x80600 → off ≠ 0x600 → (untilGo off = true → goSet s = false) →
      ∃ s', exec .registerWrite s = .next s' ∧
        regGet s' off = (regGet s off &&& ~~~(writeMask off)) ||| (v &&& writeMask off)) ∧
    (∀ c < 16, (off = 0x80800 + 32 * c →
        exec .registerWrite s = .next (modCtx s c (fun x => { x with sbchk := v &&& 1 }))) ∧
      (off = 0x80808 + 32 * c → exec .registerWrite s = .next (modCtx s c (fun x =>
        if v.extractLsb' 0 2 = 3 then x else { x with racemode := v.extractLsb' 0 2 }))) ∧
      (off = 0x80810 + 32 * c →
        exec .registerWrite s = .next (modCtx s c (fun x => { x with trapvec := v &&& 0x00FFFFFFFFFFFFFF }))) ∧
      (off = 0x80818 + 32 * c →
        exec .registerWrite s = .next (modCtx s c (fun x => { x with traprec := v &&& 0x00FFFFFFFFFFFFFF }))))) ∧
  (∀ s, readyBit s 0 = true → MemoryCanonical s → ∃ s', exec .resetFull s = .next s' ∧ s'.teams = [] ∧ s'.ops = [] ∧
    s'.cores = [] ∧ s'.regs = [] ∧ s'.ctxs = List.replicate 16 Ctx.reset ∧ s'.gtick = s.gtick ∧ s'.crumbs = s.crumbs ∧
    s'.crHead = s.crHead ∧ s'.retired = s.retired ∧ s'.saved = [] ∧
    s'.flash = (if s.cur.arg.image = [] then s.flash else some s.cur.arg.image) ∧
    s'.firmware = imageAccepted (s'.flash.getD Config.factoryImage) ∧ (∀ a < farBase, memByte s' a = 0) ∧
    (∀ a, farBase ≤ a → (∀ e ∈ s.msc, (a - farBase) / 4096 = e.2.line →
      e.2.dirty.getLsbD ((a - farBase) % 4096 / 128) = false) → memByte s' a = memByte s a)) ∧
  (∀ s, (readyBit s 0 = true → exec .resetCores s = .next (resetCores s)) ∧ exec .thermalTrip s =
    .next (resetCores (crumb (countReg s 0x80370 1) 0x0401 (unitOf 5 s.cur.arg.die) []))) ∧
  (∀ s, (s.regs.map (·.1)).Nodup → s.marks = [] → (resetCores s).teams = [] ∧ (resetCores s).saved = [] ∧
    (resetCores s).monitors = [] ∧
    (∀ o ∈ (resetCores s).ops, o.eng = 6) ∧ ∀ i < 4, regGet (resetCores s) (0x108 + 8 * i) = 0) ∧
  (∀ s, ∃ s', exec .powerLoss s = .next s' ∧ s'.teams = [] ∧ s'.regs = [] ∧ s'.crHead = 0 ∧ s'.gtick = 0 ∧
    s'.retired = s.retired ∧ s'.flash = s.flash ∧ ∀ a, inMirror s a = false → memByte s' a = 0) ∧
  (∀ s q, q = s.cur.arg.v.toNat % 128 → readyBit s 30 = true →
    (q < 64 → exec .lqscan s = .next (scanQueue s q)) ∧
    (q = 64 → exec .lqscan s = .next ((List.range 64).foldl scanQueue s)) ∧ (64 < q → exec .lqscan s = .next s)) ∧
  (∀ s q, (lqUsable s q = true → (lqOf (scanQueue s q) q).served = true ∧ (lqOf (scanQueue s q) q).head = lqHead s q ∧
      ((lqOf s q).served = false → (lqOf (scanQueue s q) q).resv = lqTail s q)) ∧
    (lqUsable s q = false → (lqOf (scanQueue s q) q).served = false)) ∧
  (∀ s, s.tlbinv = none → ∀ i ∈ [Instr.tlbinvAddress, .tlbinvAll], ∃ s', exec i s = .next s' ∧ s'.tlbinv = some s.cur.arg.v) ∧
  (∀ s v, s.tlbinv = some v → ∃ s', exec .tlbinvComplete s = .next s' ∧ s'.tlbinv = none ∧
    ∀ c, ∀ e, e ∈ (coreOf s' c).tlb ↔ e ∈ (coreOf s c).tlb ∧ ¬(e.ctx = (v.extractLsb' 56 4).toNat ∧ (v.getLsbD 62 = true ∨
      (e.va ≤ (v.extractLsb' 16 40).toNat * 65536 ∧ (v.extractLsb' 16 40).toNat * 65536 < e.va + e.size)))) ∧
  (∀ s, ∃ s', exec .attestRequest s = .next s' ∧
    s'.attest = some ((List.range 6).map (fun i => regGet s (0x740 + 8 * i)))) ∧
  (∀ s nonce, s.attest = some nonce → (s.regs.map (·.1)).Nodup → ∃ s', exec .attestDone s = .next s' ∧ s'.attest = none ∧
    s'.signed = s.signed + 1 ∧ regGet s' 0x700 = 2 ∧
    ∀ i < 1024, regGet s' (0x10000 + 8 * i) = BitVec.ofNat 64 (bytesAt (attReport s nonce) (8 * i) 8)) ∧
  (∀ s, ∃ s', exec .pstateChange s = .next s' ∧ s'.pstate = (regGet s 0x38).truncate 2) ∧
  (∀ s, (s.regs.map (·.1)).Nodup → ∃ s', exec .pstateWrite s = .next s' ∧ s'.pstate = s.pstate ∧
    regGet s' 0x38 = s.cur.arg.v &&& 3) ∧
  (∀ s d, d = s.cur.arg.die → d < 8 → d ∉ s.throttled → ∃ s', exec .throttleOnset s = .next s' ∧ d ∈ s'.throttled ∧
    s'.crHead = s.crHead + 1) ∧
  (∀ s, ∃ s', exec .throttleRelease s = .next s' ∧ s.cur.arg.die ∉ s'.throttled) ∧
  (∀ s, s.gamrel = none → ∃ s', exec .gamrelStart s = .next s' ∧ s'.gamrel = some s.cur.arg.v) ∧
  (∀ s v, s.gamrel = some v → (s.cores.map (·.1)).Nodup → ∃ s', exec .gamrelComplete s = .next s' ∧ s'.gamrel = none ∧
    ∀ c ∈ s.cores, ∀ x, x ∈ (coreOf s' c.1).gam ↔ x ∈ (coreOf s c.1).gam ∧ x.2.owner ≠ some (v.toNat % 16))

/-- R74, R92, R135, R363, R370, R373, R378, R379, R381, R383, R384, R415 to R419, R457, R458, R468: the host and fabric peers read
and write near memory and the host the management window; stop, scan and replay act as their registers say; links count their
errors, retry, back off and go down; the mirror is written, the binder publishes its record, and an illegal instruction parks its
whole group.
Log entries 69 to 72 and 75 say what the model does where the spec leaves a point open. -/
def Obligations.HostEvents : Prop :=
  (∀ s off, placeOf s s.cur.arg.pa = .management off → answers s true = true →
    (off ≠ 0x30058 → ∃ s', exec .hostRead s = .next s' ∧ s'.answer = bytesOf 8 (mgmtRead s (off / 8 * 8)).toNat) ∧
    (off % 8 = 0 → s.cur.arg.data.length = 8 → 
      exec .hostWrite s = .next { s with posted := s.posted ++ [(off, BitVec.ofNat 64 (ofBytes s.cur.arg.data))] })) ∧
  (∀ s m, answers s m = true ↔ readyBit s 0 = true ∧ (m = true ∨ s.stopped = false) ∧
    (goSet s = false → s.cur.arg.port = 0 ∧ s.cur.arg.node = 0xFFF) ∧
    (goSet s = true → s.cur.arg.node = nodeId s ∧ s.cur.arg.port < 18 ∧ readyBit s s.cur.arg.port = true ∧
      (portOf s s.cur.arg.port).failed = false)) ∧
  (∀ s off, placeOf s s.cur.arg.pa = .management off → answers s true = false →
    exec .hostRead s = .next { s with answer := [] } ∧ exec .hostWrite s = .next s) ∧
  (∀ s pa n, pa = s.cur.arg.pa → n = s.cur.arg.n → answers s false = true → readyBit s 30 = true →
    s.poison = [] → MemoryCanonical s → (∀ e ∈ s.squares, e.2.shadow = none) → pa < nearEnd s → (∀ i < 16, (regGet s (0x400 + 8 * i)).getLsbD 0 = false) →
    (pa + n ≤ nearEnd s →
      (∃ s', exec .hostRead s = .next s' ∧ s'.answer = (List.range n).map (fun i => memByte s (pa + i)) ∧ s'.mem = s.mem) ∧
      (s.cur.arg.data = [] → ∃ s', exec .fabricPeerAccess s = .next s' ∧
        s'.answer = (List.range n).map (fun i => memByte s (pa + i)))) ∧
    (s.cur.arg.data ≠ [] → pa + s.cur.arg.data.length ≤ nearEnd s → ∀ i ∈ [Instr.hostWrite, .fabricPeerAccess],
      ∃ s', exec i s = .next s' ∧ ∀ a, memByte s' a = withBytes (memByte s) pa s.cur.arg.data a)) ∧
  (∀ s, (s.regs.map (·.1)).Nodup → (regGet s 0x30048).getLsbD 0 = true → s.stopped = false →
    ((regGet s 0x30040).toNat ≤ s.gtick → ∃ s', exec .tickStop s = .next s' ∧ s'.stopped = true ∧
      (regGet s' 0x30048).getLsbD 0 = false) ∧
    (s.gtick < (regGet s 0x30040).toNat → exec .tickStop s = .next s)) ∧
  (∀ s, s.stopped = true → ∃ s', exec .stopResume s = .next s' ∧ s'.stopped = false ∧ s'.gtick = s.gtick + 1) ∧
  (∀ s, readyBit s 0 = true → (s.regs.map (·.1)).Nodup → ∃ s', exec .scandataRead s = .next s' ∧
    s'.answer = scanBytes s (regGet s 0x30050) ∧
    regGet s' 0x30050 = (regGet s 0x30050).extractLsb' 32 32 ++ ((regGet s 0x30050).truncate 32 + 8 : BitVec 32)) ∧
  (∀ s, ∃ s', exec .repctlReplay s = .next s' ∧ s'.gatesOpen = false ∧ s'.marksUsed = [] ∧
    ∀ e ∈ s'.logs, e.2.gateChunk = 0 ∧ e.2.gateRun = 0 ∧ e.2.gateSince = none) ∧
  (∀ s i, i = s.cur.arg.slice → i < 128 → (s.regs.map (·.1)).Nodup → ∃ s', exec .rlfillWrite s = .next s' ∧
    regGet s' (0x30400 + 8 * i) = s.cur.arg.v ∧ (logOf s' i).gateChunk = 0 ∧ (logOf s' i).run = 0) ∧
  (∀ s, ((regGet s 0x31008).toNat = 0 → exec .crumbMirror s = .next s) ∧
    ((regGet s 0x31008).toNat ≠ 0 → ∃ s', exec .crumbMirror s = .next s' ∧ s'.mirrored = s.crHead)) ∧
  (∀ s p, p = s.cur.arg.port → p < 18 → (portOf s p).failed = false →
    (exec .flitCrcError s = .next (retryPort s p)) ∧
    (∃ s', exec .flitNotReady s = .next s' ∧ (portOf s' p).backoff =
      (if (portOf s p).backoff = 0 then 64 else min 65536 (2 * (portOf s p).backoff)) ∧ (portOf s' p).since = s.gtick) ∧
    (s.gtick < (portOf s p).since + (portOf s p).backoff → exec .flitRetransmit s = .next s) ∧
    ((portOf s p).since + (portOf s p).backoff ≤ s.gtick → ∃ s', exec .flitRetransmit s = .next s' ∧
      (s.cur.arg.n = 0 → (portOf s' p).retries = 0 ∧ (portOf s' p).backoff = 0))) ∧
  (∀ s p, (portOf (retryPort s p) p).failed = ((portOf s p).failed || (portOf s p).retries == 63) ∧
    ((portOf s p).retries ≠ 63 → (portOf (retryPort s p) p).retries = (portOf s p).retries + 1)) ∧
  (∀ s p, p = s.cur.arg.port → p < 12 → (s.regs.map (·.1)).Nodup →
    (s.cur.arg.poison = none → exec .cxlError s = .next (cxlError s p)) ∧
    (∀ pa, s.cur.arg.poison = some pa → exec .cxlError s = .next (poisonFar (cxlError s p) p pa)) ∧
    exec .cxlReadTimeout s = .next (poisonFar (cxlError s p) p s.cur.arg.pa) ∧
    regGet (cxlError s p) (0x80300 + 8 * p) = BitVec.ofNat 64 (min ((regGet s (0x80300 + 8 * p)).toNat + 1) (2 ^ 64 - 1)) ∧
    (∃ s', exec .cxlLinkDown s = .next s' ∧ (portOf s' (32 + p)).down = true ∧ (regGet s' 0x80360).getLsbD p = true) ∧
    (∃ s', exec .cxlLinkUp s = .next s' ∧ (portOf s' (32 + p)).down = false ∧ (regGet s' 0x80360).getLsbD p = false)) ∧
  (∀ s, MemoryCanonical s → s.poison = [] → ∃ s', exec .binderRun s = .next s' ∧ ∀ a, memByte s' a = withBytes (memByte s)
    s.cur.arg.dst (bindImage s.cur.arg.image s.cur.arg.lseed s.cur.arg.pinned) a) ∧
  (∀ s t g r, Issues s t g → s.cur.reject = some r → exec .illegalInstruction s = .next (trapLanes s s.cur.team g
    (if r.word.getLsbD 31 then 2 else 0) (g.lanes.map (fun l =>
      (l.2, { code := 1, addr := 0, info := infoOf r.word r.value.toNat r.reason.toNat, flags := 0, order := 0 })))))

/-! ### Decoding, steps and reset (R5, R20, R228 to R245, R358, R415 to R421) -/

/-- R230, R231, R240: words written out from the encoding tables, opcode, STALL, fields, guard and F, decode to what they
stand for, and a word whose opcode is reserved does not decode. -/
def Obligations.WordsDecode : Prop :=
  (∀ (w : Word) (i : Instr) (st : BitVec 3), (w, i, st) ∈ ([
      ((0x00#7 ++ 4#3 ++ 3#6 ++ 1#6 ++ 2#6 ++ 0#2 ++ 0#2 : BitVec 32), .iadd 3 1 2, 4),
      ((0x41#7 ++ 2#3 ++ 3#6 ++ 4#6 ++ 5#6 ++ 0#2 ++ 1#2 : BitVec 32), .smulh 3 4 5, 2),
      ((0x23#7 ++ 7#3 ++ 5#6 ++ 6#6 ++ 7#6 ++ 0#2 ++ 0#2 : BitVec 32), .stb 5 6 7 none, 7),
      ((0x27#7 ++ 7#3 ++ 8#6 ++ 1#6 ++ 2#6 ++ 0#2 ++ 2#2 : BitVec 32), .cld 2 8 1 2 none, 7),
      ((0x57#7 ++ 0#3 ++ 2#6 ++ 8#6 ++ 0#6 ++ 0#2 ++ 0#2 : BitVec 32), .hset 2 8, 0),
      ((0x58#7 ++ 1#3 ++ 0x3FFFF#18 ++ 0#2 ++ 0#2 : BitVec 32), .jmp 0x3FFFF, 1),
      ((0x64#7 ++ 0#3 ++ 1#6 ++ 4#6 ++ 0#6 ++ 0#2 ++ 0#2 : BitVec 32), .mset 1 4, 0),
      ((0x67#7 ++ 0#3 ++ 0#6 ++ 4#6 ++ 5#6 ++ 0#2 ++ 0#2 : BitVec 32), .drain 4 5, 0),
      ((0x68#7 ++ 0#3 ++ 0#6 ++ 0#6 ++ 0#6 ++ 0#2 ++ 0#2 : BitVec 32), .nrst, 0)] : List (Word × Instr × BitVec 3)) →
    decodeGroup [w] = .ok { instr := i, hdr := { stall := st, guard := 0, scope := 0 }, len := 1 }) ∧
  (∀ w : BitVec 25, ∃ r, decodeGroup [(0x37#7 ++ w : BitVec 32)] = .error r ∧ r.reason = 2 ∧ r.len = 1)

/-- R228 to R242, R421: decoding the words of any well-formed instruction, with its immediate's LIT words and its MQ word, gives
it back with its STALL, guard and scope. -/
def Obligations.DecodeEncode : Prop :=
  ∀ (h : Header) (i : Instr), i.wellFormed = true → h.wellFormed i.hasGuard i.hasScope = true → i.words ≠ 0 →
    decodeGroup (encode h i) = .ok { instr := i, hdr := h, len := i.words }

/-- R38, R162, R167, R228, R229, R239, R358, R376, R415 to R419: where a slice issues a group whose words are fetched and decode
to an instruction, with none of its registers pending, the step executes that instruction for that group and then settles, and an
exec watch stops its lanes; words that do not decode are an ILLEGAL_INSTRUCTION; a step of the device that is no word runs with its
argument. Where the script is empty the slices issue; a write to the management window comes first.
Log entries 1, 7 and 11 say what the model does where the spec leaves a point open. -/
def Obligations.StepRunsDecoded : Prop :=
  (∀ s dt core slice held rest k t g ws, s.stopped = false → s.posted = [] → endedWindow s = none → dueTicks s dt = [] →
    s.agenda = { dt := dt, act := .issue core slice held none } :: rest →
    (let s0 : State := { s with gtick := s.gtick + dt, agenda := rest }
     chooseGroup s0 core slice held = some (k, t, g) → fetchGroup s0 t g.handler g.pc = .ok ws →
     (∀ d, decodeGroup (ws.map (·.2)) = .ok d →
       (let word := (ws.getLast?.map (·.2)).getD 0
        let s1 : State := { keepFetch s0 t g.pc ws with cur := { Cur.none with
          team := k, gid := g.gid, hdr := d.hdr, word := word, len := d.len } }
        let s2 := noteIssue s1 t k g word
        pendingFor s1 k t g d.instr d.hdr.guard none = none →
        ((execWatch s2 t g g.lanes).2 = none →
          (∀ s3, exec d.instr s2 = .next s3 → step s = .next (endStep s2 s3)) ∧
          (∀ r, exec d.instr s2 = .fault r → step s = .fault r) ∧
          (∀ r, exec d.instr s2 = .refused r → step s = .refused r)) ∧
        (∀ lanes i, execWatch s2 t g g.lanes = (lanes, some i) →
          ∀ s3, exec d.instr { s2 with cur := { s2.cur with dry := true } } = .next s3 →
            step s = .next (endStep s2 (watchStop s2 s3 lanes i))))) ∧
     (∀ r, decodeGroup (ws.map (·.2)) = .error r →
       (let s1 : State := { keepFetch s0 t g.pc ws with cur := { Cur.none with
          team := k, gid := g.gid, word := (ws.getLast?.map (·.2)).getD 0, len := r.len, reject := some r } }
        ∀ s2, exec .illegalInstruction s1 = .next s2 → step s = .next (endStep s1 s2))))) ∧
  (∀ s core slice, s.stopped = false → s.posted = [] → endedWindow s = none → s.agenda = [] → issuing s = some (core, slice) →
    step s = step { s with agenda := [{ dt := 0, act := .issue core slice [] none }] }) ∧
  (∀ s dt i a rest, s.stopped = false → s.posted = [] → endedWindow s = none → dueTicks s dt = [] → i.words = 0 →
    i ≠ .illegalInstruction → s.agenda = { dt := dt, act := .event i a } :: rest →
    (let s1 : State := { s with gtick := s.gtick + dt, agenda := rest, cur := { Cur.none with arg := a } }
     ∀ s2, exec i s1 = .next s2 → step s = .next (endStep s1 s2))) ∧
  (∀ s off v rest, s.stopped = false → s.posted = (off, v) :: rest →
    (let s1 : State := { s with posted := rest, cur := { Cur.none with arg := mgmtArg off v } }
     ∀ s2, exec (mgmtStep off v) s1 = .next s2 → step s = .next (endStep s1 s2))) ∧
  (∀ s, dueTicks s 0 = []) ∧
  (∀ old s, issuer old = none → endStep old s = settle old s)

/-- R20, R358, R360, R362: after power on no team, operation or context runs, every function is down, NODEID reads 0xFFF and
every other register 0; and the state a home warp and its threads start in. That unwritten memory reads 0 is the model's choice
(log entry 3).
Log entry 4 says what the model does where the spec leaves a point open. -/
def Obligations.ResetMachine : Prop :=
  (State.reset.gtick = 0 ∧ State.reset.teams = [] ∧ State.reset.ops = [] ∧ State.reset.stopped = false ∧
    State.reset.poison = [] ∧ State.reset.crHead = 0) ∧
  regGet State.reset 0x18 = 0xFFF ∧ (∀ off, off ≠ 0x18 → regGet State.reset off = 0) ∧
  (∀ n, readyBit State.reset n = false) ∧ (∀ q, (lqOf State.reset q).served = false) ∧
  (∀ c, (ctxOf State.reset c).stat = 0 ∧ (ctxOf State.reset c).racemode = 0 ∧ (ctxOf State.reset c).trapvec = 0) ∧
  Rested State.reset ∧ MemoryCanonical State.reset ∧ (∀ a, memByte State.reset a = 0) ∧
  (∀ argp now, (let w := Warp.fresh true argp now
    (∀ r, uReg w r = if r = 1 then argp else 0) ∧ (∀ n, uFlag w n = (n == 0)) ∧ (∀ h, w.h.getD h 0 = 0) ∧
    (∀ m, w.md.getD m 0 = 0) ∧ (∀ n, w.wc.getD n .empty = .empty) ∧ w.stack = [] ∧ w.gbase = 0 ∧ w.storehash = 0)) ∧
  (∀ slot live helper v0, (let th := Thread.fresh slot live helper v0
    (∀ r, th.v.getD r 0 = if r = 0 then v0 else 0) ∧ (∀ n, lanePred th n = (n == 0)) ∧ th.clk = 0 ∧ th.slot = slot))

/-- R144: in every state that a step leaves, no monitor has a condition that holds, and no instruction is under way.
Log entries 1 and 79 say what the model does where the spec leaves a point open. -/
def Obligations.StepLeavesRested : Prop := ∀ s s', Rested s → step s = .next s' → Rested s'

/-- R228, R232, R255: a lane or uniform form that completes in its destination register changes that register alone: no byte of
memory, no flag or predicate, no special, accumulator or exception register, no other team; the issuing group's PC goes on. -/
def Obligations.RegisterFrames : Prop :=
  (∀ s t g vd va vb s', LaneReady s t g [vd, va, vb] →
    ∀ i ∈ [Instr.iadd vd va vb, .isub vd va vb, .imin vd va vb, .imax vd va vb, .nmin vd va vb, .nmax vd va vb, .iabsd vd va vb,
      .navg vd va vb, .imul vd va vb, .imulh vd va vb, .nmulh vd va vb, .imad vd va vb, .and vd va vb, .or vd va vb, .xor vd va vb,
      .andn vd va vb, .shl vd va vb, .shr vd va vb, .sar vd va vb, .rol vd va vb, .bfx vd va vb, .bfxn vd va vb, .bfi vd va vb,
      .prmt vd va vb, .fadd vd va vb, .fsub vd va vb, .fmul vd va vb, .ffma vd va vb, .fmin vd va vb, .fmax vd va vb,
      .fabsd vd va vb, .fcpys vd va vb, .phadd vd va vb, .phmul vd va vb, .phfma vd va vb, .phmax vd va vb],
    exec i s = .next s' → OnlyLaneRegister s s' t g vd) ∧
  (∀ s t g pd val s', Issues s t g → lanePredWrote s t g pd val = .next s' → ∃ t', OnlyRegisters s s' t t' ∧ t'.warps = t.warps ∧
    t'.ext = t.ext ∧ (∀ tid, { threadOf t' tid with p := (threadOf t tid).p } = threadOf t tid) ∧
    ∀ tid q, ((∀ l ∈ laneSet s t g, l.2 ≠ tid) ∨ q ≠ pd.toNat) → lanePred (threadOf t' tid) q = lanePred (threadOf t tid) q) ∧
  (∀ s t g sd sa sb s', UniReady s t g →
    ∀ i ∈ [Instr.sadd sd sa sb, .ssub sd sa sb, .smin sd sa sb, .smax sd sa sb, .smul sd sa sb, .smulh sd sa sb, .sdivn sd sa sb,
      .sremn sd sa sb, .sand sd sa sb, .sor sd sa sb, .sxor sd sa sb, .sandn sd sa sb, .sshl sd sa sb, .sshr sd sa sb,
      .ssar sd sa sb, .srol sd sa sb, .smov sd sa, .sfadd sd sa sb, .sfmul sd sa sb, .hashrd sd],
    (∀ r ∈ (coreOf s t.core).reqs, r.store = false) → exec i s = .next s' → OnlyUniformRegister s s' t g sd) ∧
  (∀ s t g s', UniReady s t g → exec .nop s = .next s' → ∃ t', OnlyRegisters s s' t t' ∧ t'.threads = t.threads ∧
    t'.ext = t.ext ∧ t'.warps = t.warps)
end

