-- ==== Sys2Proof/Laws/State.lean ====
section
/-!
SUPPORT. What each named update of the state, of a team and of a home warp leaves alone and what it writes: one lemma per
field, true by the definition, so that no proof has to unfold a record update. The file is written field by field.
-/

namespace Sys2Proof.Machine

/-! ### setTeam -/

@[simp] theorem setTeam_gtick (s : State) (k : Nat) (t : Team) : (setTeam s k t).gtick = s.gtick := rfl
@[simp] theorem setTeam_stopped (s : State) (k : Nat) (t : Team) : (setTeam s k t).stopped = s.stopped := rfl
@[simp] theorem setTeam_mem (s : State) (k : Nat) (t : Team) : (setTeam s k t).mem = s.mem := rfl
@[simp] theorem setTeam_past (s : State) (k : Nat) (t : Team) : (setTeam s k t).past = s.past := rfl
@[simp] theorem setTeam_writes (s : State) (k : Nat) (t : Team) : (setTeam s k t).writes = s.writes := rfl
@[simp] theorem setTeam_poison (s : State) (k : Nat) (t : Team) : (setTeam s k t).poison = s.poison := rfl
@[simp] theorem setTeam_poisonSeen (s : State) (k : Nat) (t : Team) : (setTeam s k t).poisonSeen = s.poisonSeen := rfl
@[simp] theorem setTeam_tags (s : State) (k : Nat) (t : Team) : (setTeam s k t).tags = s.tags := rfl
@[simp] theorem setTeam_squares (s : State) (k : Nat) (t : Team) : (setTeam s k t).squares = s.squares := rfl
@[simp] theorem setTeam_msc (s : State) (k : Nat) (t : Team) : (setTeam s k t).msc = s.msc := rfl
@[simp] theorem setTeam_residency (s : State) (k : Nat) (t : Team) : (setTeam s k t).residency = s.residency := rfl
@[simp] theorem setTeam_monitors (s : State) (k : Nat) (t : Team) : (setTeam s k t).monitors = s.monitors := rfl
@[simp] theorem setTeam_marks (s : State) (k : Nat) (t : Team) : (setTeam s k t).marks = s.marks := rfl
@[simp] theorem setTeam_cores (s : State) (k : Nat) (t : Team) : (setTeam s k t).cores = s.cores := rfl
@[simp] theorem setTeam_teams (s : State) (k : Nat) (t : Team) : (setTeam s k t).teams = tset s.teams k t := rfl
@[simp] theorem setTeam_clusters (s : State) (k : Nat) (t : Team) : (setTeam s k t).clusters = s.clusters := rfl
@[simp] theorem setTeam_queues (s : State) (k : Nat) (t : Team) : (setTeam s k t).queues = s.queues := rfl
@[simp] theorem setTeam_launches (s : State) (k : Nat) (t : Team) : (setTeam s k t).launches = s.launches := rfl
@[simp] theorem setTeam_nextLaunch (s : State) (k : Nat) (t : Team) : (setTeam s k t).nextLaunch = s.nextLaunch := rfl
@[simp] theorem setTeam_lqs (s : State) (k : Nat) (t : Team) : (setTeam s k t).lqs = s.lqs := rfl
@[simp] theorem setTeam_ctxs (s : State) (k : Nat) (t : Team) : (setTeam s k t).ctxs = s.ctxs := rfl
@[simp] theorem setTeam_ops (s : State) (k : Nat) (t : Team) : (setTeam s k t).ops = s.ops := rfl
@[simp] theorem setTeam_nextOp (s : State) (k : Nat) (t : Team) : (setTeam s k t).nextOp = s.nextOp := rfl
@[simp] theorem setTeam_rotation (s : State) (k : Nat) (t : Team) : (setTeam s k t).rotation = s.rotation := rfl
@[simp] theorem setTeam_dec (s : State) (k : Nat) (t : Team) : (setTeam s k t).dec = s.dec := rfl
@[simp] theorem setTeam_saved (s : State) (k : Nat) (t : Team) : (setTeam s k t).saved = s.saved := rfl
@[simp] theorem setTeam_swaps (s : State) (k : Nat) (t : Team) : (setTeam s k t).swaps = s.swaps := rfl
@[simp] theorem setTeam_gamSaved (s : State) (k : Nat) (t : Team) : (setTeam s k t).gamSaved = s.gamSaved := rfl
@[simp] theorem setTeam_preSave (s : State) (k : Nat) (t : Team) : (setTeam s k t).preSave = s.preSave := rfl
@[simp] theorem setTeam_firmware (s : State) (k : Nat) (t : Team) : (setTeam s k t).firmware = s.firmware := rfl
@[simp] theorem setTeam_flash (s : State) (k : Nat) (t : Team) : (setTeam s k t).flash = s.flash := rfl
@[simp] theorem setTeam_regs (s : State) (k : Nat) (t : Team) : (setTeam s k t).regs = s.regs := rfl
@[simp] theorem setTeam_posted (s : State) (k : Nat) (t : Team) : (setTeam s k t).posted = s.posted := rfl
@[simp] theorem setTeam_crumbs (s : State) (k : Nat) (t : Team) : (setTeam s k t).crumbs = s.crumbs := rfl
@[simp] theorem setTeam_crHead (s : State) (k : Nat) (t : Team) : (setTeam s k t).crHead = s.crHead := rfl
@[simp] theorem setTeam_mirrored (s : State) (k : Nat) (t : Team) : (setTeam s k t).mirrored = s.mirrored := rfl
@[simp] theorem setTeam_logs (s : State) (k : Nat) (t : Team) : (setTeam s k t).logs = s.logs := rfl
@[simp] theorem setTeam_gatesOpen (s : State) (k : Nat) (t : Team) : (setTeam s k t).gatesOpen = s.gatesOpen := rfl
@[simp] theorem setTeam_marksUsed (s : State) (k : Nat) (t : Team) : (setTeam s k t).marksUsed = s.marksUsed := rfl
@[simp] theorem setTeam_retired (s : State) (k : Nat) (t : Team) : (setTeam s k t).retired = s.retired := rfl
@[simp] theorem setTeam_frameErrors (s : State) (k : Nat) (t : Team) : (setTeam s k t).frameErrors = s.frameErrors := rfl
@[simp] theorem setTeam_answer (s : State) (k : Nat) (t : Team) : (setTeam s k t).answer = s.answer := rfl
@[simp] theorem setTeam_fabric (s : State) (k : Nat) (t : Team) : (setTeam s k t).fabric = s.fabric := rfl
@[simp] theorem setTeam_ports (s : State) (k : Nat) (t : Team) : (setTeam s k t).ports = s.ports := rfl
@[simp] theorem setTeam_tlbinv (s : State) (k : Nat) (t : Team) : (setTeam s k t).tlbinv = s.tlbinv := rfl
@[simp] theorem setTeam_attest (s : State) (k : Nat) (t : Team) : (setTeam s k t).attest = s.attest := rfl
@[simp] theorem setTeam_signed (s : State) (k : Nat) (t : Team) : (setTeam s k t).signed = s.signed := rfl
@[simp] theorem setTeam_gamrel (s : State) (k : Nat) (t : Team) : (setTeam s k t).gamrel = s.gamrel := rfl
@[simp] theorem setTeam_pstate (s : State) (k : Nat) (t : Team) : (setTeam s k t).pstate = s.pstate := rfl
@[simp] theorem setTeam_throttled (s : State) (k : Nat) (t : Team) : (setTeam s k t).throttled = s.throttled := rfl
@[simp] theorem setTeam_below (s : State) (k : Nat) (t : Team) : (setTeam s k t).below = s.below := rfl
@[simp] theorem setTeam_free (s : State) (k : Nat) (t : Team) : (setTeam s k t).free = s.free := rfl
@[simp] theorem setTeam_agenda (s : State) (k : Nat) (t : Team) : (setTeam s k t).agenda = s.agenda := rfl
@[simp] theorem setTeam_cur (s : State) (k : Nat) (t : Team) : (setTeam s k t).cur = s.cur := rfl

/-! ### setCore -/

@[simp] theorem setCore_gtick (s : State) (c : Nat) (x : Core) : (setCore s c x).gtick = s.gtick := rfl
@[simp] theorem setCore_stopped (s : State) (c : Nat) (x : Core) : (setCore s c x).stopped = s.stopped := rfl
@[simp] theorem setCore_mem (s : State) (c : Nat) (x : Core) : (setCore s c x).mem = s.mem := rfl
@[simp] theorem setCore_past (s : State) (c : Nat) (x : Core) : (setCore s c x).past = s.past := rfl
@[simp] theorem setCore_writes (s : State) (c : Nat) (x : Core) : (setCore s c x).writes = s.writes := rfl
@[simp] theorem setCore_poison (s : State) (c : Nat) (x : Core) : (setCore s c x).poison = s.poison := rfl
@[simp] theorem setCore_poisonSeen (s : State) (c : Nat) (x : Core) : (setCore s c x).poisonSeen = s.poisonSeen := rfl
@[simp] theorem setCore_tags (s : State) (c : Nat) (x : Core) : (setCore s c x).tags = s.tags := rfl
@[simp] theorem setCore_squares (s : State) (c : Nat) (x : Core) : (setCore s c x).squares = s.squares := rfl
@[simp] theorem setCore_msc (s : State) (c : Nat) (x : Core) : (setCore s c x).msc = s.msc := rfl
@[simp] theorem setCore_residency (s : State) (c : Nat) (x : Core) : (setCore s c x).residency = s.residency := rfl
@[simp] theorem setCore_monitors (s : State) (c : Nat) (x : Core) : (setCore s c x).monitors = s.monitors := rfl
@[simp] theorem setCore_marks (s : State) (c : Nat) (x : Core) : (setCore s c x).marks = s.marks := rfl
@[simp] theorem setCore_cores (s : State) (c : Nat) (x : Core) : (setCore s c x).cores = tset s.cores c x := rfl
@[simp] theorem setCore_teams (s : State) (c : Nat) (x : Core) : (setCore s c x).teams = s.teams := rfl
@[simp] theorem setCore_clusters (s : State) (c : Nat) (x : Core) : (setCore s c x).clusters = s.clusters := rfl
@[simp] theorem setCore_queues (s : State) (c : Nat) (x : Core) : (setCore s c x).queues = s.queues := rfl
@[simp] theorem setCore_launches (s : State) (c : Nat) (x : Core) : (setCore s c x).launches = s.launches := rfl
@[simp] theorem setCore_nextLaunch (s : State) (c : Nat) (x : Core) : (setCore s c x).nextLaunch = s.nextLaunch := rfl
@[simp] theorem setCore_lqs (s : State) (c : Nat) (x : Core) : (setCore s c x).lqs = s.lqs := rfl
@[simp] theorem setCore_ctxs (s : State) (c : Nat) (x : Core) : (setCore s c x).ctxs = s.ctxs := rfl
@[simp] theorem setCore_ops (s : State) (c : Nat) (x : Core) : (setCore s c x).ops = s.ops := rfl
@[simp] theorem setCore_nextOp (s : State) (c : Nat) (x : Core) : (setCore s c x).nextOp = s.nextOp := rfl
@[simp] theorem setCore_rotation (s : State) (c : Nat) (x : Core) : (setCore s c x).rotation = s.rotation := rfl
@[simp] theorem setCore_dec (s : State) (c : Nat) (x : Core) : (setCore s c x).dec = s.dec := rfl
@[simp] theorem setCore_saved (s : State) (c : Nat) (x : Core) : (setCore s c x).saved = s.saved := rfl
@[simp] theorem setCore_swaps (s : State) (c : Nat) (x : Core) : (setCore s c x).swaps = s.swaps := rfl
@[simp] theorem setCore_gamSaved (s : State) (c : Nat) (x : Core) : (setCore s c x).gamSaved = s.gamSaved := rfl
@[simp] theorem setCore_preSave (s : State) (c : Nat) (x : Core) : (setCore s c x).preSave = s.preSave := rfl
@[simp] theorem setCore_firmware (s : State) (c : Nat) (x : Core) : (setCore s c x).firmware = s.firmware := rfl
@[simp] theorem setCore_flash (s : State) (c : Nat) (x : Core) : (setCore s c x).flash = s.flash := rfl
@[simp] theorem setCore_regs (s : State) (c : Nat) (x : Core) : (setCore s c x).regs = s.regs := rfl
@[simp] theorem setCore_posted (s : State) (c : Nat) (x : Core) : (setCore s c x).posted = s.posted := rfl
@[simp] theorem setCore_crumbs (s : State) (c : Nat) (x : Core) : (setCore s c x).crumbs = s.crumbs := rfl
@[simp] theorem setCore_crHead (s : State) (c : Nat) (x : Core) : (setCore s c x).crHead = s.crHead := rfl
@[simp] theorem setCore_mirrored (s : State) (c : Nat) (x : Core) : (setCore s c x).mirrored = s.mirrored := rfl
@[simp] theorem setCore_logs (s : State) (c : Nat) (x : Core) : (setCore s c x).logs = s.logs := rfl
@[simp] theorem setCore_gatesOpen (s : State) (c : Nat) (x : Core) : (setCore s c x).gatesOpen = s.gatesOpen := rfl
@[simp] theorem setCore_marksUsed (s : State) (c : Nat) (x : Core) : (setCore s c x).marksUsed = s.marksUsed := rfl
@[simp] theorem setCore_retired (s : State) (c : Nat) (x : Core) : (setCore s c x).retired = s.retired := rfl
@[simp] theorem setCore_frameErrors (s : State) (c : Nat) (x : Core) : (setCore s c x).frameErrors = s.frameErrors := rfl
@[simp] theorem setCore_answer (s : State) (c : Nat) (x : Core) : (setCore s c x).answer = s.answer := rfl
@[simp] theorem setCore_fabric (s : State) (c : Nat) (x : Core) : (setCore s c x).fabric = s.fabric := rfl
@[simp] theorem setCore_ports (s : State) (c : Nat) (x : Core) : (setCore s c x).ports = s.ports := rfl
@[simp] theorem setCore_tlbinv (s : State) (c : Nat) (x : Core) : (setCore s c x).tlbinv = s.tlbinv := rfl
@[simp] theorem setCore_attest (s : State) (c : Nat) (x : Core) : (setCore s c x).attest = s.attest := rfl
@[simp] theorem setCore_signed (s : State) (c : Nat) (x : Core) : (setCore s c x).signed = s.signed := rfl
@[simp] theorem setCore_gamrel (s : State) (c : Nat) (x : Core) : (setCore s c x).gamrel = s.gamrel := rfl
@[simp] theorem setCore_pstate (s : State) (c : Nat) (x : Core) : (setCore s c x).pstate = s.pstate := rfl
@[simp] theorem setCore_throttled (s : State) (c : Nat) (x : Core) : (setCore s c x).throttled = s.throttled := rfl
@[simp] theorem setCore_below (s : State) (c : Nat) (x : Core) : (setCore s c x).below = s.below := rfl
@[simp] theorem setCore_free (s : State) (c : Nat) (x : Core) : (setCore s c x).free = s.free := rfl
@[simp] theorem setCore_agenda (s : State) (c : Nat) (x : Core) : (setCore s c x).agenda = s.agenda := rfl
@[simp] theorem setCore_cur (s : State) (c : Nat) (x : Core) : (setCore s c x).cur = s.cur := rfl

/-! ### modCore -/

@[simp] theorem modCore_gtick (s : State) (c : Nat) (f : Core → Core) : (modCore s c f).gtick = s.gtick := rfl
@[simp] theorem modCore_stopped (s : State) (c : Nat) (f : Core → Core) : (modCore s c f).stopped = s.stopped := rfl
@[simp] theorem modCore_mem (s : State) (c : Nat) (f : Core → Core) : (modCore s c f).mem = s.mem := rfl
@[simp] theorem modCore_past (s : State) (c : Nat) (f : Core → Core) : (modCore s c f).past = s.past := rfl
@[simp] theorem modCore_writes (s : State) (c : Nat) (f : Core → Core) : (modCore s c f).writes = s.writes := rfl
@[simp] theorem modCore_poison (s : State) (c : Nat) (f : Core → Core) : (modCore s c f).poison = s.poison := rfl
@[simp] theorem modCore_poisonSeen (s : State) (c : Nat) (f : Core → Core) : (modCore s c f).poisonSeen = s.poisonSeen := rfl
@[simp] theorem modCore_tags (s : State) (c : Nat) (f : Core → Core) : (modCore s c f).tags = s.tags := rfl
@[simp] theorem modCore_squares (s : State) (c : Nat) (f : Core → Core) : (modCore s c f).squares = s.squares := rfl
@[simp] theorem modCore_msc (s : State) (c : Nat) (f : Core → Core) : (modCore s c f).msc = s.msc := rfl
@[simp] theorem modCore_residency (s : State) (c : Nat) (f : Core → Core) : (modCore s c f).residency = s.residency := rfl
@[simp] theorem modCore_monitors (s : State) (c : Nat) (f : Core → Core) : (modCore s c f).monitors = s.monitors := rfl
@[simp] theorem modCore_marks (s : State) (c : Nat) (f : Core → Core) : (modCore s c f).marks = s.marks := rfl
@[simp] theorem modCore_cores (s : State) (c : Nat) (f : Core → Core) : (modCore s c f).cores = tset s.cores c (f (coreOf s c)) := rfl
@[simp] theorem modCore_teams (s : State) (c : Nat) (f : Core → Core) : (modCore s c f).teams = s.teams := rfl
@[simp] theorem modCore_clusters (s : State) (c : Nat) (f : Core → Core) : (modCore s c f).clusters = s.clusters := rfl
@[simp] theorem modCore_queues (s : State) (c : Nat) (f : Core → Core) : (modCore s c f).queues = s.queues := rfl
@[simp] theorem modCore_launches (s : State) (c : Nat) (f : Core → Core) : (modCore s c f).launches = s.launches := rfl
@[simp] theorem modCore_nextLaunch (s : State) (c : Nat) (f : Core → Core) : (modCore s c f).nextLaunch = s.nextLaunch := rfl
@[simp] theorem modCore_lqs (s : State) (c : Nat) (f : Core → Core) : (modCore s c f).lqs = s.lqs := rfl
@[simp] theorem modCore_ctxs (s : State) (c : Nat) (f : Core → Core) : (modCore s c f).ctxs = s.ctxs := rfl
@[simp] theorem modCore_ops (s : State) (c : Nat) (f : Core → Core) : (modCore s c f).ops = s.ops := rfl
@[simp] theorem modCore_nextOp (s : State) (c : Nat) (f : Core → Core) : (modCore s c f).nextOp = s.nextOp := rfl
@[simp] theorem modCore_rotation (s : State) (c : Nat) (f : Core → Core) : (modCore s c f).rotation = s.rotation := rfl
@[simp] theorem modCore_dec (s : State) (c : Nat) (f : Core → Core) : (modCore s c f).dec = s.dec := rfl
@[simp] theorem modCore_saved (s : State) (c : Nat) (f : Core → Core) : (modCore s c f).saved = s.saved := rfl
@[simp] theorem modCore_swaps (s : State) (c : Nat) (f : Core → Core) : (modCore s c f).swaps = s.swaps := rfl
@[simp] theorem modCore_gamSaved (s : State) (c : Nat) (f : Core → Core) : (modCore s c f).gamSaved = s.gamSaved := rfl
@[simp] theorem modCore_preSave (s : State) (c : Nat) (f : Core → Core) : (modCore s c f).preSave = s.preSave := rfl
@[simp] theorem modCore_firmware (s : State) (c : Nat) (f : Core → Core) : (modCore s c f).firmware = s.firmware := rfl
@[simp] theorem modCore_flash (s : State) (c : Nat) (f : Core → Core) : (modCore s c f).flash = s.flash := rfl
@[simp] theorem modCore_regs (s : State) (c : Nat) (f : Core → Core) : (modCore s c f).regs = s.regs := rfl
@[simp] theorem modCore_posted (s : State) (c : Nat) (f : Core → Core) : (modCore s c f).posted = s.posted := rfl
@[simp] theorem modCore_crumbs (s : State) (c : Nat) (f : Core → Core) : (modCore s c f).crumbs = s.crumbs := rfl
@[simp] theorem modCore_crHead (s : State) (c : Nat) (f : Core → Core) : (modCore s c f).crHead = s.crHead := rfl
@[simp] theorem modCore_mirrored (s : State) (c : Nat) (f : Core → Core) : (modCore s c f).mirrored = s.mirrored := rfl
@[simp] theorem modCore_logs (s : State) (c : Nat) (f : Core → Core) : (modCore s c f).logs = s.logs := rfl
@[simp] theorem modCore_gatesOpen (s : State) (c : Nat) (f : Core → Core) : (modCore s c f).gatesOpen = s.gatesOpen := rfl
@[simp] theorem modCore_marksUsed (s : State) (c : Nat) (f : Core → Core) : (modCore s c f).marksUsed = s.marksUsed := rfl
@[simp] theorem modCore_retired (s : State) (c : Nat) (f : Core → Core) : (modCore s c f).retired = s.retired := rfl
@[simp] theorem modCore_frameErrors (s : State) (c : Nat) (f : Core → Core) : (modCore s c f).frameErrors = s.frameErrors := rfl
@[simp] theorem modCore_answer (s : State) (c : Nat) (f : Core → Core) : (modCore s c f).answer = s.answer := rfl
@[simp] theorem modCore_fabric (s : State) (c : Nat) (f : Core → Core) : (modCore s c f).fabric = s.fabric := rfl
@[simp] theorem modCore_ports (s : State) (c : Nat) (f : Core → Core) : (modCore s c f).ports = s.ports := rfl
@[simp] theorem modCore_tlbinv (s : State) (c : Nat) (f : Core → Core) : (modCore s c f).tlbinv = s.tlbinv := rfl
@[simp] theorem modCore_attest (s : State) (c : Nat) (f : Core → Core) : (modCore s c f).attest = s.attest := rfl
@[simp] theorem modCore_signed (s : State) (c : Nat) (f : Core → Core) : (modCore s c f).signed = s.signed := rfl
@[simp] theorem modCore_gamrel (s : State) (c : Nat) (f : Core → Core) : (modCore s c f).gamrel = s.gamrel := rfl
@[simp] theorem modCore_pstate (s : State) (c : Nat) (f : Core → Core) : (modCore s c f).pstate = s.pstate := rfl
@[simp] theorem modCore_throttled (s : State) (c : Nat) (f : Core → Core) : (modCore s c f).throttled = s.throttled := rfl
@[simp] theorem modCore_below (s : State) (c : Nat) (f : Core → Core) : (modCore s c f).below = s.below := rfl
@[simp] theorem modCore_free (s : State) (c : Nat) (f : Core → Core) : (modCore s c f).free = s.free := rfl
@[simp] theorem modCore_agenda (s : State) (c : Nat) (f : Core → Core) : (modCore s c f).agenda = s.agenda := rfl
@[simp] theorem modCore_cur (s : State) (c : Nat) (f : Core → Core) : (modCore s c f).cur = s.cur := rfl

/-! ### setQueue -/

@[simp] theorem setQueue_gtick (s : State) (k : Nat) (q : Queue) : (setQueue s k q).gtick = s.gtick := rfl
@[simp] theorem setQueue_stopped (s : State) (k : Nat) (q : Queue) : (setQueue s k q).stopped = s.stopped := rfl
@[simp] theorem setQueue_mem (s : State) (k : Nat) (q : Queue) : (setQueue s k q).mem = s.mem := rfl
@[simp] theorem setQueue_past (s : State) (k : Nat) (q : Queue) : (setQueue s k q).past = s.past := rfl
@[simp] theorem setQueue_writes (s : State) (k : Nat) (q : Queue) : (setQueue s k q).writes = s.writes := rfl
@[simp] theorem setQueue_poison (s : State) (k : Nat) (q : Queue) : (setQueue s k q).poison = s.poison := rfl
@[simp] theorem setQueue_poisonSeen (s : State) (k : Nat) (q : Queue) : (setQueue s k q).poisonSeen = s.poisonSeen := rfl
@[simp] theorem setQueue_tags (s : State) (k : Nat) (q : Queue) : (setQueue s k q).tags = s.tags := rfl
@[simp] theorem setQueue_squares (s : State) (k : Nat) (q : Queue) : (setQueue s k q).squares = s.squares := rfl
@[simp] theorem setQueue_msc (s : State) (k : Nat) (q : Queue) : (setQueue s k q).msc = s.msc := rfl
@[simp] theorem setQueue_residency (s : State) (k : Nat) (q : Queue) : (setQueue s k q).residency = s.residency := rfl
@[simp] theorem setQueue_monitors (s : State) (k : Nat) (q : Queue) : (setQueue s k q).monitors = s.monitors := rfl
@[simp] theorem setQueue_marks (s : State) (k : Nat) (q : Queue) : (setQueue s k q).marks = s.marks := rfl
@[simp] theorem setQueue_cores (s : State) (k : Nat) (q : Queue) : (setQueue s k q).cores = s.cores := rfl
@[simp] theorem setQueue_teams (s : State) (k : Nat) (q : Queue) : (setQueue s k q).teams = s.teams := rfl
@[simp] theorem setQueue_clusters (s : State) (k : Nat) (q : Queue) : (setQueue s k q).clusters = s.clusters := rfl
@[simp] theorem setQueue_queues (s : State) (k : Nat) (q : Queue) : (setQueue s k q).queues = tset s.queues k q := rfl
@[simp] theorem setQueue_launches (s : State) (k : Nat) (q : Queue) : (setQueue s k q).launches = s.launches := rfl
@[simp] theorem setQueue_nextLaunch (s : State) (k : Nat) (q : Queue) : (setQueue s k q).nextLaunch = s.nextLaunch := rfl
@[simp] theorem setQueue_lqs (s : State) (k : Nat) (q : Queue) : (setQueue s k q).lqs = s.lqs := rfl
@[simp] theorem setQueue_ctxs (s : State) (k : Nat) (q : Queue) : (setQueue s k q).ctxs = s.ctxs := rfl
@[simp] theorem setQueue_ops (s : State) (k : Nat) (q : Queue) : (setQueue s k q).ops = s.ops := rfl
@[simp] theorem setQueue_nextOp (s : State) (k : Nat) (q : Queue) : (setQueue s k q).nextOp = s.nextOp := rfl
@[simp] theorem setQueue_rotation (s : State) (k : Nat) (q : Queue) : (setQueue s k q).rotation = s.rotation := rfl
@[simp] theorem setQueue_dec (s : State) (k : Nat) (q : Queue) : (setQueue s k q).dec = s.dec := rfl
@[simp] theorem setQueue_saved (s : State) (k : Nat) (q : Queue) : (setQueue s k q).saved = s.saved := rfl
@[simp] theorem setQueue_swaps (s : State) (k : Nat) (q : Queue) : (setQueue s k q).swaps = s.swaps := rfl
@[simp] theorem setQueue_gamSaved (s : State) (k : Nat) (q : Queue) : (setQueue s k q).gamSaved = s.gamSaved := rfl
@[simp] theorem setQueue_preSave (s : State) (k : Nat) (q : Queue) : (setQueue s k q).preSave = s.preSave := rfl
@[simp] theorem setQueue_firmware (s : State) (k : Nat) (q : Queue) : (setQueue s k q).firmware = s.firmware := rfl
@[simp] theorem setQueue_flash (s : State) (k : Nat) (q : Queue) : (setQueue s k q).flash = s.flash := rfl
@[simp] theorem setQueue_regs (s : State) (k : Nat) (q : Queue) : (setQueue s k q).regs = s.regs := rfl
@[simp] theorem setQueue_posted (s : State) (k : Nat) (q : Queue) : (setQueue s k q).posted = s.posted := rfl
@[simp] theorem setQueue_crumbs (s : State) (k : Nat) (q : Queue) : (setQueue s k q).crumbs = s.crumbs := rfl
@[simp] theorem setQueue_crHead (s : State) (k : Nat) (q : Queue) : (setQueue s k q).crHead = s.crHead := rfl
@[simp] theorem setQueue_mirrored (s : State) (k : Nat) (q : Queue) : (setQueue s k q).mirrored = s.mirrored := rfl
@[simp] theorem setQueue_logs (s : State) (k : Nat) (q : Queue) : (setQueue s k q).logs = s.logs := rfl
@[simp] theorem setQueue_gatesOpen (s : State) (k : Nat) (q : Queue) : (setQueue s k q).gatesOpen = s.gatesOpen := rfl
@[simp] theorem setQueue_marksUsed (s : State) (k : Nat) (q : Queue) : (setQueue s k q).marksUsed = s.marksUsed := rfl
@[simp] theorem setQueue_retired (s : State) (k : Nat) (q : Queue) : (setQueue s k q).retired = s.retired := rfl
@[simp] theorem setQueue_frameErrors (s : State) (k : Nat) (q : Queue) : (setQueue s k q).frameErrors = s.frameErrors := rfl
@[simp] theorem setQueue_answer (s : State) (k : Nat) (q : Queue) : (setQueue s k q).answer = s.answer := rfl
@[simp] theorem setQueue_fabric (s : State) (k : Nat) (q : Queue) : (setQueue s k q).fabric = s.fabric := rfl
@[simp] theorem setQueue_ports (s : State) (k : Nat) (q : Queue) : (setQueue s k q).ports = s.ports := rfl
@[simp] theorem setQueue_tlbinv (s : State) (k : Nat) (q : Queue) : (setQueue s k q).tlbinv = s.tlbinv := rfl
@[simp] theorem setQueue_attest (s : State) (k : Nat) (q : Queue) : (setQueue s k q).attest = s.attest := rfl
@[simp] theorem setQueue_signed (s : State) (k : Nat) (q : Queue) : (setQueue s k q).signed = s.signed := rfl
@[simp] theorem setQueue_gamrel (s : State) (k : Nat) (q : Queue) : (setQueue s k q).gamrel = s.gamrel := rfl
@[simp] theorem setQueue_pstate (s : State) (k : Nat) (q : Queue) : (setQueue s k q).pstate = s.pstate := rfl
@[simp] theorem setQueue_throttled (s : State) (k : Nat) (q : Queue) : (setQueue s k q).throttled = s.throttled := rfl
@[simp] theorem setQueue_below (s : State) (k : Nat) (q : Queue) : (setQueue s k q).below = s.below := rfl
@[simp] theorem setQueue_free (s : State) (k : Nat) (q : Queue) : (setQueue s k q).free = s.free := rfl
@[simp] theorem setQueue_agenda (s : State) (k : Nat) (q : Queue) : (setQueue s k q).agenda = s.agenda := rfl
@[simp] theorem setQueue_cur (s : State) (k : Nat) (q : Queue) : (setQueue s k q).cur = s.cur := rfl

/-! ### modCtx -/

@[simp] theorem modCtx_gtick (s : State) (i : Nat) (f : Ctx → Ctx) : (modCtx s i f).gtick = s.gtick := rfl
@[simp] theorem modCtx_stopped (s : State) (i : Nat) (f : Ctx → Ctx) : (modCtx s i f).stopped = s.stopped := rfl
@[simp] theorem modCtx_mem (s : State) (i : Nat) (f : Ctx → Ctx) : (modCtx s i f).mem = s.mem := rfl
@[simp] theorem modCtx_past (s : State) (i : Nat) (f : Ctx → Ctx) : (modCtx s i f).past = s.past := rfl
@[simp] theorem modCtx_writes (s : State) (i : Nat) (f : Ctx → Ctx) : (modCtx s i f).writes = s.writes := rfl
@[simp] theorem modCtx_poison (s : State) (i : Nat) (f : Ctx → Ctx) : (modCtx s i f).poison = s.poison := rfl
@[simp] theorem modCtx_poisonSeen (s : State) (i : Nat) (f : Ctx → Ctx) : (modCtx s i f).poisonSeen = s.poisonSeen := rfl
@[simp] theorem modCtx_tags (s : State) (i : Nat) (f : Ctx → Ctx) : (modCtx s i f).tags = s.tags := rfl
@[simp] theorem modCtx_squares (s : State) (i : Nat) (f : Ctx → Ctx) : (modCtx s i f).squares = s.squares := rfl
@[simp] theorem modCtx_msc (s : State) (i : Nat) (f : Ctx → Ctx) : (modCtx s i f).msc = s.msc := rfl
@[simp] theorem modCtx_residency (s : State) (i : Nat) (f : Ctx → Ctx) : (modCtx s i f).residency = s.residency := rfl
@[simp] theorem modCtx_monitors (s : State) (i : Nat) (f : Ctx → Ctx) : (modCtx s i f).monitors = s.monitors := rfl
@[simp] theorem modCtx_marks (s : State) (i : Nat) (f : Ctx → Ctx) : (modCtx s i f).marks = s.marks := rfl
@[simp] theorem modCtx_cores (s : State) (i : Nat) (f : Ctx → Ctx) : (modCtx s i f).cores = s.cores := rfl
@[simp] theorem modCtx_teams (s : State) (i : Nat) (f : Ctx → Ctx) : (modCtx s i f).teams = s.teams := rfl
@[simp] theorem modCtx_clusters (s : State) (i : Nat) (f : Ctx → Ctx) : (modCtx s i f).clusters = s.clusters := rfl
@[simp] theorem modCtx_queues (s : State) (i : Nat) (f : Ctx → Ctx) : (modCtx s i f).queues = s.queues := rfl
@[simp] theorem modCtx_launches (s : State) (i : Nat) (f : Ctx → Ctx) : (modCtx s i f).launches = s.launches := rfl
@[simp] theorem modCtx_nextLaunch (s : State) (i : Nat) (f : Ctx → Ctx) : (modCtx s i f).nextLaunch = s.nextLaunch := rfl
@[simp] theorem modCtx_lqs (s : State) (i : Nat) (f : Ctx → Ctx) : (modCtx s i f).lqs = s.lqs := rfl
@[simp] theorem modCtx_ctxs (s : State) (i : Nat) (f : Ctx → Ctx) : (modCtx s i f).ctxs = padSet Ctx.reset s.ctxs i (f (ctxOf s i)) := rfl
@[simp] theorem modCtx_ops (s : State) (i : Nat) (f : Ctx → Ctx) : (modCtx s i f).ops = s.ops := rfl
@[simp] theorem modCtx_nextOp (s : State) (i : Nat) (f : Ctx → Ctx) : (modCtx s i f).nextOp = s.nextOp := rfl
@[simp] theorem modCtx_rotation (s : State) (i : Nat) (f : Ctx → Ctx) : (modCtx s i f).rotation = s.rotation := rfl
@[simp] theorem modCtx_dec (s : State) (i : Nat) (f : Ctx → Ctx) : (modCtx s i f).dec = s.dec := rfl
@[simp] theorem modCtx_saved (s : State) (i : Nat) (f : Ctx → Ctx) : (modCtx s i f).saved = s.saved := rfl
@[simp] theorem modCtx_swaps (s : State) (i : Nat) (f : Ctx → Ctx) : (modCtx s i f).swaps = s.swaps := rfl
@[simp] theorem modCtx_gamSaved (s : State) (i : Nat) (f : Ctx → Ctx) : (modCtx s i f).gamSaved = s.gamSaved := rfl
@[simp] theorem modCtx_preSave (s : State) (i : Nat) (f : Ctx → Ctx) : (modCtx s i f).preSave = s.preSave := rfl
@[simp] theorem modCtx_firmware (s : State) (i : Nat) (f : Ctx → Ctx) : (modCtx s i f).firmware = s.firmware := rfl
@[simp] theorem modCtx_flash (s : State) (i : Nat) (f : Ctx → Ctx) : (modCtx s i f).flash = s.flash := rfl
@[simp] theorem modCtx_regs (s : State) (i : Nat) (f : Ctx → Ctx) : (modCtx s i f).regs = s.regs := rfl
@[simp] theorem modCtx_posted (s : State) (i : Nat) (f : Ctx → Ctx) : (modCtx s i f).posted = s.posted := rfl
@[simp] theorem modCtx_crumbs (s : State) (i : Nat) (f : Ctx → Ctx) : (modCtx s i f).crumbs = s.crumbs := rfl
@[simp] theorem modCtx_crHead (s : State) (i : Nat) (f : Ctx → Ctx) : (modCtx s i f).crHead = s.crHead := rfl
@[simp] theorem modCtx_mirrored (s : State) (i : Nat) (f : Ctx → Ctx) : (modCtx s i f).mirrored = s.mirrored := rfl
@[simp] theorem modCtx_logs (s : State) (i : Nat) (f : Ctx → Ctx) : (modCtx s i f).logs = s.logs := rfl
@[simp] theorem modCtx_gatesOpen (s : State) (i : Nat) (f : Ctx → Ctx) : (modCtx s i f).gatesOpen = s.gatesOpen := rfl
@[simp] theorem modCtx_marksUsed (s : State) (i : Nat) (f : Ctx → Ctx) : (modCtx s i f).marksUsed = s.marksUsed := rfl
@[simp] theorem modCtx_retired (s : State) (i : Nat) (f : Ctx → Ctx) : (modCtx s i f).retired = s.retired := rfl
@[simp] theorem modCtx_frameErrors (s : State) (i : Nat) (f : Ctx → Ctx) : (modCtx s i f).frameErrors = s.frameErrors := rfl
@[simp] theorem modCtx_answer (s : State) (i : Nat) (f : Ctx → Ctx) : (modCtx s i f).answer = s.answer := rfl
@[simp] theorem modCtx_fabric (s : State) (i : Nat) (f : Ctx → Ctx) : (modCtx s i f).fabric = s.fabric := rfl
@[simp] theorem modCtx_ports (s : State) (i : Nat) (f : Ctx → Ctx) : (modCtx s i f).ports = s.ports := rfl
@[simp] theorem modCtx_tlbinv (s : State) (i : Nat) (f : Ctx → Ctx) : (modCtx s i f).tlbinv = s.tlbinv := rfl
@[simp] theorem modCtx_attest (s : State) (i : Nat) (f : Ctx → Ctx) : (modCtx s i f).attest = s.attest := rfl
@[simp] theorem modCtx_signed (s : State) (i : Nat) (f : Ctx → Ctx) : (modCtx s i f).signed = s.signed := rfl
@[simp] theorem modCtx_gamrel (s : State) (i : Nat) (f : Ctx → Ctx) : (modCtx s i f).gamrel = s.gamrel := rfl
@[simp] theorem modCtx_pstate (s : State) (i : Nat) (f : Ctx → Ctx) : (modCtx s i f).pstate = s.pstate := rfl
@[simp] theorem modCtx_throttled (s : State) (i : Nat) (f : Ctx → Ctx) : (modCtx s i f).throttled = s.throttled := rfl
@[simp] theorem modCtx_below (s : State) (i : Nat) (f : Ctx → Ctx) : (modCtx s i f).below = s.below := rfl
@[simp] theorem modCtx_free (s : State) (i : Nat) (f : Ctx → Ctx) : (modCtx s i f).free = s.free := rfl
@[simp] theorem modCtx_agenda (s : State) (i : Nat) (f : Ctx → Ctx) : (modCtx s i f).agenda = s.agenda := rfl
@[simp] theorem modCtx_cur (s : State) (i : Nat) (f : Ctx → Ctx) : (modCtx s i f).cur = s.cur := rfl

/-! ### regSet -/

@[simp] theorem regSet_gtick (s : State) (off : Nat) (v : DWord) : (regSet s off v).gtick = s.gtick := rfl
@[simp] theorem regSet_stopped (s : State) (off : Nat) (v : DWord) : (regSet s off v).stopped = s.stopped := rfl
@[simp] theorem regSet_mem (s : State) (off : Nat) (v : DWord) : (regSet s off v).mem = s.mem := rfl
@[simp] theorem regSet_past (s : State) (off : Nat) (v : DWord) : (regSet s off v).past = s.past := rfl
@[simp] theorem regSet_writes (s : State) (off : Nat) (v : DWord) : (regSet s off v).writes = s.writes := rfl
@[simp] theorem regSet_poison (s : State) (off : Nat) (v : DWord) : (regSet s off v).poison = s.poison := rfl
@[simp] theorem regSet_poisonSeen (s : State) (off : Nat) (v : DWord) : (regSet s off v).poisonSeen = s.poisonSeen := rfl
@[simp] theorem regSet_tags (s : State) (off : Nat) (v : DWord) : (regSet s off v).tags = s.tags := rfl
@[simp] theorem regSet_squares (s : State) (off : Nat) (v : DWord) : (regSet s off v).squares = s.squares := rfl
@[simp] theorem regSet_msc (s : State) (off : Nat) (v : DWord) : (regSet s off v).msc = s.msc := rfl
@[simp] theorem regSet_residency (s : State) (off : Nat) (v : DWord) : (regSet s off v).residency = s.residency := rfl
@[simp] theorem regSet_monitors (s : State) (off : Nat) (v : DWord) : (regSet s off v).monitors = s.monitors := rfl
@[simp] theorem regSet_marks (s : State) (off : Nat) (v : DWord) : (regSet s off v).marks = s.marks := rfl
@[simp] theorem regSet_cores (s : State) (off : Nat) (v : DWord) : (regSet s off v).cores = s.cores := rfl
@[simp] theorem regSet_teams (s : State) (off : Nat) (v : DWord) : (regSet s off v).teams = s.teams := rfl
@[simp] theorem regSet_clusters (s : State) (off : Nat) (v : DWord) : (regSet s off v).clusters = s.clusters := rfl
@[simp] theorem regSet_queues (s : State) (off : Nat) (v : DWord) : (regSet s off v).queues = s.queues := rfl
@[simp] theorem regSet_launches (s : State) (off : Nat) (v : DWord) : (regSet s off v).launches = s.launches := rfl
@[simp] theorem regSet_nextLaunch (s : State) (off : Nat) (v : DWord) : (regSet s off v).nextLaunch = s.nextLaunch := rfl
@[simp] theorem regSet_lqs (s : State) (off : Nat) (v : DWord) : (regSet s off v).lqs = s.lqs := rfl
@[simp] theorem regSet_ctxs (s : State) (off : Nat) (v : DWord) : (regSet s off v).ctxs = s.ctxs := rfl
@[simp] theorem regSet_ops (s : State) (off : Nat) (v : DWord) : (regSet s off v).ops = s.ops := rfl
@[simp] theorem regSet_nextOp (s : State) (off : Nat) (v : DWord) : (regSet s off v).nextOp = s.nextOp := rfl
@[simp] theorem regSet_rotation (s : State) (off : Nat) (v : DWord) : (regSet s off v).rotation = s.rotation := rfl
@[simp] theorem regSet_dec (s : State) (off : Nat) (v : DWord) : (regSet s off v).dec = s.dec := rfl
@[simp] theorem regSet_saved (s : State) (off : Nat) (v : DWord) : (regSet s off v).saved = s.saved := rfl
@[simp] theorem regSet_swaps (s : State) (off : Nat) (v : DWord) : (regSet s off v).swaps = s.swaps := rfl
@[simp] theorem regSet_gamSaved (s : State) (off : Nat) (v : DWord) : (regSet s off v).gamSaved = s.gamSaved := rfl
@[simp] theorem regSet_preSave (s : State) (off : Nat) (v : DWord) : (regSet s off v).preSave = s.preSave := rfl
@[simp] theorem regSet_firmware (s : State) (off : Nat) (v : DWord) : (regSet s off v).firmware = s.firmware := rfl
@[simp] theorem regSet_flash (s : State) (off : Nat) (v : DWord) : (regSet s off v).flash = s.flash := rfl
@[simp] theorem regSet_posted (s : State) (off : Nat) (v : DWord) : (regSet s off v).posted = s.posted := rfl
@[simp] theorem regSet_crumbs (s : State) (off : Nat) (v : DWord) : (regSet s off v).crumbs = s.crumbs := rfl
@[simp] theorem regSet_crHead (s : State) (off : Nat) (v : DWord) : (regSet s off v).crHead = s.crHead := rfl
@[simp] theorem regSet_mirrored (s : State) (off : Nat) (v : DWord) : (regSet s off v).mirrored = s.mirrored := rfl
@[simp] theorem regSet_logs (s : State) (off : Nat) (v : DWord) : (regSet s off v).logs = s.logs := rfl
@[simp] theorem regSet_gatesOpen (s : State) (off : Nat) (v : DWord) : (regSet s off v).gatesOpen = s.gatesOpen := rfl
@[simp] theorem regSet_marksUsed (s : State) (off : Nat) (v : DWord) : (regSet s off v).marksUsed = s.marksUsed := rfl
@[simp] theorem regSet_retired (s : State) (off : Nat) (v : DWord) : (regSet s off v).retired = s.retired := rfl
@[simp] theorem regSet_frameErrors (s : State) (off : Nat) (v : DWord) : (regSet s off v).frameErrors = s.frameErrors := rfl
@[simp] theorem regSet_answer (s : State) (off : Nat) (v : DWord) : (regSet s off v).answer = s.answer := rfl
@[simp] theorem regSet_fabric (s : State) (off : Nat) (v : DWord) : (regSet s off v).fabric = s.fabric := rfl
@[simp] theorem regSet_ports (s : State) (off : Nat) (v : DWord) : (regSet s off v).ports = s.ports := rfl
@[simp] theorem regSet_tlbinv (s : State) (off : Nat) (v : DWord) : (regSet s off v).tlbinv = s.tlbinv := rfl
@[simp] theorem regSet_attest (s : State) (off : Nat) (v : DWord) : (regSet s off v).attest = s.attest := rfl
@[simp] theorem regSet_signed (s : State) (off : Nat) (v : DWord) : (regSet s off v).signed = s.signed := rfl
@[simp] theorem regSet_gamrel (s : State) (off : Nat) (v : DWord) : (regSet s off v).gamrel = s.gamrel := rfl
@[simp] theorem regSet_pstate (s : State) (off : Nat) (v : DWord) : (regSet s off v).pstate = s.pstate := rfl
@[simp] theorem regSet_throttled (s : State) (off : Nat) (v : DWord) : (regSet s off v).throttled = s.throttled := rfl
@[simp] theorem regSet_below (s : State) (off : Nat) (v : DWord) : (regSet s off v).below = s.below := rfl
@[simp] theorem regSet_free (s : State) (off : Nat) (v : DWord) : (regSet s off v).free = s.free := rfl
@[simp] theorem regSet_agenda (s : State) (off : Nat) (v : DWord) : (regSet s off v).agenda = s.agenda := rfl
@[simp] theorem regSet_cur (s : State) (off : Nat) (v : DWord) : (regSet s off v).cur = s.cur := rfl

/-! ### setLog -/

@[simp] theorem setLog_gtick (s : State) (i : Nat) (l : SliceLog) : (setLog s i l).gtick = s.gtick := rfl
@[simp] theorem setLog_stopped (s : State) (i : Nat) (l : SliceLog) : (setLog s i l).stopped = s.stopped := rfl
@[simp] theorem setLog_mem (s : State) (i : Nat) (l : SliceLog) : (setLog s i l).mem = s.mem := rfl
@[simp] theorem setLog_past (s : State) (i : Nat) (l : SliceLog) : (setLog s i l).past = s.past := rfl
@[simp] theorem setLog_writes (s : State) (i : Nat) (l : SliceLog) : (setLog s i l).writes = s.writes := rfl
@[simp] theorem setLog_poison (s : State) (i : Nat) (l : SliceLog) : (setLog s i l).poison = s.poison := rfl
@[simp] theorem setLog_poisonSeen (s : State) (i : Nat) (l : SliceLog) : (setLog s i l).poisonSeen = s.poisonSeen := rfl
@[simp] theorem setLog_tags (s : State) (i : Nat) (l : SliceLog) : (setLog s i l).tags = s.tags := rfl
@[simp] theorem setLog_squares (s : State) (i : Nat) (l : SliceLog) : (setLog s i l).squares = s.squares := rfl
@[simp] theorem setLog_msc (s : State) (i : Nat) (l : SliceLog) : (setLog s i l).msc = s.msc := rfl
@[simp] theorem setLog_residency (s : State) (i : Nat) (l : SliceLog) : (setLog s i l).residency = s.residency := rfl
@[simp] theorem setLog_monitors (s : State) (i : Nat) (l : SliceLog) : (setLog s i l).monitors = s.monitors := rfl
@[simp] theorem setLog_marks (s : State) (i : Nat) (l : SliceLog) : (setLog s i l).marks = s.marks := rfl
@[simp] theorem setLog_cores (s : State) (i : Nat) (l : SliceLog) : (setLog s i l).cores = s.cores := rfl
@[simp] theorem setLog_teams (s : State) (i : Nat) (l : SliceLog) : (setLog s i l).teams = s.teams := rfl
@[simp] theorem setLog_clusters (s : State) (i : Nat) (l : SliceLog) : (setLog s i l).clusters = s.clusters := rfl
@[simp] theorem setLog_queues (s : State) (i : Nat) (l : SliceLog) : (setLog s i l).queues = s.queues := rfl
@[simp] theorem setLog_launches (s : State) (i : Nat) (l : SliceLog) : (setLog s i l).launches = s.launches := rfl
@[simp] theorem setLog_nextLaunch (s : State) (i : Nat) (l : SliceLog) : (setLog s i l).nextLaunch = s.nextLaunch := rfl
@[simp] theorem setLog_lqs (s : State) (i : Nat) (l : SliceLog) : (setLog s i l).lqs = s.lqs := rfl
@[simp] theorem setLog_ctxs (s : State) (i : Nat) (l : SliceLog) : (setLog s i l).ctxs = s.ctxs := rfl
@[simp] theorem setLog_ops (s : State) (i : Nat) (l : SliceLog) : (setLog s i l).ops = s.ops := rfl
@[simp] theorem setLog_nextOp (s : State) (i : Nat) (l : SliceLog) : (setLog s i l).nextOp = s.nextOp := rfl
@[simp] theorem setLog_rotation (s : State) (i : Nat) (l : SliceLog) : (setLog s i l).rotation = s.rotation := rfl
@[simp] theorem setLog_dec (s : State) (i : Nat) (l : SliceLog) : (setLog s i l).dec = s.dec := rfl
@[simp] theorem setLog_saved (s : State) (i : Nat) (l : SliceLog) : (setLog s i l).saved = s.saved := rfl
@[simp] theorem setLog_swaps (s : State) (i : Nat) (l : SliceLog) : (setLog s i l).swaps = s.swaps := rfl
@[simp] theorem setLog_gamSaved (s : State) (i : Nat) (l : SliceLog) : (setLog s i l).gamSaved = s.gamSaved := rfl
@[simp] theorem setLog_preSave (s : State) (i : Nat) (l : SliceLog) : (setLog s i l).preSave = s.preSave := rfl
@[simp] theorem setLog_firmware (s : State) (i : Nat) (l : SliceLog) : (setLog s i l).firmware = s.firmware := rfl
@[simp] theorem setLog_flash (s : State) (i : Nat) (l : SliceLog) : (setLog s i l).flash = s.flash := rfl
@[simp] theorem setLog_regs (s : State) (i : Nat) (l : SliceLog) : (setLog s i l).regs = s.regs := rfl
@[simp] theorem setLog_posted (s : State) (i : Nat) (l : SliceLog) : (setLog s i l).posted = s.posted := rfl
@[simp] theorem setLog_crumbs (s : State) (i : Nat) (l : SliceLog) : (setLog s i l).crumbs = s.crumbs := rfl
@[simp] theorem setLog_crHead (s : State) (i : Nat) (l : SliceLog) : (setLog s i l).crHead = s.crHead := rfl
@[simp] theorem setLog_mirrored (s : State) (i : Nat) (l : SliceLog) : (setLog s i l).mirrored = s.mirrored := rfl
@[simp] theorem setLog_logs (s : State) (i : Nat) (l : SliceLog) : (setLog s i l).logs = tset s.logs i l := rfl
@[simp] theorem setLog_gatesOpen (s : State) (i : Nat) (l : SliceLog) : (setLog s i l).gatesOpen = s.gatesOpen := rfl
@[simp] theorem setLog_marksUsed (s : State) (i : Nat) (l : SliceLog) : (setLog s i l).marksUsed = s.marksUsed := rfl
@[simp] theorem setLog_retired (s : State) (i : Nat) (l : SliceLog) : (setLog s i l).retired = s.retired := rfl
@[simp] theorem setLog_frameErrors (s : State) (i : Nat) (l : SliceLog) : (setLog s i l).frameErrors = s.frameErrors := rfl
@[simp] theorem setLog_answer (s : State) (i : Nat) (l : SliceLog) : (setLog s i l).answer = s.answer := rfl
@[simp] theorem setLog_fabric (s : State) (i : Nat) (l : SliceLog) : (setLog s i l).fabric = s.fabric := rfl
@[simp] theorem setLog_ports (s : State) (i : Nat) (l : SliceLog) : (setLog s i l).ports = s.ports := rfl
@[simp] theorem setLog_tlbinv (s : State) (i : Nat) (l : SliceLog) : (setLog s i l).tlbinv = s.tlbinv := rfl
@[simp] theorem setLog_attest (s : State) (i : Nat) (l : SliceLog) : (setLog s i l).attest = s.attest := rfl
@[simp] theorem setLog_signed (s : State) (i : Nat) (l : SliceLog) : (setLog s i l).signed = s.signed := rfl
@[simp] theorem setLog_gamrel (s : State) (i : Nat) (l : SliceLog) : (setLog s i l).gamrel = s.gamrel := rfl
@[simp] theorem setLog_pstate (s : State) (i : Nat) (l : SliceLog) : (setLog s i l).pstate = s.pstate := rfl
@[simp] theorem setLog_throttled (s : State) (i : Nat) (l : SliceLog) : (setLog s i l).throttled = s.throttled := rfl
@[simp] theorem setLog_below (s : State) (i : Nat) (l : SliceLog) : (setLog s i l).below = s.below := rfl
@[simp] theorem setLog_free (s : State) (i : Nat) (l : SliceLog) : (setLog s i l).free = s.free := rfl
@[simp] theorem setLog_agenda (s : State) (i : Nat) (l : SliceLog) : (setLog s i l).agenda = s.agenda := rfl
@[simp] theorem setLog_cur (s : State) (i : Nat) (l : SliceLog) : (setLog s i l).cur = s.cur := rfl

/-! ### setTag -/

@[simp] theorem setTag_gtick (s : State) (g : Nat) (t : BitVec 128) : (setTag s g t).gtick = s.gtick := rfl
@[simp] theorem setTag_stopped (s : State) (g : Nat) (t : BitVec 128) : (setTag s g t).stopped = s.stopped := rfl
@[simp] theorem setTag_mem (s : State) (g : Nat) (t : BitVec 128) : (setTag s g t).mem = s.mem := rfl
@[simp] theorem setTag_past (s : State) (g : Nat) (t : BitVec 128) : (setTag s g t).past = s.past := rfl
@[simp] theorem setTag_writes (s : State) (g : Nat) (t : BitVec 128) : (setTag s g t).writes = s.writes := rfl
@[simp] theorem setTag_poison (s : State) (g : Nat) (t : BitVec 128) : (setTag s g t).poison = s.poison := rfl
@[simp] theorem setTag_poisonSeen (s : State) (g : Nat) (t : BitVec 128) : (setTag s g t).poisonSeen = s.poisonSeen := rfl
@[simp] theorem setTag_tags (s : State) (g : Nat) (t : BitVec 128) : (setTag s g t).tags = cset 0 s.tags g t := rfl
@[simp] theorem setTag_squares (s : State) (g : Nat) (t : BitVec 128) : (setTag s g t).squares = s.squares := rfl
@[simp] theorem setTag_msc (s : State) (g : Nat) (t : BitVec 128) : (setTag s g t).msc = s.msc := rfl
@[simp] theorem setTag_residency (s : State) (g : Nat) (t : BitVec 128) : (setTag s g t).residency = s.residency := rfl
@[simp] theorem setTag_monitors (s : State) (g : Nat) (t : BitVec 128) : (setTag s g t).monitors = s.monitors := rfl
@[simp] theorem setTag_marks (s : State) (g : Nat) (t : BitVec 128) : (setTag s g t).marks = s.marks := rfl
@[simp] theorem setTag_cores (s : State) (g : Nat) (t : BitVec 128) : (setTag s g t).cores = s.cores := rfl
@[simp] theorem setTag_teams (s : State) (g : Nat) (t : BitVec 128) : (setTag s g t).teams = s.teams := rfl
@[simp] theorem setTag_clusters (s : State) (g : Nat) (t : BitVec 128) : (setTag s g t).clusters = s.clusters := rfl
@[simp] theorem setTag_queues (s : State) (g : Nat) (t : BitVec 128) : (setTag s g t).queues = s.queues := rfl
@[simp] theorem setTag_launches (s : State) (g : Nat) (t : BitVec 128) : (setTag s g t).launches = s.launches := rfl
@[simp] theorem setTag_nextLaunch (s : State) (g : Nat) (t : BitVec 128) : (setTag s g t).nextLaunch = s.nextLaunch := rfl
@[simp] theorem setTag_lqs (s : State) (g : Nat) (t : BitVec 128) : (setTag s g t).lqs = s.lqs := rfl
@[simp] theorem setTag_ctxs (s : State) (g : Nat) (t : BitVec 128) : (setTag s g t).ctxs = s.ctxs := rfl
@[simp] theorem setTag_ops (s : State) (g : Nat) (t : BitVec 128) : (setTag s g t).ops = s.ops := rfl
@[simp] theorem setTag_nextOp (s : State) (g : Nat) (t : BitVec 128) : (setTag s g t).nextOp = s.nextOp := rfl
@[simp] theorem setTag_rotation (s : State) (g : Nat) (t : BitVec 128) : (setTag s g t).rotation = s.rotation := rfl
@[simp] theorem setTag_dec (s : State) (g : Nat) (t : BitVec 128) : (setTag s g t).dec = s.dec := rfl
@[simp] theorem setTag_saved (s : State) (g : Nat) (t : BitVec 128) : (setTag s g t).saved = s.saved := rfl
@[simp] theorem setTag_swaps (s : State) (g : Nat) (t : BitVec 128) : (setTag s g t).swaps = s.swaps := rfl
@[simp] theorem setTag_gamSaved (s : State) (g : Nat) (t : BitVec 128) : (setTag s g t).gamSaved = s.gamSaved := rfl
@[simp] theorem setTag_preSave (s : State) (g : Nat) (t : BitVec 128) : (setTag s g t).preSave = s.preSave := rfl
@[simp] theorem setTag_firmware (s : State) (g : Nat) (t : BitVec 128) : (setTag s g t).firmware = s.firmware := rfl
@[simp] theorem setTag_flash (s : State) (g : Nat) (t : BitVec 128) : (setTag s g t).flash = s.flash := rfl
@[simp] theorem setTag_regs (s : State) (g : Nat) (t : BitVec 128) : (setTag s g t).regs = s.regs := rfl
@[simp] theorem setTag_posted (s : State) (g : Nat) (t : BitVec 128) : (setTag s g t).posted = s.posted := rfl
@[simp] theorem setTag_crumbs (s : State) (g : Nat) (t : BitVec 128) : (setTag s g t).crumbs = s.crumbs := rfl
@[simp] theorem setTag_crHead (s : State) (g : Nat) (t : BitVec 128) : (setTag s g t).crHead = s.crHead := rfl
@[simp] theorem setTag_mirrored (s : State) (g : Nat) (t : BitVec 128) : (setTag s g t).mirrored = s.mirrored := rfl
@[simp] theorem setTag_logs (s : State) (g : Nat) (t : BitVec 128) : (setTag s g t).logs = s.logs := rfl
@[simp] theorem setTag_gatesOpen (s : State) (g : Nat) (t : BitVec 128) : (setTag s g t).gatesOpen = s.gatesOpen := rfl
@[simp] theorem setTag_marksUsed (s : State) (g : Nat) (t : BitVec 128) : (setTag s g t).marksUsed = s.marksUsed := rfl
@[simp] theorem setTag_retired (s : State) (g : Nat) (t : BitVec 128) : (setTag s g t).retired = s.retired := rfl
@[simp] theorem setTag_frameErrors (s : State) (g : Nat) (t : BitVec 128) : (setTag s g t).frameErrors = s.frameErrors := rfl
@[simp] theorem setTag_answer (s : State) (g : Nat) (t : BitVec 128) : (setTag s g t).answer = s.answer := rfl
@[simp] theorem setTag_fabric (s : State) (g : Nat) (t : BitVec 128) : (setTag s g t).fabric = s.fabric := rfl
@[simp] theorem setTag_ports (s : State) (g : Nat) (t : BitVec 128) : (setTag s g t).ports = s.ports := rfl
@[simp] theorem setTag_tlbinv (s : State) (g : Nat) (t : BitVec 128) : (setTag s g t).tlbinv = s.tlbinv := rfl
@[simp] theorem setTag_attest (s : State) (g : Nat) (t : BitVec 128) : (setTag s g t).attest = s.attest := rfl
@[simp] theorem setTag_signed (s : State) (g : Nat) (t : BitVec 128) : (setTag s g t).signed = s.signed := rfl
@[simp] theorem setTag_gamrel (s : State) (g : Nat) (t : BitVec 128) : (setTag s g t).gamrel = s.gamrel := rfl
@[simp] theorem setTag_pstate (s : State) (g : Nat) (t : BitVec 128) : (setTag s g t).pstate = s.pstate := rfl
@[simp] theorem setTag_throttled (s : State) (g : Nat) (t : BitVec 128) : (setTag s g t).throttled = s.throttled := rfl
@[simp] theorem setTag_below (s : State) (g : Nat) (t : BitVec 128) : (setTag s g t).below = s.below := rfl
@[simp] theorem setTag_free (s : State) (g : Nat) (t : BitVec 128) : (setTag s g t).free = s.free := rfl
@[simp] theorem setTag_agenda (s : State) (g : Nat) (t : BitVec 128) : (setTag s g t).agenda = s.agenda := rfl
@[simp] theorem setTag_cur (s : State) (g : Nat) (t : BitVec 128) : (setTag s g t).cur = s.cur := rfl

/-! ### crumb -/

@[simp] theorem crumb_gtick (s : State) (c u : BitVec 16) (d : List Byte) : (crumb s c u d).gtick = s.gtick := rfl
@[simp] theorem crumb_stopped (s : State) (c u : BitVec 16) (d : List Byte) : (crumb s c u d).stopped = s.stopped := rfl
@[simp] theorem crumb_mem (s : State) (c u : BitVec 16) (d : List Byte) : (crumb s c u d).mem = s.mem := rfl
@[simp] theorem crumb_past (s : State) (c u : BitVec 16) (d : List Byte) : (crumb s c u d).past = s.past := rfl
@[simp] theorem crumb_writes (s : State) (c u : BitVec 16) (d : List Byte) : (crumb s c u d).writes = s.writes := rfl
@[simp] theorem crumb_poison (s : State) (c u : BitVec 16) (d : List Byte) : (crumb s c u d).poison = s.poison := rfl
@[simp] theorem crumb_poisonSeen (s : State) (c u : BitVec 16) (d : List Byte) : (crumb s c u d).poisonSeen = s.poisonSeen := rfl
@[simp] theorem crumb_tags (s : State) (c u : BitVec 16) (d : List Byte) : (crumb s c u d).tags = s.tags := rfl
@[simp] theorem crumb_squares (s : State) (c u : BitVec 16) (d : List Byte) : (crumb s c u d).squares = s.squares := rfl
@[simp] theorem crumb_msc (s : State) (c u : BitVec 16) (d : List Byte) : (crumb s c u d).msc = s.msc := rfl
@[simp] theorem crumb_residency (s : State) (c u : BitVec 16) (d : List Byte) : (crumb s c u d).residency = s.residency := rfl
@[simp] theorem crumb_monitors (s : State) (c u : BitVec 16) (d : List Byte) : (crumb s c u d).monitors = s.monitors := rfl
@[simp] theorem crumb_marks (s : State) (c u : BitVec 16) (d : List Byte) : (crumb s c u d).marks = s.marks := rfl
@[simp] theorem crumb_cores (s : State) (c u : BitVec 16) (d : List Byte) : (crumb s c u d).cores = s.cores := rfl
@[simp] theorem crumb_teams (s : State) (c u : BitVec 16) (d : List Byte) : (crumb s c u d).teams = s.teams := rfl
@[simp] theorem crumb_clusters (s : State) (c u : BitVec 16) (d : List Byte) : (crumb s c u d).clusters = s.clusters := rfl
@[simp] theorem crumb_queues (s : State) (c u : BitVec 16) (d : List Byte) : (crumb s c u d).queues = s.queues := rfl
@[simp] theorem crumb_launches (s : State) (c u : BitVec 16) (d : List Byte) : (crumb s c u d).launches = s.launches := rfl
@[simp] theorem crumb_nextLaunch (s : State) (c u : BitVec 16) (d : List Byte) : (crumb s c u d).nextLaunch = s.nextLaunch := rfl
@[simp] theorem crumb_lqs (s : State) (c u : BitVec 16) (d : List Byte) : (crumb s c u d).lqs = s.lqs := rfl
@[simp] theorem crumb_ctxs (s : State) (c u : BitVec 16) (d : List Byte) : (crumb s c u d).ctxs = s.ctxs := rfl
@[simp] theorem crumb_ops (s : State) (c u : BitVec 16) (d : List Byte) : (crumb s c u d).ops = s.ops := rfl
@[simp] theorem crumb_nextOp (s : State) (c u : BitVec 16) (d : List Byte) : (crumb s c u d).nextOp = s.nextOp := rfl
@[simp] theorem crumb_rotation (s : State) (c u : BitVec 16) (d : List Byte) : (crumb s c u d).rotation = s.rotation := rfl
@[simp] theorem crumb_dec (s : State) (c u : BitVec 16) (d : List Byte) : (crumb s c u d).dec = s.dec := rfl
@[simp] theorem crumb_saved (s : State) (c u : BitVec 16) (d : List Byte) : (crumb s c u d).saved = s.saved := rfl
@[simp] theorem crumb_swaps (s : State) (c u : BitVec 16) (d : List Byte) : (crumb s c u d).swaps = s.swaps := rfl
@[simp] theorem crumb_gamSaved (s : State) (c u : BitVec 16) (d : List Byte) : (crumb s c u d).gamSaved = s.gamSaved := rfl
@[simp] theorem crumb_preSave (s : State) (c u : BitVec 16) (d : List Byte) : (crumb s c u d).preSave = s.preSave := rfl
@[simp] theorem crumb_firmware (s : State) (c u : BitVec 16) (d : List Byte) : (crumb s c u d).firmware = s.firmware := rfl
@[simp] theorem crumb_flash (s : State) (c u : BitVec 16) (d : List Byte) : (crumb s c u d).flash = s.flash := rfl
@[simp] theorem crumb_regs (s : State) (c u : BitVec 16) (d : List Byte) : (crumb s c u d).regs = s.regs := rfl
@[simp] theorem crumb_posted (s : State) (c u : BitVec 16) (d : List Byte) : (crumb s c u d).posted = s.posted := rfl
@[simp] theorem crumb_crHead (s : State) (c u : BitVec 16) (d : List Byte) : (crumb s c u d).crHead = s.crHead + 1 := rfl
@[simp] theorem crumb_mirrored (s : State) (c u : BitVec 16) (d : List Byte) : (crumb s c u d).mirrored = s.mirrored := rfl
@[simp] theorem crumb_logs (s : State) (c u : BitVec 16) (d : List Byte) : (crumb s c u d).logs = s.logs := rfl
@[simp] theorem crumb_gatesOpen (s : State) (c u : BitVec 16) (d : List Byte) : (crumb s c u d).gatesOpen = s.gatesOpen := rfl
@[simp] theorem crumb_marksUsed (s : State) (c u : BitVec 16) (d : List Byte) : (crumb s c u d).marksUsed = s.marksUsed := rfl
@[simp] theorem crumb_retired (s : State) (c u : BitVec 16) (d : List Byte) : (crumb s c u d).retired = s.retired := rfl
@[simp] theorem crumb_frameErrors (s : State) (c u : BitVec 16) (d : List Byte) : (crumb s c u d).frameErrors = s.frameErrors := rfl
@[simp] theorem crumb_answer (s : State) (c u : BitVec 16) (d : List Byte) : (crumb s c u d).answer = s.answer := rfl
@[simp] theorem crumb_fabric (s : State) (c u : BitVec 16) (d : List Byte) : (crumb s c u d).fabric = s.fabric := rfl
@[simp] theorem crumb_ports (s : State) (c u : BitVec 16) (d : List Byte) : (crumb s c u d).ports = s.ports := rfl
@[simp] theorem crumb_tlbinv (s : State) (c u : BitVec 16) (d : List Byte) : (crumb s c u d).tlbinv = s.tlbinv := rfl
@[simp] theorem crumb_attest (s : State) (c u : BitVec 16) (d : List Byte) : (crumb s c u d).attest = s.attest := rfl
@[simp] theorem crumb_signed (s : State) (c u : BitVec 16) (d : List Byte) : (crumb s c u d).signed = s.signed := rfl
@[simp] theorem crumb_gamrel (s : State) (c u : BitVec 16) (d : List Byte) : (crumb s c u d).gamrel = s.gamrel := rfl
@[simp] theorem crumb_pstate (s : State) (c u : BitVec 16) (d : List Byte) : (crumb s c u d).pstate = s.pstate := rfl
@[simp] theorem crumb_throttled (s : State) (c u : BitVec 16) (d : List Byte) : (crumb s c u d).throttled = s.throttled := rfl
@[simp] theorem crumb_below (s : State) (c u : BitVec 16) (d : List Byte) : (crumb s c u d).below = s.below := rfl
@[simp] theorem crumb_free (s : State) (c u : BitVec 16) (d : List Byte) : (crumb s c u d).free = s.free := rfl
@[simp] theorem crumb_agenda (s : State) (c u : BitVec 16) (d : List Byte) : (crumb s c u d).agenda = s.agenda := rfl
@[simp] theorem crumb_cur (s : State) (c u : BitVec 16) (d : List Byte) : (crumb s c u d).cur = s.cur := rfl

/-! ### modGroup -/

@[simp] theorem modGroup_core (t : Team) (i : Nat) (f : Grp → Grp) : (modGroup t i f).core = t.core := rfl
@[simp] theorem modGroup_no (t : Team) (i : Nat) (f : Grp → Grp) : (modGroup t i f).no = t.no := rfl
@[simp] theorem modGroup_info (t : Team) (i : Nat) (f : Grp → Grp) : (modGroup t i f).info = t.info := rfl
@[simp] theorem modGroup_windows (t : Team) (i : Nat) (f : Grp → Grp) : (modGroup t i f).windows = t.windows := rfl
@[simp] theorem modGroup_cbt (t : Team) (i : Nat) (f : Grp → Grp) : (modGroup t i f).cbt = t.cbt := rfl
@[simp] theorem modGroup_scratch (t : Team) (i : Nat) (f : Grp → Grp) : (modGroup t i f).scratch = t.scratch := rfl
@[simp] theorem modGroup_tags (t : Team) (i : Nat) (f : Grp → Grp) : (modGroup t i f).tags = t.tags := rfl
@[simp] theorem modGroup_absent (t : Team) (i : Nat) (f : Grp → Grp) : (modGroup t i f).absent = t.absent := rfl
@[simp] theorem modGroup_poison (t : Team) (i : Nat) (f : Grp → Grp) : (modGroup t i f).poison = t.poison := rfl
@[simp] theorem modGroup_poisonSeen (t : Team) (i : Nat) (f : Grp → Grp) : (modGroup t i f).poisonSeen = t.poisonSeen := rfl
@[simp] theorem modGroup_threads (t : Team) (i : Nat) (f : Grp → Grp) : (modGroup t i f).threads = t.threads := rfl
@[simp] theorem modGroup_warps (t : Team) (i : Nat) (f : Grp → Grp) : (modGroup t i f).warps = t.warps := rfl
@[simp] theorem modGroup_nextGid (t : Team) (i : Nat) (f : Grp → Grp) : (modGroup t i f).nextGid = t.nextGid := rfl
@[simp] theorem modGroup_nextSplit (t : Team) (i : Nat) (f : Grp → Grp) : (modGroup t i f).nextSplit = t.nextSplit := rfl
@[simp] theorem modGroup_bins (t : Team) (i : Nat) (f : Grp → Grp) : (modGroup t i f).bins = t.bins := rfl
@[simp] theorem modGroup_spawnBins (t : Team) (i : Nat) (f : Grp → Grp) : (modGroup t i f).spawnBins = t.spawnBins := rfl
@[simp] theorem modGroup_bars (t : Team) (i : Nat) (f : Grp → Grp) : (modGroup t i f).bars = t.bars := rfl
@[simp] theorem modGroup_ports (t : Team) (i : Nat) (f : Grp → Grp) : (modGroup t i f).ports = t.ports := rfl
@[simp] theorem modGroup_portOffs (t : Team) (i : Nat) (f : Grp → Grp) : (modGroup t i f).portOffs = t.portOffs := rfl
@[simp] theorem modGroup_ext (t : Team) (i : Nat) (f : Grp → Grp) : (modGroup t i f).ext = t.ext := rfl
@[simp] theorem modGroup_brk (t : Team) (i : Nat) (f : Grp → Grp) : (modGroup t i f).brk = t.brk := rfl

/-! ### setWarp -/

@[simp] theorem setWarp_core (t : Team) (w : Nat) (x : Warp) : (setWarp t w x).core = t.core := rfl
@[simp] theorem setWarp_no (t : Team) (w : Nat) (x : Warp) : (setWarp t w x).no = t.no := rfl
@[simp] theorem setWarp_info (t : Team) (w : Nat) (x : Warp) : (setWarp t w x).info = t.info := rfl
@[simp] theorem setWarp_windows (t : Team) (w : Nat) (x : Warp) : (setWarp t w x).windows = t.windows := rfl
@[simp] theorem setWarp_cbt (t : Team) (w : Nat) (x : Warp) : (setWarp t w x).cbt = t.cbt := rfl
@[simp] theorem setWarp_scratch (t : Team) (w : Nat) (x : Warp) : (setWarp t w x).scratch = t.scratch := rfl
@[simp] theorem setWarp_tags (t : Team) (w : Nat) (x : Warp) : (setWarp t w x).tags = t.tags := rfl
@[simp] theorem setWarp_absent (t : Team) (w : Nat) (x : Warp) : (setWarp t w x).absent = t.absent := rfl
@[simp] theorem setWarp_poison (t : Team) (w : Nat) (x : Warp) : (setWarp t w x).poison = t.poison := rfl
@[simp] theorem setWarp_poisonSeen (t : Team) (w : Nat) (x : Warp) : (setWarp t w x).poisonSeen = t.poisonSeen := rfl
@[simp] theorem setWarp_threads (t : Team) (w : Nat) (x : Warp) : (setWarp t w x).threads = t.threads := rfl
@[simp] theorem setWarp_groups (t : Team) (w : Nat) (x : Warp) : (setWarp t w x).groups = t.groups := rfl
@[simp] theorem setWarp_nextGid (t : Team) (w : Nat) (x : Warp) : (setWarp t w x).nextGid = t.nextGid := rfl
@[simp] theorem setWarp_nextSplit (t : Team) (w : Nat) (x : Warp) : (setWarp t w x).nextSplit = t.nextSplit := rfl
@[simp] theorem setWarp_bins (t : Team) (w : Nat) (x : Warp) : (setWarp t w x).bins = t.bins := rfl
@[simp] theorem setWarp_spawnBins (t : Team) (w : Nat) (x : Warp) : (setWarp t w x).spawnBins = t.spawnBins := rfl
@[simp] theorem setWarp_bars (t : Team) (w : Nat) (x : Warp) : (setWarp t w x).bars = t.bars := rfl
@[simp] theorem setWarp_ports (t : Team) (w : Nat) (x : Warp) : (setWarp t w x).ports = t.ports := rfl
@[simp] theorem setWarp_portOffs (t : Team) (w : Nat) (x : Warp) : (setWarp t w x).portOffs = t.portOffs := rfl
@[simp] theorem setWarp_ext (t : Team) (w : Nat) (x : Warp) : (setWarp t w x).ext = t.ext := rfl
@[simp] theorem setWarp_brk (t : Team) (w : Nat) (x : Warp) : (setWarp t w x).brk = t.brk := rfl

/-! ### modWarp -/

@[simp] theorem modWarp_core (t : Team) (w : Nat) (f : Warp → Warp) : (modWarp t w f).core = t.core := rfl
@[simp] theorem modWarp_no (t : Team) (w : Nat) (f : Warp → Warp) : (modWarp t w f).no = t.no := rfl
@[simp] theorem modWarp_info (t : Team) (w : Nat) (f : Warp → Warp) : (modWarp t w f).info = t.info := rfl
@[simp] theorem modWarp_windows (t : Team) (w : Nat) (f : Warp → Warp) : (modWarp t w f).windows = t.windows := rfl
@[simp] theorem modWarp_cbt (t : Team) (w : Nat) (f : Warp → Warp) : (modWarp t w f).cbt = t.cbt := rfl
@[simp] theorem modWarp_scratch (t : Team) (w : Nat) (f : Warp → Warp) : (modWarp t w f).scratch = t.scratch := rfl
@[simp] theorem modWarp_tags (t : Team) (w : Nat) (f : Warp → Warp) : (modWarp t w f).tags = t.tags := rfl
@[simp] theorem modWarp_absent (t : Team) (w : Nat) (f : Warp → Warp) : (modWarp t w f).absent = t.absent := rfl
@[simp] theorem modWarp_poison (t : Team) (w : Nat) (f : Warp → Warp) : (modWarp t w f).poison = t.poison := rfl
@[simp] theorem modWarp_poisonSeen (t : Team) (w : Nat) (f : Warp → Warp) : (modWarp t w f).poisonSeen = t.poisonSeen := rfl
@[simp] theorem modWarp_threads (t : Team) (w : Nat) (f : Warp → Warp) : (modWarp t w f).threads = t.threads := rfl
@[simp] theorem modWarp_groups (t : Team) (w : Nat) (f : Warp → Warp) : (modWarp t w f).groups = t.groups := rfl
@[simp] theorem modWarp_nextGid (t : Team) (w : Nat) (f : Warp → Warp) : (modWarp t w f).nextGid = t.nextGid := rfl
@[simp] theorem modWarp_nextSplit (t : Team) (w : Nat) (f : Warp → Warp) : (modWarp t w f).nextSplit = t.nextSplit := rfl
@[simp] theorem modWarp_bins (t : Team) (w : Nat) (f : Warp → Warp) : (modWarp t w f).bins = t.bins := rfl
@[simp] theorem modWarp_spawnBins (t : Team) (w : Nat) (f : Warp → Warp) : (modWarp t w f).spawnBins = t.spawnBins := rfl
@[simp] theorem modWarp_bars (t : Team) (w : Nat) (f : Warp → Warp) : (modWarp t w f).bars = t.bars := rfl
@[simp] theorem modWarp_ports (t : Team) (w : Nat) (f : Warp → Warp) : (modWarp t w f).ports = t.ports := rfl
@[simp] theorem modWarp_portOffs (t : Team) (w : Nat) (f : Warp → Warp) : (modWarp t w f).portOffs = t.portOffs := rfl
@[simp] theorem modWarp_ext (t : Team) (w : Nat) (f : Warp → Warp) : (modWarp t w f).ext = t.ext := rfl
@[simp] theorem modWarp_brk (t : Team) (w : Nat) (f : Warp → Warp) : (modWarp t w f).brk = t.brk := rfl

/-! ### modThread -/

@[simp] theorem modThread_core (t : Team) (i : Nat) (f : Thread → Thread) : (modThread t i f).core = t.core := rfl
@[simp] theorem modThread_no (t : Team) (i : Nat) (f : Thread → Thread) : (modThread t i f).no = t.no := rfl
@[simp] theorem modThread_info (t : Team) (i : Nat) (f : Thread → Thread) : (modThread t i f).info = t.info := rfl
@[simp] theorem modThread_windows (t : Team) (i : Nat) (f : Thread → Thread) : (modThread t i f).windows = t.windows := rfl
@[simp] theorem modThread_cbt (t : Team) (i : Nat) (f : Thread → Thread) : (modThread t i f).cbt = t.cbt := rfl
@[simp] theorem modThread_scratch (t : Team) (i : Nat) (f : Thread → Thread) : (modThread t i f).scratch = t.scratch := rfl
@[simp] theorem modThread_tags (t : Team) (i : Nat) (f : Thread → Thread) : (modThread t i f).tags = t.tags := rfl
@[simp] theorem modThread_absent (t : Team) (i : Nat) (f : Thread → Thread) : (modThread t i f).absent = t.absent := rfl
@[simp] theorem modThread_poison (t : Team) (i : Nat) (f : Thread → Thread) : (modThread t i f).poison = t.poison := rfl
@[simp] theorem modThread_poisonSeen (t : Team) (i : Nat) (f : Thread → Thread) : (modThread t i f).poisonSeen = t.poisonSeen := rfl
@[simp] theorem modThread_warps (t : Team) (i : Nat) (f : Thread → Thread) : (modThread t i f).warps = t.warps := rfl
@[simp] theorem modThread_groups (t : Team) (i : Nat) (f : Thread → Thread) : (modThread t i f).groups = t.groups := rfl
@[simp] theorem modThread_nextGid (t : Team) (i : Nat) (f : Thread → Thread) : (modThread t i f).nextGid = t.nextGid := rfl
@[simp] theorem modThread_nextSplit (t : Team) (i : Nat) (f : Thread → Thread) : (modThread t i f).nextSplit = t.nextSplit := rfl
@[simp] theorem modThread_bins (t : Team) (i : Nat) (f : Thread → Thread) : (modThread t i f).bins = t.bins := rfl
@[simp] theorem modThread_spawnBins (t : Team) (i : Nat) (f : Thread → Thread) : (modThread t i f).spawnBins = t.spawnBins := rfl
@[simp] theorem modThread_bars (t : Team) (i : Nat) (f : Thread → Thread) : (modThread t i f).bars = t.bars := rfl
@[simp] theorem modThread_ports (t : Team) (i : Nat) (f : Thread → Thread) : (modThread t i f).ports = t.ports := rfl
@[simp] theorem modThread_portOffs (t : Team) (i : Nat) (f : Thread → Thread) : (modThread t i f).portOffs = t.portOffs := rfl
@[simp] theorem modThread_ext (t : Team) (i : Nat) (f : Thread → Thread) : (modThread t i f).ext = t.ext := rfl
@[simp] theorem modThread_brk (t : Team) (i : Nat) (f : Thread → Thread) : (modThread t i f).brk = t.brk := rfl

/-! ### addGroup -/

@[simp] theorem addGroup_core (t : Team) (g : Nat → Grp) : (addGroup t g).core = t.core := rfl
@[simp] theorem addGroup_no (t : Team) (g : Nat → Grp) : (addGroup t g).no = t.no := rfl
@[simp] theorem addGroup_info (t : Team) (g : Nat → Grp) : (addGroup t g).info = t.info := rfl
@[simp] theorem addGroup_windows (t : Team) (g : Nat → Grp) : (addGroup t g).windows = t.windows := rfl
@[simp] theorem addGroup_cbt (t : Team) (g : Nat → Grp) : (addGroup t g).cbt = t.cbt := rfl
@[simp] theorem addGroup_scratch (t : Team) (g : Nat → Grp) : (addGroup t g).scratch = t.scratch := rfl
@[simp] theorem addGroup_tags (t : Team) (g : Nat → Grp) : (addGroup t g).tags = t.tags := rfl
@[simp] theorem addGroup_absent (t : Team) (g : Nat → Grp) : (addGroup t g).absent = t.absent := rfl
@[simp] theorem addGroup_poison (t : Team) (g : Nat → Grp) : (addGroup t g).poison = t.poison := rfl
@[simp] theorem addGroup_poisonSeen (t : Team) (g : Nat → Grp) : (addGroup t g).poisonSeen = t.poisonSeen := rfl
@[simp] theorem addGroup_threads (t : Team) (g : Nat → Grp) : (addGroup t g).threads = t.threads := rfl
@[simp] theorem addGroup_warps (t : Team) (g : Nat → Grp) : (addGroup t g).warps = t.warps := rfl
@[simp] theorem addGroup_groups (t : Team) (g : Nat → Grp) : (addGroup t g).groups = t.groups ++ [g t.nextGid] := rfl
@[simp] theorem addGroup_nextGid (t : Team) (g : Nat → Grp) : (addGroup t g).nextGid = t.nextGid + 1 := rfl
@[simp] theorem addGroup_nextSplit (t : Team) (g : Nat → Grp) : (addGroup t g).nextSplit = t.nextSplit := rfl
@[simp] theorem addGroup_bins (t : Team) (g : Nat → Grp) : (addGroup t g).bins = t.bins := rfl
@[simp] theorem addGroup_spawnBins (t : Team) (g : Nat → Grp) : (addGroup t g).spawnBins = t.spawnBins := rfl
@[simp] theorem addGroup_bars (t : Team) (g : Nat → Grp) : (addGroup t g).bars = t.bars := rfl
@[simp] theorem addGroup_ports (t : Team) (g : Nat → Grp) : (addGroup t g).ports = t.ports := rfl
@[simp] theorem addGroup_portOffs (t : Team) (g : Nat → Grp) : (addGroup t g).portOffs = t.portOffs := rfl
@[simp] theorem addGroup_ext (t : Team) (g : Nat → Grp) : (addGroup t g).ext = t.ext := rfl
@[simp] theorem addGroup_brk (t : Team) (g : Nat → Grp) : (addGroup t g).brk = t.brk := rfl

/-! ### advance -/

@[simp] theorem advance_core (s : State) (t : Team) : (advance s t).core = t.core := rfl
@[simp] theorem advance_no (s : State) (t : Team) : (advance s t).no = t.no := rfl
@[simp] theorem advance_info (s : State) (t : Team) : (advance s t).info = t.info := rfl
@[simp] theorem advance_windows (s : State) (t : Team) : (advance s t).windows = t.windows := rfl
@[simp] theorem advance_cbt (s : State) (t : Team) : (advance s t).cbt = t.cbt := rfl
@[simp] theorem advance_scratch (s : State) (t : Team) : (advance s t).scratch = t.scratch := rfl
@[simp] theorem advance_tags (s : State) (t : Team) : (advance s t).tags = t.tags := rfl
@[simp] theorem advance_absent (s : State) (t : Team) : (advance s t).absent = t.absent := rfl
@[simp] theorem advance_poison (s : State) (t : Team) : (advance s t).poison = t.poison := rfl
@[simp] theorem advance_poisonSeen (s : State) (t : Team) : (advance s t).poisonSeen = t.poisonSeen := rfl
@[simp] theorem advance_threads (s : State) (t : Team) : (advance s t).threads = t.threads := rfl
@[simp] theorem advance_warps (s : State) (t : Team) : (advance s t).warps = t.warps := rfl
@[simp] theorem advance_nextGid (s : State) (t : Team) : (advance s t).nextGid = t.nextGid := rfl
@[simp] theorem advance_nextSplit (s : State) (t : Team) : (advance s t).nextSplit = t.nextSplit := rfl
@[simp] theorem advance_bins (s : State) (t : Team) : (advance s t).bins = t.bins := rfl
@[simp] theorem advance_spawnBins (s : State) (t : Team) : (advance s t).spawnBins = t.spawnBins := rfl
@[simp] theorem advance_bars (s : State) (t : Team) : (advance s t).bars = t.bars := rfl
@[simp] theorem advance_ports (s : State) (t : Team) : (advance s t).ports = t.ports := rfl
@[simp] theorem advance_portOffs (s : State) (t : Team) : (advance s t).portOffs = t.portOffs := rfl
@[simp] theorem advance_ext (s : State) (t : Team) : (advance s t).ext = t.ext := rfl
@[simp] theorem advance_brk (s : State) (t : Team) : (advance s t).brk = t.brk := rfl

/-! ### setU and setFlag: s0 and c0 discard (R232) -/

@[simp] theorem setU_formed (w : Warp) (n : Nat) (x : DWord) : (setU w n x).formed = w.formed := by unfold setU; split <;> rfl
@[simp] theorem setU_c (w : Warp) (n : Nat) (x : DWord) : (setU w n x).c = w.c := by unfold setU; split <;> rfl
@[simp] theorem setU_h (w : Warp) (n : Nat) (x : DWord) : (setU w n x).h = w.h := by unfold setU; split <;> rfl
@[simp] theorem setU_md (w : Warp) (n : Nat) (x : DWord) : (setU w n x).md = w.md := by unfold setU; split <;> rfl
@[simp] theorem setU_wc (w : Warp) (n : Nat) (x : DWord) : (setU w n x).wc = w.wc := by unfold setU; split <;> rfl
@[simp] theorem setU_stack (w : Warp) (n : Nat) (x : DWord) : (setU w n x).stack = w.stack := by unfold setU; split <;> rfl
@[simp] theorem setU_gbase (w : Warp) (n : Nat) (x : DWord) : (setU w n x).gbase = w.gbase := by unfold setU; split <;> rfl
@[simp] theorem setU_nmon (w : Warp) (n : Nat) (x : DWord) : (setU w n x).nmon = w.nmon := by unfold setU; split <;> rfl
@[simp] theorem setU_nema (w : Warp) (n : Nat) (x : DWord) : (setU w n x).nema = w.nema := by unfold setU; split <;> rfl
@[simp] theorem setU_storehash (w : Warp) (n : Nat) (x : DWord) : (setU w n x).storehash = w.storehash := by unfold setU; split <;> rfl
@[simp] theorem setU_ssbind (w : Warp) (n : Nat) (x : DWord) : (setU w n x).ssbind = w.ssbind := by unfold setU; split <;> rfl
@[simp] theorem setU_partner (w : Warp) (n : Nat) (x : DWord) : (setU w n x).partner = w.partner := by unfold setU; split <;> rfl
@[simp] theorem setU_token (w : Warp) (n : Nat) (x : DWord) : (setU w n x).token = w.token := by unfold setU; split <;> rfl
@[simp] theorem setU_lastClass (w : Warp) (n : Nat) (x : DWord) : (setU w n x).lastClass = w.lastClass := by unfold setU; split <;> rfl
@[simp] theorem setU_since (w : Warp) (n : Nat) (x : DWord) : (setU w n x).since = w.since := by unfold setU; split <;> rfl
@[simp] theorem setU_swapped (w : Warp) (n : Nat) (x : DWord) : (setU w n x).swapped = w.swapped := by unfold setU; split <;> rfl
@[simp] theorem setFlag_formed (w : Warp) (n : Nat) (b : Bool) : (setFlag w n b).formed = w.formed := by unfold setFlag; split <;> rfl
@[simp] theorem setFlag_s (w : Warp) (n : Nat) (b : Bool) : (setFlag w n b).s = w.s := by unfold setFlag; split <;> rfl
@[simp] theorem setFlag_h (w : Warp) (n : Nat) (b : Bool) : (setFlag w n b).h = w.h := by unfold setFlag; split <;> rfl
@[simp] theorem setFlag_md (w : Warp) (n : Nat) (b : Bool) : (setFlag w n b).md = w.md := by unfold setFlag; split <;> rfl
@[simp] theorem setFlag_wc (w : Warp) (n : Nat) (b : Bool) : (setFlag w n b).wc = w.wc := by unfold setFlag; split <;> rfl
@[simp] theorem setFlag_stack (w : Warp) (n : Nat) (b : Bool) : (setFlag w n b).stack = w.stack := by unfold setFlag; split <;> rfl
@[simp] theorem setFlag_gbase (w : Warp) (n : Nat) (b : Bool) : (setFlag w n b).gbase = w.gbase := by unfold setFlag; split <;> rfl
@[simp] theorem setFlag_nmon (w : Warp) (n : Nat) (b : Bool) : (setFlag w n b).nmon = w.nmon := by unfold setFlag; split <;> rfl
@[simp] theorem setFlag_nema (w : Warp) (n : Nat) (b : Bool) : (setFlag w n b).nema = w.nema := by unfold setFlag; split <;> rfl
@[simp] theorem setFlag_storehash (w : Warp) (n : Nat) (b : Bool) : (setFlag w n b).storehash = w.storehash := by unfold setFlag; split <;> rfl
@[simp] theorem setFlag_ssbind (w : Warp) (n : Nat) (b : Bool) : (setFlag w n b).ssbind = w.ssbind := by unfold setFlag; split <;> rfl
@[simp] theorem setFlag_partner (w : Warp) (n : Nat) (b : Bool) : (setFlag w n b).partner = w.partner := by unfold setFlag; split <;> rfl
@[simp] theorem setFlag_token (w : Warp) (n : Nat) (b : Bool) : (setFlag w n b).token = w.token := by unfold setFlag; split <;> rfl
@[simp] theorem setFlag_lastClass (w : Warp) (n : Nat) (b : Bool) : (setFlag w n b).lastClass = w.lastClass := by unfold setFlag; split <;> rfl
@[simp] theorem setFlag_since (w : Warp) (n : Nat) (b : Bool) : (setFlag w n b).since = w.since := by unfold setFlag; split <;> rfl
@[simp] theorem setFlag_swapped (w : Warp) (n : Nat) (b : Bool) : (setFlag w n b).swapped = w.swapped := by unfold setFlag; split <;> rfl
@[simp] theorem setLanePred_live (th : Thread) (n : Nat) (b : Bool) : (setLanePred th n b).live = th.live := by unfold setLanePred; split <;> rfl
@[simp] theorem setLanePred_helper (th : Thread) (n : Nat) (b : Bool) : (setLanePred th n b).helper = th.helper := by unfold setLanePred; split <;> rfl
@[simp] theorem setLanePred_quit (th : Thread) (n : Nat) (b : Bool) : (setLanePred th n b).quit = th.quit := by unfold setLanePred; split <;> rfl
@[simp] theorem setLanePred_seated (th : Thread) (n : Nat) (b : Bool) : (setLanePred th n b).seated = th.seated := by unfold setLanePred; split <;> rfl
@[simp] theorem setLanePred_slot (th : Thread) (n : Nat) (b : Bool) : (setLanePred th n b).slot = th.slot := by unfold setLanePred; split <;> rfl
@[simp] theorem setLanePred_v (th : Thread) (n : Nat) (b : Bool) : (setLanePred th n b).v = th.v := by unfold setLanePred; split <;> rfl
@[simp] theorem setLanePred_clk (th : Thread) (n : Nat) (b : Bool) : (setLanePred th n b).clk = th.clk := by unfold setLanePred; split <;> rfl
@[simp] theorem setLanePred_sat (th : Thread) (n : Nat) (b : Bool) : (setLanePred th n b).sat = th.sat := by unfold setLanePred; split <;> rfl
@[simp] theorem setLanePred_satDue (th : Thread) (n : Nat) (b : Bool) : (setLanePred th n b).satDue = th.satDue := by unfold setLanePred; split <;> rfl
@[simp] theorem setLanePred_lstat (th : Thread) (n : Nat) (b : Bool) : (setLanePred th n b).lstat = th.lstat := by unfold setLanePred; split <;> rfl
@[simp] theorem setLanePred_pend (th : Thread) (n : Nat) (b : Bool) : (setLanePred th n b).pend = th.pend := by unfold setLanePred; split <;> rfl
@[simp] theorem setLanePred_aside (th : Thread) (n : Nat) (b : Bool) : (setLanePred th n b).aside = th.aside := by unfold setLanePred; split <;> rfl
@[simp] theorem setLanePred_seen (th : Thread) (n : Nat) (b : Bool) : (setLanePred th n b).seen = th.seen := by unfold setLanePred; split <;> rfl
@[simp] theorem setLanePred_stamp (th : Thread) (n : Nat) (b : Bool) : (setLanePred th n b).stamp = th.stamp := by unfold setLanePred; split <;> rfl
@[simp] theorem setLanePred_arrived (th : Thread) (n : Nat) (b : Bool) : (setLanePred th n b).arrived = th.arrived := by unfold setLanePred; split <;> rfl
@[simp] theorem setLanePred_barClk (th : Thread) (n : Nat) (b : Bool) : (setLanePred th n b).barClk = th.barClk := by unfold setLanePred; split <;> rfl
@[simp] theorem setLanePred_unchecked (th : Thread) (n : Nat) (b : Bool) : (setLanePred th n b).unchecked = th.unchecked := by unfold setLanePred; split <;> rfl
@[simp] theorem setLanePred_floors (th : Thread) (n : Nat) (b : Bool) : (setLanePred th n b).floors = th.floors := by unfold setLanePred; split <;> rfl
@[simp] theorem setLanePred_acq (th : Thread) (n : Nat) (b : Bool) : (setLanePred th n b).acq = th.acq := by unfold setLanePred; split <;> rfl
@[simp] theorem setLanePred_unwatched (th : Thread) (n : Nat) (b : Bool) : (setLanePred th n b).unwatched = th.unwatched := by unfold setLanePred; split <;> rfl

/-! ### setLaneReg and modTeam -/

@[simp] theorem setLaneReg_core (t : Team) (i n : Nat) (x : Word) : (setLaneReg t i n x).core = t.core := by
  unfold setLaneReg; split
  · rfl
  · split <;> rfl
@[simp] theorem setLaneReg_no (t : Team) (i n : Nat) (x : Word) : (setLaneReg t i n x).no = t.no := by
  unfold setLaneReg; split
  · rfl
  · split <;> rfl
@[simp] theorem setLaneReg_info (t : Team) (i n : Nat) (x : Word) : (setLaneReg t i n x).info = t.info := by
  unfold setLaneReg; split
  · rfl
  · split <;> rfl
@[simp] theorem setLaneReg_windows (t : Team) (i n : Nat) (x : Word) : (setLaneReg t i n x).windows = t.windows := by
  unfold setLaneReg; split
  · rfl
  · split <;> rfl
@[simp] theorem setLaneReg_cbt (t : Team) (i n : Nat) (x : Word) : (setLaneReg t i n x).cbt = t.cbt := by
  unfold setLaneReg; split
  · rfl
  · split <;> rfl
@[simp] theorem setLaneReg_scratch (t : Team) (i n : Nat) (x : Word) : (setLaneReg t i n x).scratch = t.scratch := by
  unfold setLaneReg; split
  · rfl
  · split <;> rfl
@[simp] theorem setLaneReg_tags (t : Team) (i n : Nat) (x : Word) : (setLaneReg t i n x).tags = t.tags := by
  unfold setLaneReg; split
  · rfl
  · split <;> rfl
@[simp] theorem setLaneReg_absent (t : Team) (i n : Nat) (x : Word) : (setLaneReg t i n x).absent = t.absent := by
  unfold setLaneReg; split
  · rfl
  · split <;> rfl
@[simp] theorem setLaneReg_poison (t : Team) (i n : Nat) (x : Word) : (setLaneReg t i n x).poison = t.poison := by
  unfold setLaneReg; split
  · rfl
  · split <;> rfl
@[simp] theorem setLaneReg_poisonSeen (t : Team) (i n : Nat) (x : Word) : (setLaneReg t i n x).poisonSeen = t.poisonSeen := by
  unfold setLaneReg; split
  · rfl
  · split <;> rfl
@[simp] theorem setLaneReg_warps (t : Team) (i n : Nat) (x : Word) : (setLaneReg t i n x).warps = t.warps := by
  unfold setLaneReg; split
  · rfl
  · split <;> rfl
@[simp] theorem setLaneReg_groups (t : Team) (i n : Nat) (x : Word) : (setLaneReg t i n x).groups = t.groups := by
  unfold setLaneReg; split
  · rfl
  · split <;> rfl
@[simp] theorem setLaneReg_nextGid (t : Team) (i n : Nat) (x : Word) : (setLaneReg t i n x).nextGid = t.nextGid := by
  unfold setLaneReg; split
  · rfl
  · split <;> rfl
@[simp] theorem setLaneReg_nextSplit (t : Team) (i n : Nat) (x : Word) : (setLaneReg t i n x).nextSplit = t.nextSplit := by
  unfold setLaneReg; split
  · rfl
  · split <;> rfl
@[simp] theorem setLaneReg_bins (t : Team) (i n : Nat) (x : Word) : (setLaneReg t i n x).bins = t.bins := by
  unfold setLaneReg; split
  · rfl
  · split <;> rfl
@[simp] theorem setLaneReg_spawnBins (t : Team) (i n : Nat) (x : Word) : (setLaneReg t i n x).spawnBins = t.spawnBins := by
  unfold setLaneReg; split
  · rfl
  · split <;> rfl
@[simp] theorem setLaneReg_bars (t : Team) (i n : Nat) (x : Word) : (setLaneReg t i n x).bars = t.bars := by
  unfold setLaneReg; split
  · rfl
  · split <;> rfl
@[simp] theorem setLaneReg_ports (t : Team) (i n : Nat) (x : Word) : (setLaneReg t i n x).ports = t.ports := by
  unfold setLaneReg; split
  · rfl
  · split <;> rfl
@[simp] theorem setLaneReg_portOffs (t : Team) (i n : Nat) (x : Word) : (setLaneReg t i n x).portOffs = t.portOffs := by
  unfold setLaneReg; split
  · rfl
  · split <;> rfl
@[simp] theorem setLaneReg_brk (t : Team) (i n : Nat) (x : Word) : (setLaneReg t i n x).brk = t.brk := by
  unfold setLaneReg; split
  · rfl
  · split <;> rfl
@[simp] theorem modTeam_gtick (s : State) (k : Nat) (f : Team → Team) : (modTeam s k f).gtick = s.gtick := by unfold modTeam; split <;> rfl
@[simp] theorem modTeam_stopped (s : State) (k : Nat) (f : Team → Team) : (modTeam s k f).stopped = s.stopped := by unfold modTeam; split <;> rfl
@[simp] theorem modTeam_mem (s : State) (k : Nat) (f : Team → Team) : (modTeam s k f).mem = s.mem := by unfold modTeam; split <;> rfl
@[simp] theorem modTeam_past (s : State) (k : Nat) (f : Team → Team) : (modTeam s k f).past = s.past := by unfold modTeam; split <;> rfl
@[simp] theorem modTeam_writes (s : State) (k : Nat) (f : Team → Team) : (modTeam s k f).writes = s.writes := by unfold modTeam; split <;> rfl
@[simp] theorem modTeam_poison (s : State) (k : Nat) (f : Team → Team) : (modTeam s k f).poison = s.poison := by unfold modTeam; split <;> rfl
@[simp] theorem modTeam_poisonSeen (s : State) (k : Nat) (f : Team → Team) : (modTeam s k f).poisonSeen = s.poisonSeen := by unfold modTeam; split <;> rfl
@[simp] theorem modTeam_tags (s : State) (k : Nat) (f : Team → Team) : (modTeam s k f).tags = s.tags := by unfold modTeam; split <;> rfl
@[simp] theorem modTeam_squares (s : State) (k : Nat) (f : Team → Team) : (modTeam s k f).squares = s.squares := by unfold modTeam; split <;> rfl
@[simp] theorem modTeam_msc (s : State) (k : Nat) (f : Team → Team) : (modTeam s k f).msc = s.msc := by unfold modTeam; split <;> rfl
@[simp] theorem modTeam_residency (s : State) (k : Nat) (f : Team → Team) : (modTeam s k f).residency = s.residency := by unfold modTeam; split <;> rfl
@[simp] theorem modTeam_monitors (s : State) (k : Nat) (f : Team → Team) : (modTeam s k f).monitors = s.monitors := by unfold modTeam; split <;> rfl
@[simp] theorem modTeam_marks (s : State) (k : Nat) (f : Team → Team) : (modTeam s k f).marks = s.marks := by unfold modTeam; split <;> rfl
@[simp] theorem modTeam_cores (s : State) (k : Nat) (f : Team → Team) : (modTeam s k f).cores = s.cores := by unfold modTeam; split <;> rfl
@[simp] theorem modTeam_clusters (s : State) (k : Nat) (f : Team → Team) : (modTeam s k f).clusters = s.clusters := by unfold modTeam; split <;> rfl
@[simp] theorem modTeam_queues (s : State) (k : Nat) (f : Team → Team) : (modTeam s k f).queues = s.queues := by unfold modTeam; split <;> rfl
@[simp] theorem modTeam_launches (s : State) (k : Nat) (f : Team → Team) : (modTeam s k f).launches = s.launches := by unfold modTeam; split <;> rfl
@[simp] theorem modTeam_nextLaunch (s : State) (k : Nat) (f : Team → Team) : (modTeam s k f).nextLaunch = s.nextLaunch := by unfold modTeam; split <;> rfl
@[simp] theorem modTeam_lqs (s : State) (k : Nat) (f : Team → Team) : (modTeam s k f).lqs = s.lqs := by unfold modTeam; split <;> rfl
@[simp] theorem modTeam_ctxs (s : State) (k : Nat) (f : Team → Team) : (modTeam s k f).ctxs = s.ctxs := by unfold modTeam; split <;> rfl
@[simp] theorem modTeam_ops (s : State) (k : Nat) (f : Team → Team) : (modTeam s k f).ops = s.ops := by unfold modTeam; split <;> rfl
@[simp] theorem modTeam_nextOp (s : State) (k : Nat) (f : Team → Team) : (modTeam s k f).nextOp = s.nextOp := by unfold modTeam; split <;> rfl
@[simp] theorem modTeam_rotation (s : State) (k : Nat) (f : Team → Team) : (modTeam s k f).rotation = s.rotation := by unfold modTeam; split <;> rfl
@[simp] theorem modTeam_dec (s : State) (k : Nat) (f : Team → Team) : (modTeam s k f).dec = s.dec := by unfold modTeam; split <;> rfl
@[simp] theorem modTeam_saved (s : State) (k : Nat) (f : Team → Team) : (modTeam s k f).saved = s.saved := by unfold modTeam; split <;> rfl
@[simp] theorem modTeam_swaps (s : State) (k : Nat) (f : Team → Team) : (modTeam s k f).swaps = s.swaps := by unfold modTeam; split <;> rfl
@[simp] theorem modTeam_gamSaved (s : State) (k : Nat) (f : Team → Team) : (modTeam s k f).gamSaved = s.gamSaved := by unfold modTeam; split <;> rfl
@[simp] theorem modTeam_preSave (s : State) (k : Nat) (f : Team → Team) : (modTeam s k f).preSave = s.preSave := by unfold modTeam; split <;> rfl
@[simp] theorem modTeam_firmware (s : State) (k : Nat) (f : Team → Team) : (modTeam s k f).firmware = s.firmware := by unfold modTeam; split <;> rfl
@[simp] theorem modTeam_flash (s : State) (k : Nat) (f : Team → Team) : (modTeam s k f).flash = s.flash := by unfold modTeam; split <;> rfl
@[simp] theorem modTeam_regs (s : State) (k : Nat) (f : Team → Team) : (modTeam s k f).regs = s.regs := by unfold modTeam; split <;> rfl
@[simp] theorem modTeam_posted (s : State) (k : Nat) (f : Team → Team) : (modTeam s k f).posted = s.posted := by unfold modTeam; split <;> rfl
@[simp] theorem modTeam_crumbs (s : State) (k : Nat) (f : Team → Team) : (modTeam s k f).crumbs = s.crumbs := by unfold modTeam; split <;> rfl
@[simp] theorem modTeam_crHead (s : State) (k : Nat) (f : Team → Team) : (modTeam s k f).crHead = s.crHead := by unfold modTeam; split <;> rfl
@[simp] theorem modTeam_mirrored (s : State) (k : Nat) (f : Team → Team) : (modTeam s k f).mirrored = s.mirrored := by unfold modTeam; split <;> rfl
@[simp] theorem modTeam_logs (s : State) (k : Nat) (f : Team → Team) : (modTeam s k f).logs = s.logs := by unfold modTeam; split <;> rfl
@[simp] theorem modTeam_gatesOpen (s : State) (k : Nat) (f : Team → Team) : (modTeam s k f).gatesOpen = s.gatesOpen := by unfold modTeam; split <;> rfl
@[simp] theorem modTeam_marksUsed (s : State) (k : Nat) (f : Team → Team) : (modTeam s k f).marksUsed = s.marksUsed := by unfold modTeam; split <;> rfl
@[simp] theorem modTeam_retired (s : State) (k : Nat) (f : Team → Team) : (modTeam s k f).retired = s.retired := by unfold modTeam; split <;> rfl
@[simp] theorem modTeam_frameErrors (s : State) (k : Nat) (f : Team → Team) : (modTeam s k f).frameErrors = s.frameErrors := by unfold modTeam; split <;> rfl
@[simp] theorem modTeam_answer (s : State) (k : Nat) (f : Team → Team) : (modTeam s k f).answer = s.answer := by unfold modTeam; split <;> rfl
@[simp] theorem modTeam_fabric (s : State) (k : Nat) (f : Team → Team) : (modTeam s k f).fabric = s.fabric := by unfold modTeam; split <;> rfl
@[simp] theorem modTeam_ports (s : State) (k : Nat) (f : Team → Team) : (modTeam s k f).ports = s.ports := by unfold modTeam; split <;> rfl
@[simp] theorem modTeam_tlbinv (s : State) (k : Nat) (f : Team → Team) : (modTeam s k f).tlbinv = s.tlbinv := by unfold modTeam; split <;> rfl
@[simp] theorem modTeam_attest (s : State) (k : Nat) (f : Team → Team) : (modTeam s k f).attest = s.attest := by unfold modTeam; split <;> rfl
@[simp] theorem modTeam_signed (s : State) (k : Nat) (f : Team → Team) : (modTeam s k f).signed = s.signed := by unfold modTeam; split <;> rfl
@[simp] theorem modTeam_gamrel (s : State) (k : Nat) (f : Team → Team) : (modTeam s k f).gamrel = s.gamrel := by unfold modTeam; split <;> rfl
@[simp] theorem modTeam_pstate (s : State) (k : Nat) (f : Team → Team) : (modTeam s k f).pstate = s.pstate := by unfold modTeam; split <;> rfl
@[simp] theorem modTeam_throttled (s : State) (k : Nat) (f : Team → Team) : (modTeam s k f).throttled = s.throttled := by unfold modTeam; split <;> rfl
@[simp] theorem modTeam_below (s : State) (k : Nat) (f : Team → Team) : (modTeam s k f).below = s.below := by unfold modTeam; split <;> rfl
@[simp] theorem modTeam_free (s : State) (k : Nat) (f : Team → Team) : (modTeam s k f).free = s.free := by unfold modTeam; split <;> rfl
@[simp] theorem modTeam_agenda (s : State) (k : Nat) (f : Team → Team) : (modTeam s k f).agenda = s.agenda := by unfold modTeam; split <;> rfl
@[simp] theorem modTeam_cur (s : State) (k : Nat) (f : Team → Team) : (modTeam s k f).cur = s.cur := by unfold modTeam; split <;> rfl

end Sys2Proof.Machine
end

