-- ==== Sys2Proof/Laws/Table.lean ====
section
/-!
SUPPORT. Tables: what a read of a changed table gives, and that a change keeps the keys rising.
-/

namespace Sys2Proof.Machine

variable {α : Type}

@[simp] theorem tget_tset_self (l : List (Nat × α)) (k : Nat) (v : α) : tget (tset l k v) k = some v := by
  induction l with
  | nil => simp [tset, tget]
  | cons x r ih =>
    obtain ⟨a, w⟩ := x
    unfold tset
    split
    · simp [tget]
    · split
      · simp [tget]
      · have : a ≠ k := by omega
        simp [tget, this, ih]

theorem tget_tset_other (l : List (Nat × α)) {k j : Nat} (v : α) (h : j ≠ k) : tget (tset l k v) j = tget l j := by
  induction l with
  | nil => simp [tset, tget, Ne.symm h]
  | cons x r ih =>
    obtain ⟨a, w⟩ := x
    unfold tset
    split
    · simp [tget, Ne.symm h]
    · split
      · subst_vars; simp [tget, Ne.symm h]
      · simp only [tget]; split <;> simp_all

theorem risingFrom_mono {l : List (Nat × α)} {a b : Nat} (h : b ≤ a) (r : risingFrom a l = true) :
    risingFrom b l = true := by
  cases l with
  | nil => rfl
  | cons x r' => obtain ⟨k, v⟩ := x; simp_all [risingFrom]; omega

theorem risingFrom_tset {l : List (Nat × α)} {lo : Nat} (k : Nat) (v : α) (hk : lo ≤ k)
    (r : risingFrom lo l = true) : risingFrom lo (tset l k v) = true := by
  induction l generalizing lo with
  | nil => simp [tset, risingFrom, hk]
  | cons x r' ih =>
    obtain ⟨a, w⟩ := x
    simp only [risingFrom, Bool.and_eq_true, decide_eq_true_eq] at r
    unfold tset
    split
    · simp only [risingFrom, Bool.and_eq_true, decide_eq_true_eq]
      exact ⟨hk, by omega, r.2⟩
    · split
      · subst_vars; simpa [risingFrom] using r
      · simp only [risingFrom, Bool.and_eq_true, decide_eq_true_eq]
        exact ⟨r.1, ih (by omega) r.2⟩

theorem risingFrom_tdel {l : List (Nat × α)} {lo : Nat} (k : Nat) (r : risingFrom lo l = true) :
    risingFrom lo (tdel l k) = true := by
  induction l generalizing lo with
  | nil => rfl
  | cons x r' ih =>
    obtain ⟨a, w⟩ := x
    simp only [risingFrom, Bool.and_eq_true, decide_eq_true_eq] at r
    unfold tdel
    split
    · exact risingFrom_mono (by omega) r.2
    · simp only [risingFrom, Bool.and_eq_true, decide_eq_true_eq]
      exact ⟨r.1, ih r.2⟩

/-- Below its first possible key a rising table lists nothing. -/
theorem tget_below {l : List (Nat × α)} {lo k : Nat} (r : risingFrom lo l = true) (h : k < lo) : tget l k = none := by
  induction l generalizing lo with
  | nil => rfl
  | cons x r' ih =>
    obtain ⟨a, w⟩ := x
    simp only [risingFrom, Bool.and_eq_true, decide_eq_true_eq] at r
    have : a ≠ k := by omega
    simp [tget, this, ih r.2 (by omega)]

theorem tget_tdel_self {l : List (Nat × α)} {lo : Nat} (k : Nat) (r : risingFrom lo l = true) :
    tget (tdel l k) k = none := by
  induction l generalizing lo with
  | nil => rfl
  | cons x r' ih =>
    obtain ⟨a, w⟩ := x
    simp only [risingFrom, Bool.and_eq_true, decide_eq_true_eq] at r
    unfold tdel
    split
    · subst_vars; exact tget_below r.2 (by omega)
    · rename_i h; simp [tget, h, ih r.2]

theorem tget_tdel_other {l : List (Nat × α)} {k j : Nat} (h : j ≠ k) : tget (tdel l k) j = tget l j := by
  induction l with
  | nil => rfl
  | cons x r' ih =>
    obtain ⟨a, w⟩ := x
    unfold tdel
    split
    · subst_vars; simp [tget, Ne.symm h]
    · simp only [tget]; split <;> simp_all

/-- A table with a default: a write is read back. -/
theorem cget_cset_self [DecidableEq α] {l : List (Nat × α)} {lo : Nat} (d : α) (k : Nat) (v : α)
    (r : risingFrom lo l = true) : cget d (cset d l k v) k = v := by
  unfold cset cget
  by_cases h : v = d
  · simp [h, tget_tdel_self k r]
  · simp [h]

theorem cget_cset_other [DecidableEq α] {l : List (Nat × α)} {k j : Nat} (d : α) (v : α) (h : j ≠ k) :
    cget d (cset d l k v) j = cget d l j := by
  unfold cset cget
  by_cases e : v = d
  · simp [e, tget_tdel_other h]
  · simp [e, tget_tset_other l v h]

theorem getD_padSet_self (d : α) (l : List α) (i : Nat) (x : α) : (padSet d l i x).getD i d = x := by
  induction l generalizing i with
  | nil => induction i with
    | zero => rfl
    | succ n ih => simpa [padSet] using ih
  | cons a r ih => cases i with
    | zero => rfl
    | succ n => simpa [padSet] using ih n

theorem getD_padSet_other (d : α) (l : List α) {i j : Nat} (x : α) (h : j ≠ i) :
    (padSet d l i x).getD j d = l.getD j d := by
  induction l generalizing i j with
  | nil =>
    induction i generalizing j with
    | zero => cases j with
      | zero => exact absurd rfl h
      | succ m => simp [padSet]
    | succ n ih => cases j with
      | zero => simp [padSet]
      | succ m => have := ih (j := m) (by omega); simpa [padSet] using this
  | cons a r ih => cases i with
    | zero => cases j with
      | zero => exact absurd rfl h
      | succ m => simp [padSet]
    | succ n => cases j with
      | zero => simp [padSet]
      | succ m => have := ih (i := n) (j := m) (by omega); simpa [padSet] using this

end Sys2Proof.Machine
end

