-- ==== Sys2Proof/Laws/Forms.lean ====
section
/-!
SUPPORT. What each shared form of an instruction does on plain operands: the frame of a lane-set form, of a uniform-set form,
and the forms that compute one register.
-/

namespace Sys2Proof.Machine

/-! ### Teams of a state -/

@[simp] theorem tget_teams_setTeam (s : State) (k : Nat) (t : Team) : tget (setTeam s k t).teams k = some t :=
  tget_tset_self _ _ _

theorem tset_tset (l : List (Nat × Team)) (k : Nat) (a b : Team) : tset (tset l k a) k b = tset l k b := by
  induction l with
  | nil => simp [tset]
  | cons x r ih =>
    obtain ⟨j, w⟩ := x
    by_cases h1 : k < j
    · simp [tset, h1]
    · by_cases h2 : k = j
      · simp [tset, h2]
      · simp [tset, h1, h2, ih]

@[simp] theorem setTeam_setTeam (s : State) (k : Nat) (a b : Team) : setTeam (setTeam s k a) k b = setTeam s k b := by
  unfold setTeam
  simp [tset_tset]

theorem modTeam_some {s : State} {k : Nat} {t : Team} (h : tget s.teams k = some t) (f : Team → Team) :
    modTeam s k f = setTeam s k (f t) := by
  unfold modTeam setTeam
  rw [h]

@[simp] theorem modTeam_setTeam (s : State) (k : Nat) (t : Team) (f : Team → Team) :
    modTeam (setTeam s k t) k f = setTeam s k (f t) := by
  rw [modTeam_some (tget_teams_setTeam s k t), setTeam_setTeam]

theorem issuer_team {s : State} {t : Team} {g : Grp} (h : Issues s t g) : tget s.teams s.cur.team = some t := by
  unfold Issues issuer at h
  split at h
  · cases h
  · rename_i t' e
    split at h
    · cases h
    · cases h; exact e

theorem issuer_group {s : State} {t : Team} {g : Grp} (h : Issues s t g) : groupOf t s.cur.gid = some g := by
  unfold Issues issuer at h
  split at h
  · cases h
  · split at h
    · cases h
    · rename_i e; cases h; exact e

theorem withIssuer_of {s : State} {t : Team} {g : Grp} (h : Issues s t g) (f : Team → Grp → Out) :
    withIssuer s f = f t g := by
  unfold withIssuer
  rw [h]

/-! ### Lane-set forms -/

theorem laneForm_noFaults {s : State} {t : Team} {g : Grp} (h : Issues s t g)
    {faults : Team → Grp → List (Nat × Nat) → List (Nat × Park)} (hf : faults t g (laneSet s t g) = [])
    (run : State → Team → Grp → List (Nat × Nat) → Out) : laneForm s faults run = run s t g (laneSet s t g) := by
  unfold laneForm
  rw [withIssuer_of h]
  unfold laneSet at hf
  simp only [hf]
  rfl

theorem extFaults_none {s : State} {t : Team} {g : Grp} {regs : List (BitVec 6)} (h : RegsPlain s t g regs) :
    extFaults s t (laneSet s t g) (regs.map (·.toNat)) = [] := by
  unfold extFaults
  rw [List.filterMap_eq_nil_iff]
  intro l hl
  have : missingReg t l.2 (regs.map (·.toNat)) = none := by
    unfold missingReg
    rw [List.find?_eq_none]
    intro n hn
    obtain ⟨r, hr, rfl⟩ := List.mem_map.1 hn
    rcases h.2 l hl r hr with h1 | h1
    · simp; omega
    · simp [h1]
  simp [this]

theorem popOperand_plain {s : State} {t : Team} {k : Nat} (ht : tget s.teams k = some t) (gid : Nat)
    (part : List (Nat × Nat)) (i : Nat) {r : Nat} (h : portNamed t r = none) :
    popOperand s k gid part i r = (true, s) := by
  unfold popOperand
  rw [ht]
  simp only [h]

theorem popOperands_plain {s : State} {t : Team} {k : Nat} (ht : tget s.teams k = some t) (gid : Nat)
    (part : List (Nat × Nat)) (i : Nat) (regs : List Nat) (h : ∀ r ∈ regs, portNamed t r = none) :
    popOperands s k gid part i regs = (true, s) := by
  induction regs generalizing i with
  | nil => rfl
  | cons r rest ih =>
    unfold popOperands
    rw [popOperand_plain ht gid part i (h r (List.mem_cons_self ..))]
    exact ih (i + 1) (fun x hx => h x (List.mem_cons_of_mem _ hx))

theorem operand_plain {t : Team} {r : Nat} (h : portNamed t r = none) (i tid : Nat) : operand t i r tid = laneReg t tid r := by
  unfold operand
  simp [h]

theorem deliver_plain {s : State} {t : Team} {k : Nat} (ht : tget s.teams k = some t) {vd : Nat}
    (h : portNamed t vd = none) (res : List (Nat × Word)) :
    deliver s k vd res = setTeam s k (advance s (res.foldl (fun t x => setLaneReg t x.1 vd x.2) t)) := by
  unfold deliver
  rw [ht]
  simp only [h]

/-- A form that computes one lane register, on plain registers: each lane that takes part writes its result, and the group
goes on. -/
theorem laneResult_plain {s : State} {t : Team} {g : Grp} (rs : List (BitVec 6)) (vd : BitVec 6)
    (f : Team → Grp → List (Nat × Nat) → (Nat → Nat → Word) → Nat × Nat → Word) (h : LaneReady s t g (vd :: rs)) :
    laneResult rs vd f s =
      laneWrote s t g vd (f t g (laneSet s t g) (fun i tid => operand t i ((rs.map (·.toNat)).getD i 0) tid)) := by
  obtain ⟨hi, hp, hr⟩ := h
  have ht := issuer_team hi
  unfold laneResult
  rw [laneForm_noFaults hi (extFaults_none (regs := vd :: rs) hr)]
  unfold resultBody
  have hs : ∀ r ∈ rs.map (·.toNat), portNamed t r = none := by
    intro r hr'
    obtain ⟨x, hx, rfl⟩ := List.mem_map.1 hr'
    exact hr.1 x (List.mem_cons_of_mem _ hx)
  simp only [hp, popOperands_plain ht g.gid _ 0 _ hs, ht]
  rw [if_neg (by decide), deliver_plain ht (hr.1 vd (List.mem_cons_self ..)), List.foldl_map]
  rfl

theorem laneUn_plain {s : State} {t : Team} {g : Grp} (vd va : BitVec 6) (f : Word → Word)
    (h : LaneReady s t g [vd, va]) : laneUn vd va f s = laneWrote s t g vd (fun l => f (laneReg t l.2 va.toNat)) := by
  unfold laneUn
  rw [laneResult_plain [va] vd _ h]
  congr 1
  funext l
  show f (operand t 0 va.toNat l.2) = _
  rw [operand_plain (h.2.2.1 va (by simp))]

theorem laneBin_plain {s : State} {t : Team} {g : Grp} (vd va vb : BitVec 6) (f : Word → Word → Word)
    (h : LaneReady s t g [vd, va, vb]) :
    laneBin vd va vb f s = laneWrote s t g vd (fun l => f (laneReg t l.2 va.toNat) (laneReg t l.2 vb.toNat)) := by
  unfold laneBin
  rw [laneResult_plain [va, vb] vd _ h]
  congr 1
  funext l
  show f (operand t 0 va.toNat l.2) (operand t 1 vb.toNat l.2) = _
  rw [operand_plain (h.2.2.1 va (by simp)), operand_plain (h.2.2.1 vb (by simp))]

theorem laneTern_plain {s : State} {t : Team} {g : Grp} (vd va vb : BitVec 6) (f : Word → Word → Word → Word)
    (h : LaneReady s t g [vd, va, vb]) :
    laneTern vd va vb f s = laneWrote s t g vd (fun l =>
      f (laneReg t l.2 vd.toNat) (laneReg t l.2 va.toNat) (laneReg t l.2 vb.toNat)) := by
  unfold laneTern
  rw [laneResult_plain [va, vb] vd _ h]
  congr 1
  funext l
  show f (oldVd t vd l.2) (operand t 0 va.toNat l.2) (operand t 1 vb.toNat l.2) = _
  rw [operand_plain (h.2.2.1 va (by simp)), operand_plain (h.2.2.1 vb (by simp))]
  unfold oldVd
  simp [h.2.2.1 vd (by simp)]

/-! ### Uniform-set forms -/

/-- A uniform-set form in its place, with a true guard, runs. -/
theorem uniformForm_runs {s : State} {t : Team} {g : Grp} (h : UniReady s t g) (writes : Bool)
    (run : State → Team → Grp → Out) (chk : Check) :
    uniformForm writes s run chk = run (if writes then setTeam s s.cur.team t else s) t g := by
  obtain ⟨hi, hf, hg, hh | ⟨hm, hr, hs⟩⟩ := h
  · unfold uniformForm
    rw [withIssuer_of hi]
    cases writes <;> simp [hf, hg, joinKin, hh]
  · unfold uniformForm
    rw [withIssuer_of hi]
    cases writes <;> simp [hf, hm, hg, hr, joinKin, hs]

/-- A uniform-set form with a false guard only takes its issue slot (R233). -/
theorem uniformForm_skips {s : State} {t : Team} {g : Grp} (hi : Issues s t g) (hf : g.formation = false)
    (hm : g.masked = false) (hg : uFlag (warpOf t g.warp) s.cur.hdr.guard.toNat = false) (writes : Bool)
    (run : State → Team → Grp → Out) (chk : Check) : uniformForm writes s run chk = wentOn s t := by
  unfold uniformForm
  rw [withIssuer_of hi]
  simp [hf, hm, hg, finish, wentOn]

theorem finish_setTeam (s : State) (t t' : Team) : finish (setTeam s s.cur.team t) t' = wentOn s t' := by
  unfold finish wentOn
  simp [advance]

theorem finish_eq (s : State) (t : Team) : finish s t = wentOn s t := rfl

theorem uniformResult_plain {s : State} {t : Team} {g : Grp} (sd : BitVec 6) (f : Warp → DWord) (h : UniReady s t g) :
    uniformResult sd f s = uniWrote s t g sd (f (warpOf t g.warp)) := by
  unfold uniformResult
  rw [uniformForm_runs h]
  simp [finish_setTeam, uniWrote, modWarp]

theorem uniUn_plain {s : State} {t : Team} {g : Grp} (sd sa : BitVec 6) (f : DWord → DWord) (h : UniReady s t g) :
    uniUn sd sa f s = uniWrote s t g sd (f (uReg (warpOf t g.warp) sa.toNat)) :=
  uniformResult_plain sd _ h

theorem uniBin_plain {s : State} {t : Team} {g : Grp} (sd sa sb : BitVec 6) (f : DWord → DWord → DWord)
    (h : UniReady s t g) :
    uniBin sd sa sb f s =
      uniWrote s t g sd (f (uReg (warpOf t g.warp) sa.toNat) (uReg (warpOf t g.warp) sb.toNat)) :=
  uniformResult_plain sd _ h

/-! ### From a meaning written over a shared form to the form's shape -/

theorem lane1_of {i : BitVec 6 → BitVec 6 → Instr} {f f' : Word → Word}
    (h : ∀ vd va s, exec (i vd va) s = laneUn vd va f s) (hf : ∀ a, f a = f' a) : Lane1 i f' := by
  intro vd va s t g hr
  rw [h, laneUn_plain _ _ _ hr]
  simp only [hf]; rfl
theorem lane2_of {i : BitVec 6 → BitVec 6 → BitVec 6 → Instr} {f f' : Word → Word → Word}
    (h : ∀ vd va vb s, exec (i vd va vb) s = laneBin vd va vb f s) (hf : ∀ a b, f a b = f' a b) : Lane2 i f' := by
  intro vd va vb s t g hr
  rw [h, laneBin_plain _ _ _ _ hr]
  simp only [hf]; rfl
theorem lane3_of {i : BitVec 6 → BitVec 6 → BitVec 6 → Instr} {f f' : Word → Word → Word → Word}
    (h : ∀ vd va vb s, exec (i vd va vb) s = laneTern vd va vb f s) (hf : ∀ d a b, f d a b = f' d a b) : Lane3 i f' := by
  intro vd va vb s t g hr
  rw [h, laneTern_plain _ _ _ _ hr]
  simp only [hf]; rfl

theorem uni1_of {i : BitVec 6 → BitVec 6 → Instr} {f f' : DWord → DWord}
    (h : ∀ vd va s, exec (i vd va) s = uniUn vd va f s) (hf : ∀ a, f a = f' a) : Uni1 i f' := by
  intro vd va s t g hr
  rw [h, uniUn_plain _ _ _ hr]
  simp only [hf]; rfl
theorem uni2_of {i : BitVec 6 → BitVec 6 → BitVec 6 → Instr} {f f' : DWord → DWord → DWord}
    (h : ∀ vd va vb s, exec (i vd va vb) s = uniBin vd va vb f s) (hf : ∀ a b, f a b = f' a b) : Uni2 i f' := by
  intro vd va vb s t g hr
  rw [h, uniBin_plain _ _ _ _ hr]
  simp only [hf]; rfl
theorem unii_of {i : BitVec 6 → BitVec 6 → Imm → Instr} {f : Imm → DWord → DWord} {f' : DWord → DWord → DWord}
    (h : ∀ vd va imm s, exec (i vd va imm) s = uniUn vd va (f imm) s) (hf : ∀ imm a, f imm a = f' a (immDWord imm)) : UniImm i f' := by
  intro vd va imm s t g hr
  rw [h, uniUn_plain _ _ _ hr]
  simp only [hf]; rfl


theorem immUniform_eq_immDWord (i : Imm) : immUniform i = immDWord i := by
  cases i <;> simp [immUniform, immDWord, immValue] <;> rfl


theorem lanePredOp_plain {s : State} {t : Team} {g : Grp} (pd : BitVec 3) (va vb : BitVec 6) (f : Bool → Word → Word → Bool)
    (h : LaneReady s t g [va, vb]) : lanePredOp pd va vb f s = lanePredWrote s t g pd (fun l =>
      f (lanePred (threadOf t l.2) pd.toNat) (vreg t va l) (vreg t vb l)) := by
  obtain ⟨hi, hp, hr⟩ := h
  have ht := issuer_team hi
  unfold lanePredOp
  rw [laneForm_noFaults hi (extFaults_none (regs := [va, vb]) hr)]
  have hs : ∀ r ∈ [va.toNat, vb.toNat], portNamed t r = none := by
    intro r hr'
    simp at hr'
    rcases hr' with rfl | rfl
    · exact hr.1 _ (by simp)
    · exact hr.1 _ (by simp)
  simp only [popOperands_plain ht g.gid _ 0 _ hs]
  rw [modTeam_some ht]
  unfold lanePredWrote wentOn
  simp only [List.foldl_map, operand_plain (hs va.toNat (by simp)), operand_plain (hs vb.toNat (by simp))]
  rfl

end Sys2Proof.Machine
end

