-- ==== Sys2Proof/Laws/Memory.lean ====
section
/-!
SUPPORT. Memory: a byte written is read back, other bytes stay, and every operation on memory keeps its canonical form
(addresses strictly rise, no listed zero).
-/

namespace Sys2Proof.Machine

/-! ### The list of cells -/

theorem all_tset {l : List Host.Cell} (k : Nat) (v : Byte) (hv : v ≠ 0) (h : l.all (fun c => c.2 != 0) = true) :
    (tset l k v).all (fun c => c.2 != 0) = true := by
  induction l with
  | nil => simpa [tset] using hv
  | cons x r ih =>
    obtain ⟨a, w⟩ := x
    simp only [List.all_cons, Bool.and_eq_true] at h
    have hv' : (v != 0) = true := by simpa using hv
    unfold tset
    split
    · simp only [List.all_cons, Bool.and_eq_true]; exact ⟨hv', h⟩
    · split
      · simp only [List.all_cons, Bool.and_eq_true]; exact ⟨hv', h.2⟩
      · simp only [List.all_cons, Bool.and_eq_true]; exact ⟨h.1, ih h.2⟩

theorem all_tdel {l : List Host.Cell} (k : Nat) (h : l.all (fun c => c.2 != 0) = true) :
    (tdel l k).all (fun c => c.2 != 0) = true := by
  induction l with
  | nil => rfl
  | cons x r ih =>
    obtain ⟨a, w⟩ := x
    simp only [List.all_cons, Bool.and_eq_true] at h
    unfold tdel
    split
    · exact h.2
    · simp only [List.all_cons, Bool.and_eq_true]; exact ⟨h.1, ih h.2⟩

theorem wf_nil : Memory.wf [] = true := rfl

theorem wf_rising {l : List Host.Cell} (h : Memory.wf l = true) : risingFrom 0 l = true :=
  (Bool.and_eq_true_iff.1 h).1

theorem wf_cset {l : List Host.Cell} (k : Nat) (v : Byte) (h : Memory.wf l = true) : Memory.wf (cset 0 l k v) = true := by
  obtain ⟨hr, ha⟩ := Bool.and_eq_true_iff.1 h
  unfold cset
  split
  · exact Bool.and_eq_true_iff.2 ⟨risingFrom_tdel k hr, all_tdel k ha⟩
  · rename_i hv
    exact Bool.and_eq_true_iff.2 ⟨risingFrom_tset k v (Nat.zero_le k) hr, all_tset k v hv ha⟩

theorem risingFrom_filter {α : Type} {l : List (Nat × α)} {lo : Nat} (f : Nat × α → Bool)
    (h : risingFrom lo l = true) : risingFrom lo (l.filter f) = true := by
  induction l generalizing lo with
  | nil => rfl
  | cons x r ih =>
    obtain ⟨a, w⟩ := x
    simp only [risingFrom, Bool.and_eq_true, decide_eq_true_eq] at h
    simp only [List.filter_cons]
    split
    · simp only [risingFrom, Bool.and_eq_true, decide_eq_true_eq]
      exact ⟨h.1, ih h.2⟩
    · exact risingFrom_mono (by omega) (ih h.2)

theorem wf_filter {l : List Host.Cell} (f : Host.Cell → Bool) (h : Memory.wf l = true) :
    Memory.wf (l.filter f) = true := by
  obtain ⟨hr, ha⟩ := Bool.and_eq_true_iff.1 h
  refine Bool.and_eq_true_iff.2 ⟨risingFrom_filter f hr, ?_⟩
  rw [List.all_eq_true] at ha ⊢
  exact fun c hc => ha c (List.mem_of_mem_filter hc)

theorem wf_cellsSet (d : List Byte) {l : List Host.Cell} (pa : Nat) (h : Memory.wf l = true) :
    Memory.wf (cellsSet l pa d) = true := by
  induction d generalizing l pa with
  | nil => exact h
  | cons b r ih => exact ih (pa + 1) (wf_cset pa b h)

theorem wf_foldl_cset (cs : List (Nat × Byte)) {l : List Host.Cell} (h : Memory.wf l = true) :
    Memory.wf (cs.foldl (fun (m : List Host.Cell) (c : Nat × Byte) => cset 0 m c.1 c.2) l) = true := by
  induction cs generalizing l with
  | nil => exact h
  | cons c r ih => exact ih (wf_cset c.1 c.2 h)

/-- A byte outside the stored ones reads as before. -/
theorem cget_cellsSet_outside (d : List Byte) (l : List Host.Cell) {pa a : Nat} (h : a < pa ∨ pa + d.length ≤ a) :
    cget 0 (cellsSet l pa d) a = cget 0 l a := by
  induction d generalizing l pa with
  | nil => rfl
  | cons b r ih =>
    simp only [List.length_cons] at h
    rw [cellsSet, ih (cset 0 l pa b) (by omega), cget_cset_other 0 b (by omega)]

/-- The stored bytes are read back. -/
theorem cget_cellsSet_inside (d : List Byte) {l : List Host.Cell} {pa i : Nat} (w : Memory.wf l = true)
    (h : i < d.length) : cget 0 (cellsSet l pa d) (pa + i) = d.getD i 0 := by
  induction d generalizing l pa i with
  | nil => simp at h
  | cons b r ih =>
    rw [cellsSet]
    cases i with
    | zero =>
      have h1 : cget 0 (cellsSet (cset 0 l pa b) (pa + 1) r) pa = cget 0 (cset 0 l pa b) pa :=
        cget_cellsSet_outside r _ (Or.inl (Nat.lt_succ_self pa))
      exact h1.trans (cget_cset_self 0 pa b (wf_rising w))
    | succ n =>
      have := ih (l := cset 0 l pa b) (pa := pa + 1) (i := n) (wf_cset pa b w) (by simpa using h)
      simpa [Nat.add_assoc, Nat.add_comm 1 n] using this

theorem cellsRead_eq_map (l : List Host.Cell) (pa n : Nat) :
    cellsRead l pa n = (List.range n).map (fun i => cget 0 l (pa + i)) := by
  induction n generalizing pa with
  | zero => rfl
  | succ n ih =>
    rw [cellsRead, ih, List.range_succ_eq_map]
    simp [Function.comp_def, Nat.add_assoc, Nat.add_comm 1]

/-! ### The machine's operations -/

/-- The memory of a state is in its canonical form. -/
def MemOk (s : State) : Prop := Memory.wf s.mem = true

theorem MemOk.of_mem {s s' : State} (e : s'.mem = s.mem) (h : MemOk s) : MemOk s' := by
  unfold MemOk at *
  rw [e]
  exact h

theorem memOk_reset : MemOk State.reset := rfl

theorem memOk_foldl {β : Type} (f : State → β → State) (hf : ∀ s x, MemOk s → MemOk (f s x)) (l : List β) (s : State)
    (h : MemOk s) : MemOk (l.foldl f s) := by
  induction l generalizing s with
  | nil => exact h
  | cons x r ih => exact ih _ (hf s x h)

theorem mem_foldl {β : Type} (f : State → β → State) (hf : ∀ s x, (f s x).mem = s.mem) (l : List β) (s : State) :
    (l.foldl f s).mem = s.mem := by
  induction l generalizing s with
  | nil => rfl
  | cons x r ih => exact (ih _).trans (hf s x)

/-- A state whose memory is that of another after bytes have been stored. -/
theorem MemOk.cells {s s' : State} {pa : Nat} {d : List Byte} (e : s'.mem = cellsSet s.mem pa d) (h : MemOk s) :
    MemOk s' := by
  unfold MemOk at *
  rw [e]
  exact wf_cellsSet d pa h

theorem memOk_unpoison (s : State) (pa n : Nat) (h : MemOk s) : MemOk (unpoison s pa n) := by
  unfold unpoison
  refine memOk_foldl _ (fun s g hs => ?_) _ s h
  by_cases c : s.poison.contains g = true
  · rw [if_pos c]
    generalize List.replicate 32 (0 : Byte) = d
    exact MemOk.cells rfl hs
  · rw [if_neg c]
    exact hs

@[simp] theorem mem_noteConds (s : State) (pa : Nat) : (noteConds s pa).mem = s.mem := rfl

@[simp] theorem mem_remember (s : State) (l : List Nat) : (remember s l).mem = s.mem := rfl

@[simp] theorem mem_fireWord (s : State) (pa : Nat) : (fireWord s pa).mem = s.mem := by
  unfold fireWord
  rw [mem_foldl]
  · rfl
  · intro s m
    exact modTeam_mem _ _ _

@[simp] theorem mem_fireWords (s : State) (pa n : Nat) : (fireWords s pa n).mem = s.mem := by
  unfold fireWords
  split
  · exact mem_foldl _ (fun s a => mem_fireWord s a) _ s
  · rfl

theorem memOk_memWrite (s : State) (pa : Nat) (l : List Byte) (h : MemOk s) : MemOk (memWrite s pa l) := by
  unfold memWrite
  exact (MemOk.cells rfl (memOk_unpoison _ pa l.length (h.of_mem (mem_remember s _)))).of_mem (mem_fireWords _ _ _)

theorem unpoison_none (s : State) (pa n : Nat) (h : s.poison = []) : unpoison s pa n = s := by
  unfold unpoison
  generalize granulesOf pa n = gs
  induction gs with
  | nil => rfl
  | cons g r ih => simpa [h] using ih

/-- Where nothing is poisoned a write changes the bytes it writes and no others. -/
theorem memByte_memWrite_outside (s : State) {pa a : Nat} (l : List Byte) (hp : s.poison = [])
    (h : a < pa ∨ pa + l.length ≤ a) : memByte (memWrite s pa l) a = memByte s a := by
  unfold memByte memWrite
  rw [mem_fireWords, unpoison_none (remember s _) pa _ hp]
  exact cget_cellsSet_outside l s.mem h

theorem memByte_memWrite_inside (s : State) {pa i : Nat} (l : List Byte) (w : MemOk s)
    (h : i < l.length) : memByte (memWrite s pa l) (pa + i) = l.getD i 0 := by
  unfold memByte memWrite
  rw [mem_fireWords]
  exact cget_cellsSet_inside l (memOk_unpoison _ pa l.length (w.of_mem (mem_remember s _))) h

@[simp] theorem mem_countReg (s : State) (off n : Nat) : (countReg s off n).mem = s.mem := by
  unfold countReg
  exact regSet_mem _ _ _

@[simp] theorem mem_countEvent (s : State) (off : Nat) (u : BitVec 16) : (countEvent s off u).mem = s.mem := by
  unfold countEvent
  rw [crumb_mem, mem_countReg]

@[simp] theorem mem_loseTag (s : State) (g sl : Nat) : (loseTag s g sl).mem = s.mem := by
  unfold loseTag
  rw [mem_countEvent, setTag_mem]

@[simp] theorem mem_consume (s : State) (pa n : Nat) (u : BitVec 16) : (consume s pa n u).mem = s.mem := by
  have h := mem_countReg s 0x800D0 1
  unfold consume
  revert h
  generalize countReg s 0x800D0 1 = s1
  intro h
  dsimp only
  split
  · exact h
  · exact h

@[simp] theorem mem_loadTag (sq sh : Nat) (s : State) (i : Nat) : (loadTag sq sh s i).mem = s.mem := by
  unfold loadTag
  dsimp only
  split
  · rfl
  · split
    · exact mem_loseTag _ _ _
    · exact setTag_mem _ _ _

@[simp] theorem mem_loadTags (s : State) (sq sh : Nat) : (loadTags s sq sh).mem = s.mem :=
  mem_foldl _ (mem_loadTag sq sh) _ s

@[simp] theorem mem_tlbFill (s : State) (core ctx va : Nat) : (tlbFill s core ctx va).mem = s.mem := by
  unfold tlbFill
  split
  · exact modCore_mem _ _ _
  · rfl

theorem memOk_spillTag (sq sh : Nat) (s : State) (i : Nat) (h : MemOk s) : MemOk (spillTag sq sh s i) := by
  unfold spillTag
  dsimp only
  split
  · exact MemOk.cells rfl (memOk_unpoison _ _ 16 (h.of_mem (setTag_mem _ _ _)))
  · split
    · exact h
    · exact h.of_mem (mem_loseTag _ _ _)

theorem memOk_evictSquare (s : State) (sq : Nat) (q : Square) (h : MemOk s) : MemOk (evictSquare s sq q) := by
  unfold evictSquare
  cases q.shadow with
  | none => exact h.of_mem rfl
  | some sh => exact memOk_foldl _ (memOk_spillTag sq sh) _ _ (h.of_mem rfl)

theorem memOk_makeRoom (slice keep n : Nat) (s : State) (h : MemOk s) : MemOk (makeRoom slice keep n s) := by
  induction n generalizing s with
  | zero => exact h
  | succ n ih =>
    unfold makeRoom
    dsimp only
    split
    · exact h
    · split
      · exact ih _ (memOk_evictSquare _ _ _ h)
      · exact h

theorem memOk_touchSquare (s : State) (pa n rid : Nat) (pri shadow : Option Nat) (wr : Bool) (col : Option (BitVec 2))
    (h : MemOk s) : MemOk (touchSquare s pa n rid pri shadow wr col) := by
  unfold touchSquare
  dsimp only
  split
  · exact memOk_makeRoom _ _ _ _ (h.of_mem (mem_loadTags _ _ _))
  · split
    · exact h.of_mem rfl
    · exact memOk_makeRoom _ _ _ _ (h.of_mem rfl)

/-- A far access leaves memory's bytes alone. -/
@[simp] theorem mem_farAccess (s : State) (off n port rid : Nat) (c w : Bool) :
    (farAccess s off n port rid c w).2.mem = s.mem := by
  unfold farAccess
  have e : (if w then crumb (countReg s (0x80300 + 8 * port) 1) 0x0302 (unitOf 4 (32 + port)) [] else s).mem = s.mem := by
    split
    · rw [crumb_mem, mem_countReg]
    · rfl
  dsimp only
  split_ifs <;> first | rfl | exact e | (split <;> first | rfl | (split_ifs <;> rfl))

theorem memOk_atSlice (s : State) (w : Way) (l : Leaf) (n rid : Nat) (c : BitVec 2) (wr : Bool) (col : Option (BitVec 2))
    (h : MemOk s) : MemOk (atSlice s w l n rid c wr col).2 := by
  unfold atSlice
  cases w.far with
  | none =>
    dsimp only
    split
    · exact h
    · exact memOk_touchSquare _ _ _ _ _ _ _ _ h
  | some x =>
    dsimp only
    split
    · exact h.of_mem (mem_farAccess _ _ _ _ _ _ _)
    · exact memOk_touchSquare _ _ _ _ _ _ _ _ (h.of_mem (mem_farAccess _ _ _ _ _ _ _))

theorem memOk_clearPoison (l : List (Nat × Byte)) (s : State) (h : MemOk s) :
    MemOk (l.foldl (fun s c => if s.poison.contains (c.1 / 32) then unpoison s c.1 1 else s) s) := by
  refine memOk_foldl _ (fun s c hs => ?_) _ s h
  split
  · exact memOk_unpoison _ _ _ hs
  · exact hs

theorem MemOk.csets {s s' : State} {l : List (Nat × Byte)}
    (e : s'.mem = l.foldl (fun (m : List Host.Cell) (c : Nat × Byte) => cset 0 m c.1 c.2) s.mem) (h : MemOk s) :
    MemOk s' := by
  unfold MemOk at *
  rw [e]
  exact wf_foldl_cset l h

theorem memOk_memWriteCells (s : State) (l : List (Nat × Byte)) (h : MemOk s) : MemOk (memWriteCells s l) := by
  unfold memWriteCells
  have h1 := memOk_clearPoison l (remember s (l.map (·.1))) (h.of_mem (mem_remember s _))
  dsimp only
  split
  · exact MemOk.of_mem (mem_foldl _ (fun s a => mem_fireWord s a) _ _) (MemOk.csets rfl h1)
  · exact MemOk.csets rfl h1

@[simp] theorem mem_gatePass (s : State) (slice : Nat) : (gatePass s slice).mem = s.mem := by
  unfold gatePass
  dsimp only
  split
  · rfl
  · exact setLog_mem _ _ _

@[simp] theorem mem_gateArrive (s : State) (slice : Nat) : (gateArrive s slice).mem = s.mem := by
  unfold gateArrive
  dsimp only
  split
  · rfl
  · exact setLog_mem _ _ _

theorem memOk_logAccess (s : State) (slice agent : Nat) (h : MemOk s) : MemOk (logAccess s slice agent) := by
  unfold logAccess
  split
  · exact h
  · dsimp only
    split_ifs
    · exact h
    · exact (memOk_memWrite s _ _ h).of_mem (setLog_mem _ _ _)
    · exact h.of_mem ((crumb_mem _ _ _ _).trans (setLog_mem _ _ _))
    · exact (memOk_memWrite s _ _ h).of_mem ((setLog_mem _ _ _).trans (regSet_mem _ _ _))

theorem memOk_servedAt (s : State) (slice agent : Nat) (h : MemOk s) : MemOk (servedAt s slice agent) :=
  memOk_logAccess _ _ _ (h.of_mem (mem_gatePass _ _))

theorem memOk_touches (l : List (Nat × Byte)) (rid : Nat) (pri sh : Option Nat) (s : State) (h : MemOk s) :
    MemOk (l.foldl (fun s c => touchSquare s c.1 1 rid pri sh true) s) :=
  memOk_foldl _ (fun s c hs => memOk_touchSquare s c.1 1 rid pri sh true none hs) _ _ h

theorem memOk_logLine (s : State) (a : L1Line) (line : Nat) (h : MemOk s) : MemOk (logLine s a line) := by
  unfold logLine
  split
  · split
    · exact memOk_servedAt _ _ _ h
    · exact h
  · exact h

theorem memOk_landLine (s : State) (a : L1Line) (l : List (Nat × Byte)) (h : MemOk s) : MemOk (landLine s a l) :=
  memOk_memWriteCells _ _ (memOk_touches _ _ _ _ _ h)

theorem memOk_writeLine (core : Nat) (l : List (Nat × Byte)) (s : State) (line : Nat) (h : MemOk s) :
    MemOk (writeLine core l s line) := by
  unfold writeLine
  have h1 := memOk_logLine s (cget plainLine (coreOf s core).lines line) line h
  dsimp only
  split
  · split
    · exact h1.of_mem (mem_farAccess _ _ _ _ _ _ _)
    · exact memOk_landLine _ _ _ (h1.of_mem (mem_farAccess _ _ _ _ _ _ _))
  · exact memOk_landLine _ _ _ h1

theorem memOk_writeBackL1 (s : State) (core : Nat) (f : Nat → Bool) (h : MemOk s) : MemOk (writeBackL1 s core f) := by
  unfold writeBackL1
  dsimp only
  split
  · exact h
  · exact (memOk_foldl _ (fun s i hs => memOk_writeLine core _ s i hs) _ s h).of_mem (modCore_mem _ _ _)

@[simp] theorem mem_dropL1 (s : State) (core : Nat) (f : Nat → L1Byte → Bool) : (dropL1 s core f).mem = s.mem := by
  unfold dropL1
  dsimp only
  split <;> rfl

theorem memOk_flushL1 (s : State) (core : Nat) (f : Nat → Bool) (h : MemOk s) : MemOk (flushL1 s core f) :=
  (memOk_writeBackL1 s core f h).of_mem (mem_dropL1 _ _ _)

theorem memOk_dropSquare (s : State) (sq : Nat) (h : MemOk s) : MemOk (dropSquare s sq) := by
  unfold dropSquare
  split
  · split
    · exact memOk_evictSquare _ _ _ h
    · exact h
  · exact h

@[simp] theorem mem_l1Store (s : State) (core pa : Nat) (l : List Byte) (a : L1Line) : (l1Store s core pa l a).mem = s.mem :=
  modCore_mem _ _ _

@[simp] theorem mem_fillLine (s : State) (core line : Nat) : (fillLine s core line).mem = s.mem := setCore_mem _ _ _

theorem memOk_releaseCore (s : State) (core : Nat) (scope : BitVec 2) (h : MemOk s) : MemOk (releaseCore s core scope) := by
  unfold releaseCore
  have h1 := memOk_writeBackL1 s core (fun _ => true) h
  revert h1
  generalize writeBackL1 s core (fun _ => true) = s1
  intro h1
  split
  · exact h
  · dsimp only
    split
    · exact h1.of_mem rfl
    · exact h1

theorem memOk_acquireCore (s : State) (core : Nat) (scope : BitVec 2) (h : MemOk s) : MemOk (acquireCore s core scope) := by
  unfold acquireCore
  split
  · exact h
  · dsimp only
    split
    · exact memOk_foldl _ (fun s e hs => memOk_dropSquare s _ hs) _ _ (h.of_mem (mem_dropL1 _ _ _))
    · exact h.of_mem (mem_dropL1 _ _ _)

theorem memOk_peerMark (s : State) (g : Nat) (h : MemOk s) : MemOk (peerMark s g) := by
  unfold peerMark
  split
  · exact h
  · exact (memOk_touchSquare _ _ _ _ _ _ _ _ h).of_mem (setTag_mem _ _ _)

theorem memOk_peerMarks (l : List Nat) (s : State) (h : MemOk s) : MemOk (l.foldl peerMark s) :=
  memOk_foldl _ memOk_peerMark _ _ h

theorem memOk_sliceWrite (s : State) (core : Nat) (w : Way) (l : Leaf) (d : List Byte) (rid : Nat) (c : BitVec 2)
    (h : MemOk s) : MemOk (sliceWrite s core w l d rid c) := by
  unfold sliceWrite
  dsimp only
  have h1 : MemOk (if w.peer then s else dropL1 s core (fun a _ => decide (w.pa ≤ a) && decide (a < w.pa + d.length))) := by
    split
    · exact h
    · exact h.of_mem (mem_dropL1 _ _ _)
  have h2 := memOk_atSlice _ w l d.length rid c true none h1
  revert h2
  generalize atSlice _ w l d.length rid c true = r
  intro h2
  split
  · exact h2
  · have h3 := memOk_memWrite r.2 w.pa d h2
    split
    · exact memOk_peerMarks _ _ h3
    · exact h3

theorem memOk_coreStore (s : State) (core : Nat) (l : Leaf) (pa : Nat) (d : List Byte) (rid : Nat) (c : BitVec 2)
    (t : Bool) (agent : Nat) (h : MemOk s) : MemOk (coreStore s core l pa d rid c t agent) := by
  unfold coreStore
  dsimp only
  split
  · exact h
  · split
    · exact h.of_mem (mem_l1Store _ _ _ _ _)
    · exact memOk_sliceWrite _ _ _ _ _ _ _ h

theorem memOk_memPut (s : State) (pa n v : Nat) (h : MemOk s) : MemOk (memPut s pa n v) := memOk_memWrite s pa _ h

theorem memOk_memZero (s : State) (pa n : Nat) (h : MemOk s) : MemOk (memZero s pa n) :=
  MemOk.of_mem (mem_foldl _ mem_fireWord _ _) (wf_filter _ h)

@[simp] theorem mem_setGranuleTag (s : State) (g : Granule) (t : Tag) : (setGranuleTag s g t).mem = s.mem := by
  cases g with
  | global i => exact setTag_mem _ _ _
  | scratch k i => exact modTeam_mem _ _ _

@[simp] theorem mem_markUnknown (s : State) (g : Granule) : (markUnknown s g).mem = s.mem := by
  unfold markUnknown
  exact mem_setGranuleTag _ _ _

theorem memOk_coreWrite (s : State) (core : Nat) (l : Leaf) (pa : Nat) (d : List Byte) (rid : Nat) (c : BitVec 2)
    (t : Bool) (agent : Nat) (h : MemOk s) : MemOk (coreWrite s core l pa d rid c t agent) := by
  unfold coreWrite
  split
  · split
    · exact h.of_mem rfl
    · exact h
  · exact memOk_coreStore _ _ _ _ _ _ _ _ _ h

@[simp] theorem mem_lastUse (s : State) (core pa : Nat) (c : BitVec 2) : (lastUse s core pa c).mem = s.mem := by
  unfold lastUse
  split
  · exact mem_dropL1 _ _ _
  · rfl

theorem memOk_dropLast (s : State) (sq : Nat) (c : BitVec 2) (h : MemOk s) : MemOk (if c = 2 then dropSquare s sq else s) := by
  split
  · exact memOk_dropSquare _ _ h
  · exact h

theorem memOk_sliceRead (s : State) (core : Nat) (w : Way) (l : Leaf) (n rid : Nat) (c : BitVec 2)
    (col : Option (BitVec 2)) (h : MemOk s) : MemOk (sliceRead s core w l n rid c col).2 := by
  unfold sliceRead
  dsimp only
  have h1 : MemOk (if w.peer then s else settleL1 s core w.pa n) := by
    split
    · exact h
    · exact memOk_flushL1 _ _ _ h
  have h2 := memOk_atSlice _ w l n rid c false col h1
  revert h2
  generalize atSlice _ w l n rid c false col = r
  intro h2
  split
  · exact h2.of_mem (mem_consume _ _ _ _)
  · exact memOk_dropLast _ _ _ h2

theorem memOk_l1Read (s : State) (core : Nat) (w : Way) (l : Leaf) (n rid : Nat) (c : BitVec 2) (h : MemOk s) :
    MemOk (l1Read s core w l n rid c).2 := by
  unfold l1Read
  dsimp only
  have h1 : MemOk (modCore s core (noteLine (lineInfo s l w.pa rid c none) (w.pa / 128))) := h.of_mem (modCore_mem _ _ _)
  revert h1
  generalize modCore s core (noteLine (lineInfo s l w.pa rid c none) (w.pa / 128)) = s1
  intro h1
  split
  · exact h1.of_mem (mem_lastUse _ _ _ _)
  · have h2 := memOk_atSlice s1 { w with pa := 128 * (w.pa / 128), far := w.far.map (fun x => (x.1 / 128 * 128, x.2)) }
      l 128 rid c false none h1
    revert h2
    generalize atSlice s1 _ l 128 rid c false = r
    intro h2
    split
    · exact h2.of_mem (mem_consume _ _ _ _)
    · have h3 := memOk_dropLast _ (w.pa / 1024) c (h2.of_mem (mem_fillLine _ core (w.pa / 128)))
      revert h3
      generalize (if c = 2 then dropSquare (fillLine r.2 core (w.pa / 128)) (w.pa / 1024)
        else fillLine r.2 core (w.pa / 128)) = s3
      intro h3
      split
      · exact h3.of_mem (mem_lastUse _ _ _ _)
      · exact h3.of_mem (mem_consume _ _ _ _)

theorem memOk_coreRead (s : State) (core : Nat) (l : Leaf) (pa n rid : Nat) (c : BitVec 2) (f d : Bool)
    (col : Option (BitVec 2)) (h : MemOk s) : MemOk (coreRead s core l pa n rid c f d col).2 := by
  unfold coreRead
  generalize wayOf s l pa = w
  dsimp only
  split
  · exact h
  · split
    · refine memOk_l1Read _ _ _ _ _ _ _ ?_
      split
      · exact h.of_mem (mem_dropL1 _ _ _)
      · exact h
    · exact memOk_sliceRead _ _ _ _ _ _ _ _ h

theorem memOk_leaveL1 (s : State) (core : Nat) (w : Way) (h : MemOk s) : MemOk (leaveL1 s core w) := by
  unfold leaveL1
  split
  · exact h
  · exact memOk_flushL1 _ _ _ h

theorem memOk_coreAtomic (s : State) (core : Nat) (l : Leaf) (pa n rid : Nat) (c : BitVec 2) (f : Nat → Option Nat)
    (h : MemOk s) : MemOk (coreAtomic s core l pa n rid c f).2 := by
  unfold coreAtomic
  generalize wayOf s l pa = w
  dsimp only
  split
  · exact h
  · have h2 := memOk_atSlice _ w l n rid c true none (memOk_leaveL1 s core w h)
    revert h2
    generalize atSlice (leaveL1 s core w) w l n rid c true = r
    intro h2
    split
    · exact h2.of_mem (mem_consume _ _ _ _)
    · have h3 : MemOk (if poisoned r.2 w.pa n then consume r.2 w.pa n (unitOf 1 (homeSlice w.pa)) else r.2) := by
        split
        · exact h2.of_mem (mem_consume _ _ _ _)
        · exact h2
      revert h3
      generalize (if poisoned r.2 w.pa n then consume r.2 w.pa n (unitOf 1 (homeSlice w.pa)) else r.2) = s3
      intro h3
      split
      · exact h3
      · dsimp only
        split
        · exact memOk_peerMark _ _ (memOk_memWrite s3 _ _ h3)
        · exact memOk_memWrite s3 _ _ h3

theorem memOk_coreMerge (s : State) (core : Nat) (l : Leaf) (pa : Nat) (d m : List Byte) (rid : Nat) (c : BitVec 2)
    (h : MemOk s) : MemOk (coreMerge s core l pa d m rid c) := by
  unfold coreMerge
  generalize wayOf s l pa = w
  dsimp only
  split
  · exact h
  · have h2 := memOk_atSlice _ w l d.length rid c true none (memOk_leaveL1 s core w h)
    revert h2
    generalize atSlice (leaveL1 s core w) w l d.length rid c true = r
    intro h2
    split
    · exact h2
    · have h3 := memOk_memWrite r.2 w.pa ((upto d.length).map (fun i =>
        ((if poisoned r.2 w.pa d.length then List.replicate d.length 0 else memRead r.2 w.pa d.length).getD i 0 &&&
          ~~~(m.getD i 0)) ||| (d.getD i 0 &&& m.getD i 0))) h2
      split
      · exact memOk_peerMarks _ _ h3
      · exact h3

end Sys2Proof.Machine
end

