-- ==== Sys2Proof/Laws/PerInstr.lean ====
section
/-!
SUPPORT. A statement about each constructor of `Instr`: the size of its group of words.
-/

namespace Sys2Proof.Laws.WordShape

/-- Whatever the header, the instruction is encoded in `words` words, of which there are at most three (R235). -/
def Statement (i : Instr) : Prop := ∀ h : Header, (encode h i).length = i.words ∧ i.words ≤ 3

theorem of_length {i : Instr} (n : Nat) (hl : ∀ h, (encode h i).length = n) (hn : n ≤ 3) : Statement i := by
  intro h
  unfold Instr.words
  rw [hl, hl]
  exact ⟨rfl, hn⟩

theorem iadd (vd va vb : BitVec 6) : Statement (.iadd vd va vb) :=
  of_length 1 (fun _ => rfl) (by decide)
theorem isub (vd va vb : BitVec 6) : Statement (.isub vd va vb) :=
  of_length 1 (fun _ => rfl) (by decide)
theorem imin (vd va vb : BitVec 6) : Statement (.imin vd va vb) :=
  of_length 1 (fun _ => rfl) (by decide)
theorem imax (vd va vb : BitVec 6) : Statement (.imax vd va vb) :=
  of_length 1 (fun _ => rfl) (by decide)
theorem nmin (vd va vb : BitVec 6) : Statement (.nmin vd va vb) :=
  of_length 1 (fun _ => rfl) (by decide)
theorem nmax (vd va vb : BitVec 6) : Statement (.nmax vd va vb) :=
  of_length 1 (fun _ => rfl) (by decide)
theorem iabsd (vd va vb : BitVec 6) : Statement (.iabsd vd va vb) :=
  of_length 1 (fun _ => rfl) (by decide)
theorem navg (vd va vb : BitVec 6) : Statement (.navg vd va vb) :=
  of_length 1 (fun _ => rfl) (by decide)
theorem imul (vd va vb : BitVec 6) : Statement (.imul vd va vb) :=
  of_length 1 (fun _ => rfl) (by decide)
theorem imulh (vd va vb : BitVec 6) : Statement (.imulh vd va vb) :=
  of_length 1 (fun _ => rfl) (by decide)
theorem nmulh (vd va vb : BitVec 6) : Statement (.nmulh vd va vb) :=
  of_length 1 (fun _ => rfl) (by decide)
theorem imad (vd va vb : BitVec 6) : Statement (.imad vd va vb) :=
  of_length 1 (fun _ => rfl) (by decide)
theorem and (vd va vb : BitVec 6) : Statement (.and vd va vb) :=
  of_length 1 (fun _ => rfl) (by decide)
theorem or (vd va vb : BitVec 6) : Statement (.or vd va vb) :=
  of_length 1 (fun _ => rfl) (by decide)
theorem xor (vd va vb : BitVec 6) : Statement (.xor vd va vb) :=
  of_length 1 (fun _ => rfl) (by decide)
theorem andn (vd va vb : BitVec 6) : Statement (.andn vd va vb) :=
  of_length 1 (fun _ => rfl) (by decide)
theorem shl (vd va vb : BitVec 6) : Statement (.shl vd va vb) :=
  of_length 1 (fun _ => rfl) (by decide)
theorem shr (vd va vb : BitVec 6) : Statement (.shr vd va vb) :=
  of_length 1 (fun _ => rfl) (by decide)
theorem sar (vd va vb : BitVec 6) : Statement (.sar vd va vb) :=
  of_length 1 (fun _ => rfl) (by decide)
theorem rol (vd va vb : BitVec 6) : Statement (.rol vd va vb) :=
  of_length 1 (fun _ => rfl) (by decide)
theorem bfx (vd va vb : BitVec 6) : Statement (.bfx vd va vb) :=
  of_length 1 (fun _ => rfl) (by decide)
theorem bfxn (vd va vb : BitVec 6) : Statement (.bfxn vd va vb) :=
  of_length 1 (fun _ => rfl) (by decide)
theorem bfi (vd va vb : BitVec 6) : Statement (.bfi vd va vb) :=
  of_length 1 (fun _ => rfl) (by decide)
theorem prmt (vd va vb : BitVec 6) : Statement (.prmt vd va vb) :=
  of_length 1 (fun _ => rfl) (by decide)
theorem fadd (vd va vb : BitVec 6) : Statement (.fadd vd va vb) :=
  of_length 1 (fun _ => rfl) (by decide)
theorem fsub (vd va vb : BitVec 6) : Statement (.fsub vd va vb) :=
  of_length 1 (fun _ => rfl) (by decide)
theorem fmul (vd va vb : BitVec 6) : Statement (.fmul vd va vb) :=
  of_length 1 (fun _ => rfl) (by decide)
theorem ffma (vd va vb : BitVec 6) : Statement (.ffma vd va vb) :=
  of_length 1 (fun _ => rfl) (by decide)
theorem fmin (vd va vb : BitVec 6) : Statement (.fmin vd va vb) :=
  of_length 1 (fun _ => rfl) (by decide)
theorem fmax (vd va vb : BitVec 6) : Statement (.fmax vd va vb) :=
  of_length 1 (fun _ => rfl) (by decide)
theorem fabsd (vd va vb : BitVec 6) : Statement (.fabsd vd va vb) :=
  of_length 1 (fun _ => rfl) (by decide)
theorem fcpys (vd va vb : BitVec 6) : Statement (.fcpys vd va vb) :=
  of_length 1 (fun _ => rfl) (by decide)
theorem phadd (vd va vb : BitVec 6) : Statement (.phadd vd va vb) :=
  of_length 1 (fun _ => rfl) (by decide)
theorem phmul (vd va vb : BitVec 6) : Statement (.phmul vd va vb) :=
  of_length 1 (fun _ => rfl) (by decide)
theorem phfma (vd va vb : BitVec 6) : Statement (.phfma vd va vb) :=
  of_length 1 (fun _ => rfl) (by decide)
theorem phmax (vd va vb : BitVec 6) : Statement (.phmax vd va vb) :=
  of_length 1 (fun _ => rfl) (by decide)
theorem pbadd (vd va vb : BitVec 6) : Statement (.pbadd vd va vb) :=
  of_length 1 (fun _ => rfl) (by decide)
theorem pbmul (vd va vb : BitVec 6) : Statement (.pbmul vd va vb) :=
  of_length 1 (fun _ => rfl) (by decide)
theorem pbfma (vd va vb : BitVec 6) : Statement (.pbfma vd va vb) :=
  of_length 1 (fun _ => rfl) (by decide)
theorem pbmax (vd va vb : BitVec 6) : Statement (.pbmax vd va vb) :=
  of_length 1 (fun _ => rfl) (by decide)
theorem shfl (vd va vb : BitVec 6) : Statement (.shfl vd va vb) :=
  of_length 1 (fun _ => rfl) (by decide)
theorem shflu (vd va vb : BitVec 6) : Statement (.shflu vd va vb) :=
  of_length 1 (fun _ => rfl) (by decide)
theorem shfld (vd va vb : BitVec 6) : Statement (.shfld vd va vb) :=
  of_length 1 (fun _ => rfl) (by decide)
theorem shflx (vd va vb : BitVec 6) : Statement (.shflx vd va vb) :=
  of_length 1 (fun _ => rfl) (by decide)
theorem popc (vd va : BitVec 6) : Statement (.popc vd va) :=
  of_length 1 (fun _ => rfl) (by decide)
theorem clz (vd va : BitVec 6) : Statement (.clz vd va) :=
  of_length 1 (fun _ => rfl) (by decide)
theorem brev (vd va : BitVec 6) : Statement (.brev vd va) :=
  of_length 1 (fun _ => rfl) (by decide)
theorem ffs (vd va : BitVec 6) : Statement (.ffs vd va) :=
  of_length 1 (fun _ => rfl) (by decide)
theorem frcp (vd va : BitVec 6) : Statement (.frcp vd va) :=
  of_length 1 (fun _ => rfl) (by decide)
theorem frsq (vd va : BitVec 6) : Statement (.frsq vd va) :=
  of_length 1 (fun _ => rfl) (by decide)
theorem fex2 (vd va : BitVec 6) : Statement (.fex2 vd va) :=
  of_length 1 (fun _ => rfl) (by decide)
theorem flg2 (vd va : BitVec 6) : Statement (.flg2 vd va) :=
  of_length 1 (fun _ => rfl) (by decide)
theorem fsin (vd va : BitVec 6) : Statement (.fsin vd va) :=
  of_length 1 (fun _ => rfl) (by decide)
theorem fcos (vd va : BitVec 6) : Statement (.fcos vd va) :=
  of_length 1 (fun _ => rfl) (by decide)
theorem fsqrt (vd va : BitVec 6) : Statement (.fsqrt vd va) :=
  of_length 1 (fun _ => rfl) (by decide)
theorem ftanh (vd va : BitVec 6) : Statement (.ftanh vd va) :=
  of_length 1 (fun _ => rfl) (by decide)
theorem i2f (vd va : BitVec 6) : Statement (.i2f vd va) :=
  of_length 1 (fun _ => rfl) (by decide)
theorem n2f (vd va : BitVec 6) : Statement (.n2f vd va) :=
  of_length 1 (fun _ => rfl) (by decide)
theorem f2i (vd va : BitVec 6) : Statement (.f2i vd va) :=
  of_length 1 (fun _ => rfl) (by decide)
theorem f2n (vd va : BitVec 6) : Statement (.f2n vd va) :=
  of_length 1 (fun _ => rfl) (by decide)
theorem frne (vd va : BitVec 6) : Statement (.frne vd va) :=
  of_length 1 (fun _ => rfl) (by decide)
theorem fflr (vd va : BitVec 6) : Statement (.fflr vd va) :=
  of_length 1 (fun _ => rfl) (by decide)
theorem fceil (vd va : BitVec 6) : Statement (.fceil vd va) :=
  of_length 1 (fun _ => rfl) (by decide)
theorem ftrnc (vd va : BitVec 6) : Statement (.ftrnc vd va) :=
  of_length 1 (fun _ => rfl) (by decide)
theorem wradd (vd va : BitVec 6) : Statement (.wradd vd va) :=
  of_length 1 (fun _ => rfl) (by decide)
theorem wrmax (vd va : BitVec 6) : Statement (.wrmax vd va) :=
  of_length 1 (fun _ => rfl) (by decide)
theorem wrfadd (vd va : BitVec 6) : Statement (.wrfadd vd va) :=
  of_length 1 (fun _ => rfl) (by decide)
theorem wrfmax (vd va : BitVec 6) : Statement (.wrfmax vd va) :=
  of_length 1 (fun _ => rfl) (by decide)
theorem icmpp (pd cc : BitVec 3) (va vb : BitVec 6) (f : BitVec 2) : Statement (.icmpp pd cc va vb f) :=
  of_length 1 (fun _ => rfl) (by decide)
theorem sel (vd va vb : BitVec 6) (k : BitVec 2) : Statement (.sel vd va vb k) :=
  of_length 1 (fun _ => rfl) (by decide)
theorem fcmpp (pd cc : BitVec 3) (va vb : BitVec 6) (f : BitVec 2) : Statement (.fcmpp pd cc va vb f) :=
  of_length 1 (fun _ => rfl) (by decide)
theorem f2h2 (vd va vb : BitVec 6) : Statement (.f2h2 vd va vb) :=
  of_length 1 (fun _ => rfl) (by decide)
theorem h2f (vd va : BitVec 6) (hi : BitVec 1) : Statement (.h2f vd va hi) :=
  of_length 1 (fun _ => rfl) (by decide)
theorem f2b2 (vd va vb : BitVec 6) : Statement (.f2b2 vd va vb) :=
  of_length 1 (fun _ => rfl) (by decide)
theorem b2f (vd va : BitVec 6) (hi : BitVec 1) : Statement (.b2f vd va hi) :=
  of_length 1 (fun _ => rfl) (by decide)
theorem cvtn (vd va : BitVec 6) (hb : BitVec 4) : Statement (.cvtn vd va hb) :=
  of_length 1 (fun _ => rfl) (by decide)
theorem cvtsr (vd va : BitVec 6) (hb : BitVec 4) : Statement (.cvtsr vd va hb) :=
  of_length 1 (fun _ => rfl) (by decide)
theorem cvtw (vd va : BitVec 6) (hb : BitVec 4) : Statement (.cvtw vd va hb) :=
  of_length 1 (fun _ => rfl) (by decide)
theorem packn (vd va : BitVec 6) (hb : BitVec 4) : Statement (.packn vd va hb) :=
  of_length 1 (fun _ => rfl) (by decide)
theorem qxh (vd va : BitVec 6) : Statement (.qxh vd va) :=
  of_length 1 (fun _ => rfl) (by decide)
theorem qxv (vd va : BitVec 6) : Statement (.qxv vd va) :=
  of_length 1 (fun _ => rfl) (by decide)
theorem qxd (vd va : BitVec 6) : Statement (.qxd vd va) :=
  of_length 1 (fun _ => rfl) (by decide)
theorem qbc (vd va vb : BitVec 6) : Statement (.qbc vd va vb) :=
  of_length 1 (fun _ => rfl) (by decide)
theorem ballot (sd va : BitVec 6) : Statement (.ballot sd va) :=
  of_length 1 (fun _ => rfl) (by decide)
theorem vany (vd va : BitVec 6) : Statement (.vany vd va) :=
  of_length 1 (fun _ => rfl) (by decide)
theorem vall (vd va : BitVec 6) : Statement (.vall vd va) :=
  of_length 1 (fun _ => rfl) (by decide)
theorem vmatch (vd va : BitVec 6) : Statement (.vmatch vd va) :=
  of_length 1 (fun _ => rfl) (by decide)
theorem vmov (vd va : BitVec 6) : Statement (.vmov vd va) :=
  of_length 1 (fun _ => rfl) (by decide)
theorem vmovs (vd sa : BitVec 6) (hi : BitVec 1) : Statement (.vmovs vd sa hi) :=
  of_length 1 (fun _ => rfl) (by decide)
theorem vspec (vd ix : BitVec 6) : Statement (.vspec vd ix) :=
  of_length 1 (fun _ => rfl) (by decide)
theorem iaddi (vd va : BitVec 6) (imm : Imm) : Statement (.iaddi vd va imm) := by
  cases imm with
  | lone _ => exact of_length 1 (fun _ => rfl) (by decide)
  | one _ _ => exact of_length 2 (fun _ => rfl) (by decide)
  | two _ _ _ => exact of_length 3 (fun _ => rfl) (by decide)
theorem shli (vd va : BitVec 6) (imm : Imm) : Statement (.shli vd va imm) := by
  cases imm with
  | lone _ => exact of_length 1 (fun _ => rfl) (by decide)
  | one _ _ => exact of_length 2 (fun _ => rfl) (by decide)
  | two _ _ _ => exact of_length 3 (fun _ => rfl) (by decide)
theorem shri (vd va : BitVec 6) (imm : Imm) : Statement (.shri vd va imm) := by
  cases imm with
  | lone _ => exact of_length 1 (fun _ => rfl) (by decide)
  | one _ _ => exact of_length 2 (fun _ => rfl) (by decide)
  | two _ _ _ => exact of_length 3 (fun _ => rfl) (by decide)
theorem andi (vd va : BitVec 6) (imm : Imm) : Statement (.andi vd va imm) := by
  cases imm with
  | lone _ => exact of_length 1 (fun _ => rfl) (by decide)
  | one _ _ => exact of_length 2 (fun _ => rfl) (by decide)
  | two _ _ _ => exact of_length 3 (fun _ => rfl) (by decide)
theorem movi (vd : BitVec 6) (imm : Imm) : Statement (.movi vd imm) := by
  cases imm with
  | lone _ => exact of_length 1 (fun _ => rfl) (by decide)
  | one _ _ => exact of_length 2 (fun _ => rfl) (by decide)
  | two _ _ _ => exact of_length 3 (fun _ => rfl) (by decide)
theorem ori (vd va : BitVec 6) (imm : Imm) : Statement (.ori vd va imm) := by
  cases imm with
  | lone _ => exact of_length 1 (fun _ => rfl) (by decide)
  | one _ _ => exact of_length 2 (fun _ => rfl) (by decide)
  | two _ _ _ => exact of_length 3 (fun _ => rfl) (by decide)
theorem xori (vd va : BitVec 6) (imm : Imm) : Statement (.xori vd va imm) := by
  cases imm with
  | lone _ => exact of_length 1 (fun _ => rfl) (by decide)
  | one _ _ => exact of_length 2 (fun _ => rfl) (by decide)
  | two _ _ _ => exact of_length 3 (fun _ => rfl) (by decide)
theorem ld (w : BitVec 2) (vd va sb : BitVec 6) (mq : Option Mq) : Statement (.ld w vd va sb mq) := by
  cases mq with
  | none => exact of_length 1 (fun _ => rfl) (by decide)
  | some _ => exact of_length 2 (fun _ => rfl) (by decide)
theorem ldb (w : BitVec 2) (vd va sb : BitVec 6) (mq : Option Mq) : Statement (.ldb w vd va sb mq) := by
  cases mq with
  | none => exact of_length 1 (fun _ => rfl) (by decide)
  | some _ => exact of_length 2 (fun _ => rfl) (by decide)
theorem st (w : BitVec 2) (vd va sb : BitVec 6) (mq : Option Mq) : Statement (.st w vd va sb mq) := by
  cases mq with
  | none => exact of_length 1 (fun _ => rfl) (by decide)
  | some _ => exact of_length 2 (fun _ => rfl) (by decide)
theorem stb (vd va sb : BitVec 6) (mq : Option Mq) : Statement (.stb vd va sb mq) := by
  cases mq with
  | none => exact of_length 1 (fun _ => rfl) (by decide)
  | some _ => exact of_length 2 (fun _ => rfl) (by decide)
theorem ldx (w : BitVec 2) (vd va sb : BitVec 6) (mq : Option Mq) : Statement (.ldx w vd va sb mq) := by
  cases mq with
  | none => exact of_length 1 (fun _ => rfl) (by decide)
  | some _ => exact of_length 2 (fun _ => rfl) (by decide)
theorem stx (w : BitVec 2) (vd va sb : BitVec 6) (mq : Option Mq) : Statement (.stx w vd va sb mq) := by
  cases mq with
  | none => exact of_length 1 (fun _ => rfl) (by decide)
  | some _ => exact of_length 2 (fun _ => rfl) (by decide)
theorem ldt (w : BitVec 2) (vd va sb : BitVec 6) (mq : Option Mq) : Statement (.ldt w vd va sb mq) := by
  cases mq with
  | none => exact of_length 1 (fun _ => rfl) (by decide)
  | some _ => exact of_length 2 (fun _ => rfl) (by decide)
theorem cld (w : BitVec 2) (vd va : BitVec 6) (hb : BitVec 4) (mq : Option Mq) : Statement (.cld w vd va hb mq) := by
  cases mq with
  | none => exact of_length 1 (fun _ => rfl) (by decide)
  | some _ => exact of_length 2 (fun _ => rfl) (by decide)
theorem cstElem (vd va : BitVec 6) (hb : BitVec 4) (mq : Option Mq) : Statement (.cstElem vd va hb mq) := by
  cases mq with
  | none => exact of_length 1 (fun _ => rfl) (by decide)
  | some _ => exact of_length 2 (fun _ => rfl) (by decide)
theorem cstBlk (vd va : BitVec 6) (hb : BitVec 4) (mq : Option Mq) : Statement (.cstBlk vd va hb mq) := by
  cases mq with
  | none => exact of_length 1 (fun _ => rfl) (by decide)
  | some _ => exact of_length 2 (fun _ => rfl) (by decide)
theorem atomAdd (vd va sb : BitVec 6) (mq : Option Mq) : Statement (.atomAdd vd va sb mq) := by
  cases mq with
  | none => exact of_length 1 (fun _ => rfl) (by decide)
  | some _ => exact of_length 2 (fun _ => rfl) (by decide)
theorem atomFadd (vd va sb : BitVec 6) (mq : Option Mq) : Statement (.atomFadd vd va sb mq) := by
  cases mq with
  | none => exact of_length 1 (fun _ => rfl) (by decide)
  | some _ => exact of_length 2 (fun _ => rfl) (by decide)
theorem atomExch (vd va sb : BitVec 6) (mq : Option Mq) : Statement (.atomExch vd va sb mq) := by
  cases mq with
  | none => exact of_length 1 (fun _ => rfl) (by decide)
  | some _ => exact of_length 2 (fun _ => rfl) (by decide)
theorem atomCas (vd va sb : BitVec 6) (mq : Option Mq) : Statement (.atomCas vd va sb mq) := by
  cases mq with
  | none => exact of_length 1 (fun _ => rfl) (by decide)
  | some _ => exact of_length 2 (fun _ => rfl) (by decide)
theorem atomNmin (vd va sb : BitVec 6) (mq : Option Mq) : Statement (.atomNmin vd va sb mq) := by
  cases mq with
  | none => exact of_length 1 (fun _ => rfl) (by decide)
  | some _ => exact of_length 2 (fun _ => rfl) (by decide)
theorem atomNmax (vd va sb : BitVec 6) (mq : Option Mq) : Statement (.atomNmax vd va sb mq) := by
  cases mq with
  | none => exact of_length 1 (fun _ => rfl) (by decide)
  | some _ => exact of_length 2 (fun _ => rfl) (by decide)
theorem atomAnd (vd va sb : BitVec 6) (mq : Option Mq) : Statement (.atomAnd vd va sb mq) := by
  cases mq with
  | none => exact of_length 1 (fun _ => rfl) (by decide)
  | some _ => exact of_length 2 (fun _ => rfl) (by decide)
theorem atomOr (vd va sb : BitVec 6) (mq : Option Mq) : Statement (.atomOr vd va sb mq) := by
  cases mq with
  | none => exact of_length 1 (fun _ => rfl) (by decide)
  | some _ => exact of_length 2 (fun _ => rfl) (by decide)
theorem atomxAdd (vd va sb : BitVec 6) (mq : Option Mq) : Statement (.atomxAdd vd va sb mq) := by
  cases mq with
  | none => exact of_length 1 (fun _ => rfl) (by decide)
  | some _ => exact of_length 2 (fun _ => rfl) (by decide)
theorem atomxExch (vd va sb : BitVec 6) (mq : Option Mq) : Statement (.atomxExch vd va sb mq) := by
  cases mq with
  | none => exact of_length 1 (fun _ => rfl) (by decide)
  | some _ => exact of_length 2 (fun _ => rfl) (by decide)
theorem atomxCas (vd va sb : BitVec 6) (mq : Option Mq) : Statement (.atomxCas vd va sb mq) := by
  cases mq with
  | none => exact of_length 1 (fun _ => rfl) (by decide)
  | some _ => exact of_length 2 (fun _ => rfl) (by decide)
theorem atomxNmax (vd va sb : BitVec 6) (mq : Option Mq) : Statement (.atomxNmax vd va sb mq) := by
  cases mq with
  | none => exact of_length 1 (fun _ => rfl) (by decide)
  | some _ => exact of_length 2 (fun _ => rfl) (by decide)
theorem kvldK (vd va sb : BitVec 6) : Statement (.kvldK vd va sb) :=
  of_length 1 (fun _ => rfl) (by decide)
theorem kvldVt (vd va sb : BitVec 6) : Statement (.kvldVt vd va sb) :=
  of_length 1 (fun _ => rfl) (by decide)
theorem kvappK (vd va sb : BitVec 6) : Statement (.kvappK vd va sb) :=
  of_length 1 (fun _ => rfl) (by decide)
theorem kvappV (vd va sb : BitVec 6) : Statement (.kvappV vd va sb) :=
  of_length 1 (fun _ => rfl) (by decide)
theorem kvappCommit (va sb : BitVec 6) : Statement (.kvappCommit va sb) :=
  of_length 1 (fun _ => rfl) (by decide)
theorem ssld (vd va sb : BitVec 6) : Statement (.ssld vd va sb) :=
  of_length 1 (fun _ => rfl) (by decide)
theorem ssst (vd va sb : BitVec 6) : Statement (.ssst vd va sb) :=
  of_length 1 (fun _ => rfl) (by decide)
theorem ropeInter (vd va sb : BitVec 6) : Statement (.ropeInter vd va sb) :=
  of_length 1 (fun _ => rfl) (by decide)
theorem ropeSplit (vd va sb : BitVec 6) : Statement (.ropeSplit vd va sb) :=
  of_length 1 (fun _ => rfl) (by decide)
theorem bra (off : BitVec 18) : Statement (.bra off) :=
  of_length 1 (fun _ => rfl) (by decide)
theorem call (off : BitVec 18) : Statement (.call off) :=
  of_length 1 (fun _ => rfl) (by decide)
theorem rcvset (off : BitVec 18) : Statement (.rcvset off) :=
  of_length 1 (fun _ => rfl) (by decide)
theorem reform (off : BitVec 18) : Statement (.reform off) :=
  of_length 1 (fun _ => rfl) (by decide)
theorem rejoin (off : BitVec 18) : Statement (.rejoin off) :=
  of_length 1 (fun _ => rfl) (by decide)
theorem spawn (off : BitVec 18) : Statement (.spawn off) :=
  of_length 1 (fun _ => rfl) (by decide)
theorem callr (va : BitVec 6) : Statement (.callr va) :=
  of_length 1 (fun _ => rfl) (by decide)
theorem brx (va : BitVec 6) : Statement (.brx va) :=
  of_length 1 (fun _ => rfl) (by decide)
theorem waitc (w : BitVec 2) (vd va sb : BitVec 6) : Statement (.waitc w vd va sb) :=
  of_length 1 (fun _ => rfl) (by decide)
theorem sadd (sd sa sb : BitVec 6) : Statement (.sadd sd sa sb) :=
  of_length 1 (fun _ => rfl) (by decide)
theorem ssub (sd sa sb : BitVec 6) : Statement (.ssub sd sa sb) :=
  of_length 1 (fun _ => rfl) (by decide)
theorem smin (sd sa sb : BitVec 6) : Statement (.smin sd sa sb) :=
  of_length 1 (fun _ => rfl) (by decide)
theorem smax (sd sa sb : BitVec 6) : Statement (.smax sd sa sb) :=
  of_length 1 (fun _ => rfl) (by decide)
theorem smul (sd sa sb : BitVec 6) : Statement (.smul sd sa sb) :=
  of_length 1 (fun _ => rfl) (by decide)
theorem smulh (sd sa sb : BitVec 6) : Statement (.smulh sd sa sb) :=
  of_length 1 (fun _ => rfl) (by decide)
theorem sdivn (sd sa sb : BitVec 6) : Statement (.sdivn sd sa sb) :=
  of_length 1 (fun _ => rfl) (by decide)
theorem sremn (sd sa sb : BitVec 6) : Statement (.sremn sd sa sb) :=
  of_length 1 (fun _ => rfl) (by decide)
theorem sand (sd sa sb : BitVec 6) : Statement (.sand sd sa sb) :=
  of_length 1 (fun _ => rfl) (by decide)
theorem sor (sd sa sb : BitVec 6) : Statement (.sor sd sa sb) :=
  of_length 1 (fun _ => rfl) (by decide)
theorem sxor (sd sa sb : BitVec 6) : Statement (.sxor sd sa sb) :=
  of_length 1 (fun _ => rfl) (by decide)
theorem sandn (sd sa sb : BitVec 6) : Statement (.sandn sd sa sb) :=
  of_length 1 (fun _ => rfl) (by decide)
theorem sshl (sd sa sb : BitVec 6) : Statement (.sshl sd sa sb) :=
  of_length 1 (fun _ => rfl) (by decide)
theorem sshr (sd sa sb : BitVec 6) : Statement (.sshr sd sa sb) :=
  of_length 1 (fun _ => rfl) (by decide)
theorem ssar (sd sa sb : BitVec 6) : Statement (.ssar sd sa sb) :=
  of_length 1 (fun _ => rfl) (by decide)
theorem srol (sd sa sb : BitVec 6) : Statement (.srol sd sa sb) :=
  of_length 1 (fun _ => rfl) (by decide)
theorem sfadd (sd sa sb : BitVec 6) : Statement (.sfadd sd sa sb) :=
  of_length 1 (fun _ => rfl) (by decide)
theorem sfsub (sd sa sb : BitVec 6) : Statement (.sfsub sd sa sb) :=
  of_length 1 (fun _ => rfl) (by decide)
theorem sfmul (sd sa sb : BitVec 6) : Statement (.sfmul sd sa sb) :=
  of_length 1 (fun _ => rfl) (by decide)
theorem sffma (sd sa sb : BitVec 6) : Statement (.sffma sd sa sb) :=
  of_length 1 (fun _ => rfl) (by decide)
theorem spopc (sd sa : BitVec 6) : Statement (.spopc sd sa) :=
  of_length 1 (fun _ => rfl) (by decide)
theorem sclz (sd sa : BitVec 6) : Statement (.sclz sd sa) :=
  of_length 1 (fun _ => rfl) (by decide)
theorem sbrev (sd sa : BitVec 6) : Statement (.sbrev sd sa) :=
  of_length 1 (fun _ => rfl) (by decide)
theorem sffs (sd sa : BitVec 6) : Statement (.sffs sd sa) :=
  of_length 1 (fun _ => rfl) (by decide)
theorem si2f (sd sa : BitVec 6) : Statement (.si2f sd sa) :=
  of_length 1 (fun _ => rfl) (by decide)
theorem sf2i (sd sa : BitVec 6) : Statement (.sf2i sd sa) :=
  of_length 1 (fun _ => rfl) (by decide)
theorem sfrcp (sd sa : BitVec 6) : Statement (.sfrcp sd sa) :=
  of_length 1 (fun _ => rfl) (by decide)
theorem sfsqrt (sd sa : BitVec 6) : Statement (.sfsqrt sd sa) :=
  of_length 1 (fun _ => rfl) (by decide)
theorem ssetc (cd cc : BitVec 3) (sa sb : BitVec 6) (f : BitVec 2) : Statement (.ssetc cd cc sa sb f) :=
  of_length 1 (fun _ => rfl) (by decide)
theorem ssel (sd sa sb : BitVec 6) (k : BitVec 2) : Statement (.ssel sd sa sb k) :=
  of_length 1 (fun _ => rfl) (by decide)
theorem smov (sd sa : BitVec 6) : Statement (.smov sd sa) :=
  of_length 1 (fun _ => rfl) (by decide)
theorem srd (sd ix : BitVec 6) : Statement (.srd sd ix) :=
  of_length 1 (fun _ => rfl) (by decide)
theorem swr (ixd sa : BitVec 6) : Statement (.swr ixd sa) :=
  of_length 1 (fun _ => rfl) (by decide)
theorem saddi (sd sa : BitVec 6) (imm : Imm) : Statement (.saddi sd sa imm) := by
  cases imm with
  | lone _ => exact of_length 1 (fun _ => rfl) (by decide)
  | one _ _ => exact of_length 2 (fun _ => rfl) (by decide)
  | two _ _ _ => exact of_length 3 (fun _ => rfl) (by decide)
theorem smovi (sd : BitVec 6) (imm : Imm) : Statement (.smovi sd imm) := by
  cases imm with
  | lone _ => exact of_length 1 (fun _ => rfl) (by decide)
  | one _ _ => exact of_length 2 (fun _ => rfl) (by decide)
  | two _ _ _ => exact of_length 3 (fun _ => rfl) (by decide)
theorem sshli (sd sa : BitVec 6) (imm : Imm) : Statement (.sshli sd sa imm) := by
  cases imm with
  | lone _ => exact of_length 1 (fun _ => rfl) (by decide)
  | one _ _ => exact of_length 2 (fun _ => rfl) (by decide)
  | two _ _ _ => exact of_length 3 (fun _ => rfl) (by decide)
theorem sandi (sd sa : BitVec 6) (imm : Imm) : Statement (.sandi sd sa imm) := by
  cases imm with
  | lone _ => exact of_length 1 (fun _ => rfl) (by decide)
  | one _ _ => exact of_length 2 (fun _ => rfl) (by decide)
  | two _ _ _ => exact of_length 3 (fun _ => rfl) (by decide)
theorem sori (sd sa : BitVec 6) (imm : Imm) : Statement (.sori sd sa imm) := by
  cases imm with
  | lone _ => exact of_length 1 (fun _ => rfl) (by decide)
  | one _ _ => exact of_length 2 (fun _ => rfl) (by decide)
  | two _ _ _ => exact of_length 3 (fun _ => rfl) (by decide)
theorem sld (w : BitVec 2) (sd sa sb : BitVec 6) (mq : Option Mq) : Statement (.sld w sd sa sb mq) := by
  cases mq with
  | none => exact of_length 1 (fun _ => rfl) (by decide)
  | some _ => exact of_length 2 (fun _ => rfl) (by decide)
theorem sst (w : BitVec 2) (sd sa sb : BitVec 6) (mq : Option Mq) : Statement (.sst w sd sa sb mq) := by
  cases mq with
  | none => exact of_length 1 (fun _ => rfl) (by decide)
  | some _ => exact of_length 2 (fun _ => rfl) (by decide)
theorem satomAdd (sd sa sb : BitVec 6) (mq : Option Mq) : Statement (.satomAdd sd sa sb mq) := by
  cases mq with
  | none => exact of_length 1 (fun _ => rfl) (by decide)
  | some _ => exact of_length 2 (fun _ => rfl) (by decide)
theorem satomExch (sd sa sb : BitVec 6) (mq : Option Mq) : Statement (.satomExch sd sa sb mq) := by
  cases mq with
  | none => exact of_length 1 (fun _ => rfl) (by decide)
  | some _ => exact of_length 2 (fun _ => rfl) (by decide)
theorem satomCas (sd sa sb : BitVec 6) (mq : Option Mq) : Statement (.satomCas sd sa sb mq) := by
  cases mq with
  | none => exact of_length 1 (fun _ => rfl) (by decide)
  | some _ => exact of_length 2 (fun _ => rfl) (by decide)
theorem satomNmax (sd sa sb : BitVec 6) (mq : Option Mq) : Statement (.satomNmax sd sa sb mq) := by
  cases mq with
  | none => exact of_length 1 (fun _ => rfl) (by decide)
  | some _ => exact of_length 2 (fun _ => rfl) (by decide)
theorem discard (sa sb : BitVec 6) : Statement (.discard sa sb) :=
  of_length 1 (fun _ => rfl) (by decide)
theorem flush (sa sb : BitVec 6) : Statement (.flush sa sb) :=
  of_length 1 (fun _ => rfl) (by decide)
theorem inval (sa sb : BitVec 6) : Statement (.inval sa sb) :=
  of_length 1 (fun _ => rfl) (by decide)
theorem pfetch (sa sb : BitVec 6) : Statement (.pfetch sa sb) :=
  of_length 1 (fun _ => rfl) (by decide)
theorem respri (sa sb : BitVec 6) : Statement (.respri sa sb) :=
  of_length 1 (fun _ => rfl) (by decide)
theorem resdem (sa sb : BitVec 6) : Statement (.resdem sa sb) :=
  of_length 1 (fun _ => rfl) (by decide)
theorem respro (sa : BitVec 6) : Statement (.respro sa) :=
  of_length 1 (fun _ => rfl) (by decide)
theorem resqry (sd sa : BitVec 6) : Statement (.resqry sd sa) :=
  of_length 1 (fun _ => rfl) (by decide)
theorem hset (hd : BitVec 4) (sa : BitVec 6) : Statement (.hset hd sa) :=
  of_length 1 (fun _ => rfl) (by decide)
theorem hget (sd : BitVec 6) (ha : BitVec 4) : Statement (.hget sd ha) :=
  of_length 1 (fun _ => rfl) (by decide)
theorem hcls (hd : BitVec 4) (sa : BitVec 6) : Statement (.hcls hd sa) :=
  of_length 1 (fun _ => rfl) (by decide)
theorem hseed (hd : BitVec 4) (sa : BitVec 6) : Statement (.hseed hd sa) :=
  of_length 1 (fun _ => rfl) (by decide)
theorem jmp (off : BitVec 18) : Statement (.jmp off) :=
  of_length 1 (fun _ => rfl) (by decide)
theorem jcall (off : BitVec 18) : Statement (.jcall off) :=
  of_length 1 (fun _ => rfl) (by decide)
theorem jmpr (sa : BitVec 6) : Statement (.jmpr sa) :=
  of_length 1 (fun _ => rfl) (by decide)
theorem trap (n : BitVec 6) : Statement (.trap n) :=
  of_length 1 (fun _ => rfl) (by decide)
theorem rte (sa : BitVec 6) : Statement (.rte sa) :=
  of_length 1 (fun _ => rfl) (by decide)
theorem bar (sd id : BitVec 6) : Statement (.bar sd id) :=
  of_length 1 (fun _ => rfl) (by decide)
theorem cbar (sd id : BitVec 6) : Statement (.cbar sd id) :=
  of_length 1 (fun _ => rfl) (by decide)
theorem bara (sd id : BitVec 6) : Statement (.bara sd id) :=
  of_length 1 (fun _ => rfl) (by decide)
theorem barw (sd id : BitVec 6) : Statement (.barw sd id) :=
  of_length 1 (fun _ => rfl) (by decide)
theorem wcondAddr (wn : BitVec 2) (sa sb : BitVec 6) : Statement (.wcondAddr wn sa sb) :=
  of_length 1 (fun _ => rfl) (by decide)
theorem wcondBcb (wn : BitVec 2) (sa : BitVec 6) : Statement (.wcondBcb wn sa) :=
  of_length 1 (fun _ => rfl) (by decide)
theorem wcondQueue (wn : BitVec 2) (sa sb : BitVec 6) : Statement (.wcondQueue wn sa sb) :=
  of_length 1 (fun _ => rfl) (by decide)
theorem wcondCompl (wn : BitVec 2) (sa sb : BitVec 6) : Statement (.wcondCompl wn sa sb) :=
  of_length 1 (fun _ => rfl) (by decide)
theorem waitany (sd sa : BitVec 6) (mask : BitVec 4) : Statement (.waitany sd sa mask) :=
  of_length 1 (fun _ => rfl) (by decide)
theorem waitall (sd sa : BitVec 6) (mask : BitVec 4) : Statement (.waitall sd sa mask) :=
  of_length 1 (fun _ => rfl) (by decide)
theorem push (fd : BitVec 3) (sa id : BitVec 6) : Statement (.push fd sa id) :=
  of_length 1 (fun _ => rfl) (by decide)
theorem pushw (sa id : BitVec 6) : Statement (.pushw sa id) :=
  of_length 1 (fun _ => rfl) (by decide)
theorem kick (sa sb : BitVec 6) : Statement (.kick sa sb) :=
  of_length 1 (fun _ => rfl) (by decide)
theorem launch (sd sa sb : BitVec 6) : Statement (.launch sd sa sb) :=
  of_length 1 (fun _ => rfl) (by decide)
theorem qbind (q : BitVec 3) (sa : BitVec 6) : Statement (.qbind q sa) :=
  of_length 1 (fun _ => rfl) (by decide)
theorem qunb (q : BitVec 3) : Statement (.qunb q) :=
  of_length 1 (fun _ => rfl) (by decide)
theorem qstat (sd : BitVec 6) (q : BitVec 3) : Statement (.qstat sd q) :=
  of_length 1 (fun _ => rfl) (by decide)
theorem qreset (q : BitVec 3) : Statement (.qreset q) :=
  of_length 1 (fun _ => rfl) (by decide)
theorem regxTry (fd : BitVec 3) : Statement (.regxTry fd) :=
  of_length 1 (fun _ => rfl) (by decide)
theorem prioPair (sa : BitVec 6) : Statement (.prioPair sa) :=
  of_length 1 (fun _ => rfl) (by decide)
theorem seqfork (sa sb : BitVec 6) : Statement (.seqfork sa sb) :=
  of_length 1 (fun _ => rfl) (by decide)
theorem seqfree (sa : BitVec 6) : Statement (.seqfree sa) :=
  of_length 1 (fun _ => rfl) (by decide)
theorem seqtrunc (sa sb : BitVec 6) : Statement (.seqtrunc sa sb) :=
  of_length 1 (fun _ => rfl) (by decide)
theorem seqinfo (sd sa : BitVec 6) : Statement (.seqinfo sd sa) :=
  of_length 1 (fun _ => rfl) (by decide)
theorem ssnap (sd : BitVec 6) : Statement (.ssnap sd) :=
  of_length 1 (fun _ => rfl) (by decide)
theorem ssroll (sd sa : BitVec 6) : Statement (.ssroll sd sa) :=
  of_length 1 (fun _ => rfl) (by decide)
theorem sscommit (sa : BitVec 6) : Statement (.sscommit sa) :=
  of_length 1 (fun _ => rfl) (by decide)
theorem ssbind (sa : BitVec 6) : Statement (.ssbind sa) :=
  of_length 1 (fun _ => rfl) (by decide)
theorem mset (md : BitVec 2) (sa : BitVec 6) : Statement (.mset md sa) :=
  of_length 1 (fun _ => rfl) (by decide)
theorem mget (sd : BitVec 6) (ma : BitVec 2) : Statement (.mget sd ma) :=
  of_length 1 (fun _ => rfl) (by decide)
theorem mma (vd va vb : BitVec 6) (m : BitVec 2) : Statement (.mma vd va vb m) :=
  of_length 1 (fun _ => rfl) (by decide)
theorem mmaSpad (vd va vb : BitVec 6) (m : BitVec 2) : Statement (.mmaSpad vd va vb m) :=
  of_length 1 (fun _ => rfl) (by decide)
theorem mmaQueue (vd va vb : BitVec 6) (m : BitVec 2) : Statement (.mmaQueue vd va vb m) :=
  of_length 1 (fun _ => rfl) (by decide)
theorem mmag (vd va vb : BitVec 6) (m : BitVec 2) : Statement (.mmag vd va vb m) :=
  of_length 1 (fun _ => rfl) (by decide)
theorem mmagSpad (vd va vb : BitVec 6) (m : BitVec 2) : Statement (.mmagSpad vd va vb m) :=
  of_length 1 (fun _ => rfl) (by decide)
theorem mmagQueue (vd va vb : BitVec 6) (m : BitVec 2) : Statement (.mmagQueue vd va vb m) :=
  of_length 1 (fun _ => rfl) (by decide)
theorem drain (sa sb : BitVec 6) : Statement (.drain sa sb) :=
  of_length 1 (fun _ => rfl) (by decide)
theorem drainSkip (sb : BitVec 6) : Statement (.drainSkip sb) :=
  of_length 1 (fun _ => rfl) (by decide)
theorem gclr (sa sb : BitVec 6) : Statement (.gclr sa sb) :=
  of_length 1 (fun _ => rfl) (by decide)
theorem grd (sd sa sb : BitVec 6) : Statement (.grd sd sa sb) :=
  of_length 1 (fun _ => rfl) (by decide)
theorem nchk (fd : BitVec 3) (sa sb : BitVec 6) : Statement (.nchk fd sa sb) :=
  of_length 1 (fun _ => rfl) (by decide)
theorem nrd (sd : BitVec 6) : Statement (.nrd sd) :=
  of_length 1 (fun _ => rfl) (by decide)
theorem mark (sa : BitVec 6) : Statement (.mark sa) :=
  of_length 1 (fun _ => rfl) (by decide)
theorem hashrd (sd : BitVec 6) : Statement (.hashrd sd) :=
  of_length 1 (fun _ => rfl) (by decide)
theorem rcvwait : Statement .rcvwait :=
  of_length 1 (fun _ => rfl) (by decide)
theorem exit : Statement .exit :=
  of_length 1 (fun _ => rfl) (by decide)
theorem ret : Statement .ret :=
  of_length 1 (fun _ => rfl) (by decide)
theorem yield : Statement .yield :=
  of_length 1 (fun _ => rfl) (by decide)
theorem fenceRel : Statement .fenceRel :=
  of_length 1 (fun _ => rfl) (by decide)
theorem fenceAcq : Statement .fenceAcq :=
  of_length 1 (fun _ => rfl) (by decide)
theorem fenceFull : Statement .fenceFull :=
  of_length 1 (fun _ => rfl) (by decide)
theorem sret : Statement .sret :=
  of_length 1 (fun _ => rfl) (by decide)
theorem regxAcq : Statement .regxAcq :=
  of_length 1 (fun _ => rfl) (by decide)
theorem regxRel : Statement .regxRel :=
  of_length 1 (fun _ => rfl) (by decide)
theorem prioPass : Statement .prioPass :=
  of_length 1 (fun _ => rfl) (by decide)
theorem prioTake : Statement .prioTake :=
  of_length 1 (fun _ => rfl) (by decide)
theorem nrst : Statement .nrst :=
  of_length 1 (fun _ => rfl) (by decide)
theorem brk : Statement .brk :=
  of_length 1 (fun _ => rfl) (by decide)
theorem sample : Statement .sample :=
  of_length 1 (fun _ => rfl) (by decide)
theorem nop : Statement .nop :=
  of_length 1 (fun _ => rfl) (by decide)
theorem launchPublish : Statement .launchPublish :=
  of_length 0 (fun _ => rfl) (by decide)
theorem cpyLoad : Statement .cpyLoad :=
  of_length 0 (fun _ => rfl) (by decide)
theorem cpyStore : Statement .cpyStore :=
  of_length 0 (fun _ => rfl) (by decide)
theorem cpyQstore : Statement .cpyQstore :=
  of_length 0 (fun _ => rfl) (by decide)
theorem cpyQload : Statement .cpyQload :=
  of_length 0 (fun _ => rfl) (by decide)
theorem gatGather : Statement .gatGather :=
  of_length 0 (fun _ => rfl) (by decide)
theorem gatGatherq : Statement .gatGatherq :=
  of_length 0 (fun _ => rfl) (by decide)
theorem gatScatter : Statement .gatScatter :=
  of_length 0 (fun _ => rfl) (by decide)
theorem kvsStreamk : Statement .kvsStreamk :=
  of_length 0 (fun _ => rfl) (by decide)
theorem kvsStreamvt : Statement .kvsStreamvt :=
  of_length 0 (fun _ => rfl) (by decide)
theorem decDecode : Statement .decDecode :=
  of_length 0 (fun _ => rfl) (by decide)
theorem colAllreduce : Statement .colAllreduce :=
  of_length 0 (fun _ => rfl) (by decide)
theorem colReducescatter : Statement .colReducescatter :=
  of_length 0 (fun _ => rfl) (by decide)
theorem colAllgather : Statement .colAllgather :=
  of_length 0 (fun _ => rfl) (by decide)
theorem ssuCopy : Statement .ssuCopy :=
  of_length 0 (fun _ => rfl) (by decide)
theorem ckpCheckpoint : Statement .ckpCheckpoint :=
  of_length 0 (fun _ => rfl) (by decide)
theorem engineCommandTake : Statement .engineCommandTake :=
  of_length 0 (fun _ => rfl) (by decide)
theorem pushwAccept : Statement .pushwAccept :=
  of_length 0 (fun _ => rfl) (by decide)
theorem engineUnitDone : Statement .engineUnitDone :=
  of_length 0 (fun _ => rfl) (by decide)
theorem engineQueueResume : Statement .engineQueueResume :=
  of_length 0 (fun _ => rfl) (by decide)
theorem colPeerTimeout : Statement .colPeerTimeout :=
  of_length 0 (fun _ => rfl) (by decide)
theorem launchRecordHead : Statement .launchRecordHead :=
  of_length 0 (fun _ => rfl) (by decide)
theorem launchWaitConditionHolds : Statement .launchWaitConditionHolds :=
  of_length 0 (fun _ => rfl) (by decide)
theorem teamPlace : Statement .teamPlace :=
  of_length 0 (fun _ => rfl) (by decide)
theorem teamRetire : Statement .teamRetire :=
  of_length 0 (fun _ => rfl) (by decide)
theorem formationDraw : Statement .formationDraw :=
  of_length 0 (fun _ => rfl) (by decide)
theorem binTimerExpiry : Statement .binTimerExpiry :=
  of_length 0 (fun _ => rfl) (by decide)
theorem spawnBinTimerExpiry : Statement .spawnBinTimerExpiry :=
  of_length 0 (fun _ => rfl) (by decide)
theorem quantumEnd : Statement .quantumEnd :=
  of_length 0 (fun _ => rfl) (by decide)
theorem loadAllowanceUpdate : Statement .loadAllowanceUpdate :=
  of_length 0 (fun _ => rfl) (by decide)
theorem pageWalkComplete : Statement .pageWalkComplete :=
  of_length 0 (fun _ => rfl) (by decide)
theorem loadDataReturn : Statement .loadDataReturn :=
  of_length 0 (fun _ => rfl) (by decide)
theorem raceVerdictReturn : Statement .raceVerdictReturn :=
  of_length 0 (fun _ => rfl) (by decide)
theorem trapEntry : Statement .trapEntry :=
  of_length 0 (fun _ => rfl) (by decide)
theorem matrixResult : Statement .matrixResult :=
  of_length 0 (fun _ => rfl) (by decide)
theorem monitorPoll : Statement .monitorPoll :=
  of_length 0 (fun _ => rfl) (by decide)
theorem waitTimeout : Statement .waitTimeout :=
  of_length 0 (fun _ => rfl) (by decide)
theorem queuePortResume : Statement .queuePortResume :=
  of_length 0 (fun _ => rfl) (by decide)
theorem regxAcqGrant : Statement .regxAcqGrant :=
  of_length 0 (fun _ => rfl) (by decide)
theorem l1Eviction : Statement .l1Eviction :=
  of_length 0 (fun _ => rfl) (by decide)
theorem replayGateTimeout : Statement .replayGateTimeout :=
  of_length 0 (fun _ => rfl) (by decide)
theorem breakpointSwapOut : Statement .breakpointSwapOut :=
  of_length 0 (fun _ => rfl) (by decide)
theorem flitCrcError : Statement .flitCrcError :=
  of_length 0 (fun _ => rfl) (by decide)
theorem flitRetransmit : Statement .flitRetransmit :=
  of_length 0 (fun _ => rfl) (by decide)
theorem cxlError : Statement .cxlError :=
  of_length 0 (fun _ => rfl) (by decide)
theorem cxlReadTimeout : Statement .cxlReadTimeout :=
  of_length 0 (fun _ => rfl) (by decide)
theorem cxlLinkDown : Statement .cxlLinkDown :=
  of_length 0 (fun _ => rfl) (by decide)
theorem cxlLinkUp : Statement .cxlLinkUp :=
  of_length 0 (fun _ => rfl) (by decide)
theorem throttleOnset : Statement .throttleOnset :=
  of_length 0 (fun _ => rfl) (by decide)
theorem throttleRelease : Statement .throttleRelease :=
  of_length 0 (fun _ => rfl) (by decide)
theorem thermalTrip : Statement .thermalTrip :=
  of_length 0 (fun _ => rfl) (by decide)
theorem powerGood : Statement .powerGood :=
  of_length 0 (fun _ => rfl) (by decide)
theorem functionReady : Statement .functionReady :=
  of_length 0 (fun _ => rfl) (by decide)
theorem bootctlGo : Statement .bootctlGo :=
  of_length 0 (fun _ => rfl) (by decide)
theorem resetFull : Statement .resetFull :=
  of_length 0 (fun _ => rfl) (by decide)
theorem resetCores : Statement .resetCores :=
  of_length 0 (fun _ => rfl) (by decide)
theorem lqscan : Statement .lqscan :=
  of_length 0 (fun _ => rfl) (by decide)
theorem tlbinvAddress : Statement .tlbinvAddress :=
  of_length 0 (fun _ => rfl) (by decide)
theorem tlbinvAll : Statement .tlbinvAll :=
  of_length 0 (fun _ => rfl) (by decide)
theorem tlbinvComplete : Statement .tlbinvComplete :=
  of_length 0 (fun _ => rfl) (by decide)
theorem attestRequest : Statement .attestRequest :=
  of_length 0 (fun _ => rfl) (by decide)
theorem attestDone : Statement .attestDone :=
  of_length 0 (fun _ => rfl) (by decide)
theorem pstateWrite : Statement .pstateWrite :=
  of_length 0 (fun _ => rfl) (by decide)
theorem pstateChange : Statement .pstateChange :=
  of_length 0 (fun _ => rfl) (by decide)
theorem gamrelStart : Statement .gamrelStart :=
  of_length 0 (fun _ => rfl) (by decide)
theorem gamrelComplete : Statement .gamrelComplete :=
  of_length 0 (fun _ => rfl) (by decide)
theorem prectlSave : Statement .prectlSave :=
  of_length 0 (fun _ => rfl) (by decide)
theorem contextSaveComplete : Statement .contextSaveComplete :=
  of_length 0 (fun _ => rfl) (by decide)
theorem prectlRestore : Statement .prectlRestore :=
  of_length 0 (fun _ => rfl) (by decide)
theorem contextRestoreComplete : Statement .contextRestoreComplete :=
  of_length 0 (fun _ => rfl) (by decide)
theorem dbgresResume : Statement .dbgresResume :=
  of_length 0 (fun _ => rfl) (by decide)
theorem dbgresSkip : Statement .dbgresSkip :=
  of_length 0 (fun _ => rfl) (by decide)
theorem dbgresKill : Statement .dbgresKill :=
  of_length 0 (fun _ => rfl) (by decide)
theorem tickStop : Statement .tickStop :=
  of_length 0 (fun _ => rfl) (by decide)
theorem stopResume : Statement .stopResume :=
  of_length 0 (fun _ => rfl) (by decide)
theorem scandataRead : Statement .scandataRead :=
  of_length 0 (fun _ => rfl) (by decide)
theorem repctlReplay : Statement .repctlReplay :=
  of_length 0 (fun _ => rfl) (by decide)
theorem rlfillWrite : Statement .rlfillWrite :=
  of_length 0 (fun _ => rfl) (by decide)
theorem crumbMirror : Statement .crumbMirror :=
  of_length 0 (fun _ => rfl) (by decide)
theorem hostRead : Statement .hostRead :=
  of_length 0 (fun _ => rfl) (by decide)
theorem hostWrite : Statement .hostWrite :=
  of_length 0 (fun _ => rfl) (by decide)
theorem fabricPeerAccess : Statement .fabricPeerAccess :=
  of_length 0 (fun _ => rfl) (by decide)
theorem binderRun : Statement .binderRun :=
  of_length 0 (fun _ => rfl) (by decide)
theorem registerWrite : Statement .registerWrite :=
  of_length 0 (fun _ => rfl) (by decide)
theorem illegalInstruction : Statement .illegalInstruction :=
  of_length 0 (fun _ => rfl) (by decide)
theorem writeAcknowledgement : Statement .writeAcknowledgement :=
  of_length 0 (fun _ => rfl) (by decide)
theorem colSegmentArrival : Statement .colSegmentArrival :=
  of_length 0 (fun _ => rfl) (by decide)
theorem flitNotReady : Statement .flitNotReady :=
  of_length 0 (fun _ => rfl) (by decide)
theorem powerLoss : Statement .powerLoss :=
  of_length 0 (fun _ => rfl) (by decide)

end Sys2Proof.Laws.WordShape
end

