-- ==== Sys2Proof/Laws/View.lean ====
section
/-!
SUPPORT. Memory as a core sees it, its L1 before memory: where nothing disturbs it, a load gets the bytes seen and changes
none of them, a write-back changes none, and a store changes the bytes it stores and no others.
-/

namespace Sys2Proof.Machine

/-! ### Tables with rising keys -/

section Tables
variable {α : Type}

theorem tget_filter {l : List (Nat × α)} {lo : Nat} (h : risingFrom lo l = true) (f : Nat × α → Bool) (k : Nat) :
    tget (l.filter f) k = (tget l k).filter (fun v => f (k, v)) := by
  induction l generalizing lo with
  | nil => rfl
  | cons x r ih =>
    obtain ⟨a, w⟩ := x
    simp only [risingFrom, Bool.and_eq_true, decide_eq_true_eq] at h
    by_cases e : a = k
    · subst e
      by_cases c : f (a, w) = true
      · simp [List.filter, c, tget, Option.filter]
      · simp only [List.filter, c, tget, if_true, Option.filter, Bool.false_eq_true, if_false]
        exact tget_below (risingFrom_filter f h.2) (Nat.lt_succ_self a)
    · by_cases c : f (a, w) = true
      · simp [List.filter, c, tget, e, ih h.2]
      · simp [List.filter, c, tget, e, ih h.2]

theorem mem_of_tget {l : List (Nat × α)} {k : Nat} {v : α} (h : tget l k = some v) : (k, v) ∈ l := by
  induction l with
  | nil => cases h
  | cons x r ih =>
    obtain ⟨a, w⟩ := x
    unfold tget at h
    split at h
    · rename_i e; cases h; subst e; exact List.mem_cons_self ..
    · exact List.mem_cons_of_mem _ (ih h)

theorem tget_of_mem {l : List (Nat × α)} {lo k : Nat} {v : α} (r : risingFrom lo l = true) (h : (k, v) ∈ l) :
    tget l k = some v := by
  induction l generalizing lo with
  | nil => cases h
  | cons x q ih =>
    obtain ⟨a, w⟩ := x
    simp only [risingFrom, Bool.and_eq_true, decide_eq_true_eq] at r
    rcases List.mem_cons.1 h with h | h
    · cases h; simp [tget]
    · have := ih r.2 h
      by_cases e : a = k
      · subst e
        rw [tget_below r.2 (Nat.lt_succ_self a)] at this
        cases this
      · simp [tget, e, this]

theorem tget_map {β : Type} (l : List (Nat × α)) (f : Nat → α → β) (k : Nat) :
    tget (l.map (fun e => (e.1, f e.1 e.2))) k = (tget l k).map (f k) := by
  induction l with
  | nil => rfl
  | cons x r ih =>
    obtain ⟨a, w⟩ := x
    by_cases e : a = k
    · subst e; simp [tget]
    · simp [tget, e, ih]

theorem risingFrom_map {β : Type} {l : List (Nat × α)} {lo : Nat} (f : Nat → α → β) (h : risingFrom lo l = true) :
    risingFrom lo (l.map (fun e => (e.1, f e.1 e.2))) = true := by
  induction l generalizing lo with
  | nil => rfl
  | cons x r ih =>
    obtain ⟨a, w⟩ := x
    simp only [risingFrom, Bool.and_eq_true, decide_eq_true_eq, List.map_cons] at h ⊢
    exact ⟨h.1, ih h.2⟩

theorem mem_tdel {l : List (Nat × α)} {k : Nat} {x : Nat × α} (h : x ∈ tdel l k) : x ∈ l := by
  induction l with
  | nil => cases h
  | cons y r ih =>
    obtain ⟨a, w⟩ := y
    unfold tdel at h
    split at h
    · exact List.mem_cons_of_mem _ h
    · rcases List.mem_cons.1 h with h | h
      · subst h; exact List.mem_cons_self ..
      · exact List.mem_cons_of_mem _ (ih h)

theorem mem_tset {l : List (Nat × α)} {k : Nat} {v : α} {x : Nat × α} (h : x ∈ tset l k v) : x = (k, v) ∨ x ∈ l := by
  induction l with
  | nil => simp [tset] at h; exact Or.inl h
  | cons y r ih =>
    obtain ⟨a, w⟩ := y
    unfold tset at h
    split at h
    · rcases List.mem_cons.1 h with h | h
      · exact Or.inl h
      · exact Or.inr h
    · split at h
      · rcases List.mem_cons.1 h with h | h
        · exact Or.inl h
        · exact Or.inr (List.mem_cons_of_mem _ h)
      · rcases List.mem_cons.1 h with h | h
        · subst h; exact Or.inr (List.mem_cons_self ..)
        · rcases ih h with h | h
          · exact Or.inl h
          · exact Or.inr (List.mem_cons_of_mem _ h)

end Tables

@[simp] theorem length_bytesOf (n x : Nat) : (bytesOf n x).length = n := by
  induction n generalizing x with
  | zero => rfl
  | succ n ih => simp [bytesOf, ih]

/-! ### What a core sees -/

@[simp] theorem coreOf_setCore (s : State) (c : Nat) (x : Core) : coreOf (setCore s c x) c = x := by
  unfold coreOf setCore cget
  simp

/-- A machine that has changed in nothing but caches and what reads of the past may return: what the core sees is what it
saw, and is at rest still. -/
structure Kept (s s' : State) (core : Nat) : Prop where
  teams : s'.teams = s.teams
  regs : s'.regs = s.regs
  cur : s'.cur = s.cur
  gtick : s'.gtick = s.gtick
  ctxs : s'.ctxs = s.ctxs
  quiet : Quiet s' core
  seen : ∀ a, coreByte s' core a = coreByte s core a

theorem Kept.rfl' {s : State} {core : Nat} (h : Quiet s core) : Kept s s core :=
  ⟨rfl, rfl, rfl, rfl, rfl, h, fun _ => rfl⟩

theorem Kept.trans {a b c : State} {core : Nat} (h : Kept a b core) (k : Kept b c core) : Kept a c core :=
  ⟨k.teams.trans h.teams, k.regs.trans h.regs, k.cur.trans h.cur, k.gtick.trans h.gtick, k.ctxs.trans h.ctxs, k.quiet,
    fun x => (k.seen x).trans (h.seen x)⟩

/-- Where an address lies depends on the registers alone. -/
theorem placeOf_regs {s s' : State} (e : s'.regs = s.regs) (pa : Nat) : placeOf s' pa = placeOf s pa := by
  have hr : ∀ off, regGet s' off = regGet s off := by intro off; unfold regGet; rw [e]
  have hn : nearEnd s' = nearEnd s := by unfold nearEnd; rw [hr]
  have hf : ∀ off, farPort s' off = farPort s off := by intro off; unfold farPort; simp only [hr]
  unfold placeOf
  simp only [hn, hf]

theorem near_lt {s : State} {pa : Nat} : placeOf s pa = .near ↔ pa < nearEnd s := by
  constructor
  · intro h
    unfold placeOf at h
    split at h
    · assumption
    · split at h
      · cases h
      · split at h
        · split at h <;> cases h
        · split at h <;> cases h
  · intro h
    unfold placeOf
    rw [if_pos h]

theorem nearEnd_mod (s : State) : nearEnd s % 128 = 0 := by
  unfold nearEnd
  split <;> rfl

/-- A line is of near memory as a whole. -/
theorem near_line {s : State} {a b : Nat} (h : placeOf s a = .near) (e : b / 128 = a / 128) : placeOf s b = .near := by
  rw [near_lt] at *
  have := nearEnd_mod s
  omega

/-- No square holds tags. -/
def Untagged (q : List (Nat × Square)) : Prop := ∀ x ∈ q, x.2.shadow = none

/-- Only the squares have changed, and none holds tags. -/
theorem kept_squares {s : State} {core : Nat} (q : List (Nat × Square)) (h : Quiet s core) (hq : Untagged q) :
    Kept s { s with squares := q } core :=
  ⟨rfl, rfl, rfl, rfl, rfl, ⟨h.poison, h.watched, h.memory, hq, h.rising, h.clean,
    fun e he hd => (placeOf_regs (s' := { s with squares := q }) (s := s) rfl e.1).trans (h.near e he hd), h.lines⟩, fun _ => rfl⟩

theorem victimSquare_mem {s : State} {slice keep sq : Nat} {q : Square} (h : victimSquare s slice keep = some (sq, q)) :
    (sq, q) ∈ s.squares := by
  unfold victimSquare at h
  have key : ∀ (l : List (Nat × Square)) (b : Option (Nat × Square)),
      (∀ x, b = some x → x ∈ s.squares) → (∀ x ∈ l, x ∈ s.squares) →
      ∀ x, l.foldl (fun best e => match best with
        | none => some e
        | some b => if squarePri s e.2 < squarePri s b.2 ∨ (squarePri s e.2 = squarePri s b.2 ∧ e.2.used < b.2.used) then
            some e else best) b = some x → x ∈ s.squares := by
    intro l
    induction l with
    | nil => intro b hb _ x hx; exact hb x hx
    | cons y r ih =>
      intro b hb hl x hx
      refine ih _ ?_ (fun z hz => hl z (List.mem_cons_of_mem _ hz)) x hx
      intro z hz
      cases b with
      | none => simp only at hz; cases hz; exact hl _ (List.mem_cons_self ..)
      | some w =>
        simp only at hz
        split at hz
        · cases hz; exact hl _ (List.mem_cons_self ..)
        · exact hb z hz
  exact key _ none (by intro x hx; cases hx) (fun x hx => (List.mem_filter.1 hx).1) _ h

theorem squares_evict {s : State} {sq : Nat} {q : Square} (h : q.shadow = none) :
    evictSquare s sq q = { s with squares := tdel s.squares sq } := by
  unfold evictSquare
  rw [h]

theorem squares_makeRoom (slice keep n : Nat) (s : State) (h : Untagged s.squares) :
    ∃ q, makeRoom slice keep n s = { s with squares := q } ∧ Untagged q := by
  induction n generalizing s with
  | zero => exact ⟨s.squares, rfl, h⟩
  | succ n ih =>
    unfold makeRoom
    dsimp only
    split
    · exact ⟨s.squares, rfl, h⟩
    · split
      · rename_i sq q e
        rw [squares_evict (h _ (victimSquare_mem e))]
        exact ih { s with squares := tdel s.squares sq } (fun x hx => h x (mem_tdel hx))
      · exact ⟨s.squares, rfl, h⟩

theorem shadow_usedSquare (now pa n : Nat) (wr : Bool) (col : Option (BitVec 2)) (q : Square) :
    (usedSquare now pa n wr col q).shadow = q.shadow := rfl

/-- A square that an access has not found. -/
def blankSquare (s : State) (rid : Nat) (pri : Option Nat) : Square :=
  { rid := rid, pri := allocPri s rid pri, used := 0, orient := 0, shadow := none, valid := 0, dirty := 0, demoted := false }

/-- An access that brings no tags changes the squares alone. -/
theorem squares_touchSquare {s : State} (pa n rid : Nat) (pri : Option Nat) (wr : Bool) (col : Option (BitVec 2))
    (h : Untagged s.squares) : ∃ q, touchSquare s pa n rid pri none wr col = { s with squares := q } ∧ Untagged q := by
  obtain ⟨x, hx, hs⟩ : ∃ x, x = (tget s.squares (pa / 1024)).getD (blankSquare s rid pri) ∧ x.shadow = none := by
    refine ⟨_, rfl, ?_⟩
    cases e : tget s.squares (pa / 1024) with
    | none => rfl
    | some q => exact h _ (mem_of_tget e)
  have hu : Untagged (tset s.squares (pa / 1024) (usedSquare s.gtick pa n wr col x)) := by
    intro y hy
    rcases mem_tset hy with hy | hy
    · subst hy; exact (shadow_usedSquare ..).trans hs
    · exact h y hy
  have e : touchSquare s pa n rid pri none wr col =
      (let s' := { s with squares := tset s.squares (pa / 1024) (usedSquare s.gtick pa n wr col x) }
       if (tget s.squares (pa / 1024)).isSome then s' else makeRoom (homeSlice pa) (pa / 1024) 4 s') := by
    subst hx
    unfold touchSquare blankSquare
    dsimp only
    rw [ite_self]
  rw [e]
  dsimp only
  split
  · exact ⟨tset s.squares (pa / 1024) (usedSquare s.gtick pa n wr col x), rfl, hu⟩
  · exact squares_makeRoom _ _ _ _ hu

theorem squares_dropSquare {s : State} (sq : Nat) (h : Untagged s.squares) :
    ∃ q, dropSquare s sq = { s with squares := q } ∧ Untagged q := by
  unfold dropSquare
  split
  · rename_i q e
    split
    · rw [squares_evict (h _ (mem_of_tget e))]
      exact ⟨_, rfl, fun x hx => h x (mem_tdel hx)⟩
    · exact ⟨s.squares, rfl, h⟩
  · exact ⟨s.squares, rfl, h⟩

/-! ### L1 -/

/-- Lines of L1 that are of no checked or recorded page. -/
def PlainLines (l : List (Nat × L1Line)) : Prop := ∀ e ∈ l, e.2.agent = none ∧ e.2.shadow = none

/-- A core's caches alone have changed: its bytes are in order, each clean one as memory has it, each dirty one near. -/
theorem kept_core {s : State} {core : Nat} (c : Core) (h : Quiet s core) (hr : risingFrom 0 c.l1 = true)
    (hc : ∀ e ∈ c.l1, e.2.dirty = false → e.2.val = memByte s e.1) (hn : ∀ e ∈ c.l1, e.2.dirty = true → placeOf s e.1 = .near)
    (hl : PlainLines c.lines)
    (hs : ∀ a, ((tget c.l1 a).elim (memByte s a) (·.val)) = coreByte s core a) : Kept s (setCore s core c) core := by
  refine ⟨rfl, rfl, rfl, rfl, rfl, ⟨h.poison, h.watched, h.memory, h.untagged, ?_, ?_, ?_, ?_⟩, ?_⟩
  · rw [coreOf_setCore]; exact hr
  · rw [coreOf_setCore]; exact hc
  · rw [coreOf_setCore]
    intro e he hd
    exact (placeOf_regs (s' := setCore s core c) (s := s) rfl e.1).trans (hn e he hd)
  · rw [coreOf_setCore]; exact hl
  · intro a
    rw [← hs]
    unfold coreByte
    rw [coreOf_setCore]
    cases tget c.l1 a <;> rfl

theorem seen_elim (s : State) (core a : Nat) : (tget (coreOf s core).l1 a).elim (memByte s a) (·.val) = coreByte s core a := by
  unfold coreByte
  cases tget (coreOf s core).l1 a <;> rfl

/-- Dropping clean bytes changes nothing that is seen. -/
theorem kept_dropL1 {s : State} {core : Nat} (f : Nat → L1Byte → Bool)
    (hf : ∀ e ∈ (coreOf s core).l1, f e.1 e.2 = true → e.2.dirty = false) (h : Quiet s core) : Kept s (dropL1 s core f) core := by
  unfold dropL1
  dsimp only
  split
  · exact Kept.rfl' h
  · refine kept_core _ h (risingFrom_filter _ h.rising) (fun e he => h.clean e (List.mem_filter.1 he).1)
      (fun e he => h.near e (List.mem_filter.1 he).1) h.lines (fun a => ?_)
    rw [← seen_elim]
    simp only
    rw [tget_filter h.rising]
    cases e : tget (coreOf s core).l1 a with
    | none => rfl
    | some b =>
      by_cases c : f a b = true
      · have := h.clean _ (mem_of_tget e) (hf _ (mem_of_tget e) c)
        simp [Option.filter, c]
        exact this.symm
      · simp [Option.filter, c]

/-- How a line is used is noted; a page that is neither checked nor recorded leaves no agent or shadow. -/
theorem plainLines_noteLine {c : Core} (a : L1Line) (line : Nat) (ha : a.agent = none ∧ a.shadow = none)
    (h : PlainLines c.lines) : PlainLines (noteLine a line c).lines ∧ (noteLine a line c).l1 = c.l1 := by
  unfold noteLine
  rw [ha.1]
  refine ⟨?_, rfl⟩
  intro x hx
  rcases mem_tset hx with hx | hx
  · subst hx
    refine ⟨?_, ha.2⟩
    cases e : tget c.lines line with
    | none => rfl
    | some y => exact (h _ (mem_of_tget e)).1
  · exact h x hx

theorem lineInfo_plain {s : State} {leaf : Leaf} (pa rid : Nat) (cache : BitVec 2) (agent : Option Nat)
    (hk : leaf.checked = false) (hr : leaf.recorded = false ∨ agent = none) :
    (lineInfo s leaf pa rid cache agent).agent = none ∧ (lineInfo s leaf pa rid cache agent).shadow = none := by
  unfold lineInfo shadowOf
  rcases hr with hr | hr <;> simp [hk, hr]

theorem kept_noteLine {s : State} {core : Nat} (a : L1Line) (line : Nat) (ha : a.agent = none ∧ a.shadow = none)
    (h : Quiet s core) : Kept s (modCore s core (noteLine a line)) core := by
  obtain ⟨hl, e⟩ := plainLines_noteLine a line ha h.lines
  unfold modCore
  refine kept_core _ h ?_ ?_ ?_ hl ?_ <;> rw [e]
  · exact h.rising
  · exact h.clean
  · exact h.near
  · exact seen_elim s core

/-- A line fetched into L1: all its bytes are present, and nothing that is seen changes. -/
theorem kept_fillLine {s : State} {core : Nat} (line : Nat) (h : Quiet s core) :
    Kept s (fillLine s core line) core ∧
      ∀ i < 128, (tget (coreOf (fillLine s core line) core).l1 (128 * line + i)).isSome = true := by
  let put := fun (l : List (Nat × L1Byte)) (a : Nat) => tset l a { val := memByte s a, dirty := false, seq := s.writes }
  let one := fun (l : List (Nat × L1Byte)) (i : Nat) =>
    match tget l (128 * line + i) with
    | some b => if b.dirty then l else put l (128 * line + i)
    | none => put l (128 * line + i)
  have step : ∀ l i, one l i = l ∧ (tget l (128 * line + i)).isSome = true ∨
      one l i = put l (128 * line + i) ∧ ∀ b, tget l (128 * line + i) = some b → b.dirty = false := by
    intro l i
    cases e : tget l (128 * line + i) with
    | none => exact Or.inr ⟨by simp only [one, e], fun b hb => by cases hb⟩
    | some b =>
      by_cases d : b.dirty = true
      · exact Or.inl ⟨by simp only [one, e, if_pos d], rfl⟩
      · refine Or.inr ⟨by simp only [one, e, if_neg d], fun x hx => ?_⟩
        cases hx
        simpa using d
  have key : ∀ (is : List Nat) (l : List (Nat × L1Byte)), risingFrom 0 l = true →
      (∀ e ∈ l, e.2.dirty = false → e.2.val = memByte s e.1) → (∀ e ∈ l, e.2.dirty = true → placeOf s e.1 = .near) →
      (fun l' : List (Nat × L1Byte) => risingFrom 0 l' = true ∧ (∀ e ∈ l', e.2.dirty = false → e.2.val = memByte s e.1) ∧
        (∀ e ∈ l', e.2.dirty = true → placeOf s e.1 = .near) ∧
        (∀ a, (tget l' a).elim (memByte s a) (·.val) = (tget l a).elim (memByte s a) (·.val)) ∧
        (∀ a, (tget l a).isSome = true → (tget l' a).isSome = true) ∧
        ∀ i ∈ is, (tget l' (128 * line + i)).isSome = true) (is.foldl one l) := by
    intro is
    induction is with
    | nil => intro l hr hc hn; exact ⟨hr, hc, hn, fun _ => rfl, fun _ h => h, by intro i hi; cases hi⟩
    | cons i r ih =>
      intro l hr hc hn
      rw [List.foldl_cons]
      rcases step l i with ⟨e, hs⟩ | ⟨e, hd⟩
      · rw [e]
        obtain ⟨a1, a2, a3, a4, a5, a6⟩ := ih l hr hc hn
        refine ⟨a1, a2, a3, a4, a5, fun j hj => ?_⟩
        rcases List.mem_cons.1 hj with hj | hj
        · subst hj; exact a5 _ hs
        · exact a6 j hj
      · rw [e]
        obtain ⟨a1, a2, a3, a4, a5, a6⟩ := ih (put l (128 * line + i)) (risingFrom_tset _ _ (Nat.zero_le _) hr)
          (by
            intro x hx hd'
            rcases mem_tset hx with hx | hx
            · subst hx; rfl
            · exact hc x hx hd')
          (by
            intro x hx hd'
            rcases mem_tset hx with hx | hx
            · subst hx; cases hd'
            · exact hn x hx hd')
        have hs : (tget (put l (128 * line + i)) (128 * line + i)).isSome = true := by simp [put]
        refine ⟨a1, a2, a3, fun a => (a4 a).trans ?_, fun a ha => a5 a ?_, fun j hj => ?_⟩
        · by_cases ne : a = 128 * line + i
          · subst ne
            have hp : tget (put l (128 * line + i)) (128 * line + i) =
              some { val := memByte s (128 * line + i), dirty := false, seq := s.writes } := tget_tset_self ..
            rw [hp]
            cases e' : tget l (128 * line + i) with
            | none => rfl
            | some b => exact (hc _ (mem_of_tget e') (hd b e')).symm
          · rw [show tget (put l (128 * line + i)) a = tget l a from tget_tset_other _ _ ne]
        · by_cases ne : a = 128 * line + i
          · subst ne; exact hs
          · rw [show tget (put l (128 * line + i)) a = tget l a from tget_tset_other _ _ ne]; exact ha
        · rcases List.mem_cons.1 hj with hj | hj
          · subst hj; exact a5 _ hs
          · exact a6 j hj
  obtain ⟨a1, a2, a3, a4, a5, a6⟩ := key (upto 128) (coreOf s core).l1 h.rising h.clean h.near
  have hf : fillLine s core line = setCore s core { coreOf s core with
      l1 := (upto 128).foldl one (coreOf s core).l1,
      hits := (coreOf s core).hits + (if (coreOf s core).victims.contains line then 1 else 0) } := by
    unfold fillLine
    have : ∀ a : Nat, s.poison.contains a = false := by intro a; rw [h.poison]; rfl
    simp only [this, Bool.false_eq_true, if_false]
    rfl
  rw [hf]
  revert a1 a2 a3 a4 a5 a6
  generalize (upto 128).foldl one (coreOf s core).l1 = l'
  intro a1 a2 a3 a4 _ a6
  refine ⟨kept_core _ h a1 a2 a3 h.lines (fun a => (a4 a).trans (seen_elim s core a)), fun i hi => ?_⟩
  rw [coreOf_setCore]
  exact a6 i (by simpa [upto] using hi)

/-! ### Writing dirty bytes back -/

theorem tget_dirtyBytes {l : List (Nat × L1Byte)} {lo : Nat} (h : risingFrom lo l = true) (f : Nat → Bool) (k : Nat) :
    tget (l.filterMap (fun e => if e.2.dirty && f e.1 then some (e.1, e.2.val) else none)) k =
      match tget l k with
      | some b => if b.dirty && f k then some b.val else none
      | none => none := by
  induction l generalizing lo with
  | nil => rfl
  | cons x r ih =>
    obtain ⟨a, b⟩ := x
    simp only [risingFrom, Bool.and_eq_true, decide_eq_true_eq] at h
    by_cases c : (b.dirty && f a) = true
    · rw [List.filterMap_cons_some (by simp [c] : _ = some (a, b.val))]
      by_cases e : a = k
      · subst e; simp [tget, c]
      · simp only [tget, if_neg e]; exact ih h.2
    · rw [List.filterMap_cons_none (by simp only [c]; rfl)]
      by_cases e : a = k
      · subst e
        rw [ih h.2, tget_below h.2 (Nat.lt_succ_self a)]
        simp only [tget, if_true, if_neg c]
      · rw [ih h.2]
        simp only [tget, if_neg e]

theorem rising_dirtyBytes {l : List (Nat × L1Byte)} {lo : Nat} (h : risingFrom lo l = true) (f : Nat → Bool) :
    risingFrom lo (l.filterMap (fun e => if e.2.dirty && f e.1 then some (e.1, e.2.val) else none)) = true := by
  induction l generalizing lo with
  | nil => rfl
  | cons x r ih =>
    obtain ⟨a, b⟩ := x
    simp only [risingFrom, Bool.and_eq_true, decide_eq_true_eq] at h
    by_cases c : (b.dirty && f a) = true
    · rw [List.filterMap_cons_some (by simp [c] : _ = some (a, b.val))]
      exact Bool.and_eq_true_iff.2 ⟨decide_eq_true h.1, ih h.2⟩
    · rw [List.filterMap_cons_none (by simp only [c]; rfl)]
      exact risingFrom_mono (Nat.le_trans h.1 (Nat.le_succ a)) (ih h.2)

theorem cget_foldl_cset (cs : List (Nat × Byte)) {m : List Host.Cell} {lo : Nat} (hc : risingFrom lo cs = true)
    (hm : Memory.wf m = true) (a : Nat) :
    cget 0 (cs.foldl (fun (m : List Host.Cell) (c : Nat × Byte) => cset 0 m c.1 c.2) m) a = (tget cs a).getD (cget 0 m a) := by
  induction cs generalizing m lo with
  | nil => rfl
  | cons x r ih =>
    obtain ⟨k, v⟩ := x
    simp only [risingFrom, Bool.and_eq_true, decide_eq_true_eq] at hc
    rw [List.foldl_cons, ih hc.2 (wf_cset k v hm)]
    by_cases e : k = a
    · subst e
      rw [tget_below hc.2 (Nat.lt_succ_self k)]
      simp only [tget, if_true, Option.getD_none, Option.getD_some]
      exact cget_cset_self 0 k v (wf_rising hm)
    · simp only [tget, if_neg e]
      rw [cget_cset_other 0 v (fun h => e h.symm)]

/-- Cells put into memory. -/
def putCells (m : List Host.Cell) (l : List (Nat × Byte)) : List Host.Cell :=
  l.foldl (fun (m : List Host.Cell) (c : Nat × Byte) => cset 0 m c.1 c.2) m

/-- A write at the home slices where nothing is poisoned or watched: memory, and what it was. -/
theorem memWriteCells_quiet {s : State} (hp : s.poison = []) (hw : watched s = false) (l : List (Nat × Byte)) :
    ∃ p, memWriteCells s l =
      { s with past := p, writes := s.writes + 1, mem := putCells s.mem l } := by
  refine ⟨(remember s (l.map (·.1))).past, ?_⟩
  unfold memWriteCells
  have hp' : (remember s (l.map (·.1))).poison = [] := hp
  have hw' : ∀ m, watched { remember s (l.map (·.1)) with mem := m } = false := fun _ => hw
  have e : ∀ (x : State) (l : List (Nat × Byte)), x.poison = [] →
      l.foldl (fun s c => if s.poison.contains (c.1 / 32) then unpoison s c.1 1 else s) x = x := by
    intro x l hx
    induction l with
    | nil => rfl
    | cons y r ih => rw [List.foldl_cons, if_neg (by simp [hx])]; exact ih
  dsimp only
  rw [e _ _ hp']
  rw [if_neg (by rw [hw']; decide)]
  rfl

theorem touches_quiet (a : L1Line) (hs : a.shadow = none) (l : List (Nat × Byte)) (s : State) (hu : Untagged s.squares) :
    ∃ q, l.foldl (fun s c => touchSquare s c.1 1 a.rid (cachePri a.policy) a.shadow true) s =
      { s with squares := q } ∧
      Untagged q := by
  induction l generalizing s with
  | nil => exact ⟨s.squares, rfl, hu⟩
  | cons x r ih =>
    obtain ⟨q, e, u⟩ := squares_touchSquare (s := s) x.1 1 a.rid (cachePri a.policy) true none hu
    obtain ⟨q', e', u'⟩ := ih { s with squares := q } u
    refine ⟨q', ?_, u'⟩
    rw [List.foldl_cons, hs, e]
    rw [hs] at e'
    exact e'

/-- The bytes of one near line arrive. -/
theorem writeLine_near {s : State} {core line : Nat} (l : List (Nat × Byte)) (hp : s.poison = []) (hw : watched s = false)
    (hu : Untagged s.squares) (hl : PlainLines (coreOf s core).lines) (hn : placeOf s (128 * line) = .near) :
    ∃ q p, writeLine core l s line =
      { s with squares := q, past := p, writes := s.writes + 1, mem := putCells s.mem (l.filter (fun c => c.1 / 128 == line)) } ∧
      Untagged q := by
  obtain ⟨a, ha, h1, h2⟩ : ∃ a, a = cget plainLine (coreOf s core).lines line ∧ a.agent = none ∧ a.shadow = none := by
    refine ⟨_, rfl, ?_⟩
    unfold cget
    cases e : tget (coreOf s core).lines line with
    | none => exact ⟨rfl, rfl⟩
    | some x => exact hl _ (mem_of_tget e)
  obtain ⟨q, e, u⟩ := touches_quiet a h2 (l.filter (fun c => c.1 / 128 == line)) s hu
  obtain ⟨p, e'⟩ := memWriteCells_quiet (s := { s with squares := q }) hp hw (l.filter (fun c => c.1 / 128 == line))
  refine ⟨q, p, ?_, u⟩
  unfold writeLine logLine
  rw [← ha]
  dsimp only
  rw [h1]
  dsimp only
  rw [hn]
  dsimp only
  unfold landLine
  rw [e, e']

theorem writeLines_near (core : Nat) {l : List (Nat × Byte)} (hl : risingFrom 0 l = true) (lines : List Nat) (s : State)
    (hp : s.poison = []) (hw : watched s = false) (hu : Untagged s.squares) (hc : PlainLines (coreOf s core).lines)
    (hm : Memory.wf s.mem = true) (hn : ∀ line ∈ lines, placeOf s (128 * line) = .near) :
    ∃ q p w m, lines.foldl (writeLine core l) s = { s with squares := q, past := p, writes := w, mem := m } ∧ Untagged q ∧
      Memory.wf m = true ∧ ∀ a, cget 0 m a = if a / 128 ∈ lines then (tget l a).getD (memByte s a) else memByte s a := by
  induction lines generalizing s with
  | nil => exact ⟨s.squares, s.past, s.writes, s.mem, rfl, hu, hm, fun a => by simp [memByte]⟩
  | cons line r ih =>
    obtain ⟨q, p, e, u⟩ := writeLine_near l hp hw hu hc (hn _ (List.mem_cons_self ..))
    have hmem : ∀ a, cget 0 (putCells s.mem (l.filter (fun c => c.1 / 128 == line))) a =
          if a / 128 = line then (tget l a).getD (memByte s a) else memByte s a := by
      intro a
      unfold putCells
      rw [cget_foldl_cset _ (risingFrom_filter _ hl) hm, tget_filter hl]
      unfold memByte
      by_cases c : a / 128 = line
      · rw [if_pos c]
        cases tget l a <;> simp [Option.filter, c]
      · rw [if_neg c]
        cases tget l a <;> simp [Option.filter, c]
    have hwf : Memory.wf (putCells s.mem (l.filter (fun c => c.1 / 128 == line))) = true := wf_foldl_cset _ hm
    revert e hmem hwf
    generalize putCells s.mem (l.filter (fun c => c.1 / 128 == line)) = m1
    intro e hmem hwf
    obtain ⟨q2, p2, w2, m2, e2, u2, wf2, h2⟩ := ih { s with squares := q, past := p, writes := s.writes + 1, mem := m1 } hp hw u hc
      hwf (fun x hx => (placeOf_regs (s' := { s with squares := q, past := p, writes := s.writes + 1, mem := m1 }) (s := s) rfl _).trans
        (hn x (List.mem_cons_of_mem _ hx)))
    refine ⟨q2, p2, w2, m2, ?_, u2, wf2, fun a => ?_⟩
    · rw [List.foldl_cons, e, e2]
    · rw [h2]
      have hb : memByte { s with squares := q, past := p, writes := s.writes + 1, mem := m1 } a =
        if a / 128 = line then (tget l a).getD (memByte s a) else memByte s a := hmem a
      rw [hb]
      by_cases c : a / 128 = line
      · simp only [List.mem_cons, c, true_or, if_true]
        cases tget l a <;> simp
      · simp [c]

/-- A byte of L1 after its write-back. -/
def cleaned (f : Nat → Bool) (w : Nat) (a : Nat) (b : L1Byte) : L1Byte :=
  if b.dirty && f a then { b with dirty := false, seq := w } else b

theorem mem_dirtyBytes {c : Core} {f : Nat → Bool} {x : Nat × Byte} (h : x ∈ dirtyBytes c f) :
    ∃ b, (x.1, b) ∈ c.l1 ∧ b.dirty = true ∧ f x.1 = true ∧ b.val = x.2 := by
  unfold dirtyBytes at h
  obtain ⟨e, he, h⟩ := List.mem_filterMap.1 h
  split at h
  · rename_i hd
    cases h
    simp at hd
    exact ⟨e.2, he, hd.1, hd.2, rfl⟩
  · cases h

/-- Writing dirty bytes back changes nothing that is seen; the bytes written back are in memory as they are seen, and clean. -/
theorem kept_writeBackL1 {s : State} {core : Nat} (f : Nat → Bool) (h : Quiet s core) :
    Kept s (writeBackL1 s core f) core ∧
      (∀ a, f a = true → memByte (writeBackL1 s core f) a = coreByte s core a) ∧
      (∀ a, f a = false → memByte (writeBackL1 s core f) a = memByte s a) ∧
      ∀ e ∈ (coreOf (writeBackL1 s core f) core).l1, f e.1 = true → e.2.dirty = false := by
  have hr := h.rising
  by_cases he : (dirtyBytes (coreOf s core) f).isEmpty = true
  · have hs : writeBackL1 s core f = s := by unfold writeBackL1; dsimp only; rw [if_pos he]
    rw [hs]
    have none : ∀ e ∈ (coreOf s core).l1, f e.1 = true → e.2.dirty = false := by
      intro e hel hf
      by_contra hd
      have : (e.1, e.2.val) ∈ dirtyBytes (coreOf s core) f := by
        unfold dirtyBytes
        refine List.mem_filterMap.2 ⟨e, hel, ?_⟩
        simp at hd
        simp [hd, hf]
      rw [List.isEmpty_iff] at he
      rw [he] at this
      cases this
    refine ⟨Kept.rfl' h, fun a ha => ?_, fun _ _ => rfl, none⟩
    unfold coreByte
    cases e : tget (coreOf s core).l1 a with
    | none => rfl
    | some b => exact (h.clean _ (mem_of_tget e) (none _ (mem_of_tget e) ha)).symm
  · obtain ⟨q, p, w, m, e, u, wf, hm⟩ := writeLines_near core (l := dirtyBytes (coreOf s core) f) (rising_dirtyBytes hr f)
      (((dirtyBytes (coreOf s core) f).map (·.1 / 128)).eraseDups) s h.poison h.watched h.untagged h.lines h.memory (by
        intro line hl
        rw [List.mem_eraseDups] at hl
        obtain ⟨x, hx, rfl⟩ := List.mem_map.1 hl
        obtain ⟨b, hb, hd, _⟩ := mem_dirtyBytes hx
        exact near_line (h.near _ hb hd) (by simp))
    have hm' : ∀ a, cget 0 m a =
        (match tget (coreOf s core).l1 a with
          | some b => if b.dirty && f a then some b.val else none
          | none => none).getD (memByte s a) := by
      intro a
      rw [hm]
      have hd := tget_dirtyBytes hr f a
      have hd' : tget (dirtyBytes (coreOf s core) f) a = _ := hd
      rw [← hd']
      by_cases c : a / 128 ∈ (((dirtyBytes (coreOf s core) f).map (·.1 / 128)).eraseDups)
      · rw [if_pos c]
      · rw [if_neg c]
        cases e : tget (dirtyBytes (coreOf s core) f) a with
        | none => rfl
        | some b => exact absurd (List.mem_eraseDups.2 (List.mem_map.2 ⟨_, mem_of_tget e, rfl⟩)) c
    obtain ⟨s1, hs1⟩ : ∃ s1, s1 = ({ s with squares := q, past := p, writes := w, mem := m } : State) := ⟨_, rfl⟩
    obtain ⟨c1, hc1, hl1, hls⟩ : ∃ c1, writeBackL1 s core f = setCore s1 core c1 ∧
        c1.l1 = (coreOf s core).l1.map (fun e => (e.1, cleaned f w e.1 e.2)) ∧ c1.lines = (coreOf s core).lines := by
      have hl : (fun e : Nat × L1Byte => if e.2.dirty && f e.1 then (e.1, { e.2 with dirty := false, seq := w }) else e) =
          fun e => (e.1, cleaned f w e.1 e.2) := by
        funext e; unfold cleaned; split <;> rfl
      rw [← hl]
      refine ⟨{ coreOf s core with
        l1 := (coreOf s core).l1.map (fun e =>
          if e.2.dirty && f e.1 then (e.1, { e.2 with dirty := false, seq := w }) else e),
        wrote := (dirtyBytes (coreOf s core) f).foldl (fun m e => tset m e.1 w) (coreOf s core).wrote }, ?_, rfl, rfl⟩
      unfold writeBackL1
      dsimp only
      rw [if_neg he, e, hs1]
      rfl
    rw [hc1]
    have hmem : ∀ a, memByte s1 a = cget 0 m a := by intro a; rw [hs1]; rfl
    have k1 : ∀ a, placeOf s1 a = placeOf s a := placeOf_regs (by rw [hs1])
    have q1 : Quiet (setCore s1 core c1) core := by
      refine ⟨by rw [hs1]; exact h.poison, by rw [hs1]; exact h.watched, by rw [hs1]; exact wf, by rw [hs1]; exact u, ?_, ?_, ?_, ?_⟩
      · rw [coreOf_setCore, hl1]; exact risingFrom_map _ hr
      · rw [coreOf_setCore, hl1]
        intro e he hd
        have : memByte (setCore s1 core c1) e.1 = memByte s1 e.1 := rfl
        rw [this, hmem, hm']
        obtain ⟨x, hx, rfl⟩ := List.mem_map.1 he
        simp only at hd ⊢
        rw [tget_of_mem hr hx]
        unfold cleaned at hd ⊢
        by_cases c : (x.2.dirty && f x.1) = true
        · simp [c]
        · simp only [if_neg c] at hd ⊢
          exact h.clean x hx hd
      · rw [coreOf_setCore, hl1]
        intro e he hd
        obtain ⟨x, hx, rfl⟩ := List.mem_map.1 he
        rw [placeOf_regs (s' := setCore s1 core c1) (s := s1) rfl, k1]
        simp only at hd ⊢
        unfold cleaned at hd
        split at hd
        · cases hd
        · exact h.near x hx hd
      · rw [coreOf_setCore, hls]; exact h.lines
    refine ⟨⟨by rw [hs1]; rfl, by rw [hs1]; rfl, by rw [hs1]; rfl, by rw [hs1]; rfl, by rw [hs1]; rfl, q1, ?_⟩, ?_, ?_, ?_⟩
    · intro a
      unfold coreByte
      rw [coreOf_setCore, hl1, tget_map]
      have : memByte (setCore s1 core c1) a = memByte s1 a := rfl
      rw [this, hmem, hm']
      cases e : tget (coreOf s core).l1 a with
      | none => rfl
      | some b => simp only [Option.map_some, cleaned]; split <;> rfl
    · intro a ha
      have : memByte (setCore s1 core c1) a = memByte s1 a := rfl
      rw [this, hmem, hm']
      unfold coreByte
      cases e : tget (coreOf s core).l1 a with
      | none => rfl
      | some b =>
        by_cases d : b.dirty = true
        · simp [ha, d]
        · simp only [ha, d, Bool.false_and, Bool.false_eq_true, if_false, Option.getD_none]
          exact (h.clean _ (mem_of_tget e) (by simpa using d)).symm
    · intro a ha
      have : memByte (setCore s1 core c1) a = memByte s1 a := rfl
      rw [this, hmem, hm']
      cases e : tget (coreOf s core).l1 a with
      | none => rfl
      | some b => simp [ha]
    · rw [coreOf_setCore, hl1]
      intro e he hf
      obtain ⟨x, hx, rfl⟩ := List.mem_map.1 he
      simp only at hf ⊢
      unfold cleaned
      by_cases d : x.2.dirty = true
      · simp [d, hf]
      · simp [d]

/-- The bytes that satisfy a test go to memory and leave L1: nothing that is seen changes, and memory holds what is seen. -/
theorem kept_flushL1 {s : State} {core : Nat} (f : Nat → Bool) (h : Quiet s core) :
    Kept s (flushL1 s core f) core ∧ (∀ a, f a = true → memByte (flushL1 s core f) a = coreByte s core a) ∧
      ∀ e ∈ (coreOf (flushL1 s core f) core).l1, f e.1 = false := by
  obtain ⟨k, hm, _, hc⟩ := kept_writeBackL1 f h
  have k2 := kept_dropL1 (fun a _ => f a) hc k.quiet
  unfold flushL1
  refine ⟨k.trans k2, fun a ha => ?_, fun e he => ?_⟩
  · rw [← hm a ha]
    unfold memByte
    rw [mem_dropL1]
  · unfold dropL1 at he
    dsimp only at he
    split at he
    · rename_i hn
      rw [List.isEmpty_iff] at hn
      rw [hn] at he
      cases he
    · rw [coreOf_setCore] at he
      simpa using (List.mem_filter.1 he).2

/-! ### Reads and writes of near memory -/

/-- The way of an access to near memory. -/
def nearWay (leaf : Leaf) (pa : Nat) : Way :=
  { pa := pa, inL1 := leaf.inL1, peer := false, far := none, management := none, cached := false }

theorem wayOf_near {s : State} {leaf : Leaf} {pa : Nat} (h : placeOf s pa = .near) : wayOf s leaf pa = nearWay leaf pa := by
  unfold wayOf
  rw [h]
  rfl

theorem atSlice_near {s : State} {leaf : Leaf} (pa n rid : Nat) (cache : BitVec 2) (wr : Bool) (col : Option (BitVec 2))
    (hk : leaf.checked = false) (h : Untagged s.squares) :
    ∃ q, atSlice s (nearWay leaf pa) leaf n rid cache wr col = (false, { s with squares := q }) ∧ Untagged q := by
  unfold atSlice nearWay
  have hs : shadowOf leaf pa = none := by unfold shadowOf; simp [hk]
  dsimp only
  split
  · exact ⟨s.squares, rfl, h⟩
  · rw [hs, ite_self]
    obtain ⟨q, e, u⟩ := squares_touchSquare pa n rid (cachePri cache) wr col h
    exact ⟨q, by rw [e], u⟩

theorem poisoned_quiet {s : State} {core : Nat} (h : Quiet s core) (pa n : Nat) : poisoned s pa n = false := by
  unfold poisoned
  rw [h.poison]
  simp

theorem seenBytes_kept {s s' : State} {core : Nat} (k : Kept s s' core) (pa n : Nat) :
    seenBytes s' core pa n = seenBytes s core pa n := by
  unfold seenBytes
  exact List.map_congr_left (fun i _ => k.seen _)

theorem kept_lastUse {s : State} {core : Nat} (pa : Nat) (cache : BitVec 2) (h : Quiet s core) :
    Kept s (lastUse s core pa cache) core := by
  unfold lastUse
  split
  · exact kept_dropL1 _ (fun e _ hf => by simp at hf; exact hf.2) h
  · exact Kept.rfl' h

theorem kept_dropSquare {s : State} {core : Nat} (c : Prop) [Decidable c] (sq : Nat) (h : Quiet s core) :
    Kept s (if c then dropSquare s sq else s) core := by
  split
  · obtain ⟨q, e, u⟩ := squares_dropSquare sq h.untagged
    rw [e]
    exact kept_squares q h u
  · exact Kept.rfl' h

/-- A read of near memory that L1 may serve. -/
theorem l1Read_near {s : State} {core : Nat} {leaf : Leaf} {pa n : Nat} (rid : Nat) (cache : BitVec 2) (h : Quiet s core)
    (hk : leaf.checked = false) (hline : ∀ i < n, (pa + i) / 128 = pa / 128) :
    (l1Read s core (nearWay leaf pa) leaf n rid cache).1 = (seenBytes s core pa n, false) ∧
      Kept s (l1Read s core (nearWay leaf pa) leaf n rid cache).2 core := by
  have k1 := kept_noteLine (lineInfo s leaf pa rid cache none) (pa / 128) (lineInfo_plain pa rid cache none hk (Or.inr rfl)) h
  unfold l1Read
  dsimp only
  rw [show (nearWay leaf pa).pa = pa from rfl]
  revert k1
  generalize modCore s core (noteLine (lineInfo s leaf pa rid cache none) (pa / 128)) = s1
  intro k1
  split
  · exact ⟨by rw [← seenBytes_kept k1]; rfl, k1.trans (kept_lastUse _ _ k1.quiet)⟩
  · obtain ⟨q, e2, u2⟩ := atSlice_near (s := s1) (leaf := leaf) (128 * (pa / 128)) 128 rid cache false none hk k1.quiet.untagged
    have e2' : atSlice s1 { nearWay leaf pa with
        pa := 128 * (pa / 128), far := (nearWay leaf pa).far.map (fun x => (x.1 / 128 * 128, x.2)) } leaf 128 rid cache false =
          (false, { s1 with squares := q }) := e2
    rw [e2']
    have k2 := kept_squares q k1.quiet u2
    revert k2
    generalize ({ s1 with squares := q } : State) = s2
    intro k2
    obtain ⟨k3, hall⟩ := kept_fillLine (pa / 128) k2.quiet
    simp only [Bool.false_eq_true, if_false]
    revert k3 hall
    generalize fillLine s2 core (pa / 128) = s3
    intro k3 hall
    have k4 := kept_dropSquare (cache = 2) (pa / 1024) k3.quiet
    have hcores : coreOf (if cache = 2 then dropSquare s3 (pa / 1024) else s3) core = coreOf s3 core := by
      split
      · obtain ⟨q', e', _⟩ := squares_dropSquare (pa / 1024) k3.quiet.untagged
        rw [e']; rfl
      · rfl
    revert k4 hcores
    generalize (if cache = 2 then dropSquare s3 (pa / 1024) else s3) = s4
    intro k4 hcores
    have held : l1Holds s4 core pa n = true := by
      unfold l1Holds
      rw [List.all_eq_true]
      intro i hi
      have hi' : i < n := by simpa [upto] using hi
      have := hall ((pa + i) % 128) (Nat.mod_lt _ (by decide))
      rw [hcores]
      rwa [← hline i hi', Nat.div_add_mod] at this
    rw [if_pos held]
    have k := ((k1.trans k2).trans k3).trans k4
    exact ⟨by rw [← seenBytes_kept k]; rfl, k.trans (kept_lastUse _ _ k4.quiet)⟩

/-- A read of near memory that its home slice serves. -/
theorem sliceRead_near {s : State} {core : Nat} {leaf : Leaf} {pa n : Nat} (rid : Nat) (cache : BitVec 2)
    (col : Option (BitVec 2)) (h : Quiet s core) (hk : leaf.checked = false) :
    (sliceRead s core (nearWay leaf pa) leaf n rid cache col).1 = (seenBytes s core pa n, false) ∧
      Kept s (sliceRead s core (nearWay leaf pa) leaf n rid cache col).2 core := by
  obtain ⟨k1, hm1, _⟩ := kept_flushL1 (fun a => decide (pa ≤ a) && decide (a < pa + n)) h
  have hq : (nearWay leaf pa).peer = false := rfl
  have ha : (nearWay leaf pa).pa = pa := rfl
  have hs : settleL1 s core pa n = flushL1 s core (fun a => decide (pa ≤ a) && decide (a < pa + n)) := rfl
  unfold sliceRead
  rw [hq, ha, hs, if_neg Bool.false_ne_true]
  revert k1 hm1
  generalize flushL1 s core (fun a => decide (pa ≤ a) && decide (a < pa + n)) = s1
  intro k1 hm1
  obtain ⟨q, e2, u2⟩ := atSlice_near (s := s1) (leaf := leaf) pa n rid cache false col hk k1.quiet.untagged
  dsimp only
  rw [e2]
  have k2 := kept_squares q k1.quiet u2
  have m2 : ∀ a, memByte ({ s1 with squares := q } : State) a = memByte s1 a := fun _ => rfl
  revert k2 m2
  generalize ({ s1 with squares := q } : State) = s2
  intro k2 m2
  dsimp only
  rw [if_neg (by rw [poisoned_quiet k2.quiet]; decide)]
  refine ⟨?_, (k1.trans k2).trans (kept_dropSquare _ _ k2.quiet)⟩
  have : memRead s2 pa n = seenBytes s core pa n := by
    unfold memRead seenBytes
    rw [cellsRead_eq_map]
    refine List.map_congr_left (fun i hi => ?_)
    have hi' : i < n := by simpa using hi
    exact (m2 (pa + i)).trans (hm1 (pa + i) (by simp; omega))
  rw [this]

/-- A read of near memory within one line gets the bytes seen, meets no poison and changes nothing that is seen. -/
theorem coreRead_near {s : State} {core : Nat} {leaf : Leaf} {pa n : Nat} (rid : Nat) (cache : BitVec 2) (fresh direct : Bool)
    (col : Option (BitVec 2)) (h : Quiet s core) (hp : placeOf s pa = .near) (hk : leaf.checked = false)
    (hline : ∀ i < n, (pa + i) / 128 = pa / 128) :
    (coreRead s core leaf pa n rid cache fresh direct col).1 = (seenBytes s core pa n, false) ∧
      Kept s (coreRead s core leaf pa n rid cache fresh direct col).2 core := by
  unfold coreRead
  rw [wayOf_near hp]
  dsimp only [nearWay]
  split
  · have k1 : Kept s (if fresh = true then dropL1 s core (fun a b => a / 128 == pa / 128 && !b.dirty) else s) core := by
      split
      · exact kept_dropL1 _ (fun e _ hf => by simp at hf; exact hf.2) h
      · exact Kept.rfl' h
    revert k1
    generalize (if fresh = true then dropL1 s core (fun a b => a / 128 == pa / 128 && !b.dirty) else s) = s1
    intro k1
    obtain ⟨e, k2⟩ := l1Read_near (leaf := leaf) (pa := pa) (n := n) rid cache k1.quiet hk hline
    exact ⟨e.trans (by rw [seenBytes_kept k1]), k1.trans k2⟩
  · exact sliceRead_near rid cache col h hk

theorem l1Put_lines (d : List Byte) (c : Core) (pa : Nat) : (l1Put c pa d).lines = c.lines := by
  induction d generalizing c pa with
  | nil => rfl
  | cons b r ih => exact ih _ _

theorem l1Put_spec (d : List Byte) (c : Core) (pa : Nat) (h : risingFrom 0 c.l1 = true) :
    risingFrom 0 (l1Put c pa d).l1 = true ∧
      (∀ a, tget (l1Put c pa d).l1 a =
        if pa ≤ a ∧ a < pa + d.length then some { val := d.getD (a - pa) 0, dirty := true } else tget c.l1 a) ∧
      ∀ e ∈ (l1Put c pa d).l1, (e.2.dirty = true ∧ pa ≤ e.1 ∧ e.1 < pa + d.length) ∨ e ∈ c.l1 := by
  induction d generalizing c pa with
  | nil =>
    refine ⟨h, fun a => ?_, fun e he => Or.inr he⟩
    rw [if_neg (by simp)]
    rfl
  | cons b r ih =>
    obtain ⟨h1, h2, h3⟩ := ih { c with l1 := tset c.l1 pa { val := b, dirty := true } } (pa + 1)
      (risingFrom_tset _ _ (Nat.zero_le _) h)
    refine ⟨h1, fun a => ?_, fun e he => ?_⟩
    · refine (h2 a).trans ?_
      by_cases e : a = pa
      · subst e
        rw [if_neg (by omega), if_pos (by simp)]
        simp [tget_tset_self]
      · by_cases c' : pa + 1 ≤ a ∧ a < pa + 1 + r.length
        · rw [if_pos c', if_pos (by simp; omega)]
          have : a - pa = a - (pa + 1) + 1 := by omega
          rw [this]
          simp
        · rw [if_neg c', if_neg (by simp; omega)]
          exact tget_tset_other _ _ e
    · rcases h3 e he with x | x
      · exact Or.inl ⟨x.1, by omega, by have := x.2.2; simp; omega⟩
      · rcases mem_tset x with x | x
        · subst x; exact Or.inl ⟨rfl, Nat.le_refl _, by simp⟩
        · exact Or.inr x

/-- What a write of near memory does: the core sees the bytes written, and every other byte as before. -/
structure Wrote (s s' : State) (core pa : Nat) (d : List Byte) : Prop where
  teams : s'.teams = s.teams
  regs : s'.regs = s.regs
  cur : s'.cur = s.cur
  gtick : s'.gtick = s.gtick
  ctxs : s'.ctxs = s.ctxs
  quiet : Quiet s' core
  seen : ∀ a, coreByte s' core a = withBytes (coreByte s core) pa d a

theorem Kept.wrote {a b c : State} {core pa : Nat} {d : List Byte} (h : Kept a b core) (k : Wrote b c core pa d) :
    Wrote a c core pa d := by
  refine ⟨k.teams.trans h.teams, k.regs.trans h.regs, k.cur.trans h.cur, k.gtick.trans h.gtick, k.ctxs.trans h.ctxs,
    k.quiet, fun x => (k.seen x).trans ?_⟩
  unfold withBytes
  rw [h.seen]

/-- A store into L1, of bytes of near memory. -/
theorem wrote_l1Store {s : State} {core : Nat} (pa : Nat) (d : List Byte) (a : L1Line) (ha : a.agent = none ∧ a.shadow = none)
    (h : Quiet s core) (hn : ∀ i < d.length, placeOf s (pa + i) = .near) : Wrote s (l1Store s core pa d a) core pa d := by
  obtain ⟨c0, e0, hl0, hs0⟩ : ∃ c0, c0 = ((wordsOf pa d.length).map (· / 128)).eraseDups.foldl (fun c i => noteLine a i c)
      (coreOf s core) ∧ PlainLines c0.lines ∧ c0.l1 = (coreOf s core).l1 := by
    refine ⟨_, rfl, ?_⟩
    have key : ∀ (l : List Nat) (c : Core), PlainLines c.lines → PlainLines (l.foldl (fun c i => noteLine a i c) c).lines ∧
        (l.foldl (fun c i => noteLine a i c) c).l1 = c.l1 := by
      intro l
      induction l with
      | nil => intro c hc; exact ⟨hc, rfl⟩
      | cons x r ih =>
        intro c hc
        obtain ⟨h1, h2⟩ := plainLines_noteLine a x ha hc
        obtain ⟨h3, h4⟩ := ih _ h1
        exact ⟨h3, h4.trans h2⟩
    exact key _ _ h.lines
  have e1 : (granulesOf pa d.length).foldl (l1Clean s) c0 = c0 := by
    have : ∀ l : List Nat, l.foldl (l1Clean s) c0 = c0 := by
      intro l
      induction l with
      | nil => rfl
      | cons x r ih =>
        rw [List.foldl_cons]
        have : l1Clean s c0 x = c0 := by unfold l1Clean; rw [h.poison]; rfl
        rw [this]
        exact ih
    exact this _
  have e : l1Store s core pa d a = setCore s core (l1Put c0 pa d) := by
    unfold l1Store modCore
    dsimp only
    rw [← e0, e1]
  rw [e]
  obtain ⟨h1, h2, h3⟩ := l1Put_spec d c0 pa (by rw [hs0]; exact h.rising)
  have hk : placeOf (setCore s core (l1Put c0 pa d)) = placeOf s :=
    funext (placeOf_regs (s' := setCore s core (l1Put c0 pa d)) (s := s) rfl)
  refine ⟨rfl, rfl, rfl, rfl, rfl, ⟨h.poison, h.watched, h.memory, h.untagged, ?_, ?_, ?_, ?_⟩, ?_⟩
  · rw [coreOf_setCore]; exact h1
  · rw [coreOf_setCore]
    intro e he hd
    rcases h3 e he with x | x
    · rw [x.1] at hd; cases hd
    · exact h.clean e (hs0 ▸ x) hd
  · rw [coreOf_setCore, hk]
    intro e he hd
    rcases h3 e he with x | x
    · have := hn (e.1 - pa) (by omega)
      rwa [show pa + (e.1 - pa) = e.1 by omega] at this
    · exact h.near e (hs0 ▸ x) hd
  · rw [coreOf_setCore, l1Put_lines]; exact hl0
  · intro a
    unfold coreByte withBytes
    rw [coreOf_setCore, h2, hs0]
    by_cases c : pa ≤ a ∧ a < pa + d.length
    · rw [if_pos c, if_pos c]
    · rw [if_neg c, if_neg c]; rfl

theorem memWrite_quiet {s : State} {core : Nat} (h : Quiet s core) (pa : Nat) (d : List Byte) :
    ∃ p, memWrite s pa d = { s with past := p, writes := s.writes + 1, mem := cellsSet s.mem pa d } := by
  refine ⟨(remember s ((upto d.length).map (· + pa))).past, ?_⟩
  unfold memWrite
  have hp : (remember s ((upto d.length).map (· + pa))).poison = [] := h.poison
  rw [unpoison_none _ _ _ hp]
  unfold fireWords
  dsimp only
  have hw : ∀ m, watched { remember s ((upto d.length).map (· + pa)) with mem := m } = false := fun _ => h.watched
  rw [if_neg (by rw [hw]; decide)]
  rfl

/-- A write at the home slice, of bytes that the core's L1 does not hold. -/
theorem wrote_memWrite {s : State} {core : Nat} (pa : Nat) (d : List Byte) (h : Quiet s core)
    (hn : ∀ e ∈ (coreOf s core).l1, ¬(pa ≤ e.1 ∧ e.1 < pa + d.length)) : Wrote s (memWrite s pa d) core pa d := by
  obtain ⟨p, ew⟩ := memWrite_quiet h pa d
  rw [ew]
  obtain ⟨s', e'⟩ : ∃ s', s' = ({ s with past := p, writes := s.writes + 1, mem := cellsSet s.mem pa d } : State) := ⟨_, rfl⟩
  have hm : ∀ a, memByte s' a = withBytes (memByte s) pa d a := by
    intro a
    rw [e']
    unfold withBytes memByte
    by_cases c : pa ≤ a ∧ a < pa + d.length
    · rw [if_pos c]
      obtain ⟨i, rfl⟩ : ∃ i, a = pa + i := ⟨a - pa, by omega⟩
      rw [Nat.add_sub_cancel_left]
      exact cget_cellsSet_inside d h.memory (by omega)
    · rw [if_neg c]
      exact cget_cellsSet_outside d s.mem (by omega)
  have hc : coreOf s' core = coreOf s core := by rw [e']; rfl
  rw [← e']
  refine ⟨by rw [e'], by rw [e'], by rw [e'], by rw [e'], by rw [e'],
    ⟨by rw [e']; exact h.poison, by rw [e']; exact h.watched, by rw [e']; exact wf_cellsSet d pa h.memory,
      by rw [e']; exact h.untagged, by rw [hc]; exact h.rising, ?_, ?_, by rw [hc]; exact h.lines⟩, ?_⟩
  · rw [hc]
    intro e he hd
    rw [hm]
    unfold withBytes
    rw [if_neg (hn e he)]
    exact h.clean e he hd
  · rw [hc]
    intro e he hd
    rw [placeOf_regs (s' := s') (s := s) (by rw [e'])]
    exact h.near e he hd
  · intro a
    unfold coreByte
    rw [hc, hm]
    cases e : tget (coreOf s core).l1 a with
    | none =>
      unfold withBytes
      simp only [e]
    | some b =>
      unfold withBytes
      simp only [e]
      exact (if_neg (hn _ (mem_of_tget e))).symm

/-- A write served at the home slice: what the core holds of those bytes, dirty or clean, is written over. -/
theorem sliceWrite_near {s : State} {core : Nat} {leaf : Leaf} {pa : Nat} (d : List Byte) (rid : Nat) (cache : BitVec 2)
    (h : Quiet s core) (hk : leaf.checked = false) : Wrote s (sliceWrite s core (nearWay leaf pa) leaf d rid cache) core pa d := by
  let f := fun (a : Nat) (_ : L1Byte) => decide (pa ≤ a) && decide (a < pa + d.length)
  obtain ⟨x, ex, kx, hx, hs⟩ : ∃ x, x = dropL1 s core f ∧ Quiet x core ∧
      (∀ e ∈ (coreOf x core).l1, ¬(pa ≤ e.1 ∧ e.1 < pa + d.length)) ∧
      (∀ a, ¬(pa ≤ a ∧ a < pa + d.length) → coreByte x core a = coreByte s core a) := by
    refine ⟨_, rfl, ?_⟩
    unfold dropL1
    dsimp only
    split
    · rename_i hn
      rw [List.isEmpty_iff] at hn
      refine ⟨h, ?_, fun _ _ => rfl⟩
      rw [hn]
      exact fun e he => by cases he
    · have hp : placeOf (setCore s core { coreOf s core with l1 := (coreOf s core).l1.filter (fun e => !f e.1 e.2) }) = placeOf s :=
        funext (placeOf_regs (s' := setCore s core _) (s := s) rfl)
      refine ⟨⟨h.poison, h.watched, h.memory, h.untagged, ?_, ?_, ?_, ?_⟩, ?_, ?_⟩
      · rw [coreOf_setCore]; exact risingFrom_filter _ h.rising
      · rw [coreOf_setCore]; exact fun e he => h.clean e (List.mem_filter.1 he).1
      · rw [coreOf_setCore, hp]; exact fun e he => h.near e (List.mem_filter.1 he).1
      · rw [coreOf_setCore]; exact h.lines
      · rw [coreOf_setCore]
        intro e he hc
        have := (List.mem_filter.1 he).2
        simp [f, hc.1, hc.2] at this
      · intro a ha
        have hfa : ∀ b, f a b = false := by intro b; simp only [f]; simp; omega
        unfold coreByte
        rw [coreOf_setCore]
        simp only
        rw [tget_filter h.rising]
        cases e : tget (coreOf s core).l1 a with
        | none => rfl
        | some b => simp [Option.filter, hfa b]
  have hsame : x.teams = s.teams ∧ x.regs = s.regs ∧ x.cur = s.cur ∧ x.gtick = s.gtick ∧ x.ctxs = s.ctxs := by
    rw [ex]
    unfold dropL1
    dsimp only
    split <;> exact ⟨rfl, rfl, rfl, rfl, rfl⟩
  obtain ⟨q, e2, u2⟩ := atSlice_near (s := x) (leaf := leaf) pa d.length rid cache true none hk kx.untagged
  have k2 := kept_squares q kx u2
  have hx2 : ∀ e ∈ (coreOf { x with squares := q } core).l1, ¬(pa ≤ e.1 ∧ e.1 < pa + d.length) := hx
  have w' := k2.wrote (wrote_memWrite (s := { x with squares := q }) pa d k2.quiet hx2)
  have hres : sliceWrite s core (nearWay leaf pa) leaf d rid cache = memWrite { x with squares := q } pa d := by
    unfold sliceWrite
    have hp : (nearWay leaf pa).peer = false := rfl
    have ha : (nearWay leaf pa).pa = pa := rfl
    rw [hp, ha]
    simp only [Bool.false_eq_true, if_false]
    rw [show (fun a _ => decide (pa ≤ a) && decide (a < pa + d.length) : Nat → L1Byte → Bool) = f from rfl, ← ex, e2]
    rfl
  rw [hres]
  refine ⟨w'.teams.trans hsame.1, w'.regs.trans hsame.2.1, w'.cur.trans hsame.2.2.1, w'.gtick.trans hsame.2.2.2.1,
    w'.ctxs.trans hsame.2.2.2.2, w'.quiet, ?_⟩
  intro a
  rw [w'.seen]
  unfold withBytes
  by_cases c : pa ≤ a ∧ a < pa + d.length
  · rw [if_pos c, if_pos c]
  · rw [if_neg c, if_neg c]
    exact hs a c

/-- A write of near memory within one line: into L1, or through it to the home slice. -/
theorem coreWrite_near {s : State} {core : Nat} {leaf : Leaf} {pa : Nat} (d : List Byte) (rid : Nat) (cache : BitVec 2)
    (through : Bool) (agent : Nat) (h : Quiet s core) (hp : placeOf s pa = .near) (hk : leaf.checked = false)
    (hr : leaf.recorded = false) (hline : ∀ i < d.length, (pa + i) / 128 = pa / 128) :
    Wrote s (coreWrite s core leaf pa d rid cache through agent) core pa d := by
  unfold coreWrite coreStore
  rw [wayOf_near hp]
  have hm : (nearWay leaf pa).management = none := rfl
  have ha : (nearWay leaf pa).pa = pa := rfl
  have hi : (nearWay leaf pa).inL1 = leaf.inL1 := rfl
  simp only [hm, ha, hi, Option.isSome_none, Bool.false_eq_true, if_false]
  split
  · exact wrote_l1Store pa d _ (lineInfo_plain pa rid cache _ hk (Or.inl hr)) h (fun i hi => near_line hp (hline i hi))
  · exact sliceWrite_near d rid cache h hk

/-- An atomic of near memory within one line: the old word is the one seen, and the new one is written where there is
one. -/
theorem coreAtomic_near {s : State} {core : Nat} {leaf : Leaf} {pa n : Nat} (rid : Nat) (cache : BitVec 2)
    (f : Nat → Option Nat) (h : Quiet s core) (hp : placeOf s pa = .near) (hk : leaf.checked = false)
    (hline : ∀ i < n, (pa + i) / 128 = pa / 128) :
    (coreAtomic s core leaf pa n rid cache f).1 = ofBytes (seenBytes s core pa n) ∧
      (match f (ofBytes (seenBytes s core pa n)) with
        | none => Kept s (coreAtomic s core leaf pa n rid cache f).2 core
        | some v => Wrote s (coreAtomic s core leaf pa n rid cache f).2 core pa (bytesOf n v)) := by
  obtain ⟨k1, hm1, hn1⟩ := kept_flushL1 (fun a => a / 128 == pa / 128) h
  unfold coreAtomic
  rw [wayOf_near hp]
  have hl : leaveL1 s core (nearWay leaf pa) = flushL1 s core (fun a => a / 128 == pa / 128) := rfl
  have hm : (nearWay leaf pa).management = none := rfl
  have ha : (nearWay leaf pa).pa = pa := rfl
  have hq : (nearWay leaf pa).peer = false := rfl
  dsimp only
  rw [hl, hm, ha, hq]
  dsimp only
  revert k1 hm1 hn1
  generalize flushL1 s core (fun a => a / 128 == pa / 128) = x
  intro k1 hm1 hn1
  obtain ⟨q, e2, u2⟩ := atSlice_near (s := x) (leaf := leaf) pa n rid cache true none hk k1.quiet.untagged
  rw [e2]
  have k2 := kept_squares q k1.quiet u2
  have old : memRead { x with squares := q } pa n = seenBytes s core pa n := by
    unfold memRead seenBytes
    rw [cellsRead_eq_map]
    exact List.map_congr_left (fun i hi => hm1 _ (by simpa using hline i (by simpa using hi)))
  simp only [poisoned_quiet k2.quiet, Bool.false_eq_true, if_false, old]
  cases f (ofBytes (seenBytes s core pa n)) with
  | none => exact ⟨rfl, k1.trans k2⟩
  | some v =>
    refine ⟨rfl, (k1.trans k2).wrote (wrote_memWrite pa (bytesOf n v) k2.quiet ?_)⟩
    intro e he hc
    have hne := hn1 e he
    obtain ⟨i, hi⟩ : ∃ i, e.1 = pa + i := ⟨e.1 - pa, by omega⟩
    rw [hi] at hne hc
    have hlen : i < n := by simpa [length_bytesOf] using hc.2
    simp [hline i hlen] at hne

end Sys2Proof.Machine
end

