-- ==== Sys2Proof/Tests/Slice0.lean ====
section
/-!
SUPPORT. Tests of the model by its author. The words and the results are written out from the spec's encodings, tables and
worked examples. The theorems `met_…` show for each statement a state and operands that meet its hypotheses.
-/

open Sys2Proof Sys2Proof.Machine

namespace Sys2Proof.Tests

set_option Elab.async false

/-! ### Ill-formed instructions (R237, R242, R421, R425) -/

/-- One term for each limit that an instruction word puts on its fields. -/
def illFormed : List Instr := [
  .ld 1 7 1 2 none, .st 2 6 1 2 none, .ldx 1 1 1 2 none, .stx 2 2 1 2 none, .kvldK 6 4 2, .kvldVt 4 5 2, .kvappK 2 4 2,
  .kvappV 4 1 2, .kvappCommit 3 2, .ropeInter 5 4 2, .ropeSplit 4 3 2, .ssld 2 1 2, .ssst 6 1 2, .packn 4 6 1, .packn 3 4 1,
  .cstBlk 6 1 2 none, .atomCas 5 1 2 none, .atomxCas 7 1 2 none, .cld 1 3 1 2 none, .cld 2 6 1 2 none, .sld 3 5 1 2 none,
  .sld 3 0 1 2 none, .sst 3 7 1 2 none, .satomCas 0 1 2 none, .satomCas 9 1 2 none, .push 1 0 2, .push 1 57 2, .pushw 57 2,
  .hset 1 0, .hget 57 1, .mma 49 1 2 0, .mma 8 61 2 0, .mma 8 1 63 0, .mmaSpad 49 1 2 0, .mmaSpad 8 1 63 0, .mmaQueue 8 55 2 0,
  .mmaQueue 49 56 2 0, .mmaQueue 8 56 63 0, .mmag 1 61 2 0, .mmag 1 1 63 0, .mmagSpad 1 1 63 0, .mmagQueue 1 55 2 0,
  .mmagQueue 1 56 63 0, .vspec 1 8, .srd 1 24, .swr 14 1, .swr 23 1, .ldb 3 1 2 3 none, .ldt 3 1 2 3 none, .sst 2 1 2 3 none,
  .stb 1 2 3 (some { order := 0, scope := 0, use := 6, cache := 0, quantum := 0 })]

theorem test_ill_formed_refused : illFormed.all (fun i => !i.wellFormed) = true := by decide

/-- The header of a form without a guard or scope has none. -/
theorem test_ill_formed_headers :
    Header.wellFormed { stall := 0, guard := 1, scope := 0 } false true = false ∧
    Header.wellFormed { stall := 0, guard := 0, scope := 1 } true false = false := by decide

/-- R421: the decoder rejects a word whose field breaks a limit, with REASON 5 and the field as VALUE. -/
theorem test_limit_rejected : decodeGroup [0x40070411] = .error { word := 0x40070411, reason := 5, value := 7, len := 1 } := by
  decide +kernel

/-! ### Decoding (R230 to R241) -/

/-- A word, read alone, gives the instruction with STALL 3, the guard and the scope. -/
def readsAs (x : Word × Instr × BitVec 2 × BitVec 2) : Bool :=
  decodeGroup [x.1] == .ok { instr := x.2.1, hdr := { stall := 3, guard := x.2.2.1, scope := x.2.2.2 }, len := 1 }

theorem test_words_1 : [
    (0x00C83034, .iadd 8 12 3, 1, 0), (0x00C83035, .isub 8 12 3, 1, 0), (0x00C83036, .imin 8 12 3, 1, 0),
    (0x00C83037, .imax 8 12 3, 1, 0), (0x02C83034, .nmin 8 12 3, 1, 0), (0x02C83035, .nmax 8 12 3, 1, 0),
    (0x02C83036, .iabsd 8 12 3, 1, 0), (0x02C83037, .navg 8 12 3, 1, 0), (0x04C83034, .imul 8 12 3, 1, 0),
    (0x04C83035, .imulh 8 12 3, 1, 0), (0x04C83036, .nmulh 8 12 3, 1, 0), (0x04C83037, .imad 8 12 3, 1, 0),
    (0x06C83034, .and 8 12 3, 1, 0), (0x06C83035, .or 8 12 3, 1, 0), (0x06C83036, .xor 8 12 3, 1, 0),
    (0x06C83037, .andn 8 12 3, 1, 0), (0x08C83034, .shl 8 12 3, 1, 0), (0x08C83035, .shr 8 12 3, 1, 0),
    (0x08C83036, .sar 8 12 3, 1, 0), (0x08C83037, .rol 8 12 3, 1, 0), (0x0CC83034, .bfx 8 12 3, 1, 0),
    (0x0CC83035, .bfxn 8 12 3, 1, 0), (0x0CC83036, .bfi 8 12 3, 1, 0), (0x0CC83037, .prmt 8 12 3, 1, 0),
    (0x12C83034, .fadd 8 12 3, 1, 0), (0x12C83035, .fsub 8 12 3, 1, 0), (0x12C83036, .fmul 8 12 3, 1, 0),
    (0x12C83037, .ffma 8 12 3, 1, 0), (0x14C83034, .fmin 8 12 3, 1, 0), (0x14C83035, .fmax 8 12 3, 1, 0),
    (0x14C83036, .fabsd 8 12 3, 1, 0), (0x14C83037, .fcpys 8 12 3, 1, 0), (0x20C83034, .phadd 8 12 3, 1, 0),
    (0x20C83035, .phmul 8 12 3, 1, 0), (0x20C83036, .phfma 8 12 3, 1, 0), (0x20C83037, .phmax 8 12 3, 1, 0),
    (0x22C83034, .pbadd 8 12 3, 1, 0)].all readsAs = true := by decide +kernel

theorem test_words_2 : [
    (0x22C83035, .pbmul 8 12 3, 1, 0), (0x22C83036, .pbfma 8 12 3, 1, 0), (0x22C83037, .pbmax 8 12 3, 1, 0),
    (0x2AC83034, .shfl 8 12 3, 1, 0), (0x2AC83035, .shflu 8 12 3, 1, 0), (0x2AC83036, .shfld 8 12 3, 1, 0),
    (0x2AC83037, .shflx 8 12 3, 1, 0), (0x0AC83034, .popc 8 12, 1, 0), (0x0AC83035, .clz 8 12, 1, 0),
    (0x0AC83036, .brev 8 12, 1, 0), (0x0AC83037, .ffs 8 12, 1, 0), (0x18C83034, .frcp 8 12, 1, 0),
    (0x18C83035, .frsq 8 12, 1, 0), (0x18C83036, .fex2 8 12, 1, 0), (0x18C83037, .flg2 8 12, 1, 0),
    (0x1AC83034, .fsin 8 12, 1, 0), (0x1AC83035, .fcos 8 12, 1, 0), (0x1AC83036, .fsqrt 8 12, 1, 0),
    (0x1AC83037, .ftanh 8 12, 1, 0), (0x1CC83034, .i2f 8 12, 1, 0), (0x1CC83035, .n2f 8 12, 1, 0),
    (0x1CC83036, .f2i 8 12, 1, 0), (0x1CC83037, .f2n 8 12, 1, 0), (0x1EC83034, .frne 8 12, 1, 0),
    (0x1EC83035, .fflr 8 12, 1, 0), (0x1EC83036, .fceil 8 12, 1, 0), (0x1EC83037, .ftrnc 8 12, 1, 0),
    (0x2EC83034, .wradd 8 12, 1, 0), (0x2EC83035, .wrmax 8 12, 1, 0), (0x2EC83036, .wrfadd 8 12, 1, 0),
    (0x2EC83037, .wrfmax 8 12, 1, 0), (0x0EED3035, .icmpp 5 5 12 3 1, 1, 0), (0x10C83035, .sel 8 12 3 1, 1, 0),
    (0x16ED3035, .fcmpp 5 5 12 3 1, 1, 0), (0x24C83034, .f2h2 8 12 3, 1, 0), (0x24C83035, .h2f 8 12 1, 1, 0),
    (0x24C83036, .f2b2 8 12 3, 1, 0)].all readsAs = true := by decide +kernel

theorem test_words_3 : [
    (0x24C83037, .b2f 8 12 1, 1, 0), (0x26C83054, .cvtn 8 12 5, 1, 0), (0x26C83055, .cvtsr 8 12 5, 1, 0),
    (0x26C83056, .cvtw 8 12 5, 1, 0), (0x26C83057, .packn 8 12 5, 1, 0), (0x28C83034, .qxh 8 12, 1, 0),
    (0x28C83035, .qxv 8 12, 1, 0), (0x28C83036, .qxd 8 12, 1, 0), (0x28C83037, .qbc 8 12 3, 1, 0),
    (0x2CC83034, .ballot 8 12, 1, 0), (0x2CC83035, .vany 8 12, 1, 0), (0x2CC83036, .vall 8 12, 1, 0),
    (0x2CC83037, .vmatch 8 12, 1, 0), (0x30C83034, .vmov 8 12, 1, 0), (0x30C83035, .vmovs 8 12 1, 1, 0),
    (0x30C81436, .vspec 8 5, 1, 0), (0x32C832AB, .iaddi 8 12 (.lone 0x2ab), 0, 0),
    (0x34C832AB, .shli 8 12 (.lone 0x2ab), 0, 0), (0x36C832AB, .shri 8 12 (.lone 0x2ab), 0, 0),
    (0x38C832AB, .andi 8 12 (.lone 0x2ab), 0, 0), (0x3AC832AB, .movi 8 (.lone 0x2ab), 0, 0),
    (0x3CC832AB, .ori 8 12 (.lone 0x2ab), 0, 0), (0x3EC832AB, .xori 8 12 (.lone 0x2ab), 0, 0),
    (0x40C83035, .ld 1 8 12 3 none, 1, 0), (0x42C83035, .ldb 1 8 12 3 none, 1, 0), (0x44C83035, .st 1 8 12 3 none, 1, 0),
    (0x46C83034, .stb 8 12 3 none, 1, 0), (0x48C83035, .ldx 1 8 12 3 none, 1, 0), (0x4AC83035, .stx 1 8 12 3 none, 1, 0),
    (0x4CC83035, .ldt 1 8 12 3 none, 1, 0), (0x4EC83055, .cld 1 8 12 5 none, 1, 0), (0x50C83054, .cstElem 8 12 5 none, 1, 0),
    (0x50C83055, .cstBlk 8 12 5 none, 1, 0), (0x52C83034, .atomAdd 8 12 3 none, 1, 0),
    (0x52C83035, .atomFadd 8 12 3 none, 1, 0), (0x52C83036, .atomExch 8 12 3 none, 1, 0),
    (0x52C83037, .atomCas 8 12 3 none, 1, 0)].all readsAs = true := by decide +kernel

theorem test_words_4 : [
    (0x54C83034, .atomNmin 8 12 3 none, 1, 0), (0x54C83035, .atomNmax 8 12 3 none, 1, 0),
    (0x54C83036, .atomAnd 8 12 3 none, 1, 0), (0x54C83037, .atomOr 8 12 3 none, 1, 0),
    (0x56C83034, .atomxAdd 8 12 3 none, 1, 0), (0x56C83035, .atomxExch 8 12 3 none, 1, 0),
    (0x56C83036, .atomxCas 8 12 3 none, 1, 0), (0x56C83037, .atomxNmax 8 12 3 none, 1, 0), (0x58C83034, .kvldK 8 12 3, 1, 0),
    (0x58C83035, .kvldVt 8 12 3, 1, 0), (0x5AC83034, .kvappK 8 12 3, 1, 0), (0x5AC83035, .kvappV 8 12 3, 1, 0),
    (0x5AC83036, .kvappCommit 12 3, 1, 0), (0x5CC83034, .ssld 8 12 3, 1, 0), (0x5CC83035, .ssst 8 12 3, 1, 0),
    (0x5EC83034, .ropeInter 8 12 3, 1, 0), (0x5EC83035, .ropeSplit 8 12 3, 1, 0), (0x60EBCDE4, .bra 0x2bcde, 1, 0),
    (0x62EBCDE4, .call 0x2bcde, 1, 0), (0x64EBCDE4, .rcvset 0x2bcde, 1, 0), (0x66EBCDE4, .reform 0x2bcde, 1, 0),
    (0x66EBCDE5, .rejoin 0x2bcde, 1, 0), (0x66EBCDE6, .spawn 0x2bcde, 1, 0), (0x68C83036, .callr 12, 1, 0),
    (0x68C83037, .brx 12, 1, 0), (0x6AC83035, .waitc 1 8 12 3, 1, 0), (0x80C83034, .sadd 8 12 3, 1, 0),
    (0x80C83035, .ssub 8 12 3, 1, 0), (0x80C83036, .smin 8 12 3, 1, 0), (0x80C83037, .smax 8 12 3, 1, 0),
    (0x82C83034, .smul 8 12 3, 1, 0), (0x82C83035, .smulh 8 12 3, 1, 0), (0x82C83036, .sdivn 8 12 3, 1, 0),
    (0x82C83037, .sremn 8 12 3, 1, 0), (0x84C83034, .sand 8 12 3, 1, 0), (0x84C83035, .sor 8 12 3, 1, 0),
    (0x84C83036, .sxor 8 12 3, 1, 0)].all readsAs = true := by decide +kernel

theorem test_words_5 : [
    (0x84C83037, .sandn 8 12 3, 1, 0), (0x86C83034, .sshl 8 12 3, 1, 0), (0x86C83035, .sshr 8 12 3, 1, 0),
    (0x86C83036, .ssar 8 12 3, 1, 0), (0x86C83037, .srol 8 12 3, 1, 0), (0x9CC83034, .sfadd 8 12 3, 1, 0),
    (0x9CC83035, .sfsub 8 12 3, 1, 0), (0x9CC83036, .sfmul 8 12 3, 1, 0), (0x9CC83037, .sffma 8 12 3, 1, 0),
    (0x88C83034, .spopc 8 12, 1, 0), (0x88C83035, .sclz 8 12, 1, 0), (0x88C83036, .sbrev 8 12, 1, 0),
    (0x88C83037, .sffs 8 12, 1, 0), (0x9EC83034, .si2f 8 12, 1, 0), (0x9EC83035, .sf2i 8 12, 1, 0),
    (0x9EC83036, .sfrcp 8 12, 1, 0), (0x9EC83037, .sfsqrt 8 12, 1, 0), (0x8AEB3035, .ssetc 5 3 12 3 1, 1, 0),
    (0x8CC83035, .ssel 8 12 3 1, 1, 0), (0x8EC83034, .smov 8 12, 1, 0), (0x8EC83035, .srd 8 12, 1, 0),
    (0x8ED03036, .swr 16 12, 1, 0), (0x90C832AB, .saddi 8 12 (.lone 0x2ab), 0, 0),
    (0x92C832AB, .smovi 8 (.lone 0x2ab), 0, 0), (0x94C832AB, .sshli 8 12 (.lone 0x2ab), 0, 0),
    (0x96C832AB, .sandi 8 12 (.lone 0x2ab), 0, 0), (0x9AC832AB, .sori 8 12 (.lone 0x2ab), 0, 0),
    (0xA0C83035, .sld 1 8 12 3 none, 1, 0), (0xA2C83035, .sst 1 8 12 3 none, 1, 0),
    (0xA4C83034, .satomAdd 8 12 3 none, 1, 0), (0xA4C83035, .satomExch 8 12 3 none, 1, 0),
    (0xA4C83036, .satomCas 8 12 3 none, 1, 0), (0xA4C83037, .satomNmax 8 12 3 none, 1, 0), (0xAAC23034, .discard 12 3, 1, 2),
    (0xAAC23035, .flush 12 3, 1, 2), (0xAAC23036, .inval 12 3, 1, 2), (0xAAC23037, .pfetch 12 3, 1, 2)].all readsAs = true := by decide +kernel

theorem test_words_6 : [
    (0xACC83034, .respri 12 3, 1, 0), (0xACC83035, .resdem 12 3, 1, 0), (0xACC83036, .respro 12, 1, 0),
    (0xACC83037, .resqry 8 12, 1, 0), (0xAEC83034, .hset 8 12, 1, 0), (0xAEC83035, .hget 8 12, 1, 0),
    (0xAEC83036, .hcls 8 12, 1, 0), (0xAEC83037, .hseed 8 12, 1, 0), (0xB0EBCDE4, .jmp 0x2bcde, 1, 0),
    (0xB0EBCDE5, .jcall 0x2bcde, 1, 0), (0xB2C83035, .jmpr 12, 1, 0), (0xB2C83036, .trap 3, 1, 0),
    (0xB2C83037, .rte 12, 1, 0), (0xB4C83034, .bar 8 3, 1, 0), (0xB4C83035, .cbar 8 3, 1, 0), (0xB4C83036, .bara 8 3, 1, 0),
    (0xB4C83037, .barw 8 3, 1, 0), (0xB6C23034, .wcondAddr 2 12 3, 1, 0), (0xB6C23035, .wcondBcb 2 12, 1, 0),
    (0xB6C23036, .wcondQueue 2 12 3, 1, 0), (0xB6C23037, .wcondCompl 2 12 3, 1, 0), (0xB8C83034, .waitany 8 12 3, 1, 0),
    (0xB8C83035, .waitall 8 12 3, 1, 0), (0xBAC53034, .push 5 12 3, 1, 0), (0xBAC83035, .pushw 12 3, 1, 0),
    (0xBAC83036, .kick 12 3, 1, 0), (0xBCC83034, .launch 8 12 3, 1, 0), (0xBEC83034, .qbind 3 12, 1, 0),
    (0xBEC83035, .qunb 3, 1, 0), (0xBEC83036, .qstat 8 3, 1, 0), (0xBEC83037, .qreset 3, 1, 0),
    (0xC0C53036, .regxTry 5, 1, 0), (0xC2C83036, .prioPair 12, 1, 0), (0xC4C83034, .seqfork 12 3, 1, 0),
    (0xC4C83035, .seqfree 12, 1, 0), (0xC4C83036, .seqtrunc 12 3, 1, 0), (0xC4C83037, .seqinfo 8 12, 1, 0)].all readsAs = true := by decide +kernel

theorem test_words_7 : [
    (0xC6C83034, .ssnap 8, 1, 0), (0xC6C83035, .ssroll 8 12, 1, 0), (0xC6C83036, .sscommit 12, 1, 0),
    (0xC6C83037, .ssbind 12, 1, 0), (0xC8C13034, .mset 1 12, 1, 0), (0xC8C80435, .mget 8 1, 1, 0),
    (0xCAC83038, .mma 8 12 3 2, 0, 0), (0xCAC83039, .mmaSpad 8 12 3 2, 0, 0), (0xCAC8F03A, .mmaQueue 8 60 3 2, 0, 0),
    (0xCCC83038, .mmag 8 12 3 2, 0, 0), (0xCCC83039, .mmagSpad 8 12 3 2, 0, 0), (0xCCC8F03A, .mmagQueue 8 60 3 2, 0, 0),
    (0xCEC83034, .drain 12 3, 1, 0), (0xCEC83035, .drainSkip 3, 1, 0), (0xCEC83036, .gclr 12 3, 1, 0),
    (0xCEC83037, .grd 8 12 3, 1, 0), (0xD0C53035, .nchk 5 12 3, 1, 0), (0xD0C83036, .nrd 8, 1, 0),
    (0xD2C83035, .mark 12, 1, 0), (0xD2C83037, .hashrd 8, 1, 0), (0x64EBCDE5, .rcvwait, 1, 0), (0x68C83034, .exit, 1, 0),
    (0x68C83035, .ret, 1, 0), (0x6CC83034, .yield, 1, 0), (0xA8C23034, .fenceRel, 1, 2), (0xA8C23035, .fenceAcq, 1, 2),
    (0xA8C23036, .fenceFull, 1, 2), (0xB2C83034, .sret, 1, 0), (0xC0C83034, .regxAcq, 1, 0), (0xC0C83035, .regxRel, 1, 0),
    (0xC2C83034, .prioPass, 1, 0), (0xC2C83035, .prioTake, 1, 0), (0xD0C83034, .nrst, 1, 0), (0xD2C83034, .brk, 1, 0),
    (0xD2C83036, .sample, 1, 0), (0xD4C83034, .nop, 1, 0)].all readsAs = true := by decide +kernel
/-- Words that the spec prints with their assembly (chapters 12 to 16), and the STALL they show. -/
def printed : List (Word × Instr × BitVec 3) := [
  (0x01030420, .iadd 3 1 2, 4), (0x03040423, .navg 4 1 2, 4), (0x05080833, .imad 8 2 3, 4), (0x07010833, .andn 1 2 3, 4),
  (0x09051462, .sar 5 5 6, 4), (0x0B022401, .clz 2 9, 4), (0x0D041C61, .bfxn 4 7 6, 4), (0x0ED71060, .icmpp 2 7 4 6 0, 3),
  (0x11030421, .sel 3 1 2 1, 4), (0x13061052, .fmul 6 4 5, 4), (0x15020833, .fcpys 2 2 3, 4), (0x16DF0410, .fcmpp 3 7 1 1 0, 3),
  (0x1BC40400, .fsin 4 1, 7), (0x1D050C02, .f2i 5 3, 4), (0x1F061801, .fflr 6 6, 4), (0x21091C82, .phfma 9 7 8, 4),
  (0x23020833, .pbmax 2 2 3, 4), (0x25040422, .f2b2 4 1 2, 4), (0x25051011, .h2f 5 4 1, 4), (0x29430801, .qxv 3 2, 5),
  (0x2B430812, .shfld 3 2 1, 5), (0x2D440800, .ballot 4 2, 5), (0x2FC51002, .wrfadd 5 4, 7), (0x31020402, .vspec 2 1, 4),
  (0x31072411, .vmovs 7 9 1, 4), (0x35041003, .shli 4 4 (.lone 3), 4), (0x390204FF, .andi 2 1 (.lone 0xFF), 4),
  (0x3F030FFF, .xori 3 3 (.lone 0x3FF), 4), (0x82831051, .smulh 3 4 5, 2), (0x82861C82, .sdivn 6 7 8, 2),
  (0x8AD61050, .ssetc 2 6 4 5 0, 3), (0x8C831052, .ssel 3 4 5 2, 2), (0x8E850001, .srd 5 0, 2), (0x8E111802, .swr 17 6, 0),
  (0xA1C80400, .sld 0 8 1 0 none, 7), (0xA2061051, .sst 1 6 4 5 none, 0), (0xB0000281, .jcall 40, 0),
  (0xB03FFFA0, .jmp 0x3FFFA, 0), (0xB2001C01, .jmpr 7, 0), (0xB20000C2, .trap 12, 0), (0xB2001403, .rte 5, 0),
  (0xB5C60022, .bara 6 2, 7), (0xB6011053, .wcondCompl 1 4 5, 0), (0xB9C51831, .waitall 5 6 3, 7), (0xBAC12000, .push 1 8 0, 3),
  (0xBA002031, .pushw 8 3, 0), (0xBDC91050, .launch 9 4 5, 7), (0xBE001820, .qbind 2 6, 0), (0xBFC70022, .qstat 7 2, 7),
  (0xC0C20002, .regxTry 2, 3), (0xC2001002, .prioPair 4, 0), (0xC8011000, .mset 1 4, 0), (0xAE022000, .hset 2 8, 0),
  (0xCBD020C4, .mma 16 8 12 1, 7), (0x59C80850, .kvldK 8 2 5, 7), (0x5FC80850, .ropeInter 8 2 5, 7), (0xC7C60000, .ssnap 6, 7),
  (0xCE001050, .drain 4 5, 0), (0x4FC80422, .cld 2 8 1 2 none, 7), (0x50080420, .cstElem 8 1 2 none, 0)]

theorem test_printed_words : printed.all (fun x => decodeGroup [x.1] ==
    .ok { instr := x.2.1, hdr := { stall := x.2.2, guard := 0, scope := 0 }, len := 1 }) = true := by decide +kernel

/-- R321, R322: the scope stands in SD; R236, R237: a LIT word widens MOVI, and an MQ word qualifies an atomic. -/
theorem test_prefixed_words :
    decodeGroup [0xA8020000] = .ok { instr := .fenceRel, hdr := { stall := 0, guard := 0, scope := 2 }, len := 1 } ∧
    decodeGroup [0xAA031051] = .ok { instr := .flush 4 5, hdr := { stall := 0, guard := 0, scope := 3 }, len := 1 } ∧
    decodeGroup [0x98000048, 0x3A470345] =
      .ok { instr := .movi 7 (.one 0x48 0x345), hdr := { stall := 1, guard := 0, scope := 0 }, len := 2 } ∧
    decodeGroup [0xA6090000, 0xA5C61000] =
      .ok { instr := .satomAdd 6 4 0 (some { order := 0, scope := 2, use := 2, cache := 0, quantum := 0 }),
            hdr := { stall := 7, guard := 0, scope := 0 }, len := 2 } := by decide +kernel

/-! ### Single steps -/

def lanes4 : List (Nat × Nat) := [(0, 0), (1, 1), (2, 2), (3, 3)]

/-- Four threads of home warp 0 on core 0, in one group. -/
def team4 : Team :=
  { emptyTeam 0 0 loadInfo [] (List.replicate 64 0) with
    threads := (List.range 4).map (fun i => Thread.fresh i true false (BitVec.ofNat 32 i)), warps := [Warp.fresh true 0 0],
    groups := [Grp.fresh 0 0 0 lanes4 0x10000], nextGid := 1 }

/-- That team, changed by `f`, alone on a device whose 64 GiB are mapped one to one, issuing a word with STALL 4. -/
def at4 (f : Team → Team) : State :=
  { loadPages State.reset with teams := [(0, f team4)], cur := { Cur.none with hdr := { stall := 4, guard := 0, scope := 0 } } }

/-- The team after an instruction. -/
def teamAfter (i : Instr) (s : State) : Option Team :=
  match exec i s with
  | .next s' => tget s'.teams 0
  | _ => none

/-- Lane registers of one lane, and uniform registers, set beforehand. -/
def withV (l : List (Nat × Nat × Word)) (t : Team) : Team := l.foldl (fun t x => setLaneReg t x.1 x.2.1 x.2.2) t
def withS (l : List (Nat × DWord)) (t : Team) : Team := modWarp t 0 (fun w => l.foldl (fun w x => setU w x.1 x.2) w)

/-- v3 of lane 0 after a form on v1 = a, v2 = b, v3 = d. -/
def laneGives (i : Instr) (a b d : Word) : Option Word :=
  (teamAfter i (at4 (withV [(0, 1, a), (0, 2, b), (0, 3, d)]))).map (fun t => laneReg t 0 3)

/-- s3 after a form on s1 = a, s2 = b, s3 = d. -/
def uniformGives (i : Instr) (a b d : DWord) : Option DWord :=
  (teamAfter i (at4 (withS [(1, a), (2, b), (3, d)]))).map (fun t => uReg (warpOf t 0) 3)

def laneRight (x : Instr × Word × Word × Word × Word) : Bool := laneGives x.1 x.2.1 x.2.2.1 x.2.2.2.1 == some x.2.2.2.2
def uniformRight (x : Instr × DWord × DWord × DWord × DWord) : Bool :=
  uniformGives x.1 x.2.1 x.2.2.1 x.2.2.2.1 == some x.2.2.2.2

/-- R258 to R264 and their worked values. -/
theorem test_lane_integers : [
    (.iadd 3 1 2, 0x7FFFFFFF, 1, 0, 0x80000000), (.isub 3 1 2, 0, 1, 0, 0xFFFFFFFF), (.imin 3 1 2, 0xFFFFFFFF, 1, 0, 0xFFFFFFFF),
    (.imax 3 1 2, 0xFFFFFFFF, 1, 0, 1), (.nmin 3 1 2, 0xFFFFFFFF, 1, 0, 1), (.nmax 3 1 2, 0xFFFFFFFF, 1, 0, 0xFFFFFFFF),
    (.iabsd 3 1 2, 0x80000000, 0x7FFFFFFF, 0, 0xFFFFFFFF), (.navg 3 1 2, 3, 4, 0, 4),
    (.navg 3 1 2, 0xFFFFFFFF, 0xFFFFFFFF, 0, 0xFFFFFFFF), (.imul 3 1 2, 0x10000, 0x10001, 0, 0x10000),
    (.imulh 3 1 2, 0xFFFFFFFF, 1, 0, 0xFFFFFFFF), (.nmulh 3 1 2, 0xFFFFFFFF, 1, 0, 0), (.imad 3 1 2, 3, 4, 5, 17),
    (.and 3 1 2, 12, 10, 0, 8), (.or 3 1 2, 12, 10, 0, 14), (.xor 3 1 2, 12, 10, 0, 6), (.andn 3 1 2, 12, 10, 0, 4),
    (.shl 3 1 2, 5, 32, 0, 0), (.shr 3 1 2, 0x80000000, 31, 0, 1), (.sar 3 1 2, 0x80000000, 40, 0, 0xFFFFFFFF),
    (.rol 3 1 2, 0x80000001, 33, 0, 3), (.popc 3 1, 0xF0F, 0, 0, 8), (.clz 3 1, 0x00010000, 0, 0, 15), (.clz 3 1, 0, 0, 0, 32),
    (.brev 3 1, 3, 0, 0, 0xC0000000), (.ffs 3 1, 0, 0, 0, 0xFFFFFFFF), (.ffs 3 1, 12, 0, 0, 2),
    (.bfxn 3 1 2, 0xAB0, 0x804, 0, 0xAB), (.bfx 3 1 2, 0xAB0, 0x804, 0, 0xFFFFFFAB), (.bfi 3 1 2, 0xFF, 0x408, 0x8001, 0x8F01),
    (.prmt 3 1 1, 0x11223344, 0, 0x123, 0x44332211), (.prmt 3 1 2, 0x80, 0x55, 0x4808, 0x55FF80FF)].all laneRight = true := by decide +kernel

/-- R267, R268, R271, R272, R273 and their worked values. -/
theorem test_lane_floats : [
    (.fadd 3 1 2, 0x7F800000, 0xFF800000, 0, 0x7FC00000), (.fadd 3 1 2, 0x3F800000, 0xBF800000, 0, 0),
    (.fsub 3 1 2, 0x3F800000, 0x40000000, 0, 0xBF800000), (.fmul 3 1 2, 0x71800000, 0x71800000, 0, 0x7F800000),
    (.ffma 3 1 2, 0x40000000, 0x40400000, 0x3F800000, 0x40E00000), (.fmin 3 1 2, 0x7FC00001, 0x3F800000, 0, 0x3F800000),
    (.fmax 3 1 2, 0x80000000, 0, 0, 0), (.fabsd 3 1 2, 0x3F800000, 0x40000000, 0, 0x3F800000),
    (.fcpys 3 1 2, 0x3F800000, 0x80000000, 0, 0xBF800000), (.frcp 3 1, 0x40000000, 0, 0, 0x3F000000),
    (.frsq 3 1, 0x40800000, 0, 0, 0x3F000000), (.fsqrt 3 1, 0x40800000, 0, 0, 0x40000000), (.fex2 3 1, 0xC3150000, 0, 0, 1),
    (.flg2 3 1, 0x41000000, 0, 0, 0x40400000), (.fsin 3 1, 0x3F400000, 0, 0, 0xBF800000), (.fsin 3 1, 0x3F000000, 0, 0, 0),
    (.fcos 3 1, 0x3F000000, 0, 0, 0xBF800000), (.ftanh 3 1, 0x7F800000, 0, 0, 0x3F800000), (.i2f 3 1, 0xFFFFFFFF, 0, 0, 0xBF800000),
    (.n2f 3 1, 0xFFFFFFFF, 0, 0, 0x4F800000), (.f2i 3 1, 0x40200000, 0, 0, 2), (.f2i 3 1, 0x40600000, 0, 0, 4),
    (.f2i 3 1, 0x4F32D05E, 0, 0, 0x7FFFFFFF), (.f2n 3 1, 0xBF800000, 0, 0, 0), (.f2n 3 1, 0xBECCCCCD, 0, 0, 0),
    (.frne 3 1, 0x40200000, 0, 0, 0x40000000), (.fflr 3 1, 0xC0200000, 0, 0, 0xC0400000), (.fflr 3 1, 0x3E99999A, 0, 0, 0),
    (.fceil 3 1, 0xBF000000, 0, 0, 0x80000000), (.ftrnc 3 1, 0xC0200000, 0, 0, 0xC0000000)].all laneRight = true := by
  decide +kernel

/-- R274 to R276, R282, R283 and their worked values. -/
theorem test_lane_halves_and_moves : [
    (.phadd 3 1 2, 0x3C000000, 0x3C008000, 0, 0x40000000), (.phmul 3 1 2, 0x40003C00, 0x40004200, 0, 0x44004200),
    (.phfma 3 1 2, 0x3C003C00, 0x40004000, 0x3C000000, 0x42004000), (.phmax 3 1 2, 0x7E013C00, 0x40004000, 0, 0x40004000),
    (.pbadd 3 1 2, 0x3F800001, 0x3F808001, 0, 0x40000000), (.pbmul 3 1 2, 0x40000001, 0x40403F80, 0, 0x40C00000),
    (.pbfma 3 1 2, 0x3F803F80, 0x40004000, 0x3F800000, 0x40404000), (.pbmax 3 1 2, 0x00013F80, 0x80004000, 0, 0x00014000),
    (.f2h2 3 1 2, 0x3F800000, 0x40000000, 0, 0x40003C00), (.h2f 3 1 1, 0x40003C00, 0, 0, 0x40000000),
    (.f2b2 3 1 2, 0x3F800000, 0xC0000000, 0, 0xC0003F80), (.b2f 3 1 0, 0x00018001, 0, 0, 0x80000000),
    (.vmov 3 1, 0x7FA00001, 0, 0, 0x7FA00001), (.iaddi 3 1 (.lone 0x3FF), 5, 0, 0, 4), (.shli 3 1 (.lone 3), 5, 0, 0, 40),
    (.shri 3 1 (.lone 0x3FF), 5, 0, 0, 0), (.andi 3 1 (.lone 0xFF), 0x1234, 0, 0, 0x34),
    (.movi 3 (.one 0x48 0x345), 0, 0, 0, 0x12345), (.ori 3 1 (.lone 1), 4, 0, 0, 5),
    (.xori 3 1 (.lone 0x3FF), 0x0F0F0F0F, 0, 0, 0xF0F0F0F0), (.vspec 3 1, 0, 0, 9, 0)].all laneRight = true := by decide +kernel

/-- R311 to R315, R318 and their worked values. -/
theorem test_uniform_arithmetic : [
    (.sadd 3 1 2, 0xFFFFFFFFFFFFFFFF, 1, 0, 0), (.ssub 3 1 2, 0, 1, 0, 0xFFFFFFFFFFFFFFFF), (.smin 3 1 2, 0xFFFFFFFFFFFFFFFF, 1, 0,
    0xFFFFFFFFFFFFFFFF), (.smax 3 1 2, 0xFFFFFFFFFFFFFFFF, 1, 0, 1), (.smul 3 1 2, 0x100000000, 0x100000001, 0, 0x100000000),
    (.smulh 3 1 2, 0xFFFFFFFFFFFFFFFF, 1, 0, 0xFFFFFFFFFFFFFFFF), (.sdivn 3 1 2, 7, 0, 0, 0xFFFFFFFFFFFFFFFF),
    (.sremn 3 1 2, 7, 0, 0, 0xFFFFFFFFFFFFFFFF), (.sdivn 3 1 2, 7, 2, 0, 3), (.sremn 3 1 2, 7, 2, 0, 1),
    (.sand 3 1 2, 12, 10, 0, 8), (.sor 3 1 2, 12, 10, 0, 14), (.sxor 3 1 2, 12, 10, 0, 6), (.sandn 3 1 2, 12, 10, 0, 4),
    (.sshl 3 1 2, 1, 64, 0, 0), (.sshr 3 1 2, 0x8000000000000000, 63, 0, 1),
    (.ssar 3 1 2, 0x8000000000000000, 64, 0, 0xFFFFFFFFFFFFFFFF), (.srol 3 1 2, 0x8000000000000001, 65, 0, 3),
    (.spopc 3 1, 0xFF, 0, 0, 8), (.sclz 3 1, 0, 0, 0, 64), (.sbrev 3 1, 1, 0, 0, 0x8000000000000000),
    (.sffs 3 1, 0, 0, 0, 0xFFFFFFFFFFFFFFFF), (.ssel 3 1 2 0, 5, 6, 0, 6), (.smov 3 1, 5, 0, 0, 5),
    (.saddi 3 1 (.lone 0x3FF), 5, 0, 0, 4), (.smovi 3 (.lone 0x380), 0, 0, 0, 0xFFFFFFFFFFFFFF80),
    (.sshli 3 1 (.lone 64), 5, 0, 0, 0), (.sandi 3 1 (.lone 0x380), 0x1FF, 0, 0, 0x180), (.sori 3 1 (.lone 5), 0x800000000, 0, 0,
    0x800000005), (.sfadd 3 1 2, 0xF3F800000, 0x3F800000, 0, 0x40000000), (.sfsub 3 1 2, 0x3F800000, 0x40000000, 0, 0xBF800000),
    (.sfmul 3 1 2, 0x40000000, 0x40400000, 0, 0x40C00000), (.sffma 3 1 2, 0x40000000, 0x40400000, 0x3F800000, 0x40E00000),
    (.si2f 3 1, 0xFFFFFFFFFFFFFFFF, 0, 0, 0xBF800000), (.sf2i 3 1, 0x40200000, 0, 0, 2), (.sf2i 3 1, 0xFF800000, 0, 0,
    0x8000000000000000), (.sfrcp 3 1, 0x40000000, 0, 0, 0x3F000000), (.sfsqrt 3 1, 0x40800000, 0, 0, 0x40000000),
    (.srd 3 23, 0, 0, 0, 65536), (.srd 3 10, 0, 0, 0, 4)].all uniformRight = true := by decide +kernel

/-- R265, R269, R234, R312: compares into a predicate and a flag; a false predicate is combined by F. -/
theorem test_compares :
    ((teamAfter (.icmpp 2 7 1 2 0) (at4 (withV [(0, 1, 0xFFFFFFFF), (0, 2, 1)]))).map (fun t => (threadOf t 0).p.toNat)) = some 5 ∧
    ((teamAfter (.fcmpp 3 7 1 1 0) (at4 (withV [(0, 1, 0x7FC00000)]))).map (fun t =>
      ((threadOf t 0).p.toNat, (threadOf t 1).p.toNat))) = some (9, 1) ∧
    ((teamAfter (.ssetc 2 6 1 2 0) (at4 (withS [(1, 4), (2, 5)]))).map (fun t => (warpOf t 0).c.toNat)) = some 5 := by
  decide +kernel

/-- R277, R278, R281: QXH, a shuffle past the group, and the fixed tree on 2^24, 1, 1, 1. -/
theorem test_exchanges :
    ((teamAfter (.qxh 3 0) (at4 id)).map (fun t => (List.range 4).map (fun i => (laneReg t i 3).toNat))) = some [1, 0, 3, 2] ∧
    ((teamAfter (.shfld 3 0 1) (at4 (withV [(0, 1, 1), (1, 1, 1), (2, 1, 1), (3, 1, 1)]))).map (fun t =>
      (List.range 4).map (fun i => (laneReg t i 3).toNat))) = some [1, 2, 3, 0] ∧
    ((teamAfter (.wrfadd 3 1) (at4 (withV [(0, 1, 0x4B800000), (1, 1, 0x3F800000), (2, 1, 0x3F800000), (3, 1, 0x3F800000)]))).map
      (fun t => (List.range 4).map (fun i => laneReg t i 3))) = some (List.replicate 4 0x4B800001) ∧
    ((teamAfter (.ballot 4 0) (at4 id)).map (fun t => (uReg (warpOf t 0) 4).toNat)) = some 14 := by decide +kernel

/-- R23: a BRA whose guard is true in lane 0 alone splits the group; R24: RCVSET pushes target and mask. -/
theorem test_branches :
    ((teamAfter (.bra 0x3FFFF) { at4 (fun t => modThread t 0 (fun th => { th with p := 3 })) with
      cur := { Cur.none with hdr := { stall := 0, guard := 1, scope := 0 } } }).map (fun t =>
        t.groups.map (fun g => (g.lanes.map (·.2), g.pc.toNat)))) = some [([1, 2, 3], 0x10004), ([0], 0xFFFC)] ∧
    ((teamAfter (.rcvset 4) (at4 id)).map (fun t => (warpOf t 0).stack)) = some [{ target := 0x10010, mask := 0xF }] ∧
    ((teamAfter .exit (at4 id)).map (fun t => (t.groups.length, t.threads.any (·.live)))) = some (0, false) := by decide +kernel

/-! ### The statements' hypotheses can be met -/

def grp4 : Grp := Grp.fresh 0 0 0 lanes4 0x10000
def s4 : State := at4 id

theorem ready4 : LaneReady s4 team4 grp4 [3, 1, 2] ∧ laneSet s4 team4 grp4 = lanes4 := by
  unfold LaneReady Issues RegsPlain laneSet; decide +kernel
theorem uni4 : UniReady s4 team4 grp4 := by unfold UniReady Issues; decide +kernel

theorem quiet_of (s : State) (core : Nat) (h : s.poison = [] ∧ watched s = false ∧ Memory.wf s.mem = true ∧
    (∀ e ∈ s.squares, e.2.shadow = none) ∧ risingFrom 0 (coreOf s core).l1 = true ∧
    (∀ e ∈ (coreOf s core).l1, e.2.dirty = false → e.2.val = memByte s e.1) ∧
    (∀ e ∈ (coreOf s core).l1, e.2.dirty = true → placeOf s e.1 = .near) ∧
    (∀ e ∈ (coreOf s core).lines, e.2.agent = none ∧ e.2.shadow = none)) : Quiet s core :=
  ⟨h.1, h.2.1, h.2.2.1, h.2.2.2.1, h.2.2.2.2.1, h.2.2.2.2.2.1, h.2.2.2.2.2.2.1, h.2.2.2.2.2.2.2⟩
theorem memReady_of (s : State) (t : Team) (g : Grp) (n : Nat) (hq : Quiet s t.core)
    (h : (∀ i < 8, (regGet s (0x30800 + 32 * i + 24)).getLsbD 0 = false) ∧ entriesUsed (coreOf s t.core) + min n 1024 ≤ 1024 ∧
      (g.done = [] ∧ g.judged = false) ∧ (∀ x ∈ t.groups, x.park = none) ∧ (g.lanes.map (·.2)).Nodup) : MemReady s t g n :=
  ⟨hq, h.1, h.2.1, h.2.2.1, h.2.2.2.1, h.2.2.2.2⟩

/-- The same team with its group changed. -/
def withG (f : Grp → Grp) (t : Team) : Team := modGroup t 0 f
def atG (f : Grp → Grp) : State := at4 (withG f)

theorem met_LaneIntegerAndLogic : LaneReady s4 team4 grp4 [3, 1, 2] := ready4.1
theorem met_LaneBitFields : LaneReady s4 team4 grp4 [3, 1, 2] := ready4.1
theorem met_LaneMovesAndCompares : LaneReady s4 team4 grp4 [3, 1, 2] ∧ (7#6).toNat < 8 := ⟨ready4.1, by decide⟩
theorem met_LaneFloatArithmetic : LaneReady s4 team4 grp4 [3, 1, 2] ∧ f32 0x7FC00001 = .nan ∧ f32 0x3F800001 ≠ .nan ∧ 0 < 1 :=
  ⟨ready4.1, by decide +kernel⟩
theorem met_LaneSpecialFunctions : LaneReady s4 team4 grp4 [3, 1, 2] ∧ f32 0x7FC00001 = .nan ∧
    (∃ n d, f32 0xBF800000 = .fin true n d ∧ n ≠ 0) ∧ (∃ n d, f32 0x3E800000 = .fin false n d ∧ 4 * n % d = 0) ∧
    0 < (1#8).toNat ∧ (254#8).toNat < 255 ∧ f32 0xFF800000 ≠ .nan :=
  ⟨ready4.1, by decide +kernel, ⟨_, _, rfl, by decide +kernel⟩, ⟨_, _, rfl, by decide +kernel⟩, by decide +kernel⟩
theorem met_LaneConversions : LaneReady s4 team4 grp4 [3, 1, 2] := ready4.1
theorem met_LanePackedHalves : LaneReady s4 team4 grp4 [3, 1, 2] := ready4.1

/-- The group as a formation. -/
def form4 : Grp := { grp4 with formation := true }
def sForm : State := atG (fun g => { g with formation := true })
def tForm : Team := withG (fun g => { g with formation := true }) team4
theorem issuesForm : Issues sForm tForm form4 ∧ inFormation form4 = true := by unfold Issues; decide +kernel

theorem met_LaneExchangesComplete : LaneReady s4 team4 grp4 [3, 1, 2] ∧ inFormation grp4 = false ∧
    Issues sForm tForm form4 ∧ inFormation form4 = true := ⟨ready4.1, by decide, issuesForm⟩

/-- A team whose warp 0 has a thread filed in a bin. -/
def tBin : Team := { team4 with bins := [{ slice := 0, key := 0x20000, inside := none, filed := [(3, 0)] }],
                                groups := [{ grp4 with lanes := [(0, 0), (1, 1), (2, 2)] }] }
def gBin : Grp := { grp4 with lanes := [(0, 0), (1, 1), (2, 2)] }
def sBin : State := at4 (fun _ => tBin)
theorem met_LaneVotesAndReductions : LaneReady s4 team4 grp4 [3, 1, 2] ∧ grp4.formation = false ∧
    regrouped team4 grp4.warp = false ∧ grp4.split = [] ∧ (Issues sForm tForm form4 ∧ RegsPlain sForm tForm form4 [1]) ∧
    (Issues sBin tBin gBin ∧ RegsPlain sBin tBin gBin [1] ∧ regrouped tBin gBin.warp = true ∧ gBin.handler = false) := by
  refine ⟨ready4.1, ?_⟩
  unfold Issues RegsPlain; decide +kernel

theorem met_LaneBranches : LaneReady s4 team4 grp4 [31] ∧ inFormation grp4 = false ∧ grp4.gid = s4.cur.gid ∧
    (∀ x ∈ team4.groups, x.gid = grp4.gid → x = grp4) ∧ (∀ x ∈ team4.groups, x.gid < team4.nextGid) ∧
    (grp4.lanes.map (·.2)).Nodup ∧ [(1, 1), (2, 2)].Sublist grp4.lanes := by
  unfold LaneReady Issues RegsPlain; decide +kernel

/-- A stack of reconvergence records whose top is at the group's PC. -/
def sRcv (n : Nat) : Team → Team := fun t => modWarp t 0 (fun w => { w with stack := List.replicate n ⟨0x10000, 0xF⟩ })
/-- Only lane 1 of the group takes part, by its predicate p1. -/
def one4 (t : Team) : Team := modThread t 1 (fun th => { th with p := 3 })
def sOne (t : Team) : State := { at4 (fun _ => one4 t) with cur := { Cur.none with hdr := { stall := 4, guard := 1, scope := 0 } } }
/-- The group waits at the top record, and at no other; a second one waits at another's target. -/
def tWait : Team := withG (fun g => { g with wait := .rcv }) (sRcv 1 team4)
def tHeld : Team := { sRcv 1 team4 with groups := [{ grp4 with lanes := [(0, 0), (1, 1)], wait := .rcv },
  { Grp.fresh 1 0 0 [(2, 2), (3, 3)] 0x20000 with wait := .rcv }] }

theorem met_ReconvergenceComplete :
    (Issues (at4 (sRcv 15)) (sRcv 15 team4) grp4 ∧ inFormation grp4 = false ∧ laneSet (at4 (sRcv 15)) (sRcv 15 team4) grp4 ≠ [] ∧
      (warpOf (sRcv 15 team4) 0).stack.length < 16) ∧ (Issues sForm tForm form4 ∧ inFormation form4 = true) ∧
    (Issues (at4 (sRcv 16)) (sRcv 16 team4) grp4 ∧ 16 ≤ (warpOf (sRcv 16 team4) 0).stack.length) ∧
    (Issues s4 team4 grp4 ∧ laneSet s4 team4 grp4 ≠ [] ∧ (warpOf team4 0).stack = []) ∧
    (Issues (sOne (sRcv 1 team4)) (one4 (sRcv 1 team4)) grp4 ∧ (laneSet (sOne (sRcv 1 team4)) (one4 (sRcv 1 team4)) grp4).length = 1) ∧
    (Issues (at4 (sRcv 1)) (sRcv 1 team4) grp4 ∧ (warpOf (sRcv 1 team4) 0).stack = [⟨0x10000, 0xF⟩] ∧ grp4.pc = 0x10000 ∧
      laneSet (at4 (sRcv 1)) (sRcv 1 team4) grp4 = grp4.lanes ∧ grp4.lanes ≠ []) ∧
    ((warpOf tWait 0).stack = [⟨0x10000, 0xF⟩] ∧ (∀ i < 32, (0xF#32).getLsbD i = true → (threadOf tWait (32 * 0 + i)).live = true →
      ∃ g ∈ tWait.groups, waitsAtRcv g 0 0x10000 = true ∧ ∃ l ∈ g.lanes, l.1 = i) ∧
      (∃ g ∈ tWait.groups, waitsAtRcv g 0 0x10000 = true ∧ g.lanes ≠ []) ∧ 0 < tWait.warps.length) ∧
    ((0xF#32).getLsbD 2 = true ∧ (threadOf tHeld 2).live = true ∧ (threadOf tHeld 2).quit = false ∧
      ∀ g ∈ tHeld.groups, waitsAtRcv g 0 0x10000 = true → ∀ l ∈ g.lanes, l.1 ≠ 2) := by
  refine ⟨?_, ?_, ?_, ?_, ?_, ?_, ?_, ?_⟩ <;>
    first | decide +kernel | (unfold Issues; decide +kernel)

/-- No lane takes part: p1 is false and is the guard. -/
def s4g : State := { s4 with cur := { s4.cur with hdr := { stall := 4, guard := 1, scope := 0 } } }

/-- Every thread of home warp 0, or all but one, is held at REJOIN. -/
def tHome : Team := withG (fun g => { g with wait := .rejoin 0x20000 0 }) team4
def tPart : Team := { team4 with groups := [{ grp4 with lanes := [(0, 0), (1, 1), (2, 2)], wait := .rejoin 0x20000 0 },
  Grp.fresh 1 0 0 [(3, 3)] 0x10000] }

theorem met_LaneRegroupingComplete : (Issues s4 team4 grp4 ∧ laneSet s4 team4 grp4 ≠ [] ∧ grp4.formation = false) ∧
    (Issues sForm tForm form4 ∧ form4.formation = true) ∧ (Issues s4g team4 grp4 ∧ laneSet s4g team4 grp4 = []) ∧
    (∀ l ∈ laneSet s4 team4 grp4, l.2 / 32 = 0) ∧
    (lanes4 ≠ [] ∧ (team4.bins.filter (fun b => b.slice == grp4.slice)).length < 64) ∧
    (spawnLanes s4.cur.team (grp4.pc + 4 * (5#18).signExtend 56)
      (((voters s4 team4 grp4).filter (fun l => !grp4.done.any (fun m => m.tid == l.2))).map (fun l => (l.2, laneReg team4 l.2 0)))
        s4).1 = ((voters s4 team4 grp4).filter (fun l => !grp4.done.any (fun m => m.tid == l.2))).map (·.2) ∧
    (rejoined tHome 0 ≠ [] ∧ (∀ x ∈ rejoined tHome 0, x.2.1 = 0x20000 ∧ x.1.lanes ≠ []) ∧ (∀ i < 32,
      (threadOf tHome (32 * 0 + i)).live = true → ∃ x ∈ rejoined tHome 0, ∃ l ∈ x.1.lanes, l.2 = 32 * 0 + i)) ∧
    ((threadOf tPart 3).live = true ∧ (threadOf tPart 3).quit = false ∧ rejoined tPart 0 ≠ [] ∧
      ∀ x ∈ rejoined tPart 0, ∀ l ∈ x.1.lanes, l.2 ≠ 32 * 0 + 3) := by
  unfold Issues voters laneSet; decide +kernel

theorem met_UniformArithmetic : UniReady s4 team4 grp4 := uni4

/-- The group inside a handler. -/
def grpH : Grp := { grp4 with handler := true }
def tH : Team := withG (fun g => { g with handler := true }) team4
def sH : State := atG (fun g => { g with handler := true })
theorem uniH : UniReady sH tH grpH ∧ grpH.handler = true := by unfold UniReady Issues; decide +kernel

theorem met_UniformSpecialRegisters : (UniReady s4 team4 grp4 ∧ (23#6).toNat < 24 ∧ grp4.handler = false) ∧
    (UniReady sH tH grpH ∧ grpH.handler = true) ∧ 19 ≤ (19#6).toNat ∧ (22#6).toNat ≤ 22 :=
  ⟨⟨uni4, by decide⟩, uniH, by decide⟩

/-- A guard that is false for the uniform set. -/
theorem guardFalse : Issues s4g team4 grp4 ∧ grp4.formation = false ∧ grp4.masked = false ∧
    uFlag (warpOf team4 0) s4g.cur.hdr.guard.toNat = false := by unfold Issues; decide +kernel
theorem met_UniformJumps : UniReady s4 team4 grp4 ∧ Issues s4g team4 grp4 ∧ grp4.formation = false ∧ grp4.masked = false ∧
    uFlag (warpOf team4 0) s4g.cur.hdr.guard.toNat = false := ⟨uni4, guardFalse⟩

/-- The group is kept out of its home warp. -/
def gMask : Grp := { grp4 with masked := true }
def tMask : Team := withG (fun g => { g with masked := true }) team4
def sMask : State := atG (fun g => { g with masked := true })
theorem met_UniformGuardsAndPlaces : (Issues s4g team4 grp4 ∧ grp4.formation = false ∧ grp4.masked = false ∧
      uFlag (warpOf team4 0) s4g.cur.hdr.guard.toNat = false) ∧ UniReady s4 team4 grp4 ∧
    (Issues sForm tForm form4 ∧ form4.formation = true) ∧
    (Issues sMask tMask gMask ∧ gMask.formation = false ∧ gMask.masked = true ∧ gMask.handler = false) ∧
    (Issues sBin tBin gBin ∧ gBin.formation = false ∧ uFlag (warpOf tBin 0) 0 = true ∧ regrouped tBin 0 = true ∧
      gBin.handler = false ∧ gBin.masked = false) := by
  refine ⟨guardFalse, uni4, issuesForm, ?_, ?_⟩ <;> (unfold Issues; decide +kernel)

theorem ok_of {ε α : Type} (x : Except ε α) (h : x.toBool = true) : ∃ a, x = .ok a := by
  cases x with
  | ok a => exact ⟨a, rfl⟩
  | error e => cases h
theorem some_of {α : Type} (x : Option α) (h : x.isSome = true) : ∃ a, x = some a := Option.isSome_iff_exists.mp h

theorem met_Fences : UniReady s4 team4 grp4 ∧
    (let th := { Thread.fresh 0 true false 0 with clk := 0xFFFFFFFE }
     th.sat = false ∧ th.clk.toNat + 1 < 2 ^ 32 ∧ max th.clk.toNat th.seen.toNat + 1 < 2 ^ 32) ∧
    (1#2 ≠ 0) ∧ (let s := modCore s4 0 (fun c => { c with l1 := [(0x20000, { val := 7, dirty := true })] })
     Quiet s 0 ∧ ∃ e ∈ (coreOf s 0).l1, e.2.dirty = true) :=
  ⟨uni4, by decide, by decide, quiet_of _ _ (by decide +kernel), by decide +kernel⟩

/-- The threads of the group have arrived at barrier 15. -/
def tBar : Team := modThreads team4 [0, 1, 2, 3] (fun th => { th with arrived := [(15, 6)] })
/-- All four have arrived at barrier 3, and the group waits there. -/
def tFull : Team :=
  { team4 with bars := padSet freshBar team4.bars 3 { freshBar with arrived := [0, 1, 2, 3] },
               groups := [{ grp4 with wait := .bar 3 0 false }] }
def sFull : State := at4 (fun _ => tFull)
theorem met_Barriers : UniReady s4 team4 grp4 ∧ (15#6).toNat < 16 ∧ (7#6).toNat < 8 ∧
    (∀ i ∈ realThreads team4 grp4, i ∉ (barOf s4 team4 15).arrived ∧ 8192 * s4.cur.team + i ∉ (barOf s4 team4 23).arrived) ∧
    (UniReady (at4 (fun _ => tBar)) tBar grp4 ∧ realThreads tBar grp4 ≠ [] ∧ ∀ i ∈ realThreads tBar grp4,
      i ∉ (barOf (at4 (fun _ => tBar)) tBar 15).arrived ∧ tget (threadOf tBar i).arrived 15 = some 6) ∧
    (tget s4.teams 0 = some team4 ∧ (barOf s4 team4 3).arrived.length ≠ expected s4 0 3) ∧
    (tget sFull.teams 0 = some tFull ∧ 3 < 16 ∧ (tFull.groups.map (·.gid)).Nodup ∧
      (barOf sFull tFull 3).arrived.length = liveCount tFull ∧
      0 < (barOf sFull tFull 3).arrived.length + (barOf sFull tFull 3).gone ∧
      ∃ g ∈ tFull.groups, g.wait = .bar 3 (barOf sFull tFull 3).phase false) :=
  ⟨uni4, by decide, by decide, by decide +kernel, by unfold UniReady Issues; decide +kernel, by decide +kernel,
   by decide +kernel⟩

/-- A window of 4 KiB, and at 0x100 the descriptor of a queue of `cap` entries at 0x200. -/
def withQueue (cap : Byte) (t : Team) : Team :=
  { t with windows := [{ base := 0, size := 4096, swz := 0, chk := false }],
           scratch := [(0x101, 2), (0x104, cap), (0x110, 2)] }
/-- The registers of a wait-slot form. -/
def tSlot (a b : DWord) (cap : Byte := 32) : Team := withS [(5, a), (6, b)] (withQueue cap team4)
def sSlot (a b : DWord) (cap : Byte := 32) : State := at4 (fun _ => tSlot a b cap)
/-- Slot wc0 holds the condition that the phase of barrier 0 has reached a target. -/
def tPhase (target : Word) : Team :=
  modWarp team4 0 (fun w => { w with wc := [.phase false 0 target, .empty, .empty, .empty] })
def sPhase (target : Word) : State := at4 (fun _ => tPhase target)

theorem met_WaitSlots :
    (UniReady (sSlot 4 0) (tSlot 4 0) grp4 ∧ (sreg (tSlot 4 0) grp4 5).toNat % 4 = 0 ∧ (sreg (tSlot 4 0) grp4 6).getLsbD 32 = false) ∧
    (UniReady (sSlot 3 0) (tSlot 3 0) grp4 ∧ (sreg (tSlot 3 0) grp4 5).toNat % 4 ≠ 0) ∧
    (UniReady (sSlot 0xFE0 32) (tSlot 0xFE0 32) grp4 ∧ ((sreg (tSlot 0xFE0 32) grp4 5).truncate 32).toNat % 32 = 0 ∧
      (∃ p, resolve (sSlot 0xFE0 32) 0 ((sreg (tSlot 0xFE0 32) grp4 5).truncate 32) 32 = .ok p) ∧
      (∃ p, resolve (sSlot 0xFE0 32) 0 ((sreg (tSlot 0xFE0 32) grp4 5).truncate 32) 16 = .ok p) ∧
      ((sreg (tSlot 0xFE0 32) grp4 6).extractLsb' 0 6).toNat = 32) ∧
    (UniReady (sSlot 0x17 0x100000000) (tSlot 0x17 0x100000000) grp4 ∧
      (sreg (tSlot 0x17 0x100000000) grp4 6).getLsbD 32 = true ∧ (sreg (tSlot 0x17 0x100000000) grp4 5).getLsbD 4 = true ∧
      ((sreg (tSlot 0x17 0x100000000) grp4 5).extractLsb' 0 4).toNat < 8) ∧
    (UniReady (sPhase 0) (tPhase 0) grp4 ∧ grp4.wait = .none ∧ sreg (tPhase 0) grp4 5 = 0 ∧
      (∀ i < 4, (1#4).getLsbD i = true → (warpOf (tPhase 0) 0).wc.getD i .empty = .phase false 0 0) ∧
      tget (sPhase 0).teams 0 = some (tPhase 0)) ∧
    (UniReady (sPhase 1) (tPhase 1) grp4 ∧ grp4.wait = .none ∧ sreg (tPhase 1) grp4 5 = 0 ∧
      (∀ i < 4, (1#4).getLsbD i = true → (warpOf (tPhase 1) 0).wc.getD i .empty = .phase false 0 1) ∧
      tget (sPhase 1).teams 0 = some (tPhase 1)) ∧
    (∀ p ∈ [(0, true), (1, false)], Quiet (sPhase p.1) 0 ∧ (∀ i < 4, (1#4).getLsbD i = true →
      slotHolds (sPhase p.1) (tPhase p.1) grp4 ((warpOf (tPhase p.1) 0).wc.getD i .empty) = some p.2) ∧
      ∀ i < 4, (1#4).getLsbD i = false → (BitVec.ofNat 4 p.2.toNat).getLsbD i = false) := by
  refine ⟨?_, ?_, ?_, ?_, ?_, ?_, ?_⟩
  · unfold UniReady Issues; decide +kernel
  · unfold UniReady Issues; decide +kernel
  · refine ⟨?_, by decide +kernel, ok_of _ (by decide +kernel), ok_of _ (by decide +kernel), by decide +kernel⟩
    unfold UniReady Issues; decide +kernel
  · unfold UniReady Issues; decide +kernel
  · unfold UniReady Issues; decide +kernel
  · unfold UniReady Issues; decide +kernel
  · have q : Quiet (sPhase 0) 0 ∧ Quiet (sPhase 1) 0 := ⟨quiet_of _ _ (by decide +kernel), quiet_of _ _ (by decide +kernel)⟩
    have h : ∀ i < 4, (1#4).getLsbD i = true → slotHolds (sPhase 0) (tPhase 0) grp4 ((warpOf (tPhase 0) 0).wc.getD i .empty) = some true ∧
        slotHolds (sPhase 1) (tPhase 1) grp4 ((warpOf (tPhase 1) 0).wc.getD i .empty) = some false := by
      intro i hi hb
      have : i = 0 := by revert i; decide
      subst this
      exact ⟨rfl, rfl⟩
    intro p hp
    simp only [List.mem_cons, List.not_mem_nil, or_false] at hp
    rcases hp with rfl | rfl
    · exact ⟨q.1, fun i hi hb => (h i hi hb).1, by decide⟩
    · exact ⟨q.2, fun i hi hb => (h i hi hb).2, by decide⟩

/-- Port q0 is bound to the queue at 0x100, which holds `n` entries. -/
def queue4 (n : Nat) : Queue :=
  { base := 0x200, cap := 32, pkind := false, ckind := false, head := 0, tail := BitVec.ofNat 32 n,
    clks := List.replicate n 0, poppers := [], pushers := [] }
def tPort : Team := { withQueue 32 team4 with ports := [some 0x100, none, none, none, none, none, none, none] }
def sPort (n : Nat) : State := { at4 (fun _ => tPort) with queues := [(0x100, queue4 n)] }

def sQ (cap : Byte) : State := setTeam (sSlot 0x100 0 cap) 0 (tSlot 0x100 0 cap)

theorem met_QueuePorts :
    (∀ cap, cap = 32 ∨ cap = 16 → UniReady (sSlot 0x100 0 cap) (tSlot 0x100 0 cap) grp4 ∧
      ((boundKey (tSlot 0x100 0 cap) 7).isSome && portWaits (tSlot 0x100 0 cap) 7) = false ∧
      ((sreg (tSlot 0x100 0 cap) grp4 5).truncate 32).toNat % 32 = 0 ∧
      resolve (sSlot 0x100 0 cap) 0 0x100 32 = .ok { team := 0, pos := 0x100, chk := false } ∧
      present (sQ cap) { team := 0, pos := 0x100, chk := false } 32 = true ∧
      readDescriptor (sQ cap) 0 0x100 = some ({ queue4 0 with cap := cap.toNat }, 2) ∧
      currentQueue (sQ cap) 0 0x100 = some (0x100, { queue4 0 with cap := cap.toNat }) ∧ isBound (sQ cap) 0x100 = false ∧
      descriptorUsable (sQ cap) 0 { queue4 0 with cap := cap.toNat } 2 = (cap == 32)) ∧
    (UniReady (sPort 4) tPort grp4 ∧ boundKey tPort 0 = some 0x100 ∧ ((boundKey tPort 0).isSome && portWaits tPort 0) = false ∧
      queueOf (sPort 4) 0x100 = some (queue4 4) ∧ boundKey tPort 1 = none) := by
  refine ⟨fun cap h => ?_, by unfold UniReady Issues; decide +kernel⟩
  rcases h with rfl | rfl
  · refine ⟨?_, by decide +kernel, by decide +kernel, by decide +kernel, by decide +kernel, by decide +kernel, by decide +kernel,
      by decide +kernel, by decide +kernel⟩
    unfold UniReady Issues; decide +kernel
  · refine ⟨?_, by decide +kernel, by decide +kernel, by decide +kernel, by decide +kernel, by decide +kernel, by decide +kernel,
      by decide +kernel, by decide +kernel⟩
    unfold UniReady Issues; decide +kernel

/-- Home warps 0 and 4 of one slice, paired, warp 0 with the token or without it. -/
def tPair (token : Bool) : Team :=
  { team4 with warps := [{ Warp.fresh true 0 0 with partner := some 4, token := token }, Warp.fresh false 0 0, Warp.fresh false 0 0,
                         Warp.fresh false 0 0, { Warp.fresh true 0 0 with partner := some 0, token := !token }] }
def sPair (token : Bool) : State := at4 (fun _ => tPair token)
/-- The team holds its extended block. -/
def tExt : Team := giveBlocks team4 [0]
def sExt : State := at4 (fun _ => tExt)
theorem uniExt : UniReady sExt tExt grp4 ∧ quadsNeeding tExt 0 = [] := by unfold UniReady Issues; decide +kernel

theorem met_BlocksAndToken : (UniReady sExt tExt grp4 ∧ quadsNeeding tExt 0 = []) ∧
    (UniReady s4 team4 grp4 ∧ quadsNeeding team4 0 ≠ [] ∧ myTurn (regxQueue s4 team4.core 0) (0, 0) = true ∧
      blocksHeld s4 team4.core 0 + (quadsNeeding team4 0).length ≤ 128 ∧ pairedWith team4 0 = none) ∧
    (∀ token ∈ [true, false], UniReady (sPair token) (tPair token) grp4 ∧ pairedWith (tPair token) 0 = some 4 ∧
      (warpOf (tPair token) 0).token = token) ∧
    (UniReady (sSlot 4 0) (tSlot 4 0) grp4 ∧ ((sreg (tSlot 4 0) grp4 5).extractLsb' 0 7).toNat = 4) ∧
    (let t := modWarp (tPair true) 0 (fun w => { w with partner := none })
     0 ≠ 4 ∧ (warpOf t 4).partner = some 0 ∧ (warpOf t 0).partner ≠ some 4) := by
  refine ⟨uniExt, ?_, ?_, ?_, by decide +kernel⟩ <;> (unfold UniReady Issues; decide +kernel)

/-- Context 0 has a handler at 0x20000 and trap records at 0x30000. -/
def trapCtx : Ctx := { Ctx.reset with trapvec := 0x20000, traprec := 0x30000 }
def withTrap (s : State) : State := { s with ctxs := padSet Ctx.reset s.ctxs 0 trapCtx }
theorem met_TrapEntry : tget (withTrap s4).teams 0 = some team4 ∧ groupOf team4 grp4.gid = some grp4 ∧ MemoryCanonical (withTrap s4) ∧
    (ctxOf (withTrap s4) 0).trapvec ≠ 0 ∧ (ctxOf (withTrap s4) 0).traprec ≠ 0 ∧
    (∃ l, translate (withTrap s4) 0 0 (recordPlace (withTrap s4) team4 grp4.lanes) .write true = .ok l) ∧
    placeOf (withTrap s4) (recordPlace (withTrap s4) team4 grp4.lanes).toNat = .near ∧
    (∃ x, nextTrap { team4 with
      groups := [{ grp4 with park := some { code := 0x40, addr := 0, info := 0, flags := 0, order := 0 } }] } = some x) :=
  ⟨by decide +kernel, by decide +kernel, by unfold MemoryCanonical; decide +kernel, by decide +kernel, by decide +kernel,
   ok_of _ (by decide +kernel), by decide +kernel, some_of _ (by decide +kernel)⟩

theorem met_TrapTaken : UniReady (withTrap s4) team4 grp4 ∧ (∀ x ∈ team4.groups, x.park = none ∧ x.handler = false) ∧
    (withTrap s4).cur.dry = false ∧ (∀ b ∈ team4.bins, b.inside = none) ∧
    grp4.lanes ≠ [] ∧ (∀ l ∈ grp4.lanes, l.2 / 32 = grp4.warp) ∧ (ctxOf (withTrap s4) 0).trapvec ≠ 0 ∧
    (ctxOf (withTrap s4) 0).traprec ≠ 0 ∧
    (∃ l, translate (withTrap s4) 0 0 (recordPlace (withTrap s4) team4 (homeLanes (grp4.lanes.map (·.2)))) .write true = .ok l) :=
  ⟨by unfold UniReady Issues; decide +kernel, by decide +kernel, by decide, by decide, by decide, by decide, by decide +kernel,
   by decide +kernel, ok_of _ (by decide +kernel)⟩

/-- A handler of a TRAP, its record at 0x30000, with `x` in s5. -/
def grpR : Grp := { grp4 with handler := true, code := 0x40, record := 0x30000 }
def tR (x : DWord) : Team := withS [(5, x)] { team4 with groups := [grpR] }
def sR (x : DWord) : State := withTrap (at4 (fun _ => tR x))
theorem met_ReturnFromTrap :
    (UniReady (sR 6) (tR 6) grpR ∧ grpR.handler = true ∧ (sreg (tR 6) grpR 5).toNat % 4 ≠ 3 ∧ (sreg (tR 6) grpR 5).toNat < 8 ∧
      ∃ l, translate (sR 6) 0 0 grpR.record .read true = .ok l) ∧
    (UniReady (sSlot 6 0) (tSlot 6 0) grp4 ∧ grp4.handler = false ∧ (sreg (tSlot 6 0) grp4 5).toNat = 6) ∧
    (UniReady (sSlot 8 0) (tSlot 8 0) grp4 ∧ 8 ≤ (sreg (tSlot 8 0) grp4 5).toNat) ∧
    (UniReady (sSlot 3 0) (tSlot 3 0) grp4 ∧ (sreg (tSlot 3 0) grp4 5).toNat % 4 = 3) ∧
    (tget (sR 6).teams (sR 6).cur.team = some (tR 6) ∧ groupOf (tR 6) grpR.gid = some grpR ∧ 1 ≤ 1 ∧ (sR 6).marks = [] ∧
      (∀ x ∈ (tR 6).groups, x.park = none) ∧
      (∀ x ∈ (tR 6).groups, x.handler = true → x.warp = grpR.warp → x.record = grpR.record → x = grpR)) := by
  refine ⟨⟨?_, by decide, by decide +kernel, by decide +kernel, ok_of _ (by decide +kernel)⟩, ?_, ?_, ?_, by decide +kernel⟩ <;>
    (unfold UniReady Issues; decide +kernel)

theorem met_MissingBlocks : Issues s4 team4 grp4 ∧ (∀ x ∈ team4.groups, x.gid < team4.nextGid ∧ (x.gid = grp4.gid → x = grp4)) ∧
    grp4.gid = s4.cur.gid ∧ (grp4.lanes.map (·.2)).Nodup ∧ laneSet s4 team4 grp4 = grp4.lanes ∧ grp4.lanes ≠ [] ∧
    32 ≤ (32#6).toNat ∧ portNamed team4 63 = none ∧ (∀ l ∈ grp4.lanes, hasExt team4 l.2 = false) ∧
    (∀ l ∈ grp4.lanes, (threadOf team4 l.2).live = true) ∧ extFaults s4 team4 (laneSet s4 team4 grp4) [1] = [] := by
  unfold Issues laneSet; decide +kernel

theorem met_PortOperands : ∀ n ∈ [4, 3], Issues (sPort n) tPort grp4 ∧ grp4.gid = (sPort n).cur.gid ∧ grp4.pstep = 0 ∧
    RegsPlain (sPort n) tPort grp4 [3, 2] ∧ portNamed tPort (56#6).toNat = some 0 ∧ boundKey tPort 0 = some 0x100 ∧
    queueOf (sPort n) 0x100 = some (queue4 n) ∧ (grp4.lanes.map (·.2)).Nodup ∧ voters (sPort n) tPort grp4 ≠ [] ∧
    canPop (queue4 n) (0, 0) (voters (sPort n) tPort grp4).length = (n == 4) ∧
    (∀ i < 4, ∀ x, resolve (sPort n) (0x100 / 2 ^ 32) (entryOff (queue4 n) ((queue4 n).head.toNat + i)) 4 = .ok x →
      scratchPoisoned (sPort n) x.team x.pos 4 = false) ∧
    canPush (queue4 n) (0, 0) (voters (sPort n) tPort grp4).length = true := by
  have h0 : ∀ n ∈ [4, 3], ∀ i < 4, (resolve (sPort n) (0x100 / 2 ^ 32) (entryOff (queue4 n) ((queue4 n).head.toNat + i)) 4).toOption.map
      (fun x => scratchPoisoned (sPort n) x.team x.pos 4) = some false := by decide +kernel
  have h : ∀ n ∈ [4, 3], ∀ i < 4, ∀ x, resolve (sPort n) (0x100 / 2 ^ 32) (entryOff (queue4 n) ((queue4 n).head.toNat + i)) 4 = .ok x →
      scratchPoisoned (sPort n) x.team x.pos 4 = false := fun n hn i hi x hx => by
    have := h0 n hn i hi
    rw [hx] at this
    exact Option.some.inj this
  intro n hn
  have h1 := h n hn
  simp only [List.mem_cons, List.not_mem_nil, or_false] at hn
  rcases hn with rfl | rfl <;> (refine ⟨?_, ?_, ?_, ?_, ?_, ?_, ?_, ?_, ?_, ?_, h1, ?_⟩) <;>
    (first | decide +kernel | (unfold Issues; decide +kernel) | (unfold RegsPlain; decide +kernel))

/-- v1 of lane l is 0x20000 + 16 l (a global address) and v2 is 16 l (a scratchpad offset); v4 to v7 hold 4 words. -/
def tMem : Team :=
  withV (lanes4.flatMap (fun l => [(l.2, 1, BitVec.ofNat 32 (0x20000 + 16 * l.1)), (l.2, 2, BitVec.ofNat 32 (16 * l.1)),
    (l.2, 4, 0x11), (l.2, 5, 0x22), (l.2, 6, 0x33), (l.2, 7, 0x44)])) (withQueue 32 team4)
/-- Near memory holds 1, 2, 3, … from 0x20000 on. -/
def sMem : State := memWrite (at4 (fun _ => tMem)) 0x20000 ((List.range 128).map (fun i => BitVec.ofNat 8 (i + 1)))

theorem memReady4 (n : Nat) (h : n ≤ 1024 := by decide) : MemReady sMem tMem grp4 n := by
  have h0 : entriesUsed (coreOf sMem tMem.core) = 0 := by decide +kernel
  exact memReady_of _ _ _ _ (quiet_of _ _ (by decide +kernel)) ⟨by decide +kernel, by omega, by decide, by decide +kernel, by decide⟩
/-- The bytes at 0x20000 to 0x20003 were 0 once, and the core has the first of them as it is now. -/
def sPast : State := { sMem with past := (List.range 4).map (fun i => (0x20000 + i, [(0, 0)])), writes := 1 }
theorem met_LaneLoads : LaneReady sMem tMem grp4 (1 :: tupleRegs 4 4) ∧ (4#6).toNat + 4 ≤ 64 ∧ MemReady sMem tMem grp4 4 ∧
    laneSet sMem tMem grp4 = lanes4 ∧ (∀ w ∈ [1, 2, 4, 8, 16], ∀ l ∈ laneSet sMem tMem grp4,
      plainAt sMem tMem grp4 .read w (globalAddr tMem 1 0 l) = some (0x20000 + 16 * l.1)) ∧
    (∀ l ∈ laneSet sMem tMem grp4, plainAt sMem tMem grp4 .read 4 ((globalAddr tMem 1 0 l &&& ~~~0x3E0) + BitVec.ofNat 64 (32 * l.1)) =
      some (0x20000 + 16 * l.1 % 32 + 32 * l.1)) ∧
    (let mq : Mq := { order := 0, scope := 2, use := 4, cache := 0, quantum := 1 }
     LaneReady sPast tMem grp4 (1 :: tupleRegs 4 1) ∧ MemReady sPast tMem grp4 4 ∧ (qualOf (some mq) .read).mayLag .read = true ∧
     (qualOf (some mq) .read).use = 4 ∧ (qualOf none .read).mayLag .read = false ∧
     (∀ l ∈ laneSet sPast tMem grp4, plainAt sPast tMem grp4 .read 4 (globalAddr tMem 1 0 l) = some (0x20000 + 16 * l.1)) ∧
     (coreOf sPast tMem.core).l1 = [] ∧ (lagging sPast 0 (qualOf (some mq) .read) (threadOf tMem 0) 0x20000 4).length = 2 ∧
     ∀ x ∈ cget [] sPast.past 0x20000, x.1 < sPast.writes) := by
  have h0 : entriesUsed (coreOf sPast tMem.core) = 0 := by decide +kernel
  refine ⟨by unfold LaneReady Issues RegsPlain; decide +kernel, by decide, memReady4 4, by unfold laneSet; decide +kernel, ?_, ?_,
    by unfold LaneReady Issues RegsPlain; decide +kernel, memReady_of _ _ _ _ (quiet_of _ _ (by decide +kernel))
      ⟨by decide +kernel, by omega, by decide, by decide +kernel, by decide⟩, ?_⟩ <;>
    (unfold laneSet; decide +kernel)

theorem met_LaneStores : LaneReady sMem tMem grp4 (1 :: tupleRegs 4 4) ∧ (4#6).toNat + 4 ≤ 64 ∧ MemReady sMem tMem grp4 4 ∧
    (∀ w ∈ [1, 2, 4, 8, 16], ∀ l ∈ voters sMem tMem grp4,
      plainAt sMem tMem grp4 .write w (globalAddr tMem 1 0 l) = some (0x20000 + 16 * l.1)) := by
  refine ⟨by unfold LaneReady Issues RegsPlain; decide +kernel, by decide, memReady4 4, ?_⟩
  unfold voters laneSet; decide +kernel

theorem met_LaneAtomics : LaneReady sMem tMem grp4 (1 :: tupleRegs 4 2) ∧ (4#6).toNat + 2 ≤ 64 ∧ MemReady sMem tMem grp4 4 ∧
    (∀ l ∈ voters sMem tMem grp4, plainAt sMem tMem grp4 .rmw 4 (globalAddr tMem 1 0 l) = some (0x20000 + 16 * l.1)) := by
  refine ⟨by unfold LaneReady Issues RegsPlain; decide +kernel, by decide, memReady4 4, ?_⟩
  unfold voters laneSet; decide +kernel

theorem scratch_of (s : State) (t : Team) (h : s.teams = [(0, t)]) (hw : Memory.wf t.scratch = true) : ScratchCanonical s := by
  intro k u hk
  rw [h] at hk
  by_cases h0 : 0 = k
  · simp [tget, h0] at hk
    rw [← hk]; exact hw
  · simp [tget, h0] at hk

theorem met_ScratchpadAccess : LaneReady sMem tMem grp4 (2 :: tupleRegs 4 4) ∧ (4#6).toNat + 4 ≤ 64 ∧ MemReady sMem tMem grp4 0 ∧
    ScratchCanonical sMem ∧ (∀ w ∈ [2, 4, 8, 16], ∀ l ∈ laneSet sMem tMem grp4,
      spotAt sMem w (scratchOff tMem 2 0 l) = some (0, 16 * l.1)) := by
  refine ⟨by unfold LaneReady Issues RegsPlain; decide +kernel, by decide, memReady4 0,
    scratch_of _ tMem (by decide +kernel) (by decide +kernel), ?_⟩
  unfold laneSet; decide +kernel

theorem met_WaitConditions : LaneReady sMem tMem grp4 [4, 1] ∧ MemReady sMem tMem grp4 0 ∧ grp4.wait = .none ∧
    (∀ l ∈ voters sMem tMem grp4, plainAt sMem tMem grp4 .read 4 (globalAddr tMem 1 0 l) = some (0x20000 + 16 * l.1)) ∧
    (∀ l ∈ voters sMem tMem grp4, testHolds 1 (memWord sMem (0x20000 + 16 * l.1)) (vreg tMem 4 l) = true ∧
      testHolds 0 (memWord sMem (0x20000 + 16 * l.1)) (vreg tMem 4 l) = false) := by
  refine ⟨by unfold LaneReady Issues RegsPlain; decide +kernel, memReady4 0, by decide, ?_, ?_⟩ <;>
    (unfold voters laneSet; decide +kernel)

/-- s5 = 0x20010, s6 = n. -/
def tUm (n : DWord) : Team := withS [(5, 0x20010), (6, n)] tMem
def sUm (n : DWord) : State := memWrite (at4 (fun _ => tUm n)) 0x20000 ((List.range 128).map (fun i => BitVec.ofNat 8 (i + 1)))
theorem memReadyU : MemReady (sUm 0) (tUm 0) grp4 1 := memReady_of _ _ _ _ (quiet_of _ _ (by decide +kernel)) (by decide +kernel)

theorem met_UniformMemory : UniReady (sUm 0) (tUm 0) grp4 ∧ MemReady (sUm 0) (tUm 0) grp4 1 ∧ representative (tUm 0) grp4 ≠ none ∧
    (∀ n ∈ [4, 8, 16], ∀ k ∈ [Kind.read, .write], plainAt (sUm 0) (tUm 0) grp4 k n (sreg (tUm 0) grp4 5 + sreg (tUm 0) grp4 6) =
      some 0x20010) ∧
    plainAt (sUm 0) (tUm 0) grp4 .rmw 8 (sreg (tUm 0) grp4 5 + sreg (tUm 0) grp4 6) = some 0x20010 := by
  refine ⟨by unfold UniReady Issues; decide +kernel, memReadyU, by decide +kernel, by decide +kernel, by decide +kernel⟩

/-- s5 = a, s6 = n. -/
def tRange (a n : DWord) : Team := withS [(5, a), (6, n)] tMem
def sRange (a n : DWord) : State := at4 (fun _ => tRange a n)
theorem met_RangesAndResidency :
    (UniReady (sRange 0x20000 0) (tRange 0x20000 0) grp4 ∧ sreg (tRange 0x20000 0) grp4 6 = 0) ∧
    (UniReady (sRange 0x20000 0x1000000080) (tRange 0x20000 0x1000000080) grp4 ∧
      2 ^ 36 < (sreg (tRange 0x20000 0x1000000080) grp4 6).toNat) ∧
    (UniReady (sRange 0x20000 256) (tRange 0x20000 256) grp4 ∧ 0 < (sreg (tRange 0x20000 256) grp4 6).toNat ∧
      (sreg (tRange 0x20000 256) grp4 6).toNat ≤ 2 ^ 36 ∧ (∀ k ∈ [Kind.read, .write],
        (segments (sRange 0x20000 256) (tRange 0x20000 256) false k 0x20000 256 2).1 = [] ∧
        ∀ x ∈ (segments (sRange 0x20000 256) (tRange 0x20000 256) false k 0x20000 256 2).2, x.checked = false) ∧
      (sreg (tRange 0x20000 256) grp4 5).toNat % 128 = 0 ∧ (sreg (tRange 0x20000 256) grp4 6).toNat % 128 = 0 ∧
      (representative (tRange 0x20000 256) grp4).isSome = true) ∧
    (UniReady (sRange 0x20040 256) (tRange 0x20040 256) grp4 ∧ (sreg (tRange 0x20040 256) grp4 5).toNat % 128 ≠ 0 ∧
      (segments (sRange 0x20040 256) (tRange 0x20040 256) false .read 0x20040 256 2).1 = []) ∧
    (UniReady (sRange 0x2000000000 256) (tRange 0x2000000000 256) grp4 ∧
      (firstPark (segments (sRange 0x2000000000 256) (tRange 0x2000000000 256) false .read 0x2000000000 256 2).1).isSome = true) ∧
    (∃ x ∈ (segments (sRange 0x20000 256) (tRange 0x20000 256) false .read 0x20000 256 2).2, inSegment x 0x20000 = true) ∧
    (UniReady (sRange 5 1) (tRange 5 1) grp4 ∧ (sreg (tRange 5 1) grp4 6).getLsbD 0 = true ∧
      (sreg (tRange 5 0) grp4 6).getLsbD 0 = false) := by
  refine ⟨?_, ?_, ⟨?_, ?_⟩, ?_, ?_, ?_, ?_⟩
  · unfold UniReady Issues; decide +kernel
  · unfold UniReady Issues; decide +kernel
  · unfold UniReady Issues; decide +kernel
  · decide +kernel
  · unfold UniReady Issues; decide +kernel
  · unfold UniReady Issues; decide +kernel
  · decide +kernel
  · unfold UniReady Issues; decide +kernel

/-! Class 2 holds 4-bit numbers in blocks of 32 with BF16 scales and two side entries (R47, R81); handle h3 names a tensor of it
with codes at 0x21000, scales at 0x22000 and side entries at 0x23000. -/

def fmt4 : Word := 0x002C014A
def cbt4 : List (BitVec 128) := padSet 0 (List.replicate 64 0) 2 (BitVec.ofNat 128 (0x002C014A + 32 * 2 ^ 48 + 2 * 2 ^ 56 + 2 ^ 106))
def handle4 : BitVec 512 :=
  BitVec.ofNat 512 (0x21000 + 2 * 2 ^ 56 + 2 ^ 62 + 2 ^ 63 + 0x22000 * 2 ^ 128 + 0x23000 * 2 ^ 192 + 7 * 2 ^ 320)
def tTen : Team :=
  modWarp { withV (lanes4.flatMap (fun l => [(l.2, 1, BitVec.ofNat 32 (4 * l.1)), (l.2, 4, 0x3F800000), (l.2, 5, 0x40000000),
      (l.2, 6, 0xC0400000), (l.2, 7, 0x41A00000), (l.2, 8, BitVec.ofNat 32 (4 * l.1))])) team4 with cbt := cbt4 } 0
    (fun w => { w with h := padSet 0 w.h 3 handle4 })
def sTen : State := at4 (fun _ => tTen)

theorem memReadyT : MemReady sTen tTen grp4 1024 :=
  memReady_of _ _ _ _ (quiet_of _ _ (by decide +kernel)) (by decide +kernel)
theorem handlesFit4 : HandlesFit sTen tTen grp4 3 (fun e => e.kind == 0) ∧ HandlesFit sTen tTen grp4 3 (fun _ => true) ∧
    HandlesFit sTen tTen grp4 3 (fun e => e.kind != 1) := by unfold HandlesFit laneSet; decide +kernel

/-- The norm monitor of warp 0 over or under its limit, and a class seen by the last MMA. -/
def tMon (nmon : Word) : Team := modWarp tTen 0 (fun w => { w with nmon := nmon, nema := 0x3F800000, lastClass := some 2 })
def sMon (nmon : Word) : State := at4 (fun _ => tMon nmon)
theorem met_WarpTensorState : UniReady sTen tTen grp4 ∧ (entryOf tTen (Handle.cls ((warpOf tTen 0).h.getD 3 0))).used = true ∧
    (entryOf tTen (Handle.cls ((warpOf tTen 0).h.getD 4 0))).used = false ∧
    UniReady (sMon 0x40000000) (tMon 0x40000000) grp4 ∧ UniReady (sMon 0x3F000000) (tMon 0x3F000000) grp4 ∧
    ((f32 (warpOf (tMon 0x40000000) 0).nmon).cmp ((f32 (warpOf (tMon 0x40000000) 0).nema).mul (.fin false (2 ^ 0) 1)) ==
      .greater) = true ∧
    ((f32 (warpOf (tMon 0x3F000000) 0).nmon).cmp ((f32 (warpOf (tMon 0x3F000000) 0).nema).mul (.fin false (2 ^ 0) 1)) ==
      .greater) = false ∧
    (numcfg (sMon 0x40000000) 0).testBit 3 = false ∧ (warpOf (tMon 0x40000000) 0).lastClass = some 2 := by
  unfold UniReady Issues; decide +kernel

theorem met_NarrowFormats : nfmtValid fmt4 = true ∧ (nfmtOf fmt4).ew ≠ 0 ∧ (nfmtOf fmt4).sub = true ∧ (nfmtOf fmt4).sg = true ∧
    (nfmtOf fmt4).spec ≠ 2 ∧ (nfmtOf fmt4).width = 4 ∧
    nfmtValid 0x00000058 = true ∧ (nfmtOf 0x00000058).ew = 0 ∧ (nfmtOf 0x00000058).sg = true ∧
    nfmtValid 0x00000040 = true ∧ (nfmtOf 0x00000040).mw = 0 ∧
    nfmtValid 0x00000018 = true ∧ (nfmtOf 0x00000018).sg = false := by decide +kernel

theorem met_BlockScales : nfmtValid fmt4 = true ∧ (nfmtOf fmt4).scale = 1 ∧ nfmtValid 0x0034014A = true ∧
    (nfmtOf 0x0034014A).scale = 2 ∧ 0 < 20 ∧ chooseScale (nfmtOf fmt4) (.fin false 20 1) 0 = 0x4080 := by decide +kernel

theorem met_TensorConversions : LaneReady sTen tTen grp4 (tupleRegs 8 2 ++ tupleRegs 4 4) ∧ (8#6).toNat + 2 ≤ 64 ∧
    (4#6).toNat + 4 ≤ 64 ∧ HandlesFit sTen tTen grp4 3 (fun e => e.kind == 0) ∧ HandlesFit sTen tTen grp4 3 (fun _ => true) ∧
    HandlesFit sTen tTen grp4 3 (fun e => e.kind != 1) ∧ (∀ l ∈ voters sTen tTen grp4, (vreg tTen 8 l).toNat % 4 = 0) ∧
    Issues sTen tTen grp4 ∧ (∀ x ∈ tTen.groups, x.park = none) ∧ numcfg sTen 0 = 0 ∧ MemoryCanonical sTen ∧ sTen.poison = [] ∧
    numcfg (regSet sTen 0x80400 0x50001) 0 / 64 * 64 % 2 ^ 56 ≠ 0 ∧
    placeOf (regSet sTen 0x80400 0x50001) (numcfg (regSet sTen 0x80400 0x50001) 0 / 64 * 64 % 2 ^ 56) = .near := by
  refine ⟨?_, by decide, by decide, handlesFit4.1, handlesFit4.2.1, handlesFit4.2.2, ?_, ?_, ?_⟩
  · unfold LaneReady Issues RegsPlain; decide +kernel
  · unfold voters laneSet; decide +kernel
  · unfold Issues; decide +kernel
  · unfold MemoryCanonical; decide +kernel

theorem met_TensorMemory : LaneReady sTen tTen grp4 (1 :: tupleRegs 4 4) ∧ LaneReady sTen tTen grp4 [1, 4] ∧ (4#6).toNat + 2 ^ 2 ≤ 64 ∧
    MemReady sTen tTen grp4 1024 ∧ numcfg sTen 0 = 0 ∧ HandlesFit sTen tTen grp4 3 (fun _ => true) ∧
    HandlesFit sTen tTen grp4 3 (fun e => e.kind == 0) ∧ (∀ l ∈ laneSet sTen tTen grp4, (vreg tTen 1 l).toNat % 4 = 0) ∧
    (∀ l ∈ laneSet sTen tTen grp4, ∀ x ∈ cldWants tTen 3 4 (vreg tTen 1 l).toNat l,
      (plainRun sTen tTen grp4 .read x.align x.w x.addr).isSome = true) ∧
    (∀ l ∈ voters sTen tTen grp4, ∀ x ∈ scaleWant l 10 (handleOf tTen l.2 3) (laneEntry tTen 3 l).elem
      ((vreg tTen 1 l).toNat / (laneEntry tTen 3 l).block), (plainRun sTen tTen grp4 .read x.align x.w x.addr).isSome = true) ∧
    (∀ l ∈ voters sTen tTen grp4, ∀ x ∈ codeChanges (handleOf tTen l.2 3) 4 (vreg tTen 1 l).toNat 4 0,
      (plainRun sTen tTen grp4 .write x.align x.data.length x.addr).isSome = true) := by
  refine ⟨?_, ?_, by decide, memReadyT, by decide +kernel, handlesFit4.2.1, handlesFit4.1, ?_, ?_, ?_, ?_⟩
  · unfold LaneReady Issues RegsPlain; decide +kernel
  · unfold LaneReady Issues RegsPlain; decide +kernel
  · unfold laneSet; decide +kernel
  · unfold laneSet; decide +kernel
  · unfold voters laneSet; decide +kernel
  · unfold voters laneSet; decide +kernel


/-! ### The sequence area (R187 to R209)

At 0x40000 stands an area of 4 sequences and 8 pages of 4 KiB. Sequence 1 has one layer, one head, HB 16, 8-bit codes, two
page slots, 4 snapshot slots and a state of 64 bytes; its page slot 0 names page 3, at 0x60000. Sequence 2 is not valid. -/

/-- The entry of sequence 1: LEN, VALID and SNAPK as given. -/
def entry4 (len snapk : Nat) : Nat :=
  1 + len * 2 ^ 128 + 16 * 2 ^ 176 + 8 * 2 ^ 192 + 1 * 2 ^ 208 + snapk * 2 ^ 224 + 4 * 2 ^ 232 + 4 * 2 ^ 240 + 2 * 2 ^ 288 +
    0x44000 * 2 ^ 320 + 0x45000 * 2 ^ 384
def withSeq (len snapk : Nat) (s : State) : State :=
  [(0x40010, 8, 0x41000), (0x40018, 4, 4), (0x4001C, 4, 8), (0x40020, 8, 0x42000), (0x40028, 8, 0x43000), (0x40030, 4, 8),
   (0x40034, 4, 1), (0x40038, 4, 1), (0x41040, 64, entry4 len snapk), (0x42030, 16, 0x60000 + 2 ^ 80 + 2 ^ 117),
   (0x43000, 4, 5), (0x44000, 4, 2 ^ 31 + 3), (0x42050, 16, 0x62000), (0x60000, 8, 0x0807060504030201)].foldl
    (fun s x => memPut s x.1 x.2.1 x.2.2) (regSet s 0x30 0x40000)
/-- v1 is lane l's token, v2 names sequence 1, v3 is 16 l, v4 to v7 are data; s5 = a, s6 = b; warp 0 is bound to layer 0 of
sequence 1. -/
def tSeq (a b : DWord) : Team :=
  modWarp (withS [(5, a), (6, b)] (withV (lanes4.flatMap (fun l => [(l.2, 1, BitVec.ofNat 32 l.1), (l.2, 2, 1),
    (l.2, 3, BitVec.ofNat 32 (16 * l.1)), (l.2, 4, 0x11), (l.2, 5, 0x22), (l.2, 6, 0x33), (l.2, 7, 0x44)])) (withQueue 32 team4)))
    0 (fun w => { w with ssbind := some 1 })
def sSeq (len snapk : Nat) (a b : DWord) : State := withSeq len snapk (at4 (fun _ => tSeq a b))
/-- A chunk of the working state per lane. -/
def chunk4 (len : Nat) (l : Nat × Nat) : Chunk := { tid := l.2, e := entry4 len 2, layer := 0, off := 16 * l.1 }

theorem memoryCanonicalS : MemoryCanonical (sSeq 3 2 0 0) ∧ (sSeq 3 2 0 0).poison = [] := by
  unfold MemoryCanonical; decide +kernel

theorem met_KvReads :
    (LaneReady (sSeq 3 2 0 0) (tSeq 0 0) grp4 (tupleRegs 1 2 ++ tupleRegs 4 4) ∧ (1#6).toNat + 2 ≤ 64 ∧ (4#6).toNat + 4 ≤ 64 ∧
      (sSeq 3 2 0 0).poison = [] ∧ (grp4.lanes.map (·.2)).Nodup) ∧
    (LaneReady (sSeq 3 2 0 0) (tSeq 0 0) grp4 (3 :: tupleRegs 4 4) ∧ (∀ x ∈ (tSeq 0 0).groups, x.park = none) ∧
      ∀ l ∈ laneSet (sSeq 3 2 0 0) (tSeq 0 0) grp4, laneChunk (sSeq 3 2 0 0) (tSeq 0 0) 3 5 l.2 = .ok (chunk4 3 l)) ∧
    (MemReady (sSeq 3 2 0 0) (tSeq 0 0) grp4 0 ∧ ScratchCanonical (sSeq 3 2 0 0) ∧
      ∀ l ∈ laneSet (sSeq 3 2 0 0) (tSeq 0 0) grp4, (vreg (tSeq 0 0) 1 l).toNat < 2 ^ 28 → ∀ j < 2,
        spotAt (sSeq 3 2 0 0) 4 ((uReg (warpOf (tSeq 0 0) (l.2 / 32)) (5#6).toNat).truncate 32 +
          4 * (laneReg (tSeq 0 0) l.2 ((1#6).toNat + 1) + BitVec.ofNat 32 j)) = some (0, 4 + 4 * j)) ∧
    (UniReady (sSeq 3 2 1 0) (tSeq 1 0) grp4 ∧ (sreg (tSeq 1 0) grp4 5).toNat % 2 ^ 20 < seqCap (sSeq 3 2 1 0)) := by
  refine ⟨⟨?_, by decide, by decide, memoryCanonicalS.2, by decide⟩, ⟨?_, by decide +kernel, ?_⟩, ⟨?_, ?_, ?_⟩, ?_⟩
  · unfold LaneReady Issues RegsPlain; decide +kernel
  · unfold LaneReady Issues RegsPlain; decide +kernel
  · unfold laneSet; decide +kernel
  · exact memReady_of _ _ _ _ (quiet_of _ _ (by decide +kernel)) (by decide +kernel)
  · exact scratch_of _ (tSeq 0 0) (by decide +kernel) (by decide +kernel)
  · unfold laneSet; decide +kernel
  · unfold UniReady Issues; decide +kernel

theorem met_KvAppends : LaneReady (sSeq 3 2 0 0) (tSeq 0 0) grp4 (tupleRegs 1 2 ++ tupleRegs 4 4) ∧ (1#6).toNat + 2 ≤ 64 ∧
    (4#6).toNat + 4 ≤ 64 ∧ (sSeq 3 2 0 0).poison = [] ∧ (sSeq 3 2 0 0).monitors = [] ∧ (sSeq 3 2 0 0).marks = [] ∧
    MemoryCanonical (sSeq 3 2 0 0) ∧ (∀ x ∈ (tSeq 0 0).groups, x.park = none) ∧ voters (sSeq 3 2 0 0) (tSeq 0 0) grp4 ≠ [] ∧
    (∀ l ∈ voters (sSeq 3 2 0 0) (tSeq 0 0) grp4, seqFault (sSeq 3 2 0 0) 1 = none ∧
      (laneReg (tSeq 0 0) l.2 2).toNat % 2 ^ 20 = 1 ∧ (laneReg (tSeq 0 0) l.2 2).toNat / 2 ^ 20 % 256 = 0 ∧
      (uReg (warpOf (tSeq 0 0) (l.2 / 32)) 5).toNat % 65536 = 0 ∧ 0 < seqLayers (seqEntry (sSeq 3 2 0 0) 1) ∧
      0 < seqHeads (seqEntry (sSeq 3 2 0 0) 1) ∧ seqLen (seqEntry (sSeq 3 2 0 0) 1) < 2 ^ 28 - 1 ∧
      seqLen (seqEntry (sSeq 3 2 0 0) 1) / 16 < seqPlcap (seqEntry (sSeq 3 2 0 0) 1) ∧
      pageListGet (sSeq 3 2 0 0) (pageListAddr (seqEntry (sSeq 3 2 0 0) 1) 0 0) = some 3 ∧ pageRef (sSeq 3 2 0 0) 3 ≤ 1) ∧
    (∀ r ∈ [(seqArea (sSeq 3 2 0 0), 64), (seqAddr (sSeq 3 2 0 0) 1, 64), (pageAddr (sSeq 3 2 0 0) 3, 16)],
      pagePa (sSeq 3 2 0 0) 3 + pageBytes (sSeq 3 2 0 0) ≤ r.1 ∨ r.1 + r.2 ≤ pagePa (sSeq 3 2 0 0) 3) ∧
    (∀ c ∈ [1, 2, 4, 8, 16, 32], 32 % c = 0) ∧
    (pageListGet (sSeq 16 2 0 0) (pageListAddr (seqEntry (sSeq 16 2 0 0) 1) 0 1) = none ∧
      seqLen (seqEntry (sSeq 16 2 0 0) 1) / 16 = 1 ∧ ∃ x, popPage (sSeq 16 2 0 0) = some x) ∧
    (LaneReady (sSeq 3 2 0 0) (tSeq 0 0) grp4 (3 :: tupleRegs 4 4) ∧
      (∀ l ∈ voters (sSeq 3 2 0 0) (tSeq 0 0) grp4, laneChunk (sSeq 3 2 0 0) (tSeq 0 0) 3 5 l.2 = .ok (chunk4 3 l) ∧
        (chunk4 3 l).e = entry4 3 2 ∧ (chunk4 3 l).layer = 0) ∧ lhWref (layerHead (sSeq 3 2 0 0) (entry4 3 2) 0) = false) := by
  refine ⟨?_, by decide, by decide, memoryCanonicalS.2, by decide +kernel, by decide +kernel, memoryCanonicalS.1, by decide +kernel,
    ?_, ?_, by decide +kernel, by decide, ⟨by decide +kernel, by decide +kernel, some_of _ (by decide +kernel)⟩, ?_, ?_, ?_⟩
  · unfold LaneReady Issues RegsPlain; decide +kernel
  · unfold voters laneSet; decide +kernel
  · unfold voters laneSet; decide +kernel
  · unfold LaneReady Issues RegsPlain; decide +kernel
  · unfold voters laneSet; decide +kernel
  · decide +kernel

/-- A snapshot of sequence 1 at position 2 in slot 0. -/
def heads4 : List Nat := [2 + 2 ^ 28 + 2 ^ 63, 0, 0, 0]
/-- The layer at position 2, DIRTY, with that snapshot. -/
def sSnap (a b : DWord) : State :=
  memPut (memPut (sSeq 3 2 a b) 0x45000 8 (2 + 2 ^ 28)) (0x45000 + 512) 8 (2 + 2 ^ 28 + 2 ^ 63)
/-- A uniform form is ready, and warp 0's binding can be used. -/
def readyBound (a : DWord) : Prop := UniReady (sSnap a 2) (tSeq a 2) grp4 ∧ representative (tSeq a 2) grp4 ≠ none ∧
  boundState (sSnap a 2) (tSeq a 2) grp4.warp = .ok (1, entry4 3 2, 0)
theorem bound1 : readyBound 1 := by unfold readyBound UniReady Issues; decide +kernel
theorem bound4 : readyBound 4 := by unfold readyBound UniReady Issues; decide +kernel
theorem bound9 : readyBound 9 := by unfold readyBound UniReady Issues; decide +kernel

theorem met_SequenceForms :
    (chooseSlot heads4 = some 1 ∧ chooseSlot [0x8040000000000000] = none ∧ rollSlot heads4 2 = some 0 ∧ rollSlot heads4 1 = none) ∧
    (let s := sSnap 4 2
     heldSlot 1 (if lhDirty (layerHead s (seqEntry s 1) 0) then 1 else 0) 2 (slotHeads s (seqEntry s 1) 0) = none ∧
     chooseSlot (slotHeads s (seqEntry s 1) 0) = some 1 ∧ workSource s (seqEntry s 1) 0 = some 0x45400 ∧
     shValid ((slotHeads s (seqEntry s 1) 0).getD 1 0) = false) ∧
    (readyBound 1 ∧ readyBound 4 ∧ readyBound 9) ∧
    (snapshotMiss (sSnap 4 2) 1 (entry4 3 2) 0 2 = false ∧ snapshotMiss (sSnap 4 2) 1 (entry4 3 2) 0 4 = false ∧
      lhPos (layerHead (sSnap 4 2) (entry4 3 2) 0) = 2 ∧ 2 / 2 ^ seqSnapk (entry4 3 2) < 4 / 2 ^ seqSnapk (entry4 3 2) ∧
      1 / 2 ^ seqSnapk (entry4 3 2) ≤ 2 / 2 ^ seqSnapk (entry4 3 2) ∧
      rollSlot (slotHeads (sSnap 1 2) (entry4 3 2) 0) 1 = none ∧ rollSlot (slotHeads (sSnap 4 2) (entry4 3 2) 0) 4 = some 0 ∧
      slotData (sSnap 4 2) 1 0 0 = some 0x45440) ∧
    (seqFault (sSnap 1 2) 1 = none ∧ (1#64).toNat / 2 ^ 32 % 4096 < seqLayers (seqEntry (sSnap 1 2) 1) ∧
      2 < seqCap (sSnap 1 2) ∧ seqValid (seqEntry (sSnap 1 2) 2) = false ∧ (sSnap 1 2).marks = [] ∧
      refOverflows (sSnap 1 2) (forkPages (sSnap 1 2) (entry4 3 2)) = false ∧
      (∀ i ∈ List.range (seqLayers (entry4 3 2)), shrOverflows (sSnap 1 2) 1 (entry4 3 2) i = false ∧
        (forkPlan (sSnap 1 2) 1 (entry4 3 2) i).2.1 ≠ none) ∧ seqEntry (sSnap 1 2) 1 = entry4 3 2) ∧
    (2 ^ 20 - 1 < 2 ^ 20 ∧ entry4 3 2 < 2 ^ 512 ∧ 2 ^ 512 - 1 < 2 ^ 512) ∧
    (seqLen (entry4 3 2) ≤ (9#64).toNat % 2 ^ 28 ∧ (2#64).toNat % 2 ^ 28 < seqLen (entry4 3 2)) := by
  exact ⟨by decide +kernel, by decide +kernel, ⟨bound1, bound4, bound9⟩, by decide +kernel, by decide +kernel,
    by decide +kernel, by decide +kernel⟩

/-! ### Matrix words and the gradient accumulators

A team of 128 threads in four home warps; the groups of warps 0 to 2 hold at a matrix word, and warp 3 issues it. Class 1 is
an 8-bit float that adds in FP32, class 2 a 4-bit float with BF16 scales, whose table is at offset 0x800. -/

def lanesQ (i : Nat) : List (Nat × Nat) := (List.range 32).map (fun l => (l, 32 * i + l))
def grpQ (i : Nat) : Grp := Grp.fresh i i 0 (lanesQ i) 0x10000
/-- Descriptor 0: A of class 2 with its scales by s9, B and C of class 1, A from `src`. -/
def descQ (src : Nat) : DWord := BitVec.ofNat 64 (2 + 1 * 2 ^ 8 + 1 * 2 ^ 16 + src * 2 ^ 24 + 9 * 2 ^ 32)
def warpQ (src : Nat) : Warp :=
  [(9, 0x800), (8, 0)].foldl (fun w x => setU w x.1 (BitVec.ofNat 64 x.2))
    { Warp.fresh true 0 0 with md := padSet 0 (List.replicate 4 0) 0 (descQ src), gbase := 255 }
def cbtQ : List (BitVec 128) :=
  padSet 0 cbt4 1 (BitVec.ofNat 128 (0x0004075C + 1 * 2 ^ 40 + 5 * 2 ^ 48 + 2 ^ 106))
def tQ (src : Nat) (holding : Nat) : Team :=
  { withQueue 32 team4 with
    windows := [{ base := 0, size := 8192, swz := 0, chk := false }],
    threads := (List.range 128).map (fun i =>
      { Thread.fresh i true false (BitVec.ofNat 32 i) with clk := 1 }),
    warps := List.replicate 4 (warpQ src), cbt := cbtQ,
    groups := (List.range 4).map (fun i => { grpQ i with wait := if i < holding then .quartet 0 else .none }), nextGid := 4,
    ports := [some 0x1000, none, none, none, none, none, none, none] }
/-- The queue of 512 entries that port q0 is bound to. -/
def queueQ : Queue :=
  { base := 0x1020, cap := 512, pkind := false, ckind := false, head := 0, tail := 512,
    clks := List.replicate 512 3, poppers := [], pushers := [] }
def sQt (src holding : Nat) : State :=
  let s := at4 (fun _ => tQ src holding)
  { s with queues := [(0x1000, queueQ)], cur := { s.cur with gid := 3 } }
def slabsQ (src : Nat) : List Slabs :=
  (matrixSlabs (tQ src 3) 0 src 8 (descQ src)).map (fun l => l.filterMap (fun x =>
    (slabSpots (sQt src 3) 0 x).toOption.map (fun p => (x, p))))
def poppedQ : List (Word × Word) × State := popEntries (sQt 2 3) 0x1000 queueQ (0, 3) (unitOf 0 0) 512

/-- What the fourth warp of the quartet finds, in a form that can be decided. -/
def findsQ (gam : Bool) (src : Nat) (vd va : BitVec 6) : Prop :=
  Issues (sQt src 3) (tQ src 3) (grpQ 3) ∧ (lanesQ 3).length = 32 ∧ quartetWhole (tQ src 3) 0 = true ∧
    matrixFault (sQt src 3) (tQ src 3) (grpQ 3) gam src vd va 12 0 = none ∧
    extFaults (sQt src 3) (tQ src 3) (lanesQ 3) (matrixRegs gam src vd va 12) = [] ∧
    ((quartetHolders (tQ src 3) 0).filter (fun h => h.gid != 3)).length = 3 ∧
    (∀ h ∈ (quartetHolders (tQ src 3) 0).filter (fun h => h.gid != 3),
      wordsDiffer (sQt src 3) (tQ src 3) (grpQ 3) h gam 0 = false) ∧
    ((tQ src 3).groups.map (·.gid)).Nodup ∧ (∀ x ∈ (tQ src 3).groups, x.park = none) ∧
    (∀ tid, 0 ≤ tid → tid < 128 → tid < (tQ src 3).threads.length ∧ (vd.toNat + 16 ≤ 32 ∨ hasExt (tQ src 3) tid = true)) ∧
    numcfg (sQt src 3) 0 = 0 ∧ (coreOf (sQt src 3) 0).array = none ∧ (255#8).toNat + 0 < 256 ∧ (gam = true → vd = 0) ∧
    (slabsQ src).map (fun l => l.map (·.1)) = matrixSlabs (tQ src 3) 0 src va ((warpOf (tQ src 3) 0).md.getD 0 0) ∧
    descOutl ((warpOf (tQ src 3) 0).md.getD 0 0) = false ∧
    (∀ l ∈ slabsQ src, ∀ x ∈ l, (slabSpots (sQt src 3) 0 x.1).toOption = some x.2 ∧ ∀ p ∈ x.2, p.2.chk = false ∧
      present (sQt src 3) p.2 x.1.w = true ∧ scratchPoisoned (sQt src 3) p.2.team p.2.pos x.1.w = false)

theorem ok_of_some {ε α : Type} {x : Except ε α} {a : α} (h : x.toOption = some a) : x = .ok a := by
  cases x with
  | ok b => exact congrArg _ (Option.some.inj h)
  | error e => cases h

/-- The quartet is ready for an array word whose tile, if it has one, begins at offset 0. -/
theorem readyQ (gam : Bool) (src : Nat) (vd va : BitVec 6) (h : findsQ gam src vd va) (hv : vd.toNat + 16 ≤ 64)
    (popped : List (Word × Word)) (s1 : State) (h0 : src ≠ 2 → popped = [] ∧ s1 = sQt src 3)
    (h2 : src = 2 → ∃ key q, boundKey (tQ src 3) (va.toNat - 56) = some key ∧ queueOf (sQt src 3) key = some q ∧ 512 ≤ q.cap ∧
      canPop q (0, 3) 512 = true ∧ popEntries (sQt src 3) key q (0, 3) (unitOf 0 0) 512 = (popped, s1)) :
    QuartetReady (sQt src 3) (tQ src 3) (grpQ 3) gam src vd va 12 0 (slabsQ src) popped s1 := by
  obtain ⟨h1, h3, h4, h5, h6, h7, h8, h9, h10, h11, h12, h13, h14, h15, h16, h18, h17⟩ := h
  refine ⟨h1, rfl, h3, h4, h5, h6, h7, h8, h9, h10, h11, h12, h13, ?_, fun _ => hv, .inl h18, h16, ?_, h0, h2⟩
  · intro hg
    rw [h15 hg]
    exact h14
  · exact fun l hl x hx => ⟨ok_of_some (h17 l hl x hx).1, (h17 l hl x hx).2⟩

theorem met_MatrixForms :
    (Issues (sQt 0 2) (tQ 0 2) (grpQ 3) ∧ (grpQ 3).formation = false ∧ (grpQ 3).lanes.length = 32 ∧ quartetWhole (tQ 0 2) 0 = true ∧
      matrixFault (sQt 0 2) (tQ 0 2) (grpQ 3) false 0 16 8 12 0 = none ∧
      extFaults (sQt 0 2) (tQ 0 2) (grpQ 3).lanes (matrixRegs false 0 16 8 12) = [] ∧
      ((quartetHolders (tQ 0 2) 0).filter (fun h => h.gid != 3)).length < 3 ∧
      ∀ h ∈ (quartetHolders (tQ 0 2) 0).filter (fun h => h.gid != 3), wordsDiffer (sQt 0 2) (tQ 0 2) (grpQ 3) h false 0 = false) ∧
    QuartetReady (sQt 0 3) (tQ 0 3) (grpQ 3) false 0 16 8 12 0 (slabsQ 0) [] (sQt 0 3) ∧
    QuartetReady (sQt 0 3) (tQ 0 3) (grpQ 3) true 0 0 8 12 0 (slabsQ 0) [] (sQt 0 3) ∧
    QuartetReady (sQt 1 3) (tQ 1 3) (grpQ 3) false 1 16 8 12 0 (slabsQ 1) [] (sQt 1 3) ∧
    QuartetReady (sQt 1 3) (tQ 1 3) (grpQ 3) true 1 0 8 12 0 (slabsQ 1) [] (sQt 1 3) ∧
    QuartetReady (sQt 2 3) (tQ 2 3) (grpQ 3) false 2 16 56 12 0 (slabsQ 2) poppedQ.1 poppedQ.2 ∧
    QuartetReady (sQt 2 3) (tQ 2 3) (grpQ 3) true 2 0 56 12 0 (slabsQ 2) poppedQ.1 poppedQ.2 := by
  have h : findsQ false 0 16 8 ∧ findsQ true 0 0 8 := ⟨by unfold findsQ Issues; decide +kernel, by unfold findsQ Issues; decide +kernel⟩
  have h1 : findsQ false 1 16 8 ∧ findsQ true 1 0 8 := ⟨by unfold findsQ Issues; decide +kernel, by unfold findsQ Issues; decide +kernel⟩
  have h2 : findsQ false 2 16 56 ∧ findsQ true 2 0 56 := ⟨by unfold findsQ Issues; decide +kernel, by unfold findsQ Issues; decide +kernel⟩
  have pop : 2 = 2 → ∃ key q, boundKey (tQ 2 3) ((56#6).toNat - 56) = some key ∧ queueOf (sQt 2 3) key = some q ∧ 512 ≤ q.cap ∧
      canPop q (0, 3) 512 = true ∧ popEntries (sQt 2 3) key q (0, 3) (unitOf 0 0) 512 = (poppedQ.1, poppedQ.2) :=
    fun _ => ⟨0x1000, queueQ, by decide +kernel, by decide +kernel, by decide +kernel, by decide +kernel, (Prod.eta poppedQ).symm⟩
  have stay : ∀ src, src ≠ 2 → ([] : List (Word × Word)) = [] ∧ sQt src 3 = sQt src 3 := fun _ _ => ⟨rfl, rfl⟩
  refine ⟨by unfold Issues; decide +kernel, readyQ _ _ _ _ h.1 (by decide) _ _ (stay 0) (fun e => by cases e),
    readyQ _ _ _ _ h.2 (by decide) _ _ (stay 0) (fun e => by cases e),
    readyQ _ _ _ _ h1.1 (by decide) _ _ (stay 1) (fun e => by cases e),
    readyQ _ _ _ _ h1.2 (by decide) _ _ (stay 1) (fun e => by cases e),
    readyQ _ _ _ _ h2.1 (by decide) _ _ (fun e => absurd rfl e) pop,
    readyQ _ _ _ _ h2.2 (by decide) _ _ (fun e => absurd rfl e) pop⟩

theorem met_MatrixSums : f32 0x7FC00000 = .nan ∧ (f32 0x3F800000 ≠ .nan ∧ (∀ x ∈ [FVal.inf true], x ≠ .nan) ∧ .inf true ∈ [FVal.inf true]) ∧
    (∀ x ∈ f32 0x3F800000 :: [FVal.fin true 1 (2 ^ 3)], ∃ neg n k, x = .fin neg n (2 ^ k)) ∧
    (∃ x ∈ f32 0x3F800000 :: [FVal.fin true 1 (2 ^ 3)], ratOf x ≠ 0) ∧
    (∀ x ∈ f32 0x80000000 :: [FVal.fin true 0 (2 ^ 3)], ratOf x = 0 ∧ ∃ neg n k, x = .fin neg n (2 ^ k)) ∧ (0x3F800000 : Word) ≠ 0x80000000 := by
  have one : f32 0x3F800000 = .fin false 8388608 (2 ^ 23) := by decide +kernel
  have zero : f32 0x80000000 = .fin true 0 (2 ^ 149) := by decide +kernel
  refine ⟨by decide +kernel, by decide +kernel, ?_, ?_, ?_, by decide⟩
  · rw [one]
    intro x hx
    simp only [List.mem_cons, List.not_mem_nil, or_false] at hx
    rcases hx with rfl | rfl <;> exact ⟨_, _, _, rfl⟩
  · exact ⟨.fin true 1 (2 ^ 3), by simp, by norm_num [ratOf]⟩
  · rw [zero]
    intro x hx
    simp only [List.mem_cons, List.not_mem_nil, or_false] at hx
    rcases hx with rfl | rfl <;> exact ⟨by simp [ratOf], _, _, _, rfl⟩

/-! At 0x20000 stands a drain descriptor with weights and moments at 0x30000; slots 3 and 255 and header 5 hold numbers.
s5 = a, s6 = b, s7 names the descriptor. -/

def drainBytes : List Byte :=
  [(4, 0), (4, 0x3C23D70A), (8, 0x30000), (8, 0x30000), (8, 0x30000), (4, 0x3F666666), (4, 0x3F7FBE77), (4, 0x3DCCCCCD),
   (4, 0x3A83126F), (4, 0x322BCC77), (4, 0x3C23D70A), (4, 0), (4, 0x3F800000)].flatMap (fun x => bytesOf x.1 x.2)
def tGam (a b : DWord) : Team := withS [(5, a), (6, b), (7, 0x20000)] team4
def sGam (a b : DWord) : State :=
  modCore (memWrite (at4 (fun _ => tGam a b)) 0x20000 drainBytes) 0 (fun c =>
    setGamHeader (setGamSlot (setGamSlot c 3
        { elems := [(0, 0x3F800000), (2047, 0x40000000)], int := false, nf := true, owner := some 0, poison := [], poisonSeen := [] })
      255 { elems := [(5, 7)], int := true, nf := false, owner := none, poison := [], poisonSeen := [] })
      5 { p1 := 0x3F000000, p2 := 0x3E800000, t := 9, owner := some 0 })
/-- A slot group operand: slots from `first` on, and the header 5. -/
def groupOf5 (first count : Nat) : DWord := BitVec.ofNat 64 (first + count * 256 + 5 * 2 ^ 20)
def sG3 : State := sGam 0x30003 (groupOf5 3 1)
def tG3 : Team := tGam 0x30003 (groupOf5 3 1)
def span4 (k : Kind) (align : Nat) : Span := { kind := k, va := 0x30000, n := 8192, align := align, rid := 0 }

theorem memReadyG : MemReady sG3 tG3 grp4 0 := memReady_of _ _ _ _ (quiet_of _ _ (by decide +kernel)) (by decide +kernel)
theorem readsG : SpanReads sG3 tG3 grp4 (0, 0) (span4 .read 4) := by unfold SpanReads; decide +kernel
theorem writesG : ∀ w ∈ spanWants (0, 0) 0 (span4 .write 4), plainRun sG3 tG3 grp4 .write w.align w.w w.addr = some w.addr.toNat := by
  decide +kernel

theorem plainRun_one {s : State} {t : Team} {g : Grp} {k : Kind} {al w : Nat} {a : BitVec 64} {p : Nat}
    (h : plainRun s t g k al w a = some p) : plainRun s t g k 1 w a = some p := by
  cases htr : Machine.translate s t.core t.info.ctx a k g.handler with
  | error e => simp [plainRun, htr] at h
  | ok l =>
    simp only [plainRun, htr] at h ⊢
    split at h
    · cases h
    · rename_i h1
      rw [if_neg]
      · exact h
      · intro h2
        apply h1
        simp only [Bool.or_eq_true, bne_iff_ne, Nat.mod_one, ne_eq, not_true_eq_false, or_false] at h2 ⊢
        tauto

/-- The ranges aligned by 1 have the pieces of those aligned by 4. -/
theorem wants_one : ∀ k ∈ [Kind.read, .write], spanWants (0, 0) 0 (span4 k 1) =
    (spanWants (0, 0) 0 (span4 k 4)).map (fun w => { w with align := 1 }) := by decide +kernel

theorem mem_spanChanges {lane : Nat × Nat} {x : Span} {d : List Byte} {y : Change} (h : y ∈ spanChanges lane x d)
    (hd : x.n ≤ d.length) : ∃ w ∈ spanWants lane 0 x, y.addr = w.addr ∧ y.align = w.align ∧ y.data.length = w.w := by
  obtain ⟨w, hw, rfl⟩ := List.mem_map.mp h
  refine ⟨w, hw, rfl, rfl, ?_⟩
  obtain ⟨lo, -, rfl⟩ := List.mem_map.mp hw
  simp only [List.length_take, List.length_drop, spanIndex, Span.piece]
  omega

theorem length_bytes (l : List Word) : (l.flatMap (fun y => bytesOf 4 y.toNat)).length = 4 * l.length := by
  induction l with
  | nil => rfl
  | cons x r ih =>
    rw [List.flatMap_cons, List.length_append, ih, List.length_cons]
    simp [bytesOf]
    omega

/-- What DRAIN and GRD write lies in plain memory. -/
theorem changesG {d : List Byte} {y : Change} {al : Nat} (ha : al = 4 ∨ al = 1) (h : y ∈ spanChanges (0, 0) (span4 .write al) d)
    (hd : 8192 ≤ d.length) : plainRun sG3 tG3 grp4 .write y.align y.data.length y.addr = some y.addr.toNat := by
  obtain ⟨w, hw, h1, h2, h3⟩ := mem_spanChanges h hd
  rw [h1, h2, h3]
  rcases ha with rfl | rfl
  · exact writesG w hw
  · rw [wants_one .write (by simp)] at hw
    obtain ⟨v, hv, rfl⟩ := List.mem_map.mp hw
    exact plainRun_one (writesG v hv)

theorem readsG1 : SpanReads sG3 tG3 grp4 (0, 0) (span4 .read 1) := by
  intro w hw
  rw [wants_one .read (by simp)] at hw
  obtain ⟨v, hv, rfl⟩ := List.mem_map.mp hw
  intro hn
  obtain ⟨p, hp⟩ := Option.ne_none_iff_exists'.mp (readsG v hv)
  rw [show plainRun sG3 tG3 grp4 .read 1 v.w v.addr = some p from plainRun_one hp] at hn
  cases hn

/-- GRD kinds 0 to 2 on slot 255 and header 15. -/
def readsGam (a : DWord) : Prop := UniReady (sGam a 0x5AFF) (tGam a 0x5AFF) grp4 ∧ groupOk 0x1FF false = true ∧
  (gamSlot (coreOf (sGam a 0x5AFF) 0) 255).poison = [] ∧ ownedElsewhere (gamSlot (coreOf (sGam a 0x5AFF) 0) 255).owner 0 = false ∧
  ownedElsewhere (gamHeader (coreOf (sGam a 0x5AFF) 0) 15).owner 0 = false

theorem met_GamForms :
    (UniReady sG3 tG3 grp4 ∧ sreg tG3 grp4 5 = 0x30003 ∧ sreg tG3 grp4 6 = groupOf5 3 1 ∧ sreg tG3 grp4 7 = 0x20000 ∧
      MemReady sG3 tG3 grp4 0 ∧ numcfg sG3 0 = 0 ∧ representative tG3 grp4 = some (0, 0)) ∧
    (groupOk (groupOf5 3 1) false = true ∧ groupOk (groupOf5 255 1) false = true ∧ groupOk (groupOf5 0 0) true = true ∧
      groupOk (groupOf5 0 256) false = true) ∧
    (∀ i ∈ groupSlots (groupOf5 3 1), (gamSlot (coreOf sG3 0) i).owner = some 0 ∧ (gamSlot (coreOf sG3 0) i).poison = [] ∧
      ownedElsewhere (gamSlot (coreOf sG3 0) i).owner 0 = false) ∧
    (gamFault sG3 tG3 (groupOf5 3 1) true (groupSlots (groupOf5 3 1)) (some 5) = none ∧ groupCount (groupOf5 3 1) = 1 ∧
      (0x30003 &&& 0x00FFFFFFFFFFFF00 : BitVec 64) = 0x30000 ∧ SpanReads sG3 tG3 grp4 (0, 0) (span4 .read 1)) ∧
    (readsGam 0 ∧ readsGam 1 ∧ readsGam 2) ∧
    (∀ y ∈ spanChanges (0, 0) (span4 .write 1) ((groupSlots (groupOf5 3 1)).flatMap (fun i =>
      (gamSlot (coreOf sG3 0) i).words.flatMap (fun y => bytesOf 4 y.toNat))),
      plainRun sG3 tG3 grp4 .write y.align y.data.length y.addr = some y.addr.toNat) ∧
    (drainDesc (spanSeen sG3 tG3 grp4 (0, 0) { kind := .read, va := 0x20000, n := 64, align := 64, rid := 0 })).sgd = false ∧
    (drainDesc (spanSeen sG3 tG3 grp4 (0, 0) { kind := .read, va := 0x20000, n := 64, align := 64, rid := 0 })).nwen = false ∧
    (drainDesc (spanSeen sG3 tG3 grp4 (0, 0) { kind := .read, va := 0x20000, n := 64, align := 64, rid := 0 })).waddr = 0x30000 ∧
    SpanReads sG3 tG3 grp4 (0, 0) (span4 .read 4) ∧
    (∀ f, ∀ y ∈ spanChanges (0, 0) (span4 .write 4) (((List.range 2048).map f).flatMap (fun (y : Word) => bytesOf 4 y.toNat)),
      plainRun sG3 tG3 grp4 .write y.align y.data.length y.addr = some y.addr.toNat) := by
  refine ⟨?_, by decide +kernel, by decide +kernel, ⟨by decide +kernel, by decide +kernel, by decide +kernel, readsG1⟩, ?_,
    fun y hy => changesG (.inr rfl) hy ?_, by decide +kernel, by decide +kernel, by decide +kernel, readsG,
    fun f y hy => changesG (.inl rfl) hy ?_⟩
  · exact ⟨by unfold UniReady Issues; decide +kernel, by decide +kernel, by decide +kernel, by decide +kernel, memReadyG,
      by decide +kernel, by decide +kernel⟩
  · refine ⟨?_, ?_, ?_⟩ <;> (unfold readsGam UniReady Issues; decide +kernel)
  · rw [show groupSlots (groupOf5 3 1) = [3] by decide +kernel, List.flatMap_cons, List.length_append, length_bytes,
      show (gamSlot (coreOf sG3 0) 3).words.length = 2048 by decide +kernel]
    exact Nat.le_add_right _ _
  · rw [length_bytes, List.length_map, List.length_range]

/-! ### Commands, launches, the debug forms, engines and the dispatcher

s8 to s15 hold a CPY LOAD of two rows of 64 bytes from 0x20000 to offset 0x40, whose byte-count barrier is at offset 0x100. -/

/-- A CPY command: opcode, CK, completion, BYTES, address, SOFF, rows. -/
def cpyCmd (op ck compl : Nat) : List Byte :=
  bytesOf 1 op ++ bytesOf 1 ck ++ bytesOf 2 7 ++ bytesOf 8 compl ++ bytesOf 4 64 ++ bytesOf 8 0x20000 ++ bytesOf 8 64 ++
    bytesOf 4 0x40 ++ bytesOf 4 64 ++ bytesOf 4 2 ++ bytesOf 20 0
/-- A resident team whose window is 4 KiB of scratchpad, with a command in s8 to s15; s5 = a, s6 = b. -/
def tCmd (a b : DWord) : Team :=
  withS ((List.range 8).map (fun i => (8 + i, BitVec.ofNat 64 (bytesAt (cpyCmd 1 0 0x100) (8 * i) 8)))) (withS [(5, a), (6, b)]
    { withQueue 32 team4 with scratch := (List.range 64).filterMap (fun i =>
        let x := BitVec.ofNat 8 (bytesAt (cpyCmd 1 0 0x100) i 1)
        if x = 0 then none else some (0x40 + i, x)) })
def sCmd (a b : DWord) : State := at4 (fun _ => tCmd a b)
/-- An operation of that team. -/
def op4 (id eng : Nat) (phase : OpPhase) (cmd : List Byte) : EngOp :=
  { id := id, eng := eng, inst := 0, core := 0, team := 0, ctx := 0, slot := 0, priv := false, cmd := cmd, clk := 1, sat := false,
    phase := phase, unit := 0, bytes := 0, lines := [], done := 0, aux := [], data := [], buf := [], put := 0, ending := false, since := 0 }
def withOps (l : List EngOp) (s : State) : State := { s with ops := l, nextOp := 100 }
/-- Sixteen commands wait in the queue of engine 0. -/
def sFull4 (a b : DWord) : State :=
  withOps ((List.range 16).map (fun i => op4 i 0 .queued (cpyCmd 1 0 0x100))) (sCmd a b)
/-- The same team whose threads are all helpers. -/
def tHelp (a b : DWord) : Team := modThreads (tCmd a b) [0, 1, 2, 3] (fun th => { th with helper := true })
def sHelp (a b : DWord) : State := at4 (fun _ => tHelp a b)
/-- The command list's line is absent. -/
def tGone (a b : DWord) : Team := { tCmd a b with absent := [0] }
def sGone (a b : DWord) : State := at4 (fun _ => tGone a b)

theorem met_EngineWords :
    (UniReady (sCmd 0x40 1) (tCmd 0x40 1) grp4 ∧ (0#6).toNat < 7 ∧ representative (tCmd 0x40 1) grp4 = some (0, 0) ∧
      queueFull (sCmd 0x40 1) 0 0 = false) ∧
    (UniReady (sFull4 0x40 1) (tCmd 0x40 1) grp4 ∧ queueFull (sFull4 0x40 1) 0 0 = true) ∧
    (UniReady (sHelp 0x40 1) (tHelp 0x40 1) grp4 ∧ representative (tHelp 0x40 1) grp4 = none) ∧
    (UniReady sH tH grpH ∧ grpH.handler = true ∧ grp4.handler = false ∧ 7 ≤ (7#6).toNat) ∧
    (let n := ((sreg (tCmd 0x40 1) grp4 6).extractLsb' 0 9).toNat
     let off : Word := (sreg (tCmd 0x40 1) grp4 5).truncate 32
     1 ≤ n ∧ n ≤ 256 ∧ off.toNat % 64 = 0 ∧ (resolve (sCmd 0x40 1) 0 off (64 * n)).toBool = true ∧
       spadReady (sCmd 0x40 1) (spotsFor (sCmd 0x40 1) 0 off 0 (64 * n)) = true ∧
       spadReady (sHelp 0x40 1) (spotsFor (sHelp 0x40 1) 0 off 0 (64 * n)) = true ∧
       spadReady (sGone 0x40 1) (spotsFor (sGone 0x40 1) 0 off 0 (64 * n)) = false) ∧
    UniReady (sGone 0x40 1) (tGone 0x40 1) grp4 ∧
    (∀ c ∈ kickList (readSpots (newOp (sCmd 0x40 1) (modThreads (tCmd 0x40 1) [0] bumpClk) grp4 0 0 0 [])
      (spotsFor (sCmd 0x40 1) 0 0x40 0 64) (sCmd 0x40 1)).1 1, cmdQid c < 6) ∧
    (tget (sFull4 0x40 1).teams 0 = some (tCmd 0x40 1) ∧ (grp4.lanes.map (·.2)).Nodup ∧ cmdFr (cpyCmd 1 0 0x100) = false ∧
      ∀ o ∈ (sFull4 0x40 1).ops, o.id < (sFull4 0x40 1).nextOp) := by
  refine ⟨?_, ?_, ?_, ⟨uniH.1, by decide, by decide, by decide⟩, by decide +kernel, ?_, by decide +kernel, by decide +kernel⟩ <;>
    (unfold UniReady Issues; decide +kernel)

/-- Launch queue 5 of 16 records at 0x4A000, its descriptor at 0x48000 + 160 with HEAD and TAIL; near memory holds a record at
0x20000. s5 = 0x20000, s6 = 5. -/
def tLq : Team := withS [(5, 0x20000), (6, 5)] team4
def sLq (head tail : Nat) : State :=
  [(0x480A0, 8, 0x4A000), (0x480A8, 4, 16), (0x480AC, 4, head), (0x480B0, 4, tail), (0x480B4, 4, 1), (0x20000, 8, 0x1122334455667788),
   (0x20038, 8, 0x99)].foldl
    (fun s x => memPut s x.1 x.2.1 x.2.2) (regSet (at4 (fun _ => tLq)) 0x28 0x48000)
/-- The group waits to publish record `n`. -/
def grpPub (n : Word) : Grp := { grp4 with wait := .publish 5 n 0x20000 65536 1 }
def tPub (n : Word) : Team := { tLq with groups := [grpPub n] }
def sPub (head tail : Nat) (n : Word) : State := { sLq head tail with teams := [(0, tPub n)] }

theorem memReadyL : MemReady (sLq 0 3) tLq grp4 0 ∧ MemReady (sLq 0 16) tLq grp4 0 :=
  ⟨memReady_of _ _ _ _ (quiet_of _ _ (by decide +kernel)) (by decide +kernel),
   memReady_of _ _ _ _ (quiet_of _ _ (by decide +kernel)) (by decide +kernel)⟩
theorem met_LaunchWord :
    (UniReady (sLq 0 3) tLq grp4 ∧ (∀ q n p z f, grp4.wait ≠ .publish q n p z f) ∧ lqUsable (sLq 0 3) ((sreg tLq grp4 5).extractLsb' 0 6).toNat = false) ∧
    (MemReady (sLq 0 3) tLq grp4 0 ∧ MemReady (sLq 0 16) tLq grp4 0 ∧ UniReady (sLq 0 16) tLq grp4 ∧ representative tLq grp4 ≠ none ∧
      (coreOf (sLq 0 3) 0).l1 = [] ∧ (coreOf (sLq 0 16) 0).l1 = [] ∧ (sLq 0 3).lqs.length = 64 ∧ (sLq 0 16).lqs.length = 64 ∧
      ((sreg tLq grp4 6).extractLsb' 0 6).toNat = 5 ∧ lqUsable (sLq 0 3) 5 = true ∧ lqUsable (sLq 0 16) 5 = true ∧
      plainAt (sLq 0 3) tLq grp4 .read 64 (sreg tLq grp4 5) = some 0x20000 ∧
      plainAt (sLq 0 16) tLq grp4 .read 64 (sreg tLq grp4 5) = some 0x20000) ∧
    (canPublish (reserve (sLq 0 3) 5).2 5 (reserve (sLq 0 3) 5).1 = true ∧
      (∀ i < 4, ∀ j < 64, lqAddr (sLq 0 3) 5 + 16 + i ≠ lqSlot (sLq 0 3) 5 (reserve (sLq 0 3) 5).1 + j) ∧
      canPublish (reserve (sLq 0 16) 5).2 5 (reserve (sLq 0 16) 5).1 = false) ∧
    (UniReady (sPub 0 3 3) (tPub 3) (grpPub 3) ∧ (grpPub 3).wait = .publish 5 3 0x20000 65536 1 ∧ canPublish (sPub 0 3 3) 5 3 = true ∧
      UniReady (sPub 0 3 4) (tPub 4) (grpPub 4) ∧ (grpPub 4).wait = .publish 5 4 0x20000 65536 1 ∧ canPublish (sPub 0 3 4) 5 4 = false) := by
  refine ⟨⟨?_, ?_, by decide +kernel⟩, ⟨memReadyL.1, memReadyL.2, ?_, by decide +kernel⟩, by decide +kernel, ?_⟩
  · unfold UniReady Issues; decide +kernel
  · intro q n p z f h
    cases h
  · unfold UniReady Issues; decide +kernel
  · unfold UniReady Issues; decide +kernel

/-- A trace ring of 64 records at 0x50000, whose HEAD is 7; a mark table of one entry at 0x54000 for label 9 of warp 0 whose
hash is `h`; s5 = 9. -/
def sMark (h : Nat) : State :=
  [(0x5400E, 2, 0), (0x54018, 8, h), (0x54020, 8, 9), (0x54028, 8, (launchWord loadInfo).toNat), (0x54030, 4, loadInfo.index)].foldl
    (fun s x => memPut s x.1 x.2.1 x.2.2)
    ([(0x100, 2 ^ 44), (0x30000, 0x50000), (0x30008, 0x100000040), (0x30010, 7), (0x30098, 0x54000), (0x300A0, 1), (0x30080, 1)].foldl
      (fun s x => regSet s x.1 (BitVec.ofNat 64 x.2)) (sCmd 9 0))
/-- A store of warp 0 is still open. -/
def sOpen : State := modCore (sMark 0) 0 (fun c => { c with
  reqs := [{ id := 1, team := 0, gid := 0, store := true, issued := 0, sampled := false, lanes := 15, sectors := 1, slot := 0,
             hwarp := 0, pc := 0x10000, ctx := 0, lines := [], tids := [], regs := [] }] })

theorem met_DebugWords : UniReady sOpen (tCmd 9 0) grp4 ∧ storesOpen sOpen (tCmd 9 0) grp4 = true ∧
    UniReady (sMark 0) (tCmd 9 0) grp4 ∧ storesOpen (sMark 0) (tCmd 9 0) grp4 = false ∧ (tCmd 9 0).brk = none ∧
    findMark (sMark 0) (tCmd 9 0) grp4 8 = none ∧ findMark (sMark 0) (tCmd 9 0) grp4 9 = some 0 ∧
    memNat (sMark 0) ((regGet (sMark 0) 0x30098).toNat + 64 * 0 + 24) 8 = (warpOf (tCmd 9 0) 0).storehash.toNat ∧
    powerBetween ((regGet (sMark 0) 0x30008).toNat % 2 ^ 32) 64 (2 ^ 24) = true ∧ (regGet (sMark 0) 0x30008).getLsbD 32 = true ∧
    ((regGet (sMark 0) 0x30010).toNat + 2 ^ 64 - (regGet (sMark 0) 0x30018).toNat) % 2 ^ 64 ≠ (regGet (sMark 0) 0x30008).toNat % 2 ^ 32 ∧
    readyBit (sMark 0) 44 = true ∧ (List.replicate 64 (0 : Byte)).length = 64 := by
  unfold UniReady Issues; decide +kernel

/-- A running operation of engine `eng` and opcode `op`. -/
def runOp (eng op : Nat) : EngOp := op4 5 eng .running (cpyCmd op 0 0x100)
/-- The machine at an event of operation 5. -/
def sOp (o : EngOp) : State :=
  let s := memWrite (withOps [o] (sCmd 0 0)) 0x20000 ((List.range 128).map (fun i => BitVec.ofNat 8 (i + 1)))
  { s with cur := { s.cur with arg := { s.cur.arg with op := 5 } } }
/-- The second row of the copy, whose 64 bytes end with their line. -/
def row1 (op : Nat) : EngOp := { runOp 0 op with unit := 1 }
def spots1 : List SpotRun := spotsFor (sOp (row1 1)) 0 0x80 0 64
def leaf1 (k : Kind) : Option Leaf := (Machine.translate (sOp (row1 1)) 0 0 0x20040 k false).toOption

theorem met_EngineUnits :
    (∀ e ∈ [(0, 1), (0, 2), (0, 3), (0, 4), (1, 1), (1, 2), (1, 3), (2, 1), (2, 2), (3, 1), (4, 1), (4, 2), (4, 3), (5, 1)],
      Machine.opOf (sOp (runOp e.1 e.2)) (sOp (runOp e.1 e.2)).cur.arg.op = some (runOp e.1 e.2) ∧
      (runOp e.1 e.2).phase = .running ∧ (ctxOf (sOp (runOp e.1 e.2)) 0).stat = 0 ∧ (runOp e.1 e.2).eng = e.1 ∧
      cmdOp (runOp e.1 e.2).cmd = e.2) ∧
    (∀ op ∈ [1, 2], Machine.opOf (sOp (row1 op)) 5 = some (row1 op) ∧ fieldsOk (row1 op) = true ∧ (row1 op).done = 0 ∧
      0 < (cmdWord (row1 op) 12 + 4095) / 4096 ∧ (row1 op).unit = 1 * ((cmdWord (row1 op) 12 + 4095) / 4096) + 0 ∧
      (cmdLong (row1 op) 16 + 1 * cmdLong (row1 op) 24 + 4096 * 0) % 2 ^ 64 = 0x20040 ∧
      offPlus (cmdOff (row1 op) 32) (1 * cmdWord (row1 op) 36 + 4096 * 0) = some 0x80 ∧
      min 4096 (cmdWord (row1 op) 12 - 4096 * 0) = 64 ∧ 0x20040 % 128 + 64 ≤ 128 ∧ (sOp (row1 op)).poison = [] ∧
      (∀ e ∈ (sOp (row1 op)).squares, e.2.shadow = none) ∧ spotsFor (sOp (row1 op)) 0 0x80 0 64 = spots1) ∧
    (∀ k ∈ [Kind.read, .write], ∃ l, leaf1 k = some l ∧ l.phys 0x20040 = 0x20040 ∧ l.checked = false ∧ l.recorded = false) ∧
    placeOf (sOp (row1 1)) 0x20040 = .near ∧ MemoryCanonical (sOp (row1 1)) ∧ ScratchCanonical (sOp (row1 1)) ∧
    (spots1.map (·.2)).sum = 64 ∧
    (∀ x ∈ spots1, x.1.chk = false ∧ (tget (sOp (row1 1)).teams x.1.team).isSome ∧ present (sOp (row1 1)) x.1 x.2 = true ∧
      scratchPoisoned (sOp (row1 1)) x.1.team x.1.pos x.2 = false) ∧
    (spots1.flatMap (fun x => (List.range x.2).map (fun i => (x.1.team, x.1.pos + i)))).Nodup := by
  refine ⟨by decide +kernel, by decide +kernel, ?_, by decide +kernel, ?_, ?_, by decide +kernel, by decide +kernel, by decide +kernel⟩
  · have h : ∀ k ∈ [Kind.read, .write], (leaf1 k).any (fun l => l.phys 0x20040 == 0x20040 && !l.checked && !l.recorded) = true := by
      decide +kernel
    intro k hk
    have hk := h k hk
    cases hl : leaf1 k with
    | none => rw [hl] at hk; cases hk
    | some l =>
      rw [hl] at hk
      simp only [Option.any_some, Bool.and_eq_true, beq_iff_eq, Bool.not_eq_true'] at hk
      exact ⟨l, rfl, hk.1.1, hk.1.2, hk.2⟩
  · unfold MemoryCanonical; decide +kernel
  · exact scratch_of _ (tCmd 0 0) (by decide +kernel) (by decide +kernel)

/-! The other units: commands of each class for team 0, whose port q0 is bound to the queue at 0x100. -/

theorem opRuns_of {s : State} {o : EngOp} {eng op : Nat} (h : Machine.opOf s s.cur.arg.op = some o ∧ o.phase = .running ∧
    (ctxOf s o.ctx).stat = 0 ∧ o.eng = eng ∧ cmdOp o.cmd = op ∧ o.ending = false) : OpRuns s o eng op :=
  ⟨h.1, h.2.1, h.2.2.1, ⟨h.2.2.2.1, h.2.2.2.2.1⟩, h.2.2.2.2.2⟩
theorem slicesRest_of {s : State} (h : s.poison = [] ∧ Memory.wf s.mem = true ∧ ∀ e ∈ s.squares, e.2.shadow = none) : SlicesRest s :=
  ⟨h.1, h.2.1, h.2.2⟩
theorem scratchRest_of {s : State} {t : Team} (h : s.teams = [(0, t)]) (hw : Memory.wf t.scratch = true) (hp : t.poison = []) :
    ScratchRest s := by
  refine ⟨scratch_of s t h hw, fun k u hk => ?_⟩
  rw [h] at hk
  by_cases h0 : 0 = k
  · simp [tget, h0] at hk
    rw [← hk]; exact hp
  · simp [tget, h0] at hk

/-- A queue of 128 entries at 0x100 with `n` entries in it, and an index list at 0x140 that names row 1. -/
def queueU (n : Nat) : Queue := { queue4 n with cap := 128 }
def tUnit : Team :=
  { withQueue 128 team4 with ports := [some 0x100, none, none, none, none, none, none, none],
                             scratch := [(0x101, 2), (0x104, 128), (0x110, 2), (0x140, 1), (0x800, 0x5A)] }
def unitState (n : Nat) (o : EngOp) (s : State) : State :=
  let s := withOps [o] { s with teams := [(0, tUnit)], queues := [(0x100, queueU n)] }
  { s with cur := { s.cur with arg := { s.cur.arg with op := 5 } } }
def sUnit (n : Nat) (o : EngOp) : State :=
  tlbFill (memWrite (unitState n o s4) 0x20000 ((List.range 64).map (fun i => BitVec.ofNat 8 (i + 1)))) 0 0 0x20000
theorem restUnit (n : Nat) (o : EngOp) (h : SlicesRest (sUnit n o) := by exact slicesRest_of (by decide +kernel)) : SlicesRest (sUnit n o) := h

/-- CPY between 64 bytes at 0x20040 and the queue. -/
def queueCpy (op : Nat) : EngOp :=
  op4 5 0 .running (bytesOf 1 op ++ bytesOf 11 0 ++ bytesOf 4 64 ++ bytesOf 8 0x20040 ++ bytesOf 8 64 ++ bytesOf 4 0x100 ++
    bytesOf 4 0 ++ bytesOf 4 1 ++ bytesOf 20 0)
/-- GAT of rows of 64 bytes at 0x20000, the index list at 0x140, to offset 0x800 or to the queue. -/
def rowGat (op dst : Nat) (aux : List Nat) : EngOp :=
  { op4 5 1 .running (bytesOf 1 op ++ bytesOf 11 0 ++ bytesOf 4 64 ++ bytesOf 8 0x20000 ++ bytesOf 8 64 ++ bytesOf 4 0x140 ++
    bytesOf 4 1 ++ bytesOf 4 dst ++ bytesOf 4 8 ++ bytesOf 16 0) with aux := aux }

/-- Decidable parts of the queue units. -/
def queueFits (s : State) (o : EngOp) (off : Word) (q : Queue) : Prop :=
  (resolve s o.team off 32).toOption.any (fun p => present s p 32) = true ∧ currentQueue s o.team off = some (0x100, q)
theorem serves_of {s : State} {o : EngOp} {off : Word} {q : Queue} (h : queueFits s o off q) : QueueServes s o off 0x100 q := by
  refine ⟨?_, h.2⟩
  cases hr : resolve s o.team off 32 with
  | error e => have := h.1; rw [hr] at this; cases this
  | ok p => exact ⟨p, rfl, by have := h.1; rw [hr] at this; exact this⟩

theorem met_EngineUnits_queues :
    (let o := queueCpy 3
     OpRuns (sUnit 16 o) o 0 3 ∧ SlicesRest (sUnit 16 o) ∧ o.done = 0 ∧ 0 < (cmdWord o 12 + 4095) / 4096 ∧
      o.unit = 0 * ((cmdWord o 12 + 4095) / 4096) + 0 ∧ (cmdLong o 16 + 0 * cmdLong o 24 + 4096 * 0) % 2 ^ 64 = 0x20040 ∧
      min 4096 (cmdWord o 12 - 4096 * 0) = 64 ∧ opLine (sUnit 16 o) o .write 0x20040 64 = some 0x20040 ∧
      QueueServes (sUnit 16 o) o (cmdOff o 32) 0x100 (queueU 16) ∧ myTurn (queueU 16).poppers (opWaiter o) = true ∧
      16 ≤ occupancy (queueU 16) ∧ ringPresent (sUnit 16 o) 0x100 (queueU 16) (queueU 16).head.toNat 16 = true) ∧
    (let o := queueCpy 4
     OpRuns (sUnit 0 o) o 0 4 ∧ SlicesRest (sUnit 0 o) ∧ o.done = 0 ∧ min 4096 (cmdWord o 12 - 4096 * 0) = 64 ∧
      opLine (sUnit 0 o) o .read 0x20040 64 = some 0x20040 ∧
      QueueServes (sUnit 0 o) o (cmdOff o 32) 0x100 (queueU 0) ∧ myTurn (queueU 0).pushers (opWaiter o) = true ∧
      16 ≤ (queueU 0).cap - occupancy (queueU 0)) ∧
    (let o := rowGat 2 0x100 [1]
     OpRuns (sUnit 0 o) o 1 2 ∧ SlicesRest (sUnit 0 o) ∧ ScratchRest (sUnit 0 o) ∧ o.done = 0 ∧ RowIndex (sUnit 0 o) o 1 ∧
      (cmdLong o 16 + 1 * cmdLong o 24) % 2 ^ 64 = 0x20040 ∧ cmdWord o 12 = 64 ∧
      opLine (sUnit 0 o) o .read 0x20040 64 = some 0x20040 ∧
      QueueServes (sUnit 0 o) o (cmdOff o 40) 0x100 (queueU 0) ∧ myTurn (queueU 0).pushers (opWaiter o) = true ∧
      16 ≤ (queueU 0).cap - occupancy (queueU 0)) := by
  refine ⟨⟨opRuns_of (by decide +kernel), restUnit _ _, by decide, by decide +kernel, by decide +kernel, by decide +kernel,
    by decide +kernel, by decide +kernel, serves_of (by unfold queueFits; decide +kernel), by decide, by decide, by decide +kernel⟩,
    ⟨opRuns_of (by decide +kernel), restUnit _ _, by decide, by decide +kernel, by decide +kernel,
      serves_of (by unfold queueFits; decide +kernel), by decide, by decide⟩,
    ⟨opRuns_of (by decide +kernel), restUnit _ _, scratchRest_of (t := tUnit) (by decide +kernel) (by decide +kernel) rfl, by decide,
      .inl rfl, by decide +kernel, by decide +kernel, by decide +kernel, serves_of (by unfold queueFits; decide +kernel), by decide,
      by decide⟩⟩

theorem met_EngineUnits_rows : ∀ x ∈ [(1, Kind.read), (3, .write)], ∀ aux ∈ [[], [1]],
    (let o := rowGat x.1 0x800 aux
     let s := sUnit 0 o
     OpRuns s o 1 x.1 ∧ SlicesRest s ∧ ScratchRest s ∧ o.done = 0 ∧ RowIndex s o 1 ∧
      (cmdLong o 16 + 1 * cmdLong o 24) % 2 ^ 64 = 0x20040 ∧ cmdWord o 12 = 64 ∧ opLine s o x.2 0x20040 64 = some 0x20040 ∧
      offPlus (cmdOff o 40) (o.unit * 64) = some 0x800 ∧ SpotsPlain s (spotsFor s o.team 0x800 0 64) 64 ∧
      spadReady s (spotsFor s o.team 0x800 0 64) = true) := by
  have h : ∀ x ∈ [(1, Kind.read), (3, .write)], ∀ aux ∈ [[], [1]],
      (let o := rowGat x.1 0x800 aux
       let s := sUnit 0 o
       (Machine.opOf s s.cur.arg.op = some o ∧ o.phase = .running ∧ (ctxOf s o.ctx).stat = 0 ∧ o.eng = 1 ∧ cmdOp o.cmd = x.1 ∧
         o.ending = false) ∧
       (s.poison = [] ∧ Memory.wf s.mem = true ∧ ∀ e ∈ s.squares, e.2.shadow = none) ∧ s.teams = [(0, tUnit)] ∧ o.done = 0 ∧
       (let l := spotsFor s o.team (cmdOff o 32) (4 * o.unit) 4
        o.aux = [1] ∨ (o.aux = [] ∧ ((l.map (·.n)).sum = 4 ∧ ∀ x ∈ l, x.spot.chk = false ∧ (tget s.teams x.spot.team).isSome) ∧
          spadReady s l = true ∧ 1 = ofBytes (spotBytes s l) ∧ 1 < cmdWord o 44)) ∧
       (cmdLong o 16 + 1 * cmdLong o 24) % 2 ^ 64 = 0x20040 ∧ cmdWord o 12 = 64 ∧ opLine s o x.2 0x20040 64 = some 0x20040 ∧
       offPlus (cmdOff o 40) (o.unit * 64) = some 0x800 ∧
       (((spotsFor s o.team 0x800 0 64).map (·.n)).sum = 64 ∧
         ∀ x ∈ spotsFor s o.team 0x800 0 64, x.spot.chk = false ∧ (tget s.teams x.spot.team).isSome) ∧
       spadReady s (spotsFor s o.team 0x800 0 64) = true) := by decide +kernel
  intro x hx aux ha
  obtain ⟨h1, h2, h3, h4⟩ := h x hx aux ha
  exact ⟨opRuns_of h1, slicesRest_of h2, scratchRest_of h3 (by decide +kernel) rfl, h4⟩

/-- KVS of sequence 1, at its first page, whose tile is 256 bytes. -/
def pageKvs (op : Nat) : EngOp :=
  { op4 5 2 .running (bytesOf 1 op ++ bytesOf 11 0 ++ bytesOf 4 1 ++ bytesOf 4 0 ++ bytesOf 4 0 ++ bytesOf 4 3 ++ bytesOf 4 0x100 ++
    bytesOf 4 16 ++ bytesOf 28 0) with aux := [3, 16, 0] }
def sKvs (o : EngOp) : State := unitState 0 o (withSeq 3 2 s4)
theorem met_EngineUnits_tiles : (∀ op ∈ [1, 2],
    (let o := pageKvs op
     let r := kvsReach (sKvs o) o
     OpRuns (sKvs o) o 2 op ∧ o.done = 0 ∧ o.data = [] ∧ r.2.data.length = kvsTile o ∧ kvsTile o = 256 ∧
      QueueServes r.1 o (cmdOff o 28) 0x100 (queueU 0) ∧ isBound r.1 0x100 = true ∧ (∀ y ∈ (queueU 0).pushers, y = opWaiter o) ∧
      (queueU 0).cap ≤ 65536 ∧ kvsTile o / 4 ≤ (queueU 0).cap - occupancy (queueU 0))) ∧
    (let o := pageKvs 1
     (sKvs o).poison = [] ∧ o.aux = [3, 16, 0] ∧ cmdWord o 20 / 16 + o.unit = 0 ∧
      pageAt (sKvs o) (seqEntry (sKvs o) (kvsSeq o)) (cmdWord o 16) 0 = some 3 ∧ pageGet (sKvs o) 3 117 2 ≠ 3 ∧ 255 < 16 * 16) := by
  have h : ∀ op ∈ [1, 2],
      (let o := pageKvs op
       let r := kvsReach (sKvs o) o
       (Machine.opOf (sKvs o) (sKvs o).cur.arg.op = some o ∧ o.phase = .running ∧ (ctxOf (sKvs o) o.ctx).stat = 0 ∧ o.eng = 2 ∧
         cmdOp o.cmd = op ∧ o.ending = false) ∧
       (o.done = 0 ∧ o.data = [] ∧ r.2.data.length = kvsTile o ∧ kvsTile o = 256) ∧
       ((resolve r.1 o.team (cmdOff o 28) 32).toOption.any (fun p => present r.1 p 32) = true ∧
         currentQueue r.1 o.team (cmdOff o 28) = some (0x100, queueU 0)) ∧ isBound r.1 0x100 = true ∧
       (∀ y ∈ (queueU 0).pushers, y = opWaiter o) ∧ (queueU 0).cap ≤ 65536 ∧
       kvsTile o / 4 ≤ (queueU 0).cap - occupancy (queueU 0)) := by decide +kernel
  refine ⟨fun op hop => ?_, by decide +kernel⟩
  obtain ⟨h1, ⟨h2, h3, h4, h5⟩, h6, h7⟩ := h op hop
  exact ⟨opRuns_of h1, h2, h3, h4, h5, serves_of h6, h7⟩

/-- DEC of a unit of 64 bytes at 0x20000 into 4-bit tiles at offset 0x800, status words at 0x40. -/
def frameDec (aux : List Nat) : EngOp :=
  { op4 5 3 .running (bytesOf 1 1 ++ bytesOf 11 0 ++ bytesOf 4 0x20 ++ bytesOf 8 0x20000 ++ bytesOf 4 64 ++ bytesOf 4 0x002C014A ++
    bytesOf 4 0 ++ bytesOf 4 0x3F800000 ++ bytesOf 4 0x800 ++ bytesOf 4 0x40 ++ bytesOf 16 0) with aux := aux }
/-- A frame of one tile that is under way; and a command at its start, but for what the decoder makes of the unit, which is
the part's own (`Config.av1`), so that no unit provably shows a frame. -/
theorem met_EngineUnits_frames :
    (let o := frameDec ([1, 2048, 7, 0] ++ [0])
     let s := sUnit 0 o
     OpRuns s o 3 1 ∧ ScratchRest s ∧ o.aux = [1, 2048, 7, 0] ++ [0] ∧ decTileBytes o = 2048 ∧ ∀ k ∈ [0], TilePlain s o 2048 k) ∧
    (let o := frameDec []
     let s := sUnit 0 o
     OpRuns s o 3 1 ∧ SlicesRest s ∧ ScratchRest s ∧ o.aux = [] ∧ o.buf = [] ∧
      opSpan s o .read (cmdLong o 16) (cmdWord o 24) = some [(0x20000, 64)] ∧
      blockFault s o.team (cmdOff o 40) 0 (1 * 2048) = false ∧ blockFault s o.team (cmdOff o 44) 0 (4 * 1) = false) := by
  refine ⟨⟨opRuns_of (by decide +kernel), scratchRest_of (t := tUnit) (by decide +kernel) (by decide +kernel) rfl, by decide,
    by decide +kernel, ?_⟩, opRuns_of (by decide +kernel), restUnit _ _,
    scratchRest_of (t := tUnit) (by decide +kernel) (by decide +kernel) rfl, by decide +kernel⟩
  have h : ∀ k ∈ [0],
      (let o := frameDec ([1, 2048, 7, 0] ++ [0])
       let s := sUnit 0 o
       (((spotsFor s o.team (cmdOff o 40) (k * 2048) 2048).map (·.n)).sum = 2048 ∧
         ∀ x ∈ spotsFor s o.team (cmdOff o 40) (k * 2048) 2048, x.spot.chk = false ∧ (tget s.teams x.spot.team).isSome) ∧
       (((spotsFor s o.team (cmdOff o 44) (4 * k) 4).map (·.n)).sum = 4 ∧
         ∀ x ∈ spotsFor s o.team (cmdOff o 44) (4 * k) 4, x.spot.chk = false ∧ (tget s.teams x.spot.team).isSome)) := by
    decide +kernel
  exact h

/-- A collective of FP32 numbers between members 5 and 6, rank 0 here, the other's segment arrived. -/
def pairCol (op : Nat) (data : List Byte) : EngOp :=
  { op4 5 4 .running (bytesOf 1 op ++ bytesOf 11 0 ++ bytesOf 4 0 ++ bytesOf 8 0 ++ bytesOf 8 0x20000 ++ bytesOf 8 0x20100 ++
    bytesOf 4 4 ++ bytesOf 20 0) with aux := [2, 0, 5, 6, 1], data := data }
def colWs (s : State) (o : EngOp) (own : List Byte) : List (List (Nat × Nat) × List Byte) :=
  (colWrites o own).map (fun w => ((opSpan s o .write w.1 w.2.length).getD [], w.2))
theorem met_EngineUnits_collectives : ∀ x ∈ [(1, 16), (2, 8), (3, 16)],
    (let o := pairCol x.1 (List.replicate x.2 0)
     let s := sUnit 0 o
     let l := [(0x20000, x.2)]
     let own := pieceBytes s l
     OpRuns s o 4 x.1 ∧ SlicesRest s ∧ o.aux ≠ [] ∧ colWaits o = false ∧ o.buf = [] ∧ o.put = 0 ∧
      opSpan s o .read (cmdLong o 24 + ((if x.1 = 2 then colRank o * colPer o else 0) + (colSegment o).1) * colSize o)
        ((colSegment o).2 * colSize o) = some l ∧
      (colWrites o own).map (fun w => (opSpan s o .write w.1 w.2.length, w.2)) = (colWs s o own).map (fun w => (some w.1, w.2))) := by
  have h : ∀ x ∈ [(1, 16), (2, 8), (3, 16)],
      (let o := pairCol x.1 (List.replicate x.2 0)
       let s := sUnit 0 o
       let l := [(0x20000, x.2)]
       let own := pieceBytes s l
       (Machine.opOf s s.cur.arg.op = some o ∧ o.phase = .running ∧ (ctxOf s o.ctx).stat = 0 ∧ o.eng = 4 ∧ cmdOp o.cmd = x.1 ∧
         o.ending = false) ∧
       (s.poison = [] ∧ Memory.wf s.mem = true ∧ ∀ e ∈ s.squares, e.2.shadow = none) ∧
       o.aux ≠ [] ∧ colWaits o = false ∧ o.buf = [] ∧ o.put = 0 ∧
       opSpan s o .read (cmdLong o 24 + ((if x.1 = 2 then colRank o * colPer o else 0) + (colSegment o).1) * colSize o)
         ((colSegment o).2 * colSize o) = some l ∧
       (colWrites o own).map (fun w => (opSpan s o .write w.1 w.2.length, w.2)) =
         (colWs s o own).map (fun w => (some w.1, w.2))) := by decide +kernel
  intro x hx
  obtain ⟨h1, h2, h3⟩ := h x hx
  exact ⟨opRuns_of h1, slicesRest_of h2, h3⟩

/-- SSU COPY of 64 bytes of sequence 1, layer 0, from slot `a` to slot `b`. -/
def slotSsu (a b : Nat) : EngOp :=
  op4 5 5 .running (bytesOf 1 1 ++ bytesOf 11 0 ++ bytesOf 4 1 ++ bytesOf 4 a ++ bytesOf 4 1 ++ bytesOf 4 b ++ bytesOf 4 64 ++
    bytesOf 32 0)
theorem met_EngineUnits_states : ∀ x ∈ [(255, 0), (0, 255), (0, 1)],
    (let o := slotSsu x.1 x.2
     OpRuns (sKvs o) o 5 1 ∧ (sKvs o).poison = [] ∧ MemoryCanonical (sKvs o) ∧ ssuSide o 12 = (1, 0, x.1) ∧ ssuSide o 20 = (1, 0, x.2) ∧
      lhWref (layerHead (sKvs o) (seqEntry (sKvs o) 1) 0) = false) := by
  have h : ∀ x ∈ [(255, 0), (0, 255), (0, 1)],
      (let o := slotSsu x.1 x.2
       (Machine.opOf (sKvs o) (sKvs o).cur.arg.op = some o ∧ o.phase = .running ∧ (ctxOf (sKvs o) o.ctx).stat = 0 ∧ o.eng = 5 ∧
         cmdOp o.cmd = 1 ∧ o.ending = false) ∧
       (sKvs o).poison = [] ∧ Memory.wf (sKvs o).mem = true ∧ ssuSide o 12 = (1, 0, x.1) ∧ ssuSide o 20 = (1, 0, x.2) ∧
       lhWref (layerHead (sKvs o) (seqEntry (sKvs o) 1) 0) = false) := by decide +kernel
  intro x hx
  obtain ⟨h1, h2⟩ := h x hx
  exact ⟨opRuns_of h1, h2⟩

/-- Commands wait in the queues of cores 0 and 1 for the collective engine of their die, which served core 0 last. -/
def sTake : State :=
  let s := withOps [op4 1 4 .queued (cpyCmd 1 0 0x100), op4 2 4 .queued (cpyCmd 1 0 0x100),
    { op4 3 4 .queued (cpyCmd 1 0 0x100) with core := 1 }] (sCmd 0 0)
  { regSet s 0x120 (BitVec.allOnes 64) with rotation := [(4096 * 4, 0)], cur := { s.cur with arg := { s.cur.arg with eng := 4 } } }
/-- The team waits at a PUSHW of s8 to engine 0, which stands at 0x10000. -/
def sPushw : State :=
  let s := memWrite (sCmd 0 0) 0x10000 (bytesOf 4 ((encode { stall := 3, guard := 0, scope := 0 } (.pushw 8 0)).getD 0 0).toNat)
  { s with cur := Cur.none }
/-- The last unit of a copy whose counter is at 0x28000. -/
def lastOp : EngOp := { runOp 0 2 with cmd := cpyCmd 2 1 0x28000, unit := 1, phase := .unitDone, bytes := 64 }
/-- An operation whose barrier has 96 bytes to come and 2 corrupt units. -/
def tCount : Team := { tCmd 0 0 with scratch := (tCmd 0 0).scratch ++ [(0x104, 96), (0x108, 2)] }
def sCount : State := setTeam (sOp (runOp 0 1)) 0 tCount
/-- A collective of nodes 7 (this device) and 9, whose segment of `count` words has not come. -/
def colOp (phase : OpPhase) : EngOp := { op4 5 4 phase (bytesOf 12 1 ++ bytesOf 28 0 ++ bytesOf 24 3) with aux := [2, 0, 7, 9] }
def sCol (phase : OpPhase) (n : Nat) (gtick : Nat) : State :=
  let s := sOp (colOp phase)
  { regSet s 0x80378 100 with gtick := gtick,
                              cur := { s.cur with arg := { s.cur.arg with op := 5, peer := 9, data := List.replicate n 1 } } }
/-- A checkpoint to the start of far memory; `save` is the save area of context 0. -/
def ckpOp : EngOp := op4 5 6 .running (bytesOf 1 1 ++ bytesOf 1 1 ++ bytesOf 10 0 ++ bytesOf 8 farBase ++ bytesOf 44 0)
def sCkp (save : DWord) : State :=
  regSet (regSet (regSet (sOp ckpOp) 0x80640 save) 0x300 0x100FFFFF00000) 0x100 (BitVec.allOnes 64)

/-- What stands at a waiting instruction, without the machine. -/
def waitsAt (s : State) : Option Instr := (waitingInstr s 0 0).map (·.1)
def madeReady (s : State) : State := ((waitingInstr s 0 0).map (·.2)).getD s
theorem waits_of {s : State} {i : Instr} (h : waitsAt s = some i) : waitingInstr s 0 0 = some (i, madeReady s) := by
  unfold waitsAt at h
  unfold madeReady
  cases hw : waitingInstr s 0 0 with
  | none => rw [hw] at h; cases h
  | some x =>
    rw [hw] at h
    cases h
    rfl

/-- The checkpoint command begins, and every context can be saved. -/
def ckpAt (save : DWord) : Prop := Machine.opOf (sCkp save) (sCkp save).cur.arg.op = some ckpOp ∧ ckpOp.eng = 6 ∧
  ckpOp.phase = .running ∧ ckpOp.unit = 0 ∧ ckpOp.aux = [] ∧ cmdLong ckpOp 12 = farBase ∧
  ∀ c ∈ quiesced (sCkp save), saveReady (sCkp save) c = true

theorem met_EngineEvents :
    (∃ o, nextTake sTake sTake.cur.arg.eng sTake.cur.arg.inst = some o) ∧
    (waitingInstr sPushw sPushw.cur.arg.team sPushw.cur.arg.gid = some (.pushw 8 0, madeReady sPushw) ∧
      UniReady (madeReady sPushw) (tCmd 0 0) grp4 ∧ representative (tCmd 0 0) grp4 = some (0, 0) ∧ (0#6).toNat < 7 ∧
      queueFull (madeReady sPushw) 0 0 = false) ∧
    (let o : EngOp := { runOp 0 1 with phase := .unitDone, bytes := 64 }
     Machine.opOf (sOp o) (sOp o).cur.arg.op = some o ∧ o.unit + 1 < (opShape o).1 ∧ (∀ y ∈ o.lines, y.2.2 ≠ 0) ∧
       cmdCk o.cmd = false ∧ o.eng = 0) ∧
    ((∃ p, resolve sCount 0 (cmdOff (runOp 0 1) 4) 16 = .ok p) ∧ ScratchCanonical sCount ∧
      (∀ p, resolve sCount 0 (cmdOff (runOp 0 1) 4) 16 = .ok p → p.chk = false ∧ (tget sCount.teams p.team).isSome ∧
        scratchPoisoned sCount p.team p.pos 16 = false ∧ p.pos % 16 = 0) ∧ ¬((0 : Nat) = 0 ∧ (1 : Nat) = 0)) ∧
    (lastOp.eng = 0 ∧ lastOp.unit + 1 = (opShape lastOp).1 ∧ cmdCk lastOp.cmd = true ∧ cmdCompl lastOp.cmd % 4 = 0 ∧
      (Machine.translate (sOp lastOp) 0 0 (BitVec.ofNat 64 (cmdCompl lastOp.cmd)) .rmw false).toOption.any (fun l =>
        l.phys (cmdCompl lastOp.cmd) == 0x28000 && !l.checked && !l.recorded) = true ∧ placeOf (sOp lastOp) 0x28000 = .near ∧
      (sOp lastOp).poison = [] ∧ MemoryCanonical (sOp lastOp) ∧ ∀ e ∈ (sOp lastOp).squares, e.2.shadow = none) ∧
    ((runOp 6 1).eng < 7 ∧ Machine.opOf (sOp { runOp 0 1 with phase := .stalled }) 5 = some { runOp 0 1 with phase := .stalled }) ∧
    (Machine.opOf (sCol .stalled 12 100) 5 = some (colOp .stalled) ∧ (colOp .stalled).eng = 4 ∧ colWaits (colOp .stalled) = true ∧
      (regGet (sCol .stalled 12 100) 0x80378).toNat = 100) ∧
    (Machine.opOf (sCol .running 12 5) 5 = some (colOp .running) ∧
      (colIds (colOp .running)).findIdx? (· == (sCol .running 12 5).cur.arg.peer) = some 1 ∧ 1 ≠ colRank (colOp .running) ∧
      1 ∉ colHeard (colOp .running) ∧ (sCol .running 12 5).cur.arg.data.length = (colSegment (colOp .running)).2 * colSize (colOp .running) ∧
      (sCol .running 11 5).cur.arg.data.length ≠ (colSegment (colOp .running)).2 * colSize (colOp .running)) ∧
    (ckpAt 0 ∧ ckpBlocked (sCkp 0) = true) ∧ (ckpAt 0x100000 ∧ ckpBlocked (sCkp 0x100000) = false) ∧
    ((sCkp 0).poison = [] ∧ MemoryCanonical (sCkp 0) ∧ farUp (sCkp 0) (farBase + 0x20000) = true ∧
      farBase + 0x20000 < farBase + nearEnd (sCkp 0) ∧ 0x20000 < farBase) := by
  refine ⟨some_of _ (by decide +kernel), ⟨waits_of (by decide +kernel), ?_, by decide +kernel, by decide, by decide +kernel⟩,
    by decide +kernel, ⟨ok_of _ (by decide +kernel), scratch_of _ tCount (by decide +kernel) (by decide +kernel), ?_, by decide⟩,
    ⟨by decide, by decide +kernel, by decide +kernel, by decide +kernel, by decide +kernel, by decide +kernel, by decide +kernel, ?_,
      by decide +kernel⟩, by decide +kernel, by decide +kernel, by decide +kernel, ?_, ?_,
    ⟨by decide +kernel, ?_, by decide +kernel, by decide +kernel, by decide +kernel⟩⟩
  · unfold UniReady Issues; decide +kernel
  · have h : (resolve sCount 0 (cmdOff (runOp 0 1) 4) 16).toOption.any (fun p => !p.chk && (tget sCount.teams p.team).isSome &&
        !scratchPoisoned sCount p.team p.pos 16 && p.pos % 16 == 0) = true := by decide +kernel
    intro p hp
    rw [hp] at h
    simpa [Except.toOption, and_assoc] using h
  · unfold MemoryCanonical; decide +kernel
  · unfold ckpAt; decide +kernel
  · unfold ckpAt; decide +kernel
  · unfold MemoryCanonical; decide +kernel

/-- A launch record at the head of queue 5: entry 0x10000, one team of 4 threads in clusters of 1, an argument block, the
binding table at 0x2A000 and a counter at 0x28000; with one condition, that the counter 4 bytes on has reached `tgt`. -/
def rec4 (nthr ntx tgt : Nat) : Nat :=
  0x10000 + 0x29000 * 2 ^ 64 + 1 * 2 ^ 120 + 0x2A000 * 2 ^ 128 + 1 * 2 ^ 184 + 0x28000 * 2 ^ 192 + ntx * 2 ^ 256 + 1 * 2 ^ 288 +
    1 * 2 ^ 320 + nthr * 2 ^ 352 + 4 * 2 ^ 384 + tgt * 2 ^ 408
/-- The dispatcher is about to read that record, on a device without teams whose L2 and first core cluster are ready. -/
def sHead (nthr ntx tgt magic : Nat) : State :=
  let s := [(0x480A0, 8, 0x4A000), (0x480A8, 4, 16), (0x480AC, 4, 0), (0x480B0, 4, 1), (0x480B4, 4, 1), (0x4A000, 64, rec4 nthr ntx tgt),
      (0x0FF80, 8, 0x4000 * 2 ^ 32), (0x2A000, 8, magic + 1 * 2 ^ 32 + 1 * 2 ^ 48), (0x2A040, 16, 0x0004075C + 2 ^ 106), (0x28004, 4, 3)].foldl
    (fun s x => memPut s x.1 x.2.1 x.2.2) (regSet (regSet (regSet (loadPages State.reset) 0x28 0x48000) 0x100 0x40000000) 0x108 1)
  { modLq s 5 (fun x => { x with served := true }) with cur := { Cur.none with arg := { lq := 5 } } }
/-- Its window table: one window of 16 KiB. -/
def win4 : List Window := { base := 0, size := 0x4000, swz := 0, chk := false } ::
  List.replicate 15 { base := 0, size := 0, swz := 0, chk := false }
/-- The record at its head, its condition not yet held. -/
def headRec4 (nthr ntx tgt : Nat) (held : Bool) : HeadRec :=
  { record := { raw := BitVec.ofNat 512 (rec4 nthr ntx tgt) }, conds := [(0x28004, BitVec.ofNat 8 tgt, held)],
    windows := win4, placed := 0, launch := 0 }
def sPlace (nthr ntx tgt magic : Nat) (held : Bool) : State :=
  let s := modLq (sHead nthr ntx tgt magic) 5 (fun x => { x with headRec := some (headRec4 nthr ntx tgt held) })
  { s with launches := [(0, { lq := 5, recNo := 0, ctx := 0, compl := 0x28000, rsys := false, left := ntx, cores := [] })], nextLaunch := 1 }
/-- A team whose threads have exited, of a launch with `left` teams. -/
def tDone : Team := { team4 with threads := team4.threads.map (fun th => { th with live := false }), groups := [] }
def sDone (left : Nat) : State :=
  let s := at4 (fun _ => tDone)
  { s with launches := if left = 0 then [] else [(0, { lq := 5, recNo := 0, ctx := 0, compl := 0, rsys := false, left := left, cores := [] })],
           cur := Cur.none }
/-- A group that waits to publish by the LAUNCH at its pc. -/
def sPubEv (tail : Nat) (n : Word) : State :=
  { memWrite (sPub 0 tail n) 0x10000 (bytesOf 4 ((encode { stall := 3, guard := 0, scope := 0 } (.launch 9 5 6)).getD 0 0).toNat) with
    cur := Cur.none }

/-- What the dispatcher has read of the record at the head of queue 5: itself, and its window table. -/
def headWindows (s : State) : Option (List Window) × State :=
  windowTable (consumeAt (unitOf 1 (homeSlice (lqSlot s 5 (lqOf s 5).head))) s (lqSlot s 5 (lqOf s 5).head) 64) 0 0x10000
/-- The record is at the head of its queue, and its window table and conditions can be read. -/
def headAt (nthr ntx magic : Nat) : Prop :=
  headDue (sHead nthr ntx 3 magic) 5 = true ∧ queueCtx (sHead nthr ntx 3 magic) 5 = 0 ∧
    memNat (sHead nthr ntx 3 magic) (lqSlot (sHead nthr ntx 3 magic) 5 (lqOf (sHead nthr ntx 3 magic) 5).head) 64 = rec4 nthr ntx 3 ∧
    (headWindows (sHead nthr ntx 3 magic)).1 = some (headRec4 nthr ntx 3 true).windows ∧
    (condWords (headWindows (sHead nthr ntx 3 magic)).2 0 { raw := BitVec.ofNat 512 (rec4 nthr ntx 3) } 4).isSome = true
/-- The same record without a counter, whose condition then names none. -/
def rec0 : LaunchRec := { raw := BitVec.ofNat 512 (rec4 4 1 3 - 0x28000 * 2 ^ 192) }
/-- The record's cluster as it is placed. -/
def placed4 (nthr ntx magic : Nat) : HeadRec × State := placeHead (sPlace nthr ntx 3 magic true) 5 (headRec4 nthr ntx 3 true)
/-- The cluster has cores to go to. -/
def PlaceAt (s : State) (h0 : HeadRec) : Prop :=
  (lqOf s 5).headRec = some h0 ∧ placeDue s 5 = true ∧ queueOrder.find? (placeReady s) = some 5 ∧
    (clusterCores (placeHead s 5 h0).2 (placeHead s 5 h0).1.record (placeHead s 5 h0).1.windows
      (min (recClsz (placeHead s 5 h0).1.record) (recTeams (placeHead s 5 h0).1.record - (placeHead s 5 h0).1.placed))).isSome = true
theorem placeAt_of {s : State} {h0 : HeadRec} (h : (lqOf s 5).headRec = some h0) (hf : queueOrder.find? (placeReady s) = some 5) :
    PlaceAt s h0 := by
  have hr := List.find?_some hf
  have hp : (placeHead s 5 h0).1.record = h0.record ∧ (placeHead s 5 h0).1.placed = h0.placed := by
    unfold placeHead; split
    · split <;> exact ⟨rfl, rfl⟩
    · exact ⟨rfl, rfl⟩
  simp only [placeReady, h, Bool.and_eq_true] at hr
  refine ⟨h, hr.1, hf, ?_⟩
  rw [hp.1, hp.2] at *
  exact hr.2

theorem fits2048 : fitsCore (sPlace 2048 3 3 0 true) (headRec4 2048 3 3 true).record (headRec4 2048 3 3 true).windows 7 = true ∧
    recNthr (headRec4 2048 3 3 true).record = 2048 := by
  have h : recNthr (headRec4 2048 3 3 true).record = 2048 := by decide +kernel
  refine ⟨?_, h⟩
  simp only [fitsCore, h]
  decide +kernel

theorem table4 : (windowTable (sPlace 4 1 3 0 true) 0 0x10000).1 = some (headRec4 4 1 3 true).windows := by decide +kernel

theorem met_LaunchEvents :
    (waitingInstr (sPubEv 3 3) (sPubEv 3 3).cur.arg.team (sPubEv 3 3).cur.arg.gid = some (.launch 9 5 6, madeReady (sPubEv 3 3)) ∧
      UniReady (madeReady (sPubEv 3 3)) (tPub 3) (grpPub 3) ∧ (grpPub 3).wait = .publish 5 3 0x20000 65536 1 ∧
      canPublish (madeReady (sPubEv 3 3)) 5 3 = true) ∧
    (headAt 4 1 0x444E424B ∧ recordBad { raw := BitVec.ofNat 512 (rec4 4 1 3) } (headRec4 4 1 3 false).windows = false ∧
      (bindingTable (headWindows (sHead 4 1 3 0x444E424B)).2 0 0x2A000).1 ≠ none ∧ recTeams { raw := BitVec.ofNat 512 (rec4 4 1 3) } ≠ 0) ∧
    (headAt 0 1 0x444E424B ∧ recordBad { raw := BitVec.ofNat 512 (rec4 0 1 3) } (headRec4 4 1 3 false).windows = true) ∧
    (headAt 4 1 0 ∧ (bindingTable (headWindows (sHead 4 1 3 0)).2 0 0x2A000).1 = none) ∧
    (condWords (headWindows (sHead 4 1 3 0x444E424B)).2 0 rec0 4).isNone = true ∧
    ((lqOf (sPlace 4 1 4 0 false) (sPlace 4 1 4 0 false).cur.arg.lq).headRec = some (headRec4 4 1 4 false) ∧
      recTeams (headRec4 4 1 4 false).record ≠ 0 ∧ (headRec4 4 1 4 false).conds[0]? = some (0x28004, 4, false)) ∧
    (PlaceAt (sPlace 33 3 3 0x444E424B true) (headRec4 33 3 3 true) ∧ (bindingTable (placed4 33 3 0x444E424B).2 0 0x2A000).1.isSome = true) ∧
    (PlaceAt (sPlace 4 1 3 0 true) (headRec4 4 1 3 true) ∧ (bindingTable (placed4 4 1 0).2 0 0x2A000).1 = none) ∧
    queueOrder.find? (placeReady (sPlace 4 1 4 0 false)) ≠ some (sPlace 4 1 4 0 false).cur.arg.lq ∧
    (queueCtx (sPlace 4 1 3 0 true) 5 = 0 ∧ recEntry (headRec4 4 1 3 true).record = 0x10000 ∧ (windowTable (sPlace 4 1 3 0 true) 0 0x10000).1 =
        some (headRec4 4 1 3 true).windows ∧ recordBad (headRec4 4 1 3 true).record (headRec4 4 1 3 true).windows = false) ∧
    (fitsCore (sPlace 2048 3 3 0 true) (headRec4 2048 3 3 true).record (headRec4 2048 3 3 true).windows 7 = true ∧
      recNthr (headRec4 2048 3 3 true).record = 2048) ∧
    (tget (sDone 1).teams 0 = some tDone ∧ retirable (sDone 1) 0 tDone = true ∧ (tget (sDone 1).launches 0).isSome = true ∧
      tget (sDone 0).teams 0 = some tDone ∧ retirable (sDone 0) 0 tDone = true ∧ tget (sDone 0).launches 0 = none) ∧
    ((tget (sDone 1).launches 0).any (fun l => l.left != 0) = true ∧
      (some { lq := 5, recNo := 0, ctx := 0, compl := 0, rsys := false, left := 0, cores := [] : Launch }).any (fun l => l.left == 0) = true) ∧
    ((∀ c ∈ [0, 7], ∀ e ∈ (coreOf (sHead 4 1 3 0) c).l1, e.2.dirty = false) ∧ (Machine.translate (sHead 4 1 3 0) 768 0 (BitVec.ofNat 64 0x28000) .rmw true).toOption.any (fun l =>
        l.phys 0x28000 == 0x28000 && !l.checked) = true ∧ placeOf (sHead 4 1 3 0) 0x28000 = .near ∧ (sHead 4 1 3 0).poison = [] ∧
      MemoryCanonical (sHead 4 1 3 0) ∧ ∀ e ∈ (sHead 4 1 3 0).squares, e.2.shadow = none) := by
  refine ⟨⟨waits_of (by decide +kernel), ?_, by decide, by decide +kernel⟩, ⟨?_, by decide +kernel, by decide +kernel, by decide +kernel⟩,
    ⟨?_, by decide +kernel⟩, ⟨?_, by decide +kernel⟩, by decide +kernel, by decide +kernel, ⟨?_, by decide +kernel⟩,
    ⟨?_, by decide +kernel⟩, by decide +kernel, ⟨by decide +kernel, by decide +kernel, table4, by decide +kernel⟩, fits2048, by decide +kernel, by decide +kernel,
    ⟨by decide +kernel, by decide +kernel, by decide +kernel, by decide +kernel, ?_, by decide +kernel⟩⟩
  · unfold UniReady Issues; decide +kernel
  · unfold headAt; decide +kernel
  · unfold headAt; decide +kernel
  · unfold headAt; decide +kernel
  · exact placeAt_of (by decide +kernel) (by decide +kernel)
  · exact placeAt_of (by decide +kernel) (by decide +kernel)
  · unfold MemoryCanonical; decide +kernel

/-! ### Events of the cores and contexts -/

/-- A machine at an event. -/
def atEv (a : Arg) (s : State) : State := { s with cur := { Cur.none with arg := a } }
/-- The bin of thread 3 when its timer has just run out, and a spawn bin as old. -/
def tBins : Team := { tBin with spawnBins := [{ key := 0x20000, slice := 0, slots := List.range' 64 32, opened := 0, v0s := [7] }] }
def sBins : State := { atEv { team := 0, slice := 0, key := 0x20000 } (at4 (fun _ => tBins)) with gtick := binTimer tBins }
/-- L1 of core 0 holds two bytes of line 0x400, one of them newer than memory. -/
def sL1 : State := atEv { core := 0, line := 0x400 } (modCore (at4 id) 0 (fun c => { c with
  l1 := [(0x20000, { val := 7, dirty := true }), (0x20001, { val := 8, dirty := false })] }))
def req4 (store : Bool) : Req :=
  { id := 1, team := 0, gid := 0, store := store, issued := 0, sampled := false, lanes := 15, sectors := 1, slot := 0, hwarp := 0,
    pc := 0x10000, ctx := 0, lines := [0x400], tids := [1], regs := [4] }
def sReq4 (store : Bool) : State := atEv { req := 1 } (modCore (at4 id) 0 (fun c => { c with reqs := [req4 store] }))
/-- The group waits. -/
def grpW (w : Wait) : Grp := { grp4 with wait := w }
def tW (w : Wait) : Team := { team4 with groups := [grpW w] }
def sW (w : Wait) : State := { atEv {} (at4 (fun _ => tW w)) with gtick := 50 }
/-- A wait without a monitor on the word at 0x20000, which holds 5. -/
def mon4 (value : Word) : Monitor :=
  { pa := 0x20000, test := 0, value := value, team := 0, gid := 0, tid := some 1, slot := none, poll := 50, counter := false, polled := true }
def sPoll (value : Word) : State := { sW (.lanes 0 [{ tid := 1, pa := 0x20000, value := value, got := none }]) with
  mem := [(0x20000, 5)], monitors := [mon4 value] }
/-- REGX.ACQ stands at the group's pc. -/
def sRegx : State :=
  { memWrite (at4 id) 0x10000 (bytesOf 4 ((encode { stall := 3, guard := 0, scope := 0 } .regxAcq).getD 0 0).toNat) with cur := Cur.none }
/-- A replay whose slice 2 waits for an agent since tick 0. -/
def sGate : State :=
  let s := regSet (regSet (regSet (at4 id) 0x30080 1) 0x30410 3) 0x30088 0x50000
  { atEv { slice := 2 } s with logs := [(2, { agent := 0, run := 0, full := false, gateChunk := 1, gateRun := 0, gateSince := some 0 })],
                               gtick := 36000 }

theorem victim4 : l1Victim (coreOf sL1 0) sL1.cur.arg.line = 0x400 := by
  have h : ((coreOf sL1 0).l1.map (·.1 / 128)).eraseDups = [0x400] := by decide +kernel
  have hl : sL1.cur.arg.line = 0x400 := rfl
  simp [l1Victim, h, hl, leavesBefore]

theorem met_CoreEvents :
    (tget sBins.teams 0 = some tBins ∧ (dueBin sBins tBins.core sBins.cur.arg.slice).isSome = true ∧
      (∃ x ∈ tBins.bins, x.slice = sBins.cur.arg.slice ∧ x.key = BitVec.ofNat 56 sBins.cur.arg.key ∧ binExpired sBins.gtick tBins x = true) ∧
      dueBin sBins tBins.core 1 = none ∧
      (tBins.spawnBins.find? (fun b => b.key == BitVec.ofNat 56 sBins.cur.arg.key)).isSome = true) ∧
    ((coreOf { s4 with gtick := 4096 : State } 0).window < 4096 / 4096 ∧ ∀ i < 4, (coreOf s4 0).allowance.getD i 32 ∈ [2, 4, 8, 16, 32]) ∧
    (MemoryCanonical sL1 ∧ risingFrom 0 (coreOf sL1 0).l1 = true ∧ ∃ e ∈ (coreOf sL1 0).l1, e.1 / 128 = l1Victim (coreOf sL1 0) sL1.cur.arg.line) ∧
    (∃ x, leafOf s4 0 0 0x20000 = .ok x) ∧ (leafOf s4 0 0 0x20000).toOption.any (fun x => !x.2) = true ∧
    (∀ b, (req4 b).sampled = false ∧
      (coreOf (sReq4 b) 0).reqs.find? (fun x => x.id == (sReq4 b).cur.arg.req && x.store == (req4 b).store) = some (req4 b)) ∧
    (requestWrites (coreOf (sReq4 false) 0) 0 (grpW (.score 4)).lanes (0, 4) = true ∧
      requestWrites (coreOf (sReq4 false) 0) 0 (grpW (.score 5)).lanes (0, 5) = false) ∧
    (∀ w ∈ [Wait.verdict, .slots true 1 0 [] (some 50) false, .port 3 0 1], tget (sW w).teams (sW w).cur.arg.team = some (tW w) ∧
      groupOf (tW w) (sW w).cur.arg.gid = some (grpW w) ∧ (grpW w).wait = w ∧ 50 ≤ (sW w).gtick) ∧
    (tget s4.teams 0 = some team4 ∧ nextTrap team4 = none) ∧
    (∀ v ∈ [5, 6], mon4 (BitVec.ofNat 32 v) ∈ (sPoll (BitVec.ofNat 32 v)).monitors ∧ (mon4 (BitVec.ofNat 32 v)).polled = true ∧
      (mon4 (BitVec.ofNat 32 v)).poll ≤ (sPoll (BitVec.ofNat 32 v)).gtick ∧ (sPoll (BitVec.ofNat 32 v)).cur.arg.team = 0 ∧
      (sPoll (BitVec.ofNat 32 v)).cur.arg.gid = 0 ∧
      monitorHolds (mon4 (BitVec.ofNat 32 v)) (testWord (sPoll (BitVec.ofNat 32 v)) 0x20000) = (v == 5)) ∧
    (waitingInstr sRegx sRegx.cur.arg.team sRegx.cur.arg.gid = some (.regxAcq, madeReady sRegx) ∧ UniReady (madeReady sRegx) team4 grp4 ∧
      quadsNeeding team4 0 ≠ [] ∧ myTurn (regxQueue (madeReady sRegx) 0 0) (0, 0) = true ∧
      blocksHeld (madeReady sRegx) 0 0 + (quadsNeeding team4 0).length ≤ 128) ∧
    (replaying sGate = true ∧ sGate.gatesOpen = false ∧ (logOf sGate 2).gateChunk < (regGet sGate (0x30400 + 8 * 2)).toNat ∧
      (logOf sGate 2).gateSince = some 0 ∧ 0 + repTimeout sGate ≤ sGate.gtick) := by
  refine ⟨by decide +kernel, by decide +kernel, ⟨?_, by decide +kernel, by rw [victim4]; decide +kernel⟩, ok_of _ (by decide +kernel),
    by decide +kernel, by decide +kernel, by decide +kernel, by decide +kernel, by decide +kernel, by decide +kernel,
    ⟨waits_of (by decide +kernel), ?_, by decide +kernel, by decide +kernel, by decide +kernel⟩, by decide +kernel⟩
  · unfold MemoryCanonical; decide +kernel
  · unfold UniReady Issues; decide +kernel

/-- A save or restore of context 0 is asked for; its state is `stat`. -/
def sPre (stat : BitVec 2) (pcls : BitVec 2) : State :=
  let s := at4 (fun _ => { team4 with info := { team4.info with pcls := pcls } })
  atEv { v := 0x100 } (modCtx (regSet s 0x80640 0x60000) 0 (fun c => { c with stat := stat }))
/-- The team swapped out at a breakpoint, under ticket 3. -/
def saved4 : Saved :=
  { ctx := 0, status := 3, ticket := 3, offset := 4096, key := 2 ^ 20 + 1,
    team := { team4 with groups := [{ grp4 with park := some { code := 0x41, addr := 0, info := 0, flags := 0, order := 0 } }],
                         brk := some (15, 0, 0xFFFF, 0) }, ops := [], action := none }
/-- A device without teams that holds it; `ready` says whether its cores are up. -/
def sSaved (ready : DWord) : State :=
  { atEv { ticket := 3 } (regSet (regSet (loadPages State.reset) 0x108 ready) 0x80640 0x60000) with saved := [saved4] }
/-- A context in state 3 whose one team is saved. -/
def sBack (ready : DWord) : State :=
  { modCtx (sSaved ready) 0 (fun c => { c with stat := 3 }) with saved := [{ saved4 with status := 0 }] }
/-- A team that a breakpoint has stopped. -/
def tBrk : Team := { saved4.team with brk := some (15, 0, 0xFFFF, 0) }
def sBrk : State := atEv { team := 0 } (regSet (at4 (fun _ => tBrk)) 0x80640 0x60000)

theorem met_ContextEvents :
    (busySwitching (sPre 0 0) = false ∧ (ctxOf (sPre 0 0) 0).stat = 0 ∧ holdsSave (regSet (sPre 0 0) 0x80600 0) 0 = false) ∧
    (busySwitching (sPre 0 2) = false ∧ (ctxOf (sPre 0 2) 0).stat = 0 ∧ holdsSave (regSet (sPre 0 2) 0x80600 0) 0 = true) ∧
    (busySwitching (sPre 2 0) = false ∧ (ctxOf (sPre 2 0) 0).stat = 2) ∧
    (saveDue (sPre 1 0) = some 0 ∧ (ctxOf (sPre 1 0) 0).stat = 1 ∧ saveReady (sPre 1 0) 0 = true) ∧
    (tget (sPre 1 0).teams 0 ≠ none ∧ (sPre 1 0).teams.Pairwise (fun a b => a.1 < b.1)) ∧
    (∀ v, v = 0 ∨ v = 1 → (List.range 16).find? (fun c => (ctxOf (sBack v) c).stat == 3) = some 0 ∧
      (tryRestore (sBack v) 0).isSome = (v == 1)) ∧
    (tget sBrk.teams 0 = some tBrk ∧ swapOutDue sBrk 0 tBrk = true) ∧
    (∀ v, v = 0 ∨ v = 1 → (ticketed (sSaved v) 3 0 = some saved4 ∧ ticketed (sSaved v) 3 1 = some saved4) ∧
      ((seatsFor (sSaved v) saved4).findSome? (fun l => fewest (sSaved v) (l.filter (fitsSaved (sSaved v) saved4.team)))).isSome =
        (v == 1)) ∧
    (ticketed (sSaved 1) 3 2 = some saved4 ∧ saved4.ops = [] ∧
      (seatsFor (sSaved 1) saved4).findSome? (fun l => fewest (sSaved 1) (l.filter (fun core => readyBit (sSaved 1) (64 + core / 8) &&
        decide ((coreTeams (sSaved 1) core).length < 128) && (sramPlace (sSaved 1) core 0 0).isSome))) ≠ none) ∧
    ({ s4 with gtick := 65536 : State }.gtick % 65536 = 0 ∧ { s4 with gtick := 65537 : State }.gtick % 65536 ≠ 0) ∧
    tget s4.teams 0 = some team4 := by
  refine ⟨by decide +kernel, by decide +kernel, by decide +kernel, by decide +kernel, ⟨by decide +kernel, by decide +kernel⟩, ?_,
    by decide +kernel, ?_, by decide +kernel, by decide +kernel, by decide +kernel⟩
  · rintro v (rfl | rfl) <;> decide +kernel
  · rintro v (rfl | rfl) <;> decide +kernel

/-! ### The management core and the outside world -/

/-- A device whose management core is up, `go` started it or not, its dispatcher ready, with an event at it. -/
def sMgm (a : Arg) (go : Bool) (ready : DWord) : State :=
  atEv a { regSet (regSet (loadPages State.reset) 0x100 ready) 0x8 (if go then 1 else 0) with firmware := true }
def mgm0 : State := sMgm { bit := 1, v := 5 } true 0x40000001
def offUp : State := sMgm {} false 0
/-- A register write before and after GO. -/
def sRo (off : Nat) (go : Bool) : State := sMgm { ro := off, v := 0x1234567 } go 1
/-- The management window at `off`; the write gives eight bytes. -/
def sWin (off : Nat) : State := sMgm { pa := 0x10000000000 + off, n := 8, data := bytesOf 8 0x1234 } true 0x40000001
/-- The host at near memory without the table of a context. -/
def sHost (data : List Byte) : State :=
  atEv { pa := 0x3FFE, n := 4, data := data } (memWrite (regSet (regSet State.reset 0x100 0x40000001) 0x8 1) 0x4000 [1, 2, 3])
def sStop (tick : DWord) : State := { regSet (regSet (atEv {} s4) 0x30048 1) 0x30040 tick with gtick := 40 }
def sLink (p : Nat) (now n : Nat) : State :=
  setPortState { atEv { port := p, n := n, pa := farBase + 0x40 } s4 with gtick := now } p
    { retries := 3, backoff := 64, since := 100, failed := false, down := false }
def sIll : State := { s4 with cur := { s4.cur with reject := some { reason := 5, value := 7, word := 0x40070411, len := 1 } } }

theorem met_ManagementEvents :
    (canReady mgm0 1 = true ∧ mgm0.cur.arg.bit = 1 ∧ canReady State.reset 0 = false ∧ State.reset.cur.arg.bit = 0) ∧
    (readyBit (sMgm {} false 1) 0 = true ∧ readyBit offUp 0 = false) ∧
    (((sRo 0x18 true).regs.map (·.1)).Nodup ∧ goSet (sRo 0x18 true) = true ∧ (sRo 0x18 true).cur.arg.ro = 0x18) ∧
    (((sRo 0x18 false).regs.map (·.1)).Nodup ∧ goSet (sRo 0x18 false) = false ∧ (sRo 0x18 false).cur.arg.ro = 0x18) ∧
    (((sRo 0x40 true).regs.map (·.1)).Nodup ∧ untilGo 0x40 = false ∧ (sRo 0x40 true).cur.arg.ro = 0x40 ∧
      (sRo 0x80818 true).cur.arg.ro = 0x80818 + 32 * 0 ∧ ((sRo 0x80818 true).regs.map (·.1)).Nodup) ∧
    (readyBit mgm0 0 = true ∧ MemoryCanonical mgm0) ∧
    ((mgm0.regs.map (·.1)).Nodup ∧ mgm0.marks = []) ∧
    (inMirror s4 0x2000 = false) ∧
    (readyBit mgm0 30 = true ∧ mgm0.cur.arg.v.toNat % 128 < 64 ∧ (atEv { v := 64 } mgm0).cur.arg.v.toNat % 128 = 64 ∧
      64 < (atEv { v := 65 } mgm0).cur.arg.v.toNat % 128 ∧ lqUsable (sLq 0 3) 5 = true ∧ (lqOf (sLq 0 3) 5).served = false ∧
      lqUsable mgm0 5 = false) ∧
    (mgm0.tlbinv = none ∧ { mgm0 with tlbinv := some 5 : State }.tlbinv = some 5) ∧
    ({ mgm0 with attest := some [1, 2, 3, 4, 5, 6] : State }.attest = some [1, 2, 3, 4, 5, 6]) ∧
    (mgm0.cur.arg.die < 8 ∧ mgm0.cur.arg.die ∉ mgm0.throttled) ∧
    (mgm0.gamrel = none ∧ { sGam 0 0 with gamrel := some 0 : State }.gamrel = some 0 ∧ ((sGam 0 0).cores.map (·.1)).Nodup ∧
      ∃ x ∈ (coreOf (sGam 0 0) 0).gam, x.2.owner = some (0 % 16)) := by
  refine ⟨by decide +kernel, by decide +kernel, by decide +kernel, by decide +kernel, by decide +kernel,
    ⟨by decide +kernel, ?_⟩, by decide +kernel, by decide +kernel, by decide +kernel, by decide +kernel, by decide +kernel,
    by decide +kernel, by decide +kernel⟩
  unfold MemoryCanonical; decide +kernel

theorem met_HostEvents :
    (placeOf (sWin 0x40) (sWin 0x40).cur.arg.pa = .management 0x40 ∧ answers (sWin 0x40) true = true ∧
      (sWin 0x40).cur.arg.data.length = 8) ∧
    (placeOf (atEv { pa := 0x10000000040 } offUp) 0x10000000040 = .management 0x40 ∧
      answers (atEv { pa := 0x10000000040 } offUp) true = false) ∧
    (∀ d, d = [] ∨ d = [9, 8, 7] → answers (sHost d) false = true ∧ readyBit (sHost d) 30 = true ∧
      (∀ e ∈ (sHost d).squares, e.2.shadow = none) ∧ (sHost d).cur.arg.pa < nearEnd (sHost d) ∧
      (sHost d).poison = [] ∧ MemoryCanonical (sHost d) ∧ (sHost d).cur.arg.pa + (sHost d).cur.arg.n ≤ nearEnd (sHost d) ∧
      (sHost d).cur.arg.n ≠ 0 ∧
      (∀ i < 16, (regGet (sHost d) (0x400 + 8 * i)).getLsbD 0 = false) ∧ (sHost d).cur.arg.data = d ∧
      (sHost d).cur.arg.pa + d.length ≤ nearEnd (sHost d)) ∧
    (((sStop 30).regs.map (·.1)).Nodup ∧ (regGet (sStop 30) 0x30048).getLsbD 0 = true ∧ (sStop 30).stopped = false ∧
      (regGet (sStop 30) 0x30040).toNat ≤ (sStop 30).gtick) ∧
    (((sStop 50).regs.map (·.1)).Nodup ∧ (regGet (sStop 50) 0x30048).getLsbD 0 = true ∧ (sStop 50).stopped = false ∧
      (sStop 50).gtick < (regGet (sStop 50) 0x30040).toNat) ∧
    ({ s4 with stopped := true : State }.stopped = true) ∧ (readyBit mgm0 0 = true ∧ (mgm0.regs.map (·.1)).Nodup) ∧
    (mgm0.cur.arg.slice < 128) ∧
    ((regGet s4 0x31008).toNat = 0 ∧ (regGet (regSet s4 0x31008 64) 0x31008).toNat ≠ 0) ∧
    ((sLink 3 120 0).cur.arg.port = 3 ∧ (portOf (sLink 3 120 0) 3).failed = false ∧
      (sLink 3 120 0).gtick < (portOf (sLink 3 120 0) 3).since + (portOf (sLink 3 120 0) 3).backoff ∧
      (portOf (sLink 3 164 0) 3).failed = false ∧
      (portOf (sLink 3 164 0) 3).since + (portOf (sLink 3 164 0) 3).backoff ≤ (sLink 3 164 0).gtick ∧
      (portOf (sLink 3 120 0) 3).retries ≠ 63) ∧
    (((sLink 3 120 0).regs.map (·.1)).Nodup ∧ (sLink 3 120 0).cur.arg.poison = none ∧
      (atEv { port := 3, poison := some 5 } s4).cur.arg.poison = some 5 ∧ ((atEv { port := 3, poison := some 5 } s4).regs.map (·.1)).Nodup) ∧
    (MemoryCanonical s4 ∧ s4.poison = []) ∧
    (Issues sIll team4 grp4 ∧ sIll.cur.reject ≠ none) := by
  refine ⟨by decide +kernel, by decide +kernel, ?_, by decide +kernel, by decide +kernel, by decide +kernel, by decide +kernel, by decide +kernel,
    by decide +kernel, by decide +kernel, by decide +kernel, ⟨?_, by decide +kernel⟩, ⟨?_, by decide +kernel⟩⟩
  · rintro d (rfl | rfl) <;> (unfold MemoryCanonical; decide +kernel)
  · unfold MemoryCanonical; decide +kernel
  · unfold Issues; decide +kernel

/-! ### Decoding, steps and reset -/

theorem met_DecodeEncode : (Instr.iadd 3 1 2).wellFormed = true ∧
    Header.wellFormed { stall := 4, guard := 0, scope := 0 } (Instr.iadd 3 1 2).hasGuard (Instr.iadd 3 1 2).hasScope = true ∧
    (Instr.iadd 3 1 2).words ≠ 0 := by decide

/-- IADD v3, v1, v2, or a word of a reserved opcode, is where the team of a loaded device fetches. -/
def sFetch (w : Nat) : State := State.reset.withFetchWord 32 w
def sIssue (w : Nat) : State := { sFetch w with agenda := [] }
def tFetch : Team := (tget (sFetch 0).teams 0).getD team4
def gFetch : Grp := tFetch.groups.headD grp4
/-- The issuing step of that IADD in a state whose script is over. -/
def keptAt (s : State) (t : Team) (g : Grp) : State :=
  { keepFetch s t g.pc [(0x10000, 0x01030420)] with cur := { Cur.none with
    team := 0, gid := g.gid, hdr := { stall := 4, guard := 0, scope := 0 }, word := 0x01030420, len := 1 } }
def sIssuing : State := noteIssue (keptAt (sIssue 0x01030420) tFetch gFetch) tFetch 0 gFetch 0x01030420
/-- An exec watch stands on the address at which four threads fetch the IADD. -/
def sWatch : State :=
  { memWrite (regSet (regSet (regSet (at4 id) 0x30800 0x10000) 0x30808 4) 0x30818 1) 0x10000 (bytesOf 4 0x01030420) with
    cur := Cur.none, agenda := [{ dt := 0, act := .issue 0 0 [] none }] }
def sStopped : State := noteIssue (keptAt { sWatch with agenda := [] } team4 grp4) team4 0 grp4 0x01030420
/-- A script that raises READY bit 0 after a firmware image was accepted. -/
def sScript : State := { State.reset with firmware := true, agenda := [{ dt := 3, act := .event .functionReady { bit := 0 } }] }
/-- A device whose script is empty, and one with a write to the management window to come. -/
def sPosted : State := { sScript with posted := [(0x40, 5)] }

theorem next_of (o : Out) (h : (match o with | .next _ => true | _ => false) = true) : ∃ s, o = .next s := by
  cases o <;> first | exact ⟨_, rfl⟩ | cases h

theorem met_StepRunsDecoded :
    (∀ w, w = 0x01030420 ∨ w = 0x6E000000 → (sFetch w).stopped = false ∧ (sFetch w).posted = [] ∧ endedWindow (sFetch w) = none ∧
      dueTicks (sFetch w) 0 = [] ∧ (sFetch w).agenda = [{ dt := 0, act := .issue 0 0 [] none }] ∧
      chooseGroup (sIssue w) 0 0 [] = some (0, tFetch, gFetch) ∧
      fetchGroup (sIssue w) tFetch gFetch.handler gFetch.pc = .ok [(0x10000, BitVec.ofNat 32 w)]) ∧
    (decodeGroup [0x01030420] = .ok { instr := .iadd 3 1 2, hdr := { stall := 4, guard := 0, scope := 0 }, len := 1 } ∧
      (decodeGroup [0x6E000000]).toOption = none) ∧
    (pendingFor (keptAt (sIssue 0x01030420) tFetch gFetch) 0 tFetch gFetch (.iadd 3 1 2) 0 none = none ∧
      (execWatch sIssuing tFetch gFetch gFetch.lanes).2 = none ∧
      ∃ s2, exec (.iadd 3 1 2) sIssuing = .next s2) ∧
    (sWatch.stopped = false ∧ sWatch.posted = [] ∧ endedWindow sWatch = none ∧ dueTicks sWatch 0 = [] ∧
      chooseGroup { sWatch with agenda := [] } 0 0 [] = some (0, team4, grp4) ∧
      fetchGroup { sWatch with agenda := [] } team4 grp4.handler grp4.pc = .ok [(0x10000, 0x01030420)] ∧
      pendingFor (keptAt { sWatch with agenda := [] } team4 grp4) 0 team4 grp4 (.iadd 3 1 2) 0 none = none ∧
      execWatch sStopped team4 grp4 grp4.lanes = (lanes4, some 0) ∧
      ∃ s3, exec (.iadd 3 1 2) { sStopped with cur := { sStopped.cur with dry := true } } = .next s3) ∧
    (issuing (sIssue 0x01030420) = some (0, 0) ∧ (sIssue 0x01030420).agenda = [] ∧ endedWindow (sIssue 0x01030420) = none) ∧
    (sScript.stopped = false ∧ sScript.posted = [] ∧ endedWindow sScript = none ∧ dueTicks sScript 3 = [] ∧
      Instr.functionReady.words = 0 ∧ Instr.functionReady ≠ .illegalInstruction ∧
      sScript.agenda = [{ dt := 3, act := .event .functionReady { bit := 0 } }]) ∧
    (sPosted.stopped = false ∧ sPosted.posted = [(0x40, 5)]) ∧ issuer State.reset = none := by
  refine ⟨?_, by decide +kernel, ⟨by decide +kernel, by decide +kernel, next_of _ (by decide +kernel)⟩,
    ⟨by decide +kernel, by decide +kernel, by decide +kernel, by decide +kernel, by decide +kernel, by decide +kernel,
      by decide +kernel, by decide +kernel, next_of _ (by decide +kernel)⟩, by decide +kernel,
    by decide +kernel, by decide +kernel, by decide +kernel⟩
  rintro w (rfl | rfl) <;> decide +kernel

theorem met_StepLeavesRested : Rested (sFetch 0x01030420) ∧ ∃ s', step (sFetch 0x01030420) = .next s' := by
  refine ⟨?_, next_of _ (by decide +kernel)⟩
  unfold Rested MonitorsSettled; decide +kernel

theorem met_RegisterFrames :
    (LaneReady s4 team4 grp4 [3, 1, 2] ∧ ∃ s', exec (.iadd 3 1 2) s4 = .next s') ∧
    (Issues s4 team4 grp4 ∧ ∃ s', lanePredWrote s4 team4 grp4 2 (fun _ => true) = .next s') ∧
    (UniReady s4 team4 grp4 ∧ (∀ r ∈ (coreOf s4 team4.core).reqs, r.store = false) ∧ ∃ s', exec (.sadd 3 1 2) s4 = .next s') ∧
    (∃ s', exec .nop s4 = .next s') := by
  refine ⟨⟨ready4.1, next_of _ (by decide +kernel)⟩, ⟨?_, next_of _ (by decide +kernel)⟩,
    ⟨uni4, by decide +kernel, next_of _ (by decide +kernel)⟩, next_of _ (by decide +kernel)⟩
  unfold Issues; decide +kernel

end Sys2Proof.Tests
end

section
/-!
PROOFS. The model's fractions as rational numbers, and rounding to the nearest point of a rising grid (R43, R54): integers, and
the places of a floating-point format's magnitudes.
-/

namespace Sys2Proof.Machine

/-! ### Fractions and signs as rational numbers -/

/-- The rational number that a fraction of the model stands for. -/
def fracRat (x : Nat × Nat) : ℚ := (x.1 : ℚ) / x.2

/-- A magnitude with a sign. -/
def signRat (neg : Bool) (x : ℚ) : ℚ := if neg then -x else x

theorem ratOf_fin (neg : Bool) (n d : Nat) : ratOf (.fin neg n d) = signRat neg ((n : ℚ) / d) := by
  cases neg <;> simp [ratOf, signRat, neg_div]

@[simp] theorem signRat_zero (neg : Bool) : signRat neg 0 = 0 := by cases neg <;> simp [signRat]

@[simp] theorem abs_signRat (neg : Bool) (x : ℚ) : |signRat neg x| = |x| := by cases neg <;> simp [signRat]

theorem abs_signRat_sub (neg : Bool) (x y : ℚ) : |signRat neg x - signRat neg y| = |x - y| := by
  cases neg
  · rfl
  · simp only [signRat, if_true, neg_sub_neg, abs_sub_comm]

theorem abs_sub_le_signRat (a b : Bool) {x y : ℚ} (hx : 0 ≤ x) (hy : 0 ≤ y) : |x - y| ≤ |signRat a x - signRat b y| := by
  have h := abs_abs_sub_abs_le (signRat a x) (signRat b y)
  rwa [abs_signRat, abs_signRat, abs_of_nonneg hx, abs_of_nonneg hy] at h

/-- `scale2` multiplies by a power of two. -/
theorem fracRat_scale2 (n d : Nat) (e : Int) : fracRat (scale2 n d e) = (n : ℚ) / d * 2 ^ e := by
  cases e with
  | ofNat k => simp [fracRat, scale2, div_mul_eq_mul_div]
  | negSucc k => simp [fracRat, scale2, zpow_negSucc, div_eq_mul_inv, mul_assoc, mul_comm]

theorem scale2_pos {n d : Nat} (hd : 0 < d) (e : Int) : 0 < (scale2 n d e).2 := by
  cases e with
  | ofNat k => exact hd
  | negSucc k => exact Nat.mul_pos hd (by positivity)

theorem two_zpow_pos (e : Int) : (0 : ℚ) < 2 ^ e := zpow_pos two_pos e

/-! ### The nearest point of a rising grid -/

/-- Point `p` of the grid `v` is a nearest one to `x`. -/
def NearestAt (v : Nat → ℚ) (x : ℚ) (p : Nat) : Prop := ∀ q, |x - v p| ≤ |x - v q|

/-- Between neighbouring points, the nearer of the two is a nearest one of all. -/
theorem nearestAt_of_between {v : Nat → ℚ} (hv : StrictMono v) {x : ℚ} {p : Nat} (up : Bool) (lo : v p ≤ x)
    (hi : x ≤ v (p + 1)) (hup : up = true → v (p + 1) - x ≤ x - v p) (hdown : up = false → x - v p ≤ v (p + 1) - x) :
    NearestAt v x (p + if up then 1 else 0) := by
  have near : |x - v (p + if up then 1 else 0)| ≤ x - v p ∧ |x - v (p + if up then 1 else 0)| ≤ v (p + 1) - x := by
    cases up
    · simpa [abs_of_nonneg (sub_nonneg.2 lo)] using hdown
    · rw [if_pos rfl, abs_sub_comm, abs_of_nonneg (sub_nonneg.2 hi)]
      exact ⟨hup rfl, le_rfl⟩
  intro q
  rcases Nat.lt_or_ge p q with h | h
  · have : v (p + 1) ≤ v q := hv.monotone h
    linarith [neg_abs_le (x - v q), near.2]
  · have : v q ≤ v p := hv.monotone h
    linarith [le_abs_self (x - v q), near.1]

theorem NearestAt.le_of_le {v : Nat → ℚ} (hv : StrictMono v) {x : ℚ} {p m : Nat} (h : NearestAt v x p) (hx : x ≤ v m) :
    p ≤ m := by
  by_contra hlt
  have hvm : v m < v p := hv (not_le.1 hlt)
  have := h m
  rw [abs_sub_comm, abs_of_nonneg (by linarith), abs_sub_comm, abs_of_nonneg (by linarith)] at this
  linarith

theorem NearestAt.ge_of_ge {v : Nat → ℚ} (hv : StrictMono v) {x : ℚ} {p m : Nat} (h : NearestAt v x p) (hx : v m ≤ x) :
    m ≤ p := by
  by_contra hlt
  have hvm : v p < v m := hv (not_le.1 hlt)
  have := h m
  rw [abs_of_nonneg (by linarith), abs_of_nonneg (by linarith)] at this
  linarith

theorem NearestAt.eq_of_eq {v : Nat → ℚ} (hv : StrictMono v) {x : ℚ} {p m : Nat} (h : NearestAt v x p) (hx : x = v m) :
    p = m :=
  le_antisymm (h.le_of_le hv hx.le) (h.ge_of_ge hv hx.ge)

/-! ### Rounding to an integer -/

theorem div_eq_floor_add (a : Nat) {b : Nat} (hb : 0 < b) :
    (a : ℚ) / b = (a / b : Nat) + ((a % b : Nat) : ℚ) / b := by
  have hb' : (b : ℚ) ≠ 0 := by exact_mod_cast hb.ne'
  have h : (a : ℚ) = b * (a / b : Nat) + (a % b : Nat) := by exact_mod_cast (Nat.div_add_mod a b).symm
  rw [div_eq_iff hb', add_mul, div_mul_cancel₀ _ hb', mul_comm]
  exact h

theorem frac_lt_one (a : Nat) {b : Nat} (hb : 0 < b) : ((a % b : Nat) : ℚ) / b < 1 := by
  rw [div_lt_one (by exact_mod_cast hb)]
  exact_mod_cast Nat.mod_lt a hb

/-- The quotient's whole part, or the next number where the rest is more than half. -/
theorem nearestAt_of_floor {v : Nat → ℚ} (hv : StrictMono v) {u : ℚ} (hu : 0 < u) {a b p : Nat} (hb : 0 < b) (up : Bool)
    (h0 : v p = (a / b : Nat) * u) (h1 : v (p + 1) = ((a / b : Nat) + 1) * u) (hup : up = true → b ≤ 2 * (a % b))
    (hdown : up = false → 2 * (a % b) ≤ b) : NearestAt v ((a : ℚ) / b * u) (p + if up then 1 else 0) := by
  have hb' : (0 : ℚ) < b := by exact_mod_cast hb
  have hx : (a : ℚ) / b * u - v p = ((a % b : Nat) : ℚ) / b * u := by rw [h0, div_eq_floor_add a hb]; ring
  have hy : v (p + 1) - (a : ℚ) / b * u = (1 - ((a % b : Nat) : ℚ) / b) * u := by rw [h1, div_eq_floor_add a hb]; ring
  have hlt := frac_lt_one a hb
  have hnn : 0 ≤ ((a % b : Nat) : ℚ) / b := by positivity
  refine nearestAt_of_between hv up ?_ ?_ (fun h => ?_) (fun h => ?_)
  · exact sub_nonneg.1 (hx ▸ mul_nonneg hnn hu.le)
  · exact sub_nonneg.1 (hy ▸ mul_nonneg (by linarith) hu.le)
  · have : (1 : ℚ) / 2 ≤ ((a % b : Nat) : ℚ) / b := by
      rw [div_le_div_iff₀ two_pos hb']; exact_mod_cast (by have := hup h; omega)
    rw [hx, hy]
    exact mul_le_mul_of_nonneg_right (by linarith) hu.le
  · have : ((a % b : Nat) : ℚ) / b ≤ 1 / 2 := by
      rw [div_le_div_iff₀ hb' two_pos]; exact_mod_cast (by have := hdown h; omega)
    rw [hx, hy]
    exact mul_le_mul_of_nonneg_right (by linarith) hu.le

/-- Whether `divRne` rounds up. -/
def rneUp (n d : Nat) : Bool := decide (d < 2 * (n % d) ∨ (2 * (n % d) = d ∧ n / d % 2 = 1))

theorem divRne_eq (n d : Nat) : divRne n d = n / d + if rneUp n d then 1 else 0 := by
  unfold divRne rneUp
  dsimp only
  split <;> simp_all

theorem nearestAt_divRne (n : Nat) {d : Nat} (hd : 0 < d) (k : Nat) :
    NearestAt (fun j => (j : ℚ) / 2 ^ k) ((n : ℚ) / d) (divRne (n * 2 ^ k) d) := by
  have hk : (0 : ℚ) < 2 ^ k := by positivity
  have hx : (n : ℚ) / d = ((n * 2 ^ k : Nat) : ℚ) / d * (1 / 2 ^ k) := by push_cast; field_simp
  rw [hx, divRne_eq]
  refine nearestAt_of_floor (fun a b h => by gcongr) (by positivity) hd _ (by ring) (by push_cast; ring) ?_ ?_
  · simp only [rneUp, decide_eq_true_eq]; omega
  · simp only [rneUp, decide_eq_false_iff_not]; omega

/-! ### The magnitudes of a floating-point format -/

/-- The magnitude at a place, as a rational number. -/
def placeRat (mb : Nat) (bias : Int) (p : Nat) : ℚ := fracRat (placeValue mb bias p)

/-- Place `p` is `k` steps into binade `b`: binade 0 begins at zero, a later one at its first normal number. -/
structure InBinade (mb k b : Nat) : Prop where
  top : k ≤ 2 ^ (mb + 1)
  low : b = 0 ∨ 2 ^ mb ≤ k

/-- The step of binade `b`. -/
def binadeStep (mb : Nat) (bias : Int) (b : Nat) : ℚ := 2 ^ ((b : Int) + 1 - bias - mb)

theorem binadeStep_pos (mb : Nat) (bias : Int) (b : Nat) : 0 < binadeStep mb bias b := two_zpow_pos _

theorem placeRat_subnormal {mb p : Nat} (bias : Int) (h : p < 2 ^ mb) :
    placeRat mb bias p = p * 2 ^ (1 - bias - mb) := by
  rw [placeRat, placeValue, if_pos h, fracRat_scale2, Nat.cast_one, div_one]

theorem placeRat_normal {mb p : Nat} (bias : Int) (h : 2 ^ mb ≤ p) :
    placeRat mb bias p = (2 ^ mb + (p % 2 ^ mb : Nat)) * 2 ^ (((p / 2 ^ mb : Nat) : Int) - bias - mb) := by
  rw [placeRat, placeValue, if_neg (not_lt.2 h), fracRat_scale2]
  push_cast
  rw [div_one]

/-- The magnitudes of a binade are evenly spaced, up to the first of the next one. -/
theorem placeRat_binade {mb k b : Nat} (bias : Int) (h : InBinade mb k b) :
    placeRat mb bias (k + b * 2 ^ mb) = k * binadeStep mb bias b := by
  have hpow : 2 ^ (mb + 1) = 2 ^ mb + 2 ^ mb := by ring
  have hpos : 0 < 2 ^ mb := by positivity
  obtain ⟨top, low⟩ := h
  rcases Nat.lt_or_ge k (2 ^ mb) with hk | hk
  · obtain rfl : b = 0 := low.resolve_right (not_le.2 hk)
    rw [Nat.zero_mul, Nat.add_zero, placeRat_subnormal bias hk, binadeStep]
    simp
  · rw [placeRat_normal bias (by omega), binadeStep, Nat.add_mul_mod_self_right, Nat.add_mul_div_right _ _ hpos]
    rcases Nat.lt_or_ge k (2 ^ (mb + 1)) with hk' | hk'
    · obtain ⟨j, rfl⟩ := Nat.exists_eq_add_of_le hk
      rw [Nat.add_mod_left, Nat.mod_eq_of_lt (by omega), Nat.add_div_left _ hpos, Nat.div_eq_of_lt (by omega)]
      push_cast
      ring_nf
    · obtain rfl : k = 2 ^ mb * 2 := by omega
      rw [Nat.mul_mod_right, Nat.mul_div_cancel_left _ hpos]
      have : (((2 + b : Nat) : Int) - bias - mb) = 1 + ((b : Int) + 1 - bias - mb) := by push_cast; ring
      rw [this, zpow_one_add₀ two_ne_zero]
      push_cast
      ring

/-- Every place lies in a binade, and so does the next one. -/
theorem exists_binade (mb p : Nat) : ∃ k b, p = k + b * 2 ^ mb ∧ InBinade mb k b ∧ InBinade mb (k + 1) b := by
  have hpow : 2 ^ (mb + 1) = 2 ^ mb + 2 ^ mb := by ring
  have hpos : 0 < 2 ^ mb := by positivity
  have hmod := Nat.mod_lt p hpos
  have hdiv := Nat.div_add_mod' p (2 ^ mb)
  rcases h : p / 2 ^ mb with _ | b
  · rw [h] at hdiv
    exact ⟨p % 2 ^ mb, 0, by omega, ⟨by omega, .inl rfl⟩, ⟨by omega, .inl rfl⟩⟩
  · rw [h, Nat.add_mul, Nat.one_mul] at hdiv
    exact ⟨2 ^ mb + p % 2 ^ mb, b, by omega, ⟨by omega, .inr (by omega)⟩, ⟨by omega, .inr (by omega)⟩⟩

theorem placeRat_strictMono (mb : Nat) (bias : Int) : StrictMono (placeRat mb bias) := by
  refine strictMono_nat_of_lt_succ fun p => ?_
  obtain ⟨k, b, rfl, h, h'⟩ := exists_binade mb p
  rw [add_right_comm, placeRat_binade bias h, placeRat_binade bias h']
  exact mul_lt_mul_of_pos_right (by simp) (binadeStep_pos ..)

@[simp] theorem placeRat_zero (mb : Nat) (bias : Int) : placeRat mb bias 0 = 0 := by
  rw [placeRat_subnormal bias (by positivity)]
  simp

/-! ### Rounding to a place -/

theorem two_pow_log2_le {n : Nat} (hn : n ≠ 0) : (2 : ℚ) ^ Nat.log2 n ≤ n := by
  exact_mod_cast Nat.log2_self_le hn

theorem lt_two_pow_log2 (n : Nat) : (n : ℚ) < 2 ^ (Nat.log2 n + 1) := by
  exact_mod_cast Nat.lt_log2_self

/-- `leadExp` is the exponent of the leading 1 bit. -/
theorem leadExp_spec {n d : Nat} (hn : n ≠ 0) (hd : 0 < d) :
    (2 : ℚ) ^ leadExp n d ≤ (n : ℚ) / d ∧ (n : ℚ) / d < 2 ^ (leadExp n d + 1) := by
  have hd' : (0 : ℚ) < d := by exact_mod_cast hd
  set e : Int := (Nat.log2 n : Int) - Nat.log2 d with he
  have hlo : (2 : ℚ) ^ (e - 1) ≤ (n : ℚ) / d := by
    rw [le_div_iff₀ hd']
    calc (2 : ℚ) ^ (e - 1) * d ≤ 2 ^ (e - 1) * 2 ^ (Nat.log2 d + 1) := by
          gcongr; exact (lt_two_pow_log2 d).le
      _ = 2 ^ Nat.log2 n := by
          rw [← zpow_natCast, ← zpow_natCast, ← zpow_add₀ two_ne_zero, he]; push_cast; ring_nf
      _ ≤ n := two_pow_log2_le hn
  have hhi : (n : ℚ) / d < 2 ^ (e + 1) := by
    rw [div_lt_iff₀ hd']
    calc (n : ℚ) < 2 ^ (Nat.log2 n + 1) := lt_two_pow_log2 n
      _ = 2 ^ (e + 1) * 2 ^ Nat.log2 d := by
          rw [← zpow_natCast, ← zpow_natCast, ← zpow_add₀ two_ne_zero, he]; push_cast; ring_nf
      _ ≤ 2 ^ (e + 1) * d := by gcongr; exact two_pow_log2_le hd.ne'
  have hs := scale2_pos (n := d) Nat.one_pos e
  have hv : (((scale2 d 1 e).1 : Nat) : ℚ) = d * 2 ^ e * (scale2 d 1 e).2 := by
    have h := fracRat_scale2 d 1 e
    rw [fracRat, div_eq_iff (by exact_mod_cast hs.ne')] at h
    simpa using h
  have hs' : (0 : ℚ) < (scale2 d 1 e).2 := by exact_mod_cast hs
  have hcmp : n * (scale2 d 1 e).2 < (scale2 d 1 e).1 ↔ (n : ℚ) / d < 2 ^ e := by
    rw [div_lt_iff₀ hd', ← mul_lt_mul_iff_left₀ hs', ← Nat.cast_lt (α := ℚ), hv, Nat.cast_mul, mul_comm (d : ℚ)]
  unfold leadExp
  dsimp only
  rw [← he]
  split
  · next h => exact ⟨hlo, by rw [sub_add_cancel]; exact hcmp.1 h⟩
  · next h => exact ⟨not_lt.1 (mt hcmp.2 h), hhi⟩

/-- n/d in steps of the binade that holds it. -/
def inSteps (mb : Nat) (bias : Int) (n d : Nat) : Nat × Nat :=
  scale2 n d ((mb : Int) - max (leadExp n d) (1 - bias))

/-- The binade that holds n/d. -/
def binadeOf (bias : Int) (n d : Nat) : Nat := (max (leadExp n d) (1 - bias) + bias - 1).toNat

theorem max_leadExp_eq (bias : Int) (n d : Nat) :
    max (leadExp n d) (1 - bias) = (binadeOf bias n d : Int) + 1 - bias := by
  unfold binadeOf; omega

theorem inSteps_pos (mb : Nat) (bias : Int) {n d : Nat} (hd : 0 < d) : 0 < (inSteps mb bias n d).2 :=
  scale2_pos hd _

/-- n/d is so many steps of its binade. -/
theorem inSteps_mul_step (mb : Nat) (bias : Int) (n d : Nat) :
    fracRat (inSteps mb bias n d) * binadeStep mb bias (binadeOf bias n d) = (n : ℚ) / d := by
  rw [inSteps, fracRat_scale2, max_leadExp_eq, binadeStep, mul_assoc, ← zpow_add₀ two_ne_zero]
  simp

theorem fracRat_inSteps_lt (mb : Nat) (bias : Int) {n d : Nat} (hn : n ≠ 0) (hd : 0 < d) :
    fracRat (inSteps mb bias n d) < 2 ^ (mb + 1) := by
  rw [inSteps, fracRat_scale2]
  calc (n : ℚ) / d * 2 ^ ((mb : Int) - max (leadExp n d) (1 - bias))
      < 2 ^ (leadExp n d + 1) * 2 ^ ((mb : Int) - max (leadExp n d) (1 - bias)) :=
        mul_lt_mul_of_pos_right (leadExp_spec hn hd).2 (two_zpow_pos _)
    _ = 2 ^ (leadExp n d + 1 + ((mb : Int) - max (leadExp n d) (1 - bias))) := (zpow_add₀ two_ne_zero ..).symm
    _ ≤ 2 ^ ((mb + 1 : Nat) : Int) := zpow_le_zpow_right₀ one_le_two (by omega)
    _ = 2 ^ (mb + 1) := zpow_natCast ..

theorem le_fracRat_inSteps (mb : Nat) {bias : Int} {n d : Nat} (hn : n ≠ 0) (hd : 0 < d) (hb : binadeOf bias n d ≠ 0) :
    2 ^ mb ≤ fracRat (inSteps mb bias n d) := by
  have he : max (leadExp n d) (1 - bias) = leadExp n d := by unfold binadeOf at hb; omega
  rw [inSteps, fracRat_scale2, he]
  calc (2 : ℚ) ^ mb = 2 ^ leadExp n d * 2 ^ ((mb : Int) - leadExp n d) := by
        rw [← zpow_add₀ two_ne_zero, add_sub_cancel, zpow_natCast]
    _ ≤ _ := mul_le_mul_of_nonneg_right (leadExp_spec hn hd).1 (two_zpow_pos _).le

/-- The whole steps of n/d, and one more, lie in its binade. -/
theorem inBinade_inSteps (mb : Nat) (bias : Int) {n d : Nat} (hn : n ≠ 0) (hd : 0 < d) :
    InBinade mb ((inSteps mb bias n d).1 / (inSteps mb bias n d).2) (binadeOf bias n d) ∧
      InBinade mb ((inSteps mb bias n d).1 / (inSteps mb bias n d).2 + 1) (binadeOf bias n d) := by
  have hpos := inSteps_pos mb bias (n := n) hd
  have hpos' : (0 : ℚ) < (inSteps mb bias n d).2 := by exact_mod_cast hpos
  have hk : (inSteps mb bias n d).1 / (inSteps mb bias n d).2 < 2 ^ (mb + 1) := by
    have h := fracRat_inSteps_lt mb bias hn hd
    rw [fracRat, div_lt_iff₀ hpos'] at h
    rw [Nat.div_lt_iff_lt_mul hpos]
    exact_mod_cast h
  have hlow : binadeOf bias n d = 0 ∨ 2 ^ mb ≤ (inSteps mb bias n d).1 / (inSteps mb bias n d).2 := by
    refine or_iff_not_imp_left.2 fun hb => ?_
    have h := le_fracRat_inSteps mb hn hd hb
    rw [fracRat, le_div_iff₀ hpos'] at h
    rw [Nat.le_div_iff_mul_le hpos]
    exact_mod_cast h
  exact ⟨⟨hk.le, hlow⟩, ⟨hk, hlow.imp_right (fun h => h.trans (Nat.le_succ _))⟩⟩

/-- The place at or below a magnitude that is not 0. -/
def wholePlace (mb : Nat) (bias : Int) (n d : Nat) : Nat :=
  (inSteps mb bias n d).1 / (inSteps mb bias n d).2 + binadeOf bias n d * 2 ^ mb

theorem placeRat_wholePlace (mb : Nat) (bias : Int) {n d : Nat} (hn : n ≠ 0) (hd : 0 < d) :
    placeRat mb bias (wholePlace mb bias n d) =
      ((inSteps mb bias n d).1 / (inSteps mb bias n d).2 : Nat) * binadeStep mb bias (binadeOf bias n d) :=
  placeRat_binade bias (inBinade_inSteps mb bias hn hd).1

theorem placeRat_wholePlace_succ (mb : Nat) (bias : Int) {n d : Nat} (hn : n ≠ 0) (hd : 0 < d) :
    placeRat mb bias (wholePlace mb bias n d + 1) =
      (((inSteps mb bias n d).1 / (inSteps mb bias n d).2 : Nat) + 1) * binadeStep mb bias (binadeOf bias n d) := by
  rw [wholePlace, add_right_comm, placeRat_binade bias (inBinade_inSteps mb bias hn hd).2]
  push_cast
  rfl

/-- The place as the model's rounding counts it. -/
theorem place_eq (mb : Nat) (bias : Int) (n d : Nat) :
    (max (leadExp n d) (1 - bias) + bias) * 2 ^ mb + ((inSteps mb bias n d).1 / (inSteps mb bias n d).2 : Nat) - 2 ^ mb =
      (wholePlace mb bias n d : Int) := by
  rw [max_leadExp_eq, wholePlace]
  push_cast
  ring

/-- Whether `roundPlace` goes up from the place at or below. -/
def roundsUp (mb : Nat) (bias : Int) (n d : Nat) : Bool :=
  let r := inSteps mb bias n d
  decide (r.2 < 2 * (r.1 % r.2)) || (decide (2 * (r.1 % r.2) = r.2) && decide ((wholePlace mb bias n d : Int) % 2 = 1))

theorem roundPlace_eq (mb : Nat) (bias : Int) {n : Nat} (hn : n ≠ 0) (d : Nat) :
    roundPlace mb bias n d = wholePlace mb bias n d + if roundsUp mb bias n d then 1 else 0 := by
  unfold roundPlace
  rw [if_neg hn]
  have h := place_eq mb bias n d
  unfold inSteps at h
  dsimp only
  rw [h]
  unfold roundsUp inSteps
  dsimp only
  split <;> simp_all

theorem floorPlace_eq (mb : Nat) (bias : Int) {n : Nat} (hn : n ≠ 0) (d : Nat) :
    floorPlace mb bias n d =
      (wholePlace mb bias n d, decide ((inSteps mb bias n d).1 % (inSteps mb bias n d).2 = 0)) := by
  unfold floorPlace
  rw [if_neg hn]
  have h := place_eq mb bias n d
  unfold inSteps at h
  dsimp only
  rw [h, Int.toNat_natCast]
  rfl

/-- R54: `roundPlace` gives a nearest place. -/
theorem nearestAt_roundPlace (mb : Nat) (bias : Int) (n : Nat) {d : Nat} (hd : 0 < d) :
    NearestAt (placeRat mb bias) ((n : ℚ) / d) (roundPlace mb bias n d) := by
  by_cases hn : n = 0
  · intro q
    simp [hn, roundPlace]
  · rw [roundPlace_eq mb bias hn, ← inSteps_mul_step mb bias n d]
    refine nearestAt_of_floor (placeRat_strictMono mb bias) (binadeStep_pos ..) (inSteps_pos mb bias hd) _
      (placeRat_wholePlace mb bias hn hd) (placeRat_wholePlace_succ mb bias hn hd) ?_ ?_
    · simp only [roundsUp, Bool.or_eq_true, Bool.and_eq_true, decide_eq_true_eq]; omega
    · simp only [roundsUp, Bool.or_eq_false_iff, decide_eq_false_iff_not]; omega

/-- A magnitude that is a place's own is found there, exactly. -/
theorem floorPlace_of_eq {mb : Nat} {bias : Int} {n d p : Nat} (hd : 0 < d) (h : (n : ℚ) / d = placeRat mb bias p) :
    floorPlace mb bias n d = (p, true) := by
  have hmono := placeRat_strictMono mb bias
  by_cases hn : n = 0
  · have : p = 0 := hmono.injective (by rw [← h, hn]; simp)
    simp [floorPlace, hn, this]
  · have hb := inSteps_pos mb bias (n := n) hd
    have hb' : (0 : ℚ) < (inSteps mb bias n d).2 := by exact_mod_cast hb
    have hu := binadeStep_pos mb bias (binadeOf bias n d)
    have hx := inSteps_mul_step mb bias n d
    rw [fracRat, div_eq_floor_add _ hb, h, add_mul, ← placeRat_wholePlace mb bias hn hd] at hx
    have hlt := mul_lt_mul_of_pos_right (frac_lt_one (inSteps mb bias n d).1 hb) hu
    have hsucc := placeRat_wholePlace_succ mb bias hn hd
    rw [add_mul, ← placeRat_wholePlace mb bias hn hd] at hsucc
    have hp : p = wholePlace mb bias n d := by
      have h1 : wholePlace mb bias n d ≤ p := hmono.le_iff_le.1 (by rw [← hx]; simp; positivity)
      have h2 : p < wholePlace mb bias n d + 1 := hmono.lt_iff_lt.1 (by rw [← hx, hsucc]; linarith)
      omega
    have hz : (inSteps mb bias n d).1 % (inSteps mb bias n d).2 = 0 := by
      rw [← hp] at hx
      simpa [hb.ne', hu.ne'] using hx
    rw [floorPlace_eq mb bias hn, hz, ← hp]
    rfl

end Sys2Proof.Machine
end

section
/-!
PROOFS. Narrow formats (R48 to R50, R54, R56): the grid of a format's magnitudes, what a code stands for, and the conversions.
-/

namespace Sys2Proof.Machine

/-! ### Valid formats -/

/-- What R48 asks of the widths of a format's fields. -/
structure NFmt.Shaped (f : NFmt) : Prop where
  width_pos : 1 ≤ f.width
  spec1 : f.spec = 1 → 1 ≤ f.ew ∧ 2 ≤ f.ew + f.mw
  spec2 : f.spec = 2 → 2 ≤ f.ew ∧ 1 ≤ f.mw

theorem shaped_of_valid {x : Word} (h : nfmtValid x = true) : (nfmtOf x).Shaped := by
  simp only [nfmtValid, Bool.and_eq_true, Bool.or_eq_true, decide_eq_true_eq, beq_iff_eq, Bool.not_eq_true'] at h
  obtain ⟨⟨⟨⟨⟨⟨⟨⟨⟨⟨h1, _⟩, _⟩, _⟩, _⟩, h6⟩, h7⟩, _⟩, _⟩, _⟩, _⟩ := h
  exact ⟨h1, fun e => h6.resolve_left (not_not.2 e), fun e => h7.resolve_left (not_not.2 e)⟩

theorem NFmt.binary_iff (f : NFmt) : f.binary = true ↔ f.ew = 0 ∧ f.sg = true ∧ f.mw = 0 := by
  simp [NFmt.binary, and_assoc]

/-! ### The grid of a format's magnitudes (R49, R50, R54) -/

/-- Magnitude `p` of a format that is not binary: a multiple of 2^−BIAS, or the value of a place. -/
def NFmt.grid (f : NFmt) (p : Nat) : ℚ :=
  if f.ew = 0 then (p : ℚ) / 2 ^ f.bias else placeRat f.mw f.bias p

/-- The grid's magnitude `p` is one that the format has: a flushing format has no subnormal ones. -/
def NFmt.Kept (f : NFmt) (p : Nat) : Prop := f.ew ≠ 0 → f.sub = false → p = 0 ∨ 2 ^ f.mw ≤ p

/-- The number of the largest finite magnitude. -/
def NFmt.top (f : NFmt) : Nat :=
  if f.ew = 0 then (if f.sg then 2 ^ (f.width - 1) - 1 else 2 ^ f.width - 1) else f.maxPlace

/-- The number of the magnitude that n/d is rounded to, on the grid continued above M. -/
def NFmt.rounded (f : NFmt) (n d : Nat) : Nat :=
  if f.ew = 0 then divRne (n * 2 ^ f.bias) d else roundPlace f.mw f.bias n d

/-- The code of a magnitude with a sign. -/
def NFmt.codeAt (f : NFmt) (neg : Bool) (p : Nat) : Nat :=
  if f.ew = 0 then f.intCode (Machine.signed neg p) else f.signed neg p

theorem NFmt.grid_strictMono (f : NFmt) : StrictMono f.grid := by
  unfold NFmt.grid
  split
  · exact fun a b h => by dsimp only; gcongr
  · exact placeRat_strictMono ..

@[simp] theorem NFmt.grid_zero (f : NFmt) : f.grid 0 = 0 := by
  unfold NFmt.grid
  split <;> simp

theorem NFmt.grid_nonneg (f : NFmt) (p : Nat) : 0 ≤ f.grid p :=
  f.grid_zero ▸ f.grid_strictMono.monotone (Nat.zero_le p)

theorem NFmt.nearestAt_rounded (f : NFmt) (n : Nat) {d : Nat} (hd : 0 < d) :
    NearestAt f.grid ((n : ℚ) / d) (f.rounded n d) := by
  unfold NFmt.grid NFmt.rounded
  split
  · exact nearestAt_divRne n hd f.bias
  · exact nearestAt_roundPlace _ _ n hd

theorem NFmt.fracRat_largest {f : NFmt} (hb : f.binary = false) : fracRat f.largest = f.grid f.top := by
  unfold NFmt.largest NFmt.grid NFmt.top
  split
  · simp [fracRat, hb]
  · rfl

theorem NFmt.fracRat_largest_binary {f : NFmt} (hb : f.binary = true) : fracRat f.largest = 1 / 2 ^ f.bias := by
  simp [NFmt.largest, (f.binary_iff.1 hb).1, fracRat, hb]

theorem two_mul_pow_le {a : Nat} (h : a ≠ 0) (b : Nat) : 2 * 2 ^ b ≤ 2 ^ (a + b) := by
  rw [pow_add]
  exact Nat.mul_le_mul_right _ (Nat.le_self_pow h 2)

/-- The place of M among all the codes of a sign (R49). -/
theorem NFmt.maxPlace_eq {f : NFmt} (h : f.ew ≠ 0) :
    f.maxPlace = if f.spec = 1 then 2 ^ (f.ew + f.mw) - 2
      else if f.spec = 2 then (2 ^ f.ew - 1) * 2 ^ f.mw - 1 else 2 ^ (f.ew + f.mw) - 1 := by
  have he : 2 ≤ 2 ^ f.ew := Nat.le_self_pow h 2
  have hm : 0 < 2 ^ f.mw := by positivity
  have h1 : (2 ^ f.ew - 1) * 2 ^ f.mw + 2 ^ f.mw = 2 ^ (f.ew + f.mw) := by
    rw [← Nat.succ_mul, pow_add]; congr 1; omega
  unfold NFmt.maxPlace
  split
  · next hs =>
    rw [if_pos hs, h1]
    split
    · next hz => rw [hz, Nat.add_zero]
    · rfl
  · next hs =>
    have h2 : (2 ^ f.ew - 2) * 2 ^ f.mw + 2 ^ f.mw = (2 ^ f.ew - 1) * 2 ^ f.mw := by
      rw [← Nat.succ_mul]; congr 1; omega
    rw [if_neg (by omega), if_pos hs, h2]
  · next h1' h2' => rw [if_neg h1', if_neg h2', h1]

theorem NFmt.maxPlace_lt {f : NFmt} (h : f.ew ≠ 0) : f.maxPlace < 2 ^ (f.ew + f.mw) := by
  have hpos : 0 < 2 ^ (f.ew + f.mw) := by positivity
  have hle : (2 ^ f.ew - 1) * 2 ^ f.mw ≤ 2 ^ (f.ew + f.mw) := by
    rw [pow_add]; exact Nat.mul_le_mul_right _ (Nat.sub_le ..)
  rw [NFmt.maxPlace_eq h]
  split
  · omega
  · split <;> omega

/-- M is a normal number. -/
theorem NFmt.Shaped.le_maxPlace {f : NFmt} (hf : f.Shaped) (h : f.ew ≠ 0) : 2 ^ f.mw ≤ f.maxPlace := by
  have hm : 0 < 2 ^ f.mw := by positivity
  have h2 := two_mul_pow_le h f.mw
  rw [NFmt.maxPlace_eq h]
  split
  · next hs =>
    have : 2 ^ 2 ≤ 2 ^ (f.ew + f.mw) := Nat.pow_le_pow_right two_pos (hf.spec1 hs).2
    omega
  · split
    · next hs =>
      have h4 : 2 ^ 2 ≤ 2 ^ f.ew := Nat.pow_le_pow_right two_pos (hf.spec2 hs).1
      have : 2 * 2 ^ f.mw ≤ (2 ^ f.ew - 1) * 2 ^ f.mw := Nat.mul_le_mul_right _ (by omega)
      omega
    · omega

/-- No code up to M is special. -/
theorem NFmt.finite_of_le {f : NFmt} (h : f.ew ≠ 0) {p : Nat} (hp : p ≤ f.maxPlace) :
    ¬ (f.spec = 1 ∧ p = 2 ^ (f.ew + f.mw) - 1) ∧ ¬ (f.spec = 2 ∧ p / 2 ^ f.mw = 2 ^ f.ew - 1) := by
  rw [NFmt.maxPlace_eq h] at hp
  constructor
  · rintro ⟨hs, rfl⟩
    have := two_mul_pow_le h f.mw
    have : 0 < 2 ^ f.mw := by positivity
    rw [if_pos hs] at hp
    omega
  · rintro ⟨hs, hq⟩
    have := Nat.div_mul_le_self p (2 ^ f.mw)
    have : 1 * 1 ≤ (2 ^ f.ew - 1) * 2 ^ f.mw :=
      Nat.mul_le_mul (by have := Nat.le_self_pow h 2; omega) (Nat.one_le_two_pow)
    rw [if_neg (by omega), if_pos hs] at hp
    rw [hq] at *
    omega

/-! ### The value of a code -/

/-- A code's exponent and mantissa fields, as a place. -/
theorem NFmt.decode_float {f : NFmt} (h : f.ew ≠ 0) {code : Nat} (hc : code < 2 ^ f.width) :
    f.decode code =
      (let p := code % 2 ^ (f.ew + f.mw)
       let neg := f.sg && code.testBit (f.ew + f.mw)
       if f.spec = 1 ∧ p = 2 ^ (f.ew + f.mw) - 1 then .nan
       else if f.spec = 2 ∧ p / 2 ^ f.mw = 2 ^ f.ew - 1 then (if p % 2 ^ f.mw = 0 then .inf neg else .nan)
       else if p < 2 ^ f.mw ∧ !f.sub then .fin neg 0 1
       else .fin neg (placeValue f.mw f.bias p).1 (placeValue f.mw f.bias p).2) := by
  unfold NFmt.decode
  dsimp only
  rw [Nat.mod_eq_of_lt hc, if_neg h]

theorem NFmt.decode_integer {f : NFmt} (h : f.ew = 0) (code : Nat) :
    f.decode code = .fin (decide (f.intValue (code % 2 ^ f.width) < 0)) (f.intValue (code % 2 ^ f.width)).natAbs (2 ^ f.bias) := by
  unfold NFmt.decode
  dsimp only
  rw [if_pos h]

theorem signRat_natAbs (i : Int) : signRat (decide (i < 0)) (i.natAbs : ℚ) = i := by
  rw [Nat.cast_natAbs, Int.cast_abs]
  by_cases h : i < 0
  · have : (i : ℚ) < 0 := by exact_mod_cast h
    simp [signRat, h, abs_of_neg this]
  · have : (0 : ℚ) ≤ i := by exact_mod_cast not_lt.1 h
    simp [signRat, h, abs_of_nonneg this]

theorem signRat_div (neg : Bool) (x y : ℚ) : signRat neg (x / y) = signRat neg x / y := by
  cases neg <;> simp [signRat, neg_div]

/-- R50: the value of an integer code. -/
theorem NFmt.ratOf_decode_integer {f : NFmt} (h : f.ew = 0) (code : Nat) :
    ratOf (f.decode code) = (f.intValue (code % 2 ^ f.width) : ℚ) / 2 ^ f.bias := by
  rw [f.decode_integer h, ratOf_fin, signRat_div, signRat_natAbs]
  norm_num

/-- A finite value is a magnitude of the grid, with a sign; in a format that flushes, 0 or a normal one. -/
theorem NFmt.decode_fin {f : NFmt} {code : Nat} (hc : code < 2 ^ f.width) {neg : Bool} {n d : Nat}
    (hfin : f.decode code = .fin neg n d) :
    0 < d ∧ ∃ p, (n : ℚ) / d = f.grid p ∧ f.Kept p := by
  by_cases h : f.ew = 0
  · rw [f.decode_integer h] at hfin
    cases hfin
    exact ⟨by positivity, (f.intValue (code % 2 ^ f.width)).natAbs, by simp [NFmt.grid, h], fun h' => absurd h h'⟩
  · rw [f.decode_float h hc] at hfin
    dsimp only at hfin
    split at hfin
    · cases hfin
    · split at hfin
      · split at hfin <;> cases hfin
      · split at hfin
        · cases hfin
          exact ⟨Nat.one_pos, 0, by simp, fun _ _ => .inl rfl⟩
        · next hsub =>
          cases hfin
          refine ⟨?_, code % 2 ^ (f.ew + f.mw), by simp only [NFmt.grid, if_neg h]; rfl, fun _ hs => .inr ?_⟩
          · unfold placeValue
            split <;> exact scale2_pos Nat.one_pos _
          · simpa [hs] using hsub

/-! ### The code of a magnitude -/

theorem NFmt.signed_mod (f : NFmt) (neg : Bool) {p : Nat} (hp : p < 2 ^ (f.ew + f.mw)) :
    f.signed neg p % 2 ^ (f.ew + f.mw) = p := by
  unfold NFmt.signed
  split <;> simp [Nat.mod_eq_of_lt hp]

theorem NFmt.signed_testBit (f : NFmt) (neg : Bool) {p : Nat} (hp : p < 2 ^ (f.ew + f.mw)) :
    (f.signed neg p).testBit (f.ew + f.mw) = (neg && f.sg) := by
  unfold NFmt.signed
  split
  · next h => rw [Nat.add_comm, Nat.testBit_two_pow_add_eq, Nat.testBit_lt_two_pow hp, h]; rfl
  · next h => rw [Nat.add_zero, Nat.testBit_lt_two_pow hp, Bool.eq_false_iff.2 h]

theorem NFmt.signed_lt (f : NFmt) (neg : Bool) {p : Nat} (hp : p < 2 ^ (f.ew + f.mw)) : f.signed neg p < 2 ^ f.width := by
  unfold NFmt.signed NFmt.width
  cases f.sg
  · simpa using hp
  · have : 2 ^ (f.ew + f.mw + 1) = 2 ^ (f.ew + f.mw) + 2 ^ (f.ew + f.mw) := by ring
    simp only [if_true, Bool.and_true]
    split <;> omega

/-- The code of a finite magnitude of a floating-point format reads back. -/
theorem NFmt.ratOf_decode_signed {f : NFmt} (h : f.ew ≠ 0) {neg : Bool} {p : Nat}
    (hp : p ≤ f.maxPlace) (hneg : neg = true → f.sg = true ∨ p = 0) (hsub : f.sub = false → p = 0 ∨ 2 ^ f.mw ≤ p) :
    ratOf (f.decode (f.signed neg p)) = signRat neg (f.grid p) := by
  have hlt := hp.trans_lt (NFmt.maxPlace_lt h)
  obtain ⟨hnan, hinf⟩ := NFmt.finite_of_le h hp
  rw [f.decode_float h (f.signed_lt neg hlt)]
  dsimp only
  rw [f.signed_mod neg hlt, f.signed_testBit neg hlt, if_neg hnan, if_neg hinf]
  have hval : placeRat f.mw f.bias p = f.grid p := by rw [NFmt.grid, if_neg h]
  split
  · next hs =>
    obtain rfl : p = 0 := (hsub (by simpa using hs.2)).resolve_right (by omega)
    simp [ratOf_fin]
  · rw [ratOf_fin]
    change signRat _ (placeRat f.mw f.bias p) = _
    rw [hval]
    cases hn : neg
    · simp
    · rcases hneg hn with hg | rfl <;> simp [*]

/-- An integer within ±M reads back from its code. -/
theorem NFmt.Shaped.ratOf_decode_intCode {f : NFmt} (hf : f.Shaped) (h : f.ew = 0) (hb : f.binary = false) {i : Int}
    (hi : i.natAbs ≤ f.top) (hneg : i < 0 → f.sg = true) :
    ratOf (f.decode (f.intCode i)) = (i : ℚ) / 2 ^ f.bias := by
  have hw : 2 ^ f.width = 2 * 2 ^ (f.width - 1) := by
    rw [← pow_succ', Nat.sub_add_cancel hf.width_pos]
  have hp : 0 < 2 ^ (f.width - 1) := by positivity
  have hval : f.intValue (f.intCode i % 2 ^ f.width) = i := by
    have hz : ((2 : Int) ^ f.width) = ((2 ^ f.width : Nat) : Int) := by push_cast; rfl
    simp only [NFmt.top, if_pos h] at hi
    unfold NFmt.intValue NFmt.intCode
    dsimp only
    rw [hb, hz, if_neg Bool.false_ne_true, Nat.mod_mod]
    generalize 2 ^ f.width = W at *
    rcases lt_or_ge i 0 with hlt | hge
    · have hg := hneg hlt
      rw [if_pos hg] at hi
      have hm : i % (W : Int) = i + W := by
        rw [← Int.add_emod_right, Int.emod_eq_of_lt (by omega) (by omega)]
      rw [hm, Nat.mod_eq_of_lt (by omega), if_pos ⟨hg, by omega⟩]
      omega
    · have hm : i % (W : Int) = i := Int.emod_eq_of_lt hge (by split at hi <;> omega)
      rw [hm, Nat.mod_eq_of_lt (by split at hi <;> omega), if_neg (fun hc => by rw [if_pos hc.1] at hi; omega)]
      omega
  rw [f.ratOf_decode_integer h, hval]

theorem signed_natAbs (neg : Bool) (p : Nat) : (Machine.signed neg p).natAbs = p := by
  cases neg <;> simp [Machine.signed]

theorem cast_signed (neg : Bool) (p : Nat) : ((Machine.signed neg p : Int) : ℚ) = signRat neg p := by
  cases neg <;> simp [Machine.signed, signRat]

/-- The code of a magnitude up to M reads back, with its sign. -/
theorem NFmt.Shaped.ratOf_decode_codeAt {f : NFmt} (hf : f.Shaped) (hb : f.binary = false) {neg : Bool} {p : Nat}
    (hp : p ≤ f.top) (hneg : neg = true → f.sg = true ∨ p = 0) (hk : f.Kept p) :
    ratOf (f.decode (f.codeAt neg p)) = signRat neg (f.grid p) := by
  unfold NFmt.codeAt
  split
  · next h =>
    rw [hf.ratOf_decode_intCode h hb ((signed_natAbs neg p).trans_le hp), cast_signed, ← signRat_div, NFmt.grid, if_pos h]
    intro hi
    cases hn : neg
    · simp [hn, Machine.signed] at hi; omega
    · exact (hneg hn).resolve_right (by rintro rfl; simp [hn, Machine.signed] at hi)
  · next h =>
    refine NFmt.ratOf_decode_signed h ?_ hneg (hk h)
    simpa [NFmt.top, h] using hp

/-! ### Conversion (R54) -/

@[simp] theorem NFmt.codeAt_zero_integer {f : NFmt} (h : f.ew = 0) (neg : Bool) : f.codeAt neg 0 = 0 := by
  cases neg <;> simp [NFmt.codeAt, h, NFmt.intCode, Machine.signed]

theorem NFmt.rounded_le_top {f : NFmt} {n d : Nat} (hd : 0 < d) (hx : (n : ℚ) / d ≤ f.grid f.top) :
    f.rounded n d ≤ f.top :=
  (f.nearestAt_rounded n hd).le_of_le f.grid_strictMono hx

theorem NFmt.rounded_zero (f : NFmt) {d : Nat} (hd : 0 < d) : f.rounded 0 d = 0 :=
  (f.nearestAt_rounded 0 hd).eq_of_eq f.grid_strictMono (by simp)

/-- R54 for a format that is not binary: round on the grid, saturate beyond M, and flush what the format does not have. -/
theorem NFmt.encode_fin {f : NFmt} (hb : f.binary = false) (neg : Bool) (n d : Nat) :
    f.encode (.fin neg n d) =
      if f.rounded n d = 0 then { code := f.codeAt neg 0, nan := false, sat := false }
      else if f.top < f.rounded n d ∨ (neg && !f.sg) = true then f.saturated neg false
      else if f.ew ≠ 0 ∧ f.rounded n d < 2 ^ f.mw ∧ f.sub = false then { code := f.codeAt neg 0, nan := false, sat := false }
      else { code := f.codeAt neg (f.rounded n d), nan := false, sat := false } := by
  unfold NFmt.encode
  dsimp only
  by_cases h : f.ew = 0
  · have hr : divRne (n * 2 ^ f.bias) d = f.rounded n d := by rw [NFmt.rounded, if_pos h]
    have ht : (if f.sg = true then 2 ^ (f.width - 1) - 1 else 2 ^ f.width - 1) = f.top := by rw [NFmt.top, if_pos h]
    have hk : ¬ (f.ew ≠ 0 ∧ f.rounded n d < 2 ^ f.mw ∧ f.sub = false) := fun hc => hc.1 h
    rw [if_pos h, hb, if_neg Bool.false_ne_true, hr, ht, NFmt.codeAt_zero_integer h, if_neg hk, NFmt.codeAt, if_pos h]
  · have hr : roundPlace f.mw f.bias n d = f.rounded n d := by rw [NFmt.rounded, if_neg h]
    have ht : f.maxPlace = f.top := by rw [NFmt.top, if_neg h]
    have hc : ∀ p, f.codeAt neg p = f.signed neg p := fun p => by rw [NFmt.codeAt, if_neg h]
    rw [if_neg h, hr, ht, hc, hc]
    simp only [ne_eq, h, not_false_eq_true, true_and, Bool.not_eq_true']

/-- Within ±M a value gets the code of the magnitude it is rounded to. -/
theorem NFmt.encode_within {f : NFmt} (hb : f.binary = false) {neg : Bool} {n d : Nat} (hd : 0 < d)
    (hx : (n : ℚ) / d ≤ f.grid f.top) (hneg : neg = true → n ≠ 0 → f.sg = true) (hk : f.Kept (f.rounded n d)) :
    f.encode (.fin neg n d) = { code := f.codeAt neg (f.rounded n d), nan := false, sat := false } := by
  have htop := f.rounded_le_top hd hx
  rw [f.encode_fin hb]
  split
  · next h0 => rw [h0]
  · next h0 =>
    have hn : n ≠ 0 := fun hn => h0 (hn ▸ f.rounded_zero hd)
    rw [if_neg, if_neg]
    · rintro ⟨h, hlt, hs⟩
      exact (hk h hs).elim h0 (not_le.2 hlt)
    · rintro (hlt | hs)
      · exact not_lt.2 htop hlt
      · cases neg <;> simp_all

theorem NFmt.saturated_code {f : NFmt} (hb : f.binary = false) (h2 : f.spec ≠ 2) {neg : Bool}
    (hneg : neg = true → f.sg = true) : (f.saturated neg false).code = f.codeAt neg f.top := by
  unfold NFmt.saturated NFmt.codeAt NFmt.top
  have hs : ¬ (neg && !f.sg) = true := by cases neg <;> simp_all
  by_cases h : f.ew = 0
  · simp only [if_pos h, hb, Bool.false_eq_true, if_false]
    have h1 : 1 ≤ 2 ^ (f.width - 1) := Nat.one_le_two_pow
    have h1' : 1 ≤ 2 ^ f.width := Nat.one_le_two_pow
    cases hg : f.sg
    · have hn : neg = false := by cases neg <;> simp_all
      have : (((2 ^ f.width - 1 : Nat) : Int) % 2 ^ f.width).toNat = 2 ^ f.width - 1 := by
        rw [show ((2 : Int) ^ f.width) = ((2 ^ f.width : Nat) : Int) by push_cast; rfl,
          Int.emod_eq_of_lt (by omega) (by omega), Int.toNat_natCast]
      simp only [hn, Bool.false_eq_true, if_false, NFmt.intCode, Machine.signed, this]
    · have : ((2 ^ (f.width - 1) - 1 : Nat) : Int) = 2 ^ (f.width - 1) - 1 := by push_cast [h1]; rfl
      cases neg <;> simp [Machine.signed, this]
  · simp only [if_neg h, if_neg hs, if_neg h2]

theorem NFmt.Shaped.top_pos {f : NFmt} (hf : f.Shaped) (hb : f.binary = false) : 0 < f.top := by
  unfold NFmt.top
  split
  · next h =>
    split
    · next hg =>
      have hm : f.mw ≠ 0 := fun hm => by simp [(f.binary_iff).2 ⟨h, hg, hm⟩] at hb
      have hw : f.width - 1 ≠ 0 := by simp [NFmt.width, h, hg, hm]
      have : 2 ≤ 2 ^ (f.width - 1) := Nat.le_self_pow hw 2
      omega
    · have : 2 ≤ 2 ^ f.width := Nat.le_self_pow (by have := hf.width_pos; omega) 2
      omega
  · next h => exact (by positivity : 0 < 2 ^ f.mw).trans_le (hf.le_maxPlace h)

theorem NFmt.Shaped.kept_top {f : NFmt} (hf : f.Shaped) : f.Kept f.top := fun h _ => by
  rw [NFmt.top, if_neg h]
  exact .inr (hf.le_maxPlace h)

/-- Beyond M a value gets the code of ±M, in a format without infinities. -/
theorem NFmt.Shaped.encode_beyond {f : NFmt} (hf : f.Shaped) (hb : f.binary = false) (h2 : f.spec ≠ 2) {neg : Bool}
    {n d : Nat} (hd : 0 < d) (hx : f.grid f.top < (n : ℚ) / d) (hneg : neg = true → f.sg = true) :
    (f.encode (.fin neg n d)).code = f.codeAt neg f.top := by
  have htop := (f.nearestAt_rounded n hd).ge_of_ge f.grid_strictMono hx.le
  have hpos := hf.top_pos hb
  have hsat := f.saturated_code hb h2 hneg
  rw [f.encode_fin hb, if_neg (by omega)]
  split
  · exact hsat
  · next hc =>
    have hr : f.rounded n d = f.top := le_antisymm (not_lt.1 (not_or.1 hc).1) htop
    rw [hr, if_neg]
    rintro ⟨h, hlt, hs⟩
    exact (hf.kept_top h hs).elim hpos.ne' (not_le.2 hlt)

/-- R54: a negative number becomes 0 in an unsigned format. -/
theorem NFmt.encode_neg_unsigned {f : NFmt} (hg : f.sg = false) (n d : Nat) : (f.encode (.fin true n d)).code = 0 := by
  have hb : f.binary = false := by simp [NFmt.binary, hg]
  rw [f.encode_fin hb]
  split
  · by_cases h : f.ew = 0
    · exact NFmt.codeAt_zero_integer h true
    · simp [NFmt.codeAt, h, NFmt.signed, hg]
  · rw [if_pos (.inr (by simp [hg]))]
    unfold NFmt.saturated
    split <;> simp [hb, hg]

/-! ### The binary format -/

theorem NFmt.encode_binary {f : NFmt} (hb : f.binary = true) (neg : Bool) (n d : Nat) :
    f.encode (.fin neg n d) = { code := if neg && n != 0 then 1 else 0, nan := false, sat := false } := by
  simp [NFmt.encode, hb, (f.binary_iff.1 hb).1]

theorem NFmt.width_binary {f : NFmt} (hb : f.binary = true) : f.width = 1 := by
  obtain ⟨h1, h2, h3⟩ := f.binary_iff.1 hb
  simp [NFmt.width, h1, h2, h3]

/-- R50: code 0 is +1 and code 1 is −1, times 2^−BIAS. -/
theorem NFmt.decode_binary {f : NFmt} (hb : f.binary = true) {code : Nat} (hc : code < 2) :
    f.decode code = .fin (code == 1) 1 (2 ^ f.bias) := by
  rw [f.decode_integer (f.binary_iff.1 hb).1, f.width_binary hb]
  have : code = 0 ∨ code = 1 := by omega
  rcases this with rfl | rfl <;> simp [NFmt.intValue, hb, f.width_binary hb]

theorem NFmt.ratOf_decode_encode_binary {f : NFmt} (hb : f.binary = true) (neg : Bool) (n d : Nat) :
    ratOf (f.decode (f.encode (.fin neg n d)).code) = signRat (neg && n != 0) (1 / 2 ^ f.bias) := by
  rw [f.encode_binary hb]
  cases h : (neg && n != 0) <;> simp [f.decode_binary hb, ratOf_fin]

/-! ### Stochastic rounding (R56) -/

theorem placeValue_pos (mb : Nat) (bias : Int) (p : Nat) : 0 < (placeValue mb bias p).2 := by
  unfold placeValue
  split <;> exact scale2_pos Nat.one_pos _

theorem NFmt.largest_pos (f : NFmt) : 0 < f.largest.2 := by
  unfold NFmt.largest
  split
  · positivity
  · exact placeValue_pos ..

theorem beyond_iff {n d : Nat} {m : Nat × Nat} (hd : 0 < d) (hm : 0 < m.2) :
    beyond n d m = true ↔ fracRat m < (n : ℚ) / d := by
  rw [beyond, decide_eq_true_iff, fracRat, div_lt_div_iff₀ (by exact_mod_cast hm) (by exact_mod_cast hd)]
  norm_cast

theorem stochPlace_of_eq {mb : Nat} {bias : Int} {coarse neg : Bool} {n d p : Nat} (r : Nat)
    (h : floorPlace mb bias n d = (p, true)) (hk : coarse = true → p = 0 ∨ 2 ^ mb ≤ p) :
    stochPlace mb bias coarse neg n d r = p := by
  have hlo : (if coarse = true ∧ p < 2 ^ mb then 0 else p) = p := by
    split
    · next hc => rcases hk hc.1 with h0 | h0 <;> omega
    · rfl
  unfold stochPlace
  dsimp only
  rw [h, hlo, if_pos ⟨rfl, rfl⟩]

/-- A value of the format is converted without chance. -/
theorem NFmt.stochastic_grid {f : NFmt} (hb : f.binary = false) {neg : Bool} {n d p : Nat} (hd : 0 < d)
    (hp : (n : ℚ) / d = f.grid p) (hk : f.Kept p) (seed ix : Word) :
    f.stochastic (.fin neg n d) seed ix = f.encode (.fin neg n d) := by
  have hround : f.rounded n d = p := (f.nearestAt_rounded n hd).eq_of_eq f.grid_strictMono hp
  unfold NFmt.stochastic
  dsimp only
  split
  · rfl
  · next hc =>
    obtain ⟨hin, hsign⟩ := not_or.1 hc
    rw [beyond_iff hd f.largest_pos, f.fracRat_largest hb, not_lt] at hin
    have hneg : neg = true → n ≠ 0 → f.sg = true := by
      rintro rfl hn
      simpa [hn] using hsign
    rw [f.encode_within hb hd hin hneg (hround ▸ hk), hround]
    split
    · next h =>
      have hmul : n * 2 ^ f.bias = p * d := by
        rw [NFmt.grid, if_pos h, div_eq_div_iff (by exact_mod_cast hd.ne') (by positivity)] at hp
        exact_mod_cast hp
      rw [hb, if_neg Bool.false_ne_true, hmul, Nat.mul_mod_left, Nat.mul_div_cancel _ hd, if_pos rfl, NFmt.codeAt, if_pos h]
    · next h =>
      rw [NFmt.grid, if_neg h] at hp
      rw [stochPlace_of_eq _ (floorPlace_of_eq hd hp) (fun hs => hk h (by simpa using hs)), NFmt.codeAt, if_neg h]

theorem NFmt.stochastic_binary {f : NFmt} (hb : f.binary = true) (neg : Bool) (seed ix : Word) :
    f.stochastic (.fin neg 1 (2 ^ f.bias)) seed ix = f.encode (.fin neg 1 (2 ^ f.bias)) := by
  unfold NFmt.stochastic
  dsimp only
  simp [hb, (f.binary_iff.1 hb).1]

/-! ### The value of a code, field by field (R49) -/

/-- All bits of a place are ones when all bits of both its fields are. -/
theorem all_ones_iff {a b p : Nat} : p = 2 ^ (a + b) - 1 ↔ p / 2 ^ b = 2 ^ a - 1 ∧ p % 2 ^ b = 2 ^ b - 1 := by
  have ha : 0 < 2 ^ a := by positivity
  have hb : 0 < 2 ^ b := by positivity
  have hab : (2 ^ a - 1) * 2 ^ b + 2 ^ b = 2 ^ (a + b) := by
    rw [← Nat.succ_mul, pow_add]; congr 1; omega
  have hmod := Nat.mod_lt p hb
  constructor
  · rintro rfl
    have : 2 ^ (a + b) - 1 = 2 ^ b - 1 + (2 ^ a - 1) * 2 ^ b := by omega
    rw [this, Nat.add_mul_div_right _ _ hb, Nat.add_mul_mod_self_right, Nat.div_eq_of_lt (by omega),
      Nat.mod_eq_of_lt (by omega), Nat.zero_add]
    exact ⟨rfl, rfl⟩
  · rintro ⟨h1, h2⟩
    have := Nat.div_add_mod' p (2 ^ b)
    rw [h1, h2] at this
    omega

/-- The magnitude at a place, by its exponent and mantissa fields. -/
theorem placeRat_fields (mb : Nat) (bias : Int) (p : Nat) :
    placeRat mb bias p =
      if 0 < p / 2 ^ mb then (2 : ℚ) ^ (((p / 2 ^ mb : Nat) : Int) - bias) * (1 + (p % 2 ^ mb : Nat) / 2 ^ mb)
      else (2 : ℚ) ^ (1 - bias) * ((p % 2 ^ mb : Nat) / 2 ^ mb) := by
  have hm : 0 < 2 ^ mb := by positivity
  have hpow : (2 : ℚ) ^ mb ≠ 0 := by positivity
  rcases Nat.lt_or_ge p (2 ^ mb) with h | h
  · rw [placeRat_subnormal bias h, Nat.div_eq_of_lt h, if_neg (lt_irrefl 0), Nat.mod_eq_of_lt h,
      zpow_sub₀ two_ne_zero, zpow_natCast]
    ring
  · rw [placeRat_normal bias h, if_pos (Nat.div_pos h hm), zpow_sub₀ two_ne_zero, zpow_natCast]
    field_simp

/-- R49: the value of a code of a format with an exponent field. -/
theorem NFmt.decode_fields {f : NFmt} (h : f.ew ≠ 0) {code : Nat} (hc : code < 2 ^ f.width) :
    let m : Nat := code % 2 ^ f.mw
    let e : Nat := code / 2 ^ f.mw % 2 ^ f.ew
    let neg := f.sg && code.testBit (f.ew + f.mw)
    if f.spec = 1 ∧ e = 2 ^ f.ew - 1 ∧ m = 2 ^ f.mw - 1 then f.decode code = .nan
    else if f.spec = 2 ∧ e = 2 ^ f.ew - 1 then f.decode code = (if m = 0 then .inf neg else .nan)
    else ∃ n d, 0 < d ∧ f.decode code = .fin neg n d ∧ ratOf (.fin false n d) =
      (if 0 < e then (2 : ℚ) ^ ((e : Int) - f.bias) * (1 + (m : ℚ) / 2 ^ f.mw)
       else if f.sub then (2 : ℚ) ^ ((1 : Int) - f.bias) * ((m : ℚ) / 2 ^ f.mw) else 0) := by
  intro m e neg
  have hm : code % 2 ^ (f.ew + f.mw) % 2 ^ f.mw = m := Nat.mod_mod_of_dvd _ (pow_dvd_pow 2 (by omega))
  have he : code % 2 ^ (f.ew + f.mw) / 2 ^ f.mw = e := by
    rw [pow_add, Nat.mul_comm, Nat.mod_mul_right_div_self]
  have hlow : code % 2 ^ (f.ew + f.mw) < 2 ^ f.mw ↔ e = 0 := by
    rw [← he, Nat.div_eq_zero_iff_lt (by positivity)]
  have hval := placeRat_fields f.mw f.bias (code % 2 ^ (f.ew + f.mw))
  rw [f.decode_float h hc]
  simp only [all_ones_iff, hm, he, hlow] at hval ⊢
  split
  · rfl
  · split
    · rfl
    · by_cases hs : e = 0 ∧ (!f.sub) = true
      · rw [if_pos hs]
        refine ⟨0, 1, Nat.one_pos, rfl, ?_⟩
        have hsub : f.sub = false := by simpa using hs.2
        simp [ratOf_fin, hs.1, hsub]
      · rw [if_neg hs]
        refine ⟨_, _, placeValue_pos .., rfl, ?_⟩
        rw [ratOf_fin]
        refine hval.trans ?_
        split
        · rfl
        · rw [if_pos]
          by_contra hsub
          exact hs ⟨by omega, by simpa using hsub⟩

/-- R50: the integer of a code, by the sign bit of the format. -/
theorem NFmt.ratOf_decode_integer_fields {f : NFmt} (h : f.ew = 0) {code : Nat} (hc : code < 2 ^ f.width) :
    ratOf (f.decode code) =
      (if f.sg ∧ f.mw = 0 then (if code = 0 then 1 else -1)
       else if f.sg ∧ 2 ^ (f.width - 1) ≤ code then (code : ℚ) - 2 ^ f.width else code) / 2 ^ f.bias := by
  rw [f.ratOf_decode_integer h, Nat.mod_eq_of_lt hc]
  congr 1
  have hb : f.binary = true ↔ f.sg = true ∧ f.mw = 0 := by rw [f.binary_iff]; simp [h]
  unfold NFmt.intValue
  dsimp only
  rw [Nat.mod_eq_of_lt hc]
  simp only [hb]
  split
  · split <;> simp
  · split
    · push_cast; rfl
    · simp

/-! ### Nearest conversion (R54) -/

/-- A finite value of the format lies on the grid, with a sign. -/
theorem NFmt.ratOf_of_decode {f : NFmt} {code : Nat} (hc : code < 2 ^ f.width) (hfin : ∃ a b c, f.decode code = .fin a b c) :
    ∃ neg p, ratOf (f.decode code) = signRat neg (f.grid p) := by
  obtain ⟨neg, n, d, e⟩ := hfin
  obtain ⟨_, p, hp, _⟩ := f.decode_fin hc e
  exact ⟨neg, p, by rw [e, ratOf_fin, hp]⟩

theorem NFmt.Shaped.decode_encode_within {f : NFmt} (hf : f.Shaped) (hb : f.binary = false) {neg : Bool} {n d : Nat}
    (hd : 0 < d) (hsub : f.ew ≠ 0 → f.sub = true) (hneg : neg = true → n ≠ 0 → f.sg = true)
    (hx : (n : ℚ) / d ≤ f.grid f.top) :
    ratOf (f.decode (f.encode (.fin neg n d)).code) = signRat neg (f.grid (f.rounded n d)) := by
  have hk : f.Kept (f.rounded n d) := fun h hs => by simp [hsub h] at hs
  rw [f.encode_within hb hd hx hneg hk]
  refine hf.ratOf_decode_codeAt hb (f.rounded_le_top hd hx) (fun h => ?_) hk
  by_cases hn : n = 0
  · exact .inr (hn ▸ f.rounded_zero hd)
  · exact .inl (hneg h hn)

/-- The two values of the binary format are equally large, so the one of the same sign is a nearest one. -/
theorem signRat_nearest_binary {b x : ℚ} (hx : 0 ≤ x) (hb : 0 ≤ b) {neg near : Bool} (hnear : x = 0 ∨ near = neg) (other : Bool) :
    |signRat neg x - signRat near b| ≤ |signRat neg x - signRat other b| := by
  rcases hnear with rfl | rfl
  · simp
  · rw [abs_signRat_sub]
    exact abs_sub_le_signRat near other hx hb

/-- R54: within ±M, conversion gives a nearest of the format's finite values. -/
theorem NFmt.Shaped.encode_nearest {f : NFmt} (hf : f.Shaped) {neg : Bool} {n d : Nat} (hd : 0 < d)
    (hsub : f.ew ≠ 0 → f.sub = true) (hneg : neg = true → n ≠ 0 → f.sg = true)
    (hx : |ratOf (.fin neg n d)| ≤ fracRat f.largest) {code : Nat} (hc : code < 2 ^ f.width)
    (hfin : ∃ a b c, f.decode code = .fin a b c) :
    |ratOf (.fin neg n d) - ratOf (f.decode (f.encode (.fin neg n d)).code)| ≤
      |ratOf (.fin neg n d) - ratOf (f.decode code)| := by
  have hnn : (0 : ℚ) ≤ (n : ℚ) / d := by positivity
  rw [ratOf_fin, abs_signRat, abs_of_nonneg hnn] at hx
  rw [ratOf_fin]
  cases hb : f.binary
  · rw [f.fracRat_largest hb] at hx
    obtain ⟨other, q, hq⟩ := f.ratOf_of_decode hc hfin
    rw [hf.decode_encode_within hb hd hsub hneg hx, hq, abs_signRat_sub]
    exact (f.nearestAt_rounded n hd q).trans (abs_sub_le_signRat neg other hnn (f.grid_nonneg q))
  · rw [f.width_binary hb] at hc
    rw [f.ratOf_decode_encode_binary hb, f.decode_binary hb hc, ratOf_fin]
    push_cast
    refine signRat_nearest_binary hnn (by positivity) ?_ _
    by_cases hn : n = 0
    · exact .inl (by simp [hn])
    · exact .inr (by simp [hn])

/-- R54: beyond M, conversion gives ±M, in a format without infinities. -/
theorem NFmt.Shaped.decode_encode_beyond {f : NFmt} (hf : f.Shaped) (h2 : f.spec ≠ 2) {neg : Bool} {n d : Nat} (hd : 0 < d)
    (hneg : neg = true → f.sg = true) (hx : fracRat f.largest < |ratOf (.fin neg n d)|) :
    ratOf (f.decode (f.encode (.fin neg n d)).code) = signRat neg (fracRat f.largest) := by
  have hnn : (0 : ℚ) ≤ (n : ℚ) / d := by positivity
  rw [ratOf_fin, abs_signRat, abs_of_nonneg hnn] at hx
  cases hb : f.binary
  · rw [f.fracRat_largest hb] at hx ⊢
    rw [hf.encode_beyond hb h2 hd hx hneg]
    exact hf.ratOf_decode_codeAt hb le_rfl (fun h => .inl (hneg h)) hf.kept_top
  · have hn : n ≠ 0 := by
      rintro rfl
      rw [f.fracRat_largest_binary hb, Nat.cast_zero, zero_div] at hx
      exact absurd hx (not_lt.2 (by positivity))
    rw [f.ratOf_decode_encode_binary hb, f.fracRat_largest_binary hb, bne_iff_ne.2 hn, Bool.and_true]

/-- R56: a value of the format is itself, whatever the random bits are. -/
theorem NFmt.stochastic_decode {f : NFmt} {code : Nat} (hc : code < 2 ^ f.width)
    (hfin : ∃ a b c, f.decode code = .fin a b c) (seed ix : Word) :
    f.stochastic (f.decode code) seed ix = f.encode (f.decode code) := by
  cases hb : f.binary
  · obtain ⟨neg, n, d, e⟩ := hfin
    obtain ⟨hd, p, hp, hk⟩ := f.decode_fin hc e
    rw [e]
    exact f.stochastic_grid hb hd hp hk seed ix
  · rw [f.width_binary hb] at hc
    rw [f.decode_binary hb hc]
    exact f.stochastic_binary hb _ seed ix

/-- Settles O35: the grid of a format's magnitudes rises, the model rounds to a nearest point of it, and each finite code is
a point of it with a sign. -/
theorem narrowFormats : Obligations.NarrowFormats := by
  intro x hx
  have hf := shaped_of_valid hx
  refine ⟨fun code hc h => NFmt.decode_fields h hc, fun code hc h => NFmt.ratOf_decode_integer_fields h hc, ?_, ?_,
    fun n d hg => NFmt.encode_neg_unsigned hg n d, fun seed ix code hc _ hfin => NFmt.stochastic_decode hc hfin seed ix⟩
  · intro neg n d hd hsub hneg hin code hc hfin
    exact hf.encode_nearest hd hsub hneg hin hc hfin
  · intro neg n d hd h2 hneg hout
    exact hf.decode_encode_beyond h2 hd hneg hout

end Sys2Proof.Machine
end

section
/-!
PROOFS. BALLOT in a formation (R279, R426) where the team's next group number is in use.
-/

namespace Sys2Proof.Machine

/-! ### A team whose next group number is in use

A sub-warp that parks becomes a new group under the team's `nextGid`. In `staleTeam` that is the number of the group that
issues, which the statement allows: unlike `Obligations.LaneBranches`, it does not ask that the numbers in use stay below
`nextGid`. When the whole formation parks, the parked sub-warp is then found as the issuer, and BALLOT writes its register. -/

/-- Thread 1 in a formation of number 0, and a next number of 0. -/
def staleFormation : Grp := { Grp.fresh 0 0 0 [(1, 1)] 0x10000 with formation := true }

def staleTeam : Team :=
  { emptyTeam 0 0 loadInfo [] (List.replicate 64 0) with
    threads := [Thread.fresh 0 true false 0, Thread.fresh 1 true false 1], warps := [Warp.fresh true 0 0],
    groups := [staleFormation, Grp.fresh 1 0 0 [(0, 0)] 0x10000], nextGid := 0 }

def staleState : State := { State.reset with teams := [(0, staleTeam)] }

/-- Uniform register s4 of home warp 0 of team 0 after a step. -/
def s4After : Out → Option DWord
  | .next s => (tget s.teams 0).map (fun t => uReg (warpOf t 0) 4)
  | _ => none

theorem issues_staleState : Issues staleState staleTeam staleFormation := rfl

theorem regsPlain_staleState : RegsPlain staleState staleTeam staleFormation [0] := by
  constructor <;> simp [portNamed]

theorem laneSet_staleState : laneSet staleState staleTeam staleFormation = [(1, 1)] := by decide +kernel

/-- BALLOT of v0 into s4 writes lane 1's bit. -/
theorem s4After_ballot : s4After (exec (.ballot 4 0) staleState) = some 2 := by decide +kernel

/-- Parking the lanes and going on leaves s4 alone. -/
theorem s4After_parked : s4After (someParked staleState staleFormation
    (mergeFaults ([(1, 1)].map (fun l : Nat × Nat => (l.2, parkOf staleState 2 0 4))))) = some 0 := by decide +kernel

/-- Refutes O9: in `staleState` the BALLOT of a formation, all of whose lanes park, still writes its uniform register. -/
theorem not_laneVotesAndReductions : ¬ Obligations.LaneVotesAndReductions := by
  unfold Obligations.LaneVotesAndReductions
  rintro ⟨_, _, hpark, _⟩
  obtain ⟨_, hparked⟩ := hpark staleState staleTeam staleFormation 4 0 4 issues_staleState regsPlain_staleState (.inl ⟨rfl, rfl⟩)
  rw [laneSet_staleState] at hparked
  have h := congrArg s4After (hparked (List.cons_ne_nil _ _))
  rw [s4After_ballot, s4After_parked] at h
  exact absurd h (by decide)

end Sys2Proof.Machine
end

section
/-!
PROOFS. Words in the three-register formats (R230, R231, R240): the fields of a word, and the form that it decodes to.
-/

namespace Sys2Proof

/-! ### The fields of a three-register word -/

section Fields
variable (op : BitVec 7) (st : BitVec 3) (d a b : BitVec 6) (g f : BitVec 2)

theorem getLsbD_wordA (i : Nat) : (wordA op st d a b g f).getLsbD i =
    if i < 2 then f.getLsbD i else if i < 4 then g.getLsbD (i - 2) else if i < 10 then b.getLsbD (i - 4)
    else if i < 16 then a.getLsbD (i - 10) else if i < 22 then d.getLsbD (i - 16) else if i < 25 then st.getLsbD (i - 22)
    else op.getLsbD (i - 25) := by
  simp only [wordA, BitVec.getLsbD_append]
  grind

theorem fld_eq_of_bits {w : Word} {lo len : Nat} {x : BitVec len} (h : ∀ i < len, w.getLsbD (lo + i) = x.getLsbD i) :
    fld w lo len = x := by
  ext i hi
  rw [fld, BitVec.getElem_extractLsb', h i hi, BitVec.getLsbD_eq_getElem]

theorem fld_wordA_op : fld (wordA op st d a b g f) 25 7 = op :=
  fld_eq_of_bits fun i hi => by rw [getLsbD_wordA]; grind

theorem fld_wordA_stall : fld (wordA op st d a b g f) 22 3 = st :=
  fld_eq_of_bits fun i hi => by rw [getLsbD_wordA]; grind

theorem fld_wordA_vd : fld (wordA op st d a b g f) 16 6 = d :=
  fld_eq_of_bits fun i hi => by rw [getLsbD_wordA]; grind

theorem fld_wordA_va : fld (wordA op st d a b g f) 10 6 = a :=
  fld_eq_of_bits fun i hi => by rw [getLsbD_wordA]; grind

theorem fld_wordA_vb : fld (wordA op st d a b g f) 4 6 = b :=
  fld_eq_of_bits fun i hi => by rw [getLsbD_wordA]; grind

theorem fld_wordA_guard : fld (wordA op st d a b g f) 2 2 = g :=
  fld_eq_of_bits fun i hi => by rw [getLsbD_wordA]; grind

theorem fld_wordA_form : fld (wordA op st d a b g f) 0 2 = f :=
  fld_eq_of_bits fun i hi => by rw [getLsbD_wordA]; grind

end Fields

/-- The instruction has no register limit (R421, R425), and its word has the field G and no field SC (R230). -/
structure Instr.Plain (i : Instr) : Prop where
  limits : i.limitFault = none
  guard : i.hasGuard = true
  scope : i.hasScope = false

/-- A word that is neither LIT nor MQ is a group of its own (R235). -/
theorem decodeGroup_single {w : Word} {i : Instr} (hlit : opOf w ≠ 0x4C) (hmq : opOf w ≠ 0x53)
    (hw : decodeWord w = .ok i) (hi : i.Plain) :
    decodeGroup [w] = .ok { instr := i, hdr := { stall := fld w 22 3, guard := fld w 2 2, scope := 0 }, len := 1 } := by
  simp [decodeGroup, isLit, isMq, hlit, hmq, decodeBehind, hw, checkLimits, hi.limits, headerOf, hi.guard, hi.scope]

end Sys2Proof

namespace Sys2Proof.Machine

/-- Every word of the row's opcode and form decodes, as a group of its own, to the row's instruction of its fields. -/
structure RowDecodes (x : FormRow) : Prop where
  word : ∀ w : Word, Sys2Proof.opOf w = x.1.toNat → formOf w = x.2.1.toNat →
    decodeWord w = .ok (x.2.2 (fld w 16 6) (fld w 10 6) (fld w 4 6))
  plain : ∀ d a b, (x.2.2 d a b).Plain
  alone : x.1 ≠ 0x4C ∧ x.1 ≠ 0x53

theorem wordForms_of_rows {l : List FormRow} (h : ∀ x ∈ l, RowDecodes x) : WordForms l := by
  intro x hx st d a b g
  obtain ⟨hword, hplain, hlit, hmq⟩ := h x hx
  have hop : Sys2Proof.opOf (wordA x.1 st d a b g x.2.1) = x.1.toNat := congrArg BitVec.toNat (fld_wordA_op ..)
  have hform : formOf (wordA x.1 st d a b g x.2.1) = x.2.1.toNat := congrArg BitVec.toNat (fld_wordA_form ..)
  have hdec := hword _ hop hform
  rw [fld_wordA_vd, fld_wordA_va, fld_wordA_vb] at hdec
  have h1 := decodeGroup_single (fun e => hlit (BitVec.eq_of_toNat_eq (hop.symm.trans e)))
    (fun e => hmq (BitVec.eq_of_toNat_eq (hop.symm.trans e))) hdec (hplain d a b)
  rwa [fld_wordA_stall, fld_wordA_guard] at h1

end Sys2Proof.Machine
end

section
/-!
PROOFS. Lane integer arithmetic on 32-bit words (R258 to R262): the model's numbers are the statement's words.
-/

namespace Sys2Proof.Machine

/-! ### Minimum, maximum and mean (R258, R259) -/

theorem smin32_eq_sle (a b : Word) : smin32 a b = if a.sle b then a else b := by
  simp only [smin32, BitVec.sle_iff_toInt_le]

theorem smax32_eq_sle (a b : Word) : smax32 a b = if b.sle a then a else b := by
  simp only [smax32, BitVec.sle_iff_toInt_le]

theorem nmin32_eq_le (a b : Word) : nmin32 a b = if a ≤ b then a else b := rfl

theorem nmax32_eq_le (a b : Word) : nmax32 a b = if b ≤ a then a else b := rfl

/-- 33 bits hold the sum of two words and one. -/
theorem toNat_zeroExtend33_sum (a b : Word) :
    (a.zeroExtend 33 + b.zeroExtend 33 + 1).toNat = a.toNat + b.toNat + 1 := by
  have ha := a.isLt
  have hb := b.isLt
  have h1 : (1 : BitVec 33).toNat = 1 := rfl
  rw [BitVec.toNat_add, BitVec.toNat_add, BitVec.toNat_setWidth_of_le (by decide), BitVec.toNat_setWidth_of_le (by decide), h1]
  omega

theorem navg32_eq_shift (a b : Word) :
    navg32 a b = ((a.zeroExtend 33 + b.zeroExtend 33 + 1) >>> 1).truncate 32 := by
  apply BitVec.eq_of_toNat_eq
  rw [navg32, BitVec.toNat_ofNat, BitVec.truncate_eq_setWidth, BitVec.toNat_setWidth, BitVec.toNat_ushiftRight,
    toNat_zeroExtend33_sum, Nat.shiftRight_eq_div_pow]

/-! ### The high half of a product (R260) -/

theorem ofNat_div_high (x : DWord) : BitVec.ofNat 32 (x.toNat / 2 ^ 32) = (x >>> 32).truncate 32 := by
  apply BitVec.eq_of_toNat_eq
  rw [BitVec.toNat_ofNat, BitVec.truncate_eq_setWidth, BitVec.toNat_setWidth, BitVec.toNat_ushiftRight,
    Nat.shiftRight_eq_div_pow]

/-- A double word's sign weighs 2^64, so it does not reach the low 32 bits of the floor quotient by 2^32. -/
theorem ofInt_div_high (x : DWord) : BitVec.ofInt 32 (x.toInt / 2 ^ 32) = (x >>> 32).truncate 32 := by
  rw [← ofNat_div_high]
  apply BitVec.eq_of_toNat_eq
  have hx := x.isLt
  rw [BitVec.toNat_ofInt, BitVec.toNat_ofNat, BitVec.toInt_eq_toNat_cond]
  split <;> omega

theorem toInt_signExtend_mul (a b : Word) :
    (a.signExtend 64 * b.signExtend 64 : DWord).toInt = a.toInt * b.toInt := by
  have hle := BitVec.toInt_mul_toInt_le (x := a) (y := b)
  have hge := BitVec.le_toInt_mul_toInt (x := a) (y := b)
  rw [BitVec.toInt_mul, BitVec.toInt_signExtend_of_le (by decide), BitVec.toInt_signExtend_of_le (by decide),
    Int.bmod_eq_of_le (by omega) (by omega)]

theorem toNat_zeroExtend_mul (a b : Word) :
    (a.zeroExtend 64 * b.zeroExtend 64 : DWord).toNat = a.toNat * b.toNat := by
  have h : a.toNat * b.toNat < 2 ^ 32 * 2 ^ 32 := Nat.mul_lt_mul'' a.isLt b.isLt
  rw [BitVec.toNat_mul, BitVec.toNat_setWidth_of_le (by decide), BitVec.toNat_setWidth_of_le (by decide),
    Nat.mod_eq_of_lt (by omega)]

theorem imulh32_eq_shift (a b : Word) :
    imulh32 a b = ((a.signExtend 64 * b.signExtend 64) >>> 32).truncate 32 := by
  rw [imulh32, ← toInt_signExtend_mul, ofInt_div_high]

theorem nmulh32_eq_shift (a b : Word) :
    nmulh32 a b = ((a.zeroExtend 64 * b.zeroExtend 64) >>> 32).truncate 32 := by
  rw [nmulh32, ← toNat_zeroExtend_mul, ofNat_div_high]

/-! ### Shifts by the whole count (R262) -/

theorem shl32_eq (a n : Word) : shl32 a n = a <<< n.toNat := by
  unfold shl32
  split
  next h => exact (BitVec.shiftLeft_eq_zero h).symm
  next => rfl

theorem shr32_eq (a n : Word) : shr32 a n = a >>> n.toNat := by
  unfold shr32
  split
  next h => exact (BitVec.ushiftRight_eq_zero h).symm
  next => rfl

/-- From a count of 32 on, an arithmetic shift leaves 32 copies of the sign. -/
theorem sshiftRight_of_le (a : Word) {n : Nat} (h : 32 ≤ n) : a.sshiftRight n = if a.msb then 0xFFFFFFFF else 0 := by
  cases hm : a.msb
  · rw [BitVec.sshiftRight_eq_of_msb_false hm, BitVec.ushiftRight_eq_zero h]; rfl
  · rw [BitVec.sshiftRight_eq_of_msb_true hm, BitVec.ushiftRight_eq_zero h]; rfl

theorem sar32_eq (a n : Word) : sar32 a n = a.sshiftRight n.toNat := by
  unfold sar32
  split
  next h => exact (sshiftRight_of_le a h).symm
  next => rfl

theorem rol32_eq (a n : Word) : rol32 a n = a.rotateLeft n.toNat := BitVec.rotateLeft_mod_eq_rotateLeft

/-! ### The forms and their words -/

/-- The rows of R258 to R262. -/
def laneIntegerRows : List FormRow :=
  [(0x00, 0, .iadd), (0x00, 1, .isub), (0x00, 2, .imin), (0x00, 3, .imax), (0x01, 0, .nmin), (0x01, 1, .nmax),
   (0x01, 2, .iabsd), (0x01, 3, .navg), (0x02, 0, .imul), (0x02, 1, .imulh), (0x02, 2, .nmulh), (0x02, 3, .imad),
   (0x03, 0, .and), (0x03, 1, .or), (0x03, 2, .xor), (0x03, 3, .andn), (0x04, 0, .shl), (0x04, 1, .shr),
   (0x04, 2, .sar), (0x04, 3, .rol)]

theorem rowDecodes_laneInteger : ∀ x ∈ laneIntegerRows, RowDecodes x := by
  intro x hx
  fin_cases hx
  -- Each row is an arm of the decoder's table.
  all_goals exact ⟨fun w hop hform => by unfold decodeWord; rewrite [hop, hform]; rfl, fun _ _ _ => ⟨rfl, rfl, rfl⟩, by decide⟩

/-- Settles O1: each form computes its word function on the lanes' registers, and the model's functions are those of the
statement. -/
theorem laneIntegerAndLogic : Obligations.LaneIntegerAndLogic :=
  ⟨lane2_of (fun _ _ _ _ => rfl) (fun _ _ => rfl),
   lane2_of (fun _ _ _ _ => rfl) (fun _ _ => rfl),
   lane2_of (fun _ _ _ _ => rfl) smin32_eq_sle,
   lane2_of (fun _ _ _ _ => rfl) smax32_eq_sle,
   lane2_of (fun _ _ _ _ => rfl) nmin32_eq_le,
   lane2_of (fun _ _ _ _ => rfl) nmax32_eq_le,
   lane2_of (fun _ _ _ _ => rfl) (fun _ _ => rfl),
   lane2_of (fun _ _ _ _ => rfl) navg32_eq_shift,
   lane2_of (fun _ _ _ _ => rfl) (fun _ _ => rfl),
   lane2_of (fun _ _ _ _ => rfl) imulh32_eq_shift,
   lane2_of (fun _ _ _ _ => rfl) nmulh32_eq_shift,
   lane3_of (f := fun d a b => d + a * b) (fun _ _ _ _ => rfl) (fun _ _ _ => rfl),
   lane2_of (fun _ _ _ _ => rfl) (fun _ _ => rfl),
   lane2_of (fun _ _ _ _ => rfl) (fun _ _ => rfl),
   lane2_of (fun _ _ _ _ => rfl) (fun _ _ => rfl),
   lane2_of (f := fun a b => a &&& ~~~b) (fun _ _ _ _ => rfl) (fun _ _ => rfl),
   lane2_of (fun _ _ _ _ => rfl) shl32_eq,
   lane2_of (fun _ _ _ _ => rfl) shr32_eq,
   lane2_of (fun _ _ _ _ => rfl) sar32_eq,
   lane2_of (fun _ _ _ _ => rfl) rol32_eq,
   wordForms_of_rows rowDecodes_laneInteger⟩

end Sys2Proof.Machine
end

section
/-!
PROOFS. Bit counts, bit fields and byte permutation of 32-bit words (R263, R264): the model's numbers, bit by bit.
-/

namespace Sys2Proof.Machine

/-! ### Counting forms (R263) -/

theorem popCount_eq_countP (n x : Nat) : popCount n x = (List.range n).countP (fun i => x.testBit i) := by
  induction n generalizing x with
  | zero => rfl
  | succ n ih =>
    rw [List.range_succ_eq_map, List.countP_cons, List.countP_map, popCount, ih, Nat.add_comm]
    simp only [Function.comp_def, Nat.testBit_succ, Nat.testBit_zero, decide_eq_true_eq]
    split <;> omega

theorem lowestSet_eq_find? (n x : Nat) : lowestSet n x = (List.range n).find? (fun i => x.testBit i) := by
  induction n generalizing x with
  | zero => rfl
  | succ n ih =>
    rw [List.range_succ_eq_map, List.find?_cons, List.find?_map, lowestSet, ih]
    simp only [Function.comp_def, Nat.testBit_succ, Nat.testBit_zero]
    by_cases h : x % 2 = 1 <;> simp [h]

theorem reverseBits_lt (n x : Nat) : reverseBits n x < 2 ^ n := by
  induction n generalizing x with
  | zero => exact Nat.one_pos
  | succ n ih =>
    have h2 := Nat.mod_lt x two_pos
    have hn := ih (x / 2)
    have hm : x % 2 * 2 ^ n ≤ 1 * 2 ^ n := Nat.mul_le_mul_right _ (by omega)
    rw [reverseBits, pow_succ]
    omega

theorem testBit_reverseBits (n x i : Nat) :
    (reverseBits n x).testBit i = (decide (i < n) && x.testBit (n - 1 - i)) := by
  induction n generalizing x with
  | zero => simp [reverseBits]
  | succ n ih =>
    rw [reverseBits, Nat.mul_comm, Nat.testBit_two_pow_mul_add _ (reverseBits_lt n _), ih]
    split
    next h =>
      rw [← Nat.testBit_succ, show (n - 1 - i).succ = n + 1 - 1 - i by omega]
      simp [h, Nat.lt_succ_of_lt h]
    next h =>
      rcases Nat.lt_or_ge n i with hi | hi
      · have hlt : x % 2 < 2 ^ (i - n) :=
          lt_of_lt_of_le (Nat.mod_lt x two_pos) (Nat.le_self_pow (by omega) 2)
        rw [Nat.testBit_lt_two_pow hlt, decide_eq_false (by omega), Bool.false_and]
      · obtain rfl : i = n := by omega
        simp

theorem popc32_eq (a : Word) : popc32 a = BitVec.ofNat 32 ((List.range 32).countP (fun i => a.getLsbD i)) := by
  rw [popc32, popCount_eq_countP]; rfl

theorem ffs32_eq (a : Word) : ffs32 a = match (List.range 32).find? (fun i => a.getLsbD i) with
    | some i => BitVec.ofNat 32 i
    | none => 0xFFFFFFFF := by
  rw [ffs32, lowestSet_eq_find?]; rfl

theorem brev32_eq (a : Word) : brev32 a = a.reverse := by
  ext i hi
  rw [← BitVec.getLsbD_eq_getElem, ← BitVec.getLsbD_eq_getElem, brev32, BitVec.getLsbD_ofNat, testBit_reverseBits,
    BitVec.getLsbD_reverse, BitVec.getMsbD_eq_getLsbD, BitVec.testBit_toNat, decide_eq_true hi, Bool.true_and]

/-- The highest set bit of a word that is not 0 lies below its leading zeros. -/
theorem log2_eq_sub_clz {a : Word} (h : a ≠ 0) : Nat.log2 a.toNat = 31 - a.clz.toNat := by
  have h0 : a.toNat ≠ 0 := fun e => h (BitVec.eq_of_toNat_eq e)
  have hlt : a.clz.toNat < 32 := BitVec.clz_lt_iff_ne_zero.2 h
  have hlo := BitVec.two_pow_sub_clz_le_toNat_of_ne_zero (by decide) h
  have hhi := a.toNat_lt_two_pow_sub_clz
  rw [Nat.log2_eq_iff h0]
  refine ⟨hlo, ?_⟩
  rwa [show 31 - a.clz.toNat + 1 = 32 - a.clz.toNat by omega]

theorem clz32_eq (a : Word) : clz32 a = a.clz := by
  by_cases h : a = 0
  · subst h; rfl
  · have h0 : a.toNat ≠ 0 := fun e => h (BitVec.eq_of_toNat_eq e)
    have hlt : a.clz.toNat < 32 := BitVec.clz_lt_iff_ne_zero.2 h
    rw [clz32, leadingZeros, if_neg h0, log2_eq_sub_clz h, show 32 - 1 - (31 - a.clz.toNat) = a.clz.toNat by omega,
      BitVec.ofNat_toNat, BitVec.setWidth_eq]

/-! ### Bit fields (R264) -/

theorem bitsAt_toNat {w : Nat} (x : BitVec w) (lo n : Nat) : bitsAt x.toNat lo n = (x.extractLsb' lo n).toNat := by
  rw [bitsAt, BitVec.extractLsb'_toNat, Nat.shiftRight_eq_div_pow]

theorem fieldPos_eq (b : Word) : fieldPos b = min (b.extractLsb' 0 8).toNat 32 := by
  rw [fieldPos, BitVec.extractLsb'_toNat, Nat.shiftRight_zero]

theorem fieldLen_eq (b : Word) : fieldLen b = min (b.extractLsb' 8 8).toNat (32 - fieldPos b) := by
  rw [fieldLen, BitVec.extractLsb'_toNat, Nat.shiftRight_eq_div_pow]

theorem fieldPos_add_fieldLen_le (b : Word) : fieldPos b + fieldLen b ≤ 32 := by
  have hp : fieldPos b ≤ 32 := Nat.min_le_right ..
  have hn : fieldLen b ≤ 32 - fieldPos b := Nat.min_le_right ..
  omega

/-- The mask of the low `n` bits of a word. -/
def lowMask (n : Nat) : Word := ~~~(BitVec.allOnes 32 <<< n)

theorem getLsbD_lowMask (n i : Nat) : (lowMask n).getLsbD i = (decide (i < n) && decide (i < 32)) := by
  simp only [lowMask, BitVec.getLsbD_not, BitVec.getLsbD_shiftLeft, BitVec.getLsbD_allOnes]
  grind

theorem toNat_lowMask {n : Nat} (hn : n ≤ 32) : (lowMask n).toNat = 2 ^ n - 1 := by
  apply Nat.eq_of_testBit_eq
  intro i
  rw [Nat.testBit_two_pow_sub_one, BitVec.testBit_toNat, getLsbD_lowMask]
  grind

/-- BFXN: a field, zero-extended. -/
theorem bfxn32_eq (a b : Word) : bfxn32 a b = (a >>> fieldPos b) &&& lowMask (fieldLen b) := by
  ext i hi
  simp only [← BitVec.getLsbD_eq_getElem, bfxn32, bitsAt_toNat, BitVec.getLsbD_and, BitVec.getLsbD_ushiftRight, getLsbD_lowMask,
    BitVec.getLsbD_ofNat, BitVec.testBit_toNat, BitVec.getLsbD_extractLsb', hi, decide_true, Bool.true_and, Bool.and_comm]

/-- A field of `n` bits is negative from `2 ^ (n - 1)` on. -/
theorem ofInt_field (n : Nat) (hn : n ≠ 0) (x : BitVec n) :
    BitVec.ofInt 32 (if 2 ^ (n - 1) ≤ x.toNat then (x.toNat : Int) - 2 ^ n else x.toNat) = x.signExtend 32 := by
  have h2 : 2 ^ n = 2 * 2 ^ (n - 1) := by rw [← pow_succ', Nat.sub_add_cancel (by omega)]
  rw [BitVec.signExtend, BitVec.toInt_eq_toNat_cond]
  congr 1
  split
  next h => rw [if_neg (by omega)]; push_cast; rfl
  next h => rw [if_pos (by omega)]

/-- Shifting a field to the top and back down, with the sign, sign-extends it. -/
theorem signExtend_field (a : Word) {p n : Nat} (hn : n ≠ 0) (h : p + n ≤ 32) :
    (a.extractLsb' p n).signExtend 32 = ((a >>> p) <<< (32 - n)).sshiftRight (32 - n) := by
  ext i hi
  simp only [← BitVec.getLsbD_eq_getElem, BitVec.getLsbD_signExtend, BitVec.getLsbD_sshiftRight, BitVec.getLsbD_shiftLeft,
    BitVec.getLsbD_ushiftRight, BitVec.msb_eq_getLsbD_last, BitVec.getLsbD_extractLsb']
  grind

theorem bfx32_eq (a b : Word) : bfx32 a b = if fieldLen b = 0 then 0
    else ((a >>> fieldPos b) <<< (32 - fieldLen b)).sshiftRight (32 - fieldLen b) := by
  unfold bfx32
  dsimp only
  split
  next => rfl
  next h => rw [bitsAt_toNat, ofInt_field _ h, signExtend_field a h (fieldPos_add_fieldLen_le b)]

theorem ofNat_mul_two_pow (k p : Nat) : BitVec.ofNat 32 (k * 2 ^ p) = BitVec.ofNat 32 k <<< p := by
  apply BitVec.eq_of_toNat_eq
  simp [BitVec.toNat_shiftLeft, Nat.shiftLeft_eq]

theorem ofNat_two_pow_sub_one {n : Nat} (hn : n ≤ 32) : BitVec.ofNat 32 (2 ^ n - 1) = lowMask n := by
  rw [← toNat_lowMask hn, BitVec.ofNat_toNat, BitVec.setWidth_eq]

theorem ofNat_mod_two_pow (a : Word) {n : Nat} (hn : n ≤ 32) : BitVec.ofNat 32 (a.toNat % 2 ^ n) = a &&& lowMask n := by
  rw [← Nat.and_two_pow_sub_one_eq_mod, ← toNat_lowMask hn, ← BitVec.toNat_and, BitVec.ofNat_toNat, BitVec.setWidth_eq]

/-- BFI: what is inserted lies under the mask already, so the bits of `a` above the field do not matter. -/
theorem bfi32_eq (d a b : Word) : bfi32 d a b =
    (d &&& ~~~(lowMask (fieldLen b) <<< fieldPos b)) ||| ((a <<< fieldPos b) &&& (lowMask (fieldLen b) <<< fieldPos b)) := by
  have hn : fieldLen b ≤ 32 := le_trans (Nat.le_add_left ..) (fieldPos_add_fieldLen_le b)
  rw [bfi32, ofNat_mul_two_pow, ofNat_mul_two_pow, ofNat_two_pow_sub_one hn, ofNat_mod_two_pow a hn]
  simp only [BitVec.shiftLeft_and_distrib, BitVec.and_assoc, BitVec.and_self]

/-! ### Byte permutation (R264) -/

theorem toNat_append_mul {n m : Nat} (x : BitVec n) (y : BitVec m) : (x ++ y).toNat = y.toNat + 2 ^ m * x.toNat := by
  rw [BitVec.toNat_append, ← Nat.shiftLeft_add_eq_or_of_lt y.isLt, Nat.shiftLeft_eq, Nat.add_comm, Nat.mul_comm]

/-- The word of four bytes, the first one lowest. -/
theorem ofNat_ofBytes_four (b0 b1 b2 b3 : Byte) :
    BitVec.ofNat 32 (ofBytes [b0, b1, b2, b3]) = (b3 ++ b2 ++ b1 ++ b0 : BitVec 32) := by
  have hbytes : ofBytes [b0, b1, b2, b3] = (b3 ++ b2 ++ b1 ++ b0).toNat := by
    rw [toNat_append_mul, toNat_append_mul, toNat_append_mul]; rfl
  rw [hbytes, BitVec.ofNat_toNat]
  exact BitVec.setWidth_eq _

/-- The byte that a selector picks from the eight: bits [2:0] choose it, and bit 3 asks for eight copies of its sign (R264). -/
def selectedByte (x : BitVec 64) (choice : BitVec 3) (sign : Bool) : Byte :=
  let b := x.extractLsb' (8 * choice.toNat) 8
  if sign then (if b.msb then 0xFF#8 else 0#8) else b

theorem ofNat_prmtByte (x : BitVec 64) (d : Word) (i : Nat) :
    BitVec.ofNat 8 (prmtByte x.toNat (bitsAt d.toNat (4 * i) 4)) =
      selectedByte x (d.extractLsb' (4 * i) 3) (d.getLsbD (4 * i + 3)) := by
  have hchoice : bitsAt d.toNat (4 * i) 4 % 8 = (d.extractLsb' (4 * i) 3).toNat := by
    rw [← bitsAt_toNat, bitsAt, bitsAt]; omega
  have hsign : (bitsAt d.toNat (4 * i) 4).testBit 3 = d.getLsbD (4 * i + 3) := by
    rw [bitsAt_toNat, BitVec.testBit_toNat, BitVec.getLsbD_extractLsb']; rfl
  rw [prmtByte, hchoice, hsign, bitsAt_toNat, BitVec.testBit_toNat, selectedByte]
  cases d.getLsbD (4 * i + 3)
  · simp only [Bool.false_eq_true, if_false, BitVec.ofNat_toNat, BitVec.setWidth_eq]
  · simp only [if_true, BitVec.msb_eq_getLsbD_last, Nat.add_one_sub_one]
    split <;> rfl

theorem prmt32_eq (d a b : Word) : prmt32 d a b =
    let byte := fun i => selectedByte (b ++ a) (d.extractLsb' (4 * i) 3) (d.getLsbD (4 * i + 3))
    (byte 3 ++ byte 2 ++ byte 1 ++ byte 0 : BitVec 32) := by
  rw [prmt32, ← toNat_append_mul]
  simp only [ofNat_prmtByte]
  exact ofNat_ofBytes_four ..

/-! ### The forms and their words -/

/-- The rows of R263 and R264. -/
def laneBitRows : List FormRow :=
  [(0x05, 0, fun d a _ => .popc d a), (0x05, 1, fun d a _ => .clz d a), (0x05, 2, fun d a _ => .brev d a),
   (0x05, 3, fun d a _ => .ffs d a), (0x06, 0, .bfx), (0x06, 1, .bfxn), (0x06, 2, .bfi), (0x06, 3, .prmt)]

theorem rowDecodes_laneBit : ∀ x ∈ laneBitRows, RowDecodes x := by
  intro x hx
  fin_cases hx
  -- Each row is an arm of the decoder's table.
  all_goals exact ⟨fun w hop hform => by unfold decodeWord; rewrite [hop, hform]; rfl, fun _ _ _ => ⟨rfl, rfl, rfl⟩, by decide⟩

/-- Settles O2: each form computes its word function on the lanes' registers, and the model's functions agree with the
statement's bit by bit. -/
theorem laneBitFields : Obligations.LaneBitFields := by
  have hbfxn : Lane2 .bfxn _ := lane2_of (fun _ _ _ _ => rfl) bfxn32_eq
  have hbfx : Lane2 .bfx _ := lane2_of (fun _ _ _ _ => rfl) bfx32_eq
  have hbfi : Lane3 .bfi _ := lane3_of (f := bfi32) (fun _ _ _ _ => rfl) bfi32_eq
  have hprmt : Lane3 .prmt _ := lane3_of (f := prmt32) (fun _ _ _ _ => rfl) prmt32_eq
  simp only [fieldLen_eq, fieldPos_eq] at hbfxn hbfx hbfi
  exact ⟨lane1_of (fun _ _ _ => rfl) popc32_eq, lane1_of (fun _ _ _ => rfl) clz32_eq, lane1_of (fun _ _ _ => rfl) brev32_eq,
    lane1_of (fun _ _ _ => rfl) ffs32_eq, hbfxn, hbfx, hbfi, hprmt, wordForms_of_rows rowDecodes_laneBit⟩

end Sys2Proof.Machine
end

section
/-!
PROOFS. Uniform arithmetic, compares, immediates and scalar FP32 (R234, R311 to R315, R318): the model's numbers are the
statement's words of 64 bits.
-/

namespace Sys2Proof.Machine

/-! ### Minimum and maximum (R311) -/

theorem smin64_eq_sle (a b : DWord) : smin64 a b = if a.sle b then a else b := by
  simp only [smin64, BitVec.sle_iff_toInt_le]

theorem smax64_eq_sle (a b : DWord) : smax64 a b = if a.sle b then b else a := by
  simp only [smax64, BitVec.sle_iff_toInt_le]

/-! ### The high half of a product (R311) -/

/-- The floor quotient of a signed number by 2^w, modulo 2^w, is the bits from `w` on. -/
theorem ofInt_toInt_div_two_pow {n w : Nat} (x : BitVec n) (h : w + w ≤ n) :
    BitVec.ofInt w (x.toInt / 2 ^ w) = (x >>> w).truncate w := by
  have hdiv : x.toInt / 2 ^ w = (x.sshiftRight w).toInt := by
    rw [BitVec.toInt_sshiftRight, Int.shiftRight_eq_div_pow]; push_cast; rfl
  rw [hdiv, ← BitVec.signExtend]
  ext i hi
  simp only [← BitVec.getLsbD_eq_getElem, BitVec.getLsbD_signExtend, BitVec.getLsbD_sshiftRight, BitVec.truncate_eq_setWidth,
    BitVec.getLsbD_setWidth, BitVec.getLsbD_ushiftRight]
  grind

theorem toInt_signExtend128_mul (a b : DWord) :
    (a.signExtend 128 * b.signExtend 128 : BitVec 128).toInt = a.toInt * b.toInt := by
  have hle := BitVec.toInt_mul_toInt_le (x := a) (y := b)
  have hge := BitVec.le_toInt_mul_toInt (x := a) (y := b)
  rw [BitVec.toInt_mul, BitVec.toInt_signExtend_of_le (by decide), BitVec.toInt_signExtend_of_le (by decide),
    Int.bmod_eq_of_le (by omega) (by omega)]

theorem smulh64_eq_shift (a b : DWord) :
    smulh64 a b = ((a.signExtend 128 * b.signExtend 128) >>> 64).truncate 64 := by
  rw [smulh64, ← toInt_signExtend128_mul, ofInt_toInt_div_two_pow _ le_rfl]

/-! ### Shifts by the whole count (R311) -/

theorem shl64_eq (a n : DWord) : shl64 a n = a <<< n.toNat := by
  unfold shl64
  split
  next h => exact (BitVec.shiftLeft_eq_zero h).symm
  next => rfl

theorem shr64_eq (a n : DWord) : shr64 a n = a >>> n.toNat := by
  unfold shr64
  split
  next h => exact (BitVec.ushiftRight_eq_zero h).symm
  next => rfl

/-- From a count of 64 on, an arithmetic shift leaves 64 copies of the sign. -/
theorem sshiftRight_of_sixtyFour_le (a : DWord) {n : Nat} (h : 64 ≤ n) :
    a.sshiftRight n = if a.msb then BitVec.allOnes 64 else 0 := by
  cases hm : a.msb
  · rw [BitVec.sshiftRight_eq_of_msb_false hm, BitVec.ushiftRight_eq_zero h]; rfl
  · rw [BitVec.sshiftRight_eq_of_msb_true hm, BitVec.ushiftRight_eq_zero h]; rfl

theorem sar64_eq (a n : DWord) : sar64 a n = a.sshiftRight n.toNat := by
  unfold sar64
  split
  next h => exact (sshiftRight_of_sixtyFour_le a h).symm
  next => rfl

theorem rotl64_eq (a : DWord) (n : Nat) : rotl64 a n = a.rotateLeft n := BitVec.rotateLeft_mod_eq_rotateLeft

/-! ### Counting forms (R311) -/

theorem ofNat_popCount64 (a : DWord) :
    BitVec.ofNat 64 (popCount 64 a.toNat) = BitVec.ofNat 64 ((List.range 64).countP (fun i => a.getLsbD i)) := by
  rw [popCount_eq_countP]; rfl

theorem ffs64_eq (a : DWord) : ffs64 a = match (List.range 64).find? (fun i => a.getLsbD i) with
    | some i => BitVec.ofNat 64 i
    | none => 0xFFFFFFFFFFFFFFFF := by
  rw [ffs64, lowestSet_eq_find?]; rfl

theorem ofNat_reverseBits {w : Nat} (a : BitVec w) : BitVec.ofNat w (reverseBits w a.toNat) = a.reverse := by
  ext i hi
  rw [← BitVec.getLsbD_eq_getElem, ← BitVec.getLsbD_eq_getElem, BitVec.getLsbD_ofNat, testBit_reverseBits,
    BitVec.getLsbD_reverse, BitVec.getMsbD_eq_getLsbD, BitVec.testBit_toNat, decide_eq_true hi, Bool.true_and]

/-- In a number that is not 0, the highest set bit is just below the leading zeros. -/
theorem leadingZeros_eq_clz (a : DWord) : leadingZeros 64 a.toNat = a.clz.toNat := by
  unfold leadingZeros
  split
  next h =>
    obtain rfl : a = 0 := BitVec.eq_of_toNat_eq h
    rfl
  next h =>
    have ha : a ≠ 0 := fun e => h (congrArg BitVec.toNat e)
    have hlt : a.clz.toNat < 64 := BitVec.clz_lt_iff_ne_zero.2 ha
    have hlog : Nat.log2 a.toNat = 63 - a.clz.toNat := by
      rw [Nat.log2_eq_iff h, show 63 - a.clz.toNat + 1 = 64 - a.clz.toNat by omega]
      exact ⟨BitVec.two_pow_sub_clz_le_toNat_of_ne_zero (by decide) ha, a.toNat_lt_two_pow_sub_clz⟩
    omega

theorem ofNat_leadingZeros64 (a : DWord) : BitVec.ofNat 64 (leadingZeros 64 a.toNat) = a.clz := by
  rw [leadingZeros_eq_clz, BitVec.ofNat_toNat, BitVec.setWidth_eq]

/-! ### Compares (R234, R312) -/

theorem combine_eq_combined (f : BitVec 2) (old cond : Bool) : combine f old cond = combined f old cond := by
  decide +revert

theorem intCond_eq_getD {n : Nat} (cc : BitVec 3) (a b : BitVec n) : intCond cc a b =
    [a == b, a != b, a.slt b, a.sle b, b.slt a, b.sle a, a.ult b, b.ule a].getD cc.toNat false := by
  unfold intCond
  have hcc := cc.isLt
  interval_cases cc.toNat
  -- Each condition is the statement's test by definition.
  all_goals rfl

/-! ### Scalar floating point (R318) -/

theorem ofInt_eq_fin (a : DWord) : FVal.ofInt a.toInt = .fin a.msb a.toInt.natAbs 1 := by
  rw [FVal.ofInt, BitVec.msb_eq_toInt]

theorem clamp_eq_max_min (x : Int) {lo hi : Int} (h : lo ≤ hi) : clamp x lo hi = max lo (min hi x) := by
  unfold clamp
  split
  · omega
  · split <;> omega

theorem sf2i64_eq (x : Word) : sf2i64 x = match f32 x with
    | .nan => 0
    | .inf neg => if neg then 0x8000000000000000 else 0x7FFFFFFFFFFFFFFF
    | .fin neg n d => BitVec.ofInt 64 (max (-2 ^ 63) (min (2 ^ 63 - 1) (if neg then -(divRne n d : Int) else divRne n d))) := by
  unfold sf2i64
  cases f32 x with
  | nan => rfl
  | inf neg => rfl
  | fin neg n d => exact congrArg (BitVec.ofInt 64) (clamp_eq_max_min _ (by decide))

/-! ### The forms and their words -/

/-- A form written over `uniformResult` completes with what its function makes of the home warp. -/
theorem uniWrites_of {i : Instr} {sd : BitVec 6} {f : Warp → DWord} {val : State → Team → Grp → DWord}
    (h : ∀ s, exec i s = uniformResult sd f s) (hf : ∀ s t g, f (warpOf t g.warp) = val s t g) : UniWrites i sd val := by
  intro s t g hr
  rw [h, uniformResult_plain sd f hr, hf s t g]

/-- SSETC (R312) sets its flag to what F makes of the old flag and the condition. -/
theorem exec_ssetc {s : State} {t : Team} {g : Grp} (cd cc : BitVec 3) (sa sb : BitVec 6) (f : BitVec 2) (h : UniReady s t g) :
    exec (.ssetc cd cc sa sb f) s = wentOn s (modWarp t g.warp (fun w => setFlag w cd.toNat (combined f (uFlag w cd.toNat)
      (let a := sreg t g sa
       let b := sreg t g sb
       [a == b, a != b, a.slt b, a.sle b, b.slt a, b.sle a, a.ult b, b.ule a].getD cc.toNat false)))) := by
  show execSsetc cd cc sa sb f s = _
  rw [execSsetc, uniformForm_runs h]
  simp only [combine_eq_combined, intCond_eq_getD]
  exact finish_setTeam ..

/-- The rows of R311, whose F values choose among instructions. -/
def uniformIntegerRows : List FormRow :=
  [(0x40, 0, .sadd), (0x40, 1, .ssub), (0x40, 2, .smin), (0x40, 3, .smax), (0x41, 0, .smul), (0x41, 1, .smulh),
   (0x41, 2, .sdivn), (0x41, 3, .sremn), (0x42, 0, .sand), (0x42, 1, .sor), (0x42, 2, .sxor), (0x42, 3, .sandn),
   (0x43, 0, .sshl), (0x43, 1, .sshr), (0x43, 2, .ssar), (0x43, 3, .srol), (0x44, 0, fun d a _ => .spopc d a),
   (0x44, 1, fun d a _ => .sclz d a), (0x44, 2, fun d a _ => .sbrev d a), (0x44, 3, fun d a _ => .sffs d a)]

theorem rowDecodes_uniformInteger : ∀ x ∈ uniformIntegerRows, RowDecodes x := by
  intro x hx
  fin_cases hx
  -- Each row is an arm of the decoder's table.
  all_goals exact ⟨fun w hop hform => by unfold decodeWord; rewrite [hop, hform]; rfl, fun _ _ _ => ⟨rfl, rfl, rfl⟩, by decide⟩

/-- The row of SSEL (R313) whose F field names flag c(4 + k). -/
def sselRow (k : BitVec 2) : FormRow := (0x46, k, fun d a b => .ssel d a b k)

theorem rowDecodes_ssel (k : BitVec 2) : RowDecodes (sselRow k) where
  word w hop hform := by
    have hk : fld w 0 2 = k := BitVec.eq_of_toNat_eq hform
    unfold decodeWord
    rewrite [hop, hk]
    rfl
  plain _ _ _ := ⟨rfl, rfl, rfl⟩
  alone := ⟨(by decide : (0x46#7) ≠ 0x4C), (by decide : (0x46#7) ≠ 0x53)⟩

theorem rowDecodes_uniform : ∀ x ∈ uniformIntegerRows ++ [0, 1, 2, 3].map sselRow, RowDecodes x :=
  List.forall_mem_append.2 ⟨rowDecodes_uniformInteger, List.forall_mem_map.2 fun k _ => rowDecodes_ssel k⟩

/-- Settles O13: each form computes its function on the home warp's registers, and the model's functions are those of the
statement. -/
theorem uniformArithmetic : Obligations.UniformArithmetic :=
  ⟨uni2_of (fun _ _ _ _ => rfl) (fun _ _ => rfl),
   uni2_of (fun _ _ _ _ => rfl) (fun _ _ => rfl),
   uni2_of (fun _ _ _ _ => rfl) smin64_eq_sle,
   uni2_of (fun _ _ _ _ => rfl) smax64_eq_sle,
   uni2_of (fun _ _ _ _ => rfl) (fun _ _ => rfl),
   uni2_of (fun _ _ _ _ => rfl) smulh64_eq_shift,
   uni2_of (f := sdivn64) (fun _ _ _ _ => rfl) (fun _ _ => rfl),
   uni2_of (f := sremn64) (fun _ _ _ _ => rfl) (fun _ _ => rfl),
   uni2_of (fun _ _ _ _ => rfl) (fun _ _ => rfl),
   uni2_of (fun _ _ _ _ => rfl) (fun _ _ => rfl),
   uni2_of (fun _ _ _ _ => rfl) (fun _ _ => rfl),
   uni2_of (f := fun a b => a &&& ~~~b) (fun _ _ _ _ => rfl) (fun _ _ => rfl),
   uni2_of (fun _ _ _ _ => rfl) shl64_eq,
   uni2_of (fun _ _ _ _ => rfl) shr64_eq,
   uni2_of (fun _ _ _ _ => rfl) sar64_eq,
   uni2_of (f := fun a n => rotl64 a n.toNat) (fun _ _ _ _ => rfl) (fun a n => rotl64_eq a n.toNat),
   uni1_of (f := fun a => BitVec.ofNat 64 (popCount 64 a.toNat)) (fun _ _ _ => rfl) ofNat_popCount64,
   uni1_of (f := fun a => BitVec.ofNat 64 (leadingZeros 64 a.toNat)) (fun _ _ _ => rfl) ofNat_leadingZeros64,
   uni1_of (f := fun a => BitVec.ofNat 64 (reverseBits 64 a.toNat)) (fun _ _ _ => rfl) ofNat_reverseBits,
   uni1_of (fun _ _ _ => rfl) ffs64_eq,
   fun _ _ _ cd cc sa sb f h => exec_ssetc cd cc sa sb f h,
   fun _ _ _ _ => uniWrites_of (fun _ => rfl) (fun _ _ _ => rfl),
   uni1_of (f := id) (fun _ _ _ => rfl) (fun _ => rfl),
   unii_of (f := fun imm a => a + immUniform imm) (fun _ _ _ _ => rfl)
     (fun imm a => congrArg (a + ·) (immUniform_eq_immDWord imm)),
   fun _ imm => uniWrites_of (fun _ => rfl) (fun _ _ _ => immUniform_eq_immDWord imm),
   unii_of (f := fun imm a => shl64 a (immUniform imm)) (fun _ _ _ _ => rfl)
     (fun imm a => immUniform_eq_immDWord imm ▸ shl64_eq a _),
   unii_of (f := fun imm a => a &&& immUniform imm) (fun _ _ _ _ => rfl)
     (fun imm a => congrArg (a &&& ·) (immUniform_eq_immDWord imm)),
   unii_of (f := fun imm a => a ||| immUniform imm) (fun _ _ _ _ => rfl)
     (fun imm a => congrArg (a ||| ·) (immUniform_eq_immDWord imm)),
   uni2_of (f := fun a b => zext32 (fadd32 (low32 a) (low32 b))) (fun _ _ _ _ => rfl) (fun _ _ => rfl),
   uni2_of (f := fun a b => zext32 (fsub32 (low32 a) (low32 b))) (fun _ _ _ _ => rfl) (fun _ _ => rfl),
   uni2_of (f := fun a b => zext32 (fmul32 (low32 a) (low32 b))) (fun _ _ _ _ => rfl) (fun _ _ => rfl),
   fun _ _ _ => uniWrites_of (fun _ => rfl) (fun _ _ _ => rfl),
   uni1_of (f := fun a => zext32 (to32 (FVal.ofInt a.toInt))) (fun _ _ _ => rfl)
     (fun a => congrArg (fun v => zext32 (to32 v)) (ofInt_eq_fin a)),
   uni1_of (f := fun a => sf2i64 (low32 a)) (fun _ _ _ => rfl) (fun a => sf2i64_eq (low32 a)),
   uni1_of (f := fun a => zext32 (frcp32 (low32 a))) (fun _ _ _ => rfl) (fun _ => rfl),
   uni1_of (f := fun a => zext32 (fsqrt32 (low32 a))) (fun _ _ _ => rfl) (fun _ => rfl),
   wordForms_of_rows rowDecodes_uniform⟩

end Sys2Proof.Machine
end

section
/-!
PROOFS. The uniform jumps (R238, R324, R325): where they go, and their words.
-/

namespace Sys2Proof

/-! ### The fields of a jump's word -/

section Fields
variable (op : BitVec 7) (st : BitVec 3) (off : BitVec 18) (g f : BitVec 2)

theorem getLsbD_wordB (i : Nat) : (wordB op st off g f).getLsbD i =
    if i < 2 then f.getLsbD i else if i < 4 then g.getLsbD (i - 2) else if i < 22 then off.getLsbD (i - 4)
    else if i < 25 then st.getLsbD (i - 22) else op.getLsbD (i - 25) := by
  simp only [wordB, BitVec.getLsbD_append]
  grind

theorem fld_wordB_op : fld (wordB op st off g f) 25 7 = op :=
  fld_eq_of_bits fun i hi => by rw [getLsbD_wordB]; grind

theorem fld_wordB_stall : fld (wordB op st off g f) 22 3 = st :=
  fld_eq_of_bits fun i hi => by rw [getLsbD_wordB]; grind

theorem fld_wordB_off : fld (wordB op st off g f) 4 18 = off :=
  fld_eq_of_bits fun i hi => by rw [getLsbD_wordB]; grind

theorem fld_wordB_guard : fld (wordB op st off g f) 2 2 = g :=
  fld_eq_of_bits fun i hi => by rw [getLsbD_wordB]; grind

theorem fld_wordB_form : fld (wordB op st off g f) 0 2 = f :=
  fld_eq_of_bits fun i hi => by rw [getLsbD_wordB]; grind

end Fields

/-- A word in the branch format whose opcode and F value the decoder reads as `mk` of the offset is a group of its own. -/
theorem decodeGroup_wordB {op : BitVec 7} {f : BitVec 2} {mk : BitVec 18 → Instr} (hlit : op ≠ 0x4C) (hmq : op ≠ 0x53)
    (hplain : ∀ off, (mk off).Plain)
    (hword : ∀ w : Word, opOf w = op.toNat → formOf w = f.toNat → decodeWord w = .ok (mk (fld w 4 18)))
    (st : BitVec 3) (off : BitVec 18) (g : BitVec 2) :
    decodeGroup [wordB op st off g f] =
      .ok { instr := mk off, hdr := { stall := st, guard := g, scope := 0 }, len := 1 } := by
  have hop : opOf (wordB op st off g f) = op.toNat := congrArg BitVec.toNat (fld_wordB_op ..)
  have hform : formOf (wordB op st off g f) = f.toNat := congrArg BitVec.toNat (fld_wordB_form ..)
  have hdec := hword _ hop hform
  rw [fld_wordB_off] at hdec
  have h1 := decodeGroup_single (fun e => hlit (BitVec.eq_of_toNat_eq (hop.symm.trans e)))
    (fun e => hmq (BitVec.eq_of_toNat_eq (hop.symm.trans e))) hdec (hplain off)
  rwa [fld_wordB_stall, fld_wordB_guard] at h1

theorem decodeGroup_jmp (st : BitVec 3) (off : BitVec 18) (g : BitVec 2) :
    decodeGroup [wordB 0x58 st off g 0] =
      .ok { instr := .jmp off, hdr := { stall := st, guard := g, scope := 0 }, len := 1 } :=
  decodeGroup_wordB (by decide) (by decide) (fun _ => ⟨rfl, rfl, rfl⟩)
    (fun w hop hform => by unfold decodeWord; rewrite [hop, hform]; rfl) st off g

theorem decodeGroup_jcall (st : BitVec 3) (off : BitVec 18) (g : BitVec 2) :
    decodeGroup [wordB 0x58 st off g 1] =
      .ok { instr := .jcall off, hdr := { stall := st, guard := g, scope := 0 }, len := 1 } :=
  decodeGroup_wordB (by decide) (by decide) (fun _ => ⟨rfl, rfl, rfl⟩)
    (fun w hop hform => by unfold decodeWord; rewrite [hop, hform]; rfl) st off g

end Sys2Proof

namespace Sys2Proof.Machine

/-! ### Where a jump goes -/

theorem jumpTarget_eq (g : Grp) (off : BitVec 18) : jumpTarget g off = g.pc + 4 * off.signExtend 56 := by
  rw [jumpTarget, BitVec.shiftLeft_eq_mul_twoPow, BitVec.mul_comm]; rfl

theorem jumpTo_eq (s : State) (t : Team) (pc : BitVec 56) : jumpTo s t pc = jumped s t pc := rfl

theorem jumpTo_setTeam (s : State) (t t' : Team) (pc : BitVec 56) :
    jumpTo (setTeam s s.cur.team t) t' pc = jumped s t' pc := by
  simp [jumpTo, jumped, advance]

/-! ### The jumps as uniform-set forms -/

theorem exec_jmp_eq (off : BitVec 18) (s : State) :
    exec (.jmp off) s = uniformForm false s (fun s t g => jumpTo s t (jumpTarget g off)) := rfl

theorem exec_jcall_eq (off : BitVec 18) (s : State) : exec (.jcall off) s = uniformForm true s (fun s t g =>
    jumpTo s (modWarp t g.warp (fun w => setU w 63 ((nextPc s g).setWidth 64))) (jumpTarget g off)) := rfl

theorem exec_sret_eq (s : State) :
    exec .sret s = uniformForm false s (fun s t g => jumpTo s t (regTarget (uReg (warpOf t g.warp) 63))) := rfl

theorem exec_jmpr_eq (sa : BitVec 6) (s : State) :
    exec (.jmpr sa) s = uniformForm false s (fun s t g => jumpTo s t (regTarget (uReg (warpOf t g.warp) sa.toNat))) := rfl

section Runs
variable {s : State} {t : Team} {g : Grp} (h : UniReady s t g)
include h

theorem exec_jmp (off : BitVec 18) : exec (.jmp off) s = jumped s t (g.pc + 4 * off.signExtend 56) := by
  rw [exec_jmp_eq, uniformForm_runs h, jumpTarget_eq]
  exact jumpTo_eq ..

theorem exec_jcall (off : BitVec 18) : exec (.jcall off) s = jumped s (modWarp t g.warp (fun w =>
    setU w 63 ((g.pc + BitVec.ofNat 56 (4 * s.cur.len)).zeroExtend 64))) (g.pc + 4 * off.signExtend 56) := by
  rw [exec_jcall_eq, uniformForm_runs h, jumpTarget_eq]
  exact jumpTo_setTeam ..

theorem exec_sret : exec .sret s = jumped s t ((sreg t g 63).truncate 56 &&& ~~~3) := by
  rw [exec_sret_eq, uniformForm_runs h]
  exact jumpTo_eq ..

theorem exec_jmpr (sa : BitVec 6) : exec (.jmpr sa) s = jumped s t ((sreg t g sa).truncate 56 &&& ~~~3) := by
  rw [exec_jmpr_eq, uniformForm_runs h]
  exact jumpTo_eq ..

end Runs

/-! ### A false guard (R233) -/

/-- In a masked sub-warp a handler, too, passes over a form whose guard is false. -/
theorem uniformForm_skips_of_place {s : State} {t : Team} {g : Grp} (hi : Issues s t g) (hf : g.formation = false)
    (hm : g.masked = false ∨ g.handler = true) (hg : uFlag (warpOf t g.warp) s.cur.hdr.guard.toNat = false) (writes : Bool)
    (run : State → Team → Grp → Out) (chk : Check) : uniformForm writes s run chk = wentOn s t := by
  rcases hm with hm | hm
  · exact uniformForm_skips hi hf hm hg writes run chk
  · unfold uniformForm
    rw [withIssuer_of hi]
    simp [hf, hm, hg, finish_eq]

theorem exec_jump_of_guard_false {s : State} {t : Team} {g : Grp} (hi : Issues s t g) (hf : g.formation = false)
    (hm : g.masked = false ∨ g.handler = true) (hg : uFlag (warpOf t g.warp) s.cur.hdr.guard.toNat = false)
    (off : BitVec 18) (sa : BitVec 6) {i : Instr} (hmem : i ∈ [Instr.jmp off, .jcall off, .sret, .jmpr sa]) :
    exec i s = wentOn s t := by
  have hskip := uniformForm_skips_of_place hi hf hm hg (chk := noCheck)
  fin_cases hmem
  · exact (exec_jmp_eq off s).trans (hskip ..)
  · exact (exec_jcall_eq off s).trans (hskip ..)
  · exact (exec_sret_eq s).trans (hskip ..)
  · exact (exec_jmpr_eq sa s).trans (hskip ..)

/-! ### The words of the register jumps (R325) -/

def registerJumpRows : List FormRow := [(0x59, 0, fun _ _ _ => .sret), (0x59, 1, fun _ a _ => .jmpr a)]

theorem rowDecodes_registerJump : ∀ x ∈ registerJumpRows, RowDecodes x := by
  intro x hx
  fin_cases hx
  all_goals exact ⟨fun w hop hform => by unfold decodeWord; rewrite [hop, hform]; rfl, fun _ _ _ => ⟨rfl, rfl, rfl⟩, by decide⟩

/-- Settles O15: each jump is a uniform-set form that runs in its place and is passed over under a false guard, and its word
is an arm of the decoder's table. -/
theorem uniformJumps : Obligations.UniformJumps :=
  ⟨fun _ _ _ off h => ⟨exec_jmp h off, exec_jcall h off⟩,
   fun _ _ _ h => exec_sret h,
   fun _ _ _ sa h => exec_jmpr h sa,
   fun _ _ _ hi hf hm hg off sa _ hmem => exec_jump_of_guard_false hi hf hm hg off sa hmem,
   fun st off g => ⟨decodeGroup_jmp st off g, decodeGroup_jcall st off g⟩,
   wordForms_of_rows rowDecodes_registerJump⟩

end Sys2Proof.Machine
end
